-- ==== Sys2Proof/Word.lean ====
section
/-!
DEFINITION. The word types of the package and their plainest arithmetic (spec/00_scope.md R4, spec/01_package.md R14,
spec/23_faults_execution.md R436).
-/

namespace Sys2Proof

/-- A byte of memory (R4: memory is little-endian). -/
abbrev Byte := BitVec 8

/-- A 32-bit lane-word (R14). -/
abbrev Word := BitVec 32

/-- A 64-bit value: a virtual address, a pair of registers, a wide register (R138). -/
abbrev DWord := BitVec 64

/-- A word together with its 4-bit residue (R14, R436): `good v` has the residue of its value, `poison` the residue code
0xF, and `bad v res` any other residue, which is a residue mismatch. -/
inductive LWord where
  | good (v : Word)
  | poison
  | bad (v : Word) (res : BitVec 4)
  deriving DecidableEq, Repr, Inhabited

/-- The residue of a good word (R436): its value mod 15. -/
def residue (v : Word) : BitVec 4 := BitVec.ofNat 4 (v.toNat % 15)

/-- The value of a word that is not poison. A stored mismatch is met before it is read (R436). -/
def LWord.val : LWord → Word
  | .good v => v
  | .poison => 0
  | .bad v _ => v

/-- Whether a word is poison (R7). -/
def LWord.isPoison : LWord → Bool
  | .poison => true
  | _ => false

/-- Whether a word is a residue mismatch (R436). -/
def LWord.isBad : LWord → Bool
  | .bad v r => decide (r ≠ residue v) && decide (r ≠ 0xF)
  | _ => false

/-- The low 32 bits of a 64-bit value. -/
def lo32 (x : DWord) : Word := x.setWidth 32

/-- The high 32 bits of a 64-bit value. -/
def hi32 (x : DWord) : Word := (x >>> 32).setWidth 32

/-- A pair of words as a 64-bit value, the low word first (R138). -/
def pair64 (lo hi : Word) : DWord := hi ++ lo

end Sys2Proof
end

