-- ==== Sys2Proof/Machine/Bits.lean ====
section
/-!
DEFINITION. Bit fields, byte order and lane masks (spec/00_scope.md R4, R7).
-/

namespace Sys2Proof.Machine

/-- Bits [hi:lo] of a number (R4). -/
def nbits (x hi lo : Nat) : Nat := (x >>> lo) % 2 ^ (hi + 1 - lo)

/-- Bit i of a number. -/
def nbit (x i : Nat) : Bool := x.testBit i

/-- The two's complement value of the low n bits of a number (R7: sext). -/
def sextInt (n x : Nat) : Int :=
  let v := x % 2 ^ n
  if v < 2 ^ (n - 1) then (v : Int) else (v : Int) - (2 ^ n : Nat)

/-- The residue of an integer mod 2^n, as a number. -/
def modPow (n : Nat) (x : Int) : Nat := (x % (2 ^ n : Nat)).toNat

/-- The lanes of a mask in ascending order. -/
def lanesOf (m : Word) : List Nat := (List.range 32).filter m.getLsbD

/-- One bit as a mask. -/
def bitMask (i : Nat) : Word := (1 : Word) <<< i

/-- The mask of a list of lanes. -/
def maskOf (l : List Nat) : Word := l.foldl (fun m i => m ||| bitMask i) 0

/-- The mask of the lanes for which a test holds. -/
def maskWhere (p : Nat → Bool) : Word := maskOf ((List.range 32).filter p)

/-- The lowest lane of a mask (0 when it is empty). -/
def lowestLane (m : Word) : Nat := (lanesOf m).headD 0

/-- A number as n little-endian bytes (R4). -/
def toBytes : Nat → Nat → List Byte
  | 0, _ => []
  | n + 1, x => BitVec.ofNat 8 x :: toBytes n (x / 256)

/-- Little-endian bytes as a number (R4). -/
def ofBytes : List Byte → Nat
  | [] => 0
  | b :: bs => b.toNat + 256 * ofBytes bs

/-- A number as n big-endian bytes (R121, R122: most significant byte first). -/
def toBytesBE (n x : Nat) : List Byte := (toBytes n x).reverse

/-- Big-endian bytes as a number. -/
def ofBytesBE (bs : List Byte) : Nat := ofBytes bs.reverse

/-- Bit j of the reversed word is bit 31 - j (R227). -/
def bitReverse (v : Word) : Word := maskWhere (fun j => v.getLsbD (31 - j))

/-- The number of 1 bits (R227). -/
def popCount (v : Word) : Nat := (lanesOf v).length

/-- The number of zero bits above the highest 1 bit (R227). -/
def clz (v : Word) : Nat := if v = 0 then 32 else 31 - v.toNat.log2

/-- The number of zero bits below the lowest 1 bit (R227). -/
def ctz (v : Word) : Nat := if v = 0 then 32 else lowestLane v

/-- The mask of all ones or zero that a compare writes (R229). -/
def boolMask (r : Bool) : Word := if r then 0xFFFFFFFF else 0

/-- The least multiple of k at or above x, in units of k. -/
def ceilDiv (x k : Nat) : Nat := (x + k - 1) / k

/-- Replace the element at an index. -/
def setAt {α : Type} : List α → Nat → α → List α
  | [], _, _ => []
  | _ :: l, 0, v => v :: l
  | x :: l, n + 1, v => x :: setAt l n v

/-- Remove the element at an index. -/
def removeAt {α : Type} : List α → Nat → List α
  | [], _ => []
  | _ :: l, 0 => l
  | x :: l, n + 1 => x :: removeAt l n

/-- CRC-32C of bytes, the check of a flit (R387), each byte from its lowest bit up. -/
def crc32c (bs : List Byte) : BitVec 32 :=
  let bit (c : BitVec 32) : BitVec 32 := if c.getLsbD 0 then (c >>> 1) ^^^ 0x82F63B78 else c >>> 1
  ~~~(bs.foldl (fun (c : BitVec 32) b => (List.range 8).foldl (fun c _ => bit c) (c ^^^ b.setWidth 32)) 0xFFFFFFFF)

end Sys2Proof.Machine
end

