-- ==== Sys2Proof/Syntax.lean ====
section
/-!
DEFINITION. The syntax of the package: instruction words as data (spec/08_encoding.md R158 to R173) and one constructor of
`Instr` for every row of spec/opcode_table.json. The rows from `launchWindowHeader` on are not instruction words: they are
the events of the package (spec/95_what_each_step_holds.md), and their operands name the agent and the object concerned.
-/

namespace Sys2Proof

/-- A guard (R167): the bit of v1 it selects, and whether it is negated. Index 0 not negated is "always". -/
structure Guard where
  idx : BitVec 5
  neg : Bool
  deriving DecidableEq, Repr, Inhabited

/-- The guard that is always true. -/
def Guard.always : Guard := ⟨0, false⟩

/-- The word form (R158): base, extended, base with a literal, extended with a literal. -/
inductive Form where
  | base
  | ext
  | baseLit
  | extLit
  deriving DecidableEq, Repr, Inhabited

/-- The length of a form in 32-bit words (R158). -/
def Form.words : Form → Nat
  | .base => 1
  | .ext => 3
  | .baseLit => 3
  | .extLit => 5

/-- What every instruction word holds besides its operands: form, guard, switch marker and literal (R158, R161). -/
structure Hdr where
  form  : Form
  guard : Guard
  s     : Bool
  lit   : BitVec 64
  deriving DecidableEq, Repr, Inhabited

/-- The lane pattern of an extended source (R168), with its amount. -/
inductive Pat where
  | ident
  | rot (k : BitVec 5)
  | bc (k : BitVec 5)
  | bfly (k : BitVec 5)
  | mir (k : BitVec 5)
  | srot (k : BitVec 5)
  deriving DecidableEq, Repr, Inhabited

/-- A source operand: a register under a pattern (R163, R168), an immediate of the base form (R160), or the literal
(`lit` reads the low 32 or all 64 bits, `litHi` reads bits [63:32], R163). -/
inductive Src where
  | reg (r : BitVec 8) (p : Pat)
  | imm6 (v : BitVec 6)
  | imm12 (v : BitVec 12)
  | imm12hi (v : BitVec 12)
  | off18 (v : BitVec 18)
  | lit
  | litHi
  deriving DecidableEq, Repr, Inhabited

/-- The operand that a word does not use: register 0 with the identity pattern. -/
def Src.zero : Src := .reg 0 .ident

/-- Destination and sources of a word (R162). -/
structure Opnds where
  d : BitVec 8
  a : Src
  b : Src
  c : Src
  deriving DecidableEq, Repr, Inhabited

/-- The type codes (R137), in code order. -/
inductive Ty where
  | i8 | i16 | i32 | i64 | n8 | n16 | n32 | n64
  | f16 | bf16 | f32 | f64 | e4m3 | e5m2 | e2m1 | e8m0
  deriving DecidableEq, Repr, Inhabited

/-- Rounding modes (R141). -/
inductive Rnd where
  | rn | rz | ru | rd
  deriving DecidableEq, Repr, Inhabited

/-- Orders of a memory word (R76). -/
inductive Order where
  | rlx | acq | rel | ar
  deriving DecidableEq, Repr, Inhabited

/-- Scopes (R73). -/
inductive Scope where
  | fib | spd | wg | cl | die | pkg | sys
  deriving DecidableEq, Repr, Inhabited

/-- Access sizes (R165). -/
inductive Size where
  | n8 | n16 | b32 | b64 | b128 | i8 | i16
  deriving DecidableEq, Repr, Inhabited

/-- Layout I of `mods` (R164). -/
structure IMods where
  ty  : Ty
  sat : Bool
  x   : BitVec 11
  deriving DecidableEq, Repr, Inhabited

/-- Layout F of `mods` (R164). -/
structure FMods where
  rnd : Rnd
  sat : Bool
  ftz : Bool
  na  : BitVec 2
  nb  : BitVec 2
  nc  : BitVec 2
  ty  : Ty
  deriving DecidableEq, Repr, Inhabited

/-- Layout T of `mods` (R164). -/
structure TMods where
  rnd   : Rnd
  sat   : Bool
  ftz   : Bool
  dtype : Ty
  stype : Ty
  deriving DecidableEq, Repr, Inhabited

/-- Layout M of `mods` (R164) with the access attributes that operand c carries (R165). -/
structure MMods where
  order : Order
  scope : Scope
  cache : BitVec 2
  x     : BitVec 9
  sz    : Size
  creg  : BitVec 8
  deriving DecidableEq, Repr, Inhabited

/-- The majors admitted to a pair slot (R173). -/
inductive PairOp where
  | add | sub | mul | mad | min | max | sad | andO | orO | xorO | andn | shl | shr | sar | rot | perm | mov | dp4
  | fadd | fmul | ffma | fmin | hadd2 | hmul2 | hfma2 | hmin2
  deriving DecidableEq, Repr, Inhabited

/-- One slot of a pair word (R171): its operation, destination and sources, registers only. -/
structure Slot where
  op : PairOp
  d  : BitVec 8
  a  : BitVec 8
  b  : BitVec 8
  c  : BitVec 8
  deriving DecidableEq, Repr, Inhabited

/-- A flit of Gimond Link (R387): its header, and the bytes of its payload; those it does not list are 0. -/
structure Flit where
  crc   : BitVec 32
  eseq  : Nat
  lseq  : Nat
  dst   : Nat
  src   : Nat
  kind  : Nat
  part  : Nat
  len   : Nat
  data  : List (BitVec 8)
  deriving DecidableEq, Repr, Inhabited

/-- A command of a stream (R389). The manual gives no command format: the model's own forms are an add to a counter, a
write of bytes, and a contribution to a collective (log entry 22). -/
inductive FabricCmd where
  | addCounter (pa : Nat) (v : BitVec 64)
  | write (pa : Nat) (bytes : List (BitVec 8))
  | contribution (cid rank : Nat) (ws : List (BitVec 32))
  deriving DecidableEq, Repr, Inhabited

/-- What a peer answers at a rendezvous (R392, R457): its rank, whether its stream has failed, and the card it holds. -/
structure RdvReply where
  rank   : Nat
  failed : Bool
  tid    : BitVec 64
  cid    : Nat
  cop    : Nat
  cnt    : Nat
  ety    : Nat
  deriving DecidableEq, Repr, Inhabited

/-- A host access through a decoder with `hdb` = 0 (R115, R394): a read of a word or a write of one. -/
inductive HostAccess where
  | read
  | write (v : BitVec 32)
  | writePoison
  deriving DecidableEq, Repr, Inhabited

/-- SPDM requests (R393): certificates, measurements, a key exchange that opens a session with its key-transfer key. -/
inductive SpdmReq where
  | certificates
  | measurements
  | keyExchange (session : BitVec 32) (ktk : BitVec 256)
  deriving DecidableEq, Repr, Inhabited

/-- TDISP requests (R395). -/
inductive TdispReq where
  | lock | start | stop
  deriving DecidableEq, Repr, Inhabited

/-- What the governor of a die has at the end of a window (R398, R403): the averages, the voltage it set, the hottest sensor, the
cycles it withheld, and the partitions beyond their shares of the power allowance. -/
structure GovReading where
  amps     : BitVec 16
  watts    : BitVec 16
  mv       : BitVec 8
  temp     : BitVec 8
  withheld : BitVec 64
  beyond   : BitVec 20
  deriving DecidableEq, Repr, Inhabited

/-- A step of the preparation of a row command (R117): its job, and 64 times a pair plus the step of that pair. -/
structure PrepareStep where
  job  : Nat
  step : Nat
  deriving DecidableEq, Repr, Inhabited

/-- Which ports have trained (R402): the fabric ports, and the CXL port. -/
structure Trained where
  fabric : BitVec 36
  cxl    : Bool
  deriving DecidableEq, Repr, Inhabited

/-- The instruction words and the events of the package, one constructor per row of spec/opcode_table.json. -/
inductive Instr where
  /-- R233. Changes no state; with S = 1 it serves as a bare switch marker. -/
  | nop (h : Hdr) (o : Opnds)
  /-- R216. Adds a and b per lane at the given integer type, optionally saturating or writing a carry bit of v1. -/
  | add (h : Hdr) (o : Opnds) (m : IMods)
  /-- R216. Adds a, b and the carry bit v1[cp], and writes the carry out. -/
  | addAddc (h : Hdr) (o : Opnds) (m : IMods)
  /-- R216. Adds three sources a, b and c per lane. -/
  | addAdd3 (h : Hdr) (o : Opnds) (m : IMods)
  /-- R217. Subtracts b from a per lane, optionally saturating or writing a borrow bit. -/
  | sub (h : Hdr) (o : Opnds) (m : IMods)
  /-- R217. Subtracts b and the borrow bit v1[cp] from a, and writes the borrow out. -/
  | subSubb (h : Hdr) (o : Opnds) (m : IMods)
  /-- R217. Subtracts a from b per lane. -/
  | subRsub (h : Hdr) (o : Opnds) (m : IMods)
  /-- R218. Writes the low word of the product of a and b. -/
  | mulLo (h : Hdr) (o : Opnds) (m : IMods)
  /-- R218. Writes the high word of the 64-bit product of a and b. -/
  | mulHi (h : Hdr) (o : Opnds) (m : IMods)
  /-- R218. Writes the low word of a times b plus c. -/
  | madLo (h : Hdr) (o : Opnds) (m : IMods)
  /-- R218. Writes the high word of a times b plus c. -/
  | madHi (h : Hdr) (o : Opnds) (m : IMods)
  /-- R218. Writes the 64-bit sum of the product of a and b and the pair c. -/
  | madWide (h : Hdr) (o : Opnds) (m : IMods)
  /-- R221. Writes the lesser of a and b at the given type. -/
  | minI (h : Hdr) (o : Opnds) (m : IMods)
  /-- R221. Writes the greater of a and b at the given type. -/
  | maxI (h : Hdr) (o : Opnds) (m : IMods)
  /-- R219. Writes the sum of absolute differences of a and b plus c. -/
  | sad (h : Hdr) (o : Opnds) (m : IMods)
  /-- R222. Writes the bitwise AND of a and b. -/
  | andI (h : Hdr) (o : Opnds) (m : IMods)
  /-- R222. Writes the bitwise OR of a and b. -/
  | orI (h : Hdr) (o : Opnds) (m : IMods)
  /-- R222. Writes the bitwise exclusive OR of a and b. -/
  | xorI (h : Hdr) (o : Opnds) (m : IMods)
  /-- R222. Writes a AND NOT b. -/
  | andn (h : Hdr) (o : Opnds) (m : IMods)
  /-- R222. Applies the truth table tt bitwise to a, b and c. -/
  | lop3 (h : Hdr) (o : Opnds) (m : IMods)
  /-- R223. Shifts a left by b. -/
  | shl (h : Hdr) (o : Opnds) (m : IMods)
  /-- R223. Shifts a right logically by b. -/
  | shr (h : Hdr) (o : Opnds) (m : IMods)
  /-- R223. Shifts a right arithmetically by b. -/
  | sar (h : Hdr) (o : Opnds) (m : IMods)
  /-- R223. Rotates a left by b mod 32. -/
  | rot (h : Hdr) (o : Opnds) (m : IMods)
  /-- R224. Funnel-shifts the word pair b:a by c, left or right. -/
  | shf (h : Hdr) (o : Opnds) (m : IMods)
  /-- R225. Extracts a bit field of a selected by b. -/
  | bfx (h : Hdr) (o : Opnds) (m : IMods)
  /-- R226. Inserts a bit field of a into c at the place selected by b. -/
  | bfi (h : Hdr) (o : Opnds) (m : IMods)
  /-- R227. Writes the number of 1 bits of a. -/
  | bcntPop (h : Hdr) (o : Opnds) (m : IMods)
  /-- R227. Writes the number of leading zero bits of a. -/
  | bcntClz (h : Hdr) (o : Opnds) (m : IMods)
  /-- R227. Writes the number of trailing zero bits of a. -/
  | bcntCtz (h : Hdr) (o : Opnds) (m : IMods)
  /-- R227. Writes a with its bits reversed. -/
  | bcntBrev (h : Hdr) (o : Opnds) (m : IMods)
  /-- R227. Writes 1 when a is poison and 0 otherwise, without trapping. -/
  | bcntIsp (h : Hdr) (o : Opnds) (m : IMods)
  /-- R228. Forms each output byte from a byte of a or b selected by c. -/
  | perm (h : Hdr) (o : Opnds) (m : IMods)
  /-- R229. Compares a and b, writing a mask and optionally a predicate bit. -/
  | cmp (h : Hdr) (o : Opnds) (m : IMods)
  /-- R230. Selects a or b by a bit of v1. -/
  | sel (h : Hdr) (o : Opnds) (m : IMods)
  /-- R231. Copies a to d. -/
  | mov (h : Hdr) (o : Opnds) (m : IMods)
  /-- R232. Loads a constant into d. -/
  | ldi (h : Hdr) (o : Opnds) (m : IMods)
  /-- R235. Adds two 64-bit pairs. -/
  | add64 (h : Hdr) (o : Opnds) (m : IMods)
  /-- R235. Subtracts two 64-bit pairs. -/
  | add64Sub (h : Hdr) (o : Opnds) (m : IMods)
  /-- R235. Negates a 64-bit pair. -/
  | add64Neg (h : Hdr) (o : Opnds) (m : IMods)
  /-- R235. Multiplies two 64-bit pairs. -/
  | mul64 (h : Hdr) (o : Opnds) (m : IMods)
  /-- R236. Shifts a 64-bit pair left. -/
  | sh64Shl (h : Hdr) (o : Opnds) (m : IMods)
  /-- R236. Shifts a 64-bit pair right logically. -/
  | sh64Shr (h : Hdr) (o : Opnds) (m : IMods)
  /-- R236. Shifts a 64-bit pair right arithmetically. -/
  | sh64Sar (h : Hdr) (o : Opnds) (m : IMods)
  /-- R237. Compares two 64-bit pairs, writing a mask and optionally a predicate. -/
  | cmp64 (h : Hdr) (o : Opnds) (m : IMods)
  /-- R220. Accumulates the dot product of four byte pairs into c. -/
  | dp4 (h : Hdr) (o : Opnds) (m : IMods)
  /-- R220. Accumulates the dot product of two halfword pairs into c. -/
  | dp4Dp2 (h : Hdr) (o : Opnds) (m : IMods)
  /-- R221. Clamps a between b and c. -/
  | clamp (h : Hdr) (o : Opnds) (m : IMods)
  /-- R243. Adds two FP32 values with one rounding. -/
  | fadd (h : Hdr) (o : Opnds) (m : FMods)
  /-- R243. Multiplies two FP32 values with one rounding. -/
  | fmul (h : Hdr) (o : Opnds) (m : FMods)
  /-- R243. Computes a times b plus c in FP32 with one rounding. -/
  | ffma (h : Hdr) (o : Opnds) (m : FMods)
  /-- R244. Writes the IEEE minimum of two FP32 values. -/
  | fminMin (h : Hdr) (o : Opnds) (m : FMods)
  /-- R244. Writes the IEEE maximum of two FP32 values. -/
  | fminMax (h : Hdr) (o : Opnds) (m : FMods)
  /-- R244. Writes the IEEE minimumNumber of two FP32 values. -/
  | fminMinnum (h : Hdr) (o : Opnds) (m : FMods)
  /-- R244. Writes the IEEE maximumNumber of two FP32 values. -/
  | fminMaxnum (h : Hdr) (o : Opnds) (m : FMods)
  /-- R247. Compares two FP32 values, writing a mask and optionally a predicate. -/
  | fcmp (h : Hdr) (o : Opnds) (m : IMods)
  /-- R248. Rounds an FP32 value to an integral value. -/
  | frnd (h : Hdr) (o : Opnds) (m : FMods)
  /-- R251. Converts between the formats of R137 other than the 64-bit ones. -/
  | fcvt (h : Hdr) (o : Opnds) (m : TMods)
  /-- R252. Writes a one-hot mask of the class of an FP32 value. -/
  | fclass (h : Hdr) (o : Opnds) (m : FMods)
  /-- R253. Multiplies an FP32 value by 2 to the power b. -/
  | fscale (h : Hdr) (o : Opnds) (m : FMods)
  /-- R254. Writes the binary exponent of an FP32 value. -/
  | fxtr (h : Hdr) (o : Opnds) (m : FMods)
  /-- R255. Adds two packed 16-bit float pairs. -/
  | hadd2 (h : Hdr) (o : Opnds) (m : FMods)
  /-- R255. Multiplies two packed 16-bit float pairs. -/
  | hmul2 (h : Hdr) (o : Opnds) (m : FMods)
  /-- R255. Fused multiply-add on packed 16-bit float pairs. -/
  | hfma2 (h : Hdr) (o : Opnds) (m : FMods)
  /-- R245. minimumNumber on each half of packed 16-bit float pairs. -/
  | hmin2 (h : Hdr) (o : Opnds) (m : FMods)
  /-- R256. Adds two FP64 pairs. -/
  | dadd (h : Hdr) (o : Opnds) (m : FMods)
  /-- R256. Multiplies two FP64 pairs. -/
  | dmul (h : Hdr) (o : Opnds) (m : FMods)
  /-- R256. Fused multiply-add on FP64 pairs. -/
  | dfma (h : Hdr) (o : Opnds) (m : FMods)
  /-- R245. minimumNumber of two FP64 pairs. -/
  | dmin (h : Hdr) (o : Opnds) (m : FMods)
  /-- R247. Compares two FP64 pairs, writing a mask and optionally a predicate. -/
  | dcmp (h : Hdr) (o : Opnds) (m : IMods)
  /-- R250. Converts to or from FP64 and 64-bit integers. -/
  | dcvt (h : Hdr) (o : Opnds) (m : TMods)
  /-- R248. Rounds an FP64 value to an integral value. -/
  | drnd (h : Hdr) (o : Opnds) (m : FMods)
  /-- R257. Computes the reciprocal on the special-function unit. -/
  | sfuRcp (h : Hdr) (o : Opnds) (m : FMods)
  /-- R257. Computes the reciprocal square root. -/
  | sfuRsq (h : Hdr) (o : Opnds) (m : FMods)
  /-- R257. Computes the correctly rounded square root. -/
  | sfuSqrt (h : Hdr) (o : Opnds) (m : FMods)
  /-- R257. Computes 2 to the power A. -/
  | sfuEx2 (h : Hdr) (o : Opnds) (m : FMods)
  /-- R257. Computes the base-2 logarithm. -/
  | sfuLg2 (h : Hdr) (o : Opnds) (m : FMods)
  /-- R257. Computes sin(pi A). -/
  | sfuSinpi (h : Hdr) (o : Opnds) (m : FMods)
  /-- R257. Computes cos(pi A). -/
  | sfuCospi (h : Hdr) (o : Opnds) (m : FMods)
  /-- R257. Computes tanh A. -/
  | sfuTanh (h : Hdr) (o : Opnds) (m : FMods)
  /-- R262. Reads a from the lane of the segment indexed by b. -/
  | shflLane (h : Hdr) (o : Opnds) (m : IMods)
  /-- R262. Reads a from the lane b places below within the segment. -/
  | shflBack (h : Hdr) (o : Opnds) (m : IMods)
  /-- R262. Reads a from the lane b places above within the segment. -/
  | shflFwd (h : Hdr) (o : Opnds) (m : IMods)
  /-- R262. Reads a from the lane whose index is XORed with b. -/
  | shflFlip (h : Hdr) (o : Opnds) (m : IMods)
  /-- R263. Tests whether a is non-zero in every participating lane. -/
  | voteAll (h : Hdr) (o : Opnds) (m : IMods)
  /-- R263. Tests whether a is non-zero in some participating lane. -/
  | voteAny (h : Hdr) (o : Opnds) (m : IMods)
  /-- R263. Writes the mask of participating lanes whose a is non-zero. -/
  | voteBallot (h : Hdr) (o : Opnds) (m : IMods)
  /-- R263. Tests whether a is equal across participating lanes. -/
  | voteUni (h : Hdr) (o : Opnds) (m : IMods)
  /-- R264. Writes the mask of participating lanes whose a equals this lane's. -/
  | matchAny (h : Hdr) (o : Opnds) (m : IMods)
  /-- R264. Writes the lane mask when a is equal in every participating lane. -/
  | matchAll (h : Hdr) (o : Opnds) (m : IMods)
  /-- R265. Writes the sum of a over the participating lanes. -/
  | reduxAdd (h : Hdr) (o : Opnds) (m : IMods)
  /-- R265. Writes the minimum of a over the participating lanes. -/
  | reduxMin (h : Hdr) (o : Opnds) (m : IMods)
  /-- R265. Writes the maximum of a over the participating lanes. -/
  | reduxMax (h : Hdr) (o : Opnds) (m : IMods)
  /-- R265. Writes the AND of a over the participating lanes. -/
  | reduxAnd (h : Hdr) (o : Opnds) (m : IMods)
  /-- R265. Writes the OR of a over the participating lanes. -/
  | reduxOr (h : Hdr) (o : Opnds) (m : IMods)
  /-- R265. Writes the XOR of a over the participating lanes. -/
  | reduxXor (h : Hdr) (o : Opnds) (m : IMods)
  /-- R266. Inclusive prefix sum over the participating lanes. -/
  | scanInclAdd (h : Hdr) (o : Opnds) (m : IMods)
  /-- R266. Inclusive prefix minimum. -/
  | scanInclMin (h : Hdr) (o : Opnds) (m : IMods)
  /-- R266. Inclusive prefix maximum. -/
  | scanInclMax (h : Hdr) (o : Opnds) (m : IMods)
  /-- R266. Exclusive prefix sum. -/
  | scanExclAdd (h : Hdr) (o : Opnds) (m : IMods)
  /-- R266. Exclusive prefix minimum. -/
  | scanExclMin (h : Hdr) (o : Opnds) (m : IMods)
  /-- R266. Exclusive prefix maximum. -/
  | scanExclMax (h : Hdr) (o : Opnds) (m : IMods)
  /-- R267. Sets SEG.size for the whole spindle. -/
  | seg (h : Hdr) (o : Opnds)
  /-- R268. Writes the lane number. -/
  | rdlLane (h : Hdr) (o : Opnds)
  /-- R268. Writes the mask of guard-true lanes of the batch. -/
  | rdlActive (h : Hdr) (o : Opnds)
  /-- R268. Writes the mask of the spindle's non-empty lanes. -/
  | rdlFibre (h : Hdr) (o : Opnds)
  /-- R268. Writes the lane's segment index. -/
  | rdlSegidx (h : Hdr) (o : Opnds)
  /-- R297. Loads from global memory, with optional release and acquire. -/
  | ld (h : Hdr) (o : Opnds) (m : MMods)
  /-- R298. Places a store in the fibre's store-buffer list, with optional release and acquire. -/
  | st (h : Hdr) (o : Opnds) (m : MMods)
  /-- R300. Atomically adds to a global word and returns the old value. -/
  | atomAdd (h : Hdr) (o : Opnds) (m : MMods)
  /-- R300. Atomic minimum on a global word. -/
  | atomMin (h : Hdr) (o : Opnds) (m : MMods)
  /-- R300. Atomic maximum on a global word. -/
  | atomMax (h : Hdr) (o : Opnds) (m : MMods)
  /-- R300. Atomic AND on a global word. -/
  | atomAnd (h : Hdr) (o : Opnds) (m : MMods)
  /-- R300. Atomic OR on a global word. -/
  | atomOr (h : Hdr) (o : Opnds) (m : MMods)
  /-- R300. Atomic XOR on a global word. -/
  | atomXor (h : Hdr) (o : Opnds) (m : MMods)
  /-- R300. Atomic exchange on a global word. -/
  | atomXchg (h : Hdr) (o : Opnds) (m : MMods)
  /-- R300. Atomic compare-and-swap on a global word. -/
  | atomCas (h : Hdr) (o : Opnds) (m : MMods)
  /-- R300. Atomic wrapping increment on a global word. -/
  | atomIncw (h : Hdr) (o : Opnds) (m : MMods)
  /-- R300. Atomic wrapping decrement on a global word. -/
  | atomDecw (h : Hdr) (o : Opnds) (m : MMods)
  /-- R301. Performs an atomic update without returning a result. -/
  | red (h : Hdr) (o : Opnds) (m : MMods)
  /-- R303. Makes a release, an acquire or both without an access. -/
  | fence (h : Hdr) (o : Opnds) (m : MMods)
  /-- R304. Invalidates the V words of a range in L1 as an acquire. -/
  | inv (h : Hdr) (o : Opnds) (m : MMods)
  /-- R305. Writes back registered words with U = 0 in a range. -/
  | wb (h : Hdr) (o : Opnds) (m : MMods)
  /-- R306. Requests a line into L1 or L2 without effect on ordering. -/
  | pref (h : Hdr) (o : Opnds) (m : MMods)
  /-- R310. Loads from the fibre's private memory. -/
  | ldp (h : Hdr) (o : Opnds) (m : MMods)
  /-- R310. Stores to the fibre's private memory. -/
  | stp (h : Hdr) (o : Opnds) (m : MMods)
  /-- R307. Loads from the workgroup's scratchpad. -/
  | lds (h : Hdr) (o : Opnds) (m : MMods)
  /-- R307. Stores to the workgroup's scratchpad in place. -/
  | sts (h : Hdr) (o : Opnds) (m : MMods)
  /-- R307. Performs an atomic on a scratchpad word. -/
  | atoms (h : Hdr) (o : Opnds) (m : MMods)
  /-- R373. Reads one pixel sample or average of a render target. -/
  | smp (h : Hdr) (o : Opnds) (x : BitVec 16)
  /-- R375. Answers the fibre's held ticket with a post to the pixel's home bank. -/
  | fpost (h : Hdr) (o : Opnds) (x : BitVec 16)
  /-- R376. Applies one method slot to every pixel of a rectangle outside ticket order. -/
  | tmeth (h : Hdr) (o : Opnds) (x : BitVec 16)
  /-- R270. Branches guard-true lanes by a word offset. -/
  | br (h : Hdr) (o : Opnds) (x : BitVec 16)
  /-- R271. Jumps guard-true lanes to a 64-bit address. -/
  | jmp (h : Hdr) (o : Opnds) (x : BitVec 16)
  /-- R273. Takes a new frame and calls a literal target. -/
  | call (h : Hdr) (o : Opnds) (x : BitVec 16)
  /-- R273. Takes a frame per target group and calls indirect targets. -/
  | calli (h : Hdr) (o : Opnds) (x : BitVec 16)
  /-- R275. Parks the lane at a return, or ends the fibre at depth 0. -/
  | ret (h : Hdr) (o : Opnds) (x : BitVec 16)
  /-- R276. Pops frames down to a named depth. -/
  | unwind (h : Hdr) (o : Opnds) (x : BitVec 16)
  /-- R277. Opens a hardware loop record for lanes with a non-zero count. -/
  | loop (h : Hdr) (o : Opnds) (x : BitVec 16)
  /-- R280. Creates new fibres in empty lanes of the spindle. -/
  | fork (h : Hdr) (o : Opnds) (x : BitVec 16)
  /-- R281. Ends each guard-true fibre. -/
  | endFibre (h : Hdr) (o : Opnds)
  /-- R282. Parks the fibre on a join mask. -/
  | join (h : Hdr) (o : Opnds)
  /-- R283. Parks the batch until another batch of the spindle issues. -/
  | yieldI (h : Hdr) (o : Opnds)
  /-- R284. Releases and arrives at a workgroup barrier. -/
  | bar (h : Hdr) (o : Opnds) (x : BitVec 16)
  /-- R286. Initialises an mbar object. -/
  | mbarInit (h : Hdr) (o : Opnds) (x : BitVec 16)
  /-- R286. Releases and counts one arrival on an mbar object. -/
  | mbarArrive (h : Hdr) (o : Opnds) (x : BitVec 16)
  /-- R286. Releases and adds expected bytes to an mbar object. -/
  | mbarExpect (h : Hdr) (o : Opnds) (x : BitVec 16)
  /-- R286. Parks until the mbar phase differs from c. -/
  | mbarWait (h : Hdr) (o : Opnds) (x : BitVec 16)
  /-- R286. Tests whether the mbar phase differs from c. -/
  | mbarTest (h : Hdr) (o : Opnds) (x : BitVec 16)
  /-- R287. Parks until a 64-bit counter reaches a target. -/
  | waitge (h : Hdr) (o : Opnds) (x : BitVec 16)
  /-- R289. Raises a software trap carrying a code. -/
  | trap (h : Hdr) (o : Opnds) (x : BitVec 16)
  /-- R289. Raises a breakpoint trap carrying a code. -/
  | trapBkpt (h : Hdr) (o : Opnds) (x : BitVec 16)
  /-- R290. Ends the whole workgroup. -/
  | exit (h : Hdr) (o : Opnds)
  /-- R318. Posts a plain copy job from a card. -/
  | cpyPlain (h : Hdr) (o : Opnds) (x : BitVec 16)
  /-- R318. Posts a plane-transpose copy job. -/
  | cpyPlane (h : Hdr) (o : Opnds) (x : BitVec 16)
  /-- R318. Posts an indexed gather copy job. -/
  | cpyGather (h : Hdr) (o : Opnds) (x : BitVec 16)
  /-- R318. Posts a multicast copy job to cores of the cluster. -/
  | cpyMcast (h : Hdr) (o : Opnds) (x : BitVec 16)
  /-- R325. Parks until every tag bit of the mask is set. -/
  | cwaitAll (h : Hdr) (o : Opnds) (x : BitVec 16)
  /-- R325. Parks until any tag bit of the mask is set. -/
  | cwaitAny (h : Hdr) (o : Opnds) (x : BitVec 16)
  /-- R325. Parks until any tag bit is set and writes the lowest. -/
  | cwaitFirst (h : Hdr) (o : Opnds) (x : BitVec 16)
  /-- R326. Closes the workgroup's open batch of copies. -/
  | cbatchClose (h : Hdr) (o : Opnds) (x : BitVec 16)
  /-- R326. Closes the open batch and waits until at most n batches are outstanding. -/
  | cbatchWait (h : Hdr) (o : Opnds) (x : BitVec 16)
  /-- R329. Posts a card to a chain's ring and engine. -/
  | post (h : Hdr) (o : Opnds) (x : BitVec 16)
  /-- R332. Posts a tile task to a plane engine. -/
  | ttask (h : Hdr) (o : Opnds) (x : BitVec 16)
  /-- R335. Parks until the spindle's earlier tile tasks complete. -/
  | ttwait (h : Hdr) (o : Opnds) (x : BitVec 16)
  /-- R336. Posts an in-DRAM row copy command. -/
  | nmcRowcp (h : Hdr) (o : Opnds) (x : BitVec 16)
  /-- R336. Posts an in-DRAM zero-fill command. -/
  | nmcRowzero (h : Hdr) (o : Opnds) (x : BitVec 16)
  /-- R338. Returns the DRAM place of a VA's block. -/
  | nmcRowq (h : Hdr) (o : Opnds) (x : BitVec 16)
  /-- R339. Enqueues a record to run on an NMU. -/
  | nmcNmlaunch (h : Hdr) (o : Opnds) (x : BitVec 16)
  /-- R341. Parks until NMCNT is 0. -/
  | nfence (h : Hdr) (o : Opnds)
  /-- R342. Submits a launch header from memory. -/
  | launch (h : Hdr) (o : Opnds) (x : BitVec 16)
  /-- R343. Enqueues a kind 1 record at the core's cluster. -/
  | spawn (h : Hdr) (o : Opnds) (x : BitVec 16)
  /-- R344. Releases and sets a bit of the event vector. -/
  | evtSet (h : Hdr) (o : Opnds) (x : BitVec 16)
  /-- R344. With clr = 1, clears a bit of the event vector. -/
  | evtClear (h : Hdr) (o : Opnds) (x : BitVec 16)
  /-- R344. Reads a bit of the event vector. -/
  | evtTest (h : Hdr) (o : Opnds) (x : BitVec 16)
  /-- R345. Posts a primitive record to the raster fronts. -/
  | ppost (h : Hdr) (o : Opnds) (x : BitVec 16)
  /-- R347. Reads a special register. -/
  | sregRdsr (h : Hdr) (o : Opnds) (x : BitVec 16)
  /-- R347. Writes a writable special register after its checks. -/
  | sregWrsr (h : Hdr) (o : Opnds) (x : BitVec 16)
  /-- R348. Raises a system-call trap. -/
  | sysSvc (h : Hdr) (o : Opnds) (x : BitVec 16)
  /-- R430. Returns from a trap handler frame. -/
  | sysRte (h : Hdr) (o : Opnds) (x : BitVec 16)
  /-- R349. Invalidates translations of a range in a scope and waits. -/
  | sysTinv (h : Hdr) (o : Opnds) (x : BitVec 16)
  /-- R351. Starts the re-key walk of a staged key slot. -/
  | sysRekey (h : Hdr) (o : Opnds) (x : BitVec 16)
  /-- R350. Installs a wrapped master key into an empty slot. -/
  | sysKslotInstall (h : Hdr) (o : Opnds) (x : BitVec 16)
  /-- R350. Stages a pending key for an active slot. -/
  | sysKslotStage (h : Hdr) (o : Opnds) (x : BitVec 16)
  /-- R350. Erases an active slot's key. -/
  | sysKslotErase (h : Hdr) (o : Opnds) (x : BitVec 16)
  /-- R350. Returns the state of a key slot. -/
  | sysKslotQuery (h : Hdr) (o : Opnds) (x : BitVec 16)
  /-- R352. Ends the current slice or sets a context's slice length. -/
  | sysSlice (h : Hdr) (o : Opnds) (x : BitVec 16)
  /-- R171. Issues two ALU operations on pipes A and B in one word. -/
  | pair (h : Hdr) (sa sb : Slot)
  /-- R396. A write covering bytes 0-7 of a header slot takes the header and checks it under R31. -/
  | launchWindowHeader (ctx off : Nat) (data : List (BitVec 8))
  /-- R396. A write to the event vector of the launch window clears the bits written as 1. -/
  | eventWindowWrite (ctx off : Nat) (v : BitVec 64)
  /-- R34. A launch becomes eligible once its wait mask is satisfied. -/
  | launchEligible (ctx lseq : Nat)
  /-- R39. The launch unit expands the next workgroup into a cluster queue with room. -/
  | workgroupExpand (ctx lseq : Nat)
  /-- R42. A core pops the head record and admits it when resources are free. -/
  | admission (core : Nat)
  /-- R465. Halted units in the way of an admission are spilled, zeroed and granted. -/
  | claim (core : Nat)
  /-- R44. The last fibre ends; release, void posts, join decrement and freeing follow. -/
  | workgroupEnd (core wg : Nat)
  /-- R35. A launch with no records left ORs setm into the event vector. -/
  | launchComplete (ctx lseq : Nat)
  /-- R176. A variable-latency result lands in its row and its flags are ORed into v1. -/
  | resultLand (core idx : Nat)
  /-- R175. A batch parked after S = 1 becomes ready once its results have landed. -/
  | markerResume (core slot lane : Nat)
  /-- R55. Fibres parked on one mask are released together. -/
  | joinRelease (core slot lane : Nat)
  /-- R275. When every member is parked at a ret, results are copied and the frame freed. -/
  | retRelease (core slot lane : Nat)
  /-- R49. A batch blocked at call retries when granules of its quarter are freed. -/
  | callRetry (core slot lane : Nat)
  /-- R284. A barrier generation releases when its arrivals reach N. -/
  | barRelease (core wg bid : Nat)
  /-- R286. A batch parked at mbar.wait is released when the phase moves. -/
  | mbarWaitRelease (core slot lane : Nat)
  /-- R287. A parked waitge re-reads its counter on a home write or every 1,024 cycles. -/
  | waitgeReread (core slot lane : Nat)
  /-- R325. A parked cwait releases when its tag condition holds. -/
  | cwaitRelease (core slot lane : Nat)
  /-- R326. A parked cbatch.wait releases when few enough batches are outstanding. -/
  | cbatchWaitRelease (core slot lane : Nat)
  /-- R335. A parked ttwait releases and merges pending flags. -/
  | ttwaitRelease (core slot lane : Nat)
  /-- R341. A parked nfence releases when NMCNT reaches 0. -/
  | nfenceRelease (core slot lane : Nat)
  /-- R283. A yielded batch becomes ready after another batch issues or 32 cycles pass. -/
  | yieldRelease (core slot lane : Nat)
  /-- R72. sys.tinv completes once all named caches and engine jobs acknowledge. -/
  | tinvComplete (core slot lane : Nat)
  /-- R80. The oldest store of a fibre's list drains to the view or registers the word. -/
  | storeDrain (core idx : Nat)
  /-- R110. An L1 word is evicted: V dropped, G written back or sent to the hold store. -/
  | l1Eviction (core pa : Nat)
  /-- R109. A Fetch request reaches the home and is served or forwarded. -/
  | fetch (core idx : Nat)
  /-- R109. A Register request reaches the home and transfers registration. -/
  | register (core : Nat) (fromIq : Bool) (idx : Nat)
  /-- R109. A wide atomic is performed at the home or forwarded to the owner. -/
  | homeWideAtomic (core idx : Nat)
  /-- R109. An owner's write-back puts the value in L2 and frees the word. -/
  | writeback (core pa : Nat)
  /-- R108. An engine write is made at the home and pinned with jmask set. -/
  | jWrite (cl job k : Nat)
  /-- R108. J-clear over the write footprint clears jmask and rmask at each home. -/
  | jClear (cl job : Nat)
  /-- R109. Hold-clear after a wide release returns held words to L2. -/
  | holdClear (core bank : Nat)
  /-- R112. An owner recall returns the named words, holding those with U = 1. -/
  | ownerRecall (line owner : Nat)
  /-- R71. A die walker walks the page tables for a missed translation. -/
  | translationWalk (core ctx : Nat) (va : BitVec 64)
  /-- R127. A seal engine fills a whole block, checking tree, tags and slot. -/
  | fill (pa ks : Nat) (sl : Bool)
  /-- R129. A dirty block leaving L2 is re-encrypted and written with new metadata. -/
  | blockWriteback (pa : Nat)
  /-- R126. A dirty metadata row evicted from the cache is written back. -/
  | metadataRowWriteback (row : Nat)
  /-- R133. The re-key walk re-seals one block under the pending key. -/
  | rekeyWalkBlock (slot : Nat)
  /-- R150. A view line is decoded from cb2 source, table and scales. -/
  | viewLineFill (pa : Nat)
  /-- R151. A format-range register write invalidates old and new view lines and takes effect. -/
  | frrWrite (n w : Nat) (v : BitVec 64)
  /-- R87. A queued engine job starts once its edges are complete. -/
  | jobStart (cl job : Nat)
  /-- R322. A landed granule credits its mbar. -/
  | copyGranuleCredit (cl job g : Nat)
  /-- R89. A job whose accesses are done clears U and applies its counters. -/
  | jobComplete (cl job : Nat)
  /-- R443. A started job meets a failure, stops, marks words lost and terminates its workgroup. -/
  | copyFault (cl job : Nat)
  /-- R117. A row command's pairs are checked and its rows prepared at their homes. -/
  | rowCommandPrepare (e : PrepareStep)
  /-- R337. An NMU performs one pair's row copy or zero-fill. -/
  | rowOperation (id k : Nat)
  /-- R341. A row command with all pairs done releases and decrements NMCNT. -/
  | rowCommandComplete (id : Nat)
  /-- R340. An NMU or method unit ships its spindle to a core as a kind 2 record. -/
  | returnTrap (unit : Nat)
  /-- R355. A raster front receives a primitive record and holds or processes it. -/
  | primitiveArrival (k : Nat)
  /-- R356. The front clips, rasterises and tickets a primitive in order. -/
  | primitiveProcess (die ctx : Nat)
  /-- R370. A ticket key is appended to its pixel's FIFO. -/
  | ticketArrival (die ctx : Nat)
  /-- R369. The front emits a fragment block and enqueues its record. -/
  | fragmentBlockEmit (die ctx : Nat)
  /-- R370. A post reaches the home bank and is applied, parked, refused or discarded. -/
  | postArrival (core k : Nat)
  /-- R370. The core resends a refused post from its post buffer. -/
  | postResend (core k : Nat)
  /-- R376. A tmeth application reaches a pixel's home and is applied. -/
  | tmethApply (k : Nat)
  /-- R367. A shipped PROG continuation ends and the core returns its values to finish the application. -/
  | progMethodReturn (id : Nat)
  /-- R378. A fence marker reaches an L2 bank behind earlier tickets. -/
  | fenceMarker (id bank : Nat)
  /-- R378. When all banks have applied, the BARRIER slot adds to its counter. -/
  | fenceComplete (id : Nat)
  /-- R398. At each 1 ms window the governor sets voltage, withholds issue and updates telemetry. -/
  | governorWindow (die : Nat) (g : GovReading)
  /-- R399. At 95 degrees the governor withholds issue on the die. -/
  | tempThrottle (die : Nat) (temp : BitVec 8)
  /-- R399. Below 92 degrees the die resumes issue. -/
  | tempRecover (die : Nat) (temp : BitVec 8)
  /-- R399. At 110 degrees the package stops its clocks and drops its rails. -/
  | thermalTrip (die : Nat) (temp : BitVec 8)
  /-- R485. A rail leaves its range and an event is logged. -/
  | railOutOfRange (die : Nat) (val : BitVec 32)
  /-- R402. A full reset loses all state and enters RAILS. -/
  | reset
  /-- R402. Every rail is in range; the package enters CLOCKS. -/
  | railsInRange
  /-- R402. Clocks lock on all dies and TICK starts; the package enters HBM. -/
  | clocksLocked
  /-- R402. Every pseudo-channel passes training; the package enters SEAL. -/
  | hbmTrained
  /-- R136. All seal engines have written the metadata tree; the package enters LINKS. -/
  | sealInitDone
  /-- R402. Every port is up or reported down; the package enters READY. -/
  | linksTrained (up : Trained)
  /-- R381. A partition record write is checked for overlap and applied or refused. -/
  | partitionRecordWrite (p w : Nat) (v : BitVec 64)
  /-- R383. A CTXC write is refused when ks = 0 with sysc = 0. -/
  | ctxcWrite (ctx : Nat) (v : BitVec 64)
  /-- R401. A write of node, refused after the first enabled partition. -/
  | pkcWrite (v : BitVec 64)
  /-- R394. An HDM decoder write is checked and applied or refused. -/
  | hdmDecoderWrite (k w : Nat) (v : BitVec 64)
  /-- R467. Writing go starts a change of the partition's clusters. -/
  | pshrGo (p : Nat) (v : BitVec 64)
  /-- R468. Leaving clusters hold no workgroup; they leave clm and pend falls. -/
  | shrinkComplete (p : Nat)
  /-- R478. Writing snap triggers a snapshot. -/
  | obscSnap (v : BitVec 64)
  /-- R478. TICK reaching SNT with ttk triggers a snapshot. -/
  | snapshotTick
  /-- R478. At tick T every block copies its counters into its shadows. -/
  | snapshotLatch
  /-- R477. TICK reaching STT gates every clock domain. -/
  | stopTick
  /-- R480. Writing step issues one word of a stopped slot's batch. -/
  | debugStep (core : Nat) (v : BitVec 64)
  /-- R483. Writing go records the partition's state and sends markers. -/
  | dumpGo (v : BitVec 64)
  /-- R483. A marker flit records the partition if new and closes its port's channel. -/
  | dumpMarker (port : Nat) (part id node : Nat)
  /-- R483. Writing res executes held flits and resumes the contexts. -/
  | dumpResume (v : BitVec 64)
  /-- R400. A write to a management-space register with no behaviour of its own. -/
  | registerWrite (off : Nat) (v : BitVec 64)
  /-- R67. A word access to a core's register file or scratchpad through the window. -/
  | onchipWindowAccess (pa : Nat) (wr : Option (BitVec 32))
  /-- R388. A flit arrives on a port and is accepted, discarded or naked. -/
  | linkFlitReceive (port : Nat) (f : Flit)
  /-- R388. A nak makes the sender replay from the named lseq. -/
  | linkNak (port lseq : Nat)
  /-- R455. Missing acknowledgements or repeated naks retrain the port. -/
  | linkAckTimeout (port : Nat)
  /-- R389. A command is executed in eseq order once, or its kept response resent. -/
  | streamCommand (src dst part eseq : Nat) (c : FabricCmd)
  /-- R389. A response arrives and answers its command, or is discarded. -/
  | streamResponse (src dst part eseq : Nat)
  /-- R389. An unanswered command is resent after 180,000 ticks. -/
  | commandResendTimeout (src dst part eseq : Nat)
  /-- R392. A rendezvous flit is answered and the collective starts when all peers match. -/
  | rendezvous (cl job : Nat) (r : RdvReply)
  /-- R470. A deferred slice end takes effect after 1,800,000 ticks. -/
  | collectiveDeferTimeout (p : Nat)
  /-- R115. A host shared read is served as a Fetch by the host agent. -/
  | hostSharedRead (hpa : Nat)
  /-- R115. A host exclusive request registers the line to the host agent. -/
  | hostExclusiveRequest (hpa : Nat)
  /-- R115. A host access through an hdb = 0 decoder is performed at the home. -/
  | hostUncachedAccess (hpa : Nat) (acc : HostAccess)
  /-- R116. A host SnpInv or SnpData recalls a host-window line. -/
  | hostSnoop (line : Nat) (inv : Bool)
  /-- R115. A snoop filter eviction sends BISnpInv and frees the entry. -/
  | snoopFilterEviction (line : Nat) (dirty : List (Nat × BitVec 32))
  /-- R458. An unanswered back-invalidate makes the host agent's words lost. -/
  | bisnpTimeout (line : Nat)
  /-- R458. An IDE failure blocks host traffic and puts every TDI in ERROR. -/
  | ideIntegrityFailure
  /-- R458. IDE is re-established through IDE_KM and host traffic is accepted. -/
  | ideReestablish
  /-- R393. The device answers an SPDM request for certificates, measurements or key exchange. -/
  | spdmRequest (r : SpdmReq)
  /-- R460. The holder's slice ends and the context halts in place. -/
  | sliceEnd (p : Nat)
  /-- R459. A rotating context with work takes a free slice. -/
  | sliceTake (p : Nat)
  /-- R466. A context taking the slice has its spilled units restored. -/
  | restore (core ctx : Nat)
  /-- R432. In a starved quarter the spill engine spills the youngest spindles to grant the oldest request. -/
  | spill (core q : Nat)
  /-- R427. A trap writes its record and enters the handler, a debugger stop or termination. -/
  | trapDelivery (core slot lane : Nat)
  /-- R395. A TDISP request from the host moves a partition's TDI between CONFIG_UNLOCKED, CONFIG_LOCKED, RUN and ERROR; leaving RUN halts the partition's contexts and zero-fills its pseudo-channel groups. -/
  | tdispRequest (p : Nat) (r : TdispReq)
  /-- R455. A retraining port direction finishes retraining, either coming back up or, after the third failure within 18,000,000 ticks, going down until reset. -/
  | linkRetrainDone (port : Nat) (ok : Bool)
  /-- R479. A write of smask in a core's debug register pair stops or restarts issue from the named spindle slots. -/
  | debugSmaskWrite (core : Nat) (v : BitVec 64)
  deriving DecidableEq, Repr, Inhabited

/-- A place that a soft error strikes (R436, R452) and, for a row, the word it leaves; or a mismatch found at a read or a result of the
word that a quarter issues next, in a lane and an absolute row, which its issue again finds once more or not (R436). -/
inductive SoftError where
  | check (core q lane row : Nat) (res twice : Bool)
  | reg (core row lane : Nat) (v : BitVec 32) (res : BitVec 4)
  | l1 (core pa : Nat)
  | l2 (pa : Nat)
  | scratch (core word : Nat)
  | hbm (pa : Nat) (v : BitVec 8)
  | metaRow (row : Nat)
  deriving DecidableEq, Repr, Inhabited

/-- What the package may do next (R75; log entry 1): a quarter issues a word (R52), a memory operation of a fibre is
performed (R79), a started engine job makes its next access (R88), time passes (R4), a soft error strikes (R452), or an
event of the table happens. -/
inductive Move where
  | issue (core q : Nat)
  | perform (core idx : Nat)
  | engine (cl job k : Nat)
  | advance (n : Nat)
  | soft (e : SoftError)
  | event (e : Instr)
  deriving DecidableEq, Repr, Inhabited

/-- Whether a constructor is an instruction word rather than an event of the package. -/
def Instr.isWord : Instr → Bool
  | .nop .. => true
  | .add .. => true
  | .addAddc .. => true
  | .addAdd3 .. => true
  | .sub .. => true
  | .subSubb .. => true
  | .subRsub .. => true
  | .mulLo .. => true
  | .mulHi .. => true
  | .madLo .. => true
  | .madHi .. => true
  | .madWide .. => true
  | .minI .. => true
  | .maxI .. => true
  | .sad .. => true
  | .andI .. => true
  | .orI .. => true
  | .xorI .. => true
  | .andn .. => true
  | .lop3 .. => true
  | .shl .. => true
  | .shr .. => true
  | .sar .. => true
  | .rot .. => true
  | .shf .. => true
  | .bfx .. => true
  | .bfi .. => true
  | .bcntPop .. => true
  | .bcntClz .. => true
  | .bcntCtz .. => true
  | .bcntBrev .. => true
  | .bcntIsp .. => true
  | .perm .. => true
  | .cmp .. => true
  | .sel .. => true
  | .mov .. => true
  | .ldi .. => true
  | .add64 .. => true
  | .add64Sub .. => true
  | .add64Neg .. => true
  | .mul64 .. => true
  | .sh64Shl .. => true
  | .sh64Shr .. => true
  | .sh64Sar .. => true
  | .cmp64 .. => true
  | .dp4 .. => true
  | .dp4Dp2 .. => true
  | .clamp .. => true
  | .fadd .. => true
  | .fmul .. => true
  | .ffma .. => true
  | .fminMin .. => true
  | .fminMax .. => true
  | .fminMinnum .. => true
  | .fminMaxnum .. => true
  | .fcmp .. => true
  | .frnd .. => true
  | .fcvt .. => true
  | .fclass .. => true
  | .fscale .. => true
  | .fxtr .. => true
  | .hadd2 .. => true
  | .hmul2 .. => true
  | .hfma2 .. => true
  | .hmin2 .. => true
  | .dadd .. => true
  | .dmul .. => true
  | .dfma .. => true
  | .dmin .. => true
  | .dcmp .. => true
  | .dcvt .. => true
  | .drnd .. => true
  | .sfuRcp .. => true
  | .sfuRsq .. => true
  | .sfuSqrt .. => true
  | .sfuEx2 .. => true
  | .sfuLg2 .. => true
  | .sfuSinpi .. => true
  | .sfuCospi .. => true
  | .sfuTanh .. => true
  | .shflLane .. => true
  | .shflBack .. => true
  | .shflFwd .. => true
  | .shflFlip .. => true
  | .voteAll .. => true
  | .voteAny .. => true
  | .voteBallot .. => true
  | .voteUni .. => true
  | .matchAny .. => true
  | .matchAll .. => true
  | .reduxAdd .. => true
  | .reduxMin .. => true
  | .reduxMax .. => true
  | .reduxAnd .. => true
  | .reduxOr .. => true
  | .reduxXor .. => true
  | .scanInclAdd .. => true
  | .scanInclMin .. => true
  | .scanInclMax .. => true
  | .scanExclAdd .. => true
  | .scanExclMin .. => true
  | .scanExclMax .. => true
  | .seg .. => true
  | .rdlLane .. => true
  | .rdlActive .. => true
  | .rdlFibre .. => true
  | .rdlSegidx .. => true
  | .ld .. => true
  | .st .. => true
  | .atomAdd .. => true
  | .atomMin .. => true
  | .atomMax .. => true
  | .atomAnd .. => true
  | .atomOr .. => true
  | .atomXor .. => true
  | .atomXchg .. => true
  | .atomCas .. => true
  | .atomIncw .. => true
  | .atomDecw .. => true
  | .red .. => true
  | .fence .. => true
  | .inv .. => true
  | .wb .. => true
  | .pref .. => true
  | .ldp .. => true
  | .stp .. => true
  | .lds .. => true
  | .sts .. => true
  | .atoms .. => true
  | .smp .. => true
  | .fpost .. => true
  | .tmeth .. => true
  | .br .. => true
  | .jmp .. => true
  | .call .. => true
  | .calli .. => true
  | .ret .. => true
  | .unwind .. => true
  | .loop .. => true
  | .fork .. => true
  | .endFibre .. => true
  | .join .. => true
  | .yieldI .. => true
  | .bar .. => true
  | .mbarInit .. => true
  | .mbarArrive .. => true
  | .mbarExpect .. => true
  | .mbarWait .. => true
  | .mbarTest .. => true
  | .waitge .. => true
  | .trap .. => true
  | .trapBkpt .. => true
  | .exit .. => true
  | .cpyPlain .. => true
  | .cpyPlane .. => true
  | .cpyGather .. => true
  | .cpyMcast .. => true
  | .cwaitAll .. => true
  | .cwaitAny .. => true
  | .cwaitFirst .. => true
  | .cbatchClose .. => true
  | .cbatchWait .. => true
  | .post .. => true
  | .ttask .. => true
  | .ttwait .. => true
  | .nmcRowcp .. => true
  | .nmcRowzero .. => true
  | .nmcRowq .. => true
  | .nmcNmlaunch .. => true
  | .nfence .. => true
  | .launch .. => true
  | .spawn .. => true
  | .evtSet .. => true
  | .evtClear .. => true
  | .evtTest .. => true
  | .ppost .. => true
  | .sregRdsr .. => true
  | .sregWrsr .. => true
  | .sysSvc .. => true
  | .sysRte .. => true
  | .sysTinv .. => true
  | .sysRekey .. => true
  | .sysKslotInstall .. => true
  | .sysKslotStage .. => true
  | .sysKslotErase .. => true
  | .sysKslotQuery .. => true
  | .sysSlice .. => true
  | .pair .. => true
  | .launchWindowHeader .. => false
  | .eventWindowWrite .. => false
  | .launchEligible .. => false
  | .workgroupExpand .. => false
  | .admission .. => false
  | .claim .. => false
  | .workgroupEnd .. => false
  | .launchComplete .. => false
  | .resultLand .. => false
  | .markerResume .. => false
  | .joinRelease .. => false
  | .retRelease .. => false
  | .callRetry .. => false
  | .barRelease .. => false
  | .mbarWaitRelease .. => false
  | .waitgeReread .. => false
  | .cwaitRelease .. => false
  | .cbatchWaitRelease .. => false
  | .ttwaitRelease .. => false
  | .nfenceRelease .. => false
  | .yieldRelease .. => false
  | .tinvComplete .. => false
  | .storeDrain .. => false
  | .l1Eviction .. => false
  | .fetch .. => false
  | .register .. => false
  | .homeWideAtomic .. => false
  | .writeback .. => false
  | .jWrite .. => false
  | .jClear .. => false
  | .holdClear .. => false
  | .ownerRecall .. => false
  | .translationWalk .. => false
  | .fill .. => false
  | .blockWriteback .. => false
  | .metadataRowWriteback .. => false
  | .rekeyWalkBlock .. => false
  | .viewLineFill .. => false
  | .frrWrite .. => false
  | .jobStart .. => false
  | .copyGranuleCredit .. => false
  | .jobComplete .. => false
  | .copyFault .. => false
  | .rowCommandPrepare .. => false
  | .rowOperation .. => false
  | .rowCommandComplete .. => false
  | .returnTrap .. => false
  | .primitiveArrival .. => false
  | .primitiveProcess .. => false
  | .ticketArrival .. => false
  | .fragmentBlockEmit .. => false
  | .postArrival .. => false
  | .postResend .. => false
  | .tmethApply .. => false
  | .progMethodReturn .. => false
  | .fenceMarker .. => false
  | .fenceComplete .. => false
  | .governorWindow .. => false
  | .tempThrottle .. => false
  | .tempRecover .. => false
  | .thermalTrip .. => false
  | .railOutOfRange .. => false
  | .reset => false
  | .railsInRange => false
  | .clocksLocked => false
  | .hbmTrained => false
  | .sealInitDone => false
  | .linksTrained .. => false
  | .partitionRecordWrite .. => false
  | .ctxcWrite .. => false
  | .pkcWrite .. => false
  | .hdmDecoderWrite .. => false
  | .pshrGo .. => false
  | .shrinkComplete .. => false
  | .obscSnap .. => false
  | .snapshotTick => false
  | .snapshotLatch => false
  | .stopTick => false
  | .debugStep .. => false
  | .dumpGo .. => false
  | .dumpMarker .. => false
  | .dumpResume .. => false
  | .registerWrite .. => false
  | .onchipWindowAccess .. => false
  | .linkFlitReceive .. => false
  | .linkNak .. => false
  | .linkAckTimeout .. => false
  | .streamCommand .. => false
  | .streamResponse .. => false
  | .commandResendTimeout .. => false
  | .rendezvous .. => false
  | .collectiveDeferTimeout .. => false
  | .hostSharedRead .. => false
  | .hostExclusiveRequest .. => false
  | .hostUncachedAccess .. => false
  | .hostSnoop .. => false
  | .snoopFilterEviction .. => false
  | .bisnpTimeout .. => false
  | .ideIntegrityFailure => false
  | .ideReestablish => false
  | .spdmRequest .. => false
  | .sliceEnd .. => false
  | .sliceTake .. => false
  | .restore .. => false
  | .spill .. => false
  | .trapDelivery .. => false
  | .tdispRequest .. => false
  | .linkRetrainDone .. => false
  | .debugSmaskWrite .. => false

end Sys2Proof
end

