-- ==== Sys2Proof/WellFormed.lean ====
section
/-!
DEFINITION. Which instruction words are well formed (spec/08_encoding.md R158 to R184; the per-major tables R209, R210,
R238, R246, R249, R250, R261, R269, R291, R292, R313, R346, R348, R373, R375, R376). Any other word raises the
illegal-instruction trap.
-/

namespace Sys2Proof

/-- The layouts of `mods` (R164). -/
inductive Layout where
  | i | f | t | m | c | n
  deriving DecidableEq, Repr

/-- The modifiers of a word, in the layout its major names (R164). -/
inductive Mods where
  | i (m : IMods)
  | f (m : FMods)
  | t (m : TMods)
  | m (m : MMods)
  | c (x : BitVec 16)
  | n
  deriving DecidableEq, Repr, Inhabited

/-- A word that is not a pair, by its fields: major, minor, header, operands and modifiers. -/
structure View where
  major : Nat
  minor : Nat
  h     : Hdr
  o     : Opnds
  mods  : Mods
  deriving DecidableEq, Repr, Inhabited

/-- The fields of a word; none for a pair word and for an event. -/
def Instr.view : Instr → Option View
  | .nop h o => some ⟨0x00, 0, h, o, .n⟩
  | .add h o m => some ⟨0x01, 0, h, o, .i m⟩
  | .addAddc h o m => some ⟨0x01, 1, h, o, .i m⟩
  | .addAdd3 h o m => some ⟨0x01, 2, h, o, .i m⟩
  | .sub h o m => some ⟨0x02, 0, h, o, .i m⟩
  | .subSubb h o m => some ⟨0x02, 1, h, o, .i m⟩
  | .subRsub h o m => some ⟨0x02, 2, h, o, .i m⟩
  | .mulLo h o m => some ⟨0x03, 0, h, o, .i m⟩
  | .mulHi h o m => some ⟨0x03, 1, h, o, .i m⟩
  | .madLo h o m => some ⟨0x04, 0, h, o, .i m⟩
  | .madHi h o m => some ⟨0x04, 1, h, o, .i m⟩
  | .madWide h o m => some ⟨0x04, 2, h, o, .i m⟩
  | .minI h o m => some ⟨0x05, 0, h, o, .i m⟩
  | .maxI h o m => some ⟨0x06, 0, h, o, .i m⟩
  | .sad h o m => some ⟨0x07, 0, h, o, .i m⟩
  | .andI h o m => some ⟨0x08, 0, h, o, .i m⟩
  | .orI h o m => some ⟨0x09, 0, h, o, .i m⟩
  | .xorI h o m => some ⟨0x0A, 0, h, o, .i m⟩
  | .andn h o m => some ⟨0x0B, 0, h, o, .i m⟩
  | .lop3 h o m => some ⟨0x0C, 0, h, o, .i m⟩
  | .shl h o m => some ⟨0x0D, 0, h, o, .i m⟩
  | .shr h o m => some ⟨0x0E, 0, h, o, .i m⟩
  | .sar h o m => some ⟨0x0F, 0, h, o, .i m⟩
  | .rot h o m => some ⟨0x10, 0, h, o, .i m⟩
  | .shf h o m => some ⟨0x11, 0, h, o, .i m⟩
  | .bfx h o m => some ⟨0x12, 0, h, o, .i m⟩
  | .bfi h o m => some ⟨0x13, 0, h, o, .i m⟩
  | .bcntPop h o m => some ⟨0x14, 0, h, o, .i m⟩
  | .bcntClz h o m => some ⟨0x14, 1, h, o, .i m⟩
  | .bcntCtz h o m => some ⟨0x14, 2, h, o, .i m⟩
  | .bcntBrev h o m => some ⟨0x14, 3, h, o, .i m⟩
  | .bcntIsp h o m => some ⟨0x14, 4, h, o, .i m⟩
  | .perm h o m => some ⟨0x15, 0, h, o, .i m⟩
  | .cmp h o m => some ⟨0x16, 0, h, o, .i m⟩
  | .sel h o m => some ⟨0x17, 0, h, o, .i m⟩
  | .mov h o m => some ⟨0x18, 0, h, o, .i m⟩
  | .ldi h o m => some ⟨0x19, 0, h, o, .i m⟩
  | .add64 h o m => some ⟨0x1A, 0, h, o, .i m⟩
  | .add64Sub h o m => some ⟨0x1A, 1, h, o, .i m⟩
  | .add64Neg h o m => some ⟨0x1A, 2, h, o, .i m⟩
  | .mul64 h o m => some ⟨0x1B, 0, h, o, .i m⟩
  | .sh64Shl h o m => some ⟨0x1C, 0, h, o, .i m⟩
  | .sh64Shr h o m => some ⟨0x1C, 1, h, o, .i m⟩
  | .sh64Sar h o m => some ⟨0x1C, 2, h, o, .i m⟩
  | .cmp64 h o m => some ⟨0x1D, 0, h, o, .i m⟩
  | .dp4 h o m => some ⟨0x1E, 0, h, o, .i m⟩
  | .dp4Dp2 h o m => some ⟨0x1E, 1, h, o, .i m⟩
  | .clamp h o m => some ⟨0x1F, 0, h, o, .i m⟩
  | .fadd h o m => some ⟨0x20, 0, h, o, .f m⟩
  | .fmul h o m => some ⟨0x21, 0, h, o, .f m⟩
  | .ffma h o m => some ⟨0x22, 0, h, o, .f m⟩
  | .fminMin h o m => some ⟨0x23, 0, h, o, .f m⟩
  | .fminMax h o m => some ⟨0x23, 1, h, o, .f m⟩
  | .fminMinnum h o m => some ⟨0x23, 2, h, o, .f m⟩
  | .fminMaxnum h o m => some ⟨0x23, 3, h, o, .f m⟩
  | .fcmp h o m => some ⟨0x24, 0, h, o, .i m⟩
  | .frnd h o m => some ⟨0x25, 0, h, o, .f m⟩
  | .fcvt h o m => some ⟨0x26, 0, h, o, .t m⟩
  | .fclass h o m => some ⟨0x27, 0, h, o, .f m⟩
  | .fscale h o m => some ⟨0x28, 0, h, o, .f m⟩
  | .fxtr h o m => some ⟨0x29, 0, h, o, .f m⟩
  | .hadd2 h o m => some ⟨0x2A, 0, h, o, .f m⟩
  | .hmul2 h o m => some ⟨0x2B, 0, h, o, .f m⟩
  | .hfma2 h o m => some ⟨0x2C, 0, h, o, .f m⟩
  | .hmin2 h o m => some ⟨0x2D, 0, h, o, .f m⟩
  | .dadd h o m => some ⟨0x2E, 0, h, o, .f m⟩
  | .dmul h o m => some ⟨0x2F, 0, h, o, .f m⟩
  | .dfma h o m => some ⟨0x30, 0, h, o, .f m⟩
  | .dmin h o m => some ⟨0x31, 0, h, o, .f m⟩
  | .dcmp h o m => some ⟨0x32, 0, h, o, .i m⟩
  | .dcvt h o m => some ⟨0x33, 0, h, o, .t m⟩
  | .drnd h o m => some ⟨0x34, 0, h, o, .f m⟩
  | .sfuRcp h o m => some ⟨0x35, 0, h, o, .f m⟩
  | .sfuRsq h o m => some ⟨0x35, 1, h, o, .f m⟩
  | .sfuSqrt h o m => some ⟨0x35, 2, h, o, .f m⟩
  | .sfuEx2 h o m => some ⟨0x35, 3, h, o, .f m⟩
  | .sfuLg2 h o m => some ⟨0x35, 4, h, o, .f m⟩
  | .sfuSinpi h o m => some ⟨0x35, 5, h, o, .f m⟩
  | .sfuCospi h o m => some ⟨0x35, 6, h, o, .f m⟩
  | .sfuTanh h o m => some ⟨0x35, 7, h, o, .f m⟩
  | .shflLane h o m => some ⟨0x40, 0, h, o, .i m⟩
  | .shflBack h o m => some ⟨0x40, 1, h, o, .i m⟩
  | .shflFwd h o m => some ⟨0x40, 2, h, o, .i m⟩
  | .shflFlip h o m => some ⟨0x40, 3, h, o, .i m⟩
  | .voteAll h o m => some ⟨0x41, 0, h, o, .i m⟩
  | .voteAny h o m => some ⟨0x41, 1, h, o, .i m⟩
  | .voteBallot h o m => some ⟨0x41, 2, h, o, .i m⟩
  | .voteUni h o m => some ⟨0x41, 3, h, o, .i m⟩
  | .matchAny h o m => some ⟨0x42, 0, h, o, .i m⟩
  | .matchAll h o m => some ⟨0x42, 1, h, o, .i m⟩
  | .reduxAdd h o m => some ⟨0x43, 0, h, o, .i m⟩
  | .reduxMin h o m => some ⟨0x43, 1, h, o, .i m⟩
  | .reduxMax h o m => some ⟨0x43, 2, h, o, .i m⟩
  | .reduxAnd h o m => some ⟨0x43, 3, h, o, .i m⟩
  | .reduxOr h o m => some ⟨0x43, 4, h, o, .i m⟩
  | .reduxXor h o m => some ⟨0x43, 5, h, o, .i m⟩
  | .scanInclAdd h o m => some ⟨0x44, 0, h, o, .i m⟩
  | .scanInclMin h o m => some ⟨0x44, 1, h, o, .i m⟩
  | .scanInclMax h o m => some ⟨0x44, 2, h, o, .i m⟩
  | .scanExclAdd h o m => some ⟨0x44, 3, h, o, .i m⟩
  | .scanExclMin h o m => some ⟨0x44, 4, h, o, .i m⟩
  | .scanExclMax h o m => some ⟨0x44, 5, h, o, .i m⟩
  | .seg h o => some ⟨0x45, 0, h, o, .n⟩
  | .rdlLane h o => some ⟨0x46, 0, h, o, .n⟩
  | .rdlActive h o => some ⟨0x46, 1, h, o, .n⟩
  | .rdlFibre h o => some ⟨0x46, 2, h, o, .n⟩
  | .rdlSegidx h o => some ⟨0x46, 3, h, o, .n⟩
  | .ld h o m => some ⟨0x50, 0, h, o, .m m⟩
  | .st h o m => some ⟨0x51, 0, h, o, .m m⟩
  | .atomAdd h o m => some ⟨0x52, 0, h, o, .m m⟩
  | .atomMin h o m => some ⟨0x52, 1, h, o, .m m⟩
  | .atomMax h o m => some ⟨0x52, 2, h, o, .m m⟩
  | .atomAnd h o m => some ⟨0x52, 3, h, o, .m m⟩
  | .atomOr h o m => some ⟨0x52, 4, h, o, .m m⟩
  | .atomXor h o m => some ⟨0x52, 5, h, o, .m m⟩
  | .atomXchg h o m => some ⟨0x52, 6, h, o, .m m⟩
  | .atomCas h o m => some ⟨0x52, 7, h, o, .m m⟩
  | .atomIncw h o m => some ⟨0x52, 8, h, o, .m m⟩
  | .atomDecw h o m => some ⟨0x52, 9, h, o, .m m⟩
  | .red h o m => some ⟨0x53, 0, h, o, .m m⟩
  | .fence h o m => some ⟨0x54, 0, h, o, .m m⟩
  | .inv h o m => some ⟨0x55, 0, h, o, .m m⟩
  | .wb h o m => some ⟨0x56, 0, h, o, .m m⟩
  | .pref h o m => some ⟨0x57, 0, h, o, .m m⟩
  | .ldp h o m => some ⟨0x58, 0, h, o, .m m⟩
  | .stp h o m => some ⟨0x59, 0, h, o, .m m⟩
  | .lds h o m => some ⟨0x5A, 0, h, o, .m m⟩
  | .sts h o m => some ⟨0x5B, 0, h, o, .m m⟩
  | .atoms h o m => some ⟨0x5C, 0, h, o, .m m⟩
  | .smp h o m => some ⟨0x5D, 0, h, o, .c m⟩
  | .fpost h o m => some ⟨0x5E, 0, h, o, .c m⟩
  | .tmeth h o m => some ⟨0x5F, 0, h, o, .c m⟩
  | .br h o m => some ⟨0x60, 0, h, o, .c m⟩
  | .jmp h o m => some ⟨0x61, 0, h, o, .c m⟩
  | .call h o m => some ⟨0x62, 0, h, o, .c m⟩
  | .calli h o m => some ⟨0x63, 0, h, o, .c m⟩
  | .ret h o m => some ⟨0x64, 0, h, o, .c m⟩
  | .unwind h o m => some ⟨0x65, 0, h, o, .c m⟩
  | .loop h o m => some ⟨0x66, 0, h, o, .c m⟩
  | .fork h o m => some ⟨0x67, 0, h, o, .c m⟩
  | .endFibre h o => some ⟨0x68, 0, h, o, .n⟩
  | .join h o => some ⟨0x69, 0, h, o, .n⟩
  | .yieldI h o => some ⟨0x6A, 0, h, o, .n⟩
  | .bar h o m => some ⟨0x6B, 0, h, o, .c m⟩
  | .mbarInit h o m => some ⟨0x6C, 0, h, o, .c m⟩
  | .mbarArrive h o m => some ⟨0x6C, 1, h, o, .c m⟩
  | .mbarExpect h o m => some ⟨0x6C, 2, h, o, .c m⟩
  | .mbarWait h o m => some ⟨0x6C, 3, h, o, .c m⟩
  | .mbarTest h o m => some ⟨0x6C, 4, h, o, .c m⟩
  | .waitge h o m => some ⟨0x6D, 0, h, o, .c m⟩
  | .trap h o m => some ⟨0x6E, 0, h, o, .c m⟩
  | .trapBkpt h o m => some ⟨0x6E, 1, h, o, .c m⟩
  | .exit h o => some ⟨0x6F, 0, h, o, .n⟩
  | .cpyPlain h o m => some ⟨0x70, 0, h, o, .c m⟩
  | .cpyPlane h o m => some ⟨0x70, 1, h, o, .c m⟩
  | .cpyGather h o m => some ⟨0x70, 2, h, o, .c m⟩
  | .cpyMcast h o m => some ⟨0x70, 3, h, o, .c m⟩
  | .cwaitAll h o m => some ⟨0x71, 0, h, o, .c m⟩
  | .cwaitAny h o m => some ⟨0x71, 1, h, o, .c m⟩
  | .cwaitFirst h o m => some ⟨0x71, 2, h, o, .c m⟩
  | .cbatchClose h o m => some ⟨0x72, 0, h, o, .c m⟩
  | .cbatchWait h o m => some ⟨0x72, 1, h, o, .c m⟩
  | .post h o m => some ⟨0x73, 0, h, o, .c m⟩
  | .ttask h o m => some ⟨0x74, 0, h, o, .c m⟩
  | .ttwait h o m => some ⟨0x75, 0, h, o, .c m⟩
  | .nmcRowcp h o m => some ⟨0x76, 0, h, o, .c m⟩
  | .nmcRowzero h o m => some ⟨0x76, 1, h, o, .c m⟩
  | .nmcRowq h o m => some ⟨0x76, 2, h, o, .c m⟩
  | .nmcNmlaunch h o m => some ⟨0x76, 3, h, o, .c m⟩
  | .nfence h o => some ⟨0x77, 0, h, o, .n⟩
  | .launch h o m => some ⟨0x78, 0, h, o, .c m⟩
  | .spawn h o m => some ⟨0x79, 0, h, o, .c m⟩
  | .evtSet h o m => some ⟨0x7A, 0, h, o, .c m⟩
  | .evtClear h o m => some ⟨0x7A, 0, h, o, .c m⟩
  | .evtTest h o m => some ⟨0x7A, 1, h, o, .c m⟩
  | .ppost h o m => some ⟨0x7B, 0, h, o, .c m⟩
  | .sregRdsr h o m => some ⟨0x7C, 0, h, o, .c m⟩
  | .sregWrsr h o m => some ⟨0x7C, 1, h, o, .c m⟩
  | .sysSvc h o m => some ⟨0x7D, 0, h, o, .c m⟩
  | .sysRte h o m => some ⟨0x7D, 1, h, o, .c m⟩
  | .sysTinv h o m => some ⟨0x7D, 2, h, o, .c m⟩
  | .sysRekey h o m => some ⟨0x7D, 3, h, o, .c m⟩
  | .sysKslotInstall h o m => some ⟨0x7D, 4, h, o, .c m⟩
  | .sysKslotStage h o m => some ⟨0x7D, 4, h, o, .c m⟩
  | .sysKslotErase h o m => some ⟨0x7D, 4, h, o, .c m⟩
  | .sysKslotQuery h o m => some ⟨0x7D, 4, h, o, .c m⟩
  | .sysSlice h o m => some ⟨0x7D, 5, h, o, .c m⟩
  | .pair .. => none
  | .launchWindowHeader .. => none
  | .eventWindowWrite .. => none
  | .launchEligible .. => none
  | .workgroupExpand .. => none
  | .admission .. => none
  | .claim .. => none
  | .workgroupEnd .. => none
  | .launchComplete .. => none
  | .resultLand .. => none
  | .markerResume .. => none
  | .joinRelease .. => none
  | .retRelease .. => none
  | .callRetry .. => none
  | .barRelease .. => none
  | .mbarWaitRelease .. => none
  | .waitgeReread .. => none
  | .cwaitRelease .. => none
  | .cbatchWaitRelease .. => none
  | .ttwaitRelease .. => none
  | .nfenceRelease .. => none
  | .yieldRelease .. => none
  | .tinvComplete .. => none
  | .storeDrain .. => none
  | .l1Eviction .. => none
  | .fetch .. => none
  | .register .. => none
  | .homeWideAtomic .. => none
  | .writeback .. => none
  | .jWrite .. => none
  | .jClear .. => none
  | .holdClear .. => none
  | .ownerRecall .. => none
  | .translationWalk .. => none
  | .fill .. => none
  | .blockWriteback .. => none
  | .metadataRowWriteback .. => none
  | .rekeyWalkBlock .. => none
  | .viewLineFill .. => none
  | .frrWrite .. => none
  | .jobStart .. => none
  | .copyGranuleCredit .. => none
  | .jobComplete .. => none
  | .copyFault .. => none
  | .rowCommandPrepare .. => none
  | .rowOperation .. => none
  | .rowCommandComplete .. => none
  | .returnTrap .. => none
  | .primitiveArrival .. => none
  | .primitiveProcess .. => none
  | .ticketArrival .. => none
  | .fragmentBlockEmit .. => none
  | .postArrival .. => none
  | .postResend .. => none
  | .tmethApply .. => none
  | .progMethodReturn .. => none
  | .fenceMarker .. => none
  | .fenceComplete .. => none
  | .governorWindow .. => none
  | .tempThrottle .. => none
  | .tempRecover .. => none
  | .thermalTrip .. => none
  | .railOutOfRange .. => none
  | .reset => none
  | .railsInRange => none
  | .clocksLocked => none
  | .hbmTrained => none
  | .sealInitDone => none
  | .linksTrained .. => none
  | .partitionRecordWrite .. => none
  | .ctxcWrite .. => none
  | .pkcWrite .. => none
  | .hdmDecoderWrite .. => none
  | .pshrGo .. => none
  | .shrinkComplete .. => none
  | .obscSnap .. => none
  | .snapshotTick => none
  | .snapshotLatch => none
  | .stopTick => none
  | .debugStep .. => none
  | .dumpGo .. => none
  | .dumpMarker .. => none
  | .dumpResume .. => none
  | .registerWrite .. => none
  | .onchipWindowAccess .. => none
  | .linkFlitReceive .. => none
  | .linkNak .. => none
  | .linkAckTimeout .. => none
  | .streamCommand .. => none
  | .streamResponse .. => none
  | .commandResendTimeout .. => none
  | .rendezvous .. => none
  | .collectiveDeferTimeout .. => none
  | .hostSharedRead .. => none
  | .hostExclusiveRequest .. => none
  | .hostUncachedAccess .. => none
  | .hostSnoop .. => none
  | .snoopFilterEviction .. => none
  | .bisnpTimeout .. => none
  | .ideIntegrityFailure => none
  | .ideReestablish => none
  | .spdmRequest .. => none
  | .sliceEnd .. => none
  | .sliceTake .. => none
  | .restore .. => none
  | .spill .. => none
  | .trapDelivery .. => none
  | .tdispRequest .. => none
  | .linkRetrainDone .. => none
  | .debugSmaskWrite .. => none

/-- The use a base form makes of `m`, `d`, `a` and `b` (R160, the Base column of R178 to R183). -/
inductive BaseUse where
  | zero | i6 | r | cd | s1 | bm | imm12 | off18 | absent
  deriving DecidableEq, Repr

/-- The Base column of the opcode map. -/
def baseUse : Nat → BaseUse
  | 0x00 | 0x68 | 0x6A | 0x6F | 0x77 => .zero
  | 0x01 | 0x02 | 0x03 | 0x05 | 0x06 | 0x08 | 0x09 | 0x0A | 0x0B | 0x0D | 0x0E | 0x0F | 0x10 | 0x1C | 0x40 | 0x45 | 0x50 | 0x51 | 0x58 | 0x59 | 0x5A | 0x5B => .i6
  | 0x1A | 0x1B | 0x20 | 0x21 | 0x23 | 0x28 | 0x2A | 0x2B | 0x2D | 0x2E | 0x2F | 0x31 => .r
  | 0x04 | 0x07 | 0x1E | 0x22 | 0x2C | 0x30 => .cd
  | 0x18 | 0x25 | 0x27 | 0x29 | 0x34 | 0x61 | 0x69 => .s1
  | 0x14 | 0x35 | 0x43 | 0x44 | 0x46 => .bm
  | 0x19 => .imm12
  | 0x60 => .off18
  | _ => .absent

/-- The Mods column of the opcode map. -/
def layoutOf : Nat → Layout
  | 0x01 | 0x02 | 0x03 | 0x04 | 0x05 | 0x06 | 0x07 | 0x08 | 0x09 | 0x0A | 0x0B | 0x0C | 0x0D | 0x0E | 0x0F | 0x10 | 0x11 | 0x12 | 0x13 | 0x14 | 0x15 | 0x16 | 0x17 | 0x18 | 0x19 | 0x1A | 0x1B | 0x1C | 0x1D | 0x1E | 0x1F | 0x24 | 0x32 | 0x40 | 0x41 | 0x42 | 0x43 | 0x44 => .i
  | 0x20 | 0x21 | 0x22 | 0x23 | 0x25 | 0x27 | 0x28 | 0x29 | 0x2A | 0x2B | 0x2C | 0x2D | 0x2E | 0x2F | 0x30 | 0x31 | 0x34 | 0x35 => .f
  | 0x26 | 0x33 => .t
  | 0x50 | 0x51 | 0x52 | 0x53 | 0x54 | 0x55 | 0x56 | 0x57 | 0x58 | 0x59 | 0x5A | 0x5B | 0x5C => .m
  | 0x5D | 0x5E | 0x5F | 0x60 | 0x61 | 0x62 | 0x63 | 0x64 | 0x65 | 0x66 | 0x67 | 0x6B | 0x6C | 0x6D | 0x6E | 0x70 | 0x71 | 0x72 | 0x73 | 0x74 | 0x75 | 0x76 | 0x78 | 0x79 | 0x7A | 0x7B | 0x7C | 0x7D => .c
  | _ => .n

/-- How a destination field is used: not at all, any register, any but v1, an even pair, a multiple of 4, or by `sz`. -/
inductive DUse where
  | zero | word | notV1 | pair | quad | data
  deriving DecidableEq, Repr

/-- How a source field is used: not at all, a 32-bit operand, one with the identity pattern, an even pair, the whole
literal, a word of the literal. -/
inductive SUse where
  | zero | word | ident | pair | lit | litWord
  deriving DecidableEq, Repr

/-- The use of the four operand fields. -/
structure Shape where
  d : DUse
  a : SUse
  b : SUse
  c : SUse
  deriving DecidableEq, Repr

/-- The operands each major and minor uses (chapters 10 to 15). -/
def shapeOf : Nat → Nat → Shape
  | 0x00, _ => ⟨.zero, .zero, .zero, .zero⟩
  | 0x01, 2 => ⟨.word, .word, .word, .word⟩
  | 0x01, _ => ⟨.word, .word, .word, .zero⟩
  | 0x02, _ => ⟨.word, .word, .word, .zero⟩
  | 0x03, _ => ⟨.word, .word, .word, .zero⟩
  | 0x04, 2 => ⟨.pair, .word, .word, .pair⟩
  | 0x04, _ => ⟨.word, .word, .word, .word⟩
  | 0x05, _ => ⟨.word, .word, .word, .zero⟩
  | 0x06, _ => ⟨.word, .word, .word, .zero⟩
  | 0x07, _ => ⟨.word, .word, .word, .word⟩
  | 0x08, _ => ⟨.word, .word, .word, .zero⟩
  | 0x09, _ => ⟨.word, .word, .word, .zero⟩
  | 0x0A, _ => ⟨.word, .word, .word, .zero⟩
  | 0x0B, _ => ⟨.word, .word, .word, .zero⟩
  | 0x0C, _ => ⟨.word, .word, .word, .word⟩
  | 0x0D, _ => ⟨.word, .word, .word, .zero⟩
  | 0x0E, _ => ⟨.word, .word, .word, .zero⟩
  | 0x0F, _ => ⟨.word, .word, .word, .zero⟩
  | 0x10, _ => ⟨.word, .word, .word, .zero⟩
  | 0x11, _ => ⟨.word, .word, .word, .word⟩
  | 0x12, _ => ⟨.word, .word, .word, .zero⟩
  | 0x13, _ => ⟨.word, .word, .word, .word⟩
  | 0x14, _ => ⟨.word, .word, .zero, .zero⟩
  | 0x15, _ => ⟨.word, .word, .word, .word⟩
  | 0x16, _ => ⟨.notV1, .word, .word, .zero⟩
  | 0x17, _ => ⟨.word, .word, .word, .zero⟩
  | 0x18, _ => ⟨.word, .word, .zero, .zero⟩
  | 0x19, _ => ⟨.word, .litWord, .zero, .zero⟩
  | 0x1A, 2 => ⟨.pair, .pair, .zero, .zero⟩
  | 0x1A, _ => ⟨.pair, .pair, .pair, .zero⟩
  | 0x1B, _ => ⟨.pair, .pair, .pair, .zero⟩
  | 0x1C, _ => ⟨.pair, .pair, .word, .zero⟩
  | 0x1D, _ => ⟨.notV1, .pair, .pair, .zero⟩
  | 0x1E, _ => ⟨.word, .word, .word, .word⟩
  | 0x1F, _ => ⟨.word, .word, .word, .word⟩
  | 0x20, _ => ⟨.word, .word, .word, .zero⟩
  | 0x21, _ => ⟨.word, .word, .word, .zero⟩
  | 0x22, _ => ⟨.word, .word, .word, .word⟩
  | 0x23, _ => ⟨.word, .word, .word, .zero⟩
  | 0x24, _ => ⟨.notV1, .word, .word, .zero⟩
  | 0x25, _ => ⟨.word, .word, .zero, .zero⟩
  | 0x26, _ => ⟨.word, .word, .zero, .zero⟩
  | 0x27, _ => ⟨.word, .word, .zero, .zero⟩
  | 0x28, _ => ⟨.word, .word, .word, .zero⟩
  | 0x29, _ => ⟨.word, .word, .zero, .zero⟩
  | 0x2A, _ => ⟨.word, .word, .word, .zero⟩
  | 0x2B, _ => ⟨.word, .word, .word, .zero⟩
  | 0x2C, _ => ⟨.word, .word, .word, .word⟩
  | 0x2D, _ => ⟨.word, .word, .word, .zero⟩
  | 0x2E, _ => ⟨.pair, .pair, .pair, .zero⟩
  | 0x2F, _ => ⟨.pair, .pair, .pair, .zero⟩
  | 0x30, _ => ⟨.pair, .pair, .pair, .pair⟩
  | 0x31, _ => ⟨.pair, .pair, .pair, .zero⟩
  | 0x32, _ => ⟨.notV1, .pair, .pair, .zero⟩
  | 0x33, _ => ⟨.word, .word, .zero, .zero⟩
  | 0x34, _ => ⟨.pair, .pair, .zero, .zero⟩
  | 0x35, _ => ⟨.word, .word, .zero, .zero⟩
  | 0x40, _ => ⟨.notV1, .ident, .word, .zero⟩
  | 0x41, _ => ⟨.notV1, .word, .zero, .zero⟩
  | 0x42, _ => ⟨.notV1, .ident, .zero, .zero⟩
  | 0x43, _ => ⟨.notV1, .word, .zero, .zero⟩
  | 0x44, _ => ⟨.notV1, .word, .zero, .zero⟩
  | 0x45, _ => ⟨.zero, .zero, .word, .zero⟩
  | 0x46, _ => ⟨.word, .zero, .zero, .zero⟩
  | 0x50, _ => ⟨.data, .pair, .word, .zero⟩
  | 0x51, _ => ⟨.data, .pair, .word, .zero⟩
  | 0x52, _ => ⟨.data, .pair, .word, .zero⟩
  | 0x53, _ => ⟨.data, .pair, .word, .zero⟩
  | 0x54, _ => ⟨.zero, .zero, .zero, .zero⟩
  | 0x55, _ => ⟨.word, .pair, .word, .zero⟩
  | 0x56, _ => ⟨.word, .pair, .word, .zero⟩
  | 0x57, _ => ⟨.zero, .pair, .word, .zero⟩
  | 0x58, _ => ⟨.data, .word, .word, .zero⟩
  | 0x59, _ => ⟨.data, .word, .word, .zero⟩
  | 0x5A, _ => ⟨.data, .word, .word, .zero⟩
  | 0x5B, _ => ⟨.data, .word, .word, .zero⟩
  | 0x5C, _ => ⟨.data, .word, .word, .zero⟩
  | 0x5D, _ => ⟨.quad, .pair, .word, .zero⟩
  | 0x5E, _ => ⟨.quad, .word, .word, .zero⟩
  | 0x5F, _ => ⟨.quad, .pair, .pair, .zero⟩
  | 0x60, _ => ⟨.zero, .word, .zero, .zero⟩
  | 0x61, _ => ⟨.zero, .pair, .zero, .zero⟩
  | 0x62, _ => ⟨.zero, .lit, .zero, .zero⟩
  | 0x63, _ => ⟨.zero, .pair, .zero, .zero⟩
  | 0x64, _ => ⟨.zero, .zero, .zero, .zero⟩
  | 0x65, _ => ⟨.zero, .word, .pair, .zero⟩
  | 0x66, _ => ⟨.zero, .word, .zero, .zero⟩
  | 0x67, _ => ⟨.word, .word, .pair, .zero⟩
  | 0x68, _ => ⟨.zero, .zero, .zero, .zero⟩
  | 0x69, _ => ⟨.zero, .ident, .zero, .zero⟩
  | 0x6A, _ => ⟨.zero, .zero, .zero, .zero⟩
  | 0x6B, _ => ⟨.zero, .word, .zero, .zero⟩
  | 0x6C, 0 => ⟨.zero, .word, .word, .word⟩
  | 0x6C, 1 => ⟨.word, .word, .word, .zero⟩
  | 0x6C, 2 => ⟨.zero, .word, .word, .word⟩
  | 0x6C, 3 => ⟨.zero, .word, .word, .word⟩
  | 0x6C, 4 => ⟨.word, .word, .word, .word⟩
  | 0x6D, _ => ⟨.zero, .pair, .word, .pair⟩
  | 0x6E, _ => ⟨.zero, .zero, .zero, .zero⟩
  | 0x6F, _ => ⟨.zero, .zero, .zero, .zero⟩
  | 0x70, _ => ⟨.zero, .word, .zero, .zero⟩
  | 0x71, 2 => ⟨.word, .pair, .zero, .zero⟩
  | 0x71, _ => ⟨.zero, .pair, .zero, .zero⟩
  | 0x72, _ => ⟨.zero, .zero, .zero, .zero⟩
  | 0x73, _ => ⟨.word, .pair, .word, .zero⟩
  | 0x74, _ => ⟨.zero, .word, .zero, .zero⟩
  | 0x75, _ => ⟨.zero, .zero, .zero, .zero⟩
  | 0x76, 0 => ⟨.zero, .pair, .pair, .word⟩
  | 0x76, 1 => ⟨.zero, .pair, .zero, .word⟩
  | 0x76, 2 => ⟨.word, .pair, .zero, .zero⟩
  | 0x76, 3 => ⟨.zero, .pair, .pair, .zero⟩
  | 0x77, _ => ⟨.zero, .zero, .zero, .zero⟩
  | 0x78, _ => ⟨.zero, .pair, .zero, .zero⟩
  | 0x79, _ => ⟨.zero, .pair, .zero, .zero⟩
  | 0x7A, 0 => ⟨.zero, .word, .zero, .zero⟩
  | 0x7A, 1 => ⟨.word, .word, .zero, .zero⟩
  | 0x7B, _ => ⟨.zero, .word, .word, .word⟩
  | 0x7C, 0 => ⟨.word, .zero, .zero, .zero⟩
  | 0x7C, 1 => ⟨.zero, .word, .zero, .zero⟩
  | 0x7D, 0 => ⟨.zero, .zero, .zero, .zero⟩
  | 0x7D, 1 => ⟨.zero, .zero, .zero, .zero⟩
  | 0x7D, 2 => ⟨.zero, .pair, .word, .zero⟩
  | 0x7D, 3 => ⟨.word, .word, .zero, .zero⟩
  | 0x7D, 4 => ⟨.word, .pair, .word, .zero⟩
  | 0x7D, 5 => ⟨.zero, .word, .word, .zero⟩
  | _, _ => ⟨.zero, .zero, .zero, .zero⟩

/-- Whether a register is even. -/
def evenReg (r : BitVec 8) : Bool := r.toNat % 2 == 0

/-- Whether a register is a multiple of 4. -/
def quadReg (r : BitVec 8) : Bool := r.toNat % 4 == 0

/-- R168: the amounts a pattern admits. -/
def Pat.ok : Pat → Bool
  | .mir k => decide (1 ≤ k.toNat ∧ k.toNat ≤ 5)
  | _ => true

/-- Whether a destination fits its use (R162, R166). `data` is checked with the modifiers (R165). -/
def DUse.ok : DUse → BitVec 8 → Bool
  | .zero, d => d == 0
  | .word, _ => true
  | .notV1, d => d != 1
  | .pair, d => evenReg d
  | .quad, d => quadReg d
  | .data, _ => true

/-- Whether an operand reads the literal. -/
def Src.isLit : Src → Bool
  | .lit => true
  | .litHi => true
  | _ => false

/-- Whether an extended source fits its use (R162, R163, R166, R168). -/
def SUse.okExt : SUse → Src → Bool
  | .zero, s => s == .zero
  | .word, .reg _ p => p.ok
  | .word, s => s.isLit
  | .ident, .reg _ p => p == .ident
  | .ident, _ => false
  | .pair, .reg r p => evenReg r && p.ok
  | .pair, s => s.isLit
  | .lit, s => s == .lit
  | .litWord, s => s.isLit

/-- A base-form register field: v0 to v63 with the identity pattern, even where a pair is required (R159, R166). -/
def SUse.okBase : SUse → Src → Bool
  | .zero, s => s == .zero
  | .pair, .reg r p => decide (r.toNat < 64) && evenReg r && p == .ident
  | _, .reg r p => decide (r.toNat < 64) && p == .ident
  | _, _ => false

/-- The operands of a base word (R160, R161). -/
def baseOpndsOk (u : BaseUse) (sh : Shape) (lit : Bool) (o : Opnds) : Bool :=
  decide (o.d.toNat < 64) && sh.d.ok o.d &&
  match u with
  | .zero => !lit && o == ⟨0, .zero, .zero, .zero⟩
  | .r => sh.a.okBase o.a && (if lit then o.b == .lit else sh.b.okBase o.b) && o.c == .zero
  | .i6 => sh.a.okBase o.a && o.c == .zero &&
      (if lit then o.b == .lit else match o.b with
        | .imm6 _ => true
        | s => sh.b.okBase s)
  | .cd => sh.a.okBase o.a && (if lit then o.b == .lit else sh.b.okBase o.b) && o.c == .reg o.d .ident
  | .s1 => !lit && sh.a.okBase o.a && o.b == .zero && o.c == .zero
  | .bm => !lit && sh.a.okBase o.a && o.b == .zero && o.c == .zero
  | .imm12 => !lit && o.b == .zero && o.c == .zero && match o.a with
      | .imm12 _ => true
      | .imm12hi _ => true
      | _ => false
  | .off18 => !lit && o.d == 0 && o.b == .zero && o.c == .zero && match o.a with
      | .off18 _ => true
      | _ => false
  | .absent => false

/-- The operands of an extended word; an L = 11 word names the literal in at least one operand (R161, R162, R163). -/
def extOpndsOk (sh : Shape) (lit : Bool) (o : Opnds) : Bool :=
  sh.d.ok o.d && sh.a.okExt o.a && sh.b.okExt o.b && sh.c.okExt o.c &&
  ((o.a.isLit || o.b.isLit || o.c.isLit) == lit)

/-- The integer types of 32 bits or fewer (R137). -/
def Ty.isInt32 : Ty → Bool
  | .i8 | .i16 | .i32 | .n8 | .n16 | .n32 => true
  | _ => false

/-- The 64-bit types (R137). -/
def Ty.is64 : Ty → Bool
  | .i64 | .n64 | .f64 => true
  | _ => false

/-- The floating-point types a conversion of R249 admits. -/
def Ty.isFloat32 : Ty → Bool
  | .f16 | .bf16 | .f32 | .e4m3 | .e5m2 | .e2m1 | .e8m0 => true
  | _ => false

/-- Bits [hi:lo] of an `x` field. -/
def xf {n : Nat} (x : BitVec n) (hi lo : Nat) : Nat := Machine.nbits x.toNat hi lo

/-- The compare fields of R229 and R246: `cc`, `pd` and `bop`. -/
def cmpFieldsOk (x : BitVec 11) (ccMax : Nat) : Bool :=
  decide (xf x 2 0 ≤ ccMax) && decide (xf x 7 3 ≤ 26) && (xf x 9 8 == 0 || xf x 7 3 != 0)

/-- Layout I by major and minor (R209, R210, R216, R217, R246, R261). -/
def iModsOk (major minor : Nat) (o : Opnds) (m : IMods) : Bool :=
  let cp := xf m.x 4 0
  match major with
  | 0x01 => m.ty.isInt32 && decide (m.x.toNat < 32) && decide (cp ≤ 26) && (cp == 0 || (!m.sat && o.d != 1)) &&
      (match minor with
        | 0 => true
        | 1 => cp != 0 && !m.sat
        | _ => cp == 0)
  | 0x02 => m.ty.isInt32 && decide (m.x.toNat < 32) && decide (cp ≤ 26) && (cp == 0 || (!m.sat && o.d != 1)) &&
      (match minor with
        | 0 => true
        | 1 => cp != 0 && !m.sat
        | _ => cp == 0)
  | 0x03 => (m.ty == .i32 || m.ty == .n32) && m.x == 0 && (minor == 0 || !m.sat)
  | 0x04 => (m.ty == .i32 || m.ty == .n32) && m.x == 0 && (minor == 0 || !m.sat)
  | 0x05 | 0x06 | 0x1F => m.ty.isInt32 && !m.sat && m.x == 0
  | 0x07 => (m.ty == .i8 || m.ty == .n8 || m.ty == .i32 || m.ty == .n32) && m.x == 0
  | 0x08 | 0x09 | 0x0A | 0x0B | 0x0D | 0x0E | 0x0F | 0x10 | 0x13 | 0x14 | 0x15 | 0x18 | 0x19 =>
      m.ty == .i32 && !m.sat && m.x == 0
  | 0x0C => m.ty == .i32 && !m.sat && decide (m.x.toNat < 256)
  | 0x11 => m.ty == .i32 && !m.sat && decide (m.x.toNat < 4)
  | 0x12 => (m.ty == .i32 || m.ty == .n32) && !m.sat && m.x == 0
  | 0x16 => m.ty.isInt32 && !m.sat && decide (m.x.toNat < 1024) && cmpFieldsOk m.x 6
  | 0x17 => m.ty == .i32 && !m.sat && decide (m.x.toNat < 64)
  | 0x1A | 0x1B => (m.ty == .i32 || m.ty == .n32 || m.ty == .i64 || m.ty == .n64) && m.x == 0
  | 0x1C => (m.ty == .i32 || m.ty == .n32 || m.ty == .i64 || m.ty == .n64) && !m.sat && m.x == 0
  | 0x1D => (m.ty == .i32 || m.ty == .n32 || m.ty == .i64 || m.ty == .n64) && !m.sat && decide (m.x.toNat < 1024) &&
      cmpFieldsOk m.x 6
  | 0x1E => m.ty.isInt32 && decide (m.x.toNat < 2)
  | 0x24 => m.ty == .f32 && !m.sat && cmpFieldsOk m.x 7
  | 0x32 => m.ty == .f64 && !m.sat && cmpFieldsOk m.x 7
  | 0x40 | 0x41 | 0x42 => m.ty == .i32 && !m.sat && m.x.toNat % 8 == 0 && decide (m.x.toNat < 256) && decide (xf m.x 7 3 ≤ 26)
  | _ => (m.ty == .i32 || m.ty == .n32) && !m.sat && m.x == 0

/-- Layout F by major (R238, R257). -/
def fModsOk (major minor : Nat) (m : FMods) : Bool :=
  let tyOk : Bool := match major with
    | 0x2A | 0x2B | 0x2C | 0x2D => m.ty == .f16 || m.ty == .bf16
    | 0x2E | 0x2F | 0x30 | 0x31 | 0x34 => m.ty == .f64
    | _ => m.ty == .f32
  let satOk : Bool := match major with
    | 0x20 | 0x21 | 0x22 | 0x28 | 0x2A | 0x2B | 0x2C | 0x2E | 0x2F | 0x30 => true
    | _ => !m.sat
  let rndOk : Bool := match major with
    | 0x23 | 0x27 | 0x29 | 0x2D | 0x31 => m.rnd == .rn
    | 0x35 => m.rnd == .rn || minor == 2
    | _ => true
  let ftzOk : Bool := match major with
    | 0x2E | 0x2F | 0x30 | 0x31 | 0x34 => !m.ftz
    | _ => true
  let negOk : Bool := match major with
    | 0x20 | 0x21 | 0x23 | 0x2A | 0x2B | 0x2D | 0x2E | 0x2F | 0x31 => m.nc == 0
    | 0x22 | 0x2C | 0x30 => true
    | 0x27 => m.na == 0 && m.nb == 0 && m.nc == 0
    | _ => m.nb == 0 && m.nc == 0
  tyOk && satOk && rndOk && ftzOk && negOk

/-- Layout T by major (R249, R250): the pairs of types, and a pair of registers for each 64-bit type. -/
def tModsOk (major : Nat) (o : Opnds) (m : TMods) : Bool :=
  match major with
  | 0x26 => (m.dtype.isInt32 || m.dtype.isFloat32) && (m.stype.isInt32 || m.stype.isFloat32) &&
      (m.dtype.isFloat32 || m.stype.isFloat32)
  | _ =>
    let other : Ty → Bool := fun t => match t with
      | .i32 | .n32 | .i64 | .n64 | .f16 | .bf16 | .f32 | .f64 => true
      | _ => false
    let long : Ty → Bool := fun t => t == .i64 || t == .n64
    ((m.dtype == .f64 && other m.stype) || (m.stype == .f64 && other m.dtype) ||
      (long m.dtype && m.stype == .f32) || (m.dtype == .f32 && long m.stype)) && !m.ftz &&
    (!m.dtype.is64 || evenReg o.d) &&
    (!m.stype.is64 || (match o.a with
      | .reg r _ => evenReg r
      | _ => true))

/-- The default scope of a memory major in the base form (R291). -/
def defScope : Nat → Scope
  | 0x58 | 0x59 => .fib
  | 0x5A | 0x5B | 0x5C => .wg
  | _ => .pkg

/-- The data register by size (R165, R294). -/
def dataOk (sz : Size) (d : BitVec 8) : Bool :=
  match sz with
  | .b64 => evenReg d
  | .b128 => quadReg d
  | _ => true

/-- The operation and type of an atomic (R292). -/
def atomTyOk (op aty : Nat) : Bool :=
  decide (op ≤ 9) && match aty with
  | 0 => true
  | 1 => op == 1 || op == 2
  | 2 => op == 0 || op == 1 || op == 2
  | _ => false

/-- The data register of an atomic by operation and size (R300). -/
def atomDataOk (op : Nat) (sz : Size) (d : BitVec 8) : Bool :=
  match sz with
  | .b32 => op != 7 || evenReg d
  | .b64 => if op = 7 then quadReg d else evenReg d
  | _ => false

/-- Layout M by major (R291, R292). -/
def mModsOk (major minor : Nat) (o : Opnds) (m : MMods) : Bool :=
  let op := xf m.x 5 2
  let aty := xf m.x 1 0
  let bare : Bool := m.sz == .n8 && m.x == 0
  match major with
  | 0x50 | 0x51 => m.x == 0 && dataOk m.sz o.d
  | 0x52 => m.cache == 0 && decide (m.x.toNat < 4) && atomTyOk minor aty && atomDataOk minor m.sz o.d
  | 0x53 => (m.order == .rlx || m.order == .rel) && m.cache == 0 && decide (m.x.toNat < 64) && op != 6 && op != 7 &&
      atomTyOk op aty && atomDataOk op m.sz o.d
  | 0x54 => m.order != .rlx && m.cache == 0 && bare
  | 0x55 | 0x56 => m.order == .rlx && m.cache == 0 && bare
  | 0x57 => m.order == .rlx && m.cache != 3 && bare
  | 0x58 | 0x59 => m.order == .rlx && m.scope == .fib && m.cache == 0 && m.x == 0 && dataOk m.sz o.d
  | 0x5A | 0x5B => m.cache == 0 && m.x == 0 && dataOk m.sz o.d
  | _ => m.cache == 0 && decide (m.x.toNat < 64) && atomTyOk op aty && atomDataOk op m.sz o.d

/-- The 64-bit special registers (R346). -/
def sreg64 (sr : Nat) : Bool := sr == 0 || sr == 1 || sr == 10 || sr == 12 || sr == 15 || sr == 16

/-- The special registers that exist (R346). -/
def sregExists (sr : Nat) : Bool := decide (sr ≤ 16) || (decide (24 ≤ sr) && decide (sr ≤ 31))

/-- Scope codes 2 to 6 (R269, R313). -/
def wideScopeCode (s : Nat) : Bool := decide (2 ≤ s) && decide (s ≤ 6)

/-- Layout C by major and minor (R269, R313, R346, R348, R373, R375, R376). -/
def cModsOk (major minor : Nat) (h : Hdr) (o : Opnds) (x : BitVec 16) : Bool :=
  match major with
  | 0x5D => decide (x.toNat < 128) && decide (xf x 2 0 ≤ 5) && decide (xf x 6 3 ≤ 8)
  | 0x5E => decide (x.toNat < 4)
  | 0x5F => decide (x.toNat < 16)
  | 0x62 | 0x63 => decide (x.toNat < 8192) && decide (xf x 12 8 ≤ 16) && decide (xf x 12 8 + 2 ≤ 8 * ((xf x 7 0 + 8) / 8))
  | 0x64 => decide (x.toNat ≤ 4)
  | 0x66 => decide (h.form.words ≤ x.toNat)
  | 0x6B => decide (x.toNat < 256) && wideScopeCode (xf x 6 4) && (x.getLsbD 7 || o.a == .zero)
  | 0x6C => wideScopeCode x.toNat
  | 0x6D | 0x71 => decide (x.toNat < 2048) && wideScopeCode (xf x 2 0)
  | 0x6E => true
  | 0x70 => decide (x.toNat < 128)
  | 0x72 => if minor = 1 then decide (x.toNat < 16) else x == 0
  | 0x76 => decide (x.toNat < 2)
  | 0x7A => if minor = 0 then decide (x.toNat < 2) else x == 0
  | 0x7C => decide (x.toNat < 64) && sregExists x.toNat &&
      (if minor = 0 then !sreg64 x.toNat || evenReg o.d
       else x.toNat == 3 || (x.toNat == 12 && (match o.a with
        | .reg r _ => evenReg r
        | _ => true)))
  | 0x7D => match minor with
    | 0 => true
    | 2 => decide (x.toNat ≤ 6)
    | 4 => decide (x.toNat < 4)
    | _ => x == 0
  | _ => x == 0

/-- The modifiers of a word. -/
def modsOk (v : View) : Bool :=
  match v.mods with
  | .i m => iModsOk v.major v.minor v.o m
  | .f m => fModsOk v.major v.minor m
  | .t m => tModsOk v.major v.o m
  | .m m => mModsOk v.major v.minor v.o m
  | .c x => cModsOk v.major v.minor v.h v.o x
  | .n => true

/-- The default modifiers of a base word (R160). -/
def defMods (major : Nat) : Mods :=
  match layoutOf major with
  | .i => .i ⟨.i32, false, 0⟩
  | .f =>
    let ty : Ty := match major with
      | 0x2A | 0x2B | 0x2C | 0x2D => .f16
      | 0x2E | 0x2F | 0x30 | 0x31 | 0x34 => .f64
      | _ => .f32
    .f ⟨.rn, false, false, 0, 0, 0, ty⟩
  | .t => .t ⟨.rn, false, false, .i8, .i8⟩
  | .m => .m ⟨.rlx, defScope major, 0, 0, .b32, 0xFF⟩
  | .c => .c 0
  | .n => .n

/-- An immediate `seg` names a size of 1 to 5, which is checked at decode (R267). -/
def segImmOk (major : Nat) (o : Opnds) : Bool :=
  major != 0x45 || match o.b with
  | .imm6 v => decide (1 ≤ v.toNat ∧ v.toNat ≤ 5)
  | _ => true

/-- A word that is not a pair is well formed. -/
def View.wf (v : View) : Bool :=
  let sh := shapeOf v.major v.minor
  modsOk v && segImmOk v.major v.o &&
  match v.h.form with
  | .base => decide (v.h.guard.idx.toNat < 4) && v.h.lit == 0 && (v.minor == 0 || baseUse v.major == .bm) &&
      v.mods == defMods v.major && baseOpndsOk (baseUse v.major) sh false v.o
  | .baseLit => decide (v.h.guard.idx.toNat < 4) && v.minor == 0 &&
      v.mods == defMods v.major && baseOpndsOk (baseUse v.major) sh true v.o
  | .ext => v.h.lit == 0 && extOpndsOk sh false v.o
  | .extLit => extOpndsOk sh true v.o

/-- The operation of a pair slot reads operand c (R162, R172). -/
def PairOp.three : PairOp → Bool
  | .mad | .sad | .dp4 | .ffma | .hfma2 | .perm => true
  | _ => false

/-- The operation of a pair slot reads operand b. -/
def PairOp.two : PairOp → Bool
  | .mov => false
  | _ => true

/-- The slot A set of R173. -/
def PairOp.inA : PairOp → Bool
  | .andO | .orO | .xorO | .andn | .perm => false
  | _ => true

/-- The slot B set of R173. -/
def PairOp.inB : PairOp → Bool
  | .mul | .mad | .sad | .dp4 => false
  | _ => true

/-- The source registers a slot names, v0 not counted (R172). -/
def Slot.sources (s : Slot) : List (BitVec 8) :=
  ([s.a] ++ (if s.op.two then [s.b] else []) ++ (if s.op.three then [s.c] else [])).filter (· != 0)

/-- The distinct elements of a list. -/
def dedup : List (BitVec 8) → List (BitVec 8)
  | [] => []
  | x :: l => if l.contains x then dedup l else x :: dedup l

/-- An unused field of a slot is 0 (R172). -/
def Slot.unusedOk (s : Slot) : Bool := (s.op.two || s.b == 0) && (s.op.three || s.c == 0)

/-- A pair word is well formed (R172). -/
def pairWf (h : Hdr) (sa sb : Slot) : Bool :=
  h.form == .ext && h.lit == 0 && sa.op.inA && sb.op.inB && sa.unusedOk && sb.unusedOk &&
  (sa.d == 0 || sb.d == 0 || sa.d.toNat % 4 != sb.d.toNat % 4) && sa.d != 1 && sb.d != 1 &&
  decide ((dedup (sa.sources ++ sb.sources)).length ≤ 4)

/-- The constructors that share a major and minor agree with the field that tells them apart (R344, R350). -/
def Instr.ctorOk : Instr → Bool
  | .evtSet _ _ m => m == 0
  | .evtClear _ _ m => m == 1
  | .sysKslotInstall _ _ m => m == 0
  | .sysKslotStage _ _ m => m == 1
  | .sysKslotErase _ _ m => m == 2
  | .sysKslotQuery _ _ m => m == 3
  | _ => true

/-- The well-formed instruction words. An event is no word, so it is never well formed. -/
def Instr.wf (i : Instr) : Bool :=
  match i with
  | .pair h sa sb => pairWf h sa sb
  | i => i.ctorOk && match i.view with
    | some v => v.wf
    | none => false

/-- The names of the checks that refuse a word (R184). -/
inductive IllFormed where
  | modifiers
  | operands
  | base
  | pair
  | notAWord
  deriving DecidableEq, Repr

/-- Which check refuses an instruction, if any. -/
def Instr.check (i : Instr) : Option IllFormed :=
  if i.wf then none
  else match i with
  | .pair .. => some .pair
  | i => match i.view with
    | none => some .notAWord
    | some v => if !modsOk v || !i.ctorOk then some .modifiers
      else match v.h.form with
        | .base => some .base
        | .baseLit => some .base
        | _ => some .operands

end Sys2Proof
end

