-- ==== Sys2Proof/Decode.lean ====
section
/-!
DEFINITION. Decoding the bytes at a PC and encoding a well-formed instruction (spec/08_encoding.md R158 to R184).
-/

namespace Sys2Proof

open Sys2Proof.Machine (nbits nbit ofBytes toBytes)

/-- Why bytes are no instruction: too few bytes, a major or minor that is not in the map, no such form, a reserved field
of the layout, or a word that one of the checks of R184 refuses. Each raises the illegal-instruction trap. -/
inductive DecodeError where
  | truncated
  | noMajor
  | noForm
  | reserved
  | illFormed
  deriving DecidableEq, Repr

/-- The instruction with the given fields, where the map lists the major and minor. -/
def View.toInstr (v : View) : Option Instr :=
  let h := v.h
  let o := v.o
  match v.major, v.minor, v.mods with
  | 0x00, 0, .n => some (.nop h o)
  | 0x01, 0, .i m => some (.add h o m)
  | 0x01, 1, .i m => some (.addAddc h o m)
  | 0x01, 2, .i m => some (.addAdd3 h o m)
  | 0x02, 0, .i m => some (.sub h o m)
  | 0x02, 1, .i m => some (.subSubb h o m)
  | 0x02, 2, .i m => some (.subRsub h o m)
  | 0x03, 0, .i m => some (.mulLo h o m)
  | 0x03, 1, .i m => some (.mulHi h o m)
  | 0x04, 0, .i m => some (.madLo h o m)
  | 0x04, 1, .i m => some (.madHi h o m)
  | 0x04, 2, .i m => some (.madWide h o m)
  | 0x05, 0, .i m => some (.minI h o m)
  | 0x06, 0, .i m => some (.maxI h o m)
  | 0x07, 0, .i m => some (.sad h o m)
  | 0x08, 0, .i m => some (.andI h o m)
  | 0x09, 0, .i m => some (.orI h o m)
  | 0x0A, 0, .i m => some (.xorI h o m)
  | 0x0B, 0, .i m => some (.andn h o m)
  | 0x0C, 0, .i m => some (.lop3 h o m)
  | 0x0D, 0, .i m => some (.shl h o m)
  | 0x0E, 0, .i m => some (.shr h o m)
  | 0x0F, 0, .i m => some (.sar h o m)
  | 0x10, 0, .i m => some (.rot h o m)
  | 0x11, 0, .i m => some (.shf h o m)
  | 0x12, 0, .i m => some (.bfx h o m)
  | 0x13, 0, .i m => some (.bfi h o m)
  | 0x14, 0, .i m => some (.bcntPop h o m)
  | 0x14, 1, .i m => some (.bcntClz h o m)
  | 0x14, 2, .i m => some (.bcntCtz h o m)
  | 0x14, 3, .i m => some (.bcntBrev h o m)
  | 0x14, 4, .i m => some (.bcntIsp h o m)
  | 0x15, 0, .i m => some (.perm h o m)
  | 0x16, 0, .i m => some (.cmp h o m)
  | 0x17, 0, .i m => some (.sel h o m)
  | 0x18, 0, .i m => some (.mov h o m)
  | 0x19, 0, .i m => some (.ldi h o m)
  | 0x1A, 0, .i m => some (.add64 h o m)
  | 0x1A, 1, .i m => some (.add64Sub h o m)
  | 0x1A, 2, .i m => some (.add64Neg h o m)
  | 0x1B, 0, .i m => some (.mul64 h o m)
  | 0x1C, 0, .i m => some (.sh64Shl h o m)
  | 0x1C, 1, .i m => some (.sh64Shr h o m)
  | 0x1C, 2, .i m => some (.sh64Sar h o m)
  | 0x1D, 0, .i m => some (.cmp64 h o m)
  | 0x1E, 0, .i m => some (.dp4 h o m)
  | 0x1E, 1, .i m => some (.dp4Dp2 h o m)
  | 0x1F, 0, .i m => some (.clamp h o m)
  | 0x20, 0, .f m => some (.fadd h o m)
  | 0x21, 0, .f m => some (.fmul h o m)
  | 0x22, 0, .f m => some (.ffma h o m)
  | 0x23, 0, .f m => some (.fminMin h o m)
  | 0x23, 1, .f m => some (.fminMax h o m)
  | 0x23, 2, .f m => some (.fminMinnum h o m)
  | 0x23, 3, .f m => some (.fminMaxnum h o m)
  | 0x24, 0, .i m => some (.fcmp h o m)
  | 0x25, 0, .f m => some (.frnd h o m)
  | 0x26, 0, .t m => some (.fcvt h o m)
  | 0x27, 0, .f m => some (.fclass h o m)
  | 0x28, 0, .f m => some (.fscale h o m)
  | 0x29, 0, .f m => some (.fxtr h o m)
  | 0x2A, 0, .f m => some (.hadd2 h o m)
  | 0x2B, 0, .f m => some (.hmul2 h o m)
  | 0x2C, 0, .f m => some (.hfma2 h o m)
  | 0x2D, 0, .f m => some (.hmin2 h o m)
  | 0x2E, 0, .f m => some (.dadd h o m)
  | 0x2F, 0, .f m => some (.dmul h o m)
  | 0x30, 0, .f m => some (.dfma h o m)
  | 0x31, 0, .f m => some (.dmin h o m)
  | 0x32, 0, .i m => some (.dcmp h o m)
  | 0x33, 0, .t m => some (.dcvt h o m)
  | 0x34, 0, .f m => some (.drnd h o m)
  | 0x35, 0, .f m => some (.sfuRcp h o m)
  | 0x35, 1, .f m => some (.sfuRsq h o m)
  | 0x35, 2, .f m => some (.sfuSqrt h o m)
  | 0x35, 3, .f m => some (.sfuEx2 h o m)
  | 0x35, 4, .f m => some (.sfuLg2 h o m)
  | 0x35, 5, .f m => some (.sfuSinpi h o m)
  | 0x35, 6, .f m => some (.sfuCospi h o m)
  | 0x35, 7, .f m => some (.sfuTanh h o m)
  | 0x40, 0, .i m => some (.shflLane h o m)
  | 0x40, 1, .i m => some (.shflBack h o m)
  | 0x40, 2, .i m => some (.shflFwd h o m)
  | 0x40, 3, .i m => some (.shflFlip h o m)
  | 0x41, 0, .i m => some (.voteAll h o m)
  | 0x41, 1, .i m => some (.voteAny h o m)
  | 0x41, 2, .i m => some (.voteBallot h o m)
  | 0x41, 3, .i m => some (.voteUni h o m)
  | 0x42, 0, .i m => some (.matchAny h o m)
  | 0x42, 1, .i m => some (.matchAll h o m)
  | 0x43, 0, .i m => some (.reduxAdd h o m)
  | 0x43, 1, .i m => some (.reduxMin h o m)
  | 0x43, 2, .i m => some (.reduxMax h o m)
  | 0x43, 3, .i m => some (.reduxAnd h o m)
  | 0x43, 4, .i m => some (.reduxOr h o m)
  | 0x43, 5, .i m => some (.reduxXor h o m)
  | 0x44, 0, .i m => some (.scanInclAdd h o m)
  | 0x44, 1, .i m => some (.scanInclMin h o m)
  | 0x44, 2, .i m => some (.scanInclMax h o m)
  | 0x44, 3, .i m => some (.scanExclAdd h o m)
  | 0x44, 4, .i m => some (.scanExclMin h o m)
  | 0x44, 5, .i m => some (.scanExclMax h o m)
  | 0x45, 0, .n => some (.seg h o)
  | 0x46, 0, .n => some (.rdlLane h o)
  | 0x46, 1, .n => some (.rdlActive h o)
  | 0x46, 2, .n => some (.rdlFibre h o)
  | 0x46, 3, .n => some (.rdlSegidx h o)
  | 0x50, 0, .m m => some (.ld h o m)
  | 0x51, 0, .m m => some (.st h o m)
  | 0x52, 0, .m m => some (.atomAdd h o m)
  | 0x52, 1, .m m => some (.atomMin h o m)
  | 0x52, 2, .m m => some (.atomMax h o m)
  | 0x52, 3, .m m => some (.atomAnd h o m)
  | 0x52, 4, .m m => some (.atomOr h o m)
  | 0x52, 5, .m m => some (.atomXor h o m)
  | 0x52, 6, .m m => some (.atomXchg h o m)
  | 0x52, 7, .m m => some (.atomCas h o m)
  | 0x52, 8, .m m => some (.atomIncw h o m)
  | 0x52, 9, .m m => some (.atomDecw h o m)
  | 0x53, 0, .m m => some (.red h o m)
  | 0x54, 0, .m m => some (.fence h o m)
  | 0x55, 0, .m m => some (.inv h o m)
  | 0x56, 0, .m m => some (.wb h o m)
  | 0x57, 0, .m m => some (.pref h o m)
  | 0x58, 0, .m m => some (.ldp h o m)
  | 0x59, 0, .m m => some (.stp h o m)
  | 0x5A, 0, .m m => some (.lds h o m)
  | 0x5B, 0, .m m => some (.sts h o m)
  | 0x5C, 0, .m m => some (.atoms h o m)
  | 0x5D, 0, .c m => some (.smp h o m)
  | 0x5E, 0, .c m => some (.fpost h o m)
  | 0x5F, 0, .c m => some (.tmeth h o m)
  | 0x60, 0, .c m => some (.br h o m)
  | 0x61, 0, .c m => some (.jmp h o m)
  | 0x62, 0, .c m => some (.call h o m)
  | 0x63, 0, .c m => some (.calli h o m)
  | 0x64, 0, .c m => some (.ret h o m)
  | 0x65, 0, .c m => some (.unwind h o m)
  | 0x66, 0, .c m => some (.loop h o m)
  | 0x67, 0, .c m => some (.fork h o m)
  | 0x68, 0, .n => some (.endFibre h o)
  | 0x69, 0, .n => some (.join h o)
  | 0x6A, 0, .n => some (.yieldI h o)
  | 0x6B, 0, .c m => some (.bar h o m)
  | 0x6C, 0, .c m => some (.mbarInit h o m)
  | 0x6C, 1, .c m => some (.mbarArrive h o m)
  | 0x6C, 2, .c m => some (.mbarExpect h o m)
  | 0x6C, 3, .c m => some (.mbarWait h o m)
  | 0x6C, 4, .c m => some (.mbarTest h o m)
  | 0x6D, 0, .c m => some (.waitge h o m)
  | 0x6E, 0, .c m => some (.trap h o m)
  | 0x6E, 1, .c m => some (.trapBkpt h o m)
  | 0x6F, 0, .n => some (.exit h o)
  | 0x70, 0, .c m => some (.cpyPlain h o m)
  | 0x70, 1, .c m => some (.cpyPlane h o m)
  | 0x70, 2, .c m => some (.cpyGather h o m)
  | 0x70, 3, .c m => some (.cpyMcast h o m)
  | 0x71, 0, .c m => some (.cwaitAll h o m)
  | 0x71, 1, .c m => some (.cwaitAny h o m)
  | 0x71, 2, .c m => some (.cwaitFirst h o m)
  | 0x72, 0, .c m => some (.cbatchClose h o m)
  | 0x72, 1, .c m => some (.cbatchWait h o m)
  | 0x73, 0, .c m => some (.post h o m)
  | 0x74, 0, .c m => some (.ttask h o m)
  | 0x75, 0, .c m => some (.ttwait h o m)
  | 0x76, 0, .c m => some (.nmcRowcp h o m)
  | 0x76, 1, .c m => some (.nmcRowzero h o m)
  | 0x76, 2, .c m => some (.nmcRowq h o m)
  | 0x76, 3, .c m => some (.nmcNmlaunch h o m)
  | 0x77, 0, .n => some (.nfence h o)
  | 0x78, 0, .c m => some (.launch h o m)
  | 0x79, 0, .c m => some (.spawn h o m)
  | 0x7A, 0, .c m => some (if m = 0 then .evtSet h o m else .evtClear h o m)
  | 0x7A, 1, .c m => some (.evtTest h o m)
  | 0x7B, 0, .c m => some (.ppost h o m)
  | 0x7C, 0, .c m => some (.sregRdsr h o m)
  | 0x7C, 1, .c m => some (.sregWrsr h o m)
  | 0x7D, 0, .c m => some (.sysSvc h o m)
  | 0x7D, 1, .c m => some (.sysRte h o m)
  | 0x7D, 2, .c m => some (.sysTinv h o m)
  | 0x7D, 3, .c m => some (.sysRekey h o m)
  | 0x7D, 4, .c m =>
    some (if m = 0 then .sysKslotInstall h o m else if m = 1 then .sysKslotStage h o m
      else if m = 2 then .sysKslotErase h o m else .sysKslotQuery h o m)
  | 0x7D, 5, .c m => some (.sysSlice h o m)
  | _, _, _ => none

/-- The length in words that the first word's bits [1:0] give (R158). -/
def lengthOf (w0 : Nat) : Nat :=
  match w0 % 4 with
  | 0 => 1
  | 1 => 3
  | 2 => 3
  | _ => 5

/-- The type code (R137). -/
def Ty.code : Ty → Nat
  | .i8 => 0 | .i16 => 1 | .i32 => 2 | .i64 => 3 | .n8 => 4 | .n16 => 5 | .n32 => 6 | .n64 => 7
  | .f16 => 8 | .bf16 => 9 | .f32 => 10 | .f64 => 11 | .e4m3 => 12 | .e5m2 => 13 | .e2m1 => 14 | .e8m0 => 15

/-- The type of a code (R137). -/
def Ty.ofCode : Nat → Ty
  | 0 => .i8 | 1 => .i16 | 2 => .i32 | 3 => .i64 | 4 => .n8 | 5 => .n16 | 6 => .n32 | 7 => .n64
  | 8 => .f16 | 9 => .bf16 | 10 => .f32 | 11 => .f64 | 12 => .e4m3 | 13 => .e5m2 | 14 => .e2m1 | _ => .e8m0

/-- The rounding codes (R141): 0 rn, 1 rz, 2 ru, 3 rd; others are reserved. -/
def Rnd.code : Rnd → Nat
  | .rn => 0 | .rz => 1 | .ru => 2 | .rd => 3

def Rnd.ofCode : Nat → Option Rnd
  | 0 => some .rn | 1 => some .rz | 2 => some .ru | 3 => some .rd | _ => none

/-- The order codes (R76). -/
def Order.code : Order → Nat
  | .rlx => 0 | .acq => 1 | .rel => 2 | .ar => 3

def Order.ofCode : Nat → Order
  | 0 => .rlx | 1 => .acq | 2 => .rel | _ => .ar

/-- The scope codes (R73); 7 is reserved. -/
def Scope.code : Scope → Nat
  | .fib => 0 | .spd => 1 | .wg => 2 | .cl => 3 | .die => 4 | .pkg => 5 | .sys => 6

def Scope.ofCode : Nat → Option Scope
  | 0 => some .fib | 1 => some .spd | 2 => some .wg | 3 => some .cl | 4 => some .die | 5 => some .pkg | 6 => some .sys
  | _ => none

/-- The size codes (R165); others are reserved. -/
def Size.code : Size → Nat
  | .n8 => 0 | .n16 => 1 | .b32 => 2 | .b64 => 3 | .b128 => 4 | .i8 => 8 | .i16 => 9

def Size.ofCode : Nat → Option Size
  | 0 => some .n8 | 1 => some .n16 | 2 => some .b32 | 3 => some .b64 | 4 => some .b128 | 8 => some .i8 | 9 => some .i16
  | _ => none

/-- The majors of the pair operations (R173). -/
def PairOp.code : PairOp → Nat
  | .add => 0x01 | .sub => 0x02 | .mul => 0x03 | .mad => 0x04 | .min => 0x05 | .max => 0x06 | .sad => 0x07
  | .andO => 0x08 | .orO => 0x09 | .xorO => 0x0A | .andn => 0x0B | .shl => 0x0D | .shr => 0x0E | .sar => 0x0F
  | .rot => 0x10 | .perm => 0x15 | .mov => 0x18 | .dp4 => 0x1E | .fadd => 0x20 | .fmul => 0x21 | .ffma => 0x22
  | .fmin => 0x23 | .hadd2 => 0x2A | .hmul2 => 0x2B | .hfma2 => 0x2C | .hmin2 => 0x2D

def PairOp.ofCode : Nat → Option PairOp
  | 0x01 => some .add | 0x02 => some .sub | 0x03 => some .mul | 0x04 => some .mad | 0x05 => some .min | 0x06 => some .max
  | 0x07 => some .sad | 0x08 => some .andO | 0x09 => some .orO | 0x0A => some .xorO | 0x0B => some .andn
  | 0x0D => some .shl | 0x0E => some .shr | 0x0F => some .sar | 0x10 => some .rot | 0x15 => some .perm
  | 0x18 => some .mov | 0x1E => some .dp4 | 0x20 => some .fadd | 0x21 => some .fmul | 0x22 => some .ffma
  | 0x23 => some .fmin | 0x2A => some .hadd2 | 0x2B => some .hmul2 | 0x2C => some .hfma2 | 0x2D => some .hmin2
  | _ => none

/-- An operand field (R163, R168). The checks of amounts and registers are WellFormed's. -/
def srcOfField (v : Nat) : Option Src :=
  let reg := BitVec.ofNat 8 (nbits v 7 0)
  let amt := BitVec.ofNat 5 (nbits v 15 11)
  match nbits v 10 8 with
  | 0 => if amt = 0 then some (.reg reg .ident) else none
  | 1 => some (.reg reg (.rot amt))
  | 2 => some (.reg reg (.bc amt))
  | 3 => some (.reg reg (.bfly amt))
  | 4 => some (.reg reg (.mir amt))
  | 5 => some (.reg reg (.srot amt))
  | 7 => if reg ≠ 0 then none else if amt = 0 then some .lit else if amt = 1 then some .litHi else none
  | _ => none

/-- The operand field of a source; an immediate of the base form has none. -/
def Src.field : Src → Nat
  | .reg r .ident => r.toNat
  | .reg r (.rot k) => r.toNat + 256 + 2048 * k.toNat
  | .reg r (.bc k) => r.toNat + 512 + 2048 * k.toNat
  | .reg r (.bfly k) => r.toNat + 768 + 2048 * k.toNat
  | .reg r (.mir k) => r.toNat + 1024 + 2048 * k.toNat
  | .reg r (.srot k) => r.toNat + 1280 + 2048 * k.toNat
  | .lit => 1792
  | .litHi => 1792 + 2048
  | _ => 0

/-- The `mods` field and operand c of a major's layout (R164, R165). -/
def modsOfFields (l : Layout) (mods c : Nat) : Option Mods :=
  match l with
  | .i => some (.i ⟨Ty.ofCode (nbits mods 15 12), nbit mods 11, BitVec.ofNat 11 mods⟩)
  | .f =>
    match Rnd.ofCode (nbits mods 15 13) with
    | none => none
    | some r =>
      if nbit mods 0 then none
      else some (.f ⟨r, nbit mods 12, nbit mods 11, BitVec.ofNat 2 (nbits mods 10 9), BitVec.ofNat 2 (nbits mods 8 7),
        BitVec.ofNat 2 (nbits mods 6 5), Ty.ofCode (nbits mods 4 1)⟩)
  | .t =>
    match Rnd.ofCode (nbits mods 15 13) with
    | none => none
    | some r =>
      if mods % 8 ≠ 0 then none
      else some (.t ⟨r, nbit mods 12, nbit mods 11, Ty.ofCode (nbits mods 10 7), Ty.ofCode (nbits mods 6 3)⟩)
  | .m =>
    match Scope.ofCode (nbits mods 13 11), Size.ofCode (nbits c 11 8) with
    | some sc, some sz =>
      if nbits c 15 12 ≠ 0 then none
      else some (.m ⟨Order.ofCode (nbits mods 15 14), sc, BitVec.ofNat 2 (nbits mods 10 9), BitVec.ofNat 9 mods, sz,
        BitVec.ofNat 8 c⟩)
    | _, _ => none
  | .c => some (.c (BitVec.ofNat 16 mods))
  | .n => if mods = 0 then some .n else none

/-- The `mods` field of modifiers (R164). -/
def Mods.field : Mods → Nat
  | .i k => k.x.toNat + 2048 * k.sat.toNat + 4096 * k.ty.code
  | .f k => 2 * k.ty.code + 32 * k.nc.toNat + 128 * k.nb.toNat + 512 * k.na.toNat + 2048 * k.ftz.toNat +
      4096 * k.sat.toNat + 8192 * k.rnd.code
  | .t k => 8 * k.stype.code + 128 * k.dtype.code + 2048 * k.ftz.toNat + 4096 * k.sat.toNat + 8192 * k.rnd.code
  | .m a => a.x.toNat + 512 * a.cache.toNat + 2048 * a.scope.code + 16384 * a.order.code
  | .c k => k.toNat
  | .n => 0

/-- Operand c of a word: the access attributes in layout M (R165), else the source. -/
def cField (m : Mods) (c : Src) : Nat :=
  match m with
  | .m a => a.creg.toNat + 256 * a.sz.code
  | _ => c.field

/-- A base-form register. -/
def baseReg (n : Nat) : Src := .reg (BitVec.ofNat 8 n) .ident

/-- The operands and minor of a base word (R160, R161); none when the fields break the Base code. -/
def baseFields (u : BaseUse) (lit : Bool) (w : Nat) : Option (Nat × Opnds) :=
  let m := nbit w 13
  let d := nbits w 19 14
  let a := nbits w 25 20
  let b := nbits w 31 26
  let d8 := BitVec.ofNat 8 d
  if lit && (m || b != 0) then none
  else match u with
  | .zero => if m || d != 0 || a != 0 || b != 0 then none else some (0, ⟨0, .zero, .zero, .zero⟩)
  | .r => if m then none else some (0, ⟨d8, baseReg a, if lit then .lit else baseReg b, .zero⟩)
  | .i6 => some (0, ⟨d8, baseReg a, if lit then .lit else if m then .imm6 (BitVec.ofNat 6 b) else baseReg b, .zero⟩)
  | .cd => if m then none else some (0, ⟨d8, baseReg a, if lit then .lit else baseReg b, baseReg d⟩)
  | .s1 => if m || b != 0 then none else some (0, ⟨d8, baseReg a, .zero, .zero⟩)
  | .bm => if m then none else some (b, ⟨d8, baseReg a, .zero, .zero⟩)
  | .imm12 =>
    let k := BitVec.ofNat 12 (nbits w 31 20)
    some (0, ⟨d8, if m then .imm12hi k else .imm12 k, .zero, .zero⟩)
  | .off18 => if m then none else some (0, ⟨0, .off18 (BitVec.ofNat 18 (nbits w 31 14)), .zero, .zero⟩)
  | .absent => none

/-- The fields [31:13] of a base word, in units of 2^13. -/
def baseHigh (minor : Nat) (u : BaseUse) (o : Opnds) : Nat :=
  let reg : Src → Nat := fun s => match s with
    | .reg r _ => r.toNat
    | _ => 0
  match u with
  | .imm12 => match o.a with
    | .imm12hi k => 1 + 2 * o.d.toNat + 128 * k.toNat
    | .imm12 k => 2 * o.d.toNat + 128 * k.toNat
    | _ => 0
  | .off18 => match o.a with
    | .off18 k => 2 * k.toNat
    | _ => 0
  | .bm => 2 * o.d.toNat + 128 * reg o.a + 8192 * minor
  | _ => match o.b with
    | .imm6 k => 1 + 2 * o.d.toNat + 128 * reg o.a + 8192 * k.toNat
    | b => 2 * o.d.toNat + 128 * reg o.a + 8192 * reg b

/-- The guard field of the base form (R159): code 0 to 3 not negated, 4 to 7 negated. -/
def guardOfBase (g : Nat) : Guard := ⟨BitVec.ofNat 5 (g % 4), nbit g 2⟩

/-- The guard field of the extended form (R167). -/
def guardOfExt (g : Nat) : Guard := ⟨BitVec.ofNat 5 g, nbit g 5⟩

/-- A checked instruction, or the name of what refuses it. -/
def checked (i : Option Instr) : Except DecodeError Instr :=
  match i with
  | none => .error .noMajor
  | some i => if i.wf then .ok i else .error .illFormed

/-- A base word, with the literal of an L = 10 word. -/
def decodeBase (w : Nat) (lit : Option Nat) : Except DecodeError Instr :=
  let major := nbits w 12 6
  match baseFields (baseUse major) lit.isSome w with
  | none => .error .noForm
  | some (minor, o) =>
    let h : Hdr := ⟨if lit.isSome then .baseLit else .base, guardOfBase (nbits w 5 3), nbit w 2, BitVec.ofNat 64 (lit.getD 0)⟩
    checked (View.toInstr ⟨major, minor, h, o, defMods major⟩)

/-- A pair word (R171). -/
def decodePair (w0 w1 w2 : Nat) : Except DecodeError Instr :=
  if nbit w0 31 || nbit w1 31 then .error .reserved
  else match PairOp.ofCode (nbits w0 22 16), PairOp.ofCode (nbits w1 30 24) with
  | some oa, some ob =>
    let r : Nat → BitVec 8 := BitVec.ofNat 8
    let h : Hdr := ⟨.ext, guardOfExt (nbits w0 8 3), nbit w0 2, 0⟩
    checked (some (.pair h ⟨oa, r (nbits w0 30 23), r (nbits w1 7 0), r (nbits w1 15 8), r (nbits w1 23 16)⟩
      ⟨ob, r (nbits w2 7 0), r (nbits w2 15 8), r (nbits w2 23 16), r (nbits w2 31 24)⟩))
  | _, _ => .error .illFormed

/-- An extended word (R162), with the literal of an L = 11 word. -/
def decodeExt (w0 w1 w2 : Nat) (lit : Option Nat) : Except DecodeError Instr :=
  let major := nbits w0 15 9
  if major = 0x7F then
    if lit.isSome then .error .noForm else decodePair w0 w1 w2
  else
    let l := layoutOf major
    let cf := w2 % 65536
    match srcOfField (w1 % 65536), srcOfField (w1 / 65536), (if l = .m then some Src.zero else srcOfField cf),
        modsOfFields l (w2 / 65536) cf with
    | some a, some b, some c, some ms =>
      let h : Hdr := ⟨if lit.isSome then .extLit else .ext, guardOfExt (nbits w0 8 3), nbit w0 2, BitVec.ofNat 64 (lit.getD 0)⟩
      checked (View.toInstr ⟨major, nbits w0 31 24, h, ⟨BitVec.ofNat 8 (nbits w0 23 16), a, b, c⟩, ms⟩)
    | _, _, _, _ => .error .reserved

/-- The instruction of a list of 32-bit words that starts with it, and the number of words it takes. -/
def decodeWords (ws : List Nat) : Except DecodeError (Instr × Nat) :=
  match ws with
  | [] => .error .truncated
  | w0 :: r =>
    match w0 % 4, r with
    | 0, _ => (decodeBase w0 none).map (·, 1)
    | 1, w1 :: w2 :: _ => (decodeExt w0 w1 w2 none).map (·, 3)
    | 2, l0 :: l1 :: _ => (decodeBase w0 (some (l0 + 2 ^ 32 * l1))).map (·, 3)
    | 3, w1 :: w2 :: l0 :: l1 :: _ => (decodeExt w0 w1 w2 (some (l0 + 2 ^ 32 * l1))).map (·, 5)
    | _, _ => .error .truncated

/-- Bytes as little-endian 32-bit words; a last part of a word is dropped. -/
def wordsOfBytes : List Byte → List Nat
  | b0 :: b1 :: b2 :: b3 :: r => ofBytes [b0, b1, b2, b3] :: wordsOfBytes r
  | _ => []

/-- Decode the instruction that a list of bytes starts with; the rest of the list follows it. Total: every list of bytes
gives an instruction or a named refusal. -/
def decode (bs : List Byte) : Except DecodeError (Instr × List Byte) :=
  (decodeWords (wordsOfBytes (bs.take 20))).map fun p => (p.1, bs.drop (4 * p.2))

/-- The words of a pair (R171). -/
def encodePair (h : Hdr) (sa sb : Slot) : List Nat :=
  [1 + 4 * h.s.toNat + 8 * (h.guard.idx.toNat + 32 * h.guard.neg.toNat) + 512 * 0x7F + 65536 * sa.op.code +
      2 ^ 23 * sa.d.toNat,
    sa.a.toNat + 256 * sa.b.toNat + 65536 * sa.c.toNat + 2 ^ 24 * sb.op.code,
    sb.d.toNat + 256 * sb.a.toNat + 65536 * sb.b.toNat + 2 ^ 24 * sb.c.toNat]

/-- The literal's two words, low word first (R158). -/
def litWords (lit : BitVec 64) : List Nat := [lit.toNat % 2 ^ 32, lit.toNat / 2 ^ 32]

/-- The first word of a base form (R159), with its length code. -/
def baseWord (v : View) (len : Nat) : Nat :=
  len + 4 * v.h.s.toNat + 8 * (v.h.guard.idx.toNat + 4 * v.h.guard.neg.toNat) + 64 * v.major +
    8192 * baseHigh v.minor (baseUse v.major) v.o

/-- The three words of an extended form (R162), with its length code. -/
def extWords (v : View) (len : Nat) : List Nat :=
  [len + 4 * v.h.s.toNat + 8 * (v.h.guard.idx.toNat + 32 * v.h.guard.neg.toNat) + 512 * v.major + 65536 * v.o.d.toNat +
      2 ^ 24 * v.minor,
    v.o.a.field + 65536 * v.o.b.field,
    cField v.mods v.o.c + 65536 * v.mods.field]

/-- The words of the fields of an instruction. -/
def View.encode (v : View) : List Nat :=
  match v.h.form with
  | .base => [baseWord v 0]
  | .ext => extWords v 1
  | .baseLit => baseWord v 2 :: litWords v.h.lit
  | .extLit => extWords v 3 ++ litWords v.h.lit

/-- The words of a well-formed instruction; an event has none. -/
def encodeWords (i : Instr) : List Nat :=
  match i with
  | .pair h sa sb => encodePair h sa sb
  | i => match i.view with
    | some v => v.encode
    | none => []

/-- The bytes of a well-formed instruction, each word little-endian, the first at the lowest address (R4, R158). -/
def encode (i : Instr) : List Byte := (encodeWords i).flatMap (toBytes 4)

/-- The instruction decoded from bits numbered as spec/opcode_table.json numbers them: bit 0 is the least significant bit
of the first word; every bit above `nbits` is 0. -/
def decodeTableWord (nbits w : Nat) : Option Instr :=
  match decode (toBytes 20 (w % 2 ^ nbits)) with
  | .ok (i, _) => some i
  | .error _ => none

end Sys2Proof
end

