-- ==== Sys2Proof/Machine/Float.lean ====
section
/-!
DEFINITION. The floating-point formats, rounding and exact arithmetic of spec/07_numbers.md (R137 to R146).
-/

namespace Sys2Proof.Machine

/-- What the greatest exponent field stands for (R139). -/
inductive EmaxUse where
  | ieee | nanOnly | normal
  deriving DecidableEq, Repr, Inhabited

/-- A format: exponent bits, fraction bits and the use of the greatest exponent (R139). -/
structure Fmt where
  eb  : Nat
  fb  : Nat
  use : EmaxUse
  deriving DecidableEq, Repr, Inhabited

def Fmt.f64 : Fmt := ⟨11, 52, .ieee⟩
def Fmt.f32 : Fmt := ⟨8, 23, .ieee⟩
def Fmt.f16 : Fmt := ⟨5, 10, .ieee⟩
def Fmt.bf16 : Fmt := ⟨8, 7, .ieee⟩
def Fmt.e5m2 : Fmt := ⟨5, 2, .ieee⟩
def Fmt.e4m3 : Fmt := ⟨4, 3, .nanOnly⟩
def Fmt.e2m1 : Fmt := ⟨2, 1, .normal⟩

/-- The bias of a format (R139). -/
def Fmt.bias (f : Fmt) : Int := 2 ^ (f.eb - 1) - 1

/-- The width of a format. -/
def Fmt.width (f : Fmt) : Nat := f.eb + f.fb + 1

/-- The encoding of the greatest finite magnitude (R139). -/
def Fmt.maxBits (f : Fmt) : Nat :=
  match f.use with
  | .ieee => (2 ^ f.eb - 1) * 2 ^ f.fb - 1
  | .nanOnly => 2 ^ (f.eb + f.fb) - 2
  | .normal => 2 ^ (f.eb + f.fb) - 1

/-- The canonical NaN (R139, R145); e2m1 has none and takes +0. -/
def Fmt.nanBits (f : Fmt) : Nat :=
  match f.use with
  | .ieee => (2 ^ f.eb - 1) * 2 ^ f.fb + 2 ^ (f.fb - 1)
  | .nanOnly => 2 ^ (f.eb + f.fb) - 1
  | .normal => 0

/-- A sign placed above a magnitude's encoding. -/
def Fmt.signed (f : Fmt) (neg : Bool) (bits : Nat) : Nat := (if neg then 2 ^ (f.eb + f.fb) else 0) + bits

/-- The encoding of infinity, where the format has one (R139). -/
def Fmt.infBits (f : Fmt) : Nat := (2 ^ f.eb - 1) * 2 ^ f.fb

/-- A decoded value (R139): `fin neg m e` is (-1)^neg times m times 2^e. -/
inductive FVal where
  | nan (signalling : Bool)
  | inf (neg : Bool)
  | fin (neg : Bool) (m : Nat) (e : Int)
  deriving DecidableEq, Repr, Inhabited

/-- The value of an encoding (R139). -/
def Fmt.decode (f : Fmt) (x : Nat) : FVal :=
  let neg := nbit x (f.eb + f.fb)
  let ex := nbits x (f.eb + f.fb - 1) f.fb
  let fr := x % 2 ^ f.fb
  if f.use = .ieee ∧ ex = 2 ^ f.eb - 1 then
    if fr = 0 then .inf neg else .nan (decide (fr < 2 ^ (f.fb - 1)))
  else if f.use = .nanOnly ∧ ex = 2 ^ f.eb - 1 ∧ fr = 2 ^ f.fb - 1 then .nan false
  else if ex = 0 then .fin neg fr (1 - f.bias - f.fb)
  else .fin neg (fr + 2 ^ f.fb) (ex - f.bias - f.fb)

/-- Whether an encoding is subnormal (R144). -/
def Fmt.isSubnormal (f : Fmt) (x : Nat) : Bool :=
  decide (nbits x (f.eb + f.fb - 1) f.fb = 0) && decide (x % 2 ^ f.fb ≠ 0)

/-- The five sticky flags as bits NV, DZ, OF, UF, NX from bit 0 up (R143: v1 bits 27 to 31). -/
abbrev Flags := BitVec 5

def Flags.nv : Flags := 1
def Flags.dz : Flags := 2
def Flags.of : Flags := 4
def Flags.uf : Flags := 8
def Flags.nx : Flags := 16

/-- An exact real to be rounded: (m + δ) times 2^e, with δ strictly between 0 and 1 when `st` holds, else 0. -/
structure Exact where
  neg : Bool
  m   : Nat
  e   : Int
  st  : Bool
  deriving DecidableEq, Repr, Inhabited

/-- x shifted left by an integer amount that is not negative. -/
def shlInt (x : Nat) (k : Int) : Nat := x <<< k.toNat

/-- An exact magnitude rounded once to a multiple of 2^q, in units of 2^q, and whether that was inexact (R141). -/
def Exact.roundAt (x : Exact) (rnd : Rnd) (q : Int) : Nat × Bool :=
  if q ≤ x.e then (shlInt x.m (x.e - q), x.st)
  else
    let k := (q - x.e).toNat
    let n := x.m >>> k
    let r := x.m % 2 ^ k
    let inexact := decide (r ≠ 0) || x.st
    let half := 2 ^ (k - 1)
    let above := decide (half < r) || (decide (r = half) && x.st)
    let tie := decide (r = half) && !x.st
    let up := match rnd with
      | .rn => above || (tie && decide (n % 2 = 1))
      | .rz => false
      | .ru => inexact && !x.neg
      | .rd => inexact && x.neg
    (if up then n + 1 else n, inexact)

/-- The encoding of n times 2^q, which is finite in the format and normal (2^fb ≤ n ≤ 2^(fb+1)). -/
def Fmt.encodeNormal (f : Fmt) (n : Nat) (q : Int) : Nat :=
  let (n, q) := if n = 2 ^ (f.fb + 1) then (2 ^ f.fb, q + 1) else (n, q)
  (q + f.fb + f.bias).toNat * 2 ^ f.fb + (n - 2 ^ f.fb)

/-- What an overflow becomes (R142 step 2). -/
def Fmt.overflow (f : Fmt) (neg : Bool) (rnd : Rnd) (sat : Bool) : Nat :=
  let toMax := sat || match rnd with
    | .rz => true
    | .rd => !neg
    | .ru => neg
    | .rn => false
  if toMax then f.signed neg f.maxBits
  else match f.use with
    | .ieee => f.signed neg f.infBits
    | .nanOnly => f.nanBits
    | .normal => f.signed neg f.maxBits

/-- Round(x, fmt, rnd, sat) of R142, with `ftz` on the result (R144), and the flags raised (R143). -/
def Fmt.round (f : Fmt) (rnd : Rnd) (sat ftz : Bool) (x : Exact) : Nat × Flags :=
  if x.m = 0 then (f.signed x.neg 0, 0)
  else
    let top := x.e + x.m.log2
    let q1 := top - f.fb
    let r1 := x.roundAt rnd q1
    let top1 := if r1.1 = 2 ^ (f.fb + 1) then top + 1 else top
    let emin := 1 - f.bias
    if top1 < emin then
      let r2 := x.roundAt rnd (emin - f.fb)
      if ftz && decide (r2.1 ≠ 0) && decide (r2.1 < 2 ^ f.fb) then (f.signed x.neg 0, Flags.uf ||| Flags.nx)
      else (f.signed x.neg r2.1, if r2.2 then Flags.uf ||| Flags.nx else 0)
    else
      let bits := f.encodeNormal r1.1 q1
      if f.maxBits < bits then (f.overflow x.neg rnd sat, Flags.of ||| Flags.nx)
      else (f.signed x.neg bits, if r1.2 then Flags.nx else 0)

/-- A finite value as an exact real. -/
def exactOf (neg : Bool) (m : Nat) (e : Int) : Exact := ⟨neg, m, e, false⟩

/-- The exact sum of two finite values; a zero sum takes its sign by R142 step 4. -/
def exactAdd (rnd : Rnd) (a b : Exact) : Exact :=
  if a.m = 0 ∧ b.m = 0 then ⟨if a.neg = b.neg then a.neg else decide (rnd = .rd), 0, 0, false⟩
  else
    let e := min a.e b.e
    let va : Int := (if a.neg then -1 else 1) * shlInt a.m (a.e - e)
    let vb : Int := (if b.neg then -1 else 1) * shlInt b.m (b.e - e)
    let v := va + vb
    if v = 0 then ⟨decide (rnd = .rd), 0, 0, false⟩ else ⟨decide (v < 0), v.natAbs, e, false⟩

/-- The exact product of two finite values. -/
def exactMul (a b : Exact) : Exact := ⟨a.neg != b.neg, a.m * b.m, a.e + b.e, false⟩

/-- The quotient of two finite values, b not zero, to 80 bits and a sticky bit. -/
def exactDiv (a b : Exact) : Exact :=
  let k := 80 + b.m.log2
  let n := a.m <<< k
  ⟨a.neg != b.neg, n / b.m, a.e - b.e - k, decide (n % b.m ≠ 0)⟩

/-- The integer square root, bit by bit from bit n down. -/
def isqrtFrom : Nat → Nat → Nat → Nat
  | 0, x, acc => if (acc + 1) * (acc + 1) ≤ x then acc + 1 else acc
  | n + 1, x, acc =>
    let t := acc + 2 ^ (n + 1)
    isqrtFrom n x (if t * t ≤ x then t else acc)

/-- The integer square root. -/
def isqrt (x : Nat) : Nat := isqrtFrom (x.log2 / 2 + 1) x 0

/-- The square root of a value that is not negative, to at least 60 bits and a sticky bit. -/
def exactSqrt (a : Exact) : Exact :=
  let odd := decide (a.e % 2 ≠ 0)
  let m := (if odd then a.m * 2 else a.m) <<< 120
  let e := (if odd then a.e - 1 else a.e) - 120
  let r := isqrt m
  ⟨false, r, e / 2, decide (r * r ≠ m)⟩

/-- Whether a finite value is below another, both as exact reals. -/
def exactLt (a b : Exact) : Bool :=
  let e := min a.e b.e
  let va : Int := (if a.neg then -1 else 1) * shlInt a.m (a.e - e)
  let vb : Int := (if b.neg then -1 else 1) * shlInt b.m (b.e - e)
  decide (va < vb)

/-- Whether two finite values are equal, both zeros alike. -/
def exactEq (a b : Exact) : Bool := !exactLt a b && !exactLt b a

/-- An exact real rounded to an integer by a rounding mode, and whether that was inexact (R146, R248). -/
def Exact.toInt (x : Exact) (rnd : Rnd) : Int × Bool :=
  let r := x.roundAt rnd 0
  (if x.neg then -(r.1 : Int) else r.1, r.2)

/-- The floating-point format of a type code, where it is one of R139. -/
def Ty.fmt : Ty → Option Fmt
  | .f16 => some .f16
  | .bf16 => some .bf16
  | .f32 => some .f32
  | .f64 => some .f64
  | .e4m3 => some .e4m3
  | .e5m2 => some .e5m2
  | .e2m1 => some .e2m1
  | _ => none

/-- FIn of R239: an operand read as a float with its negation field and `ftz`. The encoding, after lines 3 to 5. -/
def fInBits (f : Fmt) (x : Nat) (n : BitVec 2) (ftz : Bool) : Nat :=
  let v := x % 2 ^ f.width
  let s := 2 ^ (f.eb + f.fb)
  let v := if ftz && f.isSubnormal v then (if s ≤ v then s else 0) else v
  let v := if n.getLsbD 0 then v % s else v
  if n.getLsbD 1 then (if s ≤ v then v - s else v + s) else v

/-- FIn of R239 as a value. -/
def fIn (f : Fmt) (x : Nat) (n : BitVec 2) (ftz : Bool) : FVal := f.decode (fInBits f x n ftz)

/-- Whether a value is a NaN. -/
def FVal.isNan : FVal → Bool
  | .nan _ => true
  | _ => false

/-- Whether a value is a signalling NaN. -/
def FVal.isSnan : FVal → Bool
  | .nan s => s
  | _ => false

/-- The canonical NaN with NV when some operand is signalling (R240). -/
def nanResult (f : Fmt) (ops : List FVal) : Nat × Flags :=
  (f.nanBits, if ops.any FVal.isSnan then Flags.nv else 0)

/-- The canonical NaN of an invalid operation (R240). -/
def invalid (f : Fmt) : Nat × Flags := (f.nanBits, Flags.nv)

/-- An infinite exact result (R240: no flag, ±max finite with `sat`). -/
def infResult (f : Fmt) (neg sat : Bool) : Nat × Flags :=
  (f.signed neg (if sat then f.maxBits else f.infBits), 0)

/-- The sum of R243. -/
def fAdd (f : Fmt) (rnd : Rnd) (sat ftz : Bool) (a b : FVal) : Nat × Flags :=
  match a, b with
  | .nan _, _ => nanResult f [a, b]
  | _, .nan _ => nanResult f [a, b]
  | .inf x, .inf y => if x = y then infResult f x sat else invalid f
  | .inf x, .fin _ _ _ => infResult f x sat
  | .fin _ _ _, .inf y => infResult f y sat
  | .fin n m e, .fin n' m' e' => f.round rnd sat ftz (exactAdd rnd (exactOf n m e) (exactOf n' m' e'))

/-- The product of R243. -/
def fMul (f : Fmt) (rnd : Rnd) (sat ftz : Bool) (a b : FVal) : Nat × Flags :=
  match a, b with
  | .nan _, _ => nanResult f [a, b]
  | _, .nan _ => nanResult f [a, b]
  | .inf x, .inf y => infResult f (x != y) sat
  | .inf x, .fin n m _ => if m = 0 then invalid f else infResult f (x != n) sat
  | .fin n m _, .inf y => if m = 0 then invalid f else infResult f (n != y) sat
  | .fin n m e, .fin n' m' e' => f.round rnd sat ftz (exactMul (exactOf n m e) (exactOf n' m' e'))

/-- Whether a product is 0 times infinity. -/
def zeroTimesInf : FVal → FVal → Bool
  | .inf _, .fin _ m _ => decide (m = 0)
  | .fin _ m _, .inf _ => decide (m = 0)
  | _, _ => false

/-- The fused multiply-add of R243: 0 times infinity raises NV whatever the addend (R240). -/
def fFma (f : Fmt) (rnd : Rnd) (sat ftz : Bool) (a b c : FVal) : Nat × Flags :=
  if a.isNan || b.isNan || c.isNan then
    let r := nanResult f [a, b, c]
    if zeroTimesInf a b then (r.1, r.2 ||| Flags.nv) else r
  else if zeroTimesInf a b then invalid f
  else match a, b, c with
  | .fin n m e, .fin n' m' e', .fin k l g =>
    f.round rnd sat ftz (exactAdd rnd (exactMul (exactOf n m e) (exactOf n' m' e')) (exactOf k l g))
  | .fin _ _ _, .fin _ _ _, .inf z => infResult f z sat
  | a, b, c =>
    let sgn : FVal → Bool := fun v => match v with
      | .inf s => s
      | .fin s _ _ => s
      | .nan _ => false
    let p := sgn a != sgn b
    match c with
    | .inf z => if z = p then infResult f p sat else invalid f
    | _ => infResult f p sat

/-- The order of two encodings that are not NaN, with -0 below +0 (R244). -/
def fLess (f : Fmt) (x y : Nat) : Bool :=
  let s := 2 ^ (f.eb + f.fb)
  let key : Nat → Int := fun v => if s ≤ v then -(((v - s) : Nat) : Int) - 1 else (v : Nat)
  decide (key x < key y)

/-- minimum, maximum, minimumNumber and maximumNumber of R244, on encodings after R239. -/
def fMinMax (f : Fmt) (isMax num : Bool) (x y : Nat) : Nat × Flags :=
  let a := f.decode x
  let b := f.decode y
  let fl : Flags := if a.isSnan || b.isSnan then Flags.nv else 0
  if a.isNan && b.isNan then (f.nanBits, fl)
  else if a.isNan then (if num then y else f.nanBits, fl)
  else if b.isNan then (if num then x else f.nanBits, fl)
  else (if fLess f x y then (if isMax then y else x) else (if isMax then x else y), fl)

/-- The comparison of two values that are not NaN (R247: -0 equals +0): less, and equal. -/
def fCompare (a b : FVal) : Bool × Bool :=
  match a, b with
  | .fin n m e, .fin n' m' e' => (exactLt (exactOf n m e) (exactOf n' m' e'), exactEq (exactOf n m e) (exactOf n' m' e'))
  | .inf x, .inf y => (x && !y, decide (x = y))
  | .inf x, _ => (x, false)
  | _, .inf y => (!y, false)
  | _, _ => (false, false)

/-- The condition of R247 on two values, and whether they are unordered. -/
def fCond (cc : Nat) (a b : FVal) : Bool × Bool :=
  let u := a.isNan || b.isNan
  let (lt, eq) := fCompare a b
  (match cc with
    | 0 => !u && eq
    | 1 => u || !eq
    | 2 => !u && lt
    | 3 => !u && (lt || eq)
    | 4 => !u && !lt && !eq
    | 5 => !u && !lt
    | 6 => u
    | _ => !u, u)

/-- Round to an integral value of the same format (R248). -/
def fRoundInt (f : Fmt) (rnd : Rnd) (x : Nat) : Nat × Flags :=
  match f.decode x with
  | .nan s => nanResult f [.nan s]
  | .inf _ => (x, 0)
  | .fin n m e =>
    let r := (exactOf n m e).roundAt rnd 0
    (f.round .rn false false ⟨n, r.1, 0, false⟩ |>.1, if r.2 then Flags.nx else 0)

/-- ⌊log₂⌋ of a finite nonzero magnitude. -/
def floorLog2 (m : Nat) (e : Int) : Int := e + m.log2

/-- The bits of a word read as FP32 (R239 with no negation). -/
def f32Val (w : Word) : FVal := Fmt.f32.decode w.toNat

/-- FP32 operations on words under rn, as the fixed-function parts use them (R356, R358, R366). -/
def f32Add (a b : Word) : Word := BitVec.ofNat 32 (fAdd .f32 .rn false false (f32Val a) (f32Val b)).1
def f32Neg (a : Word) : Word := a ^^^ 0x80000000
def f32Sub (a b : Word) : Word := f32Add a (f32Neg b)
def f32Mul (a b : Word) : Word := BitVec.ofNat 32 (fMul .f32 .rn false false (f32Val a) (f32Val b)).1

/-- The FP32 quotient under rn (IEEE 754-2019 division, R356). -/
def f32Div (a b : Word) : Word :=
  let f := Fmt.f32
  BitVec.ofNat 32 (match f32Val a, f32Val b with
    | .nan _, _ => f.nanBits
    | _, .nan _ => f.nanBits
    | .inf _, .inf _ => f.nanBits
    | .inf x, .fin n _ _ => f.signed (x != n) f.infBits
    | .fin n _ _, .inf y => f.signed (n != y) 0
    | .fin n m e, .fin n' m' e' =>
      if m' = 0 then (if m = 0 then f.nanBits else f.signed (n != n') f.infBits)
      else if m = 0 then f.signed (n != n') 0
      else (f.round .rn false false (exactDiv (exactOf n m e) (exactOf n' m' e'))).1)

/-- Whether an FP32 word is below another (false on NaN). -/
def f32Lt (a b : Word) : Bool := (fCond 2 (f32Val a) (f32Val b)).1

/-- An exact ratio n/d (d not zero) rounded to FP32 under rn (R358). -/
def f32Ratio (n : Int) (d : Nat) : Word :=
  if n = 0 then 0
  else BitVec.ofNat 32 (Fmt.f32.round .rn false false (exactDiv (exactOf (decide (n < 0)) n.natAbs 0) (exactOf false d 0))).1

end Sys2Proof.Machine
end

