-- ==== Sys2Proof/Config.lean ====
section
/-!
DEFINITION. What an implementation fixes and what the manual leaves open. Every value here is an opaque constant: nothing
can be proved of what it is.
-/

namespace Sys2Proof

/-- The move the package makes when the agenda is empty, by the number of such choices made so far (R75; log entry 1). -/
opaque Config.nextMove : Nat → Move

/-- How many free choices are made before the moves that cannot be put off for ever (R56, R57; log entry 1). -/
opaque Config.gap : Nat → Nat

/-- The n-th free value: a word whose value the manual does not state (log entry 8). -/
opaque Config.freeWord : Nat → BitVec 32

/-- Whether a debugger is attached when the package has made that many choices (R427; log entry 8). -/
opaque Config.debuggerAttached : Nat → Bool

/-- The result of a special-function minor on an FP32 operand, where R258 states no exact case (R257: equal operand, minor
and modifiers give equal bits; log entry 9). -/
opaque Config.sfu : Nat → BitVec 32 → BitVec 32

/-- The package's 16-byte serial identity (R121; log entry 11). -/
opaque Config.serial : BitVec 128

/-- The device key drawn from the DRBG at the n-th initialisation (R121, R136; log entry 11). -/
opaque Config.deviceKey : Nat → BitVec 256

/-- The device's answer to an SPDM request (R393; log entry 11). -/
opaque Config.spdmAnswer : SpdmReq → List (BitVec 8)

/-- The bytes of a stream's command, and of its response, in a flit: the manual gives them no format (R389; log entry 22). -/
opaque Config.commandBytes : FabricCmd → List (BitVec 8)
opaque Config.responseBytes : FabricCmd → List (BitVec 8)

end Sys2Proof
end

