-- ==== Sys2Proof/Machine/Maps.lean ====
section
/-!
DEFINITION. Sparse maps in one sorted form, and memory as such a map of bytes. A key that is not listed reads as a default.
-/

namespace Sys2Proof.Machine

/-- A map from numbers to values, listed by rising key. -/
abbrev SMap (α : Type) := List (Nat × α)

/-- The value listed under a key. -/
def SMap.find {α : Type} : SMap α → Nat → Option α
  | [], _ => none
  | (j, v) :: m, k => if j = k then some v else SMap.find m k

/-- The value under a key, or the default. -/
def SMap.get {α : Type} (d : α) (m : SMap α) (k : Nat) : α := (SMap.find m k).getD d

/-- The map with one key removed, wherever it stands. -/
def SMap.erase {α : Type} : SMap α → Nat → SMap α
  | [], _ => []
  | (j, v) :: m, k => if j = k then SMap.erase m k else (j, v) :: SMap.erase m k

/-- The map with one key listed under a value. -/
def SMap.put {α : Type} : SMap α → Nat → α → SMap α
  | [], k, v => [(k, v)]
  | (j, u) :: m, k, v =>
    if k < j then (k, v) :: (j, u) :: m
    else if k = j then (k, v) :: m
    else (j, u) :: SMap.put m k v

/-- The map with one key set, kept canonical: a key that reads as the default is not listed. -/
def SMap.set {α : Type} [DecidableEq α] (d : α) (m : SMap α) (k : Nat) (v : α) : SMap α :=
  if v = d then SMap.erase m k else SMap.put m k v

/-- The keys rise strictly, all above a bound. -/
def SMap.sortedFrom {α : Type} : Option Nat → SMap α → Bool
  | _, [] => true
  | none, (k, _) :: m => SMap.sortedFrom (some k) m
  | some b, (k, _) :: m => decide (b < k) && SMap.sortedFrom (some k) m

/-- The canonical form: keys rise strictly, and no entry equals the default. -/
def SMap.wf {α : Type} [DecidableEq α] (d : α) (m : SMap α) : Bool :=
  SMap.sortedFrom none m && m.all (fun e => decide (e.2 ≠ d))

/-- A memory: bytes by address, in canonical form. -/
abbrev Memory := List Host.Cell

/-- What a byte that nothing has written reads as (log entries 5 and 6). -/
def Memory.unlisted : BitVec 8 := 0

/-- One byte of a memory. -/
def Memory.read (m : Memory) (a : Nat) : BitVec 8 := SMap.get Memory.unlisted m a

/-- A memory with one byte written. -/
def Memory.write (m : Memory) (a : Nat) (b : BitVec 8) : Memory := SMap.set Memory.unlisted m a b

/-- A memory with consecutive bytes written. -/
def Memory.writeBytes : Memory → Nat → List (BitVec 8) → Memory
  | m, _, [] => m
  | m, a, b :: bs => Memory.writeBytes (Memory.write m a b) (a + 1) bs

/-- Consecutive bytes of a memory. -/
def Memory.readBytes (m : Memory) (a : Nat) : Nat → List (BitVec 8)
  | 0 => []
  | n + 1 => Memory.read m a :: Memory.readBytes m (a + 1) n

/-- The canonical form of a memory. -/
def Memory.wf (m : Memory) : Bool := SMap.wf Memory.unlisted m

end Sys2Proof.Machine
end

