-- ==== Sys2Proof/Machine/Parts.lean ====
section
/-!
DEFINITION. The parts that hold work and memory: fibres, batches, spindles, workgroups, cores, launches, engine jobs, the
registry, L2 lines, seal metadata and translation caches (spec/02_work.md to spec/06_sealing.md, spec/12_lanes_flow.md,
spec/14_engines.md, spec/23_faults_execution.md, spec/25_preemption.md).
-/

namespace Sys2Proof.Machine

/-- A ticket (R368, R370): its context, key, target descriptor VA, pixel, covered samples, z, home bank, the number by which the
model tells tickets apart, how many draws its front had completed (R355), and the launch and WID that its primitive names. -/
structure Ticket where
  ctx    : Nat
  key    : Nat
  target : BitVec 64
  px     : Nat
  py     : Nat
  cover  : BitVec 8
  z      : Word
  bank   : Nat
  seq    : Nat
  gen    : Nat
  lseq   : Nat
  wid    : BitVec 64
  deriving DecidableEq, Repr, Inhabited

/-- A render target as its descriptor gives it (R361). -/
structure Target where
  cfmt : Nat
  lsmp : Nat
  h    : Nat
  w    : Nat
  pb   : List Nat
  mtab : Nat
  deriving DecidableEq, Repr, Inhabited

/-- A fibre (R45): its PC, window base, frame size, WID, the identity the model gives it, the ticket it holds, whether the
ticket is answered, and the resume PC that its `sys.rte` read (R430). -/
structure Fibre where
  pc       : BitVec 64
  base     : Nat
  rows     : Nat
  wid      : BitVec 64
  fid      : Nat
  ticket   : Option Ticket
  answered : Bool
  rtePc    : Option (BitVec 64)
  deriving DecidableEq, Repr, Inhabited

/-- What a trap needs until it is delivered (R425, R427): the kind, `info`, `addr`, the lanes that failed, the lanes of the
batch, the record's `pc` and `rpc`, the trapping word, and the VA of the record once it is written. -/
structure TrapInfo where
  kind  : Nat
  info  : BitVec 64
  addr  : BitVec 64
  lanes : Word
  batch : Word
  pc    : BitVec 64
  rpc   : BitVec 64
  iw    : List (BitVec 32)
  recVa : Option (BitVec 64)
  deriving DecidableEq, Repr, Inhabited

/-- A 64-bit counter that a lane waits on (R287): the lane, the physical address, whether the page is sealed, whether the word
is read in place or through a view, and the target. -/
structure CounterWait where
  lane   : Nat
  pa     : Nat
  sl     : Bool
  fv     : Bool
  inPl   : Bool
  target : BitVec 64
  deriving DecidableEq, Repr, Inhabited

/-- What blocks a batch whose word has not issued (R53): an outstanding tile task with rows in frames that would be freed, as
first row and rows (R334); copy slots (R324); chain space at a descriptor (R329); an outstanding batch too many (R326); room
in the core's post buffer (R370); room in a queue (R384). -/
inductive Block where
  | tile (rows : List (Nat × Nat))
  | copySlots (n : Nat)
  | chain (va : BitVec 64)
  | closedBatch
  | postRoom (n : Nat)
  | recordRoom (cl : Nat) (n : Nat)
  | launchRoom
  | primRoom (n : Nat)
  deriving DecidableEq, Repr, Inhabited

/-- What a batch waits for (R53). `len` is the length in words of the parked instruction, at which the PC still stands, and `iw`
its words. -/
inductive Wait where
  | none
  | join (mask : Word) (len : Nat)
  | ret (res : Nat) (iw : List Nat)
  | bar (bid : Nat) (scope : Scope) (cnt : Option Nat) (arrived done : Bool) (len : Nat)
  | mbarWait (at_ : List (Nat × Nat × Word)) (scope : Scope) (iw : List Nat)
  | waitge (at_ : List CounterWait) (scope : Scope) (creg : BitVec 8) (iw : List Nat)
  | cwait (minor : Nat) (mask : BitVec 64) (lanes : Word) (d : BitVec 8) (scope : Scope) (creg : BitVec 8) (len : Nat)
  | cbatchWait (n : Nat) (len : Nat)
  | ttwait (jobs : List Nat) (lanes : Word) (len : Nat)
  | nfence (len : Nat)
  | yield (issues : Nat) (timed : Bool) (len : Nat)
  | tinv (scope : Scope) (ranges : List (BitVec 64 × Nat)) (len : Nat)
  | call (dem args : Nat) (target : BitVec 64) (iw : List Nat)
  | blocked (b : Block)
  | trap (t : TrapInfo)
  | returnTrap
  deriving DecidableEq, Repr, Inhabited

/-- A batch (R46): its lanes, what it waits for, whether it is parked at a switch marker (R175), how many of the spindle's
issue slots it has waited, and whether it is the spindle's current batch (R52). -/
structure Batch where
  lanes   : Word
  wait    : Wait
  mark    : Bool
  waited  : Nat
  current : Bool
  deriving DecidableEq, Repr, Inhabited

/-- A loop record (R277): end, start, window base, and the remaining count of each lane. -/
structure LoopRec where
  stop  : BitVec 64
  start : BitVec 64
  base  : Nat
  rc    : List (Nat × Word)
  deriving DecidableEq, Repr, Inhabited

/-- A frame (R48, R274): its first row, size in rows, depth, members, and the record VA when it is a handler frame. -/
structure Frame where
  base    : Nat
  rows    : Nat
  depth   : Nat
  members : Word
  handler : Option (BitVec 64)
  deriving DecidableEq, Repr, Inhabited

/-- A resident spindle (R45 to R53): its workgroup and index, `SEG.size`, fibres by lane, batches, loop records newest first,
frames innermost last, pending tile flags by lane (R335), issue slots used, and whether it is spilled (R432). -/
structure Spindle where
  wg      : Nat
  sidx    : Nat
  seg     : Nat
  fibres  : SMap Fibre
  batches : List Batch
  lastS   : Bool
  loops   : List LoopRec
  frames  : List Frame
  pend    : SMap (BitVec 5)
  issues  : Nat
  spilled : Bool
  deriving DecidableEq, Repr, Inhabited

/-- A continuation record (R36), with the launch it counts towards (R40) and the WID that a kind 1 record's fibres take from
the fibre or record it was made by (R37). `src` is the VA it was read from, or 0; `prog` says that a program made it (`spawn` or a
join block); `stamp` numbers it in enqueue order (R41). `home` is the runner and workgroup whose `NMCNT` counts it (R341), `unit`
the number of the PROG application that it goes on with (R367), `tks` the tickets of a fragment record's fibres (R369), and `ring` the
VA of its entry in a queue area, from which it is read back (R384). -/
structure Record where
  pv     : Bool
  prod   : Nat
  kind   : Nat
  frm    : Nat
  scr    : Nat
  cnt    : Nat
  joinp  : BitVec 64
  framep : BitVec 64
  code   : BitVec 64
  ctx    : Nat
  lseq   : Nat
  wid    : BitVec 64
  src    : BitVec 64
  resv   : BitVec 11
  ordinal : Nat
  unit   : Option Nat
  home   : Option (Nat × Nat)
  prog   : Bool
  stamp  : Nat
  tks    : List Ticket
  ring   : Option Nat
  deriving DecidableEq, Repr, Inhabited

/-- A launch header (R30). -/
structure Header where
  setm  : BitVec 256
  waitm : BitVec 256
  resvHi : BitVec 249
  pv    : Bool
  prod  : Nat
  resvLo : Bool
  coop  : Bool
  scr   : Nat
  frm   : Nat
  rlev  : Nat
  plev  : Nat
  nf    : Nat
  ws    : List Nat
  ext   : BitVec 64
  argp  : BitVec 64
  code  : BitVec 64
  word3 : BitVec 64
  deriving DecidableEq, Repr, Inhabited

/-- A primitive record (R354) as posted (R345): draw, index, vertices, `dvp` and `attr`; and the VA of its entry in a queue area (R384). -/
structure Prim where
  ctx  : Nat
  lseq : Nat
  wid  : BitVec 64
  draw : Nat
  idx  : Nat
  vs   : List LWord
  dvp  : BitVec 64
  attr : BitVec 64
  ring : Option Nat
  deriving DecidableEq, Repr, Inhabited

/-- Where an access goes (R62, R67 to R69): global memory through the registry (PA, `creg`, `sl`, `fv`, effective caching), an
in-place word (on-chip window, or host window with `hc` = 0), a scratchpad byte, or a byte of the private memory of a slot, by PA. -/
inductive Place where
  | mem (pa : Nat) (creg : Nat) (sl fv : Bool) (cache va : Nat)
  | inPlace (pa va : Nat)
  | scratch (o : Nat)
  | priv (slot pa : Nat)
  deriving DecidableEq, Repr, Inhabited

/-- What a fibre posts once its posting release has been made (R77, R314): an engine job, a record for a
cluster or an NMU, a launch header read from a VA, a primitive. -/
inductive Posted where
  | job (cl id : Nat)
  | spawn (va wid : BitVec 64) (pl : Place)
  | nmu (n : Nat) (r : Record)
  | launch (va : BitVec 64) (pl : Place)
  | prim (p : Prim)
  deriving DecidableEq, Repr, Inhabited

/-- A barrier of a workgroup (R284): whether a generation is open, its count where one was given, and the arrivals so far. -/
structure Bar where
  opened : Bool
  count  : Option Nat
  arr    : Nat
  deriving DecidableEq, Repr, Inhabited

/-- A resident workgroup (R28, R43): its record, the slots of its spindles by index, its scratchpad range in granules, copy
tags with their status (R323), `NMCNT` (R341), the open and closed batches of copies by job number (R326), its barriers, and
whether it is halted (R460). `ending` says how far the steps of R44 have come. -/
structure Workgroup where
  rcd     : Record
  argp    : BitVec 64
  slots   : List Nat
  scrBase : Nat
  ctag    : BitVec 64
  tagst   : SMap (BitVec 2)
  nmcnt   : Word
  openB   : List Nat
  closedB : List (List Nat)
  bars    : SMap Bar
  coop    : Bool
  halted  : Bool
  ending  : Bool
  killed  : Bool
  deriving DecidableEq, Repr, Inhabited

/-- A word of an L1 (R103): its value, whether it is registered (G) or not (V), and U. -/
structure L1Word where
  val : LWord
  g   : Bool
  u   : Bool
  deriving DecidableEq, Repr, Inhabited

/-- What an L1 line carries besides its words (R103, R448): the page's `creg` and the context of its last writer. -/
structure L1Line where
  creg : Nat
  ctx  : Nat
  deriving DecidableEq, Repr, Inhabited

/-- A page's leaf as a translation cache holds it (R60, R71): context, page size as a power of two, virtual page, physical
page, and attributes. -/
structure Leaf where
  ctx  : Nat
  lg   : Nat
  vpn  : Nat
  ppn  : Nat
  creg : Nat
  hc   : Bool
  fv   : Bool
  sl   : Bool
  cpol : Nat
  x    : Bool
  w    : Bool
  deriving DecidableEq, Repr, Inhabited

/-- Where a result goes: window base and register number. -/
structure Dest where
  base : Nat
  d    : Nat
  deriving DecidableEq, Repr, Inhabited

/-- A memory operation of a fibre (R74, R76, R77), in the form the issue queue holds. `n` is its bytes. A load of 16 bytes, or
of several words in the on-chip window, collects its words in `got` (R75). `own` says that a release or an acquire belongs to an
access of the same instruction (R76). `relWait` is a wide release that waits for the acknowledgements of its Hold-clears (R110). -/
inductive OpKind where
  | load (pl : Place) (n : Nat) (sext : Bool) (got : List LWord) (dst : Dest)
  | store (pl : Place) (n : Nat) (data : List LWord) (wideRel : Bool)
  | atomic (pl : Place) (op aty n : Nat) (v cmp : List LWord) (narrow : Bool) (dst : Option Dest)
  | release (wide own : Bool)
  | relWait (banks : BitVec 512) (own : Bool)
  | acquire (wide : Bool) (mask : BitVec 8) (drained own : Bool)
  | inv (wide : Bool) (ranges : List (BitVec 64 × Nat))
  | wb (sys : Bool) (ranges : List (BitVec 64 × Nat))
  | pref (pa : Nat) (sl fv : Bool) (cache creg va : Nat)
  | mbar (op o : Nat) (c : Word) (dst : Option Dest) (acq : Option Bool) (pc : BitVec 64) (iw : List Nat)
  | evt (op bit : Nat) (dst : Option Dest)
  | smp (t : Target) (x y pl sid : Nat) (dst : Dest)
  | tmeth (desc : BitVec 64) (slot : Nat) (rect : BitVec 64) (pay : List LWord)
  | chain (desc : BitVec 64) (card : List LWord) (dst : Dest)
  | posted (p : Posted)
  deriving DecidableEq, Repr, Inhabited

/-- An entry of an issue queue: the operation, its fibre, where the fibre stands, the number of the issue that made it, TICK
at that issue, whether the merged request that it is part of has met a failed fill (R312, R445), and whether that request has been
counted (R312, R481). -/
structure MemOp where
  seen : Bool
  counted : Bool
  grp  : Nat
  tick : BitVec 64
  fid  : Nat
  slot : Nat
  lane : Nat
  wg   : Nat
  ctx  : Nat
  kind : OpKind
  deriving DecidableEq, Repr, Inhabited

/-- A store in a store buffer (R74, R80). `rel` says that it drains with U = 0; `sent` that its words have been requested from
their homes; `counted` that the merged request it is part of has been counted (R312, R481). -/
structure StoreEnt where
  counted : Bool
  grp  : Nat
  tick : BitVec 64
  fid  : Nat
  wg   : Nat
  ctx  : Nat
  pl   : Place
  n    : Nat
  data : List LWord
  rel  : Bool
  sent : Bool
  deriving DecidableEq, Repr, Inhabited

/-- A request of a core that may be sampled (R481): context, VA, PA, TICK at issue, kind, and what served it. -/
structure Sample where
  ctx    : Nat
  va     : Nat
  pa     : Nat
  tick   : BitVec 64
  kind   : Nat
  served : Nat
  deriving DecidableEq, Repr, Inhabited

/-- A variable-latency result that has not landed (R174, R176): register words by absolute row, then a bit of v1 by its
absolute row, then flags to OR into that row; and the request that it answers (R481). -/
structure Result where
  fid   : Nat
  slot  : Nat
  lane  : Nat
  words : List (Nat × LWord)
  v1row : Nat
  pd    : Option (Nat × Option Bool)
  flags : BitVec 5
  smp   : Option Sample
  deriving DecidableEq, Repr, Inhabited

/-- A mark of hazard-check mode (R434): the row and lane of an outstanding result, or of flags still to be ORed. -/
structure HzMark where
  fid    : Nat
  slot   : Nat
  row    : Nat
  lane   : Nat
  flags  : Bool
  deriving DecidableEq, Repr, Inhabited

/-- A post of `fpost` in a core's buffer, or a `tmeth` pixel (R370, R375, R376), and whether its home has refused it. -/
structure Post where
  tk      : Ticket
  mask    : BitVec 8
  slots   : BitVec 16
  colour  : List LWord
  depth   : LWord
  refused : Bool
  deriving DecidableEq, Repr, Inhabited

/-- A spilled unit of a halted workgroup (R463, R464): a spindle with its slot state and,
for spindle 0, the workgroup's `CPYBASE` value where it wrote that last, or a scratchpad granule. -/
inductive Spilled where
  | spindle (wg slot : Nat) (sp : Spindle) (cpy : Option (BitVec 64))
  | granule (wg g : Nat)
  deriving DecidableEq, Repr, Inhabited

/-- A word of private memory in an L1 (R70, R103): its value, and the context and slot of its fibre. -/
structure PrivWord where
  val  : LWord
  ctx  : Nat
  slot : Nat
  deriving DecidableEq, Repr, Inhabited

/-- A core, an NMU or a method unit as a runner of spindles (R14, R339, R367). -/
structure Core where
  rows    : SMap LWord
  scratch : SMap LWord
  priv    : SMap PrivWord
  l1      : SMap L1Word
  lines   : SMap L1Line
  held    : BitVec 512
  iq      : List MemOp
  sbuf    : List StoreEnt
  results : List Result
  marks   : List HzMark
  spindles : SMap Spindle
  wgs     : SMap Workgroup
  cpybase : BitVec 64
  cpyWg   : Option Nat
  tlb     : List Leaf
  posts   : List Post
  dbgSt   : Nat
  dbgLane : Nat
  dbgSlot : Nat
  smask   : BitVec 64
  smpCtl  : BitVec 64
  smpDat  : BitVec 64
  smpN    : Nat
  qptr    : List Nat
  spilled : List Spilled
  issued  : BitVec 64
  nextFid : Nat
  nextWg  : Nat
  deriving DecidableEq, Repr, Inhabited

/-- A region of a job's footprint (R86): one address space, named by context (virtual), core (scratchpad) or core (rows). -/
inductive Region where
  | virt (ctx start len : Nat)
  | scratch (core start len : Nat)
  | rows (core start len : Nat)
  deriving DecidableEq, Repr, Inhabited

/-- A copy card (R316). -/
structure CopyCard where
  minor  : Nat
  aux    : BitVec 64
  stride : Nat
  cmask  : Nat
  stype  : Ty
  np     : Nat
  rows   : Nat
  prnd   : Rnd
  nblk   : Nat
  cadd   : Nat
  ctr    : BitVec 64
  mbv    : Bool
  mbo    : Nat
  len    : Nat
  ssp    : Bool
  dsp    : Nat
  dst    : BitVec 64
  src    : BitVec 64
  deriving DecidableEq, Repr, Inhabited

/-- A tile-task card (R331). -/
structure TileCard where
  out  : Nat
  od   : Bool
  qt   : Nat
  eq   : Bool
  ea   : Bool
  eb   : Bool
  init : Bool
  pb   : Nat
  pa   : Nat
  nb   : Nat
  n    : Nat
  m    : Nat
  qz   : Int
  qs   : Word
  tab  : Nat
  bias : Nat
  boff : Nat
  aoff : Nat
  deriving DecidableEq, Repr, Inhabited

/-- A collective card (R391). -/
structure CollCard where
  pg   : BitVec 64
  src  : BitVec 64
  dst  : BitVec 64
  cnt  : Nat
  cid  : Nat
  ety  : Nat
  cop  : Nat
  root : Nat
  deriving DecidableEq, Repr, Inhabited

/-- A pair of a row command (R336): physical addresses of its blocks, the destination's VA and `sl`, which steps of its
preparation are made, a bit for each (R117, R118), whether it was refused and whether its row operation is done. -/
structure RowPair where
  dst     : Nat
  src     : Option Nat
  dva     : BitVec 64
  sl      : Bool
  prep    : Nat
  refused : Bool
  done    : Bool
  deriving DecidableEq, Repr, Inhabited

/-- What an engine job does (R86, R318, R330, R332, R336, R391). -/
inductive JobKind where
  | copy (c : CopyCard)
  | gather (src idx dst : BitVec 64) (cnt esz : Nat)
  | coll (c : CollCard)
  | tile (c : TileCard)
  | row (own prepared : Bool) (pairs : List RowPair)
  deriving DecidableEq, Repr, Inhabited

/-- The status of a job (R74): before its posting release it is in no queue. A complete job is no longer listed. -/
inductive JobStatus where
  | posting | queued | started
  deriving DecidableEq, Repr, Inhabited

/-- An engine job (R86 to R89): its number, context, launch, issuing core, workgroup, slot and window base, footprint, edges; the
words it has read, the writes it has made and the credits it has applied, by number; its tag (R323), the receivers' `CPYBASE`
values (R319), its chain's descriptor and sequence number (R329), the issuing workgroup's scratchpad range in bytes; the plane
engine of its core (R333), the next block, accumulators and flags of a tile task (R154, R461); its OF and NV status (R323); whether it is halted (R462); the number
of ranks, the package's own, the nodes of the ranks once its rendezvous flits are sent, the ranks that have answered, the nodes that its own
contribution has been sent to, the contributions that have arrived, and what a rendezvous made of it (R392, R456, R457); the cause and VA of its failure (R442). -/
structure Job where
  id       : Nat
  ctx      : Nat
  lseq     : Nat
  core     : Nat
  wg       : Nat
  slot     : Nat
  base     : Nat
  kind     : JobKind
  reads    : List Region
  writes   : List Region
  edges    : List Nat
  status   : JobStatus
  buf      : SMap LWord
  landed   : List Nat
  credited : List Nat
  tag      : Option Nat
  recv     : List (Nat × BitVec 64)
  chain    : Option (BitVec 64 × Nat)
  eng      : Nat
  scrBase  : Nat
  scrLen   : Nat
  block    : Nat
  acc      : List LWord
  flags    : List (BitVec 5)
  st       : BitVec 2
  halted   : Bool
  ranks    : Nat
  rank     : Nat
  peers    : List Nat
  met      : List Nat
  sent     : List Nat
  answers  : SMap (List Word)
  verdict  : Nat
  failed   : Option (Nat × BitVec 64)
  deriving DecidableEq, Repr, Inhabited

/-- A cluster: its record queues by context (R39), with the number of entries that each has put into its ring (R384), engine queue (R74) and TLB (R71). -/
structure Cluster where
  queues : SMap (List Record)
  rung   : SMap Nat
  jobs   : List Job
  tlb    : List Leaf
  deriving DecidableEq, Repr, Inhabited

/-- A successor record that a join block has fired (R38, R384): it waits for queue room, the resources of the workgroup whose
end fired it stay held, and its predecessor still counts. -/
structure Fired where
  cl   : Nat
  rcd  : Record
  from_ : Option (Nat × Nat)
  deriving DecidableEq, Repr, Inhabited

/-- An accepted launch (R32 to R35, R40): its header, sequence number, whether it is eligible, the index of the next
workgroup of the package's share to expand, how many there are, how many records count
towards it, the package's rank among how many (R386), and the VA of its entry in the queue area (R384). -/
structure Launch where
  hdr      : Header
  lseq     : Nat
  eligible : Bool
  next     : Nat
  total    : Nat
  live     : Nat
  rank     : Option (Nat × Nat)
  ring     : Option Nat
  deriving DecidableEq, Repr, Inhabited

/-- The registry's entry for a word (R105, R109), where it is not N: its owner, with U for an owner that keeps none itself
(R487); an engine job's word held at home (R108); a held word (R112); `lost`; or an own-mode row (R118). -/
inductive RState where
  | own (o : Nat) (u : Bool)
  | j (c cl job : Nat)
  | hold (o : Nat) (v : LWord)
  | lost
  | ownMode (nmu cmd : Nat)
  deriving DecidableEq, Repr, Inhabited

/-- An L2 line (R62, R128): its 32 words, whether it is dirty, the key slot it was filled under, whether it is of a view,
whether it is marked first for eviction, and the way of its bank that holds it (R380). -/
structure L2Line where
  ws    : List LWord
  dirty : Bool
  ks    : Nat
  view  : Bool
  first : Bool
  way   : Nat
  deriving DecidableEq, Repr, Inhabited

/-- A metadata entry (R120). -/
structure Meta where
  o     : Bool
  p     : Bool
  x     : Bool
  z     : Bool
  kslot : Nat
  kgen  : Nat
  otag  : Nat
  itag  : Nat
  nonce : Nat
  ver   : Nat
  deriving DecidableEq, Repr, Inhabited

/-- A tree entry (R125). -/
structure Tree where
  ntag : Nat
  ngen : Nat
  nver : Nat
  deriving DecidableEq, Repr, Inhabited

/-- A metadata row in the metadata cache (R126): the entries that differ from initialisation, as 32-byte numbers by place,
and the dirty bit. -/
structure MRow where
  ents  : SMap Nat
  dirty : Bool
  deriving DecidableEq, Repr, Inhabited

/-- The state of a key slot (R132). -/
inductive KState where
  | empty | active | staged | rekeying
  deriving DecidableEq, Repr, Inhabited

/-- A key slot (R132, R133): its state, master key, pending key, the cursor of a walk as a block number, and the partition. -/
structure KeySlot where
  st     : KState
  key    : BitVec 256
  next   : BitVec 256
  cursor : Nat
  part   : Nat
  deriving DecidableEq, Repr, Inhabited

/-- A non-leaf entry in a die's walker cache (R71): context, level, virtual prefix, table address. -/
structure WalkEnt where
  ctx   : Nat
  level : Nat
  pre   : Nat
  ppn   : Nat
  deriving DecidableEq, Repr, Inhabited

/-- A fault record to be written (R425), by an agent or for a fibre: context, `act`, kind, `info`, `addr`, `pc`, and the launch
sequence number and WID concerned. It is written to the ring at the end of the move that asks for it. -/
structure RecReq where
  ctx  : Nat
  act  : Nat
  kind : Nat
  info : BitVec 64
  addr : BitVec 64
  pc   : BitVec 64
  rpc  : BitVec 64
  lanes : Word
  batch : Word
  wid  : BitVec 64
  lseq : Nat
  depth : Nat
  slot : Nat
  core : Nat
  iw   : List (BitVec 32)
  deriving DecidableEq, Repr, Inhabited

/-- A context's registers and its launch unit (R32 to R35, R58, R382, R384, R423, R459). -/
structure Context where
  ptb  : BitVec 64
  pvb  : BitVec 64
  pvs  : BitVec 64
  ctxc : BitVec 64
  pgt  : BitVec 64
  qrb  : BitVec 64
  trv  : BitVec 64
  frb  : BitVec 64
  spb  : BitVec 64
  ev   : BitVec 256
  nextLseq : Nat
  launches : List Launch
  rung : Nat
  accepted : BitVec 64
  rejected : BitVec 64
  window   : SMap (BitVec 8)
  slen     : Option Nat
  rank     : BitVec 32
  deriving DecidableEq, Repr, Inhabited

end Sys2Proof.Machine
end

