-- ==== Sys2Proof/Machine/PartsIo.lean ====
section
/-!
DEFINITION. The parts of graphics, the fabric, the host port, management and observation (spec/15_graphics.md to
spec/17_management.md, spec/25_preemption.md, spec/27_observation.md).
-/

namespace Sys2Proof.Machine

/-- A draw descriptor (R353). -/
structure DrawDesc where
  va    : BitVec 64
  vp    : List Word
  cull  : Nat
  dslot : Nat
  erej  : Bool
  frm   : Nat
  lfr   : Nat
  fring : BitVec 64
  fcode : BitVec 64
  tgt   : BitVec 64
  deriving DecidableEq, Repr, Inhabited

/-- A covered pixel in a fragment block (R358, R369). -/
structure Frag where
  tk   : Ticket
  b1   : Word
  b2   : Word
  attr : BitVec 64
  deriving DecidableEq, Repr, Inhabited

/-- What a front has ready to send, in order: a ticket with its fragment, or a fence marker (R368, R378). -/
inductive FrontOut where
  | frag (f : Frag)
  | fence (id : Nat)
  deriving DecidableEq, Repr, Inhabited

/-- A bound of early rejection (R360): target, 8 x 8 region, bound. -/
structure ZBound where
  target : BitVec 64
  rx     : Nat
  ry     : Nat
  zb     : Word
  deriving DecidableEq, Repr, Inhabited

/-- A raster front for one context (R355, R360, R369): current draw, next index, draws completed, their numbers (the last 2,048),
records held by draw times 2^20 plus index, descriptor, what is to be sent, the open fragment block, whose records go to clusters
in turn, bounds, and entries put into its ring (R384). -/
structure Front where
  draw  : Nat
  next  : Nat
  gen   : Nat
  done  : List Nat
  held  : SMap Prim
  desc  : Option DrawDesc
  out   : List FrontOut
  block : List Frag
  turn  : Nat
  zbs   : List ZBound
  rung  : Nat
  deriving DecidableEq, Repr, Inhabited

/-- A fragment ring (R369): its next slot, and the slots whose workgroups have not ended. -/
structure Ring where
  ctx   : Nat
  fring : BitVec 64
  next  : Nat
  busy  : List Nat
  deriving DecidableEq, Repr, Inhabited

/-- A pixel FIFO of a home bank (R370). -/
structure Fifo where
  bank   : Nat
  ctx    : Nat
  target : BitVec 64
  px     : Nat
  py     : Nat
  tks    : List Ticket
  deriving DecidableEq, Repr, Inhabited

/-- A `tmeth` pixel on its way (R376): the fibre it counts as a store of, the fibre's workgroup, what it applies, and whether a PROG method of it is
under way. -/
structure Tmeth where
  core : Nat
  fid  : Nat
  wg   : Nat
  post : Post
  busy : Bool
  deriving DecidableEq, Repr, Inhabited

/-- A PROG method under way (R367): its method unit, the application and the slot it stands at, the samples alive; what its
lanes returned once the last fibre has ended (v1, then v7 to v10); whether it was terminated (R454); and the frame image of a
continuation shipped to a core. -/
structure Prog where
  id     : Nat
  unit   : Nat
  post   : Post
  fromTk : Bool
  slot   : Nat
  alive  : BitVec 8
  ret    : List (Nat × List LWord)
  ended  : Bool
  trapped : Bool
  img    : List LWord
  deriving DecidableEq, Repr, Inhabited

/-- A fence under way (R378): the fronts that have sent its marker, the banks it has reached, the tickets it waits for. -/
structure Fence where
  id     : Nat
  ctx    : Nat
  draw   : Nat
  idx    : Nat
  target : BitVec 64
  fslot  : Nat
  fronts : BitVec 8
  banks  : BitVec 512
  waits  : List Nat
  deriving DecidableEq, Repr, Inhabited

/-- Counts of a method unit (R486). -/
structure MethodRegs where
  applied : BitVec 64
  refused : BitVec 64
  rtraps  : BitVec 64
  deriving DecidableEq, Repr, Inhabited

/-- A port of Gimond Link (R388, R455). -/
structure Port where
  up       : Bool
  txSeq    : Nat
  rxSeq    : Nat
  replay   : List Flit
  naks     : Nat
  nakSeq   : Nat
  retrains : List (BitVec 64)
  training : Bool
  closed   : Bool
  deriving DecidableEq, Repr, Inhabited

/-- An unanswered command of a stream (R389). -/
structure Unanswered where
  eseq  : Nat
  cmd   : FabricCmd
  sent  : BitVec 64
  tries : Nat
  deriving DecidableEq, Repr, Inhabited

/-- A stream (R389, R456), held by its sender and by its receiver: its commands that are unanswered, the next to execute, and the responses
to the last 64 that were executed, by `eseq`. -/
structure Stream where
  src    : Nat
  dst    : Nat
  part   : Nat
  eseq   : Nat
  open_  : List Unanswered
  rxNext : Nat
  kept   : List (Nat × List (BitVec 8))
  failed : Bool
  deriving DecidableEq, Repr, Inhabited

/-- A peer's rendezvous that is not answered yet (R392, R470): its partition and node, and the card it names. -/
structure Ask where
  part : Nat
  node : Nat
  tid  : BitVec 64
  cid  : Nat
  cnt  : Nat
  cop  : Nat
  ety  : Nat
  deriving DecidableEq, Repr, Inhabited

/-- An SPDM session (R350, R393): its key-transfer key and the largest sequence number accepted. -/
structure Session where
  id  : Word
  ktk : BitVec 256
  seq : Option (BitVec 64)
  deriving DecidableEq, Repr, Inhabited

/-- The state of a TDI (R395). -/
inductive Tdi where
  | unlocked | locked | run | error
  deriving DecidableEq, Repr, Inhabited

/-- A partition (R380, R395, R459, R467, R483). `held` says that its contexts stay halted, by a dump or by its TDI leaving RUN;
`dumpId` and `dumpE` are the identity and the tick of its last dump, `dumped` that it is recorded and not yet resumed. -/
structure Partition where
  clm    : BitVec 128
  pcg    : BitVec 512
  l2w    : BitVec 14
  ptm    : BitVec 36
  en     : Bool
  tclm   : BitVec 128
  pend   : Bool
  force  : Bool
  tdi    : Tdi
  holder : Option Nat
  last   : Nat
  until_ : BitVec 64
  deferred : Option (BitVec 64)
  shrunk : List (Nat × Nat)
  dumped : Bool
  dumpId : Option Nat
  dumpE  : BitVec 64
  held   : Bool
  deriving DecidableEq, Repr, Inhabited

/-- A die's telemetry and governor state (R398, R399, R403). -/
structure Die where
  tel  : BitVec 64
  govw : BitVec 64
  govs : BitVec 64
  gove : BitVec 64
  hot  : Bool
  winAt  : BitVec 64
  beyond : BitVec 20
  plane  : Bool
  saw    : Bool
  cards  : Nat
  work   : Nat
  formed : SMap Nat
  runs   : Bool
  begun  : BitVec 64
  ended  : BitVec 64
  deriving DecidableEq, Repr, Inhabited

/-- A flit of a dumped partition that is held until resumption (R483). -/
structure HeldFlit where
  port : Nat
  f    : Flit
  deriving DecidableEq, Repr, Inhabited

end Sys2Proof.Machine
end

