-- ==== Sys2Proof/Machine/State.lean ====
section
/-!
DEFINITION. The state of the package, all of it plain data, and the state after reset. INVENTORY.md lists each piece with the
rule that names it and its reset value.
-/

namespace Sys2Proof.Machine

/-- Why the machine stops with a fault. Every failure the manual describes has an effect in the state (a record, a trap, a
termination), so no step of the model answers with a fault. -/
inductive Fault where
  /-- Raised by nobody; safe. -/
  | unused
  deriving DecidableEq, Repr

/-- Why the machine refuses. -/
inductive Refusal where
  /-- Raised by the arm of an instruction that has no meaning yet, by its mnemonic; safe. -/
  | notModelled (mnemonic : String)
  deriving DecidableEq, Repr

/-- The word that is being issued: runner, spindle slot, lanes of the batch, and the word's 32-bit words (log entry 1). -/
structure Cur where
  core  : Nat
  slot  : Nat
  lanes : Word
  words : List Nat
  deriving DecidableEq, Repr, Inhabited

/-- A core after reset (R14, R43; log entry 7). -/
def Core.reset : Core :=
  { rows := [], scratch := [], priv := [], l1 := [], lines := [], held := 0, iq := [], sbuf := [],
    results := [], marks := [], spindles := [], wgs := [], cpybase := 0, cpyWg := none, tlb := [], posts := [], dbgSt := 0,
    dbgLane := 0, dbgSlot := 0, smask := 0, smpCtl := 0, smpDat := 0, smpN := 0, qptr := [15, 15, 15, 15], spilled := [], issued := 0,
    nextFid := 0, nextWg := 0 }

/-- A context after reset (R33, R58, R382, R384, R396, R423; log entry 7). -/
def Context.reset : Context :=
  { ptb := 0, pvb := 0, pvs := 0, ctxc := 0, pgt := 0, qrb := 0, trv := 0, frb := 0, spb := 0, ev := 0, nextLseq := 0,
    launches := [], rung := 0, accepted := 0, rejected := 0, window := [], slen := none, rank := 0xFFFFFFFF }

/-- A partition after reset (R380, R467; log entry 7). -/
def Partition.reset : Partition :=
  { clm := 0, pcg := 0, l2w := 0, ptm := 0, en := false, tclm := 0, pend := false, force := false, tdi := .unlocked,
    holder := none, last := 15, until_ := 0, deferred := none, shrunk := [], dumped := false, dumpId := none,
    dumpE := 0, held := false }

def Cluster.reset : Cluster := { queues := [], rung := [], jobs := [], tlb := [] }

/-- A front's state for a context (R355). -/
def Front.reset : Front :=
  { draw := 0, next := 0, gen := 0, done := [], held := [], desc := none, out := [], block := [], turn := 0, zbs := [], rung := 0 }

def MethodRegs.reset : MethodRegs := { applied := 0, refused := 0, rtraps := 0 }

/-- A port after reset (log entry 7). -/
def Port.reset : Port :=
  { up := false, txSeq := 0, rxSeq := 0, replay := [], naks := 0, nakSeq := 0, retrains := [], training := false,
    closed := false }

/-- A die after reset (R403; log entry 137). -/
def Die.reset : Die :=
  { tel := 0, govw := 0, govs := 0, gove := 0, hot := false, winAt := 0, beyond := 0, plane := false, saw := false, cards := 0,
    work := 0, formed := [], runs := false, begun := 0, ended := 0 }

/-- A key slot after reset, slots 1 to 63 (log entry 7). -/
def KeySlot.reset : KeySlot := { st := .empty, key := 0, next := 0, cursor := 0, part := 0 }

/-- The package. `agenda`, `turn`, `patience`, `free`, `cur`, `recq` and `stall` are the model's own (log entries 1 and 8): `stall` is set
while a move meets a request that must wait, and the move is then not made. -/
structure State where
  agenda : List Move
  turn : Nat
  patience : Nat
  free : Nat
  cur : Cur
  recq : List RecReq
  stall : Bool
  tick : BitVec 64
  pkc : BitVec 64
  stopped : Bool
  nodeLocked : Bool
  parts : SMap Partition
  ctxs : SMap Context
  clusters : SMap Cluster
  cores : SMap Core
  regst : SMap RState
  dirOrder : List Nat
  splitOrder : List Nat
  sidx : SMap Nat
  holdOrder : List (Nat × Nat)
  l2 : SMap L2Line
  hbm : Memory
  host : Memory
  mcache : SMap MRow
  root : SMap Tree
  rowsKept : SMap Bool
  failedRows : List Nat
  failedEngines : List Nat
  keys : SMap KeySlot
  sealInits : Nat
  frr : SMap (BitVec 64)
  walkers : SMap (List WalkEnt)
  fired : List Fired
  nextJob : Nat
  nmuQ : SMap (List Record)
  prims : List (Nat × Prim)
  fronts : SMap Front
  rings : List Ring
  fifos : List Fifo
  parked : List Post
  progs : List Prog
  fences : List Fence
  tmeths : List Tmeth
  nextSeq : Nat
  mregs : SMap MethodRegs
  ports : SMap Port
  streams : List Stream
  asks : List Ask
  discarded : BitVec 64
  hdm : SMap (BitVec 64)
  ideFailed : Bool
  cxlDown : Bool
  sessions : List Session
  spdmOut : List (BitVec 8)
  snoop : List Nat
  cacheLines : SMap Bool
  privWords : SMap Bool
  hostData : List LWord
  dies : SMap Die
  life : SMap (BitVec 64)
  log : SMap (BitVec 128)
  logCount : BitVec 64
  obsc : BitVec 64
  stt : BitVec 64
  snt : BitVec 64
  latchAt : Option (BitVec 64)
  shadows : SMap (BitVec 64)
  counts : SMap (BitVec 64)
  dump : BitVec 64
  dumpb : BitVec 64
  heldFlits : List HeldFlit
  dumpFlits : Nat
  readOut : BitVec 64
  deriving DecidableEq, Repr

/-- The package right after reset (R402: state RAILS; log entries 1, 5, 6 and 7). -/
def State.reset : State :=
  { agenda := [], turn := 0, patience := 0, free := 0, cur := ⟨0, 0, 0, []⟩, recq := [], stall := false, tick := 0, pkc := 0, stopped := false, nodeLocked := false, parts := [], ctxs := [],
    clusters := [], cores := [], regst := [], dirOrder := [], splitOrder := [], sidx := [], holdOrder := [], l2 := [], hbm := [],
    host := [], mcache := [], root := [], rowsKept := [], failedRows := [], failedEngines := [], keys := [(0, { KeySlot.reset with st := .active })],
    sealInits := 0, frr := [], walkers := [], fired := [], nextJob := 0, nmuQ := [], prims := [], fronts := [], rings := [],
    fifos := [], parked := [], progs := [], fences := [], tmeths := [], nextSeq := 0, mregs := [], ports := [], streams := [], asks := [],
    discarded := 0, hdm := [], ideFailed := false, cxlDown := false, sessions := [], spdmOut := [], snoop := [], cacheLines := [], privWords := [], hostData := [],
    dies := [], life := [], log := [], logCount := 0, obsc := 0, stt := 0, snt := 0, latchAt := none, shadows := [],
    counts := [], dump := 0, dumpb := 0, heldFlits := [], dumpFlits := 0, readOut := 0 }

end Sys2Proof.Machine
end

