-- ==== Sys2Proof/Machine/Access.lean ====
section
/-!
DEFINITION. The named reads and writes of the state: parts by number, registers of a core, L1 words, counters and free values.
-/

namespace Sys2Proof.Machine

/-- Numbers of contexts: context c of partition p is 16p + c (R6, R320). -/
def partOf (cx : Nat) : Nat := cx / 16

def State.ctx (s : State) (cx : Nat) : Context := SMap.get Context.reset s.ctxs cx
def State.setCtx (s : State) (cx : Nat) (c : Context) : State := { s with ctxs := SMap.set Context.reset s.ctxs cx c }
def State.part (s : State) (p : Nat) : Partition := SMap.get Partition.reset s.parts p
def State.setPart (s : State) (p : Nat) (x : Partition) : State := { s with parts := SMap.set Partition.reset s.parts p x }
def State.core (s : State) (r : Nat) : Core := SMap.get Core.reset s.cores r
def State.setCore (s : State) (r : Nat) (c : Core) : State := { s with cores := SMap.set Core.reset s.cores r c }
def State.cluster (s : State) (k : Nat) : Cluster := SMap.get Cluster.reset s.clusters k
def State.setCluster (s : State) (k : Nat) (c : Cluster) : State := { s with clusters := SMap.set Cluster.reset s.clusters k c }
def State.front (s : State) (die cx : Nat) : Front := SMap.get Front.reset s.fronts (die * 320 + cx)
def State.setFront (s : State) (die cx : Nat) (f : Front) : State :=
  { s with fronts := SMap.set Front.reset s.fronts (die * 320 + cx) f }
def State.key (s : State) (k : Nat) : KeySlot := SMap.get KeySlot.reset s.keys k
def State.setKey (s : State) (k : Nat) (x : KeySlot) : State := { s with keys := SMap.set KeySlot.reset s.keys k x }
def State.port (s : State) (p : Nat) : Port := SMap.get Port.reset s.ports p
def State.setPort (s : State) (p : Nat) (x : Port) : State := { s with ports := SMap.set Port.reset s.ports p x }
def State.die (s : State) (d : Nat) : Die := SMap.get Die.reset s.dies d
def State.setDie (s : State) (d : Nat) (x : Die) : State := { s with dies := SMap.set Die.reset s.dies d x }
def State.mreg (s : State) (m : Nat) : MethodRegs := SMap.get MethodRegs.reset s.mregs m
def State.setMreg (s : State) (m : Nat) (x : MethodRegs) : State := { s with mregs := SMap.set MethodRegs.reset s.mregs m x }

/-- A core changed by a function. -/
def State.onCore (s : State) (r : Nat) (f : Core → Core) : State := s.setCore r (f (s.core r))

/-- A context changed by a function. -/
def State.onCtx (s : State) (cx : Nat) (f : Context → Context) : State := s.setCtx cx (f (s.ctx cx))

/-- The states of bring-up (R401): `state` of PKC. -/
def State.pkcState (s : State) : Nat := nbits s.pkc.toNat 3 0

/-- The package is in normal operation: READY (R402), with its clocks running (R477). -/
def State.running (s : State) : Bool := s.pkcState == 5 && !s.stopped

/-- A fresh free value (log entry 8). -/
def State.fresh (s : State) : Word × State := (Config.freeWord s.free, { s with free := s.free + 1 })

/-- Free words, good ones (log entry 8). -/
def State.freshGood (s : State) : Nat → State × List LWord
  | 0 => (s, [])
  | n + 1 =>
    let (v, s) := s.fresh
    let (s, l) := s.freshGood n
    (s, .good v :: l)

/-- A move that meets a request that must wait is not made: the request stays in its line's queue (R109; log entry 1). -/
def State.wait (s : State) : State := { s with stall := true }

/-- What is done unless it meets a request that must wait (R109). -/
def State.unlessWait (s : State) (f : State → State) : State :=
  let t := f s
  if t.stall then s else t

/-- A counter that a snapshot reads (R478), by its 8-byte word from 0x8_0000. -/
def State.count (s : State) (w : Nat) (n : Nat) : State :=
  { s with counts := SMap.set 0 s.counts w (SMap.get 0 s.counts w + BitVec.ofNat 64 n) }

/-- A lifetime counter (R404), by its 8-byte word from 0x5_0000. -/
def State.bumpLife (s : State) (w : Nat) (n : Nat) : State :=
  { s with life := SMap.set 0 s.life w (SMap.get 0 s.life w + BitVec.ofNat 64 n) }

/-- An entry of the event log (R485): die, event, and a number. -/
def State.logEvent (s : State) (die event n : Nat) : State :=
  { s with log := SMap.put s.log (s.logCount.toNat % 64)
             (BitVec.ofNat 128 (s.tick.toNat + die % 256 * 2 ^ 64 + event * 2 ^ 72 + n % 2 ^ 32 * 2 ^ 80)),
           logCount := s.logCount + 1 }

/-- A snapshot is triggered (R478): it is latched at the first multiple of 64 that is at least 64 ticks away; triggers before it merge. -/
def State.trigger (s : State) : State :=
  if s.latchAt.isSome then s else { s with latchAt := some (BitVec.ofNat 64 (ceilDiv (s.tick.toNat + 64) 64 * 64)) }

/-- A machine check triggers a snapshot where `tmc` asks for it (R476, R478). -/
def State.checkTrigger (s : State) : State := if s.obsc.getLsbD 5 then s.trigger else s

/-- The snapshot words of R478. -/
def cntCore (c k : Nat) : Nat := 0x2000 + 8 * c + k
def cntBank (b k : Nat) : Nat := 0x5000 + 4 * b + k
def cntSeal (e k : Nat) : Nat := 0x5800 + 4 * e + k
def cntPort (p k : Nat) : Nat := 0x6000 + 4 * p + k

/-- Runners: cores, then NMUs and method units by their owner codes (R106). -/
def isCore (r : Nat) : Bool := decide (r < 1536)
def nmuOf (r : Nat) : Option Nat := if 0x800 ≤ r ∧ r < 0xA00 then some (r - 0x800) else none
def methodOf (r : Nat) : Option Nat := if 0xA00 ≤ r ∧ r < 0xC00 then some (r - 0xA00) else none

/-- The cluster and the die of a core (R6). -/
def clusterOf (c : Nat) : Nat := c / 12
def dieOf (c : Nat) : Nat := c / 192

/-- The die a runner belongs to. -/
def runnerDie (r : Nat) : Nat := if isCore r then dieOf r else (r % 0x200) / 64

/-- The cluster that an NMU's or method unit's records go to (R340), by the unit's number. -/
def unitCluster (u : Nat) : Nat := 16 * (u / 64) + u % 16

/-- The quarter of a spindle slot 16q + j, and the first row of the quarter (R14). -/
def quarterOf (slot : Nat) : Nat := slot / 16
def quarterRow (q : Nat) : Nat := 512 * q

/-- A register-file word by absolute row and lane. -/
def Core.row (c : Core) (row lane : Nat) : LWord := SMap.get (.good 0) c.rows (row * 32 + lane)

/-- A register-file word written. -/
def Core.setRow (c : Core) (row lane : Nat) (v : LWord) : Core :=
  { c with rows := SMap.set (.good 0) c.rows (row * 32 + lane) v }

/-- Register vk of a fibre (R48, R166): v0 reads 0. -/
def Core.reg (c : Core) (base k lane : Nat) : LWord := if k = 0 then .good 0 else c.row (base + k) lane

/-- Register vk written (R166): a write to v0 is discarded, and v1 keeps its bit 0 at 1. -/
def Core.setReg (c : Core) (base k lane : Nat) (v : LWord) : Core :=
  if k = 0 then c
  else if k = 1 then
    c.setRow (base + 1) lane (match v with
      | .good w => .good (w ||| 1)
      | w => w)
  else c.setRow (base + k) lane v

/-- The two words of a pair (R138), the low word first. -/
def Core.pairAt (c : Core) (base k lane : Nat) : LWord × LWord := (c.reg base k lane, c.reg base (k + 1) lane)

/-- Two words as a 64-bit value; none when either is poison. -/
def pairVal (lo hi : LWord) : Option DWord :=
  if lo.isPoison || hi.isPoison then none else some (pair64 lo.val hi.val)

/-- Flags ORed into a v1 word, bits 27 to 31 (R143). A poisoned v1 stays poison. -/
def orFlags (v1 : LWord) (f : BitVec 5) : LWord :=
  match v1 with
  | .good w => .good (w ||| (f.setWidth 32 <<< 27))
  | w => w

/-- One bit of a v1 word written (R215). A poisoned v1 stays poison. -/
def setBit (v1 : LWord) (i : Nat) (b : Bool) : LWord :=
  match v1 with
  | .good w => .good (if b then w ||| bitMask i else w &&& ~~~ bitMask i)
  | w => w

/-- A scratchpad word by absolute word number (R68). -/
def Core.scr (c : Core) (w : Nat) : LWord := SMap.get (.good 0) c.scratch w
def Core.setScr (c : Core) (w : Nat) (v : LWord) : Core := { c with scratch := SMap.set (.good 0) c.scratch w v }

/-- Scratchpad words set to zero (R43). -/
def Core.zeroScr (c : Core) (from_ n : Nat) : Core :=
  { c with scratch := c.scratch.filter fun e => !(decide (from_ ≤ e.1) && decide (e.1 < from_ + n)) }

/-- Rows set to zero. -/
def Core.zeroRows (c : Core) (from_ n : Nat) : Core :=
  { c with rows := c.rows.filter fun e => !(decide (from_ * 32 ≤ e.1) && decide (e.1 < (from_ + n) * 32)) }

/-- The bytes of a word, or poison. -/
def wordBytes (v : Word) : List Byte := toBytes 4 v.toNat

/-- A word with n bytes from byte `low` replaced by bytes of `data` (R80): all four bytes make a good word; fewer leave a
poisoned word poison. Poisoned data makes the word poison. -/
def mergeBytes (old : LWord) (low n : Nat) (data : LWord) : LWord :=
  match data with
  | .poison => .poison
  | d =>
    if n = 4 then .good d.val
    else match old with
      | .poison => .poison
      | o =>
        let m := (2 ^ (8 * n) - 1) * 2 ^ (8 * low)
        let keep : Nat := o.val.toNat - (o.val.toNat &&& m)
        .good (BitVec.ofNat 32 (keep + (d.val.toNat % 2 ^ (8 * n)) * 2 ^ (8 * low)))

/-- n bytes of a word from byte `low`, extended (R165, R297). -/
def extractBytes (v : LWord) (low n : Nat) (sext : Bool) : LWord :=
  match v with
  | .poison => .poison
  | d =>
    let x := (d.val.toNat >>> (8 * low)) % 2 ^ (8 * n)
    .good (if sext then BitVec.ofNat 32 (modPow 32 (sextInt (8 * n) x)) else BitVec.ofNat 32 x)

/-- Four bytes of scratchpad at an absolute byte offset of any alignment (R319): poison where a word that they lie in is poison. -/
def Core.scrAt (c : Core) (b : Nat) : LWord :=
  if b % 4 = 0 then c.scr (b / 4)
  else match c.scr (b / 4), c.scr (b / 4 + 1) with
    | .poison, _ => .poison
    | _, .poison => .poison
    | lo, hi => .good (BitVec.ofNat 32 ((lo.val.toNat + 2 ^ 32 * hi.val.toNat) >>> (8 * (b % 4))))

/-- n bytes, at most four, written to scratchpad in place at an absolute byte offset of any alignment (R80, R319). -/
def Core.putScrAt (c : Core) (b n : Nat) (v : LWord) : Core :=
  let low := b % 4
  let here := min n (4 - low)
  let c := c.setScr (b / 4) (mergeBytes (c.scr (b / 4)) low here v)
  if n ≤ here then c
  else
    let rest : LWord := match v with
      | .poison => .poison
      | v => .good (v.val >>> (8 * here))
    c.setScr (b / 4 + 1) (mergeBytes (c.scr (b / 4 + 1)) 0 (n - here) rest)

/-- An L1 word, by word number (R103). -/
def Core.l1At (c : Core) (w : Nat) : Option L1Word := SMap.find c.l1 w
def Core.l1Put (c : Core) (w : Nat) (v : L1Word) : Core := { c with l1 := SMap.put c.l1 w v }
def Core.l1Drop (c : Core) (w : Nat) : Core := { c with l1 := SMap.erase c.l1 w }

/-- What an L1 line carries (R103, R448). -/
def Core.lineInfo (c : Core) (line : Nat) : L1Line := SMap.get ⟨0, 0⟩ c.lines line
def Core.setLine (c : Core) (line : Nat) (l : L1Line) : Core := { c with lines := SMap.set ⟨0, 0⟩ c.lines line l }

/-- The spindle in a slot. -/
def Core.spindle (c : Core) (slot : Nat) : Option Spindle := SMap.find c.spindles slot
def Core.setSpindle (c : Core) (slot : Nat) (sp : Spindle) : Core := { c with spindles := SMap.put c.spindles slot sp }
def Core.wg (c : Core) (g : Nat) : Option Workgroup := SMap.find c.wgs g
def Core.setWg (c : Core) (g : Nat) (w : Workgroup) : Core := { c with wgs := SMap.put c.wgs g w }

/-- A spindle changed by a function, where there is one. -/
def Core.onSpindle (c : Core) (slot : Nat) (f : Spindle → Spindle) : Core :=
  match c.spindle slot with
  | some sp => c.setSpindle slot (f sp)
  | none => c

/-- A workgroup changed by a function, where there is one. -/
def Core.onWg (c : Core) (g : Nat) (f : Workgroup → Workgroup) : Core :=
  match c.wg g with
  | some w => c.setWg g (f w)
  | none => c

/-- A fibre's frame among the frames of its spindle: the innermost one that holds its lane (R274). -/
def Spindle.frameOf (sp : Spindle) (lane : Nat) : Option Frame := (sp.frames.filter fun f => f.members.getLsbD lane).getLast?

/-- The chain of frames of a lane, the innermost first. -/
def Spindle.chain (sp : Spindle) (lane : Nat) : List Frame := (sp.frames.filter fun f => f.members.getLsbD lane).reverse

/-- The non-empty lanes of a spindle. -/
def Spindle.occupied (sp : Spindle) : Word := maskOf (sp.fibres.map Prod.fst)

/-- Fields of a context's registers (R58, R382, R423). -/
def Context.ks (c : Context) : Nat := nbits c.ctxc.toNat 5 0
def Context.pri (c : Context) : Nat := nbits c.ctxc.toNat 8 6
def Context.sysc (c : Context) : Bool := nbit c.ctxc.toNat 9
def Context.own (c : Context) : Bool := nbit c.ctxc.toNat 10
def Context.slenReg (c : Context) : Nat := nbits c.ctxc.toNat 42 11
def Context.entry (c : Context) : Nat := c.trv.toNat / 512 * 512
def Context.hz (c : Context) : Bool := nbit c.trv.toNat 8
def Context.hrows (c : Context) : Nat := c.trv.toNat % 256 + 1
def Context.ringBase (c : Context) : Nat := c.frb.toNat / 4096 * 4096
def Context.ringCap (c : Context) : Nat := 2 ^ (c.frb.toNat % 16 + 4)
def Context.spill (c : Context) : Nat := c.spb.toNat / 2 ^ 17 * 2 ^ 17
def Context.privSize (c : Context) : Nat := 16 * (c.pvs.toNat % 65536)
def Context.queueBase (c : Context) : Nat := c.qrb.toNat / 65536 * 65536
def Context.queueLen (c : Context) : Nat := 2 ^ (c.qrb.toNat % 16 + 8)

/-- The length of a context's next slice (R352, R459). -/
def Context.sliceLen (c : Context) : Nat := c.slen.getD c.slenReg

/-- Whether the host cannot be reached: its link failed integrity (R458), or its port was reported down (R402; log entry 138). -/
def State.hostOff (s : State) : Bool := s.ideFailed || s.cxlDown

/-- Whether a context is current (R459): its partition is enabled and not held, and it is a background context or holds the slice. -/
def State.current (s : State) (cx : Nat) : Bool :=
  (s.part (partOf cx)).en && !(s.part (partOf cx)).held && ((s.ctx cx).slenReg == 0 || (s.part (partOf cx)).holder == some (cx % 16))

/-- A record made by an agent other than a fibre (R425): the fields of a fibre are 0. -/
def agentRec (cx act kind : Nat) (info addr pc : Nat) : RecReq :=
  ⟨cx, act, kind, BitVec.ofNat 64 info, BitVec.ofNat 64 addr, BitVec.ofNat 64 pc, 0, 0, 0, 0, 0, 0, 0, 0, []⟩

/-- A fault record asked for by an agent that is no fibre (R425, R438, R439). -/
def State.note (s : State) (cx act kind : Nat) (info addr pc : Nat) : State :=
  { s with recq := s.recq ++ [agentRec cx act kind info addr pc] }

/-- A fault record of an agent about work of a launch: with its sequence number, its WID, and the core concerned (R425). -/
def State.noteWork (s : State) (cx kind : Nat) (info addr pc lseq core : Nat) (wid : BitVec 64) : State :=
  { s with recq := s.recq ++ [{ agentRec cx 3 kind info addr pc with lseq := lseq, core := core, wid := wid }] }

/-- The records made since there were n of them name the launch and the workgroup that they are made for (R425). -/
def State.madeFor (s : State) (n lseq : Nat) (wid : BitVec 64) : State :=
  { s with recq := s.recq.take n ++ (s.recq.drop n).map fun r => { r with lseq := lseq, wid := wid } }

/-- The partition that owns an HBM or host-window address, by its home bank (R439), among those enabled. -/
def State.partOfBank (s : State) (bank : Nat) : Option Nat :=
  (List.range 20).find? fun p => (s.part p).en && (s.part p).pcg.getLsbD bank

/-- The context whose ring takes a record that no context's access caused (R439). -/
def State.sysCtx (s : State) (p : Nat) : Option Nat :=
  ((List.range 16).map (16 * p + ·)).find? fun cx => (s.ctx cx).sysc

/-- A record for the context of an access, or for the partition of a bank when there is none (R439). -/
def State.noteFor (s : State) (who : Option Nat) (bank kind info addr : Nat) : State :=
  match who with
  | some cx => s.note cx 3 kind info addr 0
  | none =>
    match s.partOfBank bank with
    | none => s
    | some p => match s.sysCtx p with
      | none => s
      | some cx => s.note cx 3 kind info addr 0

/-- Whether a die withholds some issue (R21, R22, R398, R399). -/
def Die.withholds (d : Die) : Bool := d.hot || d.beyond != 0 || d.plane

/-- What a withholding interval of a die makes of its state: it begins or ends at this tick (R403, R485). Its registers show it from
the end of the window. -/
def State.govern (s : State) (die : Nat) : State :=
  let d := s.die die
  let amps := nbits d.tel.toNat 47 32
  if d.withholds && !d.runs then
    (s.setDie die { d with runs := true, saw := true, begun := s.tick }).logEvent die 1 amps
  else if !d.withholds && d.runs then (s.setDie die { d with runs := false, ended := s.tick }).logEvent die 2 amps
  else s

/-- A change of what a die withholds. -/
def State.onDie (s : State) (die : Nat) (f : Die → Die) : State := (s.setDie die (f (s.die die))).govern die

/-- Whether the issue of a partition on a die is withheld: on the whole die while it is hot (R399), and of a partition beyond its
share of the power allowance (R398). -/
def State.withheldAt (s : State) (die part : Nat) : Bool := (s.die die).hot || (s.die die).beyond.getLsbD part

/-- Whether a runner's issue is withheld (R22, R398, R399): a core of its partition, or a method unit of a hot die. -/
def State.withheldRunner (s : State) (r : Nat) : Bool :=
  if isCore r then
    (s.die (dieOf r)).hot || (List.range 20).any fun p => (s.die (dieOf r)).beyond.getLsbD p && (s.part p).en && (s.part p).clm.getLsbD (clusterOf r)
  else (nmuOf r).isNone && (s.die (runnerDie r)).hot

/-- The clusters of an enabled partition on a die. -/
def State.clustersOn (s : State) (die part : Nat) : Nat :=
  if (s.part part).en then ((List.range 16).filter fun k => (s.part part).clm.getLsbD (16 * die + k)).length else 0

/-- Half of the bit-products that the 384 plane engines of a die form in a window (R20, R21). -/
def dieHalf : Nat := 384 * 262144 * 1800000 / 2

/-- A partition's share of that half, by its clusters on the die (R398). -/
def State.planeShare (s : State) (die part : Nat) : Nat :=
  dieHalf * s.clustersOn die part / ((List.range 20).map (s.clustersOn die)).sum

/-- Whether a partition's engines would exceed their share with q more bit-products, in a window whose cards have a mean below 4
(R21, R398; log entry 137). -/
def State.planeOver (s : State) (die part q : Nat) : Bool :=
  let d := s.die die
  d.cards != 0 && decide (d.work < 4 * d.cards) && decide (s.planeShare die part < SMap.get 0 d.formed part + q)

end Sys2Proof.Machine
end

