-- ==== Sys2Proof/Machine/Operands.lean ====
section
/-!
DEFINITION. The issue of a word by a batch: its context, its guard, every operand form, and which registers a word names
(spec/08_encoding.md R158 to R169, spec/07_numbers.md R138).
-/

namespace Sys2Proof.Machine

/-- What a word meets when its batch issues it (R46, R52): runner, slot, the lanes that go on, the whole batch, the lanes
whose guard is true, PC, window base and frame size, `SEG.size`, workgroup, context, length in words, S, literal, words, TICK. -/
structure Iss where
  core  : Nat
  slot  : Nat
  lanes : Word
  batch : Word
  gt    : Word
  pc    : BitVec 64
  base  : Nat
  rows  : Nat
  seg   : Nat
  wg    : Nat
  cx    : Nat
  len   : Nat
  mark  : Bool
  lit   : BitVec 64
  words : List Nat
  tick  : BitVec 64
  deriving DecidableEq, Repr

/-- The lane that a pattern reads for lane i (R168). -/
def patLane (p : Pat) (seg i : Nat) : Nat :=
  let z := 2 ^ seg
  let s0 := i - i % z
  match p with
  | .ident => i
  | .rot k => (i + k.toNat) % 32
  | .bc k => k.toNat
  | .bfly k => i ^^^ k.toNat
  | .mir k => i ^^^ (2 ^ (min k.toNat seg) - 1)
  | .srot k => s0 + (i - s0 + k.toNat) % z

/-- A 32-bit source in lane i (R160, R161, R163, R168). -/
def srcWord (c : Core) (x : Iss) (s : Src) (i : Nat) : LWord :=
  match s with
  | .reg r p => c.reg x.base r.toNat (patLane p x.seg i)
  | .imm6 v => .good (v.setWidth 32)
  | .imm12 v => .good (v.signExtend 32)
  | .imm12hi v => .good (v.setWidth 32 <<< 20)
  | .off18 v => .good (v.signExtend 32)
  | .lit => .good (lo32 x.lit)
  | .litHi => .good (hi32 x.lit)

/-- A 64-bit source in lane i, the low word first (R138, R161, R169; log entry 13 for `litHi`). -/
def srcPair (c : Core) (x : Iss) (s : Src) (i : Nat) : LWord × LWord :=
  match s with
  | .reg r p => c.pairAt x.base r.toNat (patLane p x.seg i)
  | .lit => (.good (lo32 x.lit), .good (hi32 x.lit))
  | s => (srcWord c x s i, .good 0)

/-- A 64-bit source as a value; none when it is poison. -/
def srcVal64 (c : Core) (x : Iss) (s : Src) (i : Nat) : Option DWord :=
  let p := srcPair c x s i
  pairVal p.1 p.2

/-- A 32-bit source as a value; none when it is poison. -/
def srcVal (c : Core) (x : Iss) (s : Src) (i : Nat) : Option Word :=
  match srcWord c x s i with
  | .poison => none
  | w => some w.val

/-- The guard in a lane (R167); none when it reads a poisoned v1. -/
def guardAt (c : Core) (base : Nat) (g : Guard) (lane : Nat) : Option Bool :=
  if g.idx = 0 then some (!g.neg)
  else match c.reg base 1 lane with
    | .poison => none
    | w => some (w.val.getLsbD g.idx.toNat != g.neg)

/-- The number of registers that data of a size fills (R165, R294). -/
def sizeRegs : Size → Nat
  | .b64 => 2
  | .b128 => 4
  | _ => 1

/-- The number of registers a destination field covers (R165, R166, R294, R300). -/
def viewDRegs (v : View) : Nat :=
  match v.mods with
  | .m m =>
    let op := if v.major = 0x52 then v.minor else if v.major = 0x5C ∨ v.major = 0x53 then xf m.x 5 2 else 0
    match (shapeOf v.major v.minor).d with
    | .data => if op = 7 then 2 * sizeRegs m.sz else sizeRegs m.sz
    | .word => 1
    | _ => 0
  | .t m => if m.dtype.is64 then 2 else 1
  | _ =>
    if v.major = 0x7C then (if v.minor = 0 then (match v.mods with
      | .c x => if sreg64 x.toNat then 2 else 1
      | _ => 1) else 0)
    else match (shapeOf v.major v.minor).d with
      | .zero => 0
      | .word | .notV1 | .data => 1
      | .pair => 2
      | .quad => 4

/-- Whether the destination field of a major is read as data (R165, R304, R305, R375, R376). -/
def dIsSource (major : Nat) : Bool :=
  major == 0x51 || major == 0x52 || major == 0x53 || major == 0x55 || major == 0x56 || major == 0x59 || major == 0x5B ||
    major == 0x5C || major == 0x5E || major == 0x5F

/-- Whether the destination field of a major is written. -/
def dIsDest (major : Nat) : Bool :=
  !(major == 0x51 || major == 0x53 || major == 0x55 || major == 0x56 || major == 0x59 || major == 0x5B || major == 0x5E ||
    major == 0x5F)

/-- The registers of a source operand with their pattern. -/
def srcRegs (wide : Bool) : Src → List (Nat × Pat)
  | .reg r p => if wide then [(r.toNat, p), (r.toNat + 1, p)] else [(r.toNat, p)]
  | _ => []

/-- Whether source a is a pair whatever the shape says (R250, R347). -/
def aIsPair (v : View) : Bool :=
  match v.mods with
  | .t m => m.stype.is64
  | .c x => v.major == 0x7C && v.minor == 1 && sreg64 x.toNat
  | _ => false

/-- The registers a word reads, with their patterns (R166, R169). -/
def regReads (i : Instr) : List (Nat × Pat) :=
  match i with
  | .pair _ sa sb => (sa.sources ++ sb.sources).map fun r => (r.toNat, .ident)
  | i => match i.view with
    | none => []
    | some v =>
      let sh := shapeOf v.major v.minor
      srcRegs (sh.a == .pair || aIsPair v) v.o.a ++ srcRegs (sh.b == .pair) v.o.b ++ srcRegs (sh.c == .pair) v.o.c ++
        (if dIsSource v.major then (List.range (viewDRegs v)).map fun k => (v.o.d.toNat + k, .ident) else [])

/-- The registers a word writes (R166). -/
def regWrites (i : Instr) : List Nat :=
  match i with
  | .pair _ sa sb => [sa.d.toNat, sb.d.toNat]
  | i => match i.view with
    | none => []
    | some v => if dIsDest v.major then (List.range (viewDRegs v)).map fun k => v.o.d.toNat + k else []

/-- The header of a word. -/
def hdrOf (i : Instr) : Hdr :=
  match i with
  | .pair h _ _ => h
  | i => match i.view with
    | some v => v.h
    | none => ⟨.base, .always, false, 0⟩

/-- Whether a word reads v1 besides its guard and its source registers: a carry, a combined predicate, a selection, or the
copies of R51. -/
def readsV1 (i : Instr) : Bool :=
  match i with
  | .addAddc .. => true
  | .subSubb .. => true
  | .cmp _ _ m => xf m.x 9 8 != 0
  | .cmp64 _ _ m => xf m.x 9 8 != 0
  | .fcmp _ _ m => xf m.x 9 8 != 0
  | .dcmp _ _ m => xf m.x 9 8 != 0
  | .sel .. => true
  | _ => false

/-- Whether a word reads bits 31 to 27 of v1 otherwise than as a source register (R434). -/
def readsFlags (i : Instr) : Bool :=
  decide (27 ≤ (hdrOf i).guard.idx.toNat) ||
  match i with
  | .sel _ _ m => decide (27 ≤ xf m.x 4 0)
  | .call .. => true
  | .calli .. => true
  | .ret .. => true
  | .unwind .. => true
  | .sysRte .. => true
  | _ => false

end Sys2Proof.Machine
end

