-- ==== Sys2Proof/Machine/Flags.lean ====
section
/-!
DEFINITION. What a word writes in one lane: registers, a bit of v1, sticky flags (spec/07_numbers.md R143, R147,
spec/08_encoding.md R166, R176, spec/10_integer.md R211, R212, R215).
-/

namespace Sys2Proof.Machine

/-- The writes of a word in one lane: registers by number, then one bit of v1 (a poisoned bit poisons v1, R212), then flags
ORed into v1 (R166). -/
structure LaneEffect where
  regs  : List (Nat × LWord)
  bit   : Option (Nat × Option Bool)
  flags : BitVec 5
  deriving DecidableEq, Repr

/-- A bit of v1 set, or the whole word poisoned (R212, R215). -/
def putBit (v1 : LWord) (k : Nat) (b : Option Bool) : LWord :=
  match b with
  | some b => setBit v1 k b
  | none => .poison

/-- The writes of one lane made in the register file. -/
def Core.applyLane (c : Core) (base lane : Nat) (e : LaneEffect) : Core :=
  let c := e.regs.foldl (fun c w => c.setReg base w.1 lane w.2) c
  let c := match e.bit with
    | none => c
    | some (k, b) => c.setRow (base + 1) lane (putBit (c.row (base + 1) lane) k b)
  if e.flags = 0 then c else c.setRow (base + 1) lane (orFlags (c.row (base + 1) lane) e.flags)

/-- One register written, with no other effect. -/
def LaneEffect.word (d : BitVec 8) (v : LWord) : LaneEffect := ⟨[(d.toNat, v)], none, 0⟩

/-- One register written, and flags raised when the value is good (R147). -/
def LaneEffect.flagged (d : BitVec 8) (v : LWord) (f : BitVec 5) : LaneEffect := ⟨[(d.toNat, v)], none, f⟩

/-- A pair of registers written. -/
def LaneEffect.wide (d : BitVec 8) (v : Option DWord) (f : BitVec 5) : LaneEffect :=
  match v with
  | some v => ⟨[(d.toNat, .good (lo32 v)), (d.toNat + 1, .good (hi32 v))], none, f⟩
  | none => ⟨[(d.toNat, .poison), (d.toNat + 1, .poison)], none, 0⟩

/-- A word that is good where a value exists and poison otherwise. -/
def goodOr (v : Option Word) : LWord :=
  match v with
  | some v => .good v
  | none => .poison

/-- The width of an integer type, and whether it is signed (R137, R211). -/
def tyBits : Ty → Nat
  | .i8 | .n8 => 8
  | .i16 | .n16 => 16
  | .i64 | .n64 => 64
  | _ => 32

def tySigned : Ty → Bool
  | .i8 | .i16 | .i32 | .i64 => true
  | _ => false

/-- A lane-word read as an integer type (R211: Src). -/
def intSrc (t : Ty) (x : Nat) : Int := if tySigned t then sextInt (tyBits t) x else (x % 2 ^ tyBits t : Nat)

/-- The bounds of an integer type (R138). -/
def intLo (t : Ty) : Int := if tySigned t then -(2 ^ (tyBits t - 1) : Nat) else 0
def intHi (t : Ty) : Int := if tySigned t then (2 ^ (tyBits t - 1) : Nat) - 1 else (2 ^ tyBits t : Nat) - 1

/-- An exact integer clamped to a type. -/
def intClamp (t : Ty) (v : Int) : Int := min (max v (intLo t)) (intHi t)

/-- An exact integer as a lane-word of a type (R211: Res). -/
def intRes (t : Ty) (sat : Bool) (v : Int) : Word :=
  let v := if sat then intClamp t v else v
  BitVec.ofInt 32 (intSrc t (modPow (tyBits t) v))

/-- An exact integer as a 64-bit pair of a type (R234: Res64). -/
def intRes64 (t : Ty) (sat : Bool) (v : Int) : DWord := BitVec.ofInt 64 (if sat then intClamp t v else v)

/-- The 64-bit type whose signedness a type sets (R234). -/
def ty64 (t : Ty) : Ty := if tySigned t then .i64 else .n64

/-- A predicate combined with its old value (R229: `bop`). -/
def combineBit (bop : Nat) (old r : Bool) : Bool :=
  match bop with
  | 0 => r
  | 1 => old && r
  | 2 => old || r
  | _ => old != r

/-- What a compare writes (R229, R237, R246): a mask in d and, with `pd`, a bit of v1. `r` is none when an operand is poison. -/
def cmpEffect (d : BitVec 8) (x : BitVec 11) (v1 : LWord) (r : Option Bool) (f : BitVec 5) : LaneEffect :=
  let pd := xf x 7 3
  let bit : Option (Nat × Option Bool) :=
    if pd = 0 then none
    else some (pd, match r with
      | none => none
      | some r => some (combineBit (xf x 9 8) (v1.val.getLsbD pd) r))
  ⟨[(d.toNat, match r with
    | some r => .good (boolMask r)
    | none => .poison)], bit, match r with
    | some _ => f
    | none => 0⟩

end Sys2Proof.Machine
end

