-- ==== Sys2Proof/Machine/Crypto.lean ====
section
/-!
DEFINITION. The cipher and tags of spec/06_sealing.md R121 to R126: AES-256, counter mode, CMAC, the counter-mode KDF, and
the key unwrap of spec/14_engines.md R350. The algorithms are those of the standards the rules name (log entry 10).
-/

namespace Sys2Proof.Machine

/-- Multiplication by x in GF(2^8) with the polynomial of AES, of a byte as a number. -/
def xtimeNat (b : Nat) : Nat := Nat.xor (2 * b % 256) (b / 128 * 0x1B)

def xtime (b : Byte) : Byte := BitVec.ofNat 8 (xtimeNat b.toNat)

/-- Multiplication in GF(2^8) of a byte as a number by a constant below 16. -/
def gmul (k a : Nat) : Nat :=
  let a2 := xtimeNat a
  let a4 := xtimeNat a2
  let a8 := xtimeNat a4
  Nat.xor (Nat.xor (k % 2 * a) (k / 2 % 2 * a2)) (Nat.xor (k / 4 % 2 * a4) (k / 8 % 2 * a8))

/-- The substitution table of AES (FIPS 197, 5.1.1): one row of 16 bytes for each high digit, the low digit from the left. -/
def sboxRows : List Nat :=
  [0x637C777BF26B6FC53001672BFED7AB76, 0xCA82C97DFA5947F0ADD4A2AF9CA472C0, 0xB7FD9326363FF7CC34A5E5F171D83115,
   0x04C723C31896059A071280E2EB27B275, 0x09832C1A1B6E5AA0523BD6B329E32F84, 0x53D100ED20FCB15B6ACBBE394A4C58CF,
   0xD0EFAAFB434D338545F9027F503C9FA8, 0x51A3408F929D38F5BCB6DA2110FFF3D2, 0xCD0C13EC5F974417C4A77E3D645D1973,
   0x60814FDC222A908846EEB814DE5E0BDB, 0xE0323A0A4906245CC2D3AC629195E479, 0xE7C8376D8DD54EA96C56F4EA657AAE08,
   0xBA78252E1CA6B4C6E8DD741F4BBD8B8A, 0x703EB5664803F60E613557B986C11D9E, 0xE1F8981169D98E949B1E87E9CE5528DF,
   0x8CA1890DBFE6426841992D0FB054BB16]

/-- The inverse substitution table of AES (FIPS 197, 5.3.2). -/
def invSboxRows : List Nat :=
  [0x52096AD53036A538BF40A39E81F3D7FB, 0x7CE339829B2FFF87348E4344C4DEE9CB, 0x547B9432A6C2233DEE4C950B42FAC34E,
   0x082EA16628D924B2765BA2496D8BD125, 0x72F8F66486689816D4A45CCC5D65B692, 0x6C704850FDEDB9DA5E154657A78D9D84,
   0x90D8AB008CBCD30AF7E45805B8B34506, 0xD02C1E8FCA3F0F02C1AFBD0301138A6B, 0x3A9111414F67DCEA97F2CFCEF0B4E673,
   0x96AC7422E7AD3585E2F937E81C75DF6E, 0x47F11A711D29C5896FB7620EAA18BE1B, 0xFC563E4BC6D279209ADBC0FE78CD5AF4,
   0x1FDDA8338807C731B11210592780EC5F, 0x60517FA919B54A0D2DE57A9F93C99CEF, 0xA0E03B4DAE2AF5B0C8EBBB3C83539961,
   0x172B047EBA77D626E169146355210C7D]

/-- The entry of a table for a byte. -/
def tableAt (rows : List Nat) (a : Byte) : Byte := BitVec.ofNat 8 (rows.getD (a.toNat / 16) 0 / 256 ^ (15 - a.toNat % 16))

/-- The substitution of AES and its inverse. -/
def sbox (a : Byte) : Byte := tableAt sboxRows a
def invSbox (a : Byte) : Byte := tableAt invSboxRows a

/-- Bytes combined by exclusive OR. -/
def xorBytes (a b : List Byte) : List Byte := List.zipWith (· ^^^ ·) a b

/-- The next words of the key schedule of AES-256: n more, from the last eight. -/
def expandFrom : Nat → Nat → Byte → List (List Byte) → List (List Byte)
  | 0, _, _, acc => acc
  | n + 1, i, rc, acc =>
    let prev := acc.getD (i - 1) []
    let back := acc.getD (i - 8) []
    if i % 8 = 0 then
      let t := match prev with
        | b0 :: r => (r ++ [b0]).map sbox
        | [] => []
      let t := match t with
        | b0 :: r => (b0 ^^^ rc) :: r
        | [] => []
      expandFrom n (i + 1) (xtime rc) (acc ++ [xorBytes back t])
    else if i % 8 = 4 then expandFrom n (i + 1) rc (acc ++ [xorBytes back (prev.map sbox)])
    else expandFrom n (i + 1) rc (acc ++ [xorBytes back prev])

/-- A list cut into pieces of k elements, n of them. -/
def chunks {α : Type} : Nat → Nat → List α → List (List α)
  | 0, _, _ => []
  | n + 1, k, l => l.take k :: chunks n k (l.drop k)

/-- The fifteen round keys of AES-256, 16 bytes each. -/
def aesKeys (key : List Byte) : List (List Byte) :=
  chunks 15 16 (expandFrom 52 8 1 (chunks 8 4 key)).flatten

/-- The bytes of a state taken at the given places. -/
def pick (s : List Byte) (ix : List Nat) : List Byte := ix.map fun i => s.getD i 0

def shiftRows (s : List Byte) : List Byte := pick s [0, 5, 10, 15, 4, 9, 14, 3, 8, 13, 2, 7, 12, 1, 6, 11]

def invShiftRows (s : List Byte) : List Byte := pick s [0, 13, 10, 7, 4, 1, 14, 11, 8, 5, 2, 15, 12, 9, 6, 3]

/-- One column times a circulant of four bytes. -/
def mixColumn (c0 c1 c2 c3 : Nat) : List Byte → List Byte
  | [a, b, c, d] =>
    let row (k0 k1 k2 k3 : Nat) : Byte :=
      BitVec.ofNat 8 (Nat.xor (Nat.xor (gmul k0 a.toNat) (gmul k1 b.toNat)) (Nat.xor (gmul k2 c.toNat) (gmul k3 d.toNat)))
    [row c0 c1 c2 c3, row c3 c0 c1 c2, row c2 c3 c0 c1, row c1 c2 c3 c0]
  | l => l

def mixColumns (s : List Byte) : List Byte := ((chunks 4 4 s).map (mixColumn 2 3 1 1)).flatten

def invMixColumns (s : List Byte) : List Byte := ((chunks 4 4 s).map (mixColumn 14 11 13 9)).flatten

/-- The rounds of the cipher after the first key. -/
def aesRounds : List (List Byte) → List Byte → List Byte
  | [], s => s
  | [k], s => xorBytes (shiftRows (s.map sbox)) k
  | k :: ks, s => aesRounds ks (xorBytes (mixColumns (shiftRows (s.map sbox))) k)

/-- AES-256 on one 16-byte block. -/
def aesEnc (keys : List (List Byte)) (block : List Byte) : List Byte :=
  match keys with
  | [] => block
  | k :: ks => aesRounds ks (xorBytes block k)

/-- The rounds of the inverse cipher, with the round keys from the last to the first. -/
def aesInvRounds : List (List Byte) → List Byte → List Byte
  | [], s => s
  | [k], s => xorBytes ((invShiftRows s).map invSbox) k
  | k :: ks, s => aesInvRounds ks (invMixColumns (xorBytes ((invShiftRows s).map invSbox) k))

/-- The inverse of AES-256 on one block. -/
def aesDec (keys : List (List Byte)) (block : List Byte) : List Byte :=
  match keys.reverse with
  | [] => block
  | k :: ks => aesInvRounds ks (xorBytes block k)

/-- A 256-bit key as 32 bytes, the first byte most significant. -/
def keyBytes (k : BitVec 256) : List Byte := toBytesBE 32 k.toNat

/-- Doubling in GF(2^128) for the subkeys of CMAC. -/
def cmacDouble (l : List Byte) : List Byte :=
  let n := ofBytesBE l
  let d := (n * 2) % 2 ^ 128
  toBytesBE 16 (if n < 2 ^ 127 then d else Nat.xor d 0x87)

/-- The chained blocks of CMAC. -/
def cmacChain (keys : List (List Byte)) : List (List Byte) → List Byte → List Byte
  | [], acc => acc
  | b :: bs, acc => cmacChain keys bs (aesEnc keys (xorBytes acc b))

/-- AES-256-CMAC of a message, 16 bytes (R121, R123). -/
def cmac (key : BitVec 256) (msg : List Byte) : List Byte :=
  let keys := aesKeys (keyBytes key)
  let k1 := cmacDouble (aesEnc keys (List.replicate 16 0))
  let n := if msg.length = 0 then 1 else ceilDiv msg.length 16
  let front := msg.take (16 * (n - 1))
  let last := msg.drop (16 * (n - 1))
  let last' :=
    if last.length = 16 then xorBytes last k1
    else xorBytes (last ++ (0x80 : Byte) :: List.replicate (15 - last.length) 0) (cmacDouble k1)
  cmacChain keys (chunks (n - 1) 16 front ++ [last']) (List.replicate 16 0)

/-- The leading n bits of a CMAC, the first bit most significant (R123). -/
def cmacBits (n : Nat) (key : BitVec 256) (msg : List Byte) : Nat := ofBytesBE (cmac key msg) / 2 ^ (128 - n)

/-- The encryption key and the tag key of slot k at generation g (R121). -/
def deriveKeys (serial : BitVec 128) (master : BitVec 256) (k g : Nat) : BitVec 256 × BitVec 256 :=
  let block (i : Nat) : List Byte :=
    cmac master (toBytesBE 4 i ++ [0x73, 0x65, 0x61, 0x6C, 0x00] ++
      [BitVec.ofNat 8 k, BitVec.ofNat 8 g] ++ toBytesBE 16 serial.toNat ++ toBytesBE 4 512)
  (BitVec.ofNat 256 (ofBytesBE (block 1 ++ block 2)), BitVec.ofNat 256 (ofBytesBE (block 3 ++ block 4)))

/-- The 16 bytes of keystream for chunk j of line l under a nonce (R122). -/
def keystreamChunk (keys : List (List Byte)) (nonce l j : Nat) : List Byte :=
  aesEnc keys (toBytesBE 16 (nonce * 2 ^ 84 + l * 8 + j))

/-- The 2,048 bytes of keystream of a block (R122). -/
def keystream (key : BitVec 256) (nonce : Nat) : List Byte :=
  let keys := aesKeys (keyBytes key)
  ((List.range 128).map fun q => keystreamChunk keys nonce (q / 8) (q % 8)).flatten

/-- One step of the unwrap of RFC 3394: registers A and R[i], at step t. -/
def unwrapStep (keys : List (List Byte)) (t : Nat) (a r : List Byte) : List Byte × List Byte :=
  let x := toBytesBE 8 (Nat.xor (ofBytesBE a) t)
  let b := aesDec keys (x ++ r)
  (b.take 8, b.drop 8)

/-- The steps of the unwrap from step t down to 1, over n registers. -/
def unwrapFrom (keys : List (List Byte)) (n : Nat) : Nat → List Byte → List (List Byte) → List Byte × List (List Byte)
  | 0, a, rs => (a, rs)
  | t + 1, a, rs =>
    let i := t % n
    let (a', r') := unwrapStep keys (t + 1) a (rs.getD i [])
    unwrapFrom keys n t a' (setAt rs i r')

/-- The 256-bit key wrapped in 40 bytes, or none when the check value is wrong (RFC 3394). -/
def keyUnwrap (kek : BitVec 256) (c : List Byte) : Option (BitVec 256) :=
  let keys := aesKeys (keyBytes kek)
  match chunks 5 8 c with
  | a :: rs =>
    let (a', rs') := unwrapFrom keys 4 24 a rs
    if a' = List.replicate 8 0xA6 then some (BitVec.ofNat 256 (ofBytesBE rs'.flatten)) else none
  | [] => none

end Sys2Proof.Machine
end

