-- ==== Sys2Proof/Machine/Seal.lean ====
section
/-!
DEFINITION. Sealed memory (spec/06_sealing.md R119 to R136, spec/24_faults_memory.md R445, R446): the metadata rows and their
tree, fills and write-backs of blocks, and the L2 lines of a block.
-/

namespace Sys2Proof.Machine

/-- The regions of R63. -/
def isHbm (pa : Nat) : Bool := decide (pa < 2 ^ 41)
def hostBase : Nat := 0x8000000000000
def windowBase : Nat := 0xF000000000000
def isHost (pa : Nat) : Bool := decide (hostBase ≤ pa) && decide (pa < windowBase)
def isWindow (pa : Nat) : Bool := decide (windowBase ≤ pa) && decide (pa < windowBase + 0x1000000000000)

/-- The fields of an HBM address (R65). -/
def paRow (pa : Nat) : Nat := nbits pa 40 32
def paSub (pa : Nat) : Nat := nbits pa 31 27
def paBank (pa : Nat) : Nat := nbits pa 26 23
def paStack (pa : Nat) : Nat := nbits pa 22 19
def paPc (pa : Nat) : Nat := nbits pa 18 11

/-- An HBM address from its fields (R65), at byte 0 of its row. -/
def mkPa (row sub bank stack pc : Nat) : Nat :=
  row * 2 ^ 32 + sub * 2 ^ 27 + bank * 2 ^ 23 + stack * 2 ^ 19 + pc * 2 ^ 11

/-- The home bank of a line of global memory (R102); for HBM also the seal engine and the NMU (R16). -/
def homeBank (pa : Nat) : Nat := if isHbm pa then paStack pa * 32 + paPc pa / 8 else nbits pa 15 7

/-- A word of host memory (R63), by host physical address. -/
def State.hostWord (s : State) (hpa : Nat) : Word := BitVec.ofNat 32 (ofBytes (Memory.readBytes s.host hpa 4))

def State.setHostWord (s : State) (hpa : Nat) (v : Word) : State := { s with host := Memory.writeBytes s.host hpa (wordBytes v) }

/-- The number of the register that decodes a view address (R149): the lowest-numbered one whose range covers it. -/
def State.viewReg (s : State) (pa : Nat) : Option Nat :=
  (List.range 16).find? fun n =>
    let w0 := (SMap.get 0 s.frr (4 * n)).toNat
    nbits w0 63 60 == 1 && decide (nbits w0 51 16 ≤ pa / 65536) && decide (pa / 65536 ≤ nbits w0 51 16 + nbits w0 15 0)

/-- Whether a block lies behind a view range, whose rows are never filled or written (R150). -/
def State.behindView (s : State) (blk : Nat) : Bool := (s.viewReg (blk * 2048)).isSome

/-- Where a block's metadata entry lies (R119): the row, as PA ÷ 2,048, and the place in it. -/
def metaPlace (blk : Nat) : Nat × Nat :=
  let pa := blk * 2048
  let n := paRow pa
  (mkPa (497 + n / 64) (paSub pa) (paBank pa) (paStack pa) (paPc pa) / 2048, n % 64)

/-- Where the entry of a metadata row lies (R124): in a row, or in the root SRAM. -/
inductive Parent where
  | row (r slot : Nat)
  | root (i : Nat)
  deriving DecidableEq, Repr

def parentOf (row : Nat) : Parent :=
  let pa := row * 2048
  if paRow pa < 505 then
    .row (mkPa 505 (paSub pa / 8) (paBank pa) (paStack pa) (paPc pa) / 2048) ((paSub pa % 8) * 8 + (paRow pa - 497))
  else if paRow pa = 505 then .row (mkPa 506 0 0 (paStack pa) (paPc pa) / 2048) (paBank pa * 4 + paSub pa)
  else .root (paStack pa * 256 + paPc pa)

/-- The metadata row that an entry of a tree row describes (R124), where the place is used. -/
def childOf (row slot : Nat) : Option Nat :=
  let pa := row * 2048
  if paRow pa = 505 then
    if paSub pa < 4 then
      some (mkPa (497 + slot % 8) (paSub pa * 8 + slot / 8) (paBank pa) (paStack pa) (paPc pa) / 2048)
    else none
  else if paRow pa = 506 ∧ paSub pa = 0 ∧ paBank pa = 0 then
    some (mkPa 505 (slot % 4) (slot / 4) (paStack pa) (paPc pa) / 2048)
  else none

/-- A metadata entry as a number (R120). -/
def Meta.pack (m : Meta) : Nat :=
  m.ver + m.nonce * 2 ^ 44 + m.itag * 2 ^ 88 + m.otag * 2 ^ 160 + m.kgen * 2 ^ 216 + m.kslot * 2 ^ 220 +
    m.z.toNat * 2 ^ 226 + m.x.toNat * 2 ^ 227 + m.p.toNat * 2 ^ 228 + m.o.toNat * 2 ^ 229

def Meta.unpack (n : Nat) : Meta :=
  { o := nbit n 229, p := nbit n 228, x := nbit n 227, z := nbit n 226, kslot := nbits n 225 220, kgen := nbits n 219 216,
    otag := nbits n 215 160, itag := nbits n 159 88, nonce := nbits n 87 44, ver := nbits n 43 0 }

/-- A tree entry as a number (R125). -/
def Tree.pack (t : Tree) : Nat := t.nver + t.ngen * 2 ^ 44 + t.ntag * 2 ^ 48

def Tree.unpack (n : Nat) : Tree := { ntag := nbits n 119 48, ngen := nbits n 47 44, nver := nbits n 43 0 }

/-- The master key that handles a block of slot k (R132, R133): during a walk, blocks below the cursor have the pending one. -/
def State.masterFor (s : State) (k blk : Nat) : BitVec 256 :=
  let ks := s.key k
  if ks.st = .rekeying ∧ blk < ks.cursor then ks.next else ks.key

/-- The encryption and tag keys of slot k at generation g for a block (R121). -/
def State.keysFor (s : State) (k g blk : Nat) : BitVec 256 × BitVec 256 := deriveKeys Config.serial (s.masterFor k blk) k g

/-- The outer tag of a block's metadata under a tag key (R123). -/
def outerTag (km : BitVec 256) (blk : Nat) (m : Meta) : Nat :=
  cmacBits 56 km (toBytes 32 (m.itag + m.nonce * 2 ^ 72 + m.ver * 2 ^ 116 + (blk % 2 ^ 41) * 2 ^ 160 + m.kgen * 2 ^ 201 +
    m.kslot * 2 ^ 205 + m.z.toNat * 2 ^ 211 + m.x.toNat * 2 ^ 212 + m.p.toNat * 2 ^ 213 + m.o.toNat * 2 ^ 214))

/-- The inner tag of ciphertext under a nonce (R123). -/
def innerTag (km : BitVec 256) (c : List Byte) (nonce : Nat) : Nat := cmacBits 72 km (c ++ toBytes 8 nonce)

/-- A block's metadata as initialisation leaves it (R120, R136). -/
def State.initMeta (s : State) (blk : Nat) : Meta :=
  let km := (s.keysFor 0 0 blk).2
  let m : Meta := { o := false, p := false, x := false, z := true, kslot := 0, kgen := 0, otag := 0,
                    itag := innerTag km (List.replicate 2048 0) 0, nonce := 0, ver := 0 }
  { m with otag := outerTag km blk m }

/-- The tag of a metadata row's ciphertext (R126). -/
def rowTag (km : BitVec 256) (c : List Byte) (row nver ngen : Nat) : Nat :=
  cmacBits 72 km (c ++ toBytes 8 (row % 2 ^ 41) ++ toBytes 8 nver ++ [BitVec.ofNat 8 ngen])

/-- The ciphertext of a metadata row whose entries are given (R126). -/
def State.rowCipher (s : State) (row nver ngen : Nat) (ents : List Nat) : List Byte :=
  xorBytes ((ents.map (toBytes 32)).flatten) (keystream (s.keysFor 0 ngen row).1 nver)

/-- An entry of a metadata row as initialisation leaves it (R136); places that are reserved hold 0. The first argument is the
height of the tree above the data rows. -/
def State.initEnt (s : State) : Nat → Nat → Nat → Nat
  | 0, _, _ => 0
  | h + 1, row, slot =>
    let pa := row * 2048
    if paRow pa < 505 then
      let n := (paRow pa - 497) * 64 + slot
      if n < 496 then (s.initMeta (mkPa n (paSub pa) (paBank pa) (paStack pa) (paPc pa) / 2048)).pack else 0
    else match childOf row slot with
      | none => 0
      | some child =>
        let c := s.rowCipher child 0 0 ((List.range 64).map (s.initEnt h child))
        Tree.pack { ntag := rowTag (s.keysFor 0 0 child).2 c child 0 0, ngen := 0, nver := 0 }

/-- The entries of a row in order, those not listed as initialisation left them. -/
def State.rowEnts (s : State) (row : Nat) (m : MRow) : List Nat :=
  (List.range 64).map fun i => (SMap.find m.ents i).getD (s.initEnt 3 row i)

/-- The bytes of a metadata row as initialisation writes them (R136). -/
def State.initRow (s : State) (row : Nat) : List Byte := s.rowCipher row 0 0 ((List.range 64).map (s.initEnt 3 row))

/-- The bytes of a metadata row (R124): those that stand in HBM once something has written them, else those of initialisation. -/
def State.rowBytes (s : State) (row : Nat) : List Byte :=
  if (SMap.find s.rowsKept row).isSome then Memory.readBytes s.hbm (row * 2048) 2048 else s.initRow row

/-- The bytes of a metadata row written to HBM (R126). -/
def State.putRowBytes (s : State) (row : Nat) (c : List Byte) : State :=
  { s with hbm := Memory.writeBytes s.hbm (row * 2048) c, rowsKept := SMap.put s.rowsKept row true }

/-- A byte of HBM changed by a soft error (R446), in a data row or in a metadata row. -/
def State.strikeHbm (s : State) (pa : Nat) (v : Byte) : State :=
  let row := pa / 2048
  let s := if 497 ≤ paRow pa ∧ (SMap.find s.rowsKept row).isNone then s.putRowBytes row (s.initRow row) else s
  { s with hbm := Memory.write s.hbm pa v }

/-- Whether a metadata row passes its check against its parent entry (R126). A row that nothing has written and whose parent entry
stands as initialisation left it does: its tag was computed over those bytes (R136). -/
def State.rowPasses (s : State) (row : Nat) (t : Option Tree) : Bool :=
  match t with
  | some t => rowTag (s.keysFor 0 t.ngen row).2 (s.rowBytes row) row t.nver t.ngen == t.ntag
  | none => (SMap.find s.rowsKept row).isNone ||
      rowTag (s.keysFor 0 0 row).2 (s.rowBytes row) row 0 0 == rowTag (s.keysFor 0 0 row).2 (s.initRow row) row 0 0

/-- The entries of a metadata row decrypted under its tree entry (R126). -/
def State.rowPlain (s : State) (row : Nat) (t : Option Tree) : SMap Nat :=
  match t, SMap.find s.rowsKept row with
  | none, none => []
  | t, _ =>
    let p := xorBytes (s.rowBytes row) (keystream (s.keysFor 0 (t.elim 0 Tree.ngen) row).1 (t.elim 0 Tree.nver))
    (List.range 64).map fun i => (i, ofBytes ((p.drop (32 * i)).take 32))

/-- Whether a row or a row above it has failed (R446). -/
def State.rowFailed (s : State) : Nat → Nat → Bool
  | 0, _ => false
  | h + 1, row => s.failedRows.contains row || match parentOf row with
    | .row r _ => s.rowFailed h r
    | .root _ => false

/-- A metadata failure of a row (R446). -/
def State.metaFailure (s : State) (row : Nat) : State :=
  let e := homeBank (row * 2048)
  let s := (s.bumpLife 3 1).noteFor none e 36 (2 ^ 63 + 25) (row * 2048)
  if (s.failedRows.filter fun r => homeBank (r * 2048) == e).length < 8 then { s with failedRows := s.failedRows ++ [row] }
  else { s with failedEngines := s.failedEngines ++ [e] }

/-- The tree entry of a metadata row where it stands in the cache or in the root SRAM (R124, R126); `some none` is an entry as
initialisation left it, and `none` one whose row is not cached. -/
def State.cachedEntry (s : State) (row : Nat) : Option (Option Tree) :=
  match parentOf row with
  | .root i => some (SMap.find s.root i)
  | .row r slot => (SMap.find s.mcache r).map fun m => (SMap.find m.ents slot).map Tree.unpack

/-- The tree entry of a metadata row written in the cache or in the root SRAM (R126). -/
def State.putEntry (s : State) (row : Nat) (t : Tree) : State :=
  match parentOf row with
  | .root i => { s with root := SMap.put s.root i t }
  | .row r slot => match SMap.find s.mcache r with
    | some m => { s with mcache := SMap.put s.mcache r { ents := SMap.put m.ents slot t.pack, dirty := true } }
    | none => s

/-- Whether a row is at its last version: it stays in the cache, pinned (R126). -/
def lastVersion (t : Option Tree) : Bool := t.any fun t => t.ngen == 15 && t.nver == 2 ^ 44 - 1

/-- A cached metadata row leaves the cache (R126): a dirty one is written back with the next version, and its entry follows. A row
at its last version stays, and so does one whose entry is not cached. -/
def State.evictRow (s : State) (row : Nat) : State :=
  match SMap.find s.mcache row, s.cachedEntry row with
  | some m, some t =>
    if lastVersion t then s
    else if !m.dirty then { s with mcache := SMap.erase s.mcache row }
    else
      let v := t.elim 0 Tree.nver
      let g := t.elim 0 Tree.ngen
      let (nver, ngen) := if v = 2 ^ 44 - 1 then (0, g + 1) else (v + 1, g)
      let c := s.rowCipher row nver ngen (s.rowEnts row m)
      { s.putRowBytes row c with mcache := SMap.erase s.mcache row }.putEntry row
        { ntag := rowTag (s.keysFor 0 ngen row).2 c row nver ngen, ngen := ngen, nver := nver }
  | _, _ => s

/-- Room for a row in the metadata cache of its bank, which holds 192 rows (R126: 384 KiB): a row that no cached row hangs from
leaves (log entry 124 for the choice). -/
def State.cacheRoom (s : State) (row : Nat) : State :=
  let bank := homeBank (row * 2048)
  let rows := (s.mcache.map Prod.fst).filter fun r => homeBank (r * 2048) == bank
  if rows.length < 192 then s
  else
    let parents := (row :: rows).filterMap fun r => match parentOf r with
      | .row p _ => some p
      | .root _ => none
    let may := rows.filter fun r => !parents.contains r && match s.cachedEntry r with
      | some t => !lastVersion t
      | none => false
    match may with
    | [] => s
    | r :: _ =>
      let (n, s) := s.fresh
      s.evictRow (may.getD (n.toNat % may.length) r)

/-- Bring a metadata row into the metadata cache through its parents (R126); none when it fails. -/
def State.loadRow (s : State) : Nat → Nat → State × Option MRow
  | 0, _ => (s, none)
  | h + 1, row =>
    match SMap.find s.mcache row with
    | some m => (s, some m)
    | none =>
      let e := homeBank (row * 2048)
      if s.rowFailed 3 row || s.failedEngines.contains e then (s, none)
      else
        let s := s.count (cntBank e 3) 1
        let up : State × Option (Option Tree) := match parentOf row with
          | .root i => (s, some (SMap.find s.root i))
          | .row r slot => match s.loadRow h r with
            | (s, some m) => (s, some ((SMap.find m.ents slot).map Tree.unpack))
            | (s, none) => (s, none)
        match up with
        | (s, none) => (s, none)
        | (s, some t) =>
          if !s.rowPasses row t then (s.metaFailure row, none)
          else
            let m : MRow := { ents := s.rowPlain row t, dirty := false }
            let s := s.cacheRoom row
            ({ s with mcache := SMap.put s.mcache row m }, some m)

/-- A block's metadata (R119); none when a row above it has failed. -/
def State.getMeta (s : State) (blk : Nat) : State × Option Meta :=
  let (row, slot) := metaPlace blk
  match s.loadRow 3 row with
  | (s, none) => (s, none)
  | (s, some m) => (s, some (match SMap.find m.ents slot with
    | some n => Meta.unpack n
    | none => s.initMeta blk))

/-- A block's metadata written in the metadata cache, with its outer tag recomputed (R123, R126). -/
def State.putMeta (s : State) (blk : Nat) (m : Meta) : State :=
  let (row, slot) := metaPlace blk
  let m := { m with otag := outerTag (s.keysFor m.kslot m.kgen blk).2 blk m }
  let put (s : State) (r : MRow) : State := { s with mcache := SMap.put s.mcache row { ents := SMap.put r.ents slot m.pack, dirty := true } }
  match SMap.find s.mcache row with
  | some r => put s r
  | none => match s.loadRow 3 row with
    | (s, some r) => put s r
    | (s, none) => s

/-- A metadata row written back (R126), once the row above it is cached. -/
def State.writeBackRow (s : State) (row : Nat) : State :=
  match SMap.find s.mcache row, parentOf row with
  | none, _ => s
  | _, .root _ => s.evictRow row
  | _, .row r _ => (s.loadRow 3 r).1.evictRow row

/-- What a fill returns (R127): the block's bytes, poison in all lines, or a failure that leaves the requester's lines poison. -/
inductive FillRes where
  | bytes (b : List Byte)
  | poison
  | failed (cause : Nat)
  deriving DecidableEq, Repr

/-- Whether two records of failed fills are about one line for one context (R438). -/
def sameFill (a b : RecReq) : Bool :=
  a.kind == 34 && b.kind == 34 && a.ctx == b.ctx && a.addr.toNat / 128 == b.addr.toNat / 128 && a.info.toNat % 256 == b.info.toNat % 256

/-- A seal failure met by a request for the words `wm` of a line (R438, R445). The words that one move asks of a line are one
request (R312; log entry 28). -/
def State.sealFail (s : State) (who : Option Nat) (pa wm cause : Nat) : State :=
  let e := homeBank pa
  let t := s.noteFor who e 34 (2 ^ 63 + wm * 256 + cause) pa
  match t.recq.getLast? with
  | some new =>
    if t.recq.length ≠ s.recq.length && s.recq.any (sameFill new) then
      { s with recq := s.recq.map fun r => if sameFill new r then { r with info := r.info ||| new.info } else r }
    else (t.bumpLife 2 1).count (cntSeal e 2) 1
  | none => (t.bumpLife 2 1).count (cntSeal e 2) 1

/-- The fill of a block for an access to the words `wm` of the line at pa, of slot cs and attribute sl (R127, R445). -/
def State.fillBlock (s : State) (who : Option Nat) (pa wm cs : Nat) (sl : Bool) : State × FillRes :=
  let blk := pa / 2048
  let e := homeBank pa
  match (s.count (cntSeal e 0) 1).getMeta blk with
  | (s, none) => (s, .poison)
  | (s, some m) =>
    if m.kslot ≠ cs ∨ (s.key cs).st = .empty then (s.sealFail who pa wm 18, .failed 18)
    else
      let k := s.keysFor m.kslot m.kgen blk
      if m.otag ≠ outerTag k.2 blk m then ((s.sealFail who pa wm 17).putMeta blk { m with p := true }, .poison)
      else if m.o = sl then (s.sealFail who pa wm 12, .failed 12)
      else if m.p then (s, .poison)
      else if m.z then (s, .bytes (List.replicate 2048 0))
      else
        let c := Memory.readBytes s.hbm (blk * 2048) 2048
        if m.o then (s, .bytes c)
        else if innerTag k.2 c m.nonce ≠ m.itag then
          ((s.sealFail who pa wm 16).putMeta blk { m with p := true }, .poison)
        else (s, .bytes (xorBytes c (keystream k.1 m.nonce)))

/-- Bytes as words. -/
def wordsOf : Nat → List Byte → List Word
  | 0, _ => []
  | n + 1, bs => BitVec.ofNat 32 (ofBytes (bs.take 4)) :: wordsOf n (bs.drop 4)

/-- Whether every word of a list is not poison. -/
def allGood (l : List LWord) : Bool := l.all fun w => !w.isPoison

/-- The bytes of words. -/
def bytesOf (l : List LWord) : List Byte := (l.map fun w => wordBytes w.val).flatten

/-- Whether an entry of the registry has the word's `jmask` bit set (R105): a word in J (R108), or of a row in own mode (R118). -/
def RState.isJ : RState → Bool
  | .j _ _ _ => true
  | .ownMode _ _ => true
  | _ => false

/-- Whether the value that L2 holds of a word with an entry may be read by others (R112): the word of a core stands in its L1, and
L2 holds the value from before; a unit's word with U = 1, a J word and a held one do not show. -/
def RState.shows : RState → Bool
  | .own o u => isCore o || !u
  | _ => false

/-- Whether a line is pinned in L2: a word of its block has its `jmask` bit set (R108, R118), or it is of the host window and a word of it is registered
or held (R116). -/
def State.pinned (s : State) (line : Nat) : Bool :=
  s.regst.any fun e => if isHbm (line * 128) then e.1 / 512 == line / 16 && e.2.isJ else e.1 / 32 == line

/-- A dirty host-window line written to host memory (R116, R305). Poisoned words stay as they are, and so do words that are held, in
J, `lost` or a unit's with U = 1 (log entry 125). -/
def State.hostLineOut (s : State) (line : Nat) : State :=
  match SMap.find s.l2 line with
  | none => s
  | some l =>
    let s := l.ws.zipIdx.foldl (fun s e => match e.1 with
      | .poison => s
      | v => if (SMap.find s.regst (line * 32 + e.2)).all RState.shows then s.setHostWord (line * 128 - hostBase + 4 * e.2) v.val else s) s
    { s with l2 := SMap.put s.l2 line { l with dirty := false } }

/-- The lines of a block taken out of L2. -/
def State.clearBlock (s : State) (blk : Nat) : State :=
  (List.range 16).foldl (fun s i => { s with l2 := SMap.erase s.l2 (blk * 16 + i) }) s

/-- The lines of a block that stand in L2, clean from now on. -/
def State.markClean (s : State) (blk : Nat) : State :=
  (List.range 16).foldl (fun s i => match SMap.find s.l2 (blk * 16 + i) with
    | some l => { s with l2 := SMap.put s.l2 (blk * 16 + i) { l with dirty := false } }
    | none => s) s

/-- The write-back of a block with a dirty line (R129, R452): its lines stay, clean. A block whose absent lines cannot be filled, or
whose rows lie behind a view (R150), has its lines discarded. -/
def State.cleanBlock (s : State) (who : Option Nat) (blk : Nat) : State :=
  let lines := (List.range 16).map fun i => (SMap.find s.l2 (blk * 16 + i)).filter fun l => !l.view
  if !(lines.any fun l => l.any L2Line.dirty) then s
  else if s.behindView blk then s.clearBlock blk
  else
    let ks := (lines.filterMap id).head?.elim 0 L2Line.ks
    let e := homeBank (blk * 2048)
    match s.getMeta blk with
    | (s, none) => s.clearBlock blk
    | (s, some m) =>
      let base : State × Option (List LWord) :=
        if lines.all Option.isSome then (s, some (List.replicate 512 (.good 0)))
        else match s.fillBlock who (blk * 2048) 0 ks (!m.o) with
          | (s, .bytes b) => (s, some ((wordsOf 512 b).map .good))
          | (s, _) => (s, none)
      match base with
      | (s, none) => s.clearBlock blk
      | (s, some old) =>
        let p := ((List.range 16).map fun i => match lines.getD i none with
          | some l => l.ws
          | none => (old.drop (32 * i)).take 32).flatten
        let s := (s.count (cntSeal e 1) 1).markClean blk
        if !allGood p then s.putMeta blk { m with p := true }
        else
          let (ver, kgen) := if m.ver = 2 ^ 44 - 1 then (0, m.kgen + 1) else (m.ver + 1, m.kgen)
          let m : Meta := { m with ver := ver, kgen := kgen, nonce := ver, z := false }
          let k := s.keysFor m.kslot m.kgen blk
          let c := if m.o then bytesOf p else xorBytes (bytesOf p) (keystream k.1 m.nonce)
          let m : Meta := if m.o then m else { m with itag := innerTag k.2 c m.nonce }
          let m : Meta := if m.kgen = 15 ∧ m.ver = 2 ^ 44 - 1 then { m with x := true } else m
          { s with hbm := Memory.writeBytes s.hbm (blk * 2048) c }.putMeta blk m

/-- A block written back where a line of it is dirty, its lines then leaving L2 together (R128, R129). A block whose slot has been
erased is encrypted under the zero key that the slot then holds (log entry 126). -/
def State.writeBackBlock (s : State) (who : Option Nat) (blk : Nat) : State := (s.cleanBlock who blk).clearBlock blk

/-- A line leaves L2 (R85, R116, R129, R151): an HBM line with its whole block, a view line without write-back. -/
def State.evictLine (s : State) (line : Nat) : State :=
  match SMap.find s.l2 line with
  | none => s
  | some l =>
    if l.view then { s with l2 := SMap.erase s.l2 line }
    else if isHbm (line * 128) then s.writeBackBlock none (line / 16)
    else
      let s := if l.dirty then s.hostLineOut line else s
      { s with l2 := SMap.erase s.l2 line, cacheLines := SMap.erase s.cacheLines line }

/-- The lines of a bank that stand in a way (R380). -/
def State.wayLines (s : State) (bank way : Nat) : SMap L2Line := s.l2.filter fun e => e.2.way == way && homeBank (e.1 * 128) == bank

/-- The ways in which an access allocates at a bank (R381): those of its partition, or of the partition of the bank. -/
def State.waysOf (s : State) (who : Option Nat) (bank : Nat) : List Nat :=
  match who.map partOf <|> s.partOfBank bank with
  | some p => (List.range 14).filter fun w => (s.part p).l2w.getLsbD w
  | none => []

/-- The lines of a way that may leave it: those marked first for eviction, where there are such (R62). -/
def State.victims (s : State) (bank way : Nat) : List Nat :=
  let may := (s.wayLines bank way).filter fun e => !s.pinned e.1 && !(s.hostOff && !isHbm (e.1 * 128))
  let marked := may.filter fun e => e.2.first
  (if marked.isEmpty then may else marked).map Prod.fst

/-- Lines leave a way until n more fit beside those it has (R12: a way is 3,072 lines; log entry 124 for the choice). -/
def State.emptyWay (s : State) (bank way n : Nat) : Nat → State
  | 0 => s
  | k + 1 =>
    if (s.wayLines bank way).length + n ≤ 3072 then s
    else match s.victims bank way with
      | [] => s
      | l :: ls =>
        let (v, s) := s.fresh
        (s.evictLine ((l :: ls).getD (v.toNat % (ls.length + 1)) l)).emptyWay bank way n k

/-- Room for n lines in L2 (R381): a way with room, or one of the partition's ways that is emptied. Where the partition has no way,
the lines stand in none, by the number 16. -/
def State.l2Room (s : State) (who : Option Nat) (bank n : Nat) : State × Nat :=
  let ways := s.waysOf who bank
  match ways.find? fun w => decide ((s.wayLines bank w).length + n ≤ 3072) with
  | some w => (s, w)
  | none => match ways with
    | [] => (s, 16)
    | w :: ws =>
      let (v, s) := s.fresh
      let way := (w :: ws).getD (v.toNat % (ws.length + 1)) w
      (s.emptyWay bank way n n, way)

/-- A block's lines placed in L2, those already there kept. -/
def State.installBlock (s : State) (who : Option Nat) (blk ks : Nat) (ws : List LWord) : State :=
  let (s, way) := s.l2Room who (homeBank (blk * 2048)) 16
  (List.range 16).foldl (fun s i =>
    let line := blk * 16 + i
    match SMap.find s.l2 line with
    | some _ => s
    | none =>
      let l : L2Line := { ws := (ws.drop (32 * i)).take 32, dirty := false, ks := ks, view := false, first := false, way := way }
      { s with l2 := SMap.put s.l2 line l }) s

/-- Whether a row command in default mode is working on the block of a word (R131): a line of its row has been prepared. -/
def State.rowBusy (s : State) (w : Nat) : Bool :=
  s.clusters.any fun k => k.2.jobs.any fun j => match j.kind with
    | .row false _ ps => ps.any fun p => p.dst / 2048 == w / 512 && decide (2 ^ 17 ≤ p.prep) && !p.refused && !p.done
    | _ => false

/-- A word of a line in L2, by word number; poison when the line is not there. -/
def State.l2Word (s : State) (w : Nat) : LWord :=
  match SMap.find s.l2 (w / 32) with
  | some l => l.ws.getD (w % 32) .poison
  | none => .poison

/-- A word of a line in L2 written; the line becomes dirty. -/
def State.setL2Word (s : State) (w : Nat) (v : LWord) : State :=
  match SMap.find s.l2 (w / 32) with
  | some l => { s with l2 := SMap.put s.l2 (w / 32) { l with ws := setAt l.ws (w % 32) v, dirty := true } }
  | none => s

/-- The words of a line that private stores may have reached (R70) take unspecified values (log entry 8). -/
def State.settlePriv (s : State) (line : Nat) : State :=
  (s.privWords.filter fun e => e.1 / 32 == line).foldl (fun s e =>
    let (v, s) := s.fresh
    { s.setL2Word e.1 (.good v) with privWords := SMap.erase s.privWords e.1 }) s

/-- The line of a sealed block filled for a request of slot cs (R127, R128). A fill of a block that a row command is working on waits
(R131). Rows behind a view are not filled: the line takes free values (R150; log entries 8 and 127). -/
def State.fillLine (s : State) (who : Option Nat) (pa cs : Nat) (sl : Bool) : State × Bool :=
  let blk := pa / 2048
  if s.rowBusy (pa / 4) then (s.wait, false)
  else if s.behindView blk then
    let (s, ws) := s.freshGood 32
    let (s, way) := s.l2Room who (homeBank pa) 1
    ({ s with l2 := SMap.put s.l2 (pa / 128) { ws := ws, dirty := false, ks := cs, view := false, first := false, way := way } }, true)
  else match s.fillBlock who (pa / 4 * 4) (2 ^ (pa / 4 % 32)) cs sl with
    | (s, .bytes b) => ((s.installBlock who blk cs ((wordsOf 512 b).map .good)).settlePriv (pa / 128), true)
    | (s, .poison) => ((s.installBlock who blk cs (List.replicate 512 .poison)).settlePriv (pa / 128), true)
    | (s, .failed _) => (s, false)

/-- An L2 line that may be used by a request of slot cs (R127, R128): filled when absent. Answers whether the request may read
it. Lines of the host window are filled from the host in the shared state (R116: RdShared). -/
def State.ensureLine (s : State) (who : Option Nat) (pa cs : Nat) (sl : Bool) : State × Bool :=
  let line := pa / 128
  let here := (SMap.find s.l2 line).filter fun l => !l.view
  if isHbm pa then
    match here with
    | some l => if l.ks = cs then (s.settlePriv line, true) else (s.sealFail who (pa / 4 * 4) (2 ^ (pa / 4 % 32)) 18, false)
    | none => s.fillLine who pa cs sl
  else
    match here with
    | some _ => (s, true)
    | none =>
      if s.hostOff then (s, false)
      else
        let hpa := line * 128 - hostBase
        let ws := (List.range 32).map fun i => LWord.good (s.hostWord (hpa + 4 * i))
        let (s, way) := s.l2Room who (homeBank pa) 1
        let l : L2Line := { ws := ws, dirty := false, ks := 64, view := false, first := false, way := way }
        ({ s with l2 := SMap.put s.l2 line l,
                  cacheLines := if (SMap.find s.cacheLines line).isSome then s.cacheLines else SMap.put s.cacheLines line false }, true)

/-- What an access of an effective caching code leaves in L2 of the lines that it has placed there since a state (R62): with code 2
they are marked first for eviction; with code 3 nothing stays, and what was written goes back to memory. -/
def State.placedBy (s t : State) (cache pa : Nat) : State :=
  let line := pa / 128
  let new (e : Nat × L2Line) : Bool := (if isHbm pa then e.1 / 16 == line / 16 else e.1 == line) && (SMap.find s.l2 e.1).isNone
  if cache = 2 then { t with l2 := t.l2.map fun (e : Nat × L2Line) => if new e then (e.1, { e.2 with first := true }) else e }
  else if cache = 3 then
    let t := if t.l2.any (fun e => new e && e.2.dirty) && !t.pinned line then t.evictLine line else t
    { t with l2 := t.l2.filter fun e => !(new e && !e.2.dirty)
             cacheLines := if t.pinned line || isHbm pa || (SMap.find s.cacheLines line).isSome then t.cacheLines else SMap.erase t.cacheLines line }
  else t

/-- One byte that a fill of slot ks gives, in L2 where the line is there: as the block stands at its home, dirty words included, a word
that an owner holds being read as the home has it, and with `sl` = 1 (log entry 127). -/
def State.fillByte (s : State) (who : Option Nat) (pa ks : Nat) : State × Option Byte :=
  match s.ensureLine who pa ks true with
  | (s, false) => (s, none)
  | (s, true) => match s.l2Word (pa / 4) with
    | .poison => (s, none)
    | v => (s, some (BitVec.ofNat 8 (v.val.toNat >>> (8 * (pa % 4)))))

/-- n bytes as fills of slot ks give them. -/
def State.fillBytes (s : State) (who : Option Nat) (pa ks : Nat) : Nat → State × Option (List Byte)
  | 0 => (s, some [])
  | n + 1 =>
    match s.fillByte who pa ks with
    | (s, none) => (s, none)
    | (s, some b) => match State.fillBytes s who (pa + 1) ks n with
      | (s, none) => (s, none)
      | (s, some bs) => (s, some (b :: bs))

/-- The eight e4m3 bytes of an index under a shape entry (R148). -/
def decodeCb2 (index : Nat) (entry : Nat) : List Byte :=
  let sgn (e : Nat) : Bool :=
    if e < 7 then nbit index (e + 1)
    else (List.range 7).foldl (fun acc i => acc != nbit index (i + 1)) false
  (List.range 8).map fun e =>
    let q := nbits entry (4 * e + 3) (4 * e)
    let neg := sgn e
    let v : Int := (if neg then -(q : Int) else q) + (if nbit index 0 then 1 else 0)
    let v := if v = 16 then 15 else v
    let minus := if v = 0 then neg && !nbit index 0 else decide (v < 0)
    let m := v.natAbs
    let mag : Nat :=
      if m = 0 then 0
      else
        let l := m.log2
        (l + 5) * 8 + (m * 8 / 2 ^ l - 8)
    BitVec.ofNat 8 (mag + if minus then 128 else 0)

/-- A view line made from its source (R150); poison words where the source cannot be read. -/
def State.makeView (s : State) (who : Option Nat) (n pa : Nat) : State × List LWord :=
  let w (k : Nat) : Nat := (SMap.get 0 s.frr (4 * n + k)).toNat
  let ks := nbits (w 2) 63 58
  let off := pa - nbits (w 0) 51 16 * 65536
  let src := nbits (w 1) 51 14 * 16384 + off / 4
  let tab := nbits (w 3) 51 10 * 1024
  let step (acc : State × List LWord) (i : Nat) : State × List LWord :=
    let (s, ws) := acc
    match s.fillBytes who (src + 2 * i) ks 2 with
    | (s, none) => (s, ws ++ [.poison, .poison])
    | (s, some ib) =>
      let idx := ofBytes ib
      match s.fillBytes who (tab + 4 * (idx / 256)) ks 4 with
      | (s, none) => (s, ws ++ [.poison, .poison])
      | (s, some eb) => (s, ws ++ ((wordsOf 2 (decodeCb2 idx (ofBytes eb))).map .good))
  (List.range 16).foldl step (s, [])

/-- A line of a format view, filled when absent (R150); none where no register covers the address. A line of the rows behind the
view is no part of it, and is replaced without write-back. -/
def State.ensureView (s : State) (who : Option Nat) (pa : Nat) : State × Bool :=
  let line := pa / 128
  match (SMap.find s.l2 line).filter L2Line.view with
  | some _ => (s, true)
  | none =>
    match s.viewReg pa with
    | none => (s, false)
    | some n =>
      let (s, ws) := s.makeView who n (line * 128)
      let (s, way) := s.l2Room who (homeBank pa) 1
      let l : L2Line := { ws := ws, dirty := false, ks := 65, view := true, first := false, way := way }
      ({ s with l2 := SMap.put s.l2 line l }, true)

end Sys2Proof.Machine
end

