-- ==== Sys2Proof/Machine/Home.lean ====
section
/-!
DEFINITION. The homes (spec/05_registration.md R102 to R116, spec/04_ordering.md R80 to R89, spec/24_faults_memory.md R447 to
R449): registry entries, the transactions of R109, recalls and the hold store, and translation (spec/03_memory_spaces.md R59
to R66, R71).
-/

namespace Sys2Proof.Machine

/-- The registry entry of a word, by word number; none is N (R109). -/
def State.regAt (s : State) (w : Nat) : Option RState := SMap.find s.regst w

/-- The owner code that an entry carries in the directory (R105, R106); a held word is in no directory entry (R113). -/
def RState.code : RState → Option Nat
  | .own o _ => some o
  | .j c _ _ => some c
  | .hold _ _ => none
  | .lost => some 0xFFF
  | .ownMode n _ => some (0x800 + n)

/-- The entries of a line's words. -/
def State.lineRegs (s : State) (line : Nat) : List (Nat × RState) := s.regst.filter fun e => e.1 / 32 == line

/-- The distinct numbers of a list. -/
def distinct : List Nat → List Nat
  | [] => []
  | x :: l => if l.contains x then distinct l else x :: distinct l

/-- A list with a member added at its end or removed, by whether it belongs. -/
def keepIn {α : Type} [DecidableEq α] (l : List α) (x : α) (belongs : Bool) : List α :=
  if belongs then (if l.contains x then l else l ++ [x]) else l.filter (· != x)

/-- The owners for which words of a line are held (R113). -/
def holders (es : List (Nat × RState)) : List Nat :=
  distinct (es.filterMap fun e => match e.2 with
    | .hold o _ => some o
    | _ => none)

/-- The bank of a line. -/
def lineBank (line : Nat) : Nat := homeBank (line * 128)

/-- The lowest index of a bank's split table that no line has (R105; log entry 124). -/
def State.freeSidx (s : State) (bank : Nat) : Nat :=
  let used := (s.sidx.filter fun e => lineBank e.1 == bank).map Prod.snd
  ((List.range 16385).find? fun i => !used.contains i).getD 0

/-- The allocation orders of a line brought up to date (R105, R107, R113): its directory entry, its split-table entry with its index,
and its lines in the hold store, one for each owner. -/
def State.syncLine (s : State) (line : Nat) : State :=
  let es := s.lineRegs line
  let codes := distinct (es.filterMap fun e => e.2.code)
  let split := decide (1 < codes.length)
  let hs := holders es
  let kept := s.holdOrder.filter fun e => e.1 != line || hs.contains e.2
  { s with dirOrder := keepIn s.dirOrder line (!codes.isEmpty), splitOrder := keepIn s.splitOrder line split,
           sidx := if split then (if (SMap.find s.sidx line).isSome then s.sidx else SMap.put s.sidx line (s.freeSidx (lineBank line)))
                   else SMap.erase s.sidx line,
           holdOrder := kept ++ (hs.filter fun o => !kept.contains (line, o)).map fun o => (line, o) }

/-- A word's registry entry set. -/
def State.setRegAt (s : State) (w : Nat) (r : Option RState) : State :=
  { s with regst := match r with
            | some r => SMap.put s.regst w r
            | none => SMap.erase s.regst w }.syncLine (w / 32)

/-- A line that the home itself needs in L2, filled under its own block's slot. -/
def State.ensureHome (s : State) (w : Nat) : State :=
  match SMap.find s.l2 (w / 32) with
  | some _ => s
  | none =>
    if isHbm (4 * w) then
      match s.getMeta (w / 512) with
      | (s, none) => s
      | (s, some m) => (s.ensureLine none (4 * w) m.kslot (!m.o)).1
    else (s.ensureLine none (4 * w) 0 true).1

/-- A word written into L2 by its home; a host-window line is then in state E or M (R116). -/
def State.homePut (s : State) (w : Nat) (v : LWord) : State :=
  let s := (s.ensureHome w).setL2Word w v
  if isHost (4 * w) then { s with cacheLines := SMap.put s.cacheLines (w / 32) true } else s

/-- The value and U of a registered word, as its owner holds it (R103, R487). -/
def State.ownerWord (s : State) (o : Nat) (u : Bool) (w : Nat) : LWord × Bool :=
  if isCore o then match (s.core o).l1At w with
    | some x => (x.val, x.u)
    | none => (.poison, true)
  else (s.l2Word w, u)

/-- An owner's L1 drops a word to I. -/
def State.ownerDrop (s : State) (o w : Nat) : State := if isCore o then s.onCore o (·.l1Drop w) else s

/-- A bit of a runner's held-bank mask set (R112). -/
def State.setHeld (s : State) (o bank : Nat) : State :=
  s.onCore o fun c => { c with held := c.held ||| ((1 : BitVec 512) <<< bank) }

/-- The directory set of a line (R105). -/
def dirSet (line : Nat) : Nat :=
  let pa := line * 128
  if isHbm pa then (nbits pa 27 23 ^^^ nbits pa 36 32) * 128 + nbits pa 13 7 else nbits pa 27 16

/-- The lines that compete with a line for its directory set. -/
def State.rivals (s : State) (line : Nat) : List Nat :=
  s.dirOrder.filter fun l => lineBank l == lineBank line && dirSet l == dirSet line

/-- Whether a word may gain a directory entry without a recall (R105). -/
def State.dirRoom (s : State) (line : Nat) : Bool := s.dirOrder.contains line || decide ((s.rivals line).length < 16)

/-- The hold store of a bank at most full: the words of its oldest line become lost (R113, R448). Where their set of the directory is
full they are written into L2 as poison at once, as a freed entry of lost words is (R488; log entry 128). -/
def State.trimHold (s : State) (bank : Nat) : State :=
  let lines := s.holdOrder.filter fun l => lineBank l.1 == bank
  if lines.length ≤ 2048 then s
  else match lines with
    | [] => s
    | (line, o) :: _ =>
      let ws := (s.lineRegs line).filterMap fun e => match e.2 with
        | .hold p _ => if p = o then some e.1 else none
        | _ => none
      let wm := ws.foldl (fun m w => m + 2 ^ (w % 32)) 0
      (ws.foldl (fun s w => if s.dirRoom line then s.setRegAt w (some .lost) else (s.homePut w .poison).setRegAt w none) s).noteFor none
        bank 37 (2 ^ 63 + wm * 256 + 26) (line * 128)

/-- One word recalled from its owner (R112, R487). -/
def State.recallWord (s : State) (w : Nat) : State :=
  match s.regAt w with
  | some (.own o u) =>
    let s := s.ensureHome w
    let (v, u) := s.ownerWord o u w
    let s := s.ownerDrop o w
    if u then ((s.setRegAt w (some (.hold o v))).setHeld o (homeBank (4 * w))).trimHold (homeBank (4 * w))
    else
      let s := if isCore o then s.homePut w v else s
      s.setRegAt w none
  | _ => s

/-- The words of a line registered to an owner that a recall can return (R107, R488). Words of the host agent come back when the host
answers BISnpInv (R115, R487; log entry 20). -/
def State.recallable (s : State) (line : Nat) (owners : Nat → Bool) : List Nat :=
  (s.lineRegs line).filterMap fun e => match e.2 with
    | .own o _ => if owners o && o != 0xC00 then some e.1 else none
    | _ => none

/-- Whether the host has words of a line among some owners: a recall of them has been sent as BISnpInv (R487). -/
def State.hostHas (s : State) (line : Nat) (owners : Nat → Bool) : Bool :=
  owners 0xC00 && (s.lineRegs line).any fun e => decide (e.2 = .own 0xC00 false)

/-- An owner recall of a line (R112). -/
def State.recallLine (s : State) (line : Nat) (owners : Nat → Bool) : State :=
  (s.recallable line owners).foldl State.recallWord s

/-- A line all of whose registered words are lost, freed (R488): its words are poison in L2. -/
def State.freeLost (s : State) (line : Nat) : State :=
  (s.lineRegs line).foldl (fun s e => match e.2 with
    | .lost => (s.homePut e.1 .poison).setRegAt e.1 none
    | _ => s) s

/-- Whether all registered words of a line are lost. A held word is in no entry (R113). -/
def State.allLost (s : State) (line : Nat) : Bool :=
  let codes := (s.lineRegs line).filterMap fun e => e.2.code
  !codes.isEmpty && codes.all fun c => c == 0xFFF

/-- An entry recalled from some owners, and freed where all that is left is lost (R107, R488). -/
def State.recallEntry (s : State) (line : Nat) (owners : Nat → Bool) : State :=
  let s := s.recallLine line owners
  if s.allLost line then s.freeLost line else s

/-- The entries of a set recalled in allocation order until one leaves the directory (R107, R488). An entry that the host has words of
is waited for; one that holds no word that a recall can return is passed over. -/
def State.freeOne (s : State) : List Nat → State
  | [] => s
  | l :: ls =>
    let s := s.recallEntry l fun _ => true
    if s.dirOrder.contains l && !s.hostHas l (fun _ => true) then s.freeOne ls else s

/-- The minority owner of a line (R107): the owner of the fewest words, ties to the highest code, among those of whom a recall can
return a word (R488). `lost` and own mode are no owners in this choice; words in J count for their core. -/
def State.minority (s : State) (line : Nat) : Option Nat :=
  let es := s.lineRegs line
  let os := es.filterMap fun e => match e.2 with
    | .own o _ => some o
    | .j c _ _ => some c
    | _ => none
  let cnt (o : Nat) : Nat := (os.filter (· == o)).length
  let may := (distinct os).filter fun o => es.any fun e => match e.2 with
    | .own p _ => p == o
    | _ => false
  may.foldl (fun best o => match best with
    | none => some o
    | some b => if cnt o < cnt b ∨ (cnt o = cnt b ∧ b < o) then some o else some b) none

/-- The minority owners of a split entry recalled one after the other until the entry leaves the split table, the host has words that
it must give up first, or nothing is left to recall (R107, R417). -/
def State.freeEntry (s : State) (line : Nat) : Nat → State
  | 0 => s
  | n + 1 =>
    if !s.splitOrder.contains line then s
    else match s.minority line with
      | none => if s.allLost line then s.freeLost line else s
      | some o => if s.hostHas line (· == o) then s else (s.recallEntry line (· == o)).freeEntry line n

/-- The earliest entries of a split table recalled until one is free (R107, R417, R488). -/
def State.freeSplit (s : State) : List Nat → State
  | [] => s
  | l :: ls =>
    let s := s.freeEntry l 33
    if s.splitOrder.contains l && (s.minority l).isNone then s.freeSplit ls else s

/-- Whether a line's registered words would have more than one owner once some of them are an owner's (R107, R417). -/
def State.wouldSplit (s : State) (line o : Nat) (ws : List Nat) : Bool :=
  (s.lineRegs line).any fun e => !ws.contains e.1 && e.2.code.any (· != o)

/-- Room for some words of a line to be registered to an owner, made by recalls where a set or the split table is full; the answer
says whether there is room (R107, R417, R488). -/
def State.makeRoom (s : State) (line o : Nat) (ws : List Nat) : State × Bool :=
  let s := if s.dirRoom line then s else s.freeOne (s.rivals line)
  let splits := s.wouldSplit line o ws && !s.splitOrder.contains line
  let inBank (s : State) : List Nat := s.splitOrder.filter fun l => lineBank l == lineBank line
  let s := if splits && decide (16384 ≤ (inBank s).length) then s.freeSplit (inBank s) else s
  (s, s.dirRoom line && (!splits || decide ((inBank s).length < 16384)))

/-- Whether the block of a word accepts no write-back (R130). -/
def State.exhausted (s : State) (w : Nat) : State × Bool :=
  if isHbm (4 * w) then match s.getMeta (w / 512) with
    | (s, some m) => (s, m.x)
    | (s, none) => (s, false)
  else (s, false)

/-- The lines of some words in ascending order, each once. -/
def linesOfWords : List Nat → List Nat
  | [] => []
  | [w] => [w / 32]
  | a :: b :: l => if a / 32 = b / 32 then linesOfWords (b :: l) else a / 32 :: linesOfWords (b :: l)

/-- The lines that an L1 holds (R103). -/
def Core.l1Lines (c : Core) : List Nat := linesOfWords (c.l1.map Prod.fst)

/-- The lines of a word's owner written back and dropped (R85, R109): Writeback(o) of a G word with U = 0. -/
def State.writeBackWord (s : State) (o w : Nat) : State :=
  match (s.core o).l1At w with
  | some x => if x.g && !x.u && decide (s.regAt w = some (.own o false) ∨ s.regAt w = some (.own o true)) then
      ((s.homePut w x.val).setRegAt w none).onCore o (·.l1Drop w)
    else s
  | none => s

/-- A word leaves an L1 (R85, R110): V is dropped, G with U = 0 is written back, G with U = 1 goes to the hold store (R112). -/
def State.evictL1 (s : State) (r w : Nat) : State :=
  match (s.core r).l1At w with
  | none => s
  | some x =>
    if !x.g then s.onCore r fun c => c.l1Drop w
    else if x.u then s.recallWord w
    else s.writeBackWord r w

/-- Room for a line in an L1 of 128 KiB, which is 1,024 lines (R14): where it is full, a line leaves it (log entry 124 for the choice). -/
def State.l1Room (s : State) (r line : Nat) : State :=
  let lines := (s.core r).l1Lines
  if lines.contains line || decide (lines.length < 1024) then s
  else
    let (v, s) := s.fresh
    let out := lines.getD (v.toNat % lines.length) 0
    (List.range 32).foldl (fun s k => s.evictL1 r (32 * out + k)) s

/-- A word placed in an L1 (R103). -/
def State.l1Place (s : State) (r w : Nat) (x : L1Word) : State := (s.l1Room r (w / 32)).onCore r fun c => c.l1Put w x

/-- A held word goes back to its owner, with U = 1, and takes a directory entry again (R109, R488). The answer says whether there was
room; recalls that were made stay made. -/
def State.takeHeld (s : State) (o w : Nat) : State × Bool :=
  match s.regAt w with
  | some (.hold p v) =>
    if p = o then match s.makeRoom (w / 32) o [w] with
      | (s, false) => (s, false)
      | (s, true) =>
        let s := s.setRegAt w (some (.own o true))
        (if isCore o then s.l1Place o w ⟨v, true, true⟩ else s.homePut w v, true)
    else (s, true)
  | _ => (s, true)

/-- Held words taken back by their owner one after the other. -/
def State.takeAllHeld (s : State) (o : Nat) : List Nat → State × Bool
  | [] => (s, true)
  | w :: ws => match s.takeHeld o w with
    | (s, false) => (s, false)
    | (s, true) => s.takeAllHeld o ws

/-- A Fetch by an agent, as the home answers it (R109): d is the core that asks, if a core or unit does. A held word goes back to
its owner first. A word in J for the asking core's own job is given or poison, as R91 lets either happen (R81, R88, R109; log
entry 129). -/
def State.fetchHome (s : State) (d : Option Nat) (w : Nat) : State × LWord :=
  match s.regAt w with
  | none => (s, s.l2Word w)
  | some (.own o u) =>
    let (v, u) := s.ownerWord o u w
    (s, if d = some o || !u then v else .poison)
  | some (.hold o v) => if d = some o then ((s.takeHeld o w).1, v) else (s, .poison)
  | some (.j c _ _) =>
    if d = some c then
      let (v, s) := s.fresh
      (s, if v.getLsbD 0 then s.l2Word w else .poison)
    else (s, .poison)
  | some _ => (s, .poison)

/-- A Register by owner d: the value it merges with, the registration moved to d (R109). A lost word merges with 0. For a host-window
line the home has it in state E or M (R116: RdOwn). -/
def State.registerHome (s : State) (d w : Nat) (u : Bool) : State × LWord :=
  let r : State × LWord := match s.regAt w with
    | none => (s, s.l2Word w)
    | some (.own o u') => (s.ownerDrop o w, (s.ownerWord o u' w).1)
    | some (.j _ _ _) => (s, s.l2Word w)
    | some (.hold _ v) => (s, v)
    | some .lost => (s, .good 0)
    | some (.ownMode _ _) => (s, .poison)
  let t := r.1.setRegAt w (some (.own d u))
  (if isHost (4 * w) then { t with cacheLines := SMap.put t.cacheLines (w / 32) true } else t, r.2)

/-- A word in an NMU's own mode: requests to register it wait (R118). -/
def State.waitsOwn (s : State) (w : Nat) : Bool :=
  match s.regAt w with
  | some (.ownMode _ _) => true
  | _ => false

/-- Whether a word is registered to a runner (R103, R487). -/
def State.ownsWord (s : State) (r w : Nat) : Bool :=
  match s.regAt w with
  | some (.own o _) => o == r
  | _ => false

/-- Whether a request for a word waits until the host has answered a back-invalidate: the word is registered to the host (R487), or a
write meets a copy that the host holds (R115). -/
def State.hostBlocks (s : State) (w : Nat) (writes : Bool) : Bool :=
  s.ownsWord 0xC00 w || (writes && s.snoop.contains (w / 32))

/-- Whether a Register request for a word waits (R115, R118). -/
def State.registerWaits (s : State) (w : Nat) : Bool := s.waitsOwn w || s.hostBlocks w true

/-- The value that a write to part of a word merges with at its home, and the owner's copy dropped (R80, R109, R487). -/
def State.takeOver (s : State) (w : Nat) : State × LWord :=
  match s.regAt w with
  | some (.own o u) => ((s.ownerDrop o w).setRegAt w none, (s.ownerWord o u w).1)
  | some (.hold _ v) => (s.setRegAt w none, v)
  | some .lost => (s.setRegAt w none, .good 0)
  | _ => (s.setRegAt w none, s.l2Word w)

/-- A write made at the home by an agent with no view: the word's owner drops it, and the home holds the value (R487, R424).
Bytes `low` to `low + n - 1` are replaced. Answers whether it was made. Where the request must wait, the move is not made. -/
def State.writeHome (s : State) (who : Option Nat) (ks : Nat) (sl : Bool) (pa n : Nat) (v : LWord) : State × Bool :=
  let w := pa / 4
  if s.registerWaits w then (s.wait, false)
  else match s.ensureLine who pa ks sl with
  | (s, false) => (s, false)
  | (s, true) =>
    match s.exhausted w with
    | (s, true) => (s, false)
    | (s, false) =>
      let (s, old) := s.takeOver w
      (s.homePut w (mergeBytes old (pa % 4) n v), true)

/-- A read made at the home by an agent with no view (R81 steps 3 to 5). Where the request must wait, the move is not made. -/
def State.readHome (s : State) (who : Option Nat) (ks : Nat) (sl : Bool) (pa : Nat) : State × LWord :=
  if s.hostBlocks (pa / 4) false then (s.wait, .poison)
  else match s.ensureLine who pa ks sl with
  | (s, false) => (s, .poison)
  | (s, true) => s.fetchHome none (pa / 4)

/-- A word that becomes lost (R448). -/
def State.loseWord (s : State) (o w : Nat) : State := (s.onCore o (·.l1Drop w)).setRegAt w (some .lost)

/-- How an access uses a page (R61). -/
inductive Use where
  | read | write | atomic | fetch
  deriving DecidableEq, Repr

/-- Whether an address of the on-chip window exists and belongs to a partition (R66). -/
def State.windowOk (s : State) (p pa : Nat) : Bool :=
  let off := pa - windowBase
  if off < 1536 * 0x100000 then
    (s.part p).clm.getLsbD (clusterOf (off / 0x100000)) &&
      (decide (off % 0x100000 < 0x41000) || decide (0x80000 ≤ off % 0x100000))
  else decide (0x100000000 ≤ off) && decide (off < 0x100000000 + 512 * 0x10000) &&
      (s.part p).pcg.getLsbD ((off - 0x100000000) / 0x10000)

/-- The checks of a leaf against its region and use (R61, R63, R64, R66, R302); the cause when one fails, 0 where the manual
states none. Where several fail, the one reported is the first in this order (log entry 130). -/
def State.leafCheck (s : State) (cx : Nat) (l : Leaf) (pa : Nat) (use : Use) : Option Nat :=
  let wr := use = .write ∨ use = .atomic
  if isHbm pa then
    if 496 ≤ paRow pa then some 13
    else if !(s.part (partOf cx)).pcg.getLsbD (homeBank pa) then some 10
    else if !l.sl && !(s.ctx cx).sysc then some 12
    else if wr ∧ l.w = false then some 7
    else if wr ∧ l.fv then some 8
    else if use = .fetch ∧ l.x = false then some 9
    else if l.fv && (s.viewReg pa).isNone then some 11
    else none
  else if isHost pa then
    if l.sl then some 12
    else if l.fv then some 15
    else if wr ∧ l.w = false then some 7
    else if use = .fetch ∧ l.x = false then some 9
    else if use = .atomic ∧ l.hc = false then some 0
    else none
  else if isWindow pa then
    if l.sl then some 12
    else if l.fv || l.hc then some 15
    else if !s.windowOk (partOf cx) pa then some 10
    else if wr ∧ l.w = false then some 7
    else if use = .fetch ∧ l.x = false then some 9
    else if use = .atomic then some 0
    else none
  else some 10

/-- The cause of a failed check: one that the manual does not state is a free value (R302; log entry 8). -/
def State.causeOf (s : State) (c : Nat) : State × Nat :=
  if c = 0 then (s.fresh.2, s.fresh.1.toNat % 256) else (s, c)

/-- A canonical virtual address (R59). -/
def canonical (va : Nat) : Bool := nbits va 63 56 == 0 || nbits va 63 56 == 255

/-- Where a page table may lie (R61). -/
def State.tableCheck (s : State) (cx pa : Nat) : Option Nat :=
  if !isHbm pa then some 10
  else if 496 ≤ paRow pa then some 13
  else if !(s.part (partOf cx)).pcg.getLsbD (homeBank pa) then some 10
  else none

/-- One entry judged at its level (R60, R61): a cause, the next table, or a leaf. -/
inductive Entry where
  | bad (cause : Nat)
  | table (pa : Nat)
  | page (l : Leaf)
  deriving DecidableEq, Repr

/-- An entry judged at its level (R60, R61). Where it breaks several rules, the cause reported is the first in this order (log
entry 130). -/
def judgeEntry (cx level va e : Nat) : Entry :=
  let leaf := nbit e 1
  let ppn := nbits e 51 12
  if !nbit e 0 then .bad 1
  else if !leaf then
    if level = 1 then .bad 3
    else if nbit e 7 then .bad 4
    else if nbits e 63 52 ≠ 0 ∨ nbits e 11 8 ≠ 0 ∨ nbits e 6 2 ≠ 0 then .bad 2
    else .table (ppn * 4096)
  else if nbits e 63 56 ≠ 0 ∨ nbits e 4 2 ≠ 0 then .bad 2
  else if 4 ≤ level then .bad 3
  else if nbit e 7 && level != 1 then .bad 4
  else
    let c16 := nbit e 7
    let lg := if level = 1 then (if c16 then 16 else 12) else if level = 2 then 21 else 30
    if (ppn * 4096) % 2 ^ lg ≠ 0 then .bad 5
    else .page { ctx := cx, lg := lg, vpn := va % 2 ^ 57 / 2 ^ lg, ppn := ppn * 4096 / 2 ^ lg, creg := nbits e 55 53,
                 hc := nbit e 52, fv := nbit e 11, sl := nbit e 10, cpol := nbits e 9 8, x := nbit e 6, w := nbit e 5 }

/-- The walk from a table at a level down (R59, R61, R71): entries are read at the home as an agent other than any core, under
slot 0; non-leaf entries are kept in the walker cache of a die. Of a `c16` group, the entry that the address itself indexes is used,
and the leaf kept from it then serves the group (log entry 130). -/
def State.walkFrom (s : State) (die cx va : Nat) : Nat → Nat → State × Except Nat Leaf
  | 0, _ => (s, .error 3)
  | level + 1, table =>
    match s.tableCheck cx table with
    | some c => (s, .error c)
    | none =>
      let pre := va % 2 ^ 57 / 2 ^ (12 + 9 * level)
      let cached := (SMap.get [] s.walkers die).find? fun e => e.ctx == cx && e.level == level + 1 && e.pre == pre
      match cached with
      | some e => s.walkFrom die cx va level (e.ppn * 4096)
      | none =>
        let ea := table + (pre % 512) * 8
        let (s, lo) := s.readHome (some cx) 0 true ea
        let (s, hi) := s.readHome (some cx) 0 true (ea + 4)
        match pairVal lo hi with
        | none => (s, .error 6)
        | some e => match judgeEntry cx (level + 1) va e.toNat with
          | .bad c => (s, .error c)
          | .page l => (s, .ok l)
          | .table pa =>
            let ent : WalkEnt := { ctx := cx, level := level + 1, pre := pre, ppn := pa / 4096 }
            let s := { s with walkers := SMap.put s.walkers die (SMap.get [] s.walkers die ++ [ent]) }
            s.walkFrom die cx va level pa

/-- A walk of a context's tables (R58, R59). -/
def State.walk (s : State) (die cx va : Nat) : State × Except Nat Leaf :=
  if !canonical va then (s, .error 1)
  else s.walkFrom die cx va 5 (nbits (s.ctx cx).ptb.toNat 51 12 * 4096)

/-- A leaf of a list that maps an address. -/
def findLeaf (l : List Leaf) (cx va : Nat) : Option Leaf := l.find? fun e => e.ctx == cx && va % 2 ^ 57 / 2 ^ e.lg == e.vpn

/-- The physical address of a leaf's page at a virtual address (R59). -/
def Leaf.pa (l : Leaf) (va : Nat) : Nat := l.ppn * 2 ^ l.lg + va % 2 ^ l.lg

/-- A leaf kept in a translation cache of a size, the oldest dropped (R71). -/
def keepLeaf (l : List Leaf) (e : Leaf) (size : Nat) : List Leaf :=
  let l := l ++ [e]
  l.drop (l.length - size)

/-- Translation of an access of a runner (R59 to R66, R71): core TLB, cluster TLB, walk. A leaf is judged at the physical address of
the access: of a large page, the part that is accessed must lie in the regions that the context may reach (log entry 130). -/
def State.translate (s : State) (r cx va : Nat) (use : Use) : State × Except Nat (Nat × Leaf) :=
  let judge (s : State) (l : Leaf) : State × Except Nat (Nat × Leaf) :=
    match s.leafCheck cx l (l.pa va) use with
    | some c => ((s.causeOf c).1, .error (s.causeOf c).2)
    | none => (s, .ok (l.pa va, l))
  if !canonical va then (s, .error 1)
  else match findLeaf (s.core r).tlb cx va with
    | some l => judge s l
    | none =>
      let s := if isCore r then s.count (cntCore r 6) 1 else s
      let keep (s : State) (l : Leaf) : State := s.onCore r fun c => { c with tlb := keepLeaf c.tlb l 256 }
      match (if isCore r then findLeaf (s.cluster (clusterOf r)).tlb cx va else none) with
      | some l => judge (keep s l) l
      | none =>
        match s.walk (runnerDie r) cx va with
        | (s, .error c) => (s, .error c)
        | (s, .ok l) =>
          let s := keep s l
          let k := clusterOf r
          let s := if isCore r then s.setCluster k { s.cluster k with tlb := keepLeaf (s.cluster k).tlb l 8192 } else s
          judge s l

/-- Translation of an access that an engine or the package makes for a context, by a walk of its die. -/
def State.translateHw (s : State) (die cx va : Nat) (use : Use) : State × Except Nat (Nat × Leaf) :=
  match s.walk die cx va with
  | (s, .error c) => (s, .error c)
  | (s, .ok l) => match s.leafCheck cx l (l.pa va) use with
    | some c => ((s.causeOf c).1, .error (s.causeOf c).2)
    | none => (s, .ok (l.pa va, l))

/-- A word of the on-chip window or of host memory read where it lies (R66, R67, R62, R486). -/
def State.readInPlace (s : State) (pa : Nat) : LWord :=
  if isHost pa then (if s.hostOff then .poison else .good (s.hostWord (pa - hostBase)))
  else
    let off := pa - windowBase
    if off < 1536 * 0x100000 then
      let c := s.core (off / 0x100000)
      let o := off % 0x100000
      if o < 0x40000 then c.row (o / 128) (o % 128 / 4)
      else if o < 0x41000 then
        .good (if o / 4 * 4 = 0x40000 then lo32 c.cpybase else if o / 4 * 4 = 0x40004 then hi32 c.cpybase else 0)
      else if 0x80000 ≤ o then c.scr ((o - 0x80000) / 4)
      else .good 0
    else
      let m := (off - 0x100000000) / 0x10000
      let r := s.mreg m
      .good (match (off - 0x100000000) % 0x10000 / 4 with
        | 0 => lo32 r.applied
        | 1 => hi32 r.applied
        | 2 => BitVec.ofNat 32 (s.parked.filter fun p => p.tk.bank == m).length
        | 3 => BitVec.ofNat 32 ((s.fifos.filter fun f => f.bank == m).map fun f => f.tks.length).sum
        | 4 => lo32 r.refused
        | 5 => hi32 r.refused
        | 6 => lo32 r.rtraps
        | 7 => hi32 r.rtraps
        | _ => 0)

/-- A word, or n bytes of it, written where it lies (R62, R66, R67). -/
def State.writeInPlace (s : State) (pa n : Nat) (v : LWord) : State :=
  if isHost pa then
    if s.hostOff then s
    else match v with
      | .poison => s
      | v => { s with host := Memory.writeBytes s.host (pa - hostBase) (toBytes n v.val.toNat) }
  else
    let off := pa - windowBase
    if off < 1536 * 0x100000 then
      let r := off / 0x100000
      let o := off % 0x100000
      if o < 0x40000 then s.onCore r fun c => c.setRow (o / 128) (o % 128 / 4) (mergeBytes (c.row (o / 128) (o % 128 / 4)) (o % 4) n v)
      else if 0x80000 ≤ o then s.onCore r fun c => c.setScr ((o - 0x80000) / 4) (mergeBytes (c.scr ((o - 0x80000) / 4)) (o % 4) n v)
      else s
    else s

/-- Whether a page's accesses are made in place, outside the registry (R62). -/
def inPlacePage (l : Leaf) (pa : Nat) : Bool := isWindow pa || (isHost pa && !l.hc)

/-- A word that the package reads for a context at a virtual address, as a wide load by an agent with no view; none when the
translation fails, poison as read. -/
def State.readVa (s : State) (die cx va : Nat) : State × Except Nat LWord :=
  match s.translateHw die cx va .read with
  | (s, .error c) => (s, .error c)
  | (s, .ok (pa, l)) =>
    if inPlacePage l pa then (s, .ok (s.readInPlace pa))
    else if l.fv then
      let (s, ok) := s.ensureView (some cx) pa
      (s, .ok (if ok then s.l2Word (pa / 4) else .poison))
    else
      let (s, v) := s.readHome (some cx) (s.ctx cx).ks l.sl pa
      (s, .ok v)

/-- n bytes (n at most 4, within a word) that the package writes for a context at a virtual address; the cause when it fails. -/
def State.writeVa (s : State) (die cx va n : Nat) (v : LWord) : State × Option Nat :=
  match s.translateHw die cx va .write with
  | (s, .error c) => (s, some c)
  | (s, .ok (pa, l)) =>
    if inPlacePage l pa then (s.writeInPlace pa n v, none)
    else match s.writeHome (some cx) (s.ctx cx).ks l.sl pa n v with
      | (s, true) => (s, none)
      | (s, false) => (s, some 18)

/-- Consecutive words read for a context (n of them); the cause of the first that fails. -/
def State.readVas (s : State) (die cx : Nat) : Nat → Nat → State × Except Nat (List LWord)
  | _, 0 => (s, .ok [])
  | va, n + 1 =>
    match s.readVa die cx va with
    | (s, .error c) => (s, .error c)
    | (s, .ok v) => match s.readVas die cx (va + 4) n with
      | (s, .error c) => (s, .error c)
      | (s, .ok vs) => (s, .ok (v :: vs))

/-- Consecutive words written for a context; the cause of the first that fails. -/
def State.writeVas (s : State) (die cx : Nat) : Nat → List LWord → State × Option Nat
  | _, [] => (s, none)
  | va, v :: vs =>
    match s.writeVa die cx va 4 v with
    | (s, some c) => (s, some c)
    | (s, none) => s.writeVas die cx (va + 4) vs

/-- Two words read as a 64-bit number; none on a failure or poison. -/
def State.readVa64 (s : State) (die cx va : Nat) : State × Option DWord :=
  match s.readVas die cx va 2 with
  | (s, .ok [lo, hi]) => (s, pairVal lo hi)
  | (s, _) => (s, none)

/-- A 64-bit number as two words. -/
def words64 (v : DWord) : List LWord := [.good (lo32 v), .good (hi32 v)]

end Sys2Proof.Machine
end

