-- ==== Sys2Proof/Machine/Ops.lean ====
section
/-!
DEFINITION. The shared operations: fault records, batches and end processing, frames, taking a trap and termination, and the
issue of a word by a batch (spec/02_work.md R44 to R56, spec/12_lanes_flow.md R273 to R281, spec/23_faults_execution.md).
-/

namespace Sys2Proof.Machine

/-- A 128-byte fault record as 32 words (R425), with its sequence number and TICK. -/
def RecReq.words (r : RecReq) (seq tick : Nat) : List LWord :=
  let iw := (List.range 5).foldl (fun n k => n + (r.iw.getD k 0).toNat * 2 ^ (32 * k)) 0
  let n := iw * 2 ^ 864 + r.info.toNat * 2 ^ 800 + r.addr.toNat * 2 ^ 736 + r.rpc.toNat * 2 ^ 672 + r.pc.toNat * 2 ^ 608 +
    r.lanes.toNat * 2 ^ 576 + r.batch.toNat * 2 ^ 544 + r.wid.toNat * 2 ^ 480 + (r.lseq % 2 ^ 64) * 2 ^ 416 +
    (tick % 2 ^ 64) * 2 ^ 352 + (seq % 2 ^ 64) * 2 ^ 288 + (r.depth % 256) * 2 ^ 56 + (r.act % 16) * 2 ^ 52 +
    (r.kind % 256) * 2 ^ 44 + (r.slot % 64) * 2 ^ 38 + (r.core % 2048) * 2 ^ 27
  (List.range 32).map fun k => .good (BitVec.ofNat 32 (n / 2 ^ (32 * k)))

/-- How the writing of a record ends (R424): written at a VA, the ring is full, or the ring cannot be used. -/
inductive RecRes where
  | written (va : Nat)
  | full
  | lost
  deriving DecidableEq, Repr

/-- The ring's `drop` counter incremented, where it can be (R424). -/
def State.dropRecord (s : State) (die cx : Nat) : State :=
  let base := (s.ctx cx).ringBase
  match s.readVa64 die cx (base + 16) with
  | (s, some d) => (s.writeVas die cx (base + 16) (words64 (d + 1))).1
  | (s, none) => s

/-- A record written to its context's fault ring (R424). -/
def State.writeRecord (s : State) (r : RecReq) : State × RecRes :=
  let die := runnerDie r.core
  let base := (s.ctx r.ctx).ringBase
  if base = 0 then (s, .lost)
  else
    let unusable (s : State) : State × RecRes := (s.dropRecord die r.ctx, .lost)
    match s.readVa64 die r.ctx base with
    | (s, none) => unusable s
    | (s, some head) => match s.readVa64 die r.ctx (base + 8) with
      | (s, none) => unusable s
      | (s, some tail) =>
        if (head - tail).toNat = (s.ctx r.ctx).ringCap then (s, .full)
        else
          let va := base + 128 + 128 * (head.toNat % (s.ctx r.ctx).ringCap)
          match s.writeVas die r.ctx va (r.words head.toNat s.tick.toNat) with
          | (s, some _) => unusable s
          | (s, none) => match s.writeVas die r.ctx base (words64 (head + 1)) with
            | (s, some _) => unusable s
            | (s, none) => (s, .written va)

/-- One pending record written or discarded (R424). -/
def State.flushOne (s : State) (r : RecReq) : State :=
  match s.writeRecord r with
  | (s, .full) => s.dropRecord (runnerDie r.core) r.ctx
  | (s, _) => s

/-- The records asked for in a move, written at its end (R424); those from one on that must wait are kept. A failure met while one is
written is recorded nowhere. -/
def State.flushRecords (s : State) : State :=
  match s.recq with
  | [] => s
  | l =>
    let p := l.foldl (fun (p : State × List RecReq) r =>
      let t := p.1.flushOne r
      if p.2.isEmpty && !t.stall then ({ t with recq := [] }, []) else (p.1, p.2 ++ [r])) ({ s with recq := [] }, [])
    { p.1 with recq := p.2 }

/-- The fibre of a lane. -/
def Spindle.fibre (sp : Spindle) (lane : Nat) : Option Fibre := SMap.find sp.fibres lane

/-- A fibre changed by a function, where there is one. -/
def Spindle.onFibre (sp : Spindle) (lane : Nat) (f : Fibre → Fibre) : Spindle :=
  match sp.fibre lane with
  | some x => { sp with fibres := SMap.put sp.fibres lane (f x) }
  | none => sp

/-- The batch that holds a lane. -/
def Spindle.batchOf (sp : Spindle) (lane : Nat) : Option Batch := sp.batches.find? fun b => b.lanes.getLsbD lane

/-- The batches without some lanes; a batch that loses its last lane is gone (R46). -/
def dropLanes (m : Word) (bs : List Batch) : List Batch :=
  (bs.map fun b => { b with lanes := b.lanes &&& ~~~m }).filter fun b => b.lanes != 0

/-- Whether some lanes take the current batch with them: it is among them whole, and no other batch is current (R52; log entry 14). -/
def Spindle.takesCurrent (sp : Spindle) (m : Word) : Bool :=
  (sp.batches.any fun b => b.current && b.lanes &&& ~~~m == 0) && !sp.batches.any fun b => b.current && b.lanes &&& m == 0

/-- The lanes leave their batches and form one batch that waits (R46, R53). -/
def Spindle.split (sp : Spindle) (lanes : Word) (w : Wait) (mark : Bool) : Spindle :=
  if lanes = 0 then sp
  else { sp with batches := dropLanes lanes sp.batches ++
           [{ lanes := lanes, wait := w, mark := mark, waited := 0, current := sp.takesCurrent lanes }] }

/-- A lane added to the group of its key. -/
def addToGroup {κ : Type} [DecidableEq κ] (k : κ) (lane : Nat) : List (κ × Word) → List (κ × Word)
  | [] => [(k, bitMask lane)]
  | (j, m) :: l => if j = k then (j, m ||| bitMask lane) :: l else (j, m) :: addToGroup k lane l

/-- The lanes grouped by key, the group of the lowest lane first. -/
def groupLanes {κ : Type} [DecidableEq κ] (key : Nat → κ) (lanes : List Nat) : List (κ × Word) :=
  lanes.foldl (fun g lane => addToGroup (key lane) lane g) []

/-- Where a lane stands: PC and window base. -/
def Spindle.at_ (sp : Spindle) (lane : Nat) : BitVec 64 × Nat :=
  match sp.fibre lane with
  | some f => (f.pc, f.base)
  | none => (0, 0)

/-- The lanes leave their batches and form one ready batch for each PC and window base (R46); where `cur`, or where the
current batch is among them, the batch of the lowest lane is the current one (log entry 14). -/
def Spindle.regroup (sp : Spindle) (lanes : Word) (mark cur : Bool) : Spindle :=
  let gs := groupLanes sp.at_ ((lanesOf lanes).filter fun i => (sp.fibre i).isSome)
  let cur := cur || sp.takesCurrent lanes
  { sp with batches := dropLanes lanes sp.batches ++
      gs.zipIdx.map fun g => { lanes := g.1.2, wait := .none, mark := mark, waited := 0, current := cur && g.2 == 0 } }

/-- A lane taken out of the loop records that a test picks; an empty record is freed (R278, R279). -/
def leaveLoops (lane : Nat) (p : LoopRec → Bool) (l : List LoopRec) : List LoopRec :=
  (l.map fun r => if p r then { r with rc := SMap.erase r.rc lane } else r).filter fun r => !r.rc.isEmpty

/-- End processing over the records, newest first (R278): the records after it, and the start of a loop that goes on. -/
def endLoops (lane : Nat) (x : BitVec 64) (base : Nat) : List LoopRec → List LoopRec × Option (BitVec 64)
  | [] => ([], none)
  | r :: l =>
    let here : Option Word := if r.stop = x ∧ r.base = base then SMap.find r.rc lane else none
    match here with
    | none => let (l', p) := endLoops lane x base l
              (r :: l', p)
    | some n =>
      if 1 < n.toNat then ({ r with rc := SMap.put r.rc lane (n - 1) } :: l, some r.start)
      else
        let rc := SMap.erase r.rc lane
        let (l', p) := endLoops lane x base l
        (if rc.isEmpty then l' else { r with rc := rc } :: l', p)

/-- A lane completes the instruction at X, `len` words long (R278). -/
def Spindle.endProc (sp : Spindle) (lane : Nat) (x : BitVec 64) (len : Nat) : Spindle :=
  match sp.fibre lane with
  | none => sp
  | some f =>
    let (loops, p) := endLoops lane x f.base sp.loops
    { sp with loops := loops }.onFibre lane fun f => { f with pc := p.getD (x + BitVec.ofNat 64 (4 * len)) }

/-- A lane sent to a target by a control word at X (R278, R279): the next instruction is ordinary completion. -/
def Spindle.sendTo (sp : Spindle) (lane : Nat) (x : BitVec 64) (len : Nat) (target : BitVec 64) : Spindle :=
  match sp.fibre lane with
  | none => sp
  | some f =>
    if target = x + BitVec.ofNat 64 (4 * len) then sp.endProc lane x len
    else { sp with loops := leaveLoops lane (fun r => r.stop == x && r.base == f.base) sp.loops }.onFibre lane
      fun f => { f with pc := target }

/-- The lanes complete their instruction (R278) and form their batches anew (R46). -/
def Spindle.finish (sp : Spindle) (lanes : Word) (len : Nat) (mark cur : Bool) : Spindle :=
  ((lanesOf lanes).foldl (fun sp i => sp.endProc i (sp.at_ i).1 len) sp).regroup lanes mark cur

/-- The lanes of a word complete it and go on. -/
def State.complete (s : State) (x : Iss) (lanes : Word) : State :=
  s.onCore x.core fun c => c.onSpindle x.slot fun sp => sp.finish lanes x.len x.mark true

/-- The lanes of a word park, with the PC still at it. -/
def State.park (s : State) (x : Iss) (lanes : Word) (w : Wait) : State :=
  s.onCore x.core fun c => c.onSpindle x.slot fun sp => sp.split lanes w x.mark

/-- The lanes of a parked batch go on after their instruction (R55, R90); the batch keeps its marker. -/
def Core.release (c : Core) (slot : Nat) (lanes : Word) (len : Nat) : Core :=
  c.onSpindle slot fun sp =>
    let mark := sp.batches.any fun b => b.lanes &&& lanes != 0 && b.mark
    sp.finish lanes len mark false

/-- The void post of a ticket (R371). -/
def voidPost (t : Ticket) : Post := ⟨t, 0, 0, [], .good 0, false⟩

/-- The lanes leave the frames that a test picks; a frame with no members left is freed, but an entry frame stays (R274). -/
def leaveFrames (lanes : Word) (p : Frame → Bool) (l : List Frame) : List Frame :=
  (l.map fun f => if p f then { f with members := f.members &&& ~~~lanes } else f).filter
    fun f => f.members != 0 || f.depth == 0

/-- The fibres of some lanes end (R281, R371): the lanes empty, they leave frames, loop records and batches, their outstanding
results are discarded, and void is posted for an unanswered ticket. Where the whole workgroup ends, its frames stay its own until its
engine jobs are complete (R290, R334). -/
def Core.endLanes (c : Core) (slot : Nat) (lanes : Word) (whole : Bool) : Core :=
  match c.spindle slot with
  | none => c
  | some sp =>
    let fs := sp.fibres.filter fun e => lanes.getLsbD e.1
    let fids := fs.map fun e => e.2.fid
    let voids := fs.filterMap fun e => match e.2.ticket with
      | some t => if e.2.answered then none else some (voidPost t)
      | none => none
    let loops := (lanesOf lanes).foldl (fun l i => leaveLoops i (fun _ => true) l) sp.loops
    let sp' := { sp with fibres := sp.fibres.filter fun e => !lanes.getLsbD e.1, batches := dropLanes lanes sp.batches,
                         loops := loops, frames := if whole then sp.frames else leaveFrames lanes (fun _ => true) sp.frames }
    { c.setSpindle slot sp' with posts := c.posts ++ voids, results := c.results.filter fun r => !fids.contains r.fid,
                                 marks := c.marks.filter fun m => !fids.contains m.fid }

/-- The spindles of a workgroup that stand in its core, by slot. -/
def Core.spindlesOf (c : Core) (g : Nat) : SMap Spindle := c.spindles.filter fun e => e.2.wg == g

/-- The void posts of a spilled spindle's unanswered tickets (R371). -/
def Spilled.voids (g : Nat) (u : Spilled) : List Post :=
  match u with
  | .spindle wg _ sp _ =>
    if wg ≠ g then []
    else sp.fibres.filterMap fun e => if e.2.answered then none else e.2.ticket.map voidPost
  | .granule _ _ => []

/-- Every fibre of a workgroup ends at once, spilled ones too (R290, R429). -/
def Core.endAll (c : Core) (g : Nat) : Core :=
  let posts := c.spilled.flatMap (·.voids g)
  let c := (c.spindlesOf g).foldl (fun c e => c.endLanes e.1 0xFFFFFFFF true) c
  { c with posts := c.posts ++ posts, spilled := c.spilled.filter fun u => match u with
    | .spindle wg _ _ _ => wg != g
    | .granule _ _ => true }

/-- The granules of a quarter that frames hold (R48), as a mask. A spilled spindle holds none (R432). -/
def Core.usedGranules (c : Core) (q : Nat) : BitVec 64 :=
  c.spindles.foldl (fun m e =>
    if e.1 / 16 = q ∧ !e.2.spilled then
      e.2.frames.foldl (fun m f => m ||| (BitVec.ofNat 64 (2 ^ (f.rows / 8) - 1) <<< ((f.base - quarterRow q) / 8))) m
    else m) 0

/-- The first granule of the lowest run of free granules that is long enough (R48). -/
def freeRun (used : BitVec 64) (g : Nat) : Option Nat :=
  (List.range 64).find? fun k => decide (k + g ≤ 64) && (used &&& (BitVec.ofNat 64 (2 ^ g - 1) <<< k)) == 0

/-- The rows of a run of granules for a frame, if the quarter has one (R48). -/
def Core.frameRun (c : Core) (q g : Nat) : Option Nat := (freeRun (c.usedGranules q) g).map fun k => quarterRow q + 8 * k

/-- The link data D (R50) as a number. -/
def linkData (depth crows cbase : Nat) (rpc : BitVec 64) : Nat :=
  (depth % 256) * 2 ^ 84 + (crows % 512) * 2 ^ 75 + (cbase % 2048) * 2 ^ 64 + rpc.toNat

/-- A lane of the link row (R50): D, with the caller's p1 to p26 in the lanes of the batch; a poisoned v1 stores 0. -/
def linkWord (d : Nat) (inBatch : Bool) (v1 : LWord) (i : Nat) : LWord :=
  let p : Word := if inBatch && !v1.isPoison then v1.val &&& 0x07FFFFFE else 0
  .good (p ||| BitVec.ofNat 32 (nbits d (6 * i + 5) (6 * i + 1) * 2 ^ 27 + nbits d (6 * i) (6 * i)))

/-- D read back from a link row (R50); none when any of the 32 lanes that carry it reads as poison (R51; log entry 15). -/
def Core.linkRead (c : Core) (base : Nat) : Option Nat :=
  (List.range 32).foldl (fun acc i => match acc, c.row base i with
    | some n, .poison => let _ := n; none
    | some n, w => some (n + (nbits w.val.toNat 31 27 * 2 + nbits w.val.toNat 0 0) * 2 ^ (6 * i))
    | none, _ => none) (some 0)

/-- A frame taken for the lanes of a batch as `call` does (R273 lines 1 and 4 to 13); none where no run is free. -/
def Core.takeFrame (c : Core) (slot : Nat) (b : Word) (dem args : Nat) (target rpc : BitVec 64)
    (handler : Option (BitVec 64)) : Option Core :=
  match c.spindle slot with
  | none => none
  | some sp =>
    let low := lowestLane b
    match sp.fibre low, sp.frameOf low with
    | some f, some fr =>
      let g := ceilDiv dem 8
      match c.frameRun (quarterOf slot) g with
      | none => none
      | some base =>
        let d := linkData (fr.depth + 1) f.rows f.base rpc
        let lanes := List.range 32
        let c1 := c.zeroRows base (8 * g)
        let c2 := lanes.foldl (fun c' i => c'.setRow base i (linkWord d (b.getLsbD i) (c.row (f.base + 1) i) i)) c1
        let c3 := (List.range (args + 1)).foldl (fun c' k =>
          lanes.foldl (fun c' i => c'.setRow (base + 1 + k) i (c.row (f.base + 1 + k) i)) c') c2
        let sp1 := { sp with frames := sp.frames ++
          [{ base := base, rows := 8 * g, depth := fr.depth + 1, members := b, handler := handler }] }
        some (c3.setSpindle slot ((lanesOf b).foldl (fun sp i => sp.onFibre i fun f =>
          { f with pc := target, base := base, rows := 8 * g }) sp1))
    | _, _ => none

/-- The record of a fibre's trap (R425, R454). -/
def State.trapRec (s : State) (r slot : Nat) (t : TrapInfo) (act : Nat) : RecReq :=
  let c := s.core r
  let low := lowestLane t.lanes
  match c.spindle slot with
  | none => agentRec 0 act t.kind t.info.toNat t.addr.toNat t.pc.toNat
  | some sp =>
    let w : Workgroup := (c.wg sp.wg).getD default
    { ctx := w.rcd.ctx, act := act, kind := t.kind, info := t.info, addr := t.addr, pc := t.pc, rpc := t.rpc,
      lanes := t.lanes, batch := t.batch, wid := ((sp.fibre low).map (·.wid)).getD 0, lseq := w.rcd.lseq,
      depth := ((sp.frameOf low).map (·.depth)).getD 0, slot := if isCore r then slot else 0,
      core := if isCore r then r else 0x7FF, iw := t.iw }

/-- Every fibre of a workgroup ends at once (R429 step 1); steps 2 and 3 are made when it ends. -/
def State.killWg (s : State) (r g : Nat) : State := s.onCore r fun c => (c.endAll g).onWg g fun w => { w with killed := true }

/-- A workgroup is terminated by an agent that is no fibre of it (R429 step 1), and the record is asked for; a full ring discards it
(R424; log entry 16). -/
def State.terminate (s : State) (r g : Nat) (rc : RecReq) : State :=
  match (s.core r).wg g with
  | none => s
  | some w => if w.killed then s else { s with recq := s.recq ++ [{ rc with act := 1 }] }.killWg r g

/-- The kinds that terminate (R426, R437). -/
def terminates (kind : Nat) : Bool :=
  kind == 3 || kind == 7 || kind == 18 || kind == 19 || kind == 20

/-- A batch waiting for a frame or for ring room, with what is known of its record. -/
def State.holdTrap (s : State) (r slot : Nat) (lanes : Word) (t : TrapInfo) : State :=
  s.onCore r fun c => c.onSpindle slot fun sp => sp.split lanes (.trap t) false

/-- Lines 6 to 10 of R427: the handler's frame, with the record's VA and the kind in v2 to v4, and the PC at the handler. -/
def State.enterHandler (s : State) (r slot cx : Nat) (lanes : Word) (t : TrapInfo) (va : BitVec 64) : State :=
  let k := s.ctx cx
  match (s.core r).takeFrame slot lanes k.hrows 0 (BitVec.ofNat 64 k.entry) t.rpc (some va) with
  | none => s.holdTrap r slot lanes { t with recVa := some va }
  | some c =>
    let base := ((c.spindle slot).map fun sp => (sp.at_ (lowestLane lanes)).2).getD 0
    let c := (lanesOf lanes).foldl (fun c i =>
      ((c.setReg base 2 i (.good (lo32 va))).setReg base 3 i (.good (hi32 va))).setReg base 4 i
        (.good (BitVec.ofNat 32 t.kind))) c
    s.setCore r (c.onSpindle slot fun sp => sp.regroup lanes false false)

/-- TAKING A TRAP (R427): the lanes of a batch and what they raise. A trap on a unit that is no core terminates (R454). While the ring is
full, the batch stays blocked, whatever the delivery (R424; log entry 16). -/
def State.deliver (s : State) (r slot : Nat) (lanes : Word) (t : TrapInfo) : State :=
  match (s.core r).spindle slot with
  | none => s
  | some sp =>
    let cx := (((s.core r).wg sp.wg).getD default).rcd.ctx
    let k := s.ctx cx
    let rc := s.trapRec r slot t 0
    let kill : State := match s.writeRecord { rc with act := 1 } with
      | (s, .full) => s.holdTrap r slot lanes t
      | (s, _) => s.killWg r sp.wg
    if !isCore r || terminates t.kind || k.entry == 0 || k.ringBase == 0 then kill
    else if t.kind == 15 && Config.debuggerAttached s.turn then
      match s.writeRecord { rc with act := 2 } with
      | (s, .full) => s.holdTrap r slot lanes t
      | (s, _) => s.onCore r fun c => { c with smask := c.smask ||| ((1 : BitVec 64) <<< slot) }.onSpindle slot fun (sp : Spindle) =>
          ((lanesOf lanes).foldl (fun (sp : Spindle) i => sp.onFibre i fun f => { f with pc := t.rpc }) sp).regroup lanes false false
    else if rc.depth == 255 then kill
    else match t.recVa with
      | some va => s.enterHandler r slot cx lanes t va
      | none => match s.writeRecord rc with
        | (s, .full) => s.holdTrap r slot lanes t
        | (s, .lost) => s.killWg r sp.wg
        | (s, .written va) => s.enterHandler r slot cx lanes t (BitVec.ofNat 64 va)

/-- A trap raised by a word: the lanes `who` leave the batch as a batch of their own and are delivered; `failed` names the
lanes that failed (R46, R426, R427). The records already asked for are written first. -/
def State.raise (s : State) (x : Iss) (who failed : Word) (kind info addr : Nat) (rpc : BitVec 64) : State :=
  let t : TrapInfo := { kind := kind, info := BitVec.ofNat 64 info, addr := BitVec.ofNat 64 addr, lanes := failed,
                        batch := x.batch, pc := x.pc, rpc := rpc, iw := x.words.map (BitVec.ofNat 32), recVa := none }
  (s.flushRecords.holdTrap x.core x.slot who t).deliver x.core x.slot who t

/-- A trap of the whole batch, with the PC of the word (R426). -/
def State.trapAll (s : State) (x : Iss) (failed : Word) (kind info addr : Nat) : State :=
  s.raise x x.lanes failed kind info addr x.pc

/-- A trap of single lanes, with the PC of the word; they leave the batch (R426). -/
def State.trapLanes (s : State) (x : Iss) (lanes : Word) (kind info addr : Nat) : State :=
  if lanes = 0 then s else s.raise x lanes lanes kind info addr x.pc

/-- A list of lanes with a trap each: the lanes of one kind leave as one batch, which reports what its lowest lane met (R426, R428). -/
def State.trapEach (s : State) (x : Iss) (ts : List (Nat × Nat × Nat × Nat)) : State :=
  let at_ (i : Nat) : Nat × Nat × Nat := ((ts.find? fun t => t.1 == i).map Prod.snd).getD (0, 0, 0)
  (groupLanes (fun i => (at_ i).1) (ts.map Prod.fst)).foldl (fun s g =>
    s.trapLanes x g.2 g.1 (at_ (lowestLane g.2)).2.1 (at_ (lowestLane g.2)).2.2) s

/-- The lanes of a word that go on, less some. -/
def Iss.without (x : Iss) (m : Word) : Iss := { x with lanes := x.lanes &&& ~~~m, gt := x.gt &&& ~~~m }

/-- The context in which the current word issues (R46): none when no batch stands at it. -/
def State.context (s : State) (h : Hdr) : Option Iss :=
  let r := s.cur.core
  let c := s.core r
  if s.cur.lanes = 0 then none
  else match c.spindle s.cur.slot with
  | none => none
  | some sp =>
    match sp.fibre (lowestLane s.cur.lanes) with
    | none => none
    | some f =>
      some { core := r, slot := s.cur.slot, lanes := s.cur.lanes, batch := s.cur.lanes,
             gt := maskOf ((lanesOf s.cur.lanes).filter fun l => guardAt c f.base h.guard l == some true),
             pc := f.pc, base := f.base, rows := f.rows, seg := sp.seg, wg := sp.wg,
             cx := ((c.wg sp.wg).getD default).rcd.ctx, len := h.form.words, mark := h.s, lit := h.lit,
             words := s.cur.words, tick := s.tick }

/-- The registers of a word at or beyond the frame size (R166). -/
def outOfFrame (i : Instr) (rows : Nat) : List Nat :=
  ((regReads i).map Prod.fst ++ regWrites i).filter fun r => decide (rows ≤ r)

/-- The hazard of a word in a lane (R434), as `info`: a marked row lane that it reads or writes. -/
def hazardAt (c : Core) (x : Iss) (i : Instr) (lane : Nat) : Option Nat :=
  let marked (k l : Nat) : Option HzMark := c.marks.find? fun m => m.slot == x.slot && m.row == x.base + k && m.lane == l
  let info (k l : Nat) (m : HzMark) : Nat := k + (if m.flags then 256 else 0) + l * 512
  let reads := (regReads i).filterMap fun e =>
    let l := patLane e.2 x.seg lane
    if e.1 = 0 then none else (marked e.1 l).map (info e.1 l)
  let flag := if readsFlags i then (marked 1 lane).map (info 1 lane) else none
  let writes := (regWrites i).filterMap fun k => if k = 0 then none else (marked k lane).map (info k lane)
  (reads ++ flag.toList ++ writes).head?

/-- A residue mismatch that a word meets in a lane (R436): row and lane. -/
def mismatchAt (c : Core) (x : Iss) (i : Instr) (lane : Nat) : Option (Nat × Nat) :=
  let reads := if x.gt.getLsbD lane then
      (regReads i).filterMap fun e => if e.1 = 0 then none else some (x.base + e.1, patLane e.2 x.seg lane)
    else []
  let v1 := if readsV1 i || (hdrOf i).guard.idx != 0 then [(x.base + 1, lane)] else []
  (reads ++ v1).find? fun e => (c.row e.1 e.2).isBad

/-- What stops a word for its whole batch before it has any effect: frame range (R166), hazard (R434), machine check (R436). -/
inductive Stop where
  | none
  | frame (regs : List Nat)
  | hazard (lanes : Word) (info : Nat)
  | check (row lane : Nat)
  deriving DecidableEq, Repr

/-- Which of them a word meets (log entry 17 for their order). -/
def stopOf (c : Core) (x : Iss) (hz : Bool) (i : Instr) : Stop :=
  let out := outOfFrame i x.rows
  let gts := lanesOf x.gt
  if x.gt != 0 && !out.isEmpty then .frame out
  else match (lanesOf x.lanes).findSome? (mismatchAt c x i) with
    | some (row, lane) => .check row lane
    | none =>
      if hz then
        let hs := gts.filter fun l => (hazardAt c x i l).isSome
        match hs with
        | [] => .none
        | l :: _ => .hazard (maskOf hs) ((hazardAt c x i l).getD 0)
      else .none

/-- A machine check (R436, R429): the second mismatch of one issue, at a read or at a result, in a row and lane. -/
def State.machineCheck (s : State) (x : Iss) (row lane : Nat) (res : Bool) : State :=
  let s := ((s.bumpLife 0 1).bumpLife 1 1).checkTrigger
  let t : TrapInfo := { kind := 19, info := BitVec.ofNat 64 (row + lane * 2048 + res.toNat * 65536), addr := 0, lanes := bitMask lane,
                        batch := x.batch, pc := x.pc, rpc := 0, iw := x.words.map (BitVec.ofNat 32), recVa := none }
  s.flushRecords.deliver x.core x.slot x.lanes t

/-- THE ISSUE OF A WORD: what the whole batch meets first, then the poisoned guards (R167), then the word's own effect on the
lanes that are left. -/
def State.issue (s : State) (i : Instr) (body : Iss → State → State) : State :=
  match s.context (hdrOf i) with
  | none => s
  | some x =>
    let c := s.core x.core
    match stopOf c x (s.ctx x.cx).hz i with
    | .frame [r] => s.trapAll x x.gt 2 r 0
    | .frame rs =>
      let (n, s) := s.fresh
      s.trapAll x x.gt 2 (rs.getD (n.toNat % rs.length) 0) 0
    | .check row lane => s.machineCheck x row lane false
    | .hazard lanes info => s.trapAll x lanes 17 info 0
    | .none =>
      let bad := maskOf ((lanesOf x.lanes).filter fun l => guardAt c x.base (hdrOf i).guard l == none)
      if bad = 0 then body x s
      else
        let s := s.trapLanes x bad 5 16 0
        let y := x.without bad
        if y.lanes = 0 then s else body y s

/-- The effects of an ALU-class word made in its lanes (R174), and the batch goes on (R278). All sources are read before any
result is written (R169, R172). -/
def aluBody (f : Core → Iss → Nat → LaneEffect) (x : Iss) (s : State) : State :=
  let c := s.core x.core
  (s.setCore x.core ((lanesOf x.gt).foldl (fun c' i => c'.applyLane x.base i (f c x i)) c)).complete x x.lanes

/-- An ALU-class word. -/
def aluWord (i : Instr) (f : Core → Iss → Nat → LaneEffect) (s : State) : Host.Outcome State Fault Refusal :=
  .next (s.issue i (aluBody f))

/-- A variable-latency result of a lane (R174, R176), with the hazard marks it sets (R434). -/
def Core.addResult (c : Core) (x : Iss) (hz : Bool) (lane : Nat) (e : LaneEffect) : Core :=
  let fid := (((c.spindle x.slot).bind fun sp => sp.fibre lane).map (·.fid)).getD 0
  let ws := e.regs.filter fun w => w.1 != 0
  let ms := ws.map (fun w => HzMark.mk fid x.slot (x.base + w.1) lane false) ++
    (if e.bit.isSome then [HzMark.mk fid x.slot (x.base + 1) lane false] else []) ++
    (if e.flags = 0 then [] else [HzMark.mk fid x.slot (x.base + 1) lane true])
  { c with results := c.results ++ [{ fid := fid, slot := x.slot, lane := lane, words := ws.map fun w => (x.base + w.1, w.2),
                                      v1row := x.base + 1, pd := e.bit, flags := e.flags, smp := none }],
           marks := if hz then c.marks ++ ms else c.marks }

/-- The effects of a variable-latency word: its results go on their way, and the batch goes on. -/
def varBody (f : Core → Iss → Nat → LaneEffect) (x : Iss) (s : State) : State :=
  let c := s.core x.core
  let hz := (s.ctx x.cx).hz
  (s.setCore x.core ((lanesOf x.gt).foldl (fun c' i => c'.addResult x hz i (f c x i)) c)).complete x x.lanes

/-- A variable-latency word of no memory access. -/
def varWord (i : Instr) (f : Core → Iss → Nat → LaneEffect) (s : State) : Host.Outcome State Fault Refusal :=
  .next (s.issue i (varBody f))

/-- The fibre number of a lane of a word. -/
def fidOf (c : Core) (x : Iss) (lane : Nat) : Nat := (((c.spindle x.slot).bind fun sp => sp.fibre lane).map (·.fid)).getD 0

/-- A memory operation put into the issue queue of a lane's fibre (R74). -/
def Core.enqueue (c : Core) (x : Iss) (lane : Nat) (k : OpKind) : Core :=
  { c with iq := c.iq ++ [{ seen := false, counted := false, grp := c.issued.toNat, tick := x.tick, fid := fidOf c x lane, slot := x.slot, lane := lane, wg := x.wg, ctx := x.cx, kind := k }] }

/-- A hazard mark set for a row of a lane (R434). -/
def Core.markRow (c : Core) (x : Iss) (hz : Bool) (lane row : Nat) : Core :=
  if hz then { c with marks := c.marks ++ [{ fid := fidOf c x lane, slot := x.slot, row := row, lane := lane, flags := false }] }
  else c

/-- Whether an operation has a register result that has not landed (R175). -/
def OpKind.hasResult : OpKind → Bool
  | .load .. => true
  | .atomic _ _ _ _ _ _ _ dst => dst.isSome
  | .mbar _ _ _ dst _ _ _ => dst.isSome
  | .evt _ _ dst => dst.isSome
  | .smp .. => true
  | .chain .. => true
  | _ => false

/-- Whether a fibre has a variable-latency result outstanding (R175). -/
def Core.outstanding (c : Core) (fid : Nat) : Bool :=
  (c.results.any fun r => r.fid == fid) || c.iq.any fun o => o.fid == fid && o.kind.hasResult

/-- A batch is ready (R53), but for its spindle's own halts. -/
def Batch.ready (b : Batch) : Bool := decide (b.wait = .none) && !b.mark

/-- A spindle may issue: it is not spilled (R432), its workgroup is not halted (R460), its slot is not stopped
(R479), it has met no return trap (R340). -/
def Core.mayIssue (c : Core) (slot : Nat) (sp : Spindle) : Bool :=
  !sp.spilled && !c.smask.getLsbD slot && !(sp.batches.any fun b => b.wait == .returnTrap) &&
    match c.wg sp.wg with
    | some w => !w.halted
    | none => false

/-- The spindle in a slot and its batch at a lane, where it may be released (R53): not spilled or halted. -/
def State.waitAt (s : State) (r slot lane : Nat) : Option (Spindle × Batch) :=
  match (s.core r).spindle slot with
  | none => none
  | some sp =>
    if sp.spilled || ((s.core r).wg sp.wg).any (fun w => w.halted) then none
    else (sp.batchOf lane).map fun b => (sp, b)

end Sys2Proof.Machine
end

