-- ==== Sys2Proof/Machine/Issue.lean ====
section
/-!
DEFINITION. Which batch a quarter issues (spec/02_work.md R52, R53), the fetch of its word (spec/24_faults_memory.md R440,
spec/08_encoding.md R158), and the words that trap before they have a meaning (R184, R340).
-/

namespace Sys2Proof.Machine

/-- One word of instructions, read at its home by an agent with no view (R440; log entry 18); the cause when it fails. -/
def State.fetchWord (s : State) (r cx va : Nat) : State × Except Nat Nat :=
  match s.translate r cx va .fetch with
  | (s, .error c) => (s, .error c)
  | (s, .ok (pa, l)) =>
    let p : State × LWord :=
      if inPlacePage l pa then (s, s.readInPlace pa)
      else if l.fv then
        let (s, ok) := s.ensureView (some cx) pa
        (s, if ok then s.l2Word (pa / 4) else .poison)
      else s.readHome (some cx) (s.ctx cx).ks l.sl pa
    match p with
    | (s, .poison) => (s, .error 14)
    | (s, w) => (s, .ok w.val.toNat)

/-- The words that follow the first of an instruction; a failure names its cause and its VA. -/
def State.fetchMore (s : State) (r cx : Nat) : Nat → Nat → State × Except (Nat × Nat) (List Nat)
  | _, 0 => (s, .ok [])
  | va, n + 1 =>
    match s.fetchWord r cx va with
    | (s, .error c) => (s, .error (c, va))
    | (s, .ok w) => match s.fetchMore r cx (va + 4) n with
      | (s, .error e) => (s, .error e)
      | (s, .ok ws) => (s, .ok (w :: ws))

/-- The length in words that the first word sets (R158). -/
def lengthOf (w : Nat) : Nat :=
  match w % 4 with
  | 0 => 1
  | 3 => 5
  | _ => 3

/-- The words of the instruction at a PC. -/
def State.fetchAt (s : State) (r cx : Nat) (pc : BitVec 64) : State × Except (Nat × Nat) (List Nat) :=
  match s.fetchWord r cx pc.toNat with
  | (s, .error c) => (s, .error (c, pc.toNat))
  | (s, .ok w) => match s.fetchMore r cx ((pc.toNat + 4) % 2 ^ 64) (lengthOf w - 1) with
    | (s, .error e) => (s, .error e)
    | (s, .ok ws) => (s, .ok (w :: ws))

/-- The ready batch that has waited longest, ties to the lowest lane (R52). -/
def longestWait (bs : List Batch) : Option Batch :=
  bs.foldl (fun best b => match best with
    | none => some b
    | some a => if a.waited < b.waited ∨ (a.waited = b.waited ∧ lowestLane b.lanes < lowestLane a.lanes) then some b
      else some a) none

/-- The batch that a spindle issues (R52). -/
def Spindle.choose (sp : Spindle) : Option Batch :=
  let rs := sp.batches.filter Batch.ready
  match rs.find? (·.current) with
  | some b => if sp.lastS || rs.any (fun a => !a.current && decide (32 ≤ a.waited)) then longestWait rs else some b
  | none => longestWait rs

/-- The batch that a debugger steps (R480): the batch of a lane, or the one R52 would choose. -/
def Spindle.stepBatch (sp : Spindle) (lane : Nat) : Option Batch :=
  if lane < 32 then (sp.batchOf lane).filter Batch.ready else sp.choose

/-- The slot and the batch that a quarter issues next (R52, R480): the spindle being stepped, else the first slot after the
last one that issued. -/
def Core.pick (c : Core) (q : Nat) : Option (Nat × Batch) :=
  let stepped : Option (Nat × Batch) :=
    if c.dbgSt = 2 ∧ c.dbgSlot / 16 = q then
      (c.spindle c.dbgSlot).bind fun sp =>
        if { c with smask := 0 }.mayIssue c.dbgSlot sp then (sp.stepBatch c.dbgLane).map fun b => (c.dbgSlot, b) else none
    else none
  match stepped with
  | some p => some p
  | none =>
    let last := c.qptr.getD q 15
    ((List.range 16).map fun k => 16 * q + (last + 1 + k) % 16).findSome? fun slot =>
      (c.spindle slot).bind fun sp => if c.mayIssue slot sp then sp.choose.map fun b => (slot, b) else none

/-- The counts of an issue (R52): the batch becomes current, the other ready batches of the spindle have waited one more. -/
def Spindle.noteIssue (sp : Spindle) (b : Batch) (s : Bool) : Spindle :=
  { sp with issues := sp.issues + 1, lastS := s,
            batches := sp.batches.map fun a =>
              if a.lanes = b.lanes then { a with current := true, waited := 0 }
              else { a with current := false, waited := if a.ready then a.waited + 1 else a.waited } }

/-- Whether the code of an NMU or a method unit leaves for a core at a word (R340, R367). -/
def returnTraps (i : Instr) : Bool :=
  match i with
  | .pair .. => true
  | .tmeth .. => true
  | .ppost .. => true
  | .ttask .. => true
  | i => match i.view with
    | some v => v.major == 0x35 || (decide (0x2E ≤ v.major) && decide (v.major ≤ 0x34)) || v.major == 0x70 ||
        (decide (0x5D ≤ v.major) && decide (v.major ≤ 0x5F))
    | none => false

/-- A header for the words that trap before they are decoded. -/
def noHdr : Hdr := ⟨.base, .always, false, 0⟩

/-- A quarter issues a word: the state in which its meaning acts, and the instruction; none where there is no ready batch, or
where the word traps at its fetch (R440), at decode (R184) or at an NMU (R340). The governor may withhold
issue (R22, R399). -/
def State.issueMove (s : State) (r q : Nat) : State × Option Instr :=
  if !s.running || s.withheldRunner r then (s, none)
  else match (s.core r).pick q with
  | none => (s, none)
  | some (slot, b) =>
    let stepping := (s.core r).dbgSt == 2 && (s.core r).dbgSlot == slot
    let s := s.onCore r fun c => { c with qptr := setAt c.qptr q (slot % 16), issued := c.issued + 1,
                                          dbgSt := if stepping then 1 else c.dbgSt }.onSpindle slot
      fun (sp : Spindle) => sp.noteIssue b false
    let s := if isCore r then s.count (cntCore r 0) 1 else s
    let s := { s with cur := ⟨r, slot, b.lanes, []⟩ }
    match s.context noHdr with
    | none => (s, none)
    | some x =>
      match s.fetchAt r x.cx x.pc with
      | (s, .error (c, va)) => (s.trapAll x x.lanes 32 c va, none)
      | (s, .ok ws) =>
        match decodeWords ws with
        | .error _ => (s.trapAll { x with words := ws } x.lanes 1 0 0, none)
        | .ok (i, _) =>
          if !isCore r && returnTraps i then (s.park x x.lanes .returnTrap, none)
          else
            let s := s.onCore r fun c => c.onSpindle slot fun sp => { sp with lastS := (hdrOf i).s }
            ({ s with cur := ⟨r, slot, b.lanes, ws⟩ }, some i)

end Sys2Proof.Machine
end

