-- ==== Sys2Proof/Machine/Mem.lean ====
section
/-!
DEFINITION. How the operations of an issue queue are performed and stores drain (spec/04_ordering.md R74 to R85,
spec/05_registration.md R108 to R116, spec/13_memory_ops.md R296 to R310, spec/24_faults_memory.md R447 to R449).
-/

namespace Sys2Proof.Machine

/-- The word numbers of n bytes from a byte address. -/
def wordSpan (a n : Nat) : List Nat := (List.range (ceilDiv (a % 4 + n) 4)).map (a / 4 + ·)

/-- The words of a place, numbered within its space. -/
def Place.words (pl : Place) (n : Nat) : List Nat :=
  match pl with
  | .mem pa _ _ _ _ _ => wordSpan pa n
  | .inPlace pa _ => wordSpan pa n
  | .scratch o => wordSpan o n
  | .priv _ pa => wordSpan pa n

/-- The byte of its word that a place starts at. -/
def Place.low (pl : Place) : Nat :=
  match pl with
  | .mem pa _ _ _ _ _ => pa % 4
  | .inPlace pa _ => pa % 4
  | .scratch o => o % 4
  | .priv _ pa => pa % 4

/-- The spaces that R79 orders apart (R308, R310). -/
inductive Space where
  | global | scratch | priv
  deriving DecidableEq, Repr

def Place.space (pl : Place) : Space :=
  match pl with
  | .scratch _ => .scratch
  | .priv _ _ => .priv
  | _ => .global

/-- How an operation takes part in the order of its fibre (R79): a load, store or atomic of some words; the release or the acquire
of an access (R76); an operation that leaves the queue in program order; or one that takes no part. -/
inductive OpClass where
  | ld (sp : Space) (ws : List Nat)
  | st (sp : Space) (ws : List Nat)
  | at_ (sp : Space)
  | rel
  | acq
  | seq
  | free
  deriving DecidableEq, Repr

/-- The number that stands for a pixel of a plane among the words of global memory (R373, R374). -/
def pixelKey (t : Target) (x y pl : Nat) : Nat := 2 ^ 50 + t.pb.getD pl 0 * 2 ^ 32 + y * 2 ^ 16 + x

def OpKind.cls (k : OpKind) : OpClass :=
  match k with
  | .load pl n _ _ _ => .ld pl.space (pl.words n)
  | .store pl n _ _ => .st pl.space (pl.words n)
  | .atomic pl _ _ _ _ _ _ _ => .at_ pl.space
  | .mbar _ _ _ _ _ _ _ => .at_ .scratch
  | .smp t x y pl _ _ => .ld .global [pixelKey t x y pl]
  | .tmeth _ _ _ _ => .st .global []
  | .pref _ _ _ _ _ _ => .free
  | .release _ true => .rel
  | .relWait _ true => .rel
  | .acquire _ _ _ true => .acq
  | _ => .seq

/-- Whether two lists share a number. -/
def meets (a b : List Nat) : Bool := a.any b.contains

/-- Whether an earlier operation of a fibre must leave the queue before a later one is performed (R79, R308, R310). `same` says that
both are of one instruction: the release of an access comes after all that is earlier and before its access alone, and its acquire
after its access alone and before all that is later (R76). -/
def OpClass.blocks (same : Bool) (e k : OpClass) : Bool :=
  match e, k with
  | .free, _ => false
  | _, .free => false
  | .ld .priv a, .ld .priv b => meets a b
  | .ld .priv a, .st .priv b => meets a b
  | .st .priv a, .ld .priv b => meets a b
  | .st .priv a, .st .priv b => meets a b
  | .ld .priv _, _ => false
  | .st .priv _, _ => false
  | _, .ld .priv _ => false
  | _, .st .priv _ => false
  | .seq, _ => true
  | .acq, _ => true
  | _, .seq => true
  | _, .rel => true
  | .rel, _ => same
  | _, .acq => same
  | .ld s a, .ld t b => s == t && meets a b
  | .ld s _, .st t _ => s == t
  | .ld s _, .at_ t => s == t
  | .st s a, .ld t b => s == t && (s == .scratch || meets a b)
  | .st s _, .st t _ => s == t
  | .st s _, .at_ t => s == t
  | .at_ s, .ld t _ => s == t
  | .at_ s, .st t _ => s == t
  | .at_ s, .at_ t => s == t

/-- Whether every store of a fibre has drained, `tmeth` applications among them (R79, R376). -/
def State.drained (s : State) (r fid : Nat) : Bool :=
  (s.core r).sbuf.all (fun e => e.fid != fid) && s.tmeths.all fun t => t.core != r || t.fid != fid

/-- The words that a store or an atomic changes, with their space (R286, R298, R300). -/
def OpKind.changes (k : OpKind) : List (Space × Nat) :=
  match k with
  | .store pl n _ _ => if pl.space = .priv then [] else (pl.words n).map fun w => (pl.space, w)
  | .atomic pl _ _ n _ _ _ _ => (pl.words n).map fun w => (pl.space, w)
  | .mbar _ b _ _ _ _ _ => (wordSpan b 16).map fun w => (.scratch, w)
  | _ => []

/-- Whether an operation is a lane's act in ascending lane order (R314). -/
def OpKind.posts (k : OpKind) : Bool :=
  match k with
  | .posted _ => true
  | .chain _ _ _ => true
  | .evt _ _ _ => true
  | _ => false

/-- Whether an operation of another lane of the same issue comes before a later one: lanes of one batch act in ascending order where one
changes a word that the other changes (R286, R298, R300), and where they post (R314). -/
def sameIssue (e o : MemOp) : Bool :=
  e.grp == o.grp && e.fid != o.fid && (e.kind.changes.any o.kind.changes.contains || (e.kind.posts && o.kind.posts))

/-- Whether the operation at an index of an issue queue may be performed now (R79, R84). -/
def State.opReady (s : State) (r idx : Nat) : Bool :=
  let c := s.core r
  match c.iq[idx]? with
  | none => false
  | some o =>
    ((c.iq.take idx).all fun e => !sameIssue e o && (e.fid != o.fid || !(OpClass.blocks (e.grp == o.grp) e.kind.cls o.kind.cls))) &&
    match o.kind with
    | .atomic pl _ _ _ _ _ _ _ => pl.space != .global || s.drained r o.fid
    | .release _ _ => s.drained r o.fid
    | .acquire _ _ d _ => !d || s.drained r o.fid
    | _ => true

/-- The operation at an index of an issue queue removed, or replaced. -/
def State.dropOp (s : State) (r idx : Nat) : State := s.onCore r fun c => { c with iq := removeAt c.iq idx }
def State.setOp (s : State) (r idx : Nat) (o : MemOp) : State := s.onCore r fun c => { c with iq := setAt c.iq idx o }

/-- Whether a fibre lives on a core. -/
def Core.alive (c : Core) (fid : Nat) : Bool := c.spindles.any fun e => e.2.fibres.any fun f => f.2.fid == fid

/-- The result of a performed operation goes on its way (R174); that of an ended fibre is discarded (R281). -/
def State.sendSampled (s : State) (r : Nat) (o : MemOp) (dst : Dest) (vs : List LWord) (smp : Option Sample) : State :=
  s.onCore r fun c =>
    if c.alive o.fid then
      let ws := vs.zipIdx.filterMap fun e => if dst.d + e.2 = 0 then none else some (dst.base + dst.d + e.2, e.1)
      { c with results := c.results ++ [{ fid := o.fid, slot := o.slot, lane := o.lane, words := ws, v1row := dst.base + 1,
                                          pd := none, flags := 0, smp := smp }] }
    else c

def State.sendResult (s : State) (r : Nat) (o : MemOp) (dst : Dest) (vs : List LWord) : State := s.sendSampled r o dst vs none

/-- A request of a core counted for sampling (R481); it is sampled when it is the last of 2^lg (log entry 23). -/
def State.takeSample (s : State) (r : Nat) (x : Sample) : State × Option Sample :=
  let c := s.core r
  let lg := nbits c.smpCtl.toNat 22 18
  if isCore r && c.smpCtl.getLsbD 23 && decide (lg ≤ 20) && nbits c.smpCtl.toNat 15 0 == x.ctx then
    (s.setCore r { c with smpN := (c.smpN + 1) % 2 ^ lg }, if (c.smpN + 1) % 2 ^ lg = 0 then some x else none)
  else (s, none)

/-- A sample written to its ring (R481, as R424). The queueing counts are free values (log entry 8). -/
def State.putSample (s : State) (r : Nat) (x : Sample) : State :=
  let die := runnerDie r
  let ring := (s.core r).smpDat.toNat / 4096 * 4096
  let cap := 2 ^ (nbits (s.core r).smpDat.toNat 3 0 + 4)
  let drop (s : State) : State := match s.readVa64 die x.ctx (ring + 16) with
    | (s, some d) => (s.writeVas die x.ctx (ring + 16) (words64 (d + 1))).1
    | (s, none) => s
  match s.readVa64 die x.ctx ring with
  | (s, none) => drop s
  | (s, some head) => match s.readVa64 die x.ctx (ring + 8) with
    | (s, none) => drop s
    | (s, some tail) =>
      if (head - tail).toNat = cap then drop s
      else
        let (s, qs) := s.freshGood 5
        let ws := words64 (BitVec.ofNat 64 x.va) ++ words64 (BitVec.ofNat 64 x.pa) ++ words64 x.tick ++
          [.good ((s.tick - x.tick).setWidth 32), .good (BitVec.ofNat 32 (x.kind + 256 * x.served))] ++ qs ++
          [.good 0, .good 0, .good 0]
        match s.writeVas die x.ctx (ring + 64 + 64 * (head.toNat % cap)) ws with
        | (s, some _) => drop s
        | (s, none) => (s.writeVas die x.ctx ring (words64 (head + 1))).1

/-- A request counted, and its sample written at once (R481). -/
def State.sampleNow (s : State) (r : Nat) (x : Sample) : State :=
  match s.takeSample r x with
  | (s, some x) => s.putSample r x
  | (s, none) => s

/-- A G word of a runner written (R80, R103, R448, R487). -/
def State.putOwned (s : State) (r w cx creg : Nat) (v : LWord) (u : Bool) : State :=
  let s := s.setRegAt w (some (.own r (u && !isCore r)))
  if isCore r then (s.l1Place r w ⟨v, true, u⟩).onCore r fun c => c.setLine (w / 32) ⟨creg, cx⟩
  else s.homePut w v

/-- A V copy of a word dropped. -/
def State.dropV (s : State) (r w : Nat) : State :=
  s.onCore r fun c => match c.l1At w with
    | some x => if x.g then c else c.l1Drop w
    | none => c

/-- A record about a line that a request met, with its physical address (R438, R447). -/
def State.noteWord (s : State) (cx kind cause w : Nat) : State :=
  s.note cx 3 kind (2 ^ 63 + 2 ^ (w % 32) * 256 + cause) (w / 32 * 128) 0

/-- What a word reads as through its home (R81 steps 3 to 5, R287), and whether the access may leave a V copy (R110). -/
def State.askHome (s : State) (r cx w : Nat) (sl fv : Bool) : State × LWord × Bool :=
  if fv then
    match s.ensureView (some cx) (4 * w) with
    | (s, true) => (s, s.l2Word w, true)
    | (s, false) => (s, .poison, false)
  else if s.hostBlocks w false then (s.wait, .poison, false)
  else match s.ensureLine (some cx) (4 * w) (s.ctx cx).ks sl with
    | (s, false) => (s, .poison, false)
    | (s, true) =>
      let copy : Bool := match s.regAt w with
        | none => true
        | some (.own o u) => o != r && !(s.ownerWord o u w).2
        | some _ => false
      let (s, v) := s.fetchHome (some r) w
      (s, v, copy)

/-- A word read through the home as R81 steps 3 to 5 state, and the V copy that the access leaves (R62, R104, R110). -/
def State.fetchWordHome (s : State) (r cx : Nat) (w creg : Nat) (sl fv : Bool) (cache : Nat) : State × LWord :=
  let a := s.askHome r cx w sl fv
  let t := if a.2.2 && !a.2.1.isPoison && cache == 0 && isCore r && ((a.1.core r).l1At w).isNone then
      ((a.1.count (cntCore r 5) 1).l1Place r w ⟨a.2.1, false, false⟩).onCore r fun c =>
        c.setLine (w / 32) { c.lineInfo (w / 32) with creg := creg }
    else a.1
  (s.placedBy t cache (4 * w), a.2.1)

/-- The parts of a fibre's buffered stores that lie in a word, oldest first: byte offset, bytes, value. -/
def Core.storesTo (c : Core) (fid : Nat) (global : Bool) (w : Nat) : List (Nat × Nat × LWord) :=
  c.sbuf.filterMap fun e =>
    let here : Bool := match e.pl with
      | .mem _ _ _ _ _ _ => global
      | .inPlace _ _ => !global
      | _ => false
    let ws := e.pl.words e.n
    if e.fid == fid && here && ws.contains w then
      some (if e.n < 4 then (e.pl.low, e.n, e.data.getD 0 .poison) else (0, 4, e.data.getD (w - ws.headD 0) .poison))
    else none

/-- Whether buffered stores give a whole word. -/
def coversWord (l : List (Nat × Nat × LWord)) : Bool := l.any fun e => e.2.1 == 4

/-- A word with parts of it replaced in order (R80, R81). -/
def mergeAll (old : LWord) (l : List (Nat × Nat × LWord)) : LWord := l.foldl (fun v e => mergeBytes v e.1 e.2.1 e.2.2) old

/-- A word of private memory by its physical word number: an unwritten one is a free value (R70, R310; log entry 8). -/
def State.privWord (s : State) (r w : Nat) : State × LWord :=
  match SMap.find (s.core r).priv w with
  | some v => (s, v.val)
  | none =>
    let (v, s) := s.fresh
    (s, .good v)

/-- A word of private memory written; what its place in memory reads as is unspecified from now on (R70). -/
def State.putPriv (s : State) (r cx slot w : Nat) (v : LWord) : State :=
  { s with privWords := SMap.put s.privWords w true }.onCore r fun c => { c with priv := SMap.put c.priv w ⟨v, cx, slot⟩ }

/-- The k-th word of a place as a fibre's load reads it (R81, R297, R307, R310). -/
def State.readPlace (s : State) (r fid cx : Nat) (pl : Place) (k : Nat) : State × LWord :=
  match pl with
  | .mem pa creg sl fv cache _ =>
    let w := pa / 4 + k
    let sts := (s.core r).storesTo fid true w
    if coversWord sts then (s, mergeAll .poison sts)
    else match (s.core r).l1At w with
      | some x => (s, mergeAll x.val sts)
      | none =>
        let (s, v) := s.fetchWordHome r cx w creg sl fv cache
        (s, mergeAll v sts)
  | .inPlace pa _ => (s, mergeAll (s.readInPlace ((pa / 4 + k) * 4)) ((s.core r).storesTo fid false (pa / 4 + k)))
  | .scratch o => (s, (s.core r).scr (o / 4 + k))
  | .priv _ pa => s.privWord r (pa / 4 + k)

/-- Whether the k-th word of a load is asked of its home (R81, R109, R110). -/
def State.needsFetch (s : State) (r fid : Nat) (pl : Place) (k : Nat) : Bool :=
  match pl with
  | .mem pa _ _ _ _ _ =>
    let w := pa / 4 + k
    !coversWord ((s.core r).storesTo fid true w) && ((s.core r).l1At w).isNone
  | _ => false

/-- The bytes that one move of a load or a drain acts on (R67, R75). -/
def Place.chunk (pl : Place) : Nat :=
  match pl with
  | .inPlace pa _ => if isWindow pa then 4 else 8
  | _ => 8

/-- Words read in ascending order. -/
def State.readWords (s : State) (r fid cx : Nat) (pl : Place) : List Nat → State × List LWord
  | [] => (s, [])
  | k :: ks =>
    let (s, v) := s.readPlace r fid cx pl k
    let (s, vs) := s.readWords r fid cx pl ks
    (s, v :: vs)

/-- The words of the next move of a load. -/
def nextWords (pl : Place) (n got : Nat) : List Nat :=
  let total := ceilDiv n 4
  (List.range (min (pl.chunk / 4) (total - got))).map (got + ·)

/-- The registers that a load fills (R165, R296, R297): all poison when any word is. -/
def loadResult (pl : Place) (n : Nat) (sext : Bool) (ws : List LWord) : List LWord :=
  if n < 4 then [extractBytes (ws.getD 0 .poison) pl.low n sext]
  else if ws.any LWord.isPoison then ws.map fun _ => .poison
  else ws

/-- What serves a request to a place (R481): 0 L1, 1 the home's L2, 2 an owner, 3 a fill from HBM, 4 the host. -/
def State.servedBy (s : State) (local_ : Bool) (pa : Nat) : Nat :=
  if local_ then 0
  else if isHost pa then 4
  else match s.regAt (pa / 4) with
    | some (.own _ _) => 2
    | _ => if isWindow pa || (SMap.find s.l2 (pa / 128)).isSome then 1 else 3

/-- The sample of a request to global memory (R481). -/
def State.sampleOf (s : State) (cx : Nat) (tick : BitVec 64) (pl : Place) (local_ : Bool) (kind : Nat) : Option Sample :=
  match pl with
  | .mem pa _ _ _ _ va => some ⟨cx, va, pa, tick, kind, s.servedBy local_ pa⟩
  | .inPlace pa va => some ⟨cx, va, pa, tick, kind, s.servedBy false pa⟩
  | _ => none

/-- The line of global memory that an operation or a store asks for. -/
def Place.line (pl : Place) : Option Nat :=
  match pl with
  | .mem pa _ _ _ _ _ => some (pa / 128)
  | .inPlace pa _ => some (pa / 128)
  | _ => none

def OpKind.line (k : OpKind) : Option Nat :=
  match k with
  | .load pl _ _ _ _ => pl.line
  | .store pl _ _ _ => pl.line
  | .atomic pl _ _ _ _ _ _ _ => pl.line
  | .pref pa _ _ _ _ _ => some (pa / 128)
  | _ => none

/-- The accesses of an issue within one line are one request (R312): the others are counted with this one. -/
def State.countLine (s : State) (r grp : Nat) (line : Option Nat) : State :=
  s.onCore r fun c => { c with
    iq := c.iq.map fun (o : MemOp) => if o.grp == grp && o.kind.line == line then { o with counted := true } else o
    sbuf := c.sbuf.map fun (e : StoreEnt) => if e.grp == grp && e.pl.line == line then { e with counted := true } else e }

/-- A sample taken, where there is a request that has not been counted with another (R312, R481). -/
def State.takeSample? (s : State) (r grp : Nat) (counted : Bool) (line : Option Nat) (x : Option Sample) : State × Option Sample :=
  match x with
  | some x => if counted then (s, none) else (s.countLine r grp line).takeSample r x
  | none => (s, none)

/-- The line of global memory that a load asks for. -/
def OpKind.loadLine (k : OpKind) : Option Nat :=
  match k with
  | .load (.mem pa _ _ _ _ _) _ _ _ _ => some (pa / 128)
  | _ => none

/-- The records of failed fills that are asked for. -/
def State.fillRecs (s : State) : Nat := (s.recq.filter fun r => r.kind == 34).length

/-- The other loads of an issue that are part of a merged request (R312). -/
def State.markSeen (s : State) (r : Nat) (o : MemOp) : State :=
  s.onCore r fun c => { c with iq := c.iq.map fun e =>
    if e.grp == o.grp && e.kind.loadLine == o.kind.loadLine then { e with seen := true } else e }

/-- The words of a load's next move: a request whose fill has failed already brings poison (R312, R445; log entry 28). -/
def State.loadWords (s : State) (r : Nat) (o : MemOp) (pl : Place) (ks : List Nat) : State × List LWord :=
  if o.seen && ks.any (s.needsFetch r o.fid pl) then (s, ks.map fun _ => .poison)
  else
    let (t, vs) := s.readWords r o.fid o.ctx pl ks
    (if s.fillRecs < t.fillRecs then t.markSeen r o else t, vs)

/-- One move of a load (R81, R297). -/
def State.performLoad (s : State) (r idx : Nat) (o : MemOp) (pl : Place) (n : Nat) (sext : Bool) (got : List LWord)
    (dst : Dest) : State :=
  let smp := s.sampleOf o.ctx o.tick pl (!((nextWords pl n got.length).any (s.needsFetch r o.fid pl))) 0
  let seen := o.seen || decide (s.fillRecs < (s.loadWords r o pl (nextWords pl n got.length)).1.fillRecs)
  let (s, vs) := s.loadWords r o pl (nextWords pl n got.length)
  let got := got ++ vs
  if ceilDiv n 4 ≤ got.length then
    let (s, smp) := (s.dropOp r idx).takeSample? r o.grp o.counted pl.line smp
    s.sendSampled r o dst (loadResult pl n sext got) smp
  else s.setOp r idx { o with seen := seen, kind := .load pl n sext got dst }

/-- The words of a store as they replace their place: word k from byte `low`, n bytes. -/
def storeParts (pl : Place) (n : Nat) (data : List LWord) : List (Nat × Nat × Nat × LWord) :=
  if n < 4 then [(0, pl.low, n, data.getD 0 .poison)] else data.zipIdx.map fun e => (e.2, 0, 4, e.1)

/-- A store split into the moves in which it drains (R67, R298): its place moved by k bytes. -/
def Place.plus (pl : Place) (k : Nat) : Place :=
  match pl with
  | .mem pa creg sl fv cache va => .mem (pa + k) creg sl fv cache (va + k)
  | .inPlace pa va => .inPlace (pa + k) (va + k)
  | .scratch o => .scratch (o + k)
  | .priv slot pa => .priv slot (pa + k)

/-- The entries a store makes in a store buffer. -/
def storeEntries (o : MemOp) (pl : Place) (n : Nat) (data : List LWord) (rel : Bool) : List StoreEnt :=
  let ch := pl.chunk
  (List.range (ceilDiv n ch)).map fun k =>
    { counted := o.counted, grp := o.grp, tick := o.tick, fid := o.fid, wg := o.wg, ctx := o.ctx, pl := pl.plus (ch * k), n := min ch n,
      data := (data.drop (ch / 4 * k)).take (ch / 4), rel := rel, sent := false }

/-- A store is performed: it enters the store buffer, or is written in place, 8 bytes a move (R75, R80, R298, R307, R310). -/
def State.performStore (s : State) (r idx : Nat) (o : MemOp) (pl : Place) (n : Nat) (data : List LWord) (rel : Bool) : State :=
  match pl with
  | .scratch b =>
    let s := s.onCore r fun c => (storeParts pl (min n 8) (data.take 2)).foldl
      (fun c p => c.setScr (b / 4 + p.1) (mergeBytes (c.scr (b / 4 + p.1)) p.2.1 p.2.2.1 p.2.2.2)) c
    if n ≤ 8 then s.dropOp r idx else s.setOp r idx { o with kind := .store (pl.plus 8) (n - 8) (data.drop 2) rel }
  | .priv slot pa => (storeParts pl n data).foldl (fun s p =>
      let w := pa / 4 + p.1
      let (s, old) := s.privWord r w
      s.putPriv r o.ctx slot w (mergeBytes old p.2.1 p.2.2.1 p.2.2.2)) (s.dropOp r idx)
  | _ => (s.dropOp r idx).onCore r fun c => { c with sbuf := c.sbuf ++ storeEntries o pl n data rel }

/-- Registering a word to a runner (R80, R109, R130, R447): the value it merges with; none where the request is refused. Room for it
has been made. -/
def State.registerWord (s : State) (r cx w : Nat) (sl : Bool) : State × Option LWord :=
  match s.ensureLine (some cx) (4 * w) (s.ctx cx).ks sl with
  | (s, false) => (s, none)
  | (s, true) => match s.exhausted w with
    | (s, true) => (s.noteWord cx 35 20 w, none)
    | (s, false) =>
      let (s, v) := s.registerHome r w true
      (s, some v)

/-- Room at its home for the words of an access that a runner does not own (R107); false where the request must wait. Recalls that were
made stay made. -/
def State.roomFor (s : State) (r : Nat) (ws : List Nat) : State × Bool :=
  match ws.filter fun w => !s.ownsWord r w with
  | [] => (s, true)
  | w :: l => if (w :: l).any s.registerWaits then (s, false) else s.makeRoom (w / 32) r ws

/-- The value of a word a runner owns. -/
def State.ownedValue (s : State) (r w : Nat) : LWord :=
  if isCore r then match (s.core r).l1At w with
    | some x => x.val
    | none => .poison
  else s.l2Word w

/-- One word of a store drains (R80). A refused one is dropped (R447). -/
def State.drainWord (s : State) (r : Nat) (e : StoreEnt) (w creg : Nat) (sl : Bool) (low n : Nat) (v : LWord) : State :=
  if s.ownsWord r w then s.putOwned r w e.ctx creg (mergeBytes (s.ownedValue r w) low n v) (!e.rel)
  else match s.registerWord r e.ctx w sl with
    | (s, none) => s
    | (s, some old) => s.putOwned r w e.ctx creg (mergeBytes old low n v) (!e.rel)

/-- An entry drains in one move (R62, R67, R80). -/
def State.drainEntry (s : State) (r : Nat) (e : StoreEnt) : State :=
  match e.pl with
  | .mem pa creg sl _ cache _ => s.placedBy ((storeParts e.pl e.n e.data).foldl
      (fun s p => s.drainWord r e (pa / 4 + p.1) creg sl p.2.1 p.2.2.1 p.2.2.2) s) cache pa
  | .inPlace pa _ => (storeParts e.pl e.n e.data).foldl
      (fun s p => s.writeInPlace ((pa / 4 + p.1) * 4 + p.2.1) p.2.2.1 p.2.2.2) s
  | _ => s

/-- A store that has drained leaves the buffer, and is counted for sampling (R80, R481). -/
def State.drainDone (s t : State) (r idx : Nat) (e : StoreEnt) : State :=
  let t := t.onCore r fun c => { c with sbuf := removeAt c.sbuf idx }
  match t.takeSample? r e.grp e.counted e.pl.line (s.sampleOf e.ctx e.tick e.pl (s.ownsWord r ((e.pl.words e.n).headD 0)) 1) with
  | (t, some x) => t.putSample r x
  | (t, none) => t

/-- Whether an entry drains without a request to a home: every word is G on its core, or it is written in place. -/
def State.drainsLocally (s : State) (r : Nat) (e : StoreEnt) : Bool :=
  match e.pl with
  | .mem _ _ _ _ _ _ => (e.pl.words e.n).all fun w => s.ownsWord r w
  | _ => true

/-- An entry that is the oldest of its fibre's list (R80), and not behind one of the same issue to the same word (R298). -/
def Core.oldestStore (c : Core) (idx : Nat) : Option StoreEnt :=
  match c.sbuf[idx]? with
  | none => none
  | some e =>
    if (c.sbuf.take idx).any (fun f => f.fid == e.fid || (f.grp == e.grp && meets (f.pl.words f.n) (e.pl.words e.n))) then none
    else some e

/-- The new value of an atomic (R300), on N = 8n bits. -/
def atomNew (op aty n : Nat) (old v cmp : Nat) : Nat :=
  let f : Fmt := if n = 4 then .f32 else .f64
  let less (a b : Nat) : Bool :=
    if aty = 1 then decide (sextInt (8 * n) a < sextInt (8 * n) b) else decide (a < b)
  match op with
  | 0 => if aty = 2 then (fAdd f .rn false false (f.decode old) (f.decode v)).1 else (old + v) % 2 ^ (8 * n)
  | 1 => if aty = 2 then (fMinMax f false true old v).1 else if less v old then v else old
  | 2 => if aty = 2 then (fMinMax f true true old v).1 else if less old v then v else old
  | 3 => old &&& v
  | 4 => old ||| v
  | 5 => old ^^^ v
  | 6 => v
  | 7 => if old = cmp then v else old
  | 8 => if v ≤ old then 0 else old + 1
  | _ => if old = 0 ∨ v < old then v else old - 1

/-- Words as one number, the low word first. -/
def numOf (l : List LWord) : Nat :=
  match l with
  | [] => 0
  | w :: l => w.val.toNat + 2 ^ 32 * numOf l

/-- A number as n bytes of words. -/
def wordsFrom (n x : Nat) : List LWord := (List.range (n / 4)).map fun k => .good (BitVec.ofNat 32 (x / 2 ^ (32 * k)))

/-- Old and new words of an atomic; none when a word it reads is poison (R300). -/
def atomWords (op aty n : Nat) (old v cmp : List LWord) : Option (List LWord) :=
  if (old ++ v ++ cmp).any LWord.isPoison then none
  else some (wordsFrom n (atomNew op aty n (numOf old) (numOf v) (numOf cmp)))

/-- The end of an atomic: its result, where it has one (R300, R301). -/
def State.atomDone (s : State) (r idx : Nat) (o : MemOp) (n : Nat) (dst : Option Dest) (old : Option (List LWord)) : State :=
  let s := s.dropOp r idx
  let smp : Option Sample := match o.kind with
    | .atomic pl _ _ _ _ _ _ _ => s.sampleOf o.ctx o.tick pl (s.ownsWord r ((pl.words n).headD 0)) (if dst.isSome then 2 else 3)
    | _ => none
  let (s, smp) := s.takeSample? r o.grp o.counted o.kind.line smp
  match dst, smp with
  | none, none => s
  | none, some x => s.putSample r x
  | some d, x => s.sendSampled r o d (old.getD (List.replicate (n / 4) .poison)) x

/-- An atomic on words its runner owns (R84). -/
def State.atomOwned (s : State) (r idx : Nat) (o : MemOp) (pa creg op aty n : Nat) (v cmp : List LWord) (u : Bool)
    (dst : Option Dest) : State :=
  let ws := wordSpan pa n
  let old := ws.map (s.ownedValue r)
  match atomWords op aty n old v cmp with
  | none => s.atomDone r idx o n dst none
  | some new => ((ws.zip new).foldl (fun s p => s.putOwned r p.1 o.ctx creg p.2 u) s).atomDone r idx o n dst (some old)

/-- What a wide atomic reads of a word where R84 places it; poison where it is performed nowhere. -/
def State.atomRead (s : State) (r w : Nat) : LWord :=
  match s.regAt w with
  | none => s.l2Word w
  | some (.own o u) =>
    let (v, u) := s.ownerWord o u w
    if u && o != r then .poison else v
  | some _ => .poison

/-- What a wide atomic writes of a word where R84 places it. -/
def State.atomWrite (s : State) (r w : Nat) (v : LWord) : State :=
  match s.regAt w with
  | some (.own o _) =>
    let s := if isCore o then s.onCore o fun c => c.l1Put w ⟨v, true, false⟩ else (s.homePut w v).setRegAt w (some (.own o false))
    if o = r then s else s.dropV r w
  | _ => (s.homePut w v).dropV r w

/-- A wide atomic at the home of its words (R84, R109, R302, R447), with what its caching code leaves there (R62). -/
def State.atomHome (s : State) (r idx : Nat) (o : MemOp) (pa op aty n : Nat) (sl : Bool) (cache : Nat) (v cmp : List LWord)
    (dst : Option Dest) : State :=
  let ws := wordSpan pa n
  let s0 := s
  match s.ensureLine (some o.ctx) pa (s.ctx o.ctx).ks sl with
  | (s, false) => s.atomDone r idx o n dst none
  | (s, true) => match s.exhausted (pa / 4) with
    | (s, true) => (s0.placedBy (s.noteWord o.ctx 35 20 (pa / 4)) cache pa).atomDone r idx o n dst none
    | (s, false) =>
      let old := ws.map (s.atomRead r)
      match atomWords op aty n old v cmp with
      | none => (s0.placedBy s cache pa).atomDone r idx o n dst none
      | some new => (s0.placedBy ((ws.zip new).foldl (fun s p => s.atomWrite r p.1 p.2) s) cache pa).atomDone r idx o n dst (some old)

/-- An atomic on a scratchpad word (R307). -/
def State.atomScratch (s : State) (r idx : Nat) (o : MemOp) (b op aty n : Nat) (v cmp : List LWord) (dst : Option Dest) : State :=
  let ws := wordSpan b n
  let old := ws.map (s.core r).scr
  match atomWords op aty n old v cmp with
  | none => s.atomDone r idx o n dst none
  | some new => (s.onCore r fun c => (ws.zip new).foldl (fun c p => c.setScr p.1 p.2) c).atomDone r idx o n dst (some old)

/-- An entry of the registry after a runner's wide release (R487). -/
def RState.released (r : Nat) (x : RState) : RState :=
  match x with
  | .own o u => .own o (u && o != r)
  | x => x

/-- Every word of a runner's view becomes released, in one move (R82, R487). Words of it that a bank holds are of its view (R85): they go
back into L2 and are N (R109; log entry 131). -/
def State.releaseAll (s : State) (r : Nat) : State :=
  let held := s.regst.filterMap fun (e : Nat × RState) => match e.2 with
    | .hold o v => if o = r then some (e.1, v) else none
    | _ => none
  let s := { s with regst := s.regst.map fun (e : Nat × RState) => (e.1, e.2.released r) }.onCore r fun c =>
    { c with l1 := c.l1.map fun (e : Nat × L1Word) => (e.1, { e.2 with u := false }) }
  held.foldl (fun s p => (s.homePut p.1 p.2).setRegAt p.1 none) s

/-- A wide release (R82, R110): its move, and then, where banks hold words of the core, their acknowledgements of its Hold-clears. -/
def State.performRelease (s : State) (r idx : Nat) (o : MemOp) (wide own : Bool) : State :=
  if !wide then s.dropOp r idx
  else
    let s := s.releaseAll r
    if (s.core r).held = 0 then s.dropOp r idx else s.setOp r idx { o with kind := .relWait (s.core r).held own }

/-- The banks that hold words of a core, as a mask (R112). -/
def State.heldBanks (s : State) (r : Nat) : BitVec 512 :=
  s.regst.foldl (fun m e => match e.2 with
    | .hold o _ => if o = r then m ||| ((1 : BitVec 512) <<< homeBank (4 * e.1)) else m
    | _ => m) 0

/-- The acquire of a core (R83, R114): V words of lines whose `creg` the mask names become I. -/
def State.acquireCore (s : State) (r : Nat) (wide : Bool) (mask : BitVec 8) : State :=
  if wide then
    s.onCore r fun c => { c with l1 := c.l1.filter fun e => e.2.g || !mask.getLsbD (c.lineInfo (e.1 / 32)).creg }
  else s

/-- The physical ranges of a virtual range, page by page; pages that cannot be translated are skipped (R304). -/
def State.rangePas (s : State) (die cx : Nat) (va len : Nat) : State × List (Nat × Nat) :=
  (List.range (ceilDiv (va % 4096 + len) 4096)).foldl (fun acc k =>
    let a := if k = 0 then va else va / 4096 * 4096 + 4096 * k
    let e := min (va + len) (va / 4096 * 4096 + 4096 * (k + 1))
    if e ≤ a then acc
    else match acc.1.translateHw die cx (a % 2 ^ 64) .read with
      | (s, .ok (pa, _)) => (s, acc.2 ++ [(pa, e - a)])
      | (s, .error _) => (s, acc.2)) (s, [])

/-- The physical ranges of several virtual ranges. -/
def State.rangesPas (s : State) (die cx : Nat) (rs : List (BitVec 64 × Nat)) : State × List (Nat × Nat) :=
  rs.foldl (fun acc r =>
    let (s, l) := acc.1.rangePas die cx r.1.toNat r.2
    (s, acc.2 ++ l)) (s, [])

/-- Whether a word touches one of some ranges. -/
def inRanges (rs : List (Nat × Nat)) (w : Nat) : Bool := rs.any fun r => decide (r.1 < 4 * w + 4) && decide (4 * w < r.1 + r.2)

/-- `inv` performed (R304). -/
def State.performInv (s : State) (r idx : Nat) (o : MemOp) (wide : Bool) (rs : List (BitVec 64 × Nat)) : State :=
  let s := s.dropOp r idx
  if wide then
    let (s, ps) := s.rangesPas (runnerDie r) o.ctx rs
    s.onCore r fun c => { c with l1 := c.l1.filter fun e => e.2.g || !inRanges ps e.1 }
  else s

/-- `wb` performed (R305). -/
def State.performWb (s : State) (r idx : Nat) (o : MemOp) (sys : Bool) (rs : List (BitVec 64 × Nat)) : State :=
  let (s, ps) := (s.dropOp r idx).rangesPas (runnerDie r) o.ctx rs
  let gs := (s.core r).l1.filter fun e => e.2.g && !e.2.u && inRanges ps e.1
  let s := gs.foldl (fun s e => s.writeBackWord r e.1) s
  if sys then
    let lines := s.l2.filter fun e => e.2.dirty && ps.any fun p => decide (p.1 < (e.1 + 1) * 128) && decide (e.1 * 128 < p.1 + p.2)
    lines.foldl (fun s e => if isHbm (e.1 * 128) then s.cleanBlock (some o.ctx) (e.1 / 16) else s.hostLineOut e.1) s
  else s

/-- `pref` performed (R306). -/
def State.performPref (s : State) (r idx : Nat) (o : MemOp) (pa : Nat) (sl fv : Bool) (cache creg va : Nat) : State :=
  let served := s.servedBy ((s.core r).l1At (pa / 4)).isSome pa
  let s := s.dropOp r idx
  let s := if o.counted then s else (s.countLine r o.grp (some (pa / 128))).sampleNow r ⟨o.ctx, va, pa, o.tick, 4, served⟩
  if cache = 3 then s
  else
    let s0 := s
    let (s, ok) := if fv then s.ensureView (some o.ctx) pa else s.ensureLine (some o.ctx) pa (s.ctx o.ctx).ks sl
    if ok && cache == 0 && isCore r then
      (List.range 32).foldl (fun s k =>
        let w := pa / 128 * 32 + k
        if (s.regAt w).isNone && ((s.core r).l1At w).isNone && !(s.l2Word w).isPoison then
          (s.l1Place r w ⟨s.l2Word w, false, false⟩).onCore r fun c => c.setLine (w / 32) { c.lineInfo (w / 32) with creg := creg }
        else s) s
    else s0.placedBy s cache pa

/-- An `mbar` object (R285): `ph`, `got`, `exp`, `init`, `arr`. -/
structure MbarObj where
  ph   : Word
  got  : Word
  exp  : Word
  init : BitVec 16
  arr  : BitVec 16
  deriving DecidableEq, Repr

/-- The object at a byte offset; none when it reads as poison. -/
def Core.mbarAt (c : Core) (b : Nat) : Option MbarObj :=
  match c.scrAt b, c.scrAt (b + 4), c.scrAt (b + 8), c.scrAt (b + 12) with
  | .poison, _, _, _ => none
  | _, .poison, _, _ => none
  | _, _, .poison, _ => none
  | _, _, _, .poison => none
  | a, e, g, p => some ⟨p.val, g.val, e.val, (a.val >>> 16).setWidth 16, a.val.setWidth 16⟩

def Core.setMbar (c : Core) (b : Nat) (m : MbarObj) : Core :=
  (((c.putScrAt b 4 (.good (m.init ++ m.arr))).putScrAt (b + 4) 4 (.good m.exp)).putScrAt (b + 8) 4 (.good m.got)).putScrAt
    (b + 12) 4 (.good m.ph)

/-- Check of R286. -/
def MbarObj.check (m : MbarObj) : MbarObj :=
  if m.arr = 0 ∧ m.exp.toNat ≤ m.got.toNat then ⟨m.ph + 1, m.got - m.exp, 0, m.init, m.init⟩ else m

/-- A credit of landed bytes (R286 line 6, R322); one to a poisoned object is dropped. -/
def Core.creditMbar (c : Core) (b : Nat) (bytes : Nat) : Core :=
  match c.mbarAt b with
  | none => c
  | some m => c.setMbar b { m with got := m.got + BitVec.ofNat 32 bytes }.check

/-- A lane trapped by an operation that is performed after its word has issued (R286): it leaves its batch with the PC of the word. -/
def State.trapLate (s : State) (r : Nat) (o : MemOp) (kind info : Nat) (pc : BitVec 64) (iw : List Nat) : State :=
  if !(((s.core r).spindle o.slot).any fun sp => (sp.fibre o.lane).any fun f => f.fid == o.fid) then s
  else
    let m := bitMask o.lane
    let t : TrapInfo := { kind := kind, info := BitVec.ofNat 64 info, addr := 0, lanes := m, batch := m, pc := pc, rpc := pc,
                          iw := iw.map (BitVec.ofNat 32), recVa := none }
    (s.flushRecords.holdTrap r o.slot m t).deliver r o.slot m t

/-- An `mbar` operation performed (R286): 0 init, 1 arrive, 2 expect, 4 test. `acq` is the acquire of a test. A poisoned object traps
the lane and stays as it is. -/
def State.performMbar (s : State) (r idx : Nat) (o : MemOp) (op b : Nat) (k : Word) (dst : Option Dest) (acq : Option Bool)
    (pc : BitVec 64) (iw : List Nat) : State :=
  let s := s.dropOp r idx
  let ret (s : State) (v : LWord) : State := match dst with
    | some d => s.sendResult r o d [v]
    | none => s
  match op, (s.core r).mbarAt b with
  | 0, _ => s.onCore r fun c => c.setMbar b ⟨0, 0, 0, k.setWidth 16, k.setWidth 16⟩
  | _, none => s.trapLate r o 5 64 pc iw
  | 1, some m => ret (s.onCore r fun c => c.setMbar b { m with arr := if m.arr = 0 then 0 else m.arr - 1 }.check) (.good m.ph)
  | 2, some m => s.onCore r fun c => c.setMbar b { m with exp := m.exp + k }.check
  | _, some m =>
    let s := if m.ph ≠ k then match acq with
        | some w => s.acquireCore r w 0xFF
        | none => s
      else s
    ret s (.good (if m.ph ≠ k then 1 else 0))

/-- An `evt` operation performed (R344): 0 set, 1 clear, 2 test. -/
def State.performEvt (s : State) (r idx : Nat) (o : MemOp) (op bit : Nat) (dst : Option Dest) : State :=
  let s := s.dropOp r idx
  let m : BitVec 256 := (1 : BitVec 256) <<< bit
  match op with
  | 0 => s.onCtx o.ctx fun k => { k with ev := k.ev ||| m }
  | 1 => s.onCtx o.ctx fun k => { k with ev := k.ev &&& ~~~m }
  | _ =>
    let b := (s.ctx o.ctx).ev.getLsbD bit
    let s := if b then s.acquireCore r true 0xFF else s
    match dst with
    | some d => s.sendResult r o d [.good (if b then 1 else 0)]
    | none => s

/-- A counter read as `waitge` reads it, at its home with effective caching 3, or through its owner (R62, R81, R287). -/
def State.readCounter (s : State) (r cx : Nat) (pa : Nat) (sl fv inPl : Bool) : State × List LWord :=
  if inPl then (s, [s.readInPlace pa, s.readInPlace (pa + 4)])
  else if (wordSpan pa 8).any fun w => s.hostBlocks w false then (s.wait, [])
  else
    let (t, ok) := if fv then s.ensureView (some cx) pa else s.ensureLine (some cx) pa (s.ctx cx).ks sl
    if !ok then (t, [.poison, .poison])
    else (s.placedBy t 3 pa, (wordSpan pa 8).map fun w => match t.regAt w with
        | none => t.l2Word w
        | some (.own o u) =>
          let (v, u) := t.ownerWord o u w
          if u && o != r then .poison else v
        | some (.hold o v) => if o = r then v else .poison
        | some _ => .poison)

/-- An operation other than those of graphics and of posting performed (R79); nothing where it must wait. -/
def State.performMem (s : State) (r idx : Nat) (o : MemOp) : State :=
  match o.kind with
  | .load pl n sext got dst =>
    if (nextWords pl n got.length).any (s.needsFetch r o.fid pl) then s else s.performLoad r idx o pl n sext got dst
  | .store pl n data rel => s.performStore r idx o pl n data rel
  | .atomic (.mem pa creg _ _ _ _) op aty n v cmp narrow dst =>
    if (wordSpan pa n).all (s.ownsWord r) then s.atomOwned r idx o pa creg op aty n v cmp narrow dst else s
  | .atomic (.scratch b) op aty n v cmp _ dst => s.atomScratch r idx o b op aty n v cmp dst
  | .atomic _ _ _ n _ _ _ dst => s.atomDone r idx o n dst none
  | .release wide own => s.performRelease r idx o wide own
  | .acquire wide mask _ _ => (s.dropOp r idx).acquireCore r wide mask
  | .inv wide rs => s.performInv r idx o wide rs
  | .wb sys rs => s.performWb r idx o sys rs
  | .pref pa sl fv cache creg va => s.performPref r idx o pa sl fv cache creg va
  | .mbar op b k dst acq pc iw => s.performMbar r idx o op b k dst acq pc iw
  | .evt op bit dst => s.performEvt r idx o op bit dst
  | _ => s

end Sys2Proof.Machine
end

