-- ==== Sys2Proof/Machine/MemoryOps.lean ====
section
/-!
DEFINITION. The memory majors 0x50 to 0x5C (spec/13_memory_ops.md R291 to R310): the checks of R295 at issue, and the operations
that enter the issue queue; then the events that serve them (R80, R109, R110, R112, R176).
-/

namespace Sys2Proof.Machine

/-- A scope of R78. -/
def Scope.wide (sc : Scope) : Bool :=
  match sc with
  | .fib | .spd | .wg => false
  | _ => true

/-- What a failing check reports: kind, info, address (R295, R426). -/
structure Failure where
  kind : Nat
  info : Nat
  addr : Nat
  deriving DecidableEq, Repr

/-- The bytes of an access size (R294). -/
def sizeBytes (sz : Size) : Nat :=
  match sz with
  | .n8 | .i8 => 1
  | .n16 | .i16 => 2
  | .b32 => 4
  | .b64 => 8
  | .b128 => 16

def sizeSigned (sz : Size) : Bool :=
  match sz with
  | .i8 | .i16 => true
  | _ => false

/-- Off(b) of R293 in a lane; none when it is poison. -/
def offsetOf (c : Core) (x : Iss) (b : Src) (i : Nat) : Option Int :=
  match srcVal c x b i with
  | none => none
  | some v => match b with
    | .lit | .litHi => some (sextInt 32 v.toNat)
    | _ => some v.toNat

/-- The poison bits of the address operands and the data (R428). -/
def poisonInfo (pa pb pd : Bool) : Nat :=
  pa.toNat + 2 * pb.toNat + 8 * pd.toNat + (if pa || pb then 32 else 0)

/-- The address of a global access in a lane (R293), or what R295 reports of its operands. -/
def globalAddr (c : Core) (x : Iss) (a b : Src) (i : Nat) (pd : Bool) : Except Failure Nat :=
  match srcVal64 c x a i, offsetOf c x b i with
  | some wa, some off => if pd then .error ⟨5, poisonInfo false false true, 0⟩ else .ok (modPow 64 (wa.toNat + off))
  | wa, off => .error ⟨5, poisonInfo wa.isNone off.isNone pd, 0⟩

/-- The offset of a scratchpad or private access in a lane (R293). -/
def localAddr (c : Core) (x : Iss) (a b : Src) (i : Nat) (pd : Bool) : Except Failure Nat :=
  match srcVal c x a i, offsetOf c x b i with
  | some va, some off => if pd then .error ⟨5, poisonInfo false false true, 0⟩ else .ok (modPow 32 (va.toNat + off))
  | va, off => .error ⟨5, poisonInfo va.isNone off.isNone pd, 0⟩

/-- Where a global access goes once it is translated (R62, R294, R295, R299). -/
def State.globalPlace (s : State) (x : Iss) (ea n : Nat) (use : Use) (cache : Nat) : State × Except Failure Place :=
  if ea % n ≠ 0 then (s, .error ⟨6, 0, ea⟩)
  else match s.translate x.core x.cx ea use with
    | (s, .error c) => (s, .error ⟨32, c, ea⟩)
    | (s, .ok (pa, l)) =>
      if use = .write ∧ n < 4 ∧ isWindow pa then (s, .error ⟨6, 0, ea⟩)
      else if inPlacePage l pa then (s, .ok (.inPlace pa ea))
      else (s, .ok (.mem pa l.creg l.sl l.fv (max l.cpol cache) ea))

/-- The first byte of a workgroup's scratchpad, and its bytes (R68). -/
def State.scrBase (s : State) (x : Iss) : Nat := (((s.core x.core).wg x.wg).getD default).scrBase * 2048
def State.scrLimit (s : State) (x : Iss) : Nat := (((s.core x.core).wg x.wg).getD default).rcd.scr * 2048

/-- Where a scratchpad access goes (R68, R307). -/
def State.scratchPlace (s : State) (x : Iss) (o n : Nat) : Except Failure Place :=
  if o % n ≠ 0 then .error ⟨6, 0, 0⟩
  else if s.scrLimit x < o + n then .error ⟨7, o, 0⟩
  else .ok (.scratch (s.scrBase x + o))

/-- The address of byte o of a lane's private memory (R69). A unit that is no core counts with its owner code for `CORE`, whose value
there is not specified (log entry 132). -/
def Context.privVa (k : Context) (core slot lane o : Nat) : Nat :=
  (k.pvb.toNat / 4096 * 4096 + (core * 64 + slot) * 512 * (k.pvs.toNat % 65536) + o / 16 * 512 + lane * 16 + o % 16) % 2 ^ 64

/-- Where a private access goes (R69, R295, R310): its bounds, then the translation of its address. -/
def State.privPlace (s : State) (x : Iss) (i o n : Nat) (use : Use) : State × Except Failure Place :=
  if o % n ≠ 0 then (s, .error ⟨6, 0, 0⟩)
  else if (s.ctx x.cx).privSize < o + n then (s, .error ⟨7, o, 0⟩)
  else
    let va := (s.ctx x.cx).privVa x.core x.slot i o
    match s.translate x.core x.cx va use with
    | (s, .error c) => (s, .error ⟨32, c, va⟩)
    | (s, .ok (pa, _)) => (s, .ok (.priv (x.slot + 64 * x.cx) pa))

/-- A check made in each of some lanes, in ascending order, with its answer. -/
def State.checkLanes {α : Type} (s : State) (f : State → Nat → State × Except Failure α) :
    List Nat → State × List (Nat × Except Failure α)
  | [] => (s, [])
  | i :: is =>
    let (s, r) := f s i
    let (s, rs) := s.checkLanes f is
    (s, (i, r) :: rs)

/-- The failing lanes of a check, and the first failure. -/
def failures {α : Type} (l : List (Nat × Except Failure α)) : List (Nat × Failure) :=
  l.filterMap fun e => match e.2 with
    | .error f => some (e.1, f)
    | .ok _ => none

/-- The lanes that passed. -/
def passes {α : Type} (l : List (Nat × Except Failure α)) : List (Nat × α) :=
  l.filterMap fun e => match e.2 with
    | .ok v => some (e.1, v)
    | .error _ => none

/-- A word whose lanes are all checked before any acts (R295, R314): the lowest failing lane is reported for the batch, or every
lane acts and the batch goes on. -/
def State.allOrTrap {α : Type} (s : State) (x : Iss) (f : State → Nat → State × Except Failure α)
    (act : State → List (Nat × α) → State) : State :=
  let (s, rs) := s.checkLanes f (lanesOf x.gt)
  match failures rs with
  | [] => (act s (passes rs)).complete x x.lanes
  | (i, e) :: fs => s.trapAll x (maskOf (i :: fs.map Prod.fst)) e.kind e.info e.addr

/-- The release and acquire around an access (R76). -/
def Order.releases (o : Order) : Bool :=
  match o with
  | .rel | .ar => true
  | _ => false

def Order.acquires (o : Order) : Bool :=
  match o with
  | .acq | .ar => true
  | _ => false

/-- An access with its release and its acquire put into a lane's queue (R76, R298). -/
def Core.enqueueAcc (c : Core) (x : Iss) (i : Nat) (ord : Order) (sc : Scope) (creg : BitVec 8) (drained : Bool) (k : OpKind) : Core :=
  let c := if Order.releases ord then c.enqueue x i (.release (Scope.wide sc) true) else c
  let c := c.enqueue x i k
  if Order.acquires ord then c.enqueue x i (.acquire (Scope.wide sc) creg drained true) else c

/-- The words of a register run in a lane. -/
def regRun (c : Core) (x : Iss) (d n i : Nat) : List LWord := (List.range n).map fun k => c.reg x.base (d + k) i

/-- The loads of a word's lanes enter their queues (R297). -/
def State.pushLoads (s : State) (x : Iss) (o : Opnds) (m : MMods) (ps : List (Nat × Place)) : State :=
  let hz := (s.ctx x.cx).hz
  s.onCore x.core fun c => ps.foldl (fun c p =>
    let c := c.enqueueAcc x p.1 m.order m.scope m.creg false
      (.load p.2 (sizeBytes m.sz) (sizeSigned m.sz) [] ⟨x.base, o.d.toNat⟩)
    (List.range (sizeRegs m.sz)).foldl (fun c k => c.markRow x hz p.1 (x.base + o.d.toNat + k)) c) c

/-- The stores of a word's lanes enter their queues (R298). -/
def State.pushStores (s : State) (x : Iss) (o : Opnds) (m : MMods) (ps : List (Nat × Place)) : State :=
  s.onCore x.core fun c => ps.foldl (fun c' p =>
    c'.enqueueAcc x p.1 m.order m.scope m.creg (p.2.space == .global)
      (.store p.2 (sizeBytes m.sz) (regRun c x o.d.toNat (sizeRegs m.sz) p.1) (Order.releases m.order && Scope.wide m.scope))) c

/-- The atomics of a word's lanes enter their queues (R300, R301, R307). -/
def State.pushAtomics (s : State) (x : Iss) (o : Opnds) (m : MMods) (op : Nat) (res : Bool) (ps : List (Nat × Place)) : State :=
  let hz := (s.ctx x.cx).hz
  let k := sizeRegs m.sz
  s.onCore x.core fun c => ps.foldl (fun c' p =>
    let first := regRun c x o.d.toNat k p.1
    let v := if op = 7 then regRun c x (o.d.toNat + k) k p.1 else first
    let c' := c'.enqueueAcc x p.1 m.order m.scope m.creg false
      (.atomic p.2 op (xf m.x 1 0) (sizeBytes m.sz) v (if op = 7 then first else []) (!Scope.wide m.scope)
        (if res then some ⟨x.base, o.d.toNat⟩ else none))
    if res then (List.range k).foldl (fun c' j => c'.markRow x hz p.1 (x.base + o.d.toNat + j)) c' else c') c

/-- Whether the data of a store or an atomic is poison in a lane (R295). -/
def dataPoison (c : Core) (x : Iss) (d n i : Nat) : Bool := (regRun c x d n i).any LWord.isPoison

/-- The number of data registers of an atomic (R300). -/
def atomRegs (op : Nat) (sz : Size) : Nat := if op = 7 then 2 * sizeRegs sz else sizeRegs sz

/-- The checks of a global access in a lane (R295). -/
def globalCheck (o : Opnds) (m : MMods) (use : Use) (dn : Nat) (x : Iss) (s : State) (i : Nat) : State × Except Failure Place :=
  match globalAddr (s.core x.core) x o.a o.b i (dataPoison (s.core x.core) x o.d.toNat dn i) with
  | .error e => (s, .error e)
  | .ok ea => s.globalPlace x ea (sizeBytes m.sz) use m.cache.toNat

/-- The checks of a scratchpad access in a lane. -/
def scratchCheck (o : Opnds) (m : MMods) (dn : Nat) (x : Iss) (s : State) (i : Nat) : State × Except Failure Place :=
  match localAddr (s.core x.core) x o.a o.b i (dataPoison (s.core x.core) x o.d.toNat dn i) with
  | .error e => (s, .error e)
  | .ok b => (s, s.scratchPlace x b (sizeBytes m.sz))

/-- The checks of a private access in a lane. -/
def privCheck (o : Opnds) (m : MMods) (use : Use) (dn : Nat) (x : Iss) (s : State) (i : Nat) : State × Except Failure Place :=
  match localAddr (s.core x.core) x o.a o.b i (dataPoison (s.core x.core) x o.d.toNat dn i) with
  | .error e => (s, .error e)
  | .ok b => s.privPlace x i b (sizeBytes m.sz) use

/-- R297. -/
def execLd (h : Hdr) (o : Opnds) (m : MMods) (s : State) : Host.Outcome State Fault Refusal :=
  .next (s.issue (.ld h o m) fun x s => s.allOrTrap x (globalCheck o m .read 0 x) fun s ps => s.pushLoads x o m ps)

/-- R298. -/
def execSt (h : Hdr) (o : Opnds) (m : MMods) (s : State) : Host.Outcome State Fault Refusal :=
  .next (s.issue (.st h o m) fun x s =>
    s.allOrTrap x (globalCheck o m .write (sizeRegs m.sz) x) fun s ps => s.pushStores x o m ps)

/-- An atomic on global memory (R300, R301). -/
def atomBody (o : Opnds) (m : MMods) (op : Nat) (res : Bool) (x : Iss) (s : State) : State :=
  s.allOrTrap x (globalCheck o m .atomic (atomRegs op m.sz) x) fun s ps => s.pushAtomics x o m op res ps

/-- R300. -/
def execAtomAdd (h : Hdr) (o : Opnds) (m : MMods) (s : State) : Host.Outcome State Fault Refusal :=
  .next (s.issue (.atomAdd h o m) (atomBody o m 0 true))
def execAtomMin (h : Hdr) (o : Opnds) (m : MMods) (s : State) : Host.Outcome State Fault Refusal :=
  .next (s.issue (.atomMin h o m) (atomBody o m 1 true))
def execAtomMax (h : Hdr) (o : Opnds) (m : MMods) (s : State) : Host.Outcome State Fault Refusal :=
  .next (s.issue (.atomMax h o m) (atomBody o m 2 true))
def execAtomAnd (h : Hdr) (o : Opnds) (m : MMods) (s : State) : Host.Outcome State Fault Refusal :=
  .next (s.issue (.atomAnd h o m) (atomBody o m 3 true))
def execAtomOr (h : Hdr) (o : Opnds) (m : MMods) (s : State) : Host.Outcome State Fault Refusal :=
  .next (s.issue (.atomOr h o m) (atomBody o m 4 true))
def execAtomXor (h : Hdr) (o : Opnds) (m : MMods) (s : State) : Host.Outcome State Fault Refusal :=
  .next (s.issue (.atomXor h o m) (atomBody o m 5 true))
def execAtomXchg (h : Hdr) (o : Opnds) (m : MMods) (s : State) : Host.Outcome State Fault Refusal :=
  .next (s.issue (.atomXchg h o m) (atomBody o m 6 true))
def execAtomCas (h : Hdr) (o : Opnds) (m : MMods) (s : State) : Host.Outcome State Fault Refusal :=
  .next (s.issue (.atomCas h o m) (atomBody o m 7 true))
def execAtomIncw (h : Hdr) (o : Opnds) (m : MMods) (s : State) : Host.Outcome State Fault Refusal :=
  .next (s.issue (.atomIncw h o m) (atomBody o m 8 true))
def execAtomDecw (h : Hdr) (o : Opnds) (m : MMods) (s : State) : Host.Outcome State Fault Refusal :=
  .next (s.issue (.atomDecw h o m) (atomBody o m 9 true))

/-- R301. -/
def execRed (h : Hdr) (o : Opnds) (m : MMods) (s : State) : Host.Outcome State Fault Refusal :=
  .next (s.issue (.red h o m) (atomBody o m (xf m.x 5 2) false))

/-- `fence` (R303): its release, its acquire, or both. -/
def fenceBody (m : MMods) (x : Iss) (s : State) : State :=
  (s.onCore x.core fun c => (lanesOf x.gt).foldl (fun c i =>
    let c := if Order.releases m.order then c.enqueue x i (.release (Scope.wide m.scope) false) else c
    if Order.acquires m.order then c.enqueue x i (.acquire (Scope.wide m.scope) m.creg false false) else c) c).complete x x.lanes

/-- R303. -/
def execFence (h : Hdr) (o : Opnds) (m : MMods) (s : State) : Host.Outcome State Fault Refusal :=
  .next (s.issue (.fence h o m) (fenceBody m))

/-- The range of an `inv` or a `wb` in a lane (R304; log entry 19 for a poisoned length). -/
def rangeCheck (o : Opnds) (x : Iss) (s : State) (i : Nat) : State × Except Failure (BitVec 64 × Nat) :=
  let c := s.core x.core
  match globalAddr c x o.a o.b i (c.reg x.base o.d.toNat i).isPoison with
  | .error e => (s, .error e)
  | .ok ea => (s, .ok (BitVec.ofNat 64 ea, (c.reg x.base o.d.toNat i).val.toNat))

/-- R304: one operation over the union of the lanes' ranges, in the order of every lane's fibre. -/
def execInv (h : Hdr) (o : Opnds) (m : MMods) (s : State) : Host.Outcome State Fault Refusal :=
  .next (s.issue (.inv h o m) fun x s => s.allOrTrap x (rangeCheck o x) fun s rs =>
    s.onCore x.core fun c => rs.foldl (fun c r => c.enqueue x r.1 (.inv (Scope.wide m.scope) (rs.map Prod.snd))) c)

/-- R305. -/
def execWb (h : Hdr) (o : Opnds) (m : MMods) (s : State) : Host.Outcome State Fault Refusal :=
  .next (s.issue (.wb h o m) fun x s => s.allOrTrap x (rangeCheck o x) fun s rs =>
    s.onCore x.core fun c => rs.foldl (fun c r => c.enqueue x r.1 (.wb (m.scope == .sys) [r.2])) c)

/-- A `pref` in a lane: where it reads, or nothing where it would fault (R306). -/
def prefCheck (o : Opnds) (m : MMods) (x : Iss) (s : State) (i : Nat) : State × Except Failure (Option OpKind) :=
  match globalAddr (s.core x.core) x o.a o.b i false with
  | .error e => (s, .error e)
  | .ok ea => match s.globalPlace x ea 1 .read m.cache.toNat with
    | (s, .ok (.mem pa creg sl fv cache va)) => (s, .ok (some (.pref pa sl fv cache creg va)))
    | (s, _) => (s, .ok none)

/-- R306. -/
def execPref (h : Hdr) (o : Opnds) (m : MMods) (s : State) : Host.Outcome State Fault Refusal :=
  .next (s.issue (.pref h o m) fun x s => s.allOrTrap x (prefCheck o m x) fun s ps =>
    s.onCore x.core fun c => ps.foldl (fun c p => match p.2 with
      | some k => c.enqueue x p.1 k
      | none => c) c)

/-- R310. -/
def execLdp (h : Hdr) (o : Opnds) (m : MMods) (s : State) : Host.Outcome State Fault Refusal :=
  .next (s.issue (.ldp h o m) fun x s => s.allOrTrap x (privCheck o m .read 0 x) fun s ps => s.pushLoads x o m ps)

def execStp (h : Hdr) (o : Opnds) (m : MMods) (s : State) : Host.Outcome State Fault Refusal :=
  .next (s.issue (.stp h o m) fun x s => s.allOrTrap x (privCheck o m .write (sizeRegs m.sz) x) fun s ps => s.pushStores x o m ps)

/-- R307. -/
def execLds (h : Hdr) (o : Opnds) (m : MMods) (s : State) : Host.Outcome State Fault Refusal :=
  .next (s.issue (.lds h o m) fun x s => s.allOrTrap x (scratchCheck o m 0 x) fun s ps => s.pushLoads x o m ps)

def execSts (h : Hdr) (o : Opnds) (m : MMods) (s : State) : Host.Outcome State Fault Refusal :=
  .next (s.issue (.sts h o m) fun x s => s.allOrTrap x (scratchCheck o m (sizeRegs m.sz) x) fun s ps => s.pushStores x o m ps)

def execAtoms (h : Hdr) (o : Opnds) (m : MMods) (s : State) : Host.Outcome State Fault Refusal :=
  .next (s.issue (.atoms h o m) fun x s =>
    s.allOrTrap x (scratchCheck o m (atomRegs (xf m.x 5 2) m.sz) x) fun s ps => s.pushAtomics x o m (xf m.x 5 2) true ps)

/-- A variable-latency result lands (R174, R176). -/
def Core.landResult (c : Core) (t : Result) : Core :=
  let c := t.words.foldl (fun c w => c.setRow w.1 t.lane (if w.1 = t.v1row then (match w.2 with
    | .good v => .good (v ||| 1)
    | v => v) else w.2)) c
  let c := match t.pd with
    | none => c
    | some (k, b) => c.setRow t.v1row t.lane (putBit (c.row t.v1row t.lane) k b)
  if t.flags = 0 then c else c.setRow t.v1row t.lane (orFlags (c.row t.v1row t.lane) t.flags)

/-- RESULT_LAND (R176, R481). -/
def execResultLand (core idx : Nat) (s : State) : Host.Outcome State Fault Refusal :=
  .next (match (s.core core).results[idx]? with
    | none => s
    | some t =>
      let s := s.onCore core fun c => { c with results := removeAt c.results idx }.landResult t
      match t.smp with
      | some x => s.putSample core x
      | none => s)

/-- STORE_DRAIN (R80): the oldest store of a fibre's list is written where every word is G, or in place; otherwise its words are
requested from their homes. -/
def execStoreDrain (core idx : Nat) (s : State) : Host.Outcome State Fault Refusal :=
  .next (match (s.core core).oldestStore idx with
    | none => s
    | some e =>
      if s.drainsLocally core e then s.drainDone (s.drainEntry core e) core idx e
      else s.onCore core fun c => { c with sbuf := setAt c.sbuf idx { e with sent := true } })

/-- A Register request of a narrow atomic reaches the home: its words become G, or it is refused (R84, R109, R447). -/
def State.registerAtomic (s : State) (r idx : Nat) (o : MemOp) (pa creg n : Nat) (sl : Bool) (cache : Nat) (dst : Option Dest) : State :=
  let step (acc : State × Bool) (w : Nat) : State × Bool :=
    if !acc.2 ∨ acc.1.ownsWord r w then acc
    else match acc.1.registerWord r o.ctx w sl with
      | (t, none) => (t, false)
      | (t, some v) => (t.putOwned r w o.ctx creg v true, true)
  match s.roomFor r (wordSpan pa n) with
  | (s, false) => s
  | (s, true) =>
    let p := (wordSpan pa n).foldl step (s, true)
    let t := s.placedBy p.1 cache pa
    if p.2 then t else t.atomDone r idx o n dst none

/-- REGISTER (R109): of a store that has been sent, which then drains (R80), or of a narrow atomic. -/
def execRegister (core : Nat) (fromIq : Bool) (idx : Nat) (s : State) : Host.Outcome State Fault Refusal :=
  .next (
    if fromIq then
      if !s.opReady core idx then s
      else match (s.core core).iq[idx]? with
        | some o => match o.kind with
          | .atomic (.mem pa creg sl _ cache _) _ _ n _ _ true dst => s.registerAtomic core idx o pa creg n sl cache dst
          | _ => s
        | none => s
    else match (s.core core).oldestStore idx with
      | none => s
      | some e =>
        if !e.sent then s
        else match s.roomFor core (e.pl.words e.n) with
          | (s, false) => s
          | (s, true) => s.drainDone (s.drainEntry core e) core idx e)

/-- FETCH (R109): a load's words are asked of their homes, and its move is made (R81). It waits while the host has a word (R115), and
while no directory entry can be freed for a held word that comes back (R488). -/
def execFetch (core idx : Nat) (s : State) : Host.Outcome State Fault Refusal :=
  .next (
    if !s.opReady core idx then s
    else match (s.core core).iq[idx]? with
      | none => s
      | some o => match o.kind with
        | .load pl n sext got dst =>
          let need := ((nextWords pl n got.length).filter (s.needsFetch core o.fid pl)).map ((pl.words n).headD 0 + ·)
          if need.isEmpty || need.any (fun w => s.hostBlocks w false) then s
          else match s.takeAllHeld core need with
            | (s, false) => s
            | (s, true) => s.performLoad core idx o pl n sext got dst
        | _ => s)

/-- HOME_WIDE_ATOMIC (R84, R109). A word of the core that a bank holds is of its view (R85): it comes back first (log entry 131), and an
atomic on words that the core then owns is made in its view. -/
def execHomeWideAtomic (core idx : Nat) (s : State) : Host.Outcome State Fault Refusal :=
  .next (
    if !s.opReady core idx then s
    else match (s.core core).iq[idx]? with
      | none => s
      | some o => match o.kind with
        | .atomic (.mem pa creg sl _ cache _) op aty n v cmp false dst =>
          let ws := wordSpan pa n
          if ws.all (s.ownsWord core) || ws.any (fun w => s.hostBlocks w true) then s
          else match s.takeAllHeld core ws with
            | (s, false) => s
            | (s, true) =>
              if ws.all (s.ownsWord core) then s.atomOwned core idx o pa creg op aty n v cmp false dst
              else s.atomHome core idx o pa op aty n sl cache v cmp dst
        | _ => s)

/-- L1_EVICTION (R85, R110): V is dropped; G with U = 0 is written back; G with U = 1 goes to the hold store (R112). -/
def execL1Eviction (core pa : Nat) (s : State) : Host.Outcome State Fault Refusal := .next (s.evictL1 core (pa / 4))

/-- WRITEBACK (R85, R109). -/
def execWriteback (core pa : Nat) (s : State) : Host.Outcome State Fault Refusal := .next (s.writeBackWord core (pa / 4))

/-- RECALL (R112, R488) of the words that one owner has of a line. The host gives up its words by SNOOP_FILTER_EVICTION
(log entry 20). -/
def execRecall (line owner : Nat) (s : State) : Host.Outcome State Fault Refusal :=
  .next (if (s.recallable line (· == owner)).isEmpty then s else s.recallLine line (· == owner))

end Sys2Proof.Machine
end

