-- ==== Sys2Proof/Machine/Control.lean ====
section
/-!
DEFINITION. The control majors 0x60 to 0x6F (spec/12_lanes_flow.md R269 to R290) and the events that release batches parked by
them (spec/02_work.md R49, R55, spec/08_encoding.md R175).
-/

namespace Sys2Proof.Machine

/-- Whether an address is no instruction's (R272). -/
def misaligned (t : BitVec 64) : Bool := t.toNat % 4 != 0

/-- The lanes that a list of answers fails, as traps, and the lanes with their targets (R272). -/
def lanesWith {α : Type} (f : Nat → Except (Nat × Nat × Nat) α) (ls : List Nat) :
    List (Nat × Nat × Nat × Nat) × List (Nat × α) :=
  (ls.filterMap fun i => match f i with
    | .error e => some (i, e)
    | .ok _ => none,
   ls.filterMap fun i => match f i with
    | .error _ => none
    | .ok v => some (i, v))

/-- A target read in a lane: poison and misalignment trap in that lane (R272). -/
def targetOf (v : Option DWord) (bit : Nat) : Except (Nat × Nat × Nat) DWord :=
  match v with
  | none => .error (5, bit, 0)
  | some t => if misaligned t then .error (4, 0, t.toNat) else .ok t

/-- The batch goes on with some lanes sent to targets (R46, R270, R278, R279). -/
def State.sendLanes (s : State) (x : Iss) (ts : List (Nat × DWord)) : State :=
  s.onCore x.core fun c => c.onSpindle x.slot fun sp =>
    ((lanesOf x.lanes).foldl (fun sp i => match SMap.find ts i with
      | some t => sp.sendTo i x.pc x.len t
      | none => sp.endProc i x.pc x.len) sp).regroup x.lanes x.mark true

/-- A branch: each guard-true lane to its own target (R270, R271, R272). -/
def branchBody (f : Core → Iss → Nat → Except (Nat × Nat × Nat) DWord) (x : Iss) (s : State) : State :=
  let (bad, ts) := lanesWith (f (s.core x.core) x) (lanesOf x.gt)
  (s.trapEach x bad).sendLanes (x.without (maskOf (bad.map Prod.fst))) ts

/-- R270. -/
def execBr (h : Hdr) (o : Opnds) (m : BitVec 16) (s : State) : Host.Outcome State Fault Refusal :=
  .next (s.issue (.br h o m) (branchBody fun c x i =>
    targetOf ((srcVal c x o.a i).map fun v => x.pc + 4 * v.signExtend 64) 1))

/-- R271. -/
def execJmp (h : Hdr) (o : Opnds) (m : BitVec 16) (s : State) : Host.Outcome State Fault Refusal :=
  .next (s.issue (.jmp h o m) (branchBody fun c x i => targetOf (srcVal64 c x o.a i) 1))

/-- A lane leaves the loop records whose end its word is (R279). -/
def Spindle.leaveEnd (sp : Spindle) (x : Iss) (lanes : Word) : Spindle :=
  { sp with loops := (lanesOf lanes).foldl (fun l i => leaveLoops i (fun r => r.stop == x.pc && r.base == x.base) l) sp.loops }

/-- A group of a call takes its frame, or blocks (R49, R273). -/
def State.callGroup (s : State) (x : Iss) (dem args : Nat) (target : DWord) (lanes : Word) : State :=
  match (s.core x.core).takeFrame x.slot lanes dem args target (x.pc + BitVec.ofNat 64 (4 * x.len)) none with
  | none => s.park x lanes (.call dem args target x.words)
  | some c => s.setCore x.core (c.onSpindle x.slot fun sp => (sp.leaveEnd x lanes).regroup lanes x.mark true)

/-- The depth of the frame that a batch stands in. -/
def State.depthAt (s : State) (x : Iss) : Nat :=
  ((((s.core x.core).spindle x.slot).bind fun sp => sp.frameOf (lowestLane x.lanes)).map (·.depth)).getD 0

/-- `call` and `calli` (R273): `args` at x[12:8], `dem` at x[7:0]. -/
def callBody (a : Src) (m : BitVec 16) (x : Iss) (s : State) : State :=
  let args := xf m 12 8
  let dem := xf m 7 0 + 1
  if x.gt ≠ 0 ∧ x.rows < args + 2 ∧ 0 < args then s.trapAll x x.gt 2 (max 2 x.rows) 0
  else
    let (bad, ts) := lanesWith (fun i => targetOf (srcVal64 (s.core x.core) x a i) 1) (lanesOf x.gt)
    let s := s.trapEach x bad
    let y := x.without (maskOf (bad.map Prod.fst))
    if !ts.isEmpty && s.depthAt y == 255 then s.trapAll y y.gt 3 0 0
    else
      let stay : Word := y.lanes &&& ~~~y.gt
      let s := (groupLanes (fun i => (SMap.find ts i).getD 0) (ts.map Prod.fst)).foldl
        (fun s g => s.callGroup y dem args g.1 g.2) s
      s.complete y stay

/-- R273. -/
def execCall (h : Hdr) (o : Opnds) (m : BitVec 16) (s : State) : Host.Outcome State Fault Refusal :=
  .next (s.issue (.call h o m) (callBody o.a m))

/-- R273. -/
def execCalli (h : Hdr) (o : Opnds) (m : BitVec 16) (s : State) : Host.Outcome State Fault Refusal :=
  .next (s.issue (.calli h o m) (callBody o.a m))

/-- The first rows and rows of the frames of a spindle that lose their last member when some lanes leave the frames a test
picks (R274). -/
def Spindle.freedBy (sp : Spindle) (lanes : Word) (p : Frame → Bool) : List (Nat × Nat) :=
  (sp.frames.filter fun f => p f && f.depth != 0 && f.members &&& ~~~lanes == 0).map fun f => (f.base, f.rows)

/-- Whether an outstanding tile task of a core writes some rows (R334). -/
def State.tileIn (s : State) (r : Nat) (rows : List (Nat × Nat)) : Bool :=
  isCore r && (s.cluster (clusterOf r)).jobs.any fun j => j.core == r && j.writes.any fun w => match w with
    | .rows k start len => k == r && rows.any fun e => decide (start < e.1 + e.2) && decide (e.1 < start + len)
    | _ => false

/-- Fibres end by a word (R281, R334). -/
def State.endBy (s : State) (x : Iss) (lanes : Word) : State := s.onCore x.core fun c => c.endLanes x.slot lanes false

/-- `ret` (R275): at depth 0 the fibres end; deeper, they park. -/
def retBody (res : Nat) (x : Iss) (s : State) : State :=
  let stay : Word := x.lanes &&& ~~~x.gt
  if s.depthAt x = 0 then (s.endBy x x.gt).complete x stay
  else if (s.core x.core).linkRead x.base = none then (s.trapLanes x x.gt 5 0 0).complete x stay
  else
    let s := s.onCore x.core fun c => c.onSpindle x.slot fun sp =>
      (lanesOf x.gt).foldl (fun (sp : Spindle) i => sp.onFibre i fun f => { f with rtePc := none }) sp
    (s.park x x.gt (.ret res x.words)).complete x stay

/-- R275. -/
def execRet (h : Hdr) (o : Opnds) (m : BitVec 16) (s : State) : Host.Outcome State Fault Refusal :=
  .next (s.issue (.ret h o m) (retBody (xf m 2 0)))

/-- v1 of a lane that returns from a frame (R51): bits 26 to 1 of the link row, flags of the callee. -/
def returnV1 (link callee : LWord) : LWord :=
  match callee with
  | .poison => .poison
  | v => .good ((link.val &&& 0x07FFFFFE) ||| (v.val &&& 0xF8000000) ||| 1)

/-- The frame at a depth on a lane's chain. -/
def Spindle.atDepth (sp : Spindle) (lane depth : Nat) : Option Frame := (sp.chain lane).find? fun f => f.depth == depth

/-- What `unwind` does in a lane (R276): a trap; nothing; or the depth it goes to, the frame popped last, and where it goes on. -/
def unwindLane (o : Opnds) (c : Core) (x : Iss) (sp : Spindle) (i : Nat) :
    Except (Nat × Nat × Nat) (Option (Nat × Frame × Nat × DWord)) :=
  let direct : Bool := match o.b with
    | .reg 0 _ => true
    | _ => false
  match srcVal c x o.a i, (if direct then some 0 else srcVal64 c x o.b i) with
  | some t, some w =>
    let depth := ((sp.frameOf i).map (·.depth)).getD 0
    if depth ≤ t.toNat then .ok none
    else match sp.atDepth i (t.toNat + 1) with
      | none => .ok none
      | some f => match c.linkRead f.base with
        | none => .error (5, 0, 0)
        | some d =>
          let pc := if direct then BitVec.ofNat 64 d else w
          if !direct && misaligned w then .error (4, 0, w.toNat) else .ok (some (t.toNat, f, d, pc))
  | a, b => .error (5, a.isNone.toNat + 2 * b.isNone.toNat, 0)

/-- A lane unwound (R276). -/
def Core.unwindTo (c : Core) (x : Iss) (i t : Nat) (f : Frame) (d : Nat) (pc : DWord) : Core :=
  let cbase := nbits d 74 64
  let bases := (((c.spindle x.slot).map fun sp => sp.chain i).getD []).filterMap fun g => if t < g.depth then some g.base else none
  let c := c.setRow (cbase + 1) i (returnV1 (c.row f.base i) (c.row (x.base + 1) i))
  c.onSpindle x.slot fun sp =>
    { sp with frames := leaveFrames (bitMask i) (fun g => decide (t < g.depth)) sp.frames,
              loops := leaveLoops i (fun r => bases.contains r.base) sp.loops }.onFibre i
      fun fb => { fb with pc := pc, base := cbase, rows := nbits d 83 75 }

/-- `unwind` (R276, R334). -/
def unwindBody (o : Opnds) (x : Iss) (s : State) : State :=
  let c := s.core x.core
  match c.spindle x.slot with
  | none => s
  | some sp =>
    let (bad, us) := lanesWith (unwindLane o c x sp) (lanesOf x.gt)
    let low := us.filterMap fun u => u.2.map fun v => (u.1, v)
    let freed := sp.freedBy (maskOf (low.map Prod.fst)) fun f => low.any fun u => f.members.getLsbD u.1 && decide (u.2.1 < f.depth)
    if s.tileIn x.core freed then s.park x x.lanes (.blocked (.tile freed))
    else
      let s := s.trapEach x bad
      let y := x.without (maskOf (bad.map Prod.fst))
      s.onCore x.core fun c =>
        (low.foldl (fun c u => c.unwindTo x u.1 u.2.1 u.2.2.1 u.2.2.2.1 u.2.2.2.2) c).onSpindle x.slot fun sp =>
          ((lanesOf y.lanes).foldl (fun sp i => if (SMap.find low i).isSome then sp else sp.endProc i x.pc x.len) sp).regroup
            y.lanes x.mark true

/-- R276. -/
def execUnwind (h : Hdr) (o : Opnds) (m : BitVec 16) (s : State) : Host.Outcome State Fault Refusal :=
  .next (s.issue (.unwind h o m) (unwindBody o))

/-- The lanes of `loop` whose count is 0 do end processing at the body's end, or go there when it cannot be fetched (R277). A record
that ends at the `loop` word itself they leave, since it sends them elsewhere (R279). -/
def State.skipLoop (s : State) (x : Iss) (e : BitVec 64) (lanes : List Nat) : State :=
  match lanes with
  | [] => s
  | ls => match s.fetchWord x.core x.cx e.toNat with
    | (s, .ok w) => s.onCore x.core fun c => c.onSpindle x.slot fun sp =>
        ls.foldl (fun sp i => sp.endProc i e (Sys2Proof.Machine.lengthOf w)) (sp.leaveEnd x (maskOf ls))
    | (s, .error _) => s.onCore x.core fun c => c.onSpindle x.slot fun sp =>
        ls.foldl (fun (sp : Spindle) i => sp.onFibre i fun f => { f with pc := e }) (sp.leaveEnd x (maskOf ls))

/-- `loop` (R277, R435). -/
def loopBody (a : Src) (off : Nat) (x : Iss) (s : State) : State :=
  let c := s.core x.core
  let (bad, ns) := lanesWith (fun i => match srcVal c x a i with
    | none => .error (5, 1, 0)
    | some n => .ok n) (lanesOf x.gt)
  let ins := ns.filter fun e => e.2 != 0
  let outs := (ns.filter fun e => e.2 == 0).map Prod.fst
  let held := ((c.spindle x.slot).map fun sp => sp.loops.length).getD 0
  if !ins.isEmpty && decide (4 ≤ held) then s.trapAll x x.gt 8 0 0
  else
    let s := s.trapEach x bad
    let y := x.without (maskOf (bad.map Prod.fst))
    let e := x.pc + BitVec.ofNat 64 (4 * off)
    let s := s.onCore x.core fun c => c.onSpindle x.slot fun sp =>
      let sp := if ins.isEmpty then sp
        else { sp with loops := { stop := e, start := x.pc + BitVec.ofNat 64 (4 * x.len), base := x.base, rc := ins } :: sp.loops }
      ((lanesOf y.lanes).filter fun i => !outs.contains i).foldl (fun sp i => sp.endProc i x.pc x.len) sp
    (s.skipLoop x e outs).onCore x.core fun c => c.onSpindle x.slot fun sp => sp.regroup y.lanes x.mark true

/-- R277. -/
def execLoop (h : Hdr) (o : Opnds) (m : BitVec 16) (s : State) : Host.Outcome State Fault Refusal :=
  .next (s.issue (.loop h o m) (loopBody o.a m.toNat))

/-- The fibres that `fork` makes (R280): in the lanes C, from lane `low`. -/
def Core.forkFibres (c : Core) (x : Iss) (low : Nat) (new : Word) (t : DWord) : Core :=
  match (c.spindle x.slot).bind fun sp => sp.fibre low with
  | none => c
  | some f =>
    let v1 : LWord := match c.row (x.base + 1) low with
      | .good w => .good (w &&& 0x07FFFFFF)
      | w => w
    let ls := lanesOf new
    let c := ls.foldl (fun (c : Core) i => c.setRow (x.base + 1) i v1) c
    let c := c.onSpindle x.slot fun sp =>
      { sp with fibres := ls.zipIdx.foldl (fun m e => SMap.put m e.1
                  { pc := t, base := f.base, rows := f.rows, wid := f.wid, fid := c.nextFid + e.2, ticket := none,
                    answered := false, rtePc := none }) sp.fibres,
                frames := sp.frames.map fun g => if g.members.getLsbD low then { g with members := g.members ||| new } else g,
                batches := if new = 0 then sp.batches
                  else sp.batches ++ [{ lanes := new, wait := .none, mark := false, waited := 0, current := false }] }
    { c with nextFid := c.nextFid + ls.length }

/-- `fork` (R280). -/
def forkBody (o : Opnds) (x : Iss) (s : State) : State :=
  if x.gt = 0 then s.complete x x.lanes
  else
    let c := s.core x.core
    let low := lowestLane x.gt
    match srcVal c x o.a low, srcVal64 c x o.b low with
    | some m, some t =>
      if misaligned t then s.trapAll x (bitMask low) 4 0 t.toNat
      else
        let new : Word := m &&& ~~~(((c.spindle x.slot).map Spindle.occupied).getD 0)
        (s.onCore x.core fun c => (lanesOf x.gt).foldl (fun c i => c.applyLane x.base i (.word o.d (.good new)))
          (c.forkFibres x low new t)).complete x x.lanes
    | a, b => s.trapAll x (bitMask low) 5 (a.isNone.toNat + 2 * b.isNone.toNat) 0

/-- R280. -/
def execFork (h : Hdr) (o : Opnds) (m : BitVec 16) (s : State) : Host.Outcome State Fault Refusal :=
  .next (s.issue (.fork h o m) (forkBody o))

/-- `end` (R281, R334). -/
def endBody (x : Iss) (s : State) : State :=
  let freed := (((s.core x.core).spindle x.slot).map fun sp => sp.freedBy x.gt fun _ => true).getD []
  if s.tileIn x.core freed then s.park x x.lanes (.blocked (.tile freed))
  else (s.endBy x x.gt).complete x (x.lanes &&& ~~~x.gt)

/-- R281. -/
def execEndFibre (h : Hdr) (o : Opnds) (s : State) : Host.Outcome State Fault Refusal :=
  .next (s.issue (.endFibre h o) endBody)

/-- `join` (R54, R282): the mask is read from lane 0 of the register in the fibre's own frame. -/
def joinBody (a : Src) (x : Iss) (s : State) : State :=
  let stay : Word := x.lanes &&& ~~~x.gt
  match srcVal (s.core x.core) x a 0 with
  | none => (s.trapLanes x x.gt 5 1 0).complete x stay
  | some m =>
    let s := (groupLanes (fun i => m ||| bitMask i) (lanesOf x.gt)).foldl (fun s g => s.park x g.2 (.join g.1 x.len)) s
    s.complete x stay

/-- R282. -/
def execJoin (h : Hdr) (o : Opnds) (s : State) : Host.Outcome State Fault Refusal :=
  .next (s.issue (.join h o) (joinBody o.a))

/-- `yield` (R283): until another batch of the spindle issues, or a time when no other is ready (log entry 3). -/
def yieldBody (x : Iss) (s : State) : State :=
  if x.gt = 0 then s.complete x x.lanes
  else match (s.core x.core).spindle x.slot with
    | none => s
    | some sp =>
      let others := sp.batches.any fun b => b.ready && (b.lanes &&& x.lanes) == 0
      s.park x x.lanes (.yield sp.issues (!others) x.len)

/-- R283. -/
def execYieldI (h : Hdr) (o : Opnds) (s : State) : Host.Outcome State Fault Refusal :=
  .next (s.issue (.yieldI h o) yieldBody)

/-- `bar` (R284): the release of each lane, and the wait. A poisoned count traps in its lane (R272; log entry 27). -/
def barBody (a : Src) (m : BitVec 16) (x : Iss) (s : State) : State :=
  let stay : Word := x.lanes &&& ~~~x.gt
  let scope := (Sys2Proof.Scope.ofCode (xf m 6 4)).getD .wg
  if x.gt = 0 then s.complete x x.lanes
  else
    let count (i : Nat) : Except (Nat × Nat × Nat) Nat :=
      if m.getLsbD 7 then match srcVal (s.core x.core) x a i with
        | some v => .ok v.toNat
        | none => .error (5, 1, 0)
      else .ok 0
    let (bad, cs) := lanesWith count (lanesOf x.gt)
    let s := s.trapEach x bad
    let y := x.without (maskOf (bad.map Prod.fst))
    if y.gt = 0 then s.complete y stay
    else
      let cnt := if m.getLsbD 7 then (cs.head?).map Prod.snd else none
      let s := s.onCore y.core fun c => (lanesOf y.gt).foldl (fun c i => c.enqueue y i (.release (Scope.wide scope) false)) c
      (s.park y y.gt (.bar (xf m 3 0) scope cnt false false y.len)).complete y stay

/-- R284. -/
def execBar (h : Hdr) (o : Opnds) (m : BitVec 16) (s : State) : Host.Outcome State Fault Refusal :=
  .next (s.issue (.bar h o m) (barBody o.a m))

/-- The live fibres of a workgroup, those of spilled spindles included. -/
def Core.liveFibres (c : Core) (g : Nat) : Nat :=
  ((c.spindlesOf g).map fun e => e.2.fibres.length).sum + (c.spilled.map fun u => match u with
    | .spindle wg _ sp _ => if wg = g then sp.fibres.length else 0
    | .granule _ _ => 0).sum

/-- A change of every batch of a workgroup, those of spilled spindles included. -/
def Core.onBatches (c : Core) (g : Nat) (f : Batch → Batch) : Core :=
  let c := (c.spindlesOf g).foldl (fun c e => c.setSpindle e.1 { e.2 with batches := e.2.batches.map f }) c
  { c with spilled := c.spilled.map fun u => match u with
    | .spindle wg slot sp cb => .spindle wg slot (if wg = g then { sp with batches := sp.batches.map f } else sp) cb
    | .granule wg k => .granule wg k }

/-- The open generation of a barrier ends when its arrivals reach N (R284). -/
def Core.closeBar (c : Core) (g bid : Nat) : Core :=
  match c.wg g with
  | none => c
  | some w =>
    let b := SMap.get ⟨false, none, 0⟩ w.bars bid
    if b.opened && decide ((b.count.getD (c.liveFibres g)) ≤ b.arr) then
      (c.onWg g fun w => { w with bars := SMap.erase w.bars bid }).onBatches g fun t => match t.wait with
        | .bar k scope cnt true false len => if k = bid then { t with wait := .bar k scope cnt true true len } else t
        | _ => t
    else c

/-- A batch whose releases are made arrives at its barrier (R284). -/
def Core.arrive (c : Core) (slot lane : Nat) : Core :=
  match c.spindle slot with
  | none => c
  | some sp => match sp.batchOf lane with
    | none => c
    | some t => match t.wait with
      | .bar bid scope cnt false done len =>
        let fids := (lanesOf t.lanes).filterMap fun i => (sp.fibre i).map (·.fid)
        let busy := c.iq.any fun o => fids.contains o.fid && (match o.kind with
          | .release _ _ => true
          | .relWait _ _ => true
          | _ => false)
        if busy then c
        else
          let n := (lanesOf t.lanes).length
          let c := (c.onWg sp.wg fun w =>
            let b := SMap.get ⟨false, none, 0⟩ w.bars bid
            let b : Bar := if b.opened then { b with arr := b.arr + n } else ⟨true, cnt, n⟩
            { w with bars := SMap.put w.bars bid b }).onSpindle slot fun sp =>
              { sp with batches := sp.batches.map fun u =>
                  if u.lanes = t.lanes then { u with wait := .bar bid scope cnt true done len } else u }
          c.closeBar sp.wg bid
      | _ => c

/-- HOLD_CLEAR (R109, R110): the first wide release that waits for a bank is acknowledged by it. With the last bank the release completes:
the bits of the held-bank mask are cleared but those of banks that hold words of the core again, and a barrier that the release is for
is reached (R284). -/
def execHoldClear (core bank : Nat) (s : State) : Host.Outcome State Fault Refusal :=
  .next (
    let waits (o : MemOp) : Bool := match o.kind with
      | .relWait bs _ => bs.getLsbD bank
      | _ => false
    match (s.core core).iq.findIdx? waits with
    | none => s
    | some idx => match (s.core core).iq[idx]? with
      | none => s
      | some o => match o.kind with
        | .relWait bs own =>
          let left := bs &&& ~~~((1 : BitVec 512) <<< bank)
          if left = 0 then (s.dropOp core idx).onCore core fun c => { c with held := s.heldBanks core }.arrive o.slot o.lane
          else s.setOp core idx { o with kind := .relWait left own }
        | _ => s)

/-- The offset of an `mbar` object in a lane, with its checks (R286, R428): address poison, a poisoned c, bounds and misalignment. -/
def mbarCheck (o : Opnds) (readsC : Bool) (x : Iss) (s : State) (i : Nat) : State × Except Failure (Nat × Word) :=
  let c := s.core x.core
  let k := if readsC then srcVal c x o.c i else some 0
  match localAddr c x o.a o.b i false, k with
  | .error e, k => (s, .error { e with info := e.info + if k.isNone then 4 else 0 })
  | .ok _, none => (s, .error ⟨5, 4, 0⟩)
  | .ok off, some k =>
    if off % 16 ≠ 0 ∨ s.scrLimit x < off + 16 then (s, .error ⟨7, off, 0⟩) else (s, .ok (s.scrBase x + off, k))

/-- Whether the object of a lane reads as poison, with no earlier scratchpad operation of the fibre that may still change it (R286). -/
def Core.mbarBad (c : Core) (x : Iss) (i b : Nat) : Bool :=
  let fid := fidOf c x i
  (c.mbarAt b).isNone &&
    !(c.iq.any fun e => e.fid == fid && e.kind.changes.any fun w => w.1 == .scratch && (wordSpan b 16).contains w.2)

/-- An `mbar` word whose lanes are all checked before any acts (R286): a poisoned object traps its own lanes, and the others act. -/
def State.mbarLanes (s : State) (o : Opnds) (op : Nat) (x : Iss) (act : Iss → List (Nat × Nat × Word) → State → State) : State :=
  let (s, rs) := s.checkLanes (mbarCheck o (op != 1) x) (lanesOf x.gt)
  match failures rs with
  | (i, e) :: fs => s.trapAll x (maskOf (i :: fs.map Prod.fst)) e.kind e.info e.addr
  | [] =>
    let isBad (p : Nat × Nat × Word) : Bool := op != 0 && (s.core x.core).mbarBad x p.1 p.2.1
    let bad := maskOf (((passes rs).filter isBad).map Prod.fst)
    act (x.without bad) ((passes rs).filter fun p => !isBad p) (s.trapLanes x bad 5 64 0)

/-- An `mbar` word other than `wait` (R286). -/
def mbarBody (o : Opnds) (m : BitVec 16) (op : Nat) (x : Iss) (s : State) : State :=
  let wide := Scope.wide ((Sys2Proof.Scope.ofCode (xf m 2 0)).getD .wg)
  let res := op == 1 || op == 4
  s.mbarLanes o op x fun x ps s => (s.onCore x.core fun c => ps.foldl (fun c p =>
    let c := if op = 1 ∨ op = 2 then c.enqueue x p.1 (.release wide true) else c
    let c := c.enqueue x p.1 (.mbar op p.2.1 p.2.2 (if res then some ⟨x.base, o.d.toNat⟩ else none) (some wide) x.pc x.words)
    if res then c.markRow x (s.ctx x.cx).hz p.1 (x.base + o.d.toNat) else c) c).complete x x.lanes

/-- R286. -/
def execMbarInit (h : Hdr) (o : Opnds) (m : BitVec 16) (s : State) : Host.Outcome State Fault Refusal :=
  .next (s.issue (.mbarInit h o m) (mbarBody o m 0))
def execMbarArrive (h : Hdr) (o : Opnds) (m : BitVec 16) (s : State) : Host.Outcome State Fault Refusal :=
  .next (s.issue (.mbarArrive h o m) (mbarBody o m 1))
def execMbarExpect (h : Hdr) (o : Opnds) (m : BitVec 16) (s : State) : Host.Outcome State Fault Refusal :=
  .next (s.issue (.mbarExpect h o m) (mbarBody o m 2))
def execMbarTest (h : Hdr) (o : Opnds) (m : BitVec 16) (s : State) : Host.Outcome State Fault Refusal :=
  .next (s.issue (.mbarTest h o m) (mbarBody o m 4))

/-- A word whose lanes are all checked before the whole batch parks (R286, R287). -/
def State.parkOrTrap {α : Type} (s : State) (x : Iss) (f : State → Nat → State × Except Failure α)
    (w : List (Nat × α) → Wait) : State :=
  if x.gt = 0 then s.complete x x.lanes
  else
    let (s, rs) := s.checkLanes f (lanesOf x.gt)
    match failures rs with
    | [] => s.park x x.lanes (w (passes rs))
    | (i, e) :: fs => s.trapAll x (maskOf (i :: fs.map Prod.fst)) e.kind e.info e.addr

/-- R286: `mbar.wait`. -/
def execMbarWait (h : Hdr) (o : Opnds) (m : BitVec 16) (s : State) : Host.Outcome State Fault Refusal :=
  .next (s.issue (.mbarWait h o m) fun x s => s.mbarLanes o 3 x fun x ps s =>
    if x.gt = 0 then s.complete x x.lanes
    else s.park x x.lanes (.mbarWait (ps.map fun p => (p.1, p.2.1, p.2.2)) ((Sys2Proof.Scope.ofCode (xf m 2 0)).getD .wg) x.words))

/-- The counter of a `waitge` in a lane, with its checks (R287, R295, R428). -/
def waitgeCheck (o : Opnds) (x : Iss) (s : State) (i : Nat) : State × Except Failure CounterWait :=
  let c := s.core x.core
  match globalAddr c x o.a o.b i false, srcVal64 c x o.c i with
  | .error e, t => (s, .error { e with info := e.info + if t.isNone then 4 else 0 })
  | .ok _, none => (s, .error ⟨5, 4, 0⟩)
  | .ok ea, some t => match s.globalPlace x ea 8 .read 3 with
    | (s, .error e) => (s, .error e)
    | (s, .ok (.mem pa _ sl fv _ _)) => (s, .ok ⟨i, pa, sl, fv, false, t⟩)
    | (s, .ok (.inPlace pa _)) => (s, .ok ⟨i, pa, false, false, true, t⟩)
    | (s, .ok _) => (s, .error ⟨6, 0, ea⟩)

/-- R287. -/
def execWaitge (h : Hdr) (o : Opnds) (m : BitVec 16) (s : State) : Host.Outcome State Fault Refusal :=
  .next (s.issue (.waitge h o m) fun x s => s.parkOrTrap x (waitgeCheck o x) fun ps =>
    .waitge (ps.map Prod.snd) ((Sys2Proof.Scope.ofCode (xf m 2 0)).getD .pkg) (BitVec.ofNat 8 (xf m 10 3)) x.words)

/-- A trap that a word raises once it is complete (R289, R348): its lanes leave the loops that end at it. -/
def softTrap (kind code : Nat) (x : Iss) (s : State) : State :=
  let s := s.onCore x.core fun c => c.onSpindle x.slot fun sp => sp.leaveEnd x x.gt
  let s := if x.gt = 0 then s else s.raise x x.gt x.gt kind code 0 (x.pc + BitVec.ofNat 64 (4 * x.len))
  s.complete x (x.lanes &&& ~~~x.gt)

/-- R289. -/
def execTrap (h : Hdr) (o : Opnds) (m : BitVec 16) (s : State) : Host.Outcome State Fault Refusal :=
  .next (s.issue (.trap h o m) (softTrap 14 m.toNat))
def execTrapBkpt (h : Hdr) (o : Opnds) (m : BitVec 16) (s : State) : Host.Outcome State Fault Refusal :=
  .next (s.issue (.trapBkpt h o m) (softTrap 15 m.toNat))

/-- R290. -/
def execExit (h : Hdr) (o : Opnds) (s : State) : Host.Outcome State Fault Refusal :=
  .next (s.issue (.exit h o) fun x s =>
    if x.gt = 0 then s.complete x x.lanes else s.onCore x.core fun c => c.endAll x.wg)

/-- The context of a parked batch, as its word saw it: every lane of the batch, with its words (R53). -/
def State.parkedIss (s : State) (r slot : Nat) (b : Batch) (iw : List Nat) : Iss :=
  let c := s.core r
  let sp : Spindle := (c.spindle slot).getD default
  let f : Fibre := (sp.fibre (lowestLane b.lanes)).getD default
  { core := r, slot := slot, lanes := b.lanes, batch := b.lanes, gt := b.lanes, pc := f.pc, base := f.base, rows := f.rows,
    seg := sp.seg, wg := sp.wg, cx := ((c.wg sp.wg).getD default).rcd.ctx, len := iw.length, mark := b.mark, lit := 0, words := iw, tick := s.tick }

/-- Batches released together (R55): each completes its own word, and their lanes form batches anew. -/
def Core.releaseAll (c : Core) (slot : Nat) (gs : List (Word × Nat)) : Core :=
  c.onSpindle slot fun sp =>
    let all := gs.foldl (fun (m : Word) g => m ||| g.1) 0
    let mark := sp.batches.any fun b => b.lanes &&& all != 0 && b.mark
    (gs.foldl (fun sp g => (lanesOf g.1).foldl (fun (sp : Spindle) i => sp.endProc i (sp.at_ i).1 g.2) sp) sp).regroup all mark false

/-- MARKER_RESUME (R175, R434). -/
def execMarkerResume (core slot lane : Nat) (s : State) : Host.Outcome State Fault Refusal :=
  .next (match s.waitAt core slot lane with
    | none => s
    | some (sp, b) =>
      let fids := (lanesOf b.lanes).filterMap fun i => (sp.fibre i).map (·.fid)
      if !b.mark || b.wait != .none || fids.any (s.core core).outstanding then s
      else s.onCore core fun c => { c with marks := c.marks.filter fun m => !fids.contains m.fid }.onSpindle slot
        fun (sp : Spindle) => { sp with batches := sp.batches.map fun (a : Batch) => if a.lanes = b.lanes then { a with mark := false } else a })

/-- The batches parked at a `join` on one mask go on together once all its lanes are parked on it (R55, R90). -/
def State.releaseJoin (s : State) (core slot lane : Nat) : State :=
  match s.waitAt core slot lane with
    | none => s
    | some (sp, b) => match b.wait with
      | .join m _ =>
        let parked (i : Nat) : Bool := match sp.batchOf i with
          | some t => (match t.wait with
            | .join k _ => k == m
            | _ => false)
          | none => true
        if (lanesOf m).all parked then
          s.onCore core fun c => c.releaseAll slot (sp.batches.filterMap fun t => match t.wait with
            | .join k len => if k = m then some (t.lanes, len) else none
            | _ => none)
        else s
      | _ => s

/-- JOIN_RELEASE (R55). -/
def execJoinRelease (core slot lane : Nat) (s : State) : Host.Outcome State Fault Refusal := .next (s.releaseJoin core slot lane)

/-- The result rows and v1 of a returning lane (R275 lines 4 to 7). -/
def Core.returnLane (c : Core) (f cbase res i : Nat) : Core :=
  let c1 := (List.range res).foldl (fun c' k => c'.setRow (cbase + 2 + k) i (c.row (f + 2 + k) i)) c
  c1.setRow (cbase + 1) i (returnV1 (c.row f i) (c.row (f + 1) i))

/-- Every member of a frame being parked at a return in it, they return (R90, R275, R334, R430). -/
def State.releaseRet (s : State) (core slot lane : Nat) : State :=
  match s.waitAt core slot lane with
    | none => s
    | some (sp, b) => match b.wait, sp.frameOf lane with
      | .ret _ iw, some f =>
        let back (i : Nat) : Option Nat := match sp.batchOf i, sp.frameOf i with
          | some t, some g => (match t.wait with
            | .ret res _ => if g.base = f.base then some res else none
            | _ => none)
          | _, _ => none
        let ls := lanesOf f.members
        if ls.any (fun i => (back i).isNone) || s.tileIn core [(f.base, f.rows)] then s
        else match (s.core core).linkRead f.base with
          | none => s.trapAll { s.parkedIss core slot b iw with lanes := f.members, batch := f.members } f.members 5 0 0
          | some d =>
            let cbase := nbits d 74 64
            s.onCore core fun c =>
              (ls.foldl (fun (c : Core) i => c.returnLane f.base cbase ((back i).getD 0) i) c).onSpindle slot fun sp =>
                let mark := sp.batches.any fun t => t.lanes &&& f.members != 0 && t.mark
                let sp := { sp with frames := leaveFrames f.members (fun g => g.base == f.base) sp.frames,
                                    loops := sp.loops.filter fun r => r.base != f.base }
                (ls.foldl (fun (sp : Spindle) i => sp.onFibre i fun fb =>
                  { fb with pc := fb.rtePc.getD (BitVec.ofNat 64 d), base := cbase, rows := nbits d 83 75, rtePc := none }) sp).regroup
                    f.members mark false
      | _, _ => s

/-- RET_RELEASE (R275). -/
def execRetRelease (core slot lane : Nat) (s : State) : Host.Outcome State Fault Refusal := .next (s.releaseRet core slot lane)

/-- A request for rows of a quarter (R49, R432): its age, slot, lanes, and granules; a restore names its frames. -/
structure RowReq where
  age    : List Nat
  slot   : Nat
  lanes  : Word
  g      : Nat
  frames : List (Nat × Nat)
  deriving DecidableEq, Repr

/-- Whether one age is less than another, field by field. -/
def ageLt : List Nat → List Nat → Bool
  | a :: as, b :: bs => decide (a < b) || (a == b && ageLt as bs)
  | _, _ => false

/-- The age of a spindle's request (R432): launch sequence, workgroup ordinal, spindle index, lowest lane. -/
def Core.ageOf (c : Core) (sp : Spindle) (lane : Nat) : List Nat :=
  let w : Workgroup := (c.wg sp.wg).getD default
  [w.rcd.lseq, w.rcd.ordinal, sp.sidx, lane]

/-- The rows that the blocked batches and the spilled spindles of a quarter ask for (R49, R427, R432). -/
def State.rowRequests (s : State) (r q : Nat) : List RowReq :=
  let c := s.core r
  (c.spindles.filter fun e => e.1 / 16 == q).flatMap fun e =>
    if e.2.spilled then
      [⟨c.ageOf e.2 (lowestLane e.2.occupied), e.1, 0, 0, e.2.frames.map fun f => (f.base, f.rows)⟩]
    else e.2.batches.filterMap fun b => match b.wait with
      | .call dem _ _ _ => some ⟨c.ageOf e.2 (lowestLane b.lanes), e.1, b.lanes, ceilDiv dem 8, []⟩
      | .trap t => if t.recVa.isSome then
          some ⟨c.ageOf e.2 (lowestLane b.lanes), e.1, b.lanes,
                ceilDiv (s.ctx ((c.wg e.2.wg).getD default).rcd.ctx).hrows 8, []⟩
        else none
      | _ => none

/-- Whether a request fits the free granules of its quarter (R48, R432). -/
def Core.fits (c : Core) (q : Nat) (a : RowReq) : Bool :=
  if a.frames.isEmpty then (c.frameRun q a.g).isSome
  else a.frames.all fun f => c.usedGranules q &&& (BitVec.ofNat 64 (2 ^ (f.2 / 8) - 1) <<< ((f.1 - quarterRow q) / 8)) == 0

/-- Whether no older request of the quarter fits (R49). -/
def State.turnOf (s : State) (r slot : Nat) (lanes : Word) : Bool :=
  let q := quarterOf slot
  let rs := s.rowRequests r q
  match rs.find? fun a => a.slot == slot && a.lanes == lanes with
  | none => true
  | some a => rs.all fun b => !(ageLt b.age a.age) || !(s.core r).fits q b

/-- CALL_RETRY (R49). -/
def execCallRetry (core slot lane : Nat) (s : State) : Host.Outcome State Fault Refusal :=
  .next (match s.waitAt core slot lane with
    | none => s
    | some (_, b) => match b.wait with
      | .call dem args target iw =>
        if !s.turnOf core slot b.lanes then s
        else
          let x := s.parkedIss core slot b iw
          match (s.core core).takeFrame slot b.lanes dem args target (x.pc + BitVec.ofNat 64 (4 * x.len)) none with
          | none => s
          | some c => s.setCore core (c.onSpindle slot fun sp => (sp.leaveEnd x b.lanes).regroup b.lanes b.mark false)
      | _ => s)

/-- TRAP_DELIVERY (R427): a trap that waits for room in the ring, or for a frame. -/
def execTrapDelivery (core slot lane : Nat) (s : State) : Host.Outcome State Fault Refusal :=
  .next (match s.waitAt core slot lane with
    | none => s
    | some (_, b) => match b.wait with
      | .trap t => if t.recVa.isSome && !s.turnOf core slot b.lanes then s else s.deliver core slot b.lanes t
      | _ => s)

/-- A batch that its wait lets go: its acquire, then it goes on (R90). -/
def State.letGo (s : State) (core slot : Nat) (b : Batch) (len : Nat) (wide : Bool) (mask : BitVec 8) : State :=
  (s.acquireCore core wide mask).onCore core fun c => c.release slot b.lanes len

/-- A generation of a barrier that has its arrivals ends, and its batches acquire and go on (R90, R284). -/
def State.releaseBar (s : State) (core wg bid : Nat) : State :=
  let s := s.onCore core fun c => c.closeBar wg bid
  match (s.core core).wg wg with
  | none => s
  | some w => if w.halted then s
    else ((s.core core).spindlesOf wg).foldl (fun s e => e.2.batches.foldl (fun s b => match b.wait with
      | .bar k scope _ _ true len => if k = bid then s.letGo core e.1 b len (Scope.wide scope) 0xFF else s
      | _ => s) s) s

/-- BAR_RELEASE (R284). -/
def execBarRelease (core wg bid : Nat) (s : State) : Host.Outcome State Fault Refusal := .next (s.releaseBar core wg bid)

/-- A batch parked at an `mbar.wait` looked at again (R90, R286): lanes whose object is poison trap, and where every object has left
its phase the batch goes on. -/
def State.releaseMbar (s : State) (core slot lane : Nat) : State :=
  match s.waitAt core slot lane with
  | none => s
  | some (sp, b) => match b.wait with
    | .mbarWait all scope iw =>
      let c := s.core core
      let ws := all.filter fun w => b.lanes.getLsbD w.1
      let busy := ws.any fun w => c.iq.any fun e => some e.fid == (sp.fibre w.1).map (·.fid) &&
        e.kind.changes.any fun k => k.1 == .scratch && (wordSpan w.2.1 16).contains k.2
      let bad := maskOf ((ws.filter fun w => (c.mbarAt w.2.1).isNone).map Prod.fst)
      if busy then s
      else if bad ≠ 0 then s.trapLanes (s.parkedIss core slot b iw) bad 5 64 0
      else if ws.all fun w => (c.mbarAt w.2.1).any fun m => m.ph != w.2.2 then
        s.letGo core slot b iw.length (Scope.wide scope) 0xFF
      else s
    | _ => s

/-- MBAR_WAIT_RELEASE (R286). -/
def execMbarWaitRelease (core slot lane : Nat) (s : State) : Host.Outcome State Fault Refusal := .next (s.releaseMbar core slot lane)

/-- The counters of a `waitge` read in one move: the lanes whose counter is poison, and whether all have met their targets. -/
def State.readCounters (s : State) (r cx : Nat) : List CounterWait → State × List Nat × Bool
  | [] => (s, [], true)
  | w :: ws =>
    let (s, v) := s.readCounter r cx w.pa w.sl w.fv w.inPl
    let (s, bad, ok) := s.readCounters r cx ws
    match pairVal (v.getD 0 .poison) (v.getD 1 .poison) with
    | none => (s, w.lane :: bad, false)
    | some n => (s, bad, ok && decide (w.target.toNat ≤ n.toNat))

/-- A batch parked at a `waitge` whose counters have all met their targets goes on (R90, R287); a read that meets poison, or that must
wait, changes nothing here. -/
def State.releaseWaitge (s : State) (core slot lane : Nat) : State :=
  match s.waitAt core slot lane with
  | none => s
  | some (_, b) => match b.wait with
    | .waitge ws scope creg iw =>
      let (t, bad, ok) := s.readCounters core (s.parkedIss core slot b iw).cx ws
      if ok && bad.isEmpty && !t.stall then t.letGo core slot b iw.length (Scope.wide scope) creg else s
    | _ => s

/-- WAITGE_REREAD (R287). -/
def execWaitgeReread (core slot lane : Nat) (s : State) : Host.Outcome State Fault Refusal :=
  .next (match s.waitAt core slot lane with
    | none => s
    | some (_, b) => match b.wait with
      | .waitge ws scope creg iw =>
        let x := s.parkedIss core slot b iw
        let (s, bad, ok) := s.readCounters core x.cx ws
        if !bad.isEmpty then s.trapAll x (maskOf bad) 5 0 0
        else if ok then s.letGo core slot b iw.length (Scope.wide scope) creg
        else s
      | _ => s)

/-- YIELD_RELEASE (R283). -/
def execYieldRelease (core slot lane : Nat) (s : State) : Host.Outcome State Fault Refusal :=
  .next (match s.waitAt core slot lane with
    | none => s
    | some (sp, b) => match b.wait with
      | .yield n timed len => if timed || decide (n < sp.issues) then s.onCore core fun c => c.release slot b.lanes len else s
      | _ => s)

end Sys2Proof.Machine
end

