-- ==== Sys2Proof/Machine/Planes.lean ====
section
/-!
DEFINITION. The plane form (spec/07_numbers.md R152, R153), the arithmetic of a tile task (R154), and its chain of bias,
activation and requantisation (R155 to R157).
-/

namespace Sys2Proof.Machine

/-- A row in plane form (R152, R153): its sign word, magnitude planes from the most significant, exponent byte (none is poison),
and whether the row saturated or met a NaN, an infinity or a scale of 0xFF. -/
structure PlaneRow where
  sign   : Nat
  planes : List Nat
  e8     : Option Nat
  ovf    : Bool
  inv    : Bool
  deriving DecidableEq, Repr

/-- The bytes of an element of a source type (R316). -/
def elemBytes (t : Ty) : Nat :=
  match t with
  | .i8 | .n8 | .e4m3 | .e5m2 => 1
  | .i16 | .n16 | .f16 | .bf16 => 2
  | _ => 4

/-- Whether a source type is an integer type. -/
def isIntTy (t : Ty) : Bool :=
  match t with
  | .i8 | .i16 | .n8 | .n16 => true
  | _ => false

/-- An element as a value of its type (R137, R139). -/
def elemVal (t : Ty) (x : Nat) : FVal :=
  match t with
  | .i8 => let v := sextInt 8 x
           .fin (decide (v < 0)) v.natAbs 0
  | .i16 => let v := sextInt 16 x
            .fin (decide (v < 0)) v.natAbs 0
  | .n8 => .fin false (x % 256) 0
  | .n16 => .fin false (x % 65536) 0
  | .f16 => Fmt.f16.decode x
  | .bf16 => Fmt.bf16.decode x
  | .e4m3 => Fmt.e4m3.decode x
  | .e5m2 => Fmt.e5m2.decode x
  | _ => Fmt.f32.decode x

/-- A number with the given bits set. -/
def bitsOf (l : List Bool) : Nat := l.zipIdx.foldl (fun n b => n + (if b.1 then 2 ^ b.2 else 0)) 0

/-- A row that stands for magnitudes m and signs at exponent e (R152 lines 12 and 13, R153). -/
def planeRow (n : Nat) (ms : List (Bool × Nat)) (e : Int) (ovf : Bool) : PlaneRow :=
  { sign := bitsOf (ms.map fun m => m.1 && m.2 != 0),
    planes := (List.range n).map fun j => bitsOf (ms.map fun m => m.2.testBit (n - 1 - j)),
    e8 := some (e + 127).toNat, ovf := ovf, inv := false }

/-- A row whose exponent byte is poison and whose planes are 0 (R152 line 3). -/
def deadRow (n : Nat) (inv : Bool) : PlaneRow := ⟨0, List.replicate n 0, none, false, inv⟩

/-- Line 7 of R152, rounding as the card says (R318). -/
def planeMag (rnd : Rnd) (n : Nat) (e : Int) (x : Bool × Nat × Int) : Nat :=
  ((exactOf false x.2.1 (x.2.2 + n - 1 - e)).roundAt rnd 0).1

/-- transpose_row of R152; a row that holds poison sets no flag whatever else it holds (log entry 139): `xs` are the elements' bits, none where they read as poison; `scale` is none when the copy applies no
scale stream, `some none` when the byte reads as poison. -/
def transposeRow (rnd : Rnd) (t : Ty) (n : Nat) (xs : List (Option Nat)) (scale : Option (Option Nat)) : PlaneRow :=
  if xs.any Option.isNone || scale == some none then deadRow n false
  else
    let vs := xs.map fun x => elemVal t (x.getD 0)
    let sc := scale.map fun b => b.getD 0
    let fs : List (Option (Bool × Nat × Int)) := vs.map fun v => match v with
      | .fin s m e => some (s, m, e + (match sc with
        | some b => (b : Int) - 127
        | none => 0))
      | _ => none
    if fs.any Option.isNone || sc == some 255 then deadRow n true
    else
      let fs := fs.filterMap id
      let nz := fs.filter fun f => f.2.1 != 0
      match nz with
      | [] => ⟨0, List.replicate n 0, some 0, false, false⟩
      | f :: rest =>
        if isIntTy t && sc.isNone then
          planeRow n (fs.map fun f => (f.1, min f.2.1 (2 ^ n - 1))) ((n : Int) - 1) (fs.any fun f => decide (2 ^ n ≤ f.2.1))
        else
          let e := rest.foldl (fun a f => max a (floorLog2 f.2.1 f.2.2)) (floorLog2 f.2.1 f.2.2)
          let e := if fs.any fun f => decide (2 ^ n ≤ planeMag rnd n e f) then e + 1 else e
          if e < -127 then planeRow n (fs.map fun f => (f.1, planeMag rnd n (-127) f)) (-127) false
          else if 128 < e then planeRow n (fs.map fun f => (f.1, min (planeMag rnd n 128 f) (2 ^ n - 1))) 128 true
          else planeRow n (fs.map fun f => (f.1, planeMag rnd n e f)) e false

/-- The bytes of a plane block of R rows with n planes (R318 line 6). -/
def blockBytes (n rows : Nat) : Nat := ((n + 1) * rows * 8 + rows + 7) / 8 * 8

/-- A row of a plane block as an engine reads it (R153): signs, planes and the scale exponent a; none when a word is poison. -/
structure RowRead where
  sign   : Nat
  planes : List Nat
  a      : Int
  deriving DecidableEq, Repr

/-- The magnitude of element k. -/
def RowRead.mag (r : RowRead) (k : Nat) : Nat := r.planes.foldl (fun m p => 2 * m + (p.testBit k).toNat) 0

/-- Line 3 of R154. -/
def dotRows (x y : RowRead) : Int :=
  (List.range 64).foldl (fun p k =>
    let v : Int := (x.mag k * y.mag k : Nat)
    if x.sign.testBit k != y.sign.testBit k then p - v else p + v) 0

/-- One block of R154: the accumulator and flags after it. -/
def tileStep (acc : Word) (x y : RowRead) : Word × Flags :=
  let p := dotRows x y
  let (t, f1) := Fmt.f32.round .rn false false ⟨decide (p < 0), p.natAbs, x.a + y.a, false⟩
  let (v, f2) := fAdd .f32 .rn false false (f32Val acc) (Fmt.f32.decode t)
  (BitVec.ofNat 32 v, f1 ||| f2)

/-- The bias stage (R155). -/
def biasStage (y b : Word) : Word × Flags :=
  let r := fAdd .f32 .rn false false (f32Val y) (f32Val b)
  (BitVec.ofNat 32 r.1, r.2)

/-- Knot of R156. -/
def knot (y : Word) : Word × Flags := if (f32Val y).isNan then (0x7FC00000, Flags.nv) else (y, 0)

/-- Act of R156. `get` reads a word of the table; none when it is poison. -/
def actStage (get : Nat → Option Word) (x : Word) : Option (Word × Flags) :=
  match get 0, get 1 with
  | some x0, some w =>
    let nan : Word := 0x7FC00000
    let sh := sextInt 8 w.toNat
    let at_ (i : Nat) (f : Exact) : Option (Word × Flags) :=
      if f.m = 0 then (get (2 + i)).map knot
      else if exactEq f (exactOf false 1 0) then (get (3 + i)).map knot
      else match get (2 + i), get (3 + i) with
        | some a, some b => match f32Val a, f32Val b with
          | .fin n m e, .fin n' m' e' =>
            let lo := exactOf n m e
            let d := exactAdd .rn (exactOf n' m' e') (exactOf (!n) m e)
            let r := Fmt.f32.round .rn false false (exactAdd .rn lo (exactMul f d))
            some (BitVec.ofNat 32 r.1, r.2)
          | _, _ => some (nan, Flags.nv)
        | _, _ => none
    match f32Val x, f32Val x0 with
    | .nan _, _ => some (nan, 0)
    | _, .nan _ => some (nan, Flags.nv)
    | .inf s, .inf s0 => if s = s0 then some (nan, Flags.nv) else if s then at_ 0 (exactOf false 0 0) else at_ 255 (exactOf false 1 0)
    | .inf s, _ => if s then at_ 0 (exactOf false 0 0) else at_ 255 (exactOf false 1 0)
    | _, .inf s0 => if s0 then at_ 255 (exactOf false 1 0) else at_ 0 (exactOf false 0 0)
    | .fin n m e, .fin n0 m0 e0 =>
      let d := exactAdd .rn (exactOf n m e) (exactOf (!n0) m0 e0)
      let t : Exact := { d with e := d.e - sh }
      if t.neg || t.m == 0 then at_ 0 (exactOf false 0 0)
      else
        let i := (t.toInt .rd).1
        if 256 ≤ i then at_ 255 (exactOf false 1 0)
        else at_ i.toNat (exactAdd .rn t (exactOf true i.toNat 0))
  | _, _ => none

/-- Quant of R157, an infinite u raising NV alone (log entry 139): the value in the low bits of a word, sign-extended for i8 (R332), and the flags. -/
def quantStage (qt : Nat) (s : Word) (z : Int) (y : Word) : Word × Flags :=
  match qt with
  | 0 =>
    match f32Val y, f32Val s with
    | .nan _, _ => (BitVec.ofInt 32 z, Flags.nv)
    | _, .nan _ => (BitVec.ofInt 32 z, Flags.nv)
    | .fin n m e, .fin n' m' e' =>
      let (r, nx) := (exactMul (exactOf n m e) (exactOf n' m' e')).toInt .rn
      let q := r + z
      let c := min (max q (-128)) 127
      (BitVec.ofInt 32 c, (if nx then Flags.nx else 0) ||| (if c = q then 0 else Flags.nv))
    | a, b =>
      let zero (v : FVal) : Bool := match v with
        | .fin _ m _ => m == 0
        | _ => false
      let neg (v : FVal) : Bool := match v with
        | .fin n _ _ => n
        | .inf n => n
        | .nan _ => false
      if zero a || zero b then (BitVec.ofInt 32 z, Flags.nv)
      else (BitVec.ofInt 32 (if neg a != neg b then -128 else 127), Flags.nv)
  | 1 =>
    let r := fMul .e4m3 .rn true false (f32Val y) (f32Val s)
    (BitVec.ofNat 32 r.1, r.2)
  | _ =>
    let r := fMul .bf16 .rn true false (f32Val y) (f32Val s)
    (BitVec.ofNat 32 r.1, r.2)

end Sys2Proof.Machine
end

