-- ==== Sys2Proof/Machine/Jobs.lean ====
section
/-!
DEFINITION. Engine jobs as the package carries them out (spec/14_engines.md R316 to R334, spec/04_ordering.md R86 to R89,
spec/16_links.md R391, R392, spec/24_faults_memory.md R442 to R445): cards, footprints, the reads and writes of a job by
number, and the engine's accesses.
-/

namespace Sys2Proof.Machine

/-- Words as one number, the first word lowest; none when one is poison. -/
def cardNum (ws : List LWord) : Option Nat := if ws.any LWord.isPoison then none else some (numOf ws)

/-- A copy card of a minor (R316, R317): none when it is malformed. Minors: 0 plain, 1 plane, 2 gather, 3 mcast. -/
def parseCopy (minor n : Nat) : Option CopyCard :=
  let aux := nbits n 511 448
  let stride := nbits n 447 416
  let cmask := nbits n 415 404
  let st := nbits n 403 400
  let np := nbits n 399 396
  let rows := nbits n 395 390
  let prnd := nbits n 389 388
  let nblk := nbits n 383 352
  let ctr := nbits n 319 256
  let mbo := nbits n 254 224
  let len := nbits n 223 192
  let ssp := nbit n 130
  let dsp := nbits n 129 128
  let dst := nbits n 127 64
  let src := nbits n 63 0
  let ty : Ty := match st with
    | 0 => .i8 | 1 => .i16 | 4 => .n8 | 5 => .n16 | 8 => .f16 | 9 => .bf16 | 10 => .f32 | 12 => .e4m3 | _ => .e5m2
  let e := elemBytes ty
  let plane := minor == 1
  let gather := minor == 2
  let line := minor == 0 || minor == 3
  let ok := nbits n 387 384 == 0 && nbits n 191 131 == 0 && decide (dsp < 2) && decide (prnd < 2) &&
    (plane || gather || (aux == 0 && stride == 0 && nblk == 0)) &&
    (plane || minor == 3 || cmask == 0) && (plane || (st == 0 && np == 0 && rows == 0 && prnd == 0)) &&
    (line || len == 0) && (minor == 0 || !ssp) &&
    (!plane || [0, 1, 4, 5, 8, 9, 10, 12, 13].contains st) && (!(plane || gather) || nblk != 0) &&
    (!(plane || minor == 3) || dsp == 1) && (minor != 3 || cmask != 0) &&
    (!plane || (src % e == 0 && stride % e == 0 && dst % 8 == 0)) &&
    (!gather || (stride % 4 == 0 && decide (4 ≤ stride) && decide (stride ≤ 2048) && aux % 4 == 0 && src % 4 == 0 && dst % 4 == 0)) &&
    (!line || (len != 0 && len % 4 == 0 && src % 4 == 0 && dst % 4 == 0)) &&
    (dsp != 1 || decide (dst < 2 ^ 32)) && (!ssp || decide (src < 2 ^ 32)) && ctr % 8 == 0 && mbo % 16 == 0
  if ok then
    some { minor := minor, aux := BitVec.ofNat 64 aux, stride := stride, cmask := cmask, stype := ty, np := np, rows := rows,
           prnd := if prnd = 1 then .rz else .rn, nblk := nblk, cadd := nbits n 351 320, ctr := BitVec.ofNat 64 ctr, mbv := nbit n 255,
           mbo := mbo, len := len, ssp := ssp, dsp := dsp, dst := BitVec.ofNat 64 dst, src := BitVec.ofNat 64 src }
  else none

/-- A tile-task card (R331, R332): none when it is malformed. -/
def parseTile (n : Nat) : Option TileCard :=
  let out := nbits n 255 224
  let od := nbit n 210
  let qt := nbits n 209 208
  let eq := nbit n 207
  let ea := nbit n 206
  let eb := nbit n 205
  let init := nbit n 204
  let qz := sextInt 8 (nbits n 167 160)
  let tab := nbits n 127 96
  let bias := nbits n 95 64
  let boff := nbits n 63 32
  let aoff := nbits n 31 0
  let w := if eq then (if qt = 2 then 2 else 1) else 4
  let ok := nbits n 1023 256 == 0 && nbits n 223 211 == 0 && nbits n 175 168 == 0 && decide (qt < 3) &&
    !(eq && qt != 0 && qz != 0) && !(init && eq) && (od || decide (2 ≤ out)) && aoff % 8 == 0 && boff % 8 == 0 &&
    (!eb || bias % 4 == 0) && (!ea || tab % 4 == 0) && (!od || out % w == 0)
  if ok then
    some { out := out, od := od, qt := qt, eq := eq, ea := ea, eb := eb, init := init, pb := nbits n 203 200, pa := nbits n 199 196,
           nb := nbits n 195 188, n := nbits n 187 182, m := nbits n 181 176, qz := qz, qs := BitVec.ofNat 32 (nbits n 159 128),
           tab := tab, bias := bias, boff := boff, aoff := aoff }
  else none

/-- The width of a tile task's outputs in scratchpad (R332). -/
def TileCard.width (c : TileCard) : Nat := if c.eq then (if c.qt = 2 then 2 else 1) else 4

/-- The block sizes of A and B (R331). -/
def TileCard.blkA (c : TileCard) : Nat := blockBytes (c.pa + 1) (c.m + 1)
def TileCard.blkB (c : TileCard) : Nat := blockBytes (c.pb + 1) (c.n + 1)

/-- The scratchpad ranges a tile task reads (R333), as offset and bytes, and the one it writes with `od` = 1. -/
def TileCard.readRanges (c : TileCard) : List (Nat × Nat) :=
  [(c.aoff, (c.nb + 1) * c.blkA), (c.boff, (c.nb + 1) * c.blkB)] ++ (if c.eb then [(c.bias, 4 * (c.n + 1))] else []) ++
    (if c.ea then [(c.tab, 1036)] else [])
def TileCard.outBytes (c : TileCard) : Nat := (c.m + 1) * (c.n + 1) * c.width
/-- The rows that a tile task writes with `od` = 0 (R332). -/
def TileCard.outRows (c : TileCard) : Nat := (c.m + 1) * ceilDiv (c.n + 1) 32

/-- The regions of a posted card (R330): none when one is reserved. -/
def parseRegions (cx : Nat) (ws : List Nat) : Option (List Region) :=
  ws.foldr (fun w acc => match acc with
    | none => none
    | some l =>
      let k := nbits w 63 57
      let start := modPow 64 (sextInt 57 w)
      if k = 127 then some l else if 64 ≤ k then none else some (.virt cx start (2 ^ k) :: l)) (some [])

/-- A posted card (R330, R391): its regions and what it asks of an engine; none when it holds reserved values. -/
def parsePosted (cx eng : Nat) (ws : List LWord) : Option (List Region × List Region × JobKind) :=
  let dw (k : Nat) : Nat := numOf ((ws.drop (2 * k)).take 2)
  let b (i : Nat) : BitVec 64 := BitVec.ofNat 64 (dw i)
  match parseRegions cx ((List.range 4).map dw), parseRegions cx ((List.range 4).map fun k => dw (4 + k)) with
  | some rd, some wr =>
    if dw 8 ≠ 1 then none
    else if eng = 0 then
      let cnt := nbits (dw 12) 31 0
      let esz := nbits (dw 12) 63 32
      if dw 13 = 0 ∧ dw 14 = 0 ∧ dw 15 = 0 ∧ cnt ≠ 0 ∧ esz % 4 = 0 ∧ 4 ≤ esz ∧ esz ≤ 65536 ∧ dw 10 % 4 = 0 ∧ dw 11 % 4 = 0 then
        some (rd, wr, .gather (b 9) (b 10) (b 11) cnt esz)
      else none
    else
      let cnt := nbits (dw 12) 31 0
      let ety := nbits (dw 13) 7 0
      let cop := nbits (dw 13) 15 8
      if dw 14 = 0 ∧ dw 15 = 0 ∧ cnt ≠ 0 ∧ ety < 4 ∧ 1 ≤ cop ∧ cop ≤ 4 ∧ nbits (dw 13) 31 16 = 0 ∧ dw 10 % 4 = 0 ∧ dw 11 % 4 = 0 then
        some (rd, wr, .coll { pg := b 9, src := b 10, dst := b 11, cnt := cnt, cid := nbits (dw 12) 63 32, ety := ety, cop := cop,
                              root := nbits (dw 13) 63 32 })
      else none
  | _, _ => none

/-- The bytes that a copy lands in each landing space (R318, R321). -/
def CopyCard.size (c : CopyCard) : Nat :=
  match c.minor with
  | 1 => c.nblk * blockBytes (c.np + 1) (c.rows + 1)
  | 2 => c.stride * c.nblk
  | _ => c.len

/-- Where a write of a job goes. -/
inductive JobDst where
  | va (a : Nat)
  | scr (core b : Nat)
  | row (core row lane : Nat)
  deriving DecidableEq, Repr

/-- Where a read of a job comes from; `const` is a word that it takes without an access. -/
inductive JobSrc where
  | va (a : Nat)
  | scr (core b : Nat)
  | row (core row lane : Nat)
  | const (v : LWord)
  deriving DecidableEq, Repr

/-- The landing spaces of a copy (R319): the place of its byte 0 in each. -/
def Job.spaces (j : Job) (c : CopyCard) : List JobDst :=
  if c.dsp = 0 then [.va c.dst.toNat]
  else if c.cmask = 0 then [.scr j.core (j.scrBase + c.dst.toNat)]
  else j.recv.map fun r => .scr r.1 (nbits r.2.toNat 19 0 + c.dst.toNat)

def JobDst.plus (d : JobDst) (k : Nat) : JobDst :=
  match d with
  | .va a => .va ((a + k) % 2 ^ 64)
  | .scr c b => .scr c (b + k)
  | .row c r l => .row c r l

/-- The words by which a plane copy reads one row of one block: the elements' words, then the scale byte's (R318). -/
def planeSpan (c : CopyCard) : Nat := 16 * elemBytes c.stype + 2

/-- The address of a row of a block (R318 line 8). -/
def planeRowVa (c : CopyCard) (u : Nat) : Nat :=
  let r := u % (c.rows + 1)
  let b := u / (c.rows + 1)
  c.src.toNat + r * c.stride + b * 64 * elemBytes c.stype

/-- The numbers of the first reads of a tile task: of its initial accumulators, of A, of B, of the biases, of the table, and the number of
all its reads (R331, R333). -/
def TileCard.readStarts (c : TileCard) : List Nat :=
  let a := if c.init then (c.m + 1) * (c.n + 1) else 0
  let b := a + (c.nb + 1) * c.blkA / 4
  let bias := b + (c.nb + 1) * c.blkB / 4
  let tab := bias + if c.eb then c.n + 1 else 0
  [0, a, b, bias, tab, tab + if c.ea then 259 else 0]

/-- The reads of a stage of a tile task, by first number and count (R333): a K block, with the initial accumulators for the first, or after
the last block the biases and the table. -/
def TileCard.stageReads (c : TileCard) (k : Nat) : List (Nat × Nat) :=
  match c.readStarts with
  | [_, a, b, bias, _, all] =>
    if k ≤ c.nb then
      (if k = 0 then [(0, a)] else []) ++ [(a + k * (c.blkA / 4), c.blkA / 4), (b + k * (c.blkB / 4), c.blkB / 4)]
    else if k = c.nb + 1 then [(bias, all - bias)]
    else []
  | _ => []

/-- Where an output of a tile task goes, and its initial accumulator comes from (R331, R332). -/
def Job.tilePlace (j : Job) (c : TileCard) (k : Nat) : JobDst × Nat :=
  let i := k / (c.n + 1)
  let q := k % (c.n + 1)
  if c.od then (.scr j.core (j.scrBase + c.out + k * c.width), c.width)
  else (.row j.core (j.base + c.out + i * ceilDiv (c.n + 1) 32 + q / 32) (q % 32), 4)

/-- The k-th read of a tile task (R333): its initial accumulators, the words of its blocks of A and of B, its biases and its table. -/
def Job.tileReadAt (j : Job) (c : TileCard) (k : Nat) : Option JobSrc :=
  match c.readStarts with
  | [_, a, b, bias, tab, all] =>
    if k < a then some (match (j.tilePlace c k).1 with
      | .row _ r l => .row j.core r l
      | .scr _ o => .scr j.core o
      | .va _ => .const .poison)
    else if k < b then some (.scr j.core (j.scrBase + c.aoff + 4 * (k - a)))
    else if k < bias then some (.scr j.core (j.scrBase + c.boff + 4 * (k - b)))
    else if k < tab then some (.scr j.core (j.scrBase + c.bias + 4 * (k - bias)))
    else if k < all then some (.scr j.core (j.scrBase + c.tab + 4 * (k - tab)))
    else none
  | _ => none

/-- The k-th read of a job; none when there is none, or it is not known yet. -/
def Job.readAt (j : Job) (k : Nat) : Option JobSrc :=
  let va (a : Nat) : JobSrc := .va (a % 2 ^ 64)
  match j.kind with
  | .copy c => match c.minor with
    | 1 =>
      let w := planeSpan c
      let u := k / w
      let t := k % w
      if (c.rows + 1) * c.nblk ≤ u then none
      else
        let a := planeRowVa c u
        if t + 1 = w then
          if c.aux = 0 then none else some (va ((c.aux.toNat + (u % (c.rows + 1)) * c.nblk + u / (c.rows + 1)) / 4 * 4))
        else if a / 4 * 4 + 4 * t < a + 64 * elemBytes c.stype then some (va (a / 4 * 4 + 4 * t)) else none
    | 2 =>
      if k < c.nblk then some (va (c.aux.toNat + 4 * k))
      else
        let i := (k - c.nblk) / (c.stride / 4)
        let t := (k - c.nblk) % (c.stride / 4)
        if c.nblk ≤ i then none
        else match SMap.find j.buf i with
          | none => none
          | some .poison => some (.const .poison)
          | some x => some (va (c.src.toNat + x.val.toNat * c.stride + 4 * t))
    | _ =>
      if c.len ≤ 4 * k then none
      else if c.ssp then some (.scr j.core (j.scrBase + c.src.toNat + 4 * k)) else some (va (c.src.toNat + 4 * k))
  | .gather src idx _ cnt esz =>
    if k < cnt then some (va (idx.toNat + 4 * k))
    else
      let i := (k - cnt) / (esz / 4)
      let t := (k - cnt) % (esz / 4)
      if cnt ≤ i then none
      else match SMap.find j.buf i with
        | none => none
        | some .poison => some (.const .poison)
        | some x => some (va (src.toNat + x.val.toNat * esz + 4 * t))
  | .coll c =>
    let n := if c.cop = 3 then j.ranks * c.cnt else if c.cop = 4 ∧ j.rank ≠ c.root then 0 else c.cnt
    if n * (if c.ety = 1 then 2 else 4) ≤ 4 * k then none else some (va (c.src.toNat + 4 * k))
  | .tile c => j.tileReadAt c k
  | .row _ _ _ => none

/-- The elements of a row of a block as a plane copy has read them (R318 lines 8 and 9); none when a word is missing. -/
def Job.planeElems (j : Job) (c : CopyCard) (u : Nat) : Option (List (Option Nat) × Option (Option Nat)) :=
  let w := planeSpan c
  let e := elemBytes c.stype
  let a := planeRowVa c u
  let word (t : Nat) : Option LWord := SMap.find j.buf (u * w + t)
  let scale : Option (Option (Option Nat)) :=
    if c.aux = 0 then some none
    else match word (w - 1) with
      | none => none
      | some .poison => some (some none)
      | some v =>
        let sa := c.aux.toNat + (u % (c.rows + 1)) * c.nblk + u / (c.rows + 1)
        some (some (some ((v.val.toNat >>> (8 * (sa % 4))) % 256)))
  let need := ceilDiv (a % 4 + 64 * e) 4
  if (List.range need).any fun t => (word t).isNone then none
  else match scale with
    | none => none
    | some sc => some ((List.range 64).map fun k =>
        let o := a % 4 + k * e
        match word (o / 4) with
        | some (.good v) => some ((v.toNat >>> (8 * (o % 4))) % 2 ^ (8 * e))
        | _ => none, sc)

/-- The plane form of a row of a block (R152). -/
def Job.planeOf (j : Job) (c : CopyCard) (u : Nat) : Option PlaneRow :=
  (j.planeElems c u).map fun p => transposeRow c.prnd c.stype (c.np + 1) p.1 p.2

/-- An element of a rank's contribution (R391, R392): its own words from its reads, another's from what it has sent. -/
def Job.contribution (j : Job) (c : CollCard) (r i : Nat) : LWord :=
  let es := if c.ety = 1 then 2 else 4
  let w : LWord := if r = j.rank then SMap.get .poison j.buf (i * es / 4)
    else .good ((SMap.get [] j.answers r).getD (i * es / 4) 0)
  match w with
  | .poison => .poison
  | w => .good (if c.ety = 1 then (w.val >>> (8 * (i * es % 4))) &&& 0xFFFF else w.val)

/-- The sum of the ranks' elements in ascending order (R392), as the bits of an element. -/
def collSum (ety : Nat) (vs : List LWord) : LWord :=
  if vs.any LWord.isPoison then .poison
  else
    let up (v : LWord) : Word := if ety = 1 then v.val <<< 16 else v.val
    let add (a b : Word) : Word := if ety ≤ 1 then f32Add a b else a + b
    match vs with
    | [] => .good 0
    | v :: l =>
      let first := up v
      let first := if ety ≤ 1 && (f32Val first).isNan then (0x7FC00000 : Word) else first
      let s := l.foldl (fun a w => add a (up w)) first
      if ety = 1 then match f32Val s with
        | .nan _ => .good 0x7FC0
        | .inf n => .good (BitVec.ofNat 32 (Fmt.bf16.signed n Fmt.bf16.infBits))
        | .fin n m e => .good (BitVec.ofNat 32 (Fmt.bf16.round .rn false false (exactOf n m e)).1)
      else .good s

/-- The number of result elements of a collective, and element i of its result (R392). -/
def Job.collCount (j : Job) (c : CollCard) : Nat := if c.cop = 2 then j.ranks * c.cnt else c.cnt
def Job.collElem (j : Job) (c : CollCard) (i : Nat) : LWord :=
  match c.cop with
  | 1 => collSum c.ety ((List.range j.ranks).map fun r => j.contribution c r i)
  | 2 => j.contribution c (i / c.cnt) (i % c.cnt)
  | 3 => collSum c.ety ((List.range j.ranks).map fun r => j.contribution c r (j.rank * c.cnt + i))
  | _ => j.contribution c c.root i

/-- Whether a rank contributes to a collective: of a broadcast, only its root does (R392). -/
def CollCard.gives (c : CollCard) (r : Nat) : Bool := c.cop != 4 || r == c.root

/-- The words of a collective's own contribution, once the job has read them all. -/
def Job.ownWords (j : Job) (c : CollCard) : Option (List LWord) :=
  let n := if c.cop = 3 then j.ranks * c.cnt else if c.gives j.rank then c.cnt else 0
  (List.range (ceilDiv (n * (if c.ety = 1 then 2 else 4)) 4)).mapM fun k => SMap.find j.buf k

/-- Whether a job has read all the words of a collective's own contribution. -/
def Job.collRead (j : Job) (c : CollCard) : Bool := (j.ownWords c).isSome

/-- Whether the contributions of the other ranks have arrived. -/
def Job.collMet (j : Job) (c : CollCard) : Bool :=
  (List.range j.ranks).all fun r => r == j.rank || !c.gives r || (SMap.find j.answers r).isSome

/-- The number of writes of a job. -/
def Job.total (j : Job) : Nat :=
  match j.kind with
  | .copy c => (j.spaces c).length * (match c.minor with
    | 1 => (c.rows + 1) * c.nblk * (c.np + 3)
    | 2 => c.nblk * (c.stride / 4)
    | _ => c.len / 4)
  | .gather _ _ _ cnt esz => cnt * (esz / 4)
  | .coll c => ceilDiv (j.collCount c * (if c.ety = 1 then 2 else 4)) 4
  | .tile c => (c.m + 1) * (c.n + 1)
  | .row _ _ _ => 0

/-- The k-th write of a job: where it goes and its bytes; none when there is none (R318, R330, R332, R392). -/
def Job.placeAt (j : Job) (k : Nat) : Option (JobDst × Nat) :=
  match j.kind with
  | .copy c =>
    let per := j.total / max 1 (j.spaces c).length
    match (j.spaces c)[k / max 1 per]? with
    | none => none
    | some d =>
      let u := k % max 1 per
      if c.minor = 1 then
        let n := c.np + 1
        let rows := c.rows + 1
        let ru := u / (n + 2)
        let t := u % (n + 2)
        let o := (ru / rows) * blockBytes n rows
        let r := ru % rows
        if t ≤ n then some (d.plus (o + t * rows * 8 + 8 * r), 8) else some (d.plus (o + (n + 1) * rows * 8 + r), 1)
      else some (d.plus (4 * u), 4)
  | .gather _ _ dst cnt esz => if k < cnt * (esz / 4) then some (.va ((dst.toNat + 4 * k) % 2 ^ 64), 4) else none
  | .coll c =>
    let es := if c.ety = 1 then 2 else 4
    let bytes := j.collCount c * es
    if bytes ≤ 4 * k then none else some (.va ((c.dst.toNat + 4 * k) % 2 ^ 64), min 4 (bytes - 4 * k))
  | .tile c =>
    if (c.m + 1) * (c.n + 1) ≤ k then none else some (j.tilePlace c k)
  | .row _ _ _ => none

/-- The data of the k-th write of a job: none while what it needs is not read or computed. -/
def Job.dataAt (j : Job) (k : Nat) : Option (List LWord) :=
  match j.kind with
  | .copy c =>
    let per := j.total / max 1 (j.spaces c).length
    let u := k % max 1 per
    match c.minor with
    | 1 =>
      let n := c.np + 1
      let t := u % (n + 2)
      (j.planeOf c (u / (n + 2))).map fun p =>
        let two (x : Nat) : List LWord := [.good (BitVec.ofNat 32 x), .good (BitVec.ofNat 32 (x / 2 ^ 32))]
        if t = 0 then two p.sign
        else if t ≤ n then two (p.planes.getD (t - 1) 0)
        else [match p.e8 with
          | some e => .good (BitVec.ofNat 32 e)
          | none => .poison]
    | 2 => (SMap.find j.buf (c.nblk + u)).map ([·])
    | _ => (SMap.find j.buf u).map ([·])
  | .gather _ _ _ cnt _ => (SMap.find j.buf (cnt + k)).map ([·])
  | .coll c =>
    if !j.collRead c || !j.collMet c then none
    else if c.ety = 1 then
      match j.collElem c (2 * k), (if 2 * k + 1 < j.collCount c then j.collElem c (2 * k + 1) else .good 0) with
      | .poison, _ => some [.poison]
      | _, .poison => some [.poison]
      | a, b => some [.good (a.val ||| (b.val <<< 16))]
    else some [j.collElem c k]
  | .tile c => if j.block = c.nb + 2 then (j.acc[k]?).map ([·]) else none
  | .row _ _ _ => none

/-- n bytes written to scratchpad in place, at an absolute byte offset (R80, R88). -/
def State.jobScrWrite (s : State) (core b n : Nat) (data : List LWord) : State :=
  s.onCore core fun c => data.zipIdx.foldl (fun c e => c.putScrAt (b + 4 * e.2) (min 4 (n - 4 * e.2)) e.1) c

/-- What an engine's access to a line meets (R442 to R445, R447): it may go on, it must wait, or a cause of a copy fault. -/
inductive LineRes where
  | ready
  | wait
  | bad (cause : Nat)
  deriving DecidableEq, Repr

/-- The line of an address made ready for an engine's access of slot ks (R127, R128, R442, R445). -/
def State.engineLine (s : State) (cx pa : Nat) (sl : Bool) (writes : Bool) : State × LineRes :=
  let ks := (s.ctx cx).ks
  if !isHbm pa then
    match s.ensureLine (some cx) pa ks sl with
    | (s, true) => (s, .ready)
    | (s, false) => (s, .bad 31)
  else
    let blk := pa / 2048
    match s.getMeta blk with
    | (s, none) => match s.ensureLine (some cx) pa ks sl with
      | (s, _) => (s, .ready)
    | (s, some m) =>
      if (SMap.find s.l2 (pa / 128)).isNone && m.kslot == ks && (s.key ks).st != .empty && m.otag != outerTag (s.keysFor ks m.kgen blk).2 blk m then
        ((s.ensureLine (some cx) pa ks sl).1, .bad 17)
      else if m.p then (s, .bad 19)
      else if writes && m.x then (s, .bad 20)
      else
        let cause := if m.kslot ≠ ks ∨ (s.key ks).st = .empty then 18 else if m.o = sl then 12 else 16
        match s.ensureLine (some cx) pa ks sl with
        | (s, false) => (s, .bad (if (SMap.find s.l2 (pa / 128)).isSome then 18 else cause))
        | (t, true) => match t.getMeta blk with
          | (t, some m') => if m'.p then (t, .bad 16) else (t, .ready)
          | (t, none) => (t, .ready)

/-- The word of an address read by an engine for a context (R88): a cause, or `none` where the request must wait. -/
def State.engineWord (s : State) (die cx va : Nat) : State × Except (Option Nat) LWord :=
  match s.translateHw die cx va .read with
  | (s, .error c) => (s, .error (some c))
  | (s, .ok (pa, l)) =>
    if inPlacePage l pa then (s, .ok (s.readInPlace pa))
    else if s.hostBlocks (pa / 4) false then (s, .error none)
    else if l.fv then
      let (s, ok) := s.ensureView (some cx) pa
      (s, .ok (if ok then s.l2Word (pa / 4) else .poison))
    else match s.engineLine cx pa l.sl false with
      | (s, .wait) => (s, .error none)
      | (s, .bad c) => (s, .error (some c))
      | (s, .ready) =>
        let (s, v) := s.fetchHome none (pa / 4)
        (s, .ok v)

/-- Four bytes read by an engine for a context, at an address of any alignment (R88, R330): a cause, or `none` where the request must
wait. -/
def State.engineRead (s : State) (die cx va : Nat) : State × Except (Option Nat) LWord :=
  if va % 4 = 0 then s.engineWord die cx va
  else match s.engineWord die cx (va / 4 * 4) with
    | (s, .error e) => (s, .error e)
    | (s, .ok lo) => match s.engineWord die cx ((va / 4 * 4 + 4) % 2 ^ 64) with
      | (s, .error e) => (s, .error e)
      | (s, .ok hi) => (s, .ok (match lo, hi with
        | .poison, _ => .poison
        | _, .poison => .poison
        | lo, hi => .good (BitVec.ofNat 32 ((lo.val.toNat + 2 ^ 32 * hi.val.toNat) >>> (8 * (va % 4))))))

/-- n bytes written by an engine job at their home for its core (R88, R108, R109: J-write); answers a cause, or `none` where it
must wait. The core's V copy of the word goes (R80). -/
def State.engineWrite (s : State) (die cx va n core cl job : Nat) (v : LWord) : State × Except (Option Nat) Unit :=
  match s.translateHw die cx va .write with
  | (s, .error c) => (s, .error (some c))
  | (s, .ok (pa, l)) =>
    let w := pa / 4
    if inPlacePage l pa then (s.writeInPlace pa n v, .ok ())
    else if s.registerWaits w then (s, .error none)
    else match s.engineLine cx pa l.sl true with
      | (s, .wait) => (s, .error none)
      | (s, .bad c) => (s, .error (some c))
      | (s, .ready) => match s.makeRoom (w / 32) core [w] with
        | (s, false) => (s, .error none)
        | (s, true) =>
          let (s, old) := s.registerHome core w false
          (((s.setRegAt w (some (.j core cl job))).homePut w (mergeBytes old (pa % 4) n v)).dropV core w, .ok ())

/-- A job of a cluster, by its number. -/
def State.job (s : State) (cl id : Nat) : Option Job := (s.cluster cl).jobs.find? fun j => j.id == id

/-- A job changed, where it is. -/
def State.onJob (s : State) (cl id : Nat) (f : Job → Job) : State :=
  let k := s.cluster cl
  s.setCluster cl { k with jobs := k.jobs.map fun j => if j.id = id then f j else j }

/-- A job taken off its queue: it is complete (R87). -/
def State.dropJob (s : State) (cl id : Nat) : State :=
  let k := s.cluster cl
  s.setCluster cl { k with jobs := k.jobs.filter fun j => j.id != id }

/-- Whether two regions share a byte of one space (R86). -/
def Region.overlaps (a b : Region) : Bool :=
  match a, b with
  | .virt c s n, .virt d t m => c == d && decide (s < t + m) && decide (t < s + n)
  | .scratch c s n, .scratch d t m => c == d && decide (s < t + m) && decide (t < s + n)
  | .rows c s n, .rows d t m => c == d && decide (s < t + m) && decide (t < s + n)
  | _, _ => false

/-- Whether some regions of one list overlap some of another. -/
def regionsMeet (a b : List Region) : Bool := a.any fun x => b.any x.overlaps

/-- The footprint of a job (R86, R321, R330, R333). -/
def Job.footprint (j : Job) : List Region × List Region :=
  match j.kind with
  | .copy c =>
    let v (a n : Nat) : Region := .virt j.ctx a n
    let rd := match c.minor with
      | 1 => v c.src.toNat (c.rows * c.stride + 64 * elemBytes c.stype * c.nblk) ::
          (if c.aux = 0 then [] else [v c.aux.toNat ((c.rows + 1) * c.nblk)])
      | 2 => [v c.aux.toNat (4 * c.nblk), v c.src.toNat (c.stride * 2 ^ 32)]
      | _ => [if c.ssp then .scratch j.core (j.scrBase + c.src.toNat) c.len else v c.src.toNat c.len]
    let wr := (j.spaces c).map fun d => match d with
      | .va a => v a c.size
      | .scr k b => .scratch k b c.size
      | .row k r _ => .rows k r 1
    (rd, wr)
  | .tile c =>
    (c.readRanges.map fun r => .scratch j.core (j.scrBase + r.1) r.2,
     [if c.od then .scratch j.core (j.scrBase + c.out) c.outBytes else .rows j.core (j.base + c.out) c.outRows])
  | _ => (j.reads, j.writes)

/-- A job enters its engine queue (R86): the receivers' `CPYBASE` values are read (R319), and its edges are made. -/
def State.queueJob (s : State) (cl id : Nat) : State :=
  match s.job cl id with
  | none => s
  | some j =>
    let recv : List (Nat × BitVec 64) := match j.kind with
      | .copy c => if c.cmask = 0 then [] else (List.range 12).filterMap fun k =>
          if c.cmask.testBit k then some (12 * cl + k, (s.core (12 * cl + k)).cpybase) else none
      | _ => []
    let j := { j with recv := recv }
    let (rd, wr) := j.footprint
    let jobs := (s.cluster cl).jobs
    let edges := (jobs.filter fun k => k.status != .posting && k.id != id && k.ctx == j.ctx &&
      (regionsMeet k.writes (rd ++ wr) || regionsMeet k.reads wr)).map (·.id)
    let k := s.cluster cl
    s.setCluster cl { k with jobs := (k.jobs.filter fun t => t.id != id) ++
      [{ j with reads := rd, writes := wr, edges := edges, status := .queued }] }

/-- What stops a job as it starts (R319, R441): a cause and an address. -/
def Job.startFault (j : Job) (s : State) : Option (Nat × BitVec 64) :=
  match j.kind with
  | .copy c =>
    let bad := j.recv.find? fun r => nbits r.2.toNat 63 48 != j.ctx ||
      decide (nbits r.2.toNat 43 24 < nbits r.2.toNat 19 0 + c.dst.toNat + c.size) ||
      (c.mbv && decide (nbits r.2.toNat 43 24 < nbits r.2.toNat 19 0 + c.mbo + 16))
    match bad with
    | some r => some (if nbits r.2.toNat 63 48 ≠ j.ctx then 21 else 22, c.dst)
    | none =>
      if c.dsp = 1 ∧ c.cmask = 0 ∧ j.scrLen < c.dst.toNat + c.size then some (22, c.dst)
      else if c.ssp ∧ j.scrLen < c.src.toNat + c.len then some (22, c.src)
      else if c.mbv ∧ j.recv = [] ∧ j.scrLen < c.mbo + 16 then some (22, BitVec.ofNat 64 c.mbo)
      else none
  | _ => let _ := s
         none

/-- The die of a cluster (R6). -/
def clusterDie (cl : Nat) : Nat := cl / 16

/-- A job that has met a failure (R442); the first one stays. -/
def State.failJob (s : State) (cl id cause va : Nat) : State :=
  s.onJob cl id fun j => if j.failed.isSome then j else { j with failed := some (cause, BitVec.ofNat 64 va) }

/-- Whether an access of a posted card lies in its regions (R330). -/
def Job.inRegions (j : Job) (rs : List Region) (va n : Nat) : Bool :=
  match j.chain with
  | none => true
  | some _ => rs.any fun r => match r with
    | .virt _ start len => decide (start ≤ va) && decide (va + n ≤ start + len)
    | _ => false

/-- The 2 KiB granules in which a copy's landings are credited (R322): landing space and granule number. -/
def Job.granules (j : Job) : List (Nat × Nat) :=
  match j.kind with
  | .copy c => ((j.spaces c).zipIdx).flatMap fun e =>
      let b := match e.1 with
        | .va a => a
        | .scr _ b => b
        | .row _ _ _ => 0
      (List.range ((b + c.size + 2047) / 2048 - b / 2048)).map fun g => (e.2, b / 2048 + g)
  | _ => []

/-- The landing space and the granule of a write. -/
def Job.granuleOf (j : Job) (k : Nat) : Option (Nat × Nat) :=
  match j.kind with
  | .copy c =>
    let per := j.total / max 1 (j.spaces c).length
    (j.placeAt k).map fun p => (k / max 1 per, (match p.1 with
      | .va a => a
      | .scr _ b => b
      | .row _ _ _ => 0) / 2048)
  | _ => none

/-- The writes of a granule, with their bytes. -/
def Job.granuleWrites (j : Job) (g : Nat × Nat) : List (Nat × Nat) :=
  (List.range j.total).filterMap fun k => if j.granuleOf k = some g then (j.placeAt k).map fun p => (k, p.2) else none

/-- A copy that is halted or has met a failure finishes only the granules that have begun (R443, R460, R462); a tile task whose last
stage is done finishes its outputs. -/
def Job.mayWrite (j : Job) (k : Nat) : Bool :=
  (!j.halted && j.failed.isNone) || match j.kind, j.granuleOf k with
    | .tile _, _ => true
    | _, some g => (j.granuleWrites g).any fun w => j.landed.contains w.1
    | _, none => false

/-- One read of a started job (R88). -/
def State.jobRead (s : State) (cl : Nat) (j : Job) (k : Nat) : State :=
  let keep (s : State) (v : LWord) : State := s.onJob cl j.id fun j => { j with buf := SMap.put j.buf k v }
  match j.readAt k with
  | none => s
  | some (.const v) => keep s v
  | some (.scr c b) => keep s ((s.core c).scrAt b)
  | some (.row c r l) => keep s ((s.core c).row r l)
  | some (.va a) =>
    if !j.inRegions j.reads a 4 then s.failJob cl j.id 23 a
    else match s.engineRead (clusterDie cl) j.ctx a with
      | (s, .ok v) => keep s v
      | (s, .error (some c)) => s.failJob cl j.id c a
      | (s, .error none) => s

/-- A write of a job counted as landed; a plane row brings its status (R318, R323). -/
def State.landed (s : State) (cl : Nat) (j : Job) (k : Nat) : State :=
  let st : BitVec 2 := match j.kind with
    | .copy c => if c.minor = 1 then
        let per := j.total / max 1 (j.spaces c).length
        match j.planeOf c (k % max 1 per / (c.np + 3)) with
        | some p => (if p.ovf then 1 else 0) ||| (if p.inv then 2 else 0)
        | none => 0
      else 0
    | _ => 0
  s.onJob cl j.id fun j => { j with landed := j.landed ++ [k], st := j.st ||| st }

/-- One write of a started job to scratchpad or a row, in place (R88). -/
def State.jobWriteHere (s : State) (cl : Nat) (j : Job) (k : Nat) : State :=
  if j.landed.contains k || !j.mayWrite k then s
  else match j.placeAt k, j.dataAt k with
    | some (.scr c b, n), some d => (s.jobScrWrite c b n d).landed cl j k
    | some (.row c r l, _), some d => (s.onCore c fun c => c.setRow r l (d.getD 0 .poison)).landed cl j k
    | _, _ => s

/-- J_WRITE of R108: one write of a started job to global memory, made at its home. -/
def State.jobWriteHome (s : State) (cl : Nat) (j : Job) (k : Nat) : State :=
  if j.landed.contains k || !j.mayWrite k then s
  else match j.placeAt k, j.dataAt k with
    | some (.va a, n), some d =>
      if !j.inRegions j.writes a n then s.failJob cl j.id 23 a
      else match s.engineWrite (clusterDie cl) j.ctx a n j.core cl j.id (d.getD 0 .poison) with
        | (s, .ok ()) => s.landed cl j k
        | (s, .error (some c)) => s.failJob cl j.id c a
        | (s, .error none) => s
    | _, _ => s

/-- A row of a plane block as a plane engine reads it (R153, R154), from the words of the block; none when a word of it is poison. -/
def planeRead (word : Nat → LWord) (n rows r : Nat) : Option RowRead :=
  let dw (k : Nat) : Option Nat := (pairVal (word (2 * (k * rows + r))) (word (2 * (k * rows + r) + 1))).map BitVec.toNat
  let ws := (List.range (n + 1)).map dw
  let eb := (n + 1) * rows * 8 + r
  match word (eb / 4) with
  | .poison => none
  | e =>
    if ws.any Option.isNone then none
    else
      let ns := ws.filterMap id
      let e8 := (e.val.toNat >>> (8 * (eb % 4))) % 256
      some ⟨ns.headD 0, ns.drop 1, (e8 : Int) - 127 - n + 1⟩

/-- A word that a tile task has read, by the number of its read. -/
def Job.word (j : Job) (k : Nat) : LWord := SMap.get .poison j.buf k

/-- Whether all the reads of a tile task's present stage have been made; whether one has; and whether a read belongs to it. -/
def Job.stageRead (j : Job) (c : TileCard) : Bool :=
  (c.stageReads j.block).all fun e => (List.range e.2).all fun k => (SMap.find j.buf (e.1 + k)).isSome
def Job.stageBegun (j : Job) (c : TileCard) : Bool :=
  (c.stageReads j.block).any fun e => (List.range e.2).any fun k => (SMap.find j.buf (e.1 + k)).isSome
def Job.inStage (j : Job) (c : TileCard) (k : Nat) : Bool :=
  (c.stageReads j.block).any fun e => decide (e.1 ≤ k) && decide (k < e.1 + e.2)

/-- The accumulators a tile task starts from (R331: `init`). -/
def Job.tileInit (j : Job) (c : TileCard) : List LWord :=
  (List.range ((c.m + 1) * (c.n + 1))).map fun o => if c.init then j.word o else .good 0

/-- One K block of a tile task (R154), once its words have been read. -/
def Job.tileBlock (j : Job) (c : TileCard) (a b : Nat) : Job :=
  let na := c.blkA / 4
  let nb := c.blkB / 4
  let acc := if j.block = 0 then j.tileInit c else j.acc
  let flags := if j.block = 0 then List.replicate acc.length 0 else j.flags
  let as := (List.range (c.m + 1)).map (planeRead (fun k => j.word (a + j.block * na + k)) (c.pa + 1) (c.m + 1))
  let bs := (List.range (c.n + 1)).map (planeRead (fun k => j.word (b + j.block * nb + k)) (c.pb + 1) (c.n + 1))
  let res := acc.zipIdx.map fun e => match e.1, as.getD (e.2 / (c.n + 1)) none, bs.getD (e.2 % (c.n + 1)) none with
    | .poison, _, _ => (LWord.poison, (0 : Flags))
    | v, some x, some y =>
      let r := tileStep v.val x y
      (.good r.1, r.2)
    | _, _, _ => (.poison, 0)
  { j with acc := res.map Prod.fst, block := j.block + 1, flags := (flags.zip res).map fun e => e.1 ||| e.2.2 }

/-- The stages of a tile task's chain on the accumulator of column q (R155 to R157), from the words of its biases and of its table. A
stage that meets poison makes the output poison and gives no flags of its own; those of the stages before it stand. -/
def chainValue (c : TileCard) (bias tab : Nat → LWord) (q : Nat) (v : LWord) : LWord × Flags :=
  let word (w : LWord) : Option Word := if w.isPoison then none else some w.val
  let on (use : Bool) (f : Word → Option (Word × Flags)) (y : Option Word × Flags) : Option Word × Flags :=
    if !use then y
    else match y.1.bind f with
      | some r => (some r.1, y.2 ||| r.2)
      | none => (none, y.2)
  let y := on c.eq (fun x => some (quantStage c.qt c.qs c.qz x))
    (on c.ea (actStage fun i => word (tab i)) (on c.eb (fun x => (word (bias q)).map (biasStage x)) (word v, 0)))
  (match y.1 with
    | some x => .good x
    | none => .poison, y.2)

/-- The next step of a tile task, once the words of its stage have been read: a K block, or after the last its chain (R154, R155, R333). -/
def Job.tileStep (j : Job) (c : TileCard) : Job :=
  match c.readStarts with
  | [_, a, b, bias, tab, _] =>
    if !j.stageRead c then j
    else if j.block ≤ c.nb then j.tileBlock c a b
    else if j.block = c.nb + 1 then
      let res := j.acc.zipIdx.map fun e =>
        chainValue c (fun q => j.word (bias + q)) (fun i => j.word (tab + i)) (e.2 % (c.n + 1)) e.1
      { j with acc := res.map Prod.fst, block := j.block + 1, flags := (j.flags.zip res).map fun e => e.1 ||| e.2.2 }
    else j
  | _ => j

end Sys2Proof.Machine
end

