-- ==== Sys2Proof/Machine/Engines.lean ====
section
/-!
DEFINITION. Copies, chains and tile tasks (spec/14_engines.md R313 to R335): majors 0x70 to 0x75, and the events of an engine
job (spec/04_ordering.md R87 to R90, spec/24_faults_memory.md R442 to R444).
-/

namespace Sys2Proof.Machine

/-- The cluster whose queues a runner posts to (R74, R340). -/
def runnerCluster (r : Nat) : Nat := if isCore r then clusterOf r else unitCluster (r % 0x200)

/-- A job that a lane posts, before its posting release (R77, R86). -/
def newJob (s : State) (x : Iss) (kind : JobKind) (tag : Option Nat) (reads writes : List Region) : Job :=
  { (default : Job) with
      id := s.nextJob, ctx := x.cx, lseq := (((s.core x.core).wg x.wg).getD default).rcd.lseq, core := x.core, wg := x.wg,
      slot := x.slot, base := x.base, kind := kind, reads := reads, writes := writes, status := .posting, tag := tag,
      scrBase := s.scrBase x, scrLen := s.scrLimit x, verdict := 0, ranks := 1, rank := 0 }

/-- A job listed at a cluster, in no queue yet. -/
def State.addJob (s : State) (cl : Nat) (j : Job) : State :=
  let k := s.cluster cl
  { s.setCluster cl { k with jobs := k.jobs ++ [j] } with nextJob := s.nextJob + 1 }

/-- A lane posts a job: its release is made before the job enters its queue (R77, R314). -/
def State.postJob (s : State) (x : Iss) (lane : Nat) (kind : JobKind) (tag : Option Nat) (reads writes : List Region) : State :=
  let cl := runnerCluster x.core
  let j := newJob s x kind tag reads writes
  (s.addJob cl j).onCore x.core fun c =>
    (c.enqueue x lane (.release true false)).enqueue x lane (.posted (.job cl j.id))

/-- The engine right (R315): the spindle is `prod` of a workgroup whose record has `pv`. -/
def State.engineRight (s : State) (x : Iss) : Bool :=
  match (s.core x.core).spindle x.slot, (s.core x.core).wg x.wg with
  | some sp, some w => w.rcd.pv && sp.sidx == w.rcd.prod
  | _, _ => false

/-- A word that needs the engine right, whatever its guard (R315). -/
def State.rightWord (s : State) (i : Instr) (body : Iss → State → State) : State :=
  match s.context (hdrOf i) with
  | none => s
  | some x => if s.engineRight x then s.issue i body else s.trapAll x x.lanes 9 0 0

/-- The parts of a fibre's queued stores that lie in a word, oldest first: byte offset, bytes, value. -/
def Core.queuedTo (c : Core) (fid : Nat) (sp : Space) (w : Nat) : List (Nat × Nat × LWord) :=
  c.iq.filterMap fun o => match o.kind with
    | .store pl n data _ =>
      let ws := pl.words n
      if o.fid == fid && pl.space == sp && ws.contains w then
        some (if n < 4 then (pl.low, n, data.getD 0 .poison) else (0, 4, data.getD (w - ws.headD 0) .poison))
      else none
    | _ => none

/-- n words of the workgroup's scratchpad from a byte offset (R68), as a lane's fibre has them: its earlier `sts` are performed (R308). -/
def State.cardWords (s : State) (x : Iss) (i off n : Nat) : List LWord :=
  let c := s.core x.core
  (List.range n).map fun k =>
    let w := (s.scrBase x + off) / 4 + k
    mergeAll (c.scr w) (c.queuedTo (fidOf c x i) .scratch w)

/-- Whether a lane's fibre still has a scratchpad atomic to be performed: a card that its word reads is read after it (R79, R308). -/
def State.cardBusy (s : State) (x : Iss) : Bool :=
  let c := s.core x.core
  (lanesOf x.gt).any fun i => c.iq.any fun o => o.fid == fidOf c x i && match o.kind with
    | .atomic (.scratch _) _ _ _ _ _ _ _ => true
    | .mbar _ _ _ _ _ _ _ => true
    | _ => false

/-- A word that reads a card at issue (R314): it issues once the card can be read. -/
def withCards (body : Iss → State → State) (x : Iss) (s : State) : State := if s.cardBusy x then s.wait else body x s

/-- A card in scratchpad (R314): its offset read from a source, its alignment and bounds, and its words as a number. `bit` is the
operand's bit of R428. -/
def State.cardAt (s : State) (x : Iss) (a : Src) (bit align n i : Nat) : Except Failure (Nat × List LWord) :=
  match srcVal (s.core x.core) x a i with
  | none => .error ⟨5, bit, 0⟩
  | some v =>
    if v.toNat % align ≠ 0 then .error ⟨6, 0, 0⟩
    else if s.scrLimit x < v.toNat + n then .error ⟨7, v.toNat, 0⟩
    else
      let ws := s.cardWords x i v.toNat (n / 4)
      if ws.any LWord.isPoison then .error ⟨5, 64, 0⟩ else .ok (v.toNat, ws)

/-- The card of a `cpy` in a lane (R314, R316, R317). -/
def cpyCheck (a : Src) (minor : Nat) (x : Iss) (s : State) (i : Nat) : State × Except Failure CopyCard :=
  (s, match s.cardAt x a 1 64 64 i with
    | .error e => .error e
    | .ok (off, ws) => match parseCopy minor (numOf ws) with
      | some c => .ok c
      | none => .error ⟨10, off, 0⟩)

/-- The copies of a core that are outstanding (R324). -/
def State.copiesOf (s : State) (r : Nat) : Nat :=
  ((s.cluster (runnerCluster r)).jobs.filter fun j => j.core == r && match j.kind with
    | .copy _ => true
    | _ => false).length

/-- A copy posted by a lane: its tag is cleared, and it joins the open batch (R323, R326). -/
def State.postCopy (s : State) (x : Iss) (nt : Bool) (tag : Nat) (p : Nat × CopyCard) : State :=
  let id := s.nextJob
  (s.postJob x p.1 (.copy p.2) (if nt then none else some tag) [] []).onCore x.core fun c => c.onWg x.wg fun w =>
    { w with openB := w.openB ++ [id],
             ctag := if nt then w.ctag else w.ctag &&& ~~~((1 : BitVec 64) <<< tag),
             tagst := if nt then w.tagst else SMap.erase w.tagst tag }

/-- `cpy` (R314 to R324). -/
def cpyBody (a : Src) (m : BitVec 16) (minor : Nat) (x : Iss) (s : State) : State :=
  let (s, rs) := s.checkLanes (cpyCheck a minor x) (lanesOf x.gt)
  match failures rs with
  | (i, e) :: fs => s.trapAll x (maskOf (i :: fs.map Prod.fst)) e.kind e.info e.addr
  | [] =>
    let ps := passes rs
    if !ps.isEmpty && decide (512 < s.copiesOf x.core + ps.length) then s.park x x.lanes (.blocked (.copySlots ps.length))
    else (ps.foldl (fun s p => s.postCopy x (m.getLsbD 6) (xf m 5 0) p) s).complete x x.lanes

/-- R318. -/
def execCpyPlain (h : Hdr) (o : Opnds) (m : BitVec 16) (s : State) : Host.Outcome State Fault Refusal :=
  .next (s.rightWord (.cpyPlain h o m) (withCards (cpyBody o.a m 0)))
def execCpyPlane (h : Hdr) (o : Opnds) (m : BitVec 16) (s : State) : Host.Outcome State Fault Refusal :=
  .next (s.rightWord (.cpyPlane h o m) (withCards (cpyBody o.a m 1)))
def execCpyGather (h : Hdr) (o : Opnds) (m : BitVec 16) (s : State) : Host.Outcome State Fault Refusal :=
  .next (s.rightWord (.cpyGather h o m) (withCards (cpyBody o.a m 2)))
def execCpyMcast (h : Hdr) (o : Opnds) (m : BitVec 16) (s : State) : Host.Outcome State Fault Refusal :=
  .next (s.rightWord (.cpyMcast h o m) (withCards (cpyBody o.a m 3)))

/-- `cwait` (R325). -/
def cwaitBody (o : Opnds) (m : BitVec 16) (minor : Nat) (x : Iss) (s : State) : State :=
  if x.gt = 0 then s.complete x x.lanes
  else match srcVal64 (s.core x.core) x o.a (lowestLane x.gt) with
    | none => s.trapAll x (bitMask (lowestLane x.gt)) 5 1 0
    | some mask => s.park x x.lanes
        (.cwait minor mask x.gt o.d ((Sys2Proof.Scope.ofCode (xf m 2 0)).getD .pkg) (BitVec.ofNat 8 (xf m 10 3)) x.len)

/-- R325. -/
def execCwaitAll (h : Hdr) (o : Opnds) (m : BitVec 16) (s : State) : Host.Outcome State Fault Refusal :=
  .next (s.issue (.cwaitAll h o m) (cwaitBody o m 0))
def execCwaitAny (h : Hdr) (o : Opnds) (m : BitVec 16) (s : State) : Host.Outcome State Fault Refusal :=
  .next (s.issue (.cwaitAny h o m) (cwaitBody o m 1))
def execCwaitFirst (h : Hdr) (o : Opnds) (m : BitVec 16) (s : State) : Host.Outcome State Fault Refusal :=
  .next (s.issue (.cwaitFirst h o m) (cwaitBody o m 2))

/-- The closed batches of a workgroup that are outstanding (R326). -/
def State.closedOf (s : State) (r : Nat) (w : Workgroup) : List (List Nat) :=
  let jobs := (s.cluster (runnerCluster r)).jobs.map Job.id
  w.closedB.filter fun b => b.any jobs.contains

/-- The open batch closed, where it has copies; none where it would be a seventeenth outstanding batch (R326). -/
def State.closeBatch (s : State) (x : Iss) : Option State :=
  match (s.core x.core).wg x.wg with
  | none => some s
  | some w =>
    if w.openB.isEmpty then some s
    else
      let cs := s.closedOf x.core w
      if 16 ≤ cs.length then none
      else some (s.onCore x.core fun c => c.setWg x.wg { w with openB := [], closedB := cs ++ [w.openB] })

/-- `cbatch` (R326). -/
def cbatchBody (wait : Option Nat) (x : Iss) (s : State) : State :=
  if x.gt = 0 then s.complete x x.lanes
  else match s.closeBatch x with
    | none => s.park x x.lanes (.blocked .closedBatch)
    | some s => match wait with
      | none => s.complete x x.lanes
      | some n => s.park x x.lanes (.cbatchWait n x.len)

/-- R326. -/
def execCbatchClose (h : Hdr) (o : Opnds) (m : BitVec 16) (s : State) : Host.Outcome State Fault Refusal :=
  .next (s.rightWord (.cbatchClose h o m) (cbatchBody none))
def execCbatchWait (h : Hdr) (o : Opnds) (m : BitVec 16) (s : State) : Host.Outcome State Fault Refusal :=
  .next (s.rightWord (.cbatchWait h o m) (cbatchBody (some (xf m 3 0))))

/-- A chain descriptor (R328): none when it holds reserved bits or a reserved value. -/
structure Descriptor where
  done : BitVec 64
  tail : BitVec 64
  eng  : Nat
  lgn  : Nat
  ring : Nat
  deriving DecidableEq, Repr

def parseDescriptor (n : Nat) : Option Descriptor :=
  let d : Descriptor := ⟨BitVec.ofNat 64 (nbits n 255 192), BitVec.ofNat 64 (nbits n 191 128), nbits n 71 68, nbits n 67 64, nbits n 63 0⟩
  if nbits n 511 256 = 0 ∧ nbits n 127 72 = 0 ∧ d.eng < 2 ∧ d.lgn ≤ 12 ∧ d.ring % 128 = 0 then some d else none

/-- Whether a chain has room for n more cards (R329 line 4). -/
def Descriptor.room (d : Descriptor) (n : Nat) : Bool := decide ((d.tail + BitVec.ofNat 64 n - d.done).toNat ≤ 2 ^ d.lgn)

/-- The words of a place as a fibre's own view has them once its queued stores are made (R79, R81). -/
def State.viewWords (s : State) (x : Iss) (i : Nat) (pl : Place) (n : Nat) : State × List LWord :=
  let fid := fidOf (s.core x.core) x i
  let q := (pl.words (4 * n)).map ((s.core x.core).queuedTo fid pl.space)
  let (s, ws) := s.readWords x.core fid x.cx pl (List.range n)
  (s, (ws.zip q).map fun e => mergeAll e.1 e.2)

/-- What a lane of `post` gives (R314, R328 to R330): the descriptor's VA and value, and the card. -/
def postCheck (o : Opnds) (x : Iss) (s : State) (i : Nat) : State × Except Failure (BitVec 64 × Descriptor × List LWord) :=
  match srcVal64 (s.core x.core) x o.a i, srcVal (s.core x.core) x o.b i with
  | some va, some _ => match s.cardAt x o.b 2 4 128 i with
    | .error e => (s, .error e)
    | .ok (off, ws) => match s.globalPlace x va.toNat 64 .atomic 3 with
      | (s, .error e) => (s, .error e)
      | (s, .ok pl) =>
        let (s, ds) := s.viewWords x i pl 16
        match cardNum ds with
        | none => (s, .error ⟨5, 64, 0⟩)
        | some n => match parseDescriptor n with
          | none => (s, .error ⟨10, va.toNat, 0⟩)
          | some d => if (parsePosted x.cx d.eng ws).isNone then (s, .error ⟨10, off, 0⟩) else (s, .ok (va, d, ws))
  | a, b => (s, .error ⟨5, (if a.isNone then 33 else 0) + 2 * b.isNone.toNat, 0⟩)

/-- `post` (R329). A chain without room blocks the batch before any lane posts. -/
def postBody (o : Opnds) (x : Iss) (s : State) : State :=
  let (s, rs) := s.checkLanes (postCheck o x) (lanesOf x.gt)
  match failures rs with
  | (i, e) :: fs => s.trapAll x (maskOf (i :: fs.map Prod.fst)) e.kind e.info e.addr
  | [] =>
    let ps := passes rs
    let full := ps.find? fun p => !p.2.2.1.room (ps.filter fun q => q.2.1 == p.2.1).length
    match full with
    | some p => s.park x x.lanes (.blocked (.chain p.2.1))
    | none =>
      let hz := (s.ctx x.cx).hz
      (s.onCore x.core fun c => ps.foldl (fun c p =>
        let c := (c.enqueue x p.1 (.release true false)).enqueue x p.1 (.chain p.2.1 p.2.2.2 ⟨x.base, o.d.toNat⟩)
        c.markRow x hz p.1 (x.base + o.d.toNat)) c).complete x x.lanes

/-- R329. -/
def execPost (h : Hdr) (o : Opnds) (m : BitVec 16) (s : State) : Host.Outcome State Fault Refusal :=
  .next (s.rightWord (.post h o m) (withCards (postBody o)))

/-- The end of a `post`: its operation leaves the queue with its result. -/
def State.postDone (s : State) (r idx : Nat) (o : MemOp) (dst : Dest) (v : LWord) : State := (s.dropOp r idx).sendResult r o dst [v]

/-- The job of a posted card enters its cluster's queue (R86, R330). A ring entry that could not be written fails it. -/
def State.queueCard (s : State) (r : Nat) (o : MemOp) (desc : BitVec 64) (sq : Nat) (card : List LWord) (eng : Nat)
    (bad : Option (Nat × BitVec 64)) : State :=
  match parsePosted o.ctx eng card with
  | none => s
  | some (rd, wr, kind) =>
    let w : Workgroup := ((s.core r).wg o.wg).getD default
    let j : Job := { (default : Job) with
      id := s.nextJob, ctx := o.ctx, lseq := w.rcd.lseq, core := r, wg := o.wg, slot := o.slot, kind := kind, reads := rd,
      writes := wr, status := .posting, chain := some (desc, sq), ranks := 1, failed := bad }
    let cl := runnerCluster r
    (s.addJob cl j).queueJob cl j.id

/-- Lines 2 to 8 of R329: the number is taken at the descriptor's home, the card goes to the ring and to its engine. It waits while the
host has the descriptor (R115); words of it that a bank holds for the runner come back first (R85, R109). -/
def State.performChain (s : State) (r idx : Nat) (o : MemOp) (desc : BitVec 64) (card : List LWord) (dst : Dest) : State :=
  let die := runnerDie r
  match s.translateHw die o.ctx desc.toNat .atomic with
  | (s, .error _) => s.postDone r idx o dst .poison
  | (s, .ok (pa, l)) =>
    if (wordSpan pa 64).any fun w => s.hostBlocks w true then s.wait
    else match s.takeAllHeld r (wordSpan pa 64) with
    | (s, false) => s.wait
    | (s, true) => match s.ensureLine (some o.ctx) pa (s.ctx o.ctx).ks l.sl with
    | (s, false) => s.postDone r idx o dst .poison
    | (s, true) =>
      match cardNum ((wordSpan pa 64).map (s.atomRead r)) with
      | none => s.postDone r idx o dst .poison
      | some n => match parseDescriptor n with
        | none => s.postDone r idx o dst .poison
        | some d =>
          if !d.room 1 then s
          else
            let sq := d.tail + 1
            let s := ((wordSpan (pa + 16) 8).zip (words64 sq)).foldl (fun s p => s.atomWrite r p.1 p.2) s
            let at_ := (d.ring + (sq - 1).toNat % 2 ^ d.lgn * 128) % 2 ^ 64
            let (s, bad) := s.writeVas die o.ctx at_ card
            (s.queueCard r o desc sq.toNat card d.eng (bad.map fun c => (c, BitVec.ofNat 64 at_))).postDone r idx o dst (.good (lo32 sq))

/-- The tile task of a batch (R331 to R333). -/
def ttaskCheck (a : Src) (x : Iss) (s : State) (i : Nat) : Except Failure TileCard :=
  match s.cardAt x a 1 8 128 i with
  | .error e => .error e
  | .ok (off, ws) => match parseTile (numOf ws) with
    | none => .error ⟨10, off, 0⟩
    | some c =>
      let rs := c.readRanges ++ (if c.od then [(c.out, c.outBytes)] else [])
      match rs.find? fun r => decide (s.scrLimit x < r.1 + r.2) with
      | some r => .error ⟨7, r.1, 0⟩
      | none => .ok c

/-- `ttask` (R332, R333): one task of a batch. -/
def ttaskBody (a : Src) (x : Iss) (s : State) : State :=
  if x.gt = 0 then s.complete x x.lanes
  else
    let i := lowestLane x.gt
    match ttaskCheck a x s i with
    | .error e => s.trapAll x (bitMask i) e.kind e.info e.addr
    | .ok c =>
      let first := max c.out x.rows
      let last := c.out + c.outRows
      if !c.od && decide (x.rows < last) then
        let (v, s) := s.fresh
        s.trapAll x x.gt 2 (first + v.toNat % (last - first)) 0
      else (s.postJob x i (.tile c) none [] []).complete x x.lanes

/-- R332. -/
def execTtask (h : Hdr) (o : Opnds) (m : BitVec 16) (s : State) : Host.Outcome State Fault Refusal :=
  .next (s.issue (.ttask h o m) (withCards (ttaskBody o.a)))

/-- The tile tasks of a spindle that are not complete (R335). -/
def State.tilesOf (s : State) (r g slot : Nat) : List Nat :=
  ((s.cluster (runnerCluster r)).jobs.filter fun j => j.core == r && j.wg == g && j.slot == slot && match j.kind with
    | .tile _ => true
    | _ => false).map (·.id)

/-- R335. -/
def execTtwait (h : Hdr) (o : Opnds) (m : BitVec 16) (s : State) : Host.Outcome State Fault Refusal :=
  .next (s.issue (.ttwait h o m) fun x s =>
    if x.gt = 0 then s.complete x x.lanes else s.park x x.lanes (.ttwait (s.tilesOf x.core x.wg x.slot) x.gt x.len))

/-- The plane engines of a core that run tile tasks (R333). -/
def State.tilesStarted (s : State) (cl core : Nat) : List Nat :=
  (s.cluster cl).jobs.filterMap fun j => match j.kind with
    | .tile _ => if j.core = core && j.status == .started then some j.eng else none
    | _ => none

/-- Whether a granule of a copy has landed whole (R322). -/
def Job.granuleLanded (j : Job) (g : Nat × Nat) : Bool := (j.granuleWrites g).all fun w => j.landed.contains w.1

/-- The credit of a granule (R322): the `mbar` of the issuing workgroup, or of the receiver of a multicast. -/
def State.creditGranule (s : State) (cl : Nat) (j : Job) (k : Nat) (g : Nat × Nat) : State :=
  match j.kind with
  | .copy c =>
    let n := ((j.granuleWrites g).map Prod.snd).sum
    let (r, b) : Nat × Nat := match j.recv[g.1]? with
      | some e => (e.1, nbits e.2.toNat 19 0 + c.mbo)
      | none => (j.core, j.scrBase + c.mbo)
    (s.onCore r fun c => c.creditMbar b n).onJob cl j.id fun j => { j with credited := j.credited ++ [k] }
  | _ => s

/-- COPY_GRANULE_CREDIT (R89, R322): granule g of a job, by its number. -/
def execCopyGranuleCredit (cl job g : Nat) (s : State) : Host.Outcome State Fault Refusal :=
  .next (match s.job cl job with
    | none => s
    | some j => match j.kind, j.granules[g]? with
      | .copy c, some gr =>
        if c.mbv && j.status == .started && !j.credited.contains g && j.granuleLanded gr then s.creditGranule cl j g gr else s
      | _, _ => s)

/-- J_WRITE (R88, R108). -/
def execJWrite (cl job k : Nat) (s : State) : Host.Outcome State Fault Refusal :=
  .next (match s.job cl job with
    | none => s
    | some j => if j.status == .started && j.verdict == 0 then s.jobWriteHome cl j k else s)

/-- Whether every access of a job has been performed. -/
def Job.accessed (j : Job) : Bool :=
  match j.kind with
  | .row _ _ _ => false
  | .tile c => j.block == c.nb + 2 && j.landed.length == j.total
  | .coll c => decide (j.verdict ≠ 0) || (j.collRead c && j.landed.length == j.total)
  | _ => j.landed.length == j.total

/-- Whether every peer has acknowledged a rank's contribution (R392): it has been sent to each, and no command of it is unanswered. -/
def State.collAcked (s : State) (j : Job) : Bool :=
  match j.kind with
  | .coll c => decide (j.verdict ≠ 0) || !c.gives j.rank ||
      (((j.peers.zipIdx.filter fun e => e.2 != j.rank).all fun e => j.sent.contains e.1) &&
        !(s.streams.any fun t => t.part == partOf j.ctx && t.open_.any fun u => match u.cmd with
          | .contribution cid r _ => cid == c.cid && r == j.rank
          | _ => false))
  | _ => true

/-- The words in state J for a job. -/
def State.jWords (s : State) (cl job : Nat) : List Nat :=
  s.regst.filterMap fun e => match e.2 with
    | .j _ k id => if k = cl && id == job then some e.1 else none
    | _ => none

/-- J_CLEAR (R108): the words that are still in state J for a job become N, with their values in L2. -/
def execJClear (cl job : Nat) (s : State) : Host.Outcome State Fault Refusal :=
  .next (match s.job cl job with
    | none => s
    | some j => if j.status == .started && j.failed.isNone && j.accessed then
        (s.jWords cl job).foldl (fun s w => s.setRegAt w none) s
      else s)

/-- The counter add of a copy (R322): a wide atomic at scope `.pkg`. A poisoned or refused counter is left as it is; the answer is
the cause of a failed walk. -/
def State.counterAdd (s : State) (die cx va n : Nat) : State × Option Nat :=
  match s.translateHw die cx va .atomic with
  | (s, .error c) => (s, some c)
  | (s, .ok (pa, l)) =>
    if (wordSpan pa 8).any fun w => s.hostBlocks w true then (s.wait, none)
    else match s.ensureLine (some cx) pa (s.ctx cx).ks l.sl with
    | (s, false) => (s, none)
    | (s, true) => match s.exhausted (pa / 4) with
      | (s, true) => (s.noteWord cx 35 20 (pa / 4), none)
      | (s, false) =>
        match atomWords 0 0 8 ((wordSpan pa 8).map (s.atomRead 0xFFFF)) (words64 (BitVec.ofNat 64 n)) [] with
        | none => (s, none)
        | some new => (((wordSpan pa 8).zip new).foldl (fun s p => s.atomWrite 0xFFFF p.1 p.2) s, none)

/-- The cards of a chain that are not complete, by sequence number, over all clusters. -/
def State.openCards (s : State) (cx : Nat) (desc : BitVec 64) : List Nat :=
  s.clusters.flatMap fun k => k.2.jobs.filterMap fun j => match j.chain with
    | some (d, n) => if j.ctx = cx && d == desc then some n else none
    | none => none

/-- A card is complete (R329, R444): its status goes into the header of its ring copy, and `done` advances over the cards that are
complete. -/
def State.finishCard (s : State) (cl : Nat) (j : Job) (status : Nat) : State :=
  match j.chain with
  | none => s
  | some (desc, sq) =>
    let die := clusterDie cl
    match s.readVas die j.ctx desc.toNat 16 with
    | (s, .ok ws) => match (cardNum ws).bind parseDescriptor with
      | none => s
      | some d =>
        let at_ := (d.ring + (sq - 1) % 2 ^ d.lgn * 128) % 2 ^ 64
        let (s, _) := s.writeVa die j.ctx (at_ + 66) 1 (.good (BitVec.ofNat 32 status))
        let left := (s.openCards j.ctx desc).filter (· != sq)
        let done : BitVec 64 := match left with
          | [] => d.tail
          | n :: l => BitVec.ofNat 64 (l.foldl min n - 1)
        (s.writeVas die j.ctx (desc.toNat + 24) (words64 done)).1
    | (s, .error _) => s

/-- The flags of a tile task into the pending flags of its spindle (R335). -/
def State.tileFlags (s : State) (j : Job) (c : TileCard) : State :=
  s.onCore j.core fun k => k.onSpindle j.slot fun sp =>
    if sp.wg ≠ j.wg then sp
    else
      let all := j.flags.foldl (· ||| ·) 0
      let at_ (lane : Nat) : BitVec 5 := j.flags.zipIdx.foldl (fun f e =>
        if e.2 % (c.n + 1) % 32 = lane then f ||| e.1 else f) 0
      { sp with pend := (List.range 32).foldl (fun m l =>
          SMap.set 0 m l (SMap.get 0 m l ||| (if c.od then all else at_ l))) sp.pend }

/-- The tag of a complete copy (R323): its status is ORed in, and the bit is set with the last copy of the tag. -/
def State.tagDone (s : State) (cl : Nat) (j : Job) : State :=
  match j.tag with
  | none => s
  | some t =>
    let more := (s.cluster cl).jobs.any fun k => k.id != j.id && k.core == j.core && k.wg == j.wg && k.tag == some t
    s.onCore j.core fun c => c.onWg j.wg fun w =>
      { w with ctag := if more then w.ctag else w.ctag ||| ((1 : BitVec 64) <<< t),
               tagst := SMap.set 0 w.tagst t (SMap.get 0 w.tagst t ||| j.st) }

/-- Whether the credits of a copy have all been applied (R322). -/
def Job.credits (j : Job) : Bool :=
  match j.kind with
  | .copy c => !c.mbv || j.credited.length == j.granules.length
  | _ => true

/-- JOB_COMPLETE (R89, R108, R322, R323, R329, R335). -/
def execJobComplete (cl job : Nat) (s : State) : Host.Outcome State Fault Refusal :=
  .next (match s.job cl job with
    | none => s
    | some j =>
      if j.status != .started || j.failed.isSome || !j.accessed || !s.collAcked j || !j.credits || !(s.jWords cl job).isEmpty then s
      else
        let ctr : Nat × Nat := match j.kind with
          | .copy c => (c.ctr.toNat, c.cadd)
          | _ => (0, 0)
        let (s, bad) := if ctr.1 = 0 then (s, none) else s.counterAdd (clusterDie cl) j.ctx ctr.1 ctr.2
        match bad with
        | some c => s.failJob cl job c ctr.1
        | none =>
          let s := match j.kind with
            | .tile c => s.tileFlags j c
            | _ => s
          ((s.tagDone cl j).finishCard cl j j.verdict).dropJob cl job)

/-- The workgroups that a copy fault terminates (R443): the issuing one, and the receivers of a multicast of the same context. -/
def State.faultTargets (s : State) (j : Job) : List (Nat × Nat) :=
  (j.core, j.wg) :: (j.recv.filterMap fun e => match (s.core e.1).cpyWg with
    | some g => if (e.1 != j.core || g != j.wg) && ((s.core e.1).wg g).any (fun w => w.rcd.ctx == j.ctx) then some (e.1, g) else none
    | none => none)

/-- The launch of a workgroup (R32). -/
def State.lseqOf (s : State) (r g : Nat) : Nat := (((s.core r).wg g).getD default).rcd.lseq

/-- COPY_FAULT (R443, R444). -/
def execCopyFault (cl job : Nat) (s : State) : Host.Outcome State Fault Refusal :=
  .next (match s.job cl job with
    | none => s
    | some j => match j.status, j.failed with
      | .started, some (cause, va) =>
        let s := (s.jWords cl job).foldl (fun s w => s.setRegAt w (some .lost)) s
        let mb : Bool := match j.kind with
          | .copy c => c.mbv
          | _ => false
        let s := j.granules.zipIdx.foldl (fun s e =>
          if mb && !j.credited.contains e.2 && j.granuleLanded e.1 then s.creditGranule cl j e.2 e.1 else s) s
        let s := (s.finishCard cl j 1).dropJob cl job
        (s.faultTargets j).foldl (fun s t =>
          let cx := ((((s.core t.1).wg t.2).map fun w => w.rcd.ctx).getD j.ctx)
          s.terminate t.1 t.2 { agentRec cx 1 33 cause va.toNat 0 with lseq := s.lseqOf t.1 t.2, core := t.1 }) s
      | _, _ => s)

/-- Flags of v1 ORed into some lanes of a parked batch (R325, R335). -/
def Core.orV1 (c : Core) (slot : Nat) (lanes : Word) (f : Nat → BitVec 5) : Core :=
  match c.spindle slot with
  | none => c
  | some sp => (lanesOf lanes).foldl (fun c i =>
      let b := (sp.at_ i).2
      if f i = 0 then c else c.setRow (b + 1) i (orFlags (c.row (b + 1) i) (f i))) c

/-- OF and NV of the tags of a mask whose bits are set (R325), as flags of v1. -/
def Workgroup.tagFlags (w : Workgroup) (mask : BitVec 64) : BitVec 5 :=
  let t := w.ctag &&& mask
  let st : BitVec 2 := w.tagst.foldl (fun (a : BitVec 2) e => if t.getLsbD e.1 then a ||| e.2 else a) 0
  (if st.getLsbD 0 then Flags.of else 0) ||| (if st.getLsbD 1 then Flags.nv else 0)

/-- A batch parked at a `cwait` whose tags are set goes on (R90, R325). -/
def State.releaseCwait (s : State) (core slot lane : Nat) : State :=
  match s.waitAt core slot lane with
  | none => s
  | some (sp, b) => match b.wait, (s.core core).wg sp.wg with
    | .cwait minor mask lanes d scope creg len, some w =>
      let t := w.ctag &&& mask
      let ok : Bool := if minor = 0 then t == mask else t != 0 || mask == 0
      if !ok then s
      else
        let s := s.onCore core fun c => c.orV1 slot lanes fun _ => w.tagFlags mask
        let first := ((List.range 64).find? t.getLsbD).getD 64
        let x := s.parkedIss core slot b []
        let hz := (s.ctx w.rcd.ctx).hz
        let s := if minor = 2 then s.onCore core fun c => (lanesOf lanes).foldl (fun c i =>
            c.addResult x hz i (.word d (.good (BitVec.ofNat 32 first)))) c
          else s
        s.letGo core slot b len (Scope.wide scope) creg
    | _, _ => s

/-- CWAIT_RELEASE (R325). -/
def execCwaitRelease (core slot lane : Nat) (s : State) : Host.Outcome State Fault Refusal := .next (s.releaseCwait core slot lane)

/-- A batch parked at a `cbatch.wait` goes on once few enough batches are outstanding (R90, R326). -/
def State.releaseCbatch (s : State) (core slot lane : Nat) : State :=
  match s.waitAt core slot lane with
  | none => s
  | some (sp, b) => match b.wait, (s.core core).wg sp.wg with
    | .cbatchWait n len, some w => if (s.closedOf core w).length ≤ n then s.letGo core slot b len true 0xFF else s
    | _, _ => s

/-- CBATCH_WAIT_RELEASE (R326). -/
def execCbatchWaitRelease (core slot lane : Nat) (s : State) : Host.Outcome State Fault Refusal := .next (s.releaseCbatch core slot lane)

/-- A batch parked at a `ttwait` goes on once its tasks are complete (R90, R335). -/
def State.releaseTtwait (s : State) (core slot lane : Nat) : State :=
  match s.waitAt core slot lane with
  | none => s
  | some (sp, b) => match b.wait with
    | .ttwait jobs lanes len =>
      let live := (s.cluster (runnerCluster core)).jobs.map Job.id
      if jobs.any live.contains then s
      else
        let s := s.onCore core fun c => (c.orV1 slot lanes fun i => SMap.get 0 sp.pend i).onSpindle slot fun sp =>
          { sp with pend := sp.pend.filter fun e => !lanes.getLsbD e.1 }
        s.letGo core slot b len false 0xFF
    | _ => s

/-- TTWAIT_RELEASE (R335). -/
def execTtwaitRelease (core slot lane : Nat) (s : State) : Host.Outcome State Fault Refusal := .next (s.releaseTtwait core slot lane)

end Sys2Proof.Machine
end

