-- ==== Sys2Proof/Machine/Launch.lean ====
section
/-!
DEFINITION. Launches and workgroups (spec/02_work.md R26 to R44, spec/16_links.md R384 to R386, R396): headers and the launch
unit, continuation records and join blocks, admission, the end of a workgroup, and the launch windows.
-/

namespace Sys2Proof.Machine

/-- A launch header (R30) from its 1,024 bits. -/
def parseHeader (n : Nat) : Header :=
  { setm := BitVec.ofNat 256 (nbits n 1023 768), waitm := BitVec.ofNat 256 (nbits n 767 512), resvHi := BitVec.ofNat 249 (nbits n 511 263),
    pv := nbit n 262, prod := nbits n 261 256, resvLo := nbit n 255, coop := nbit n 254, scr := nbits n 253 245, frm := nbits n 244 237,
    rlev := nbits n 236 234, plev := nbits n 233 231, nf := nbits n 230 228,
    ws := (List.range 6).map fun k => nbits n (197 + 6 * k) (192 + 6 * k), ext := BitVec.ofNat 64 (nbits n 191 128),
    argp := BitVec.ofNat 64 (nbits n 127 64), code := BitVec.ofNat 64 (nbits n 63 0), word3 := BitVec.ofNat 64 (nbits n 255 192) }

/-- The bit position of a level (R27). -/
def Header.b (h : Header) (k : Nat) : Nat := (h.ws.take k).sum

/-- The extent of a field (R26, R30). -/
def Header.n (h : Header) (k : Nat) : Nat := nbits (h.ext.toNat % 2 ^ (h.b k + h.ws.getD k 0)) 63 (h.b k) + 1

/-- The product of the extents of fields lo to hi − 1. -/
def Header.extents (h : Header) (lo hi : Nat) : Nat := ((List.range (hi - lo)).map fun k => h.n (lo + k)).foldl (· * ·) 1

/-- The spindles of a workgroup (R27). -/
def Header.spindles (h : Header) : Nat := h.extents 1 h.plev

/-- The checks of R31 and R27. -/
def Header.ok (h : Header) : Bool :=
  decide (2 ≤ h.nf) && decide (h.nf ≤ 6) && decide (h.ws.getD 0 0 ≤ 5) && decide (h.b 6 ≤ 64) && (h.ws.drop h.nf).all (· == 0) &&
    decide (2 ≤ h.plev) && decide (h.plev ≤ h.nf) && (h.rlev == 0 || (decide (h.plev ≤ h.rlev) && decide (h.rlev + 1 ≤ h.nf))) &&
    h.ext.toNat >>> h.b h.nf == 0 && decide (h.scr ≤ 256) && h.resvHi == 0 && !h.resvLo && h.code.toNat % 4 == 0 &&
    decide (1 ≤ h.spindles) && decide (h.spindles ≤ 64) && (!h.pv || decide (h.prod < h.spindles)) &&
    decide (ceilDiv h.spindles 4 * ceilDiv (h.frm + 1) 8 * 8 ≤ 512)

/-- A process-group table (R385): the extents of its dimensions, which of them wrap, its tenant identity, and the nodes of the ranks. -/
structure PgTable where
  exts  : List Nat
  wrap  : Nat
  tid   : BitVec 64
  nodes : List Nat
  deriving DecidableEq, Repr, Inhabited

/-- The number of ranks (R386). -/
def PgTable.ranks (t : PgTable) : Nat := t.nodes.length

/-- The rank of a node (R386). -/
def PgTable.rankOf (t : PgTable) (node : Nat) : Option Nat := t.nodes.findIdx? (· == node)

/-- The number of ranks between two that differ by 1 in coordinate k: d_0 × … × d_(k−1) (R386). -/
def PgTable.stride (t : PgTable) (k : Nat) : Nat := (t.exts.take k).foldl (· * ·) 1

/-- Coordinate k of a rank (R386). -/
def PgTable.coord (t : PgTable) (k r : Nat) : Nat := r / t.stride k % t.exts.getD k 1

/-- The neighbour of a rank along dimension k, in the direction +1 or −1 (R386). -/
def PgTable.neighbour (t : PgTable) (k r : Nat) (up : Bool) : Option Nat :=
  let d := t.exts.getD k 1
  let c := t.coord k r
  let at_ (e : Nat) : Nat := r - c * t.stride k + e * t.stride k
  if up then (if c + 1 < d then some (at_ (c + 1)) else if nbit t.wrap k then some (at_ 0) else none)
  else if 0 < c then some (at_ (c - 1)) else if nbit t.wrap k then some (at_ (d - 1)) else none

/-- The header of a table (R385): none where it is not valid. -/
def parseTable (n : Nat) : Option (Nat × PgTable) :=
  let ranks := nbits n 16 0 + 1
  let dims := nbits n 59 58 + 1
  let ext (k : Nat) : Nat := nbits n (79 + 16 * k) (64 + 16 * k)
  let t : PgTable := { exts := (List.range dims).map fun k => ext k + 1, wrap := nbits n 63 60, tid := BitVec.ofNat 64 (nbits n 191 128), nodes := [] }
  if nbits n 511 192 ≠ 0 ∨ nbits n 57 17 ≠ 0 ∨ t.stride dims ≠ ranks ∨ (List.range 4).any (fun k => decide (dims ≤ k) && ext k != 0) then none
  else some (ranks, t)

/-- A process-group table as the package reads it for a context (R385, R386); none where it is not valid or cannot be read. -/
def State.readTable (s : State) (cx va : Nat) : State × Option PgTable :=
  match s.readVas 0 cx va 16 with
  | (s, .error _) => (s, none)
  | (s, .ok ws) => match (cardNum ws).bind parseTable with
    | none => (s, none)
    | some (ranks, t) => match s.readVas 0 cx (va + 64) (2 * ranks) with
      | (s, .error _) => (s, none)
      | (s, .ok es) => match cardNum es with
        | none => (s, none)
        | some e =>
          let nodes := (List.range ranks).map fun r => nbits e (64 * r + 63) (64 * r)
          if nodes.any (fun x => decide (2 ^ 17 ≤ x)) || !decide nodes.Nodup then (s, none)
          else (s, some { t with nodes := nodes })

/-- The package's node number (R401). -/
def State.node (s : State) : Nat := nbits s.pkc.toNat 36 20

/-- The package's rank in its context's table, and the number of ranks (R386); none when the table is invalid or names no rank of it. -/
def State.readRank (s : State) (cx : Nat) : State × Option (Nat × Nat) :=
  match s.readTable cx ((s.ctx cx).pgt.toNat / 64 * 64) with
  | (s, none) => (s, none)
  | (s, some t) => (s, (t.rankOf s.node).map fun r => (r, t.ranks))

/-- The digits of a number in the extents of fields, as bits of a WID: fields k to k + (number of extents) − 1. -/
def Header.place (h : Header) : Nat → Nat → Nat → Nat
  | 0, _, _ => 0
  | n + 1, k, x => x % h.n k * 2 ^ h.b k + h.place n (k + 1) (x / h.n k)

/-- The first field that belongs to the rank value, or the number of fields (R29, R39). -/
def Header.top (h : Header) : Nat := if h.rlev = 0 then h.nf else h.rlev

/-- The rank values of a package's share, as WID bits, in ascending order (R29, R386). -/
def Header.rankBits (h : Header) (rank : Option (Nat × Nat)) : List Nat :=
  match rank with
  | none => [0]
  | some (r, n) => ((List.range (h.extents h.rlev h.nf)).map (h.place (h.nf - h.rlev) h.rlev)).filter fun w => w / 2 ^ h.b h.rlev % n == r

/-- The WID of the k-th workgroup of a share: ascending ordinal, then rank value (R39). -/
def Header.wid (h : Header) (rank : Option (Nat × Nat)) (k : Nat) : Nat :=
  let vs := h.rankBits rank
  h.place (h.top - h.plev) h.plev (k / max 1 vs.length) + vs.getD (k % max 1 vs.length) 0

/-- The number of workgroups of a share. -/
def Header.share (h : Header) (rank : Option (Nat × Nat)) : Nat := h.extents h.plev h.top * (h.rankBits rank).length

/-- The ordinal of a workgroup (R39). -/
def Header.ordinal (h : Header) (wid : Nat) : Nat :=
  if h.rlev = 0 then wid / 2 ^ h.b h.plev else wid % 2 ^ h.b h.rlev / 2 ^ h.b h.plev

/-- The launches of a context that are not yet eligible or not yet expanded (R384). -/
def Context.waiting (c : Context) : Nat := (c.launches.filter fun l => !l.eligible || decide (l.next < l.total)).length

/-- The capacity of a queue whose hardware holds n entries (R384). -/
def Context.room (c : Context) (n : Nat) : Nat := n + if c.queueBase = 0 then 0 else c.queueLen

/-- An entry put into the queue area (R384): false when it meets a fault, which is recorded. -/
def State.ringPut (s : State) (cx va : Nat) (ws : List LWord) : State × Bool :=
  match s.writeVas 0 cx va ws with
  | (s, none) => (s, true)
  | (s, some _) => (s.note cx 3 33 24 va 0, false)

/-- A header rejected (R31, R396, R425): `pc` names it. -/
def State.rejectHeader (s : State) (cx : Nat) (word3 pc : BitVec 64) : State :=
  (s.onCtx cx fun c => { c with rejected := c.rejected + 1 }).note cx 3 21 word3.toNat 0 pc.toNat

/-- The launch unit takes a header (R31 to R34, R384, R386, R402): `window` says that it arrives at a launch window. -/
def State.takeHeader (s : State) (cx : Nat) (ws : List LWord) (window : Bool) (pc : BitVec 64) : State :=
  if s.pkcState ≠ 5 then s.onCtx cx fun c => { c with rejected := c.rejected + 1 }
  else match cardNum ws with
  | none => s.rejectHeader cx 0 pc
  | some n =>
    let h := parseHeader n
    let full := window && decide ((s.ctx cx).room 32 ≤ (s.ctx cx).waiting)
    if !h.ok || !(s.part (partOf cx)).en || full then s.rejectHeader cx h.word3 pc
    else
      let (s, rank, bad) : State × Option (Nat × Nat) × Bool :=
        if h.rlev = 0 then (s, none, false)
        else
          let (s, r) := s.readRank cx
          (s.onCtx cx fun c => { c with rank := match r with
            | some e => BitVec.ofNat 32 e.1
            | none => 0xFFFFFFFF }, r, r.isNone)
      if bad then s.rejectHeader cx h.word3 pc
      else
        let c := s.ctx cx
        let at_ := (c.queueBase + 4608 * c.queueLen + 128 * (c.rung % c.queueLen)) % 2 ^ 64
        let (s, kept) :=
          if c.waiting < 32 then (s, true)
          else
            let (s, ok) := s.ringPut cx at_ ws
            (s.onCtx cx fun c => { c with rung := c.rung + 1 }, ok)
        let l : Launch := { hdr := h, lseq := c.nextLseq, eligible := h.waitm == 0, next := 0, total := h.share rank, live := 0,
                            rank := rank, ring := if c.waiting < 32 then none else some at_ }
        s.onCtx cx fun c => { c with nextLseq := c.nextLseq + 1, accepted := c.accepted + 1,
                                     launches := if kept then c.launches ++ [l] else c.launches }

/-- A change of the launch that a record counts towards (R40). -/
def State.onLaunch (s : State) (cx lseq : Nat) (f : Launch → Launch) : State :=
  s.onCtx cx fun c => { c with launches := c.launches.map fun l => if l.lseq = lseq then f l else l }

/-- A launch of a context, by its sequence number. -/
def State.launch (s : State) (cx lseq : Nat) : Option Launch := (s.ctx cx).launches.find? fun l => l.lseq == lseq

/-- A record (R36) as a program wrote it; the other fields come from the record or fibre that made it (R37, R343). -/
def parseRecord (n : Nat) (by_ : Record) (wid src : BitVec 64) : Record :=
  { pv := nbit n 244, prod := nbits n 243 238, kind := nbits n 237 236, frm := nbits n 219 212, scr := nbits n 211 203,
    cnt := nbits n 202 192, joinp := BitVec.ofNat 64 (nbits n 191 128), framep := BitVec.ofNat 64 (nbits n 127 64),
    code := BitVec.ofNat 64 (nbits n 63 0), ctx := by_.ctx, lseq := by_.lseq, wid := wid, src := src,
    resv := BitVec.ofNat 11 (nbits n 255 245), ordinal := by_.ordinal, unit := none, home := none, prog := true, stamp := 0,
    tks := [], ring := none }

/-- A record of words that read as poison: it is not started (R37). -/
def poisonRecord (by_ : Record) (wid src : BitVec 64) : Record := { parseRecord 0 by_ wid src with kind := 3 }

/-- A record as 32 bytes (R36), with its launch identity. -/
def Record.words (r : Record) : List LWord :=
  let n := r.resv.toNat * 2 ^ 245 + r.pv.toNat * 2 ^ 244 + r.prod * 2 ^ 238 + r.kind * 2 ^ 236 + (r.lseq % 65536) * 2 ^ 220 +
    r.frm * 2 ^ 212 + r.scr * 2 ^ 203 + r.cnt * 2 ^ 192 + r.joinp.toNat * 2 ^ 128 + r.framep.toNat * 2 ^ 64 + r.code.toNat
  wordsFrom 32 n

/-- The spindles of a record (R37). -/
def Record.spindles (r : Record) : Nat := ceilDiv (r.cnt + 1) 32

/-- Whether a record is not started (R37). -/
def Record.bad (r : Record) : Bool :=
  r.kind == 3 || (r.prog && r.kind != 1) || r.resv != 0 || r.code.toNat % 4 != 0 || decide (256 < r.scr) ||
    decide (64 < ceilDiv r.spindles 4 * ceilDiv (r.frm + 1) 8)

/-- A record stops counting towards its launch (R40). -/
def State.countDown (s : State) (r : Record) : State := s.onLaunch r.ctx r.lseq fun l => { l with live := l.live - 1 }

/-- The join block of a record decremented (R37, R38): a successor that it fires waits for its queue while the record goes on
counting; otherwise the record stops counting (R40). A decrement that cannot be made is recorded; one whose words the host has waits
(R115). A join block that is not 64-byte aligned is used where it stands (log entry 133). -/
def State.joinDown (s : State) (cl : Nat) (r : Record) (from_ : Option (Nat × Nat)) : State :=
  let va := r.joinp.toNat
  if va = 0 then s.countDown r
  else match s.translateHw (clusterDie cl) r.ctx va .atomic with
    | (s, .error c) => (s.noteWork r.ctx 32 c va 0 r.lseq 0 r.wid).countDown r
    | (s, .ok (pa, l)) =>
      let ws := wordSpan pa 8
      if ws.any fun w => s.hostBlocks w true then s.wait
      else match s.ensureLine (some r.ctx) pa (s.ctx r.ctx).ks l.sl with
      | (s, false) => s.countDown r
      | (s, true) =>
        match pairVal (s.atomRead 0xFFFF (ws.headD 0)) (s.atomRead 0xFFFF (ws.headD 0 + 1)) with
        | none => s.countDown r
        | some n =>
          let s := (ws.zip (words64 (n - 1))).foldl (fun s p => s.atomWrite 0xFFFF p.1 p.2) s
          if n ≠ 1 then s.countDown r
          else
            let (s, x) := s.readVas (clusterDie cl) r.ctx (va + 32) 8
            let src := BitVec.ofNat 64 va
            let suc : Record := match x with
              | .ok ws => match cardNum ws with
                | some n => parseRecord n r r.wid src
                | none => poisonRecord r r.wid src
              | .error _ => poisonRecord r r.wid src
            { s with fired := s.fired ++ [{ cl := cl, rcd := suc, from_ := from_ }] }

/-- A fragment ring's slot given back (R369). -/
def State.freeRing (s : State) (r : Record) : State :=
  if r.tks.isEmpty then s
  else { s with rings := s.rings.map fun (g : Ring) =>
    if g.ctx = r.ctx then { g with busy := g.busy.filter fun k => (g.fring.toNat + 2048 * k) % 2 ^ 64 + 1 != r.framep.toNat } else g }

/-- A fragment record that does not start: its tickets are void, and its ring slot is free (R369, R371). -/
def State.voidRecord (s : State) (r : Record) : State :=
  { s.freeRing r with parked := (s.freeRing r).parked ++ r.tks.map voidPost }

/-- A record enters the queue of a cluster for its context (R39, R40, R384); none when both parts of the queue are full. -/
def State.queueRecord (s : State) (cl : Nat) (r : Record) : Option State :=
  let q := SMap.get [] (s.cluster cl).queues r.ctx
  let c := s.ctx r.ctx
  if c.room 64 ≤ q.length then none
  else
    let r := { r with stamp := s.nextSeq }
    let s := { s with nextSeq := s.nextSeq + 1 }.onLaunch r.ctx r.lseq fun (l : Launch) => { l with live := l.live + 1 }
    let put (s : State) (r : Record) : State :=
      s.setCluster cl { s.cluster cl with queues := SMap.set [] (s.cluster cl).queues r.ctx (q ++ [r]) }
    if q.length < 64 then some (put s r)
    else
      let n := SMap.get 0 (s.cluster cl).rung r.ctx
      let s := s.setCluster cl { s.cluster cl with rung := SMap.set 0 (s.cluster cl).rung r.ctx (n + 1) }
      let at_ := (c.queueBase + cl * 32 * c.queueLen + 32 * (n % c.queueLen)) % 2 ^ 64
      match s.ringPut r.ctx at_ r.words with
      | (s, true) => some (put s { r with ring := some at_ })
      | (s, false) => some ((s.voidRecord r).joinDown cl r none)

/-- A fired successor enters its queue, where there is room; its predecessor stops counting (R38, R40). -/
def State.queueFired (s : State) (f : Fired) : State :=
  match s.queueRecord f.cl f.rcd with
  | none => { s with fired := s.fired ++ [f] }
  | some s => s.countDown f.rcd

/-- The fired successors that find room are queued. -/
def State.flushFired (s : State) : State :=
  s.fired.foldl (fun s f =>
    let t := s.queueFired f
    if t.stall then { s with fired := s.fired ++ [f] } else t) { s with fired := [] }

/-- The lowest run of n numbers below a size that are all free (R412). -/
def runOf (used : Nat → Bool) (n size : Nat) : Option Nat :=
  (List.range (size + 1)).find? fun k => decide (k + n ≤ size) && (List.range n).all fun i => !used (k + i)

/-- Where a workgroup is placed on a core: its first scratchpad granule, and the slot and first row of each spindle's frame. -/
structure Placement where
  scr  : Nat
  spots : List (Nat × Nat)
  deriving DecidableEq, Repr

/-- The slots and frames of S spindles of g granules each, spindle s in quarter s mod 4 (R42, R412). -/
def placeFrames (slotUsed : Nat → Bool) (rows : Nat → BitVec 64) (g n : Nat) : Option (List (Nat × Nat)) :=
  (List.range n).foldl (fun acc k => match acc with
    | none => none
    | some l =>
      let q := k % 4
      let taken := l.foldl (fun (m : BitVec 64) e =>
        if e.1 / 16 = q then m ||| (BitVec.ofNat 64 (2 ^ g - 1) <<< ((e.2 - quarterRow q) / 8)) else m) (rows q)
      match ((List.range 16).map (16 * q + ·)).find? fun sl => !slotUsed sl && !(l.map Prod.fst).contains sl, freeRun taken g with
      | some sl, some f => some (l ++ [(sl, quarterRow q + 8 * f)])
      | _, _ => none) (some [])

/-- Whether a workgroup holds a scratchpad granule: it lies in its range and is not spilled (R463). -/
def Core.granuleUsed (c : Core) (claim : Bool) (k : Nat) : Bool :=
  c.wgs.any fun e => !(claim && e.2.halted) && decide (e.2.scrBase ≤ k) && decide (k < e.2.scrBase + e.2.rcd.scr) &&
    !c.spilled.contains (.granule e.1 k)

/-- The room for a record on a core (R42, R412); with `claim`, halted workgroups count as free (R463). -/
def Core.place (c : Core) (claim : Bool) (r : Record) : Option Placement :=
  let halted (sp : Spindle) : Bool := claim && (c.wg sp.wg).any fun w => w.halted
  let c' : Core := { c with spindles := c.spindles.filter fun e => !halted e.2 }
  match runOf (c.granuleUsed claim) r.scr 256,
      placeFrames (fun sl => (c'.spindle sl).isSome) c'.usedGranules (ceilDiv (r.frm + 1) 8) r.spindles with
  | some k, some l => some ⟨k, l⟩
  | _, _ => none

/-- Whether the units of a workgroup may be claimed (R463): it is halted, and its context is not current. -/
def State.claimable (s : State) (w : Workgroup) : Bool := w.halted && !s.current w.rcd.ctx

/-- A core as an admission that claims sees it (R463): only a workgroup whose units may be claimed counts as halted. -/
def State.claimView (s : State) (core : Nat) : Core :=
  { s.core core with wgs := (s.core core).wgs.map fun e => (e.1, { e.2 with halted := s.claimable e.2 }) }

/-- The WID of fibre n of a record (R28, R37): only the bits below b(P) are replaced (log entry 101). -/
def State.widOf (s : State) (r : Record) (n : Nat) : BitVec 64 :=
  match s.launch r.ctx r.lseq with
  | none => r.wid
  | some l =>
    let h := l.hdr
    if r.kind = 0 then BitVec.ofNat 64 (r.framep.toNat + n % 32 + h.place (h.plev - 1) 1 (n / 32))
    else
      let low := 2 ^ h.b h.plev
      BitVec.ofNat 64 (r.wid.toNat / low * low + n % low)

/-- Whether fibre n of a record exists at its start (R28, R37). -/
def State.startsAt (s : State) (r : Record) (n : Nat) : Bool :=
  if r.kind = 0 then match s.launch r.ctx r.lseq with
    | some l => decide (n % 32 < l.hdr.n 0)
    | none => true
  else decide (n ≤ r.cnt)

/-- A workgroup starts on a runner (R35, R42, R43). The fibres of a fragment record hold its tickets (R369). -/
def State.startWg (s : State) (rn : Nat) (r : Record) (p : Placement) : State :=
  let l := s.launch r.ctx r.lseq
  let arg : BitVec 64 :=
    if r.kind = 0 then (l.map fun (l : Launch) => l.hdr.argp).getD 0 else if r.tks.isEmpty then r.framep else r.framep &&& ~~~1
  let g := ceilDiv (r.frm + 1) 8
  let c := (s.core rn).zeroScr (p.scr * 512) (r.scr * 512)
  let wg := c.nextWg
  let one (c : Core) (e : (Nat × Nat) × Nat) : Core :=
    let ((slot, base), k) := e
    let lanes := (List.range 32).filter fun i => s.startsAt r (32 * k + i)
    let c := c.zeroRows base (8 * g)
    let c := lanes.foldl (fun c i =>
      ((c.setRow (base + 1) i (.good 1)).setReg base 2 i (.good (lo32 arg))).setReg base 3 i (.good (hi32 arg))) c
    let fs : SMap Fibre := lanes.zipIdx.map fun e =>
      (e.1, { pc := r.code, base := base, rows := 8 * g, wid := s.widOf r (32 * k + e.1), fid := c.nextFid + e.2,
              ticket := r.tks[32 * k + e.1]?, answered := false, rtePc := none })
    let m := maskOf lanes
    { c with nextFid := c.nextFid + lanes.length }.setSpindle slot
      { wg := wg, sidx := k, seg := 5, fibres := fs,
        batches := if m = 0 then [] else [{ lanes := m, wait := .none, mark := false, waited := 0, current := true }],
        lastS := false, loops := [], frames := [{ base := base, rows := 8 * g, depth := 0, members := m, handler := none }],
        pend := [], issues := 0, spilled := false }
  let c := p.spots.zipIdx.foldl one c
  let c := { c with nextWg := wg + 1 }.setWg wg
    { rcd := r, argp := arg, slots := p.spots.map Prod.fst, scrBase := p.scr, ctag := BitVec.allOnes 64, tagst := [], nmcnt := 0,
      openB := [], closedB := [], bars := [], coop := (l.map fun (l : Launch) => l.hdr.coop).getD false, halted := false, ending := false,
      killed := false }
  (s.setCore rn c).acquireCore rn true 0xFF

/-- A record is not started (R37): kind 22, and its join block is decremented. `core` is the core that found it. -/
def State.dropBad (s : State) (core cl : Nat) (r : Record) : State :=
  let w3 := (numOf r.words) / 2 ^ 192
  ((s.noteWork r.ctx 22 w3 0 r.src.toNat r.lseq core r.wid).voidRecord r).joinDown cl r none

/-- The words of a kind 2 record's image (R340): in memory, or, of a PROG method, kept by its method unit (log entry 24). -/
def State.imageWords (s : State) (die : Nat) (r : Record) : State × Option (List LWord) :=
  match r.unit with
  | some id => (s, (s.progs.find? fun p => p.id == id).map (·.img))
  | none => match s.readVas die r.ctx r.framep.toNat (96 + 32 * r.frm) with
    | (s, .ok ws) => (s, some ws)
    | (s, .error _) => (s, none)

/-- The image of a kind 2 record (R340): mask, `SEG.size`, PCs, and rows 1 onward; none when it cannot be read. -/
def State.readImage (s : State) (die : Nat) (r : Record) : State × Option (Word × Nat × List (BitVec 64) × List LWord) :=
  match s.imageWords die r with
  | (s, none) => (s, none)
  | (s, some ws) => match cardNum (ws.take 2), cardNum ((ws.drop 32).take 64) with
    | some h, some n =>
      (s, some (BitVec.ofNat 32 h, nbits h 39 32, (List.range 32).map fun i => BitVec.ofNat 64 (n / 2 ^ (64 * i)), ws.drop 96))
    | _, _ => (s, none)

/-- A return-trap record starts on a core (R340): its fibres, rows and PCs come from the image. -/
def State.startImage (s : State) (rn : Nat) (r : Record) (p : Placement) (m : Word) (seg : Nat) (pcs : List (BitVec 64))
    (rows : List LWord) : State :=
  let s := s.startWg rn { r with cnt := 31 } p
  match p.spots with
  | (slot, base) :: _ => s.onCore rn fun c =>
      let c := rows.zipIdx.foldl (fun c e => c.setRow (base + 1 + e.2 / 32) (e.2 % 32) e.1) c
      c.onSpindle slot fun sp =>
        let sp := { sp with fibres := sp.fibres.filter fun e => m.getLsbD e.1, seg := seg, batches := [],
                            frames := sp.frames.map fun f => { f with members := m } }
        ((lanesOf m).foldl (fun (sp : Spindle) i => sp.onFibre i fun f => { f with pc := pcs.getD i 0 }) sp).regroup m false true
  | [] => s

/-- Whether a core still holds spilled units of a context (R466). -/
def Core.holdsSpilled (c : Core) (cx : Nat) : Bool :=
  c.spilled.any fun u => match u with
    | .spindle g _ _ _ => (c.wg g).any fun w => w.rcd.ctx == cx
    | .granule g _ => (c.wg g).any fun w => w.rcd.ctx == cx

/-- Whether a record comes before another in the order of R41. -/
def State.before (s : State) (a b : Record) : Bool :=
  let pa := (s.ctx a.ctx).pri
  let pb := (s.ctx b.ctx).pri
  decide (pb < pa) || (pa == pb && (decide (a.lseq < b.lseq) || (a.lseq == b.lseq && decide (a.stamp < b.stamp))))

/-- The record at the head of a core's queues (R41, R459, R466, R468). -/
def State.headRecord (s : State) (core : Nat) : Option Record :=
  let cl := clusterOf core
  let rs := (s.cluster cl).queues.flatMap fun e =>
    if s.current e.1 && !(s.core core).holdsSpilled e.1 && (s.part (partOf e.1)).clm.getLsbD cl &&
      (!(s.part (partOf e.1)).pend || (s.part (partOf e.1)).tclm.getLsbD cl) then e.2 else []
  rs.foldl (fun best r => match best with
    | none => some r
    | some b => if s.before r b then some r else some b) none

/-- A record taken off its cluster's queue. -/
def State.popRecord (s : State) (cl : Nat) (r : Record) : State :=
  let q := SMap.get [] (s.cluster cl).queues r.ctx
  s.setCluster cl { s.cluster cl with queues := SMap.set [] (s.cluster cl).queues r.ctx (q.filter fun t => t.stamp != r.stamp) }

/-- A record whose entry in the queue area cannot be read back (R384). -/
def State.discard (s : State) (cl va : Nat) (r : Record) : State :=
  (((s.popRecord cl r).noteWork r.ctx 33 24 va 0 r.lseq 0 r.wid).voidRecord r).joinDown cl r none

/-- A record of a queue's ring comes into its hardware part: it is read back from the queue area (R384). Where that meets a fault, it is
discarded and its join block is decremented. -/
def State.readRecord (s : State) (cl : Nat) (r : Record) : State × Option Record :=
  match r.ring with
  | none => (s, some r)
  | some va =>
    match s.readVas (clusterDie cl) r.ctx va 8 with
    | (s, .ok [a, b, c, d, e, f, g, h]) => match cardNum [a, b, c, d, e, f, g, h] with
      | some n =>
        let t : Record := { parseRecord n r r.wid r.src with
                              unit := r.unit, home := r.home, prog := r.prog, stamp := r.stamp, tks := r.tks }
        let q := SMap.get [] (s.cluster cl).queues r.ctx
        let q := q.map fun u => if u.stamp = r.stamp then t else u
        (s.setCluster cl { s.cluster cl with queues := SMap.set [] (s.cluster cl).queues r.ctx q }, some t)
      | none => (s.discard cl va r, none)
    | (s, _) => (s.discard cl va r, none)

/-- Whether some records can all be resident on the cores of a cluster at once, each placed in turn on the first core that fits
(R42). -/
def fitAll (claim : Bool) : List Core → List Record → Bool
  | _, [] => true
  | cs, r :: rs =>
    match cs.findIdx? fun c => (c.place claim r).isSome with
    | none => false
    | some i => match cs[i]?, (cs[i]?).bind fun c => c.place claim r with
      | some c, some p =>
        let g := ceilDiv (r.frm + 1) 8
        let c := p.spots.foldl (fun (c : Core) e => c.setSpindle e.1
          { (default : Spindle) with wg := c.nextWg, frames := [{ base := e.2, rows := 8 * g, depth := 0, members := 1, handler := none }] }) c
        let c := { c with nextWg := c.nextWg + 1 }.setWg c.nextWg
          { (default : Workgroup) with rcd := r, scrBase := p.scr, slots := p.spots.map Prod.fst }
        fitAll claim (setAt cs i c) rs
      | _, _ => false

/-- The cores of a cluster. -/
def State.clusterCores (s : State) (cl : Nat) : List Core := (List.range 12).map fun k => s.core (12 * cl + k)

/-- Whether records of a cooperative launch, listed with their clusters, can all be resident at once (R42). -/
def State.coopFits (s : State) (l : List (Nat × Record)) : Bool :=
  (distinct (l.map Prod.fst)).all fun cl =>
    let rs := (l.filter fun e => e.1 == cl).map Prod.snd
    fitAll false (s.clusterCores cl) rs || fitAll true ((List.range 12).map fun k => s.claimView (12 * cl + k)) rs

/-- The queued records of a launch, with their clusters. -/
def State.queuedOf (s : State) (cx lseq : Nat) : List (Nat × Record) :=
  s.clusters.flatMap fun k => ((SMap.get [] k.2.queues cx).filter fun r => r.lseq == lseq && r.kind == 0).map fun r => (k.1, r)

/-- The clusters of a partition in ascending order (R39, R380), those leaving it not counted (R468). -/
def State.clustersOf (s : State) (p : Nat) : List Nat :=
  (List.range 128).filter fun k => (s.part p).clm.getLsbD k && (!(s.part p).pend || (s.part p).tclm.getLsbD k)

/-- The record of the k-th workgroup of a launch's share (R37), and its cluster (R39). -/
def State.shareRecord (s : State) (cx : Nat) (l : Launch) (k : Nat) : Option (Nat × Record) :=
  let cs := s.clustersOf (partOf cx)
  match cs[k % max 1 cs.length]? with
  | none => none
  | some cl =>
    let h := l.hdr
    let w := h.wid l.rank k
    some (cl, { pv := h.pv, prod := h.prod, kind := 0, frm := h.frm, scr := h.scr, cnt := 32 * h.spindles - 1, joinp := 0,
                framep := BitVec.ofNat 64 w, code := h.code, ctx := cx, lseq := l.lseq, wid := BitVec.ofNat 64 w, src := 0, resv := 0,
                ordinal := h.ordinal w, unit := none, home := none, prog := false, stamp := 0,
                tks := [], ring := none })

/-- The launch unit expands the next workgroup of a launch, or all of a cooperative one (R39, R42). -/
def State.expand (s : State) (cx : Nat) (l : Launch) : State :=
  let one (s : State) (k : Nat) (limit : Nat) : Option State :=
    match s.shareRecord cx l k with
    | none => none
    | some (cl, r) => if limit ≤ (SMap.get [] (s.cluster cl).queues cx).length then none else s.queueRecord cl r
  if l.hdr.coop then
    let rs := (List.range l.total).filterMap (s.shareRecord cx l)
    if rs.length ≠ l.total ∨ l.next ≠ 0 ∨ s.coopFits rs = false then s
    else match (List.range l.total).foldl (fun acc k => acc.bind fun s => one s k (2 ^ 64)) (some s) with
      | none => s
      | some s => s.onLaunch cx l.lseq fun l => { l with next := l.total }
  else match one s l.next 8 with
    | none => s
    | some s => s.onLaunch cx l.lseq fun l => { l with next := l.next + 1 }

/-- A launch of the launch queue's ring is read back before its first workgroup is expanded (R384); one that cannot be read is
discarded. -/
def State.readLaunch (s : State) (cx : Nat) (l : Launch) : State × Option Launch :=
  match l.ring with
  | none => (s, some l)
  | some va =>
    let (s, ws) := s.readVas 0 cx va 32
    match (match ws with
      | .ok ws => cardNum ws
      | .error _ => none) with
    | some n =>
      let h := parseHeader n
      let l := { l with hdr := h, total := h.share l.rank, ring := none }
      (s.onLaunch cx l.lseq fun _ => l, some l)
    | none => ((s.onCtx cx fun c => { c with launches := c.launches.filter fun t => t.lseq != l.lseq }).noteWork cx 33 24 va 0 l.lseq 0 0, none)

/-- WORKGROUP_EXPAND (R39). -/
def execWorkgroupExpand (ctx lseq : Nat) (s : State) : Host.Outcome State Fault Refusal :=
  .next (match s.launch ctx lseq with
    | none => s
    | some l =>
      if s.running && (s.part (partOf ctx)).en && !(s.part (partOf ctx)).held && l.eligible && decide (l.next < l.total) then
        match s.readLaunch ctx l with
        | (s, none) => s
        | (s, some l) => s.expand ctx l
      else s)

/-- The launches of a context whose bits all stand in its event vector are eligible from now on (R34). -/
def State.latch (s : State) (cx : Nat) : State :=
  let met (l : Launch) : Bool := (s.ctx cx).ev &&& l.hdr.waitm == l.hdr.waitm
  if (s.ctx cx).launches.any fun l => !l.eligible && met l then
    s.onCtx cx fun c => { c with launches := c.launches.map fun l => if met l then { l with eligible := true } else l }
  else s

/-- LAUNCH_ELIGIBLE (R34). -/
def execLaunchEligible (ctx lseq : Nat) (s : State) : Host.Outcome State Fault Refusal :=
  .next (match s.launch ctx lseq with
    | none => s
    | some l => if (s.ctx ctx).ev &&& l.hdr.waitm = l.hdr.waitm then s.onLaunch ctx lseq fun l => { l with eligible := true } else s)

/-- LAUNCH_COMPLETE (R35). -/
def execLaunchComplete (ctx lseq : Nat) (s : State) : Host.Outcome State Fault Refusal :=
  .next (match s.launch ctx lseq with
    | none => s
    | some l =>
      if l.eligible && l.next == l.total && l.live == 0 then
        s.onCtx ctx fun c => { c with launches := c.launches.filter (fun t => t.lseq != lseq), ev := c.ev ||| l.hdr.setm }
      else s)

/-- A workgroup of a record starts where it was placed; a return-trap record whose image cannot be read is not started. -/
def State.place (s : State) (core : Nat) (r : Record) (p : Placement) : State :=
  let s := s.popRecord (clusterOf core) r
  if r.kind = 2 then match s.readImage (dieOf core) r with
    | (s, some (m, seg, pcs, rows)) => s.startImage core r p m seg pcs rows
    | (s, none) => s.dropBad core (clusterOf core) r
  else s.startWg core r p

/-- A record that a unit runs itself (R339, R367): the units run one spindle at a time. -/
def State.admitUnit (s : State) (rn : Nat) : State :=
  match nmuOf rn with
  | none => s
  | some n => match SMap.get [] s.nmuQ n with
    | [] => s
    | r :: q =>
      if !(s.core rn).wgs.isEmpty then s
      else
        let s := { s with nmuQ := SMap.set [] s.nmuQ n q }
        if r.bad then s.dropBad 0x7FF (unitCluster n) r
        else match (s.core rn).place false r with
          | some p => s.startWg rn r p
          | none => s

/-- Whether a record may be popped: a cooperative launch's only when all of its workgroups can be resident (R42). -/
def State.mayPop (s : State) (r : Record) : Bool :=
  match s.launch r.ctx r.lseq with
  | some l => !(l.hdr.coop && r.kind == 0) || s.coopFits (s.queuedOf r.ctx r.lseq)
  | none => true

/-- ADMISSION (R37, R41, R42, R463): the head record is started in free resources, or taken off the queue when it is bad. -/
def execAdmission (core : Nat) (s : State) : Host.Outcome State Fault Refusal :=
  .next (
    if !s.running then s
    else if !isCore core then s.admitUnit core
    else match s.headRecord core with
      | none => s
      | some r => match s.readRecord (clusterOf core) r with
      | (s, none) => s
      | (s, some r) =>
        if r.bad then (s.popRecord (clusterOf core) r).dropBad core (clusterOf core) r
        else if !s.mayPop r then s
        else match (s.core core).place false r with
          | some p => s.place core r p
          | none => s)

/-- Whether a workgroup still has engine jobs or row commands under way (R290, R341). -/
def State.busyJobs (s : State) (rn g : Nat) : Bool :=
  (s.cluster (runnerCluster rn)).jobs.any fun j => j.core == rn && j.wg == g

/-- The release of a workgroup's end (R44 step 1): a wide release, which takes back the words that banks hold for the runner. -/
def State.endRelease (s : State) (rn : Nat) : State :=
  (s.releaseAll rn).onCore rn fun c => { c with held := 0 }

/-- The unreleased words that a termination loses (R429, R448, R487). -/
def State.loseAll (s : State) (rn cx : Nat) : State :=
  if isCore rn then
    let c := s.core rn
    (c.l1.filter fun e => e.2.g && e.2.u && (c.lineInfo (e.1 / 32)).ctx == cx).foldl (fun s e => s.loseWord rn e.1) s
  else (s.regst.filterMap fun e => match e.2 with
    | .own o true => if o = rn then some e.1 else none
    | _ => none).foldl (fun s w => s.setRegAt w (some .lost)) s

/-- The last fibre of a PROG method has ended (R367), or it was terminated (R454): v1 and v7 to v10 of its lanes are kept. -/
def State.progEnded (s : State) (rn g : Nat) : State :=
  match (s.core rn).wg g with
  | none => s
  | some w => match w.rcd.unit with
    | none => s
    | some id =>
      let c := s.core rn
      let base := ((((w.slots.head?).bind c.spindle).bind fun sp => sp.frames.head?).map fun f => f.base).getD 0
      let vals := (List.range 8).map fun i => (i, [1, 7, 8, 9, 10].map fun k => c.row (base + k) i)
      { s with progs := s.progs.map fun (p : Prog) => if p.id = id then { p with ret := vals, ended := true, trapped := w.killed } else p }

/-- Step 4 of R44: frames, slots, scratchpad and private memory are freed, and `CPYBASE` returns to its value on entry when the
workgroup wrote it last (R320). -/
def State.freeWg (s : State) (rn g : Nat) : State :=
  s.onCore rn fun c => match c.wg g with
    | none => c
    | some w =>
      { c with spindles := c.spindles.filter fun e => e.2.wg != g,
               wgs := SMap.erase c.wgs g,
               priv := c.priv.filter fun e => !(w.slots.map (· + 64 * w.rcd.ctx)).contains e.2.slot,
               cpybase := if c.cpyWg = some g then 0 else c.cpybase,
               cpyWg := if c.cpyWg = some g then none else c.cpyWg,
               spilled := c.spilled.filter fun u => match u with
                 | .spindle k _ _ _ => k != g
                 | .granule k _ => k != g }

/-- What a record's end does besides its join block: an `nmlaunch` comes off its workgroup's `NMCNT` (R341). -/
def State.nmDown (s : State) (r : Record) : State :=
  match r.home with
  | some (rn, g) => s.onCore rn fun c => c.onWg g fun w => { w with nmcnt := w.nmcnt - 1 }
  | none => s

/-- WORKGROUP_END (R44, R290, R376, R429): once no fibre is left, its operations have been performed, its stores drained and the pixels
of its `tmeth` applied, and its jobs are complete. The freeing waits for a successor that the join block has fired (R384). -/
def execWorkgroupEnd (core wg : Nat) (s : State) : Host.Outcome State Fault Refusal :=
  .next (match (s.core core).wg wg with
    | none => s
    | some w =>
      let c := s.core core
      let waits (s : State) : Bool := s.fired.any fun f => f.from_ == some (core, wg)
      if w.ending then (if waits s then s else s.freeWg core wg)
      else if c.liveFibres wg != 0 || (c.iq.any fun o => o.wg == wg) || (c.sbuf.any fun e => e.wg == wg) ||
          s.busyJobs core wg || (s.tmeths.any fun t => t.core == core && t.wg == wg) || (c.spilled.any fun u => match u with
            | .spindle g _ _ _ => g == wg
            | .granule _ _ => false) then s
      else
        let cl := runnerCluster core
        let s := if w.killed then s.loseAll core w.rcd.ctx else s.endRelease core
        let s := s.freeRing w.rcd
        let s := if w.rcd.unit.isSome then
            (if w.rcd.kind = 2 then (s.progEnded core wg).countDown w.rcd else s.progEnded core wg)
          else (s.nmDown w.rcd).joinDown cl w.rcd (some (core, wg))
        if waits s then s.onCore core fun c => c.onWg wg fun w => { w with ending := true } else s.freeWg core wg)

/-- Bytes written into a launch window's header slots (R396). -/
def Context.writeWindow (c : Context) (off : Nat) (data : List Byte) : Context :=
  { c with window := data.zipIdx.foldl (fun m e => if off + e.2 < 0xF80 then SMap.set 0 m (off + e.2) e.1 else m) c.window }

/-- The words of a header slot. -/
def Context.slotWords (c : Context) (k : Nat) : List LWord :=
  (List.range 32).map fun i => .good (BitVec.ofNat 32 (ofBytes ((List.range 4).map fun j => SMap.get 0 c.window (128 * k + 4 * i + j))))

/-- LAUNCH_WINDOW_HEADER (R396): a write to the header slots; a slot whose bytes 0 to 7 it covers gives a header. -/
def execLaunchWindowHeader (ctx off : Nat) (data : List (BitVec 8)) (s : State) : Host.Outcome State Fault Refusal :=
  .next (
    if s.stopped then s
    else
      let s := s.onCtx ctx fun c => c.writeWindow off data
      ((List.range 31).filter fun k => decide (off ≤ 128 * k) && decide (128 * k + 8 ≤ off + data.length)).foldl
        (fun s k => s.takeHeader ctx ((s.ctx ctx).slotWords k) true (BitVec.ofNat 64 (2 ^ 63 + 128 * k))) s)

/-- EVENT_WINDOW_WRITE (R33, R396): 8 bytes written in the event vector of a launch window clear the bits written as 1. -/
def execEventWindowWrite (ctx off : Nat) (v : BitVec 64) (s : State) : Host.Outcome State Fault Refusal :=
  .next (
    if s.pkcState < 2 || s.stopped || decide (off < 0xF80) || decide (0xFA0 ≤ off) then s
    else s.onCtx ctx fun c => { c with ev := c.ev &&& ~~~(v.setWidth 256 <<< (8 * (off - 0xF80))) })

end Sys2Proof.Machine
end

