-- ==== Sys2Proof/Machine/Preempt.lean ====
section
/-!
DEFINITION. Slices, halts, claims, spills and restores, and changes of a partition's clusters (spec/25_preemption.md R459 to
R470, spec/23_faults_execution.md R431 to R433).
-/

namespace Sys2Proof.Machine

/-- Whether a context rotates (R459). -/
def State.rotates (s : State) (cx : Nat) : Bool := (s.ctx cx).slenReg != 0

/-- The workgroups of a context on the cores: core, number, workgroup. -/
def State.wgsOf (s : State) (cx : Nat) : List (Nat × Nat × Workgroup) :=
  s.cores.flatMap fun e => if isCore e.1 then (e.2.wgs.filter fun w => w.2.rcd.ctx == cx).map fun w => (e.1, w.1, w.2) else []

/-- The engine jobs of a context other than row commands: cluster and job. -/
def State.jobsOf (s : State) (cx : Nat) : List (Nat × Job) :=
  s.clusters.flatMap fun e => (e.2.jobs.filter fun j => j.ctx == cx && match j.kind with
    | .row _ _ _ => false
    | _ => true).map fun j => (e.1, j)

/-- Whether a context has work (R459). -/
def State.hasWork (s : State) (cx : Nat) : Bool :=
  ((s.ctx cx).launches.any fun l => l.eligible) || (s.clusters.any fun e => !(SMap.get [] e.2.queues cx).isEmpty) ||
    ((s.wgsOf cx).any fun w => w.2.2.halted) || ((s.jobsOf cx).any fun j => j.2.halted)

/-- The next rotating context with work after a number, wrapping (R459). -/
def State.nextHolder (s : State) (p after : Nat) : Option Nat :=
  ((List.range 16).map fun k => (after + 1 + k) % 16).find? fun c => s.rotates (16 * p + c) && s.hasWork (16 * p + c)

/-- The engine save area of a plane engine (R464). -/
def State.saveArea (s : State) (j : Job) : Nat := (s.ctx j.ctx).spill + 0x34A000000 + (2 * j.core + j.eng) * 0x4000

/-- Words written one by one for a context, at addresses of their own; the first failing address, where there is one. -/
def State.writeEach (s : State) (die cx : Nat) : List (Nat × LWord) → State × Option Nat
  | [] => (s, none)
  | (a, v) :: l => match s.writeVa die cx a 4 v with
    | (s, some _) => (s, some a)
    | (s, none) => s.writeEach die cx l

/-- Words read one by one for a context; none where one cannot be read. -/
def State.readEach (s : State) (die cx : Nat) : List Nat → State × Option (List LWord)
  | [] => (s, some [])
  | a :: l => match s.readVa die cx a with
    | (s, .error _) => (s, none)
    | (s, .ok v) => match s.readEach die cx l with
      | (s, none) => (s, none)
      | (s, some vs) => (s, some (v :: vs))

/-- Where a tile task saves the accumulator of output k (R461). -/
def State.saveAt (s : State) (j : Job) (c : TileCard) (k : Nat) : Nat :=
  (s.saveArea j + 4 * (64 * (k / (c.n + 1)) + k % (c.n + 1))) % 2 ^ 64

/-- A tile task that stops after a block (R461): it saves its accumulators and gives up its flags. -/
def State.saveTile (s : State) (cl : Nat) (j : Job) (c : TileCard) : State :=
  if j.status == .started && j.block != 0 && decide (j.block ≤ c.nb + 1) then
    let s := (s.tileFlags j c).onJob cl j.id fun j => { j with flags := j.flags.map fun _ => 0 }
    match s.writeEach (clusterDie cl) j.ctx (j.acc.zipIdx.map fun e => (s.saveAt j c e.2, e.1)) with
    | (s, none) => s
    | (s, some a) => s.failJob cl j.id 24 a
  else s

/-- A job halts (R460 to R462). A tile task that has begun a block finishes it first, and saves then. -/
def State.haltJob (s : State) (cl : Nat) (j : Job) : State :=
  let s := s.onJob cl j.id fun j => { j with halted := true }
  match j.kind with
  | .tile c => if j.stageBegun c && decide (j.block ≤ c.nb) then s else s.saveTile cl j c
  | _ => s

/-- The bit-products of a block of a tile task's K (R20): a magnitude plane of A against one of B for every element. -/
def TileCard.products (c : TileCard) : Nat := (c.m + 1) * (c.n + 1) * 64 * ((c.pa + 1) * (c.pb + 1))

/-- A step of a tile task (R154, R333): one that is halted saves after it (R461). The governor counts the bit-products of a block
that is done, and withholds a step that would take a partition beyond its share (R21, R398). -/
def State.tileMove (s : State) (cl : Nat) (j : Job) (c : TileCard) : State :=
  let die := cl / 16
  let part := partOf j.ctx
  if s.withheldAt die part then s
  else if decide (j.block ≤ c.nb) && s.planeOver die part c.products then s.onDie die fun d => { d with plane := true }
  else
    let t := j.tileStep c
    let s := s.onJob cl j.id fun _ => t
    let s := if decide (j.block ≤ c.nb) && t.block != j.block then
        let d := s.die die
        s.setDie die { d with formed := SMap.put d.formed part (SMap.get 0 d.formed part + c.products) }
      else s
    if t.halted && t.block != j.block then s.saveTile cl t c else s

/-- A move of a started job on its engine (R88): with k even, read k / 2 of the job; with k odd, write k / 2 of it where the
destination is on chip, or the next step of a tile task, which reads the words of one stage at a time. -/
def State.engineMove (s : State) (cl id k : Nat) : State :=
  match s.job cl id with
  | none => s
  | some j =>
    let read : State := if (SMap.find j.buf (k / 2)).isSome then s else s.jobRead cl j (k / 2)
    if j.status != .started then s
    else match j.kind with
      | .row _ _ _ => s
      | .tile c =>
        if c.nb + 2 ≤ j.block then s.jobWriteHere cl j (k / 2)
        else if j.halted && !(j.stageBegun c && decide (j.block ≤ c.nb)) then s
        else if k % 2 = 0 then (if j.inStage c (k / 2) then read else s)
        else s.tileMove cl j c
      | _ =>
        if j.verdict ≠ 0 then s
        else if k % 2 = 0 then read
        else s.jobWriteHere cl j (k / 2)

/-- Whether an engine job of a core that is halted still finishes what it has begun (R460, R465): a K block, or a landing granule. -/
def State.jobsSettling (s : State) (core : Nat) : Bool :=
  s.clusters.any fun k => k.2.jobs.any fun j => j.halted && j.status == .started && match j.kind with
    | .tile c => j.core == core && j.stageBegun c && decide (j.block ≤ c.nb)
    | _ => (j.core == core || j.recv.any fun e => e.1 == core) && j.granules.any fun g =>
        let ws := (j.granuleWrites g).map fun w => j.landed.contains w.1
        ws.contains true && ws.contains false

/-- A context halts in place (R460). -/
def State.haltCtx (s : State) (cx : Nat) : State :=
  let s := (s.wgsOf cx).foldl (fun s w => s.onCore w.1 fun c => c.onWg w.2.1 fun g => { g with halted := true }) s
  (s.jobsOf cx).foldl (fun s j => s.haltJob j.1 j.2) s

/-- A tile task that goes on reads its accumulators back (R461). -/
def State.resumeJob (s : State) (cl : Nat) (j : Job) : State :=
  let s := s.onJob cl j.id fun j => { j with halted := false }
  match j.kind with
  | .tile c =>
    if j.status == .started && j.block != 0 && decide (j.block ≤ c.nb + 1) then
      match s.readEach (clusterDie cl) j.ctx ((List.range j.acc.length).map (s.saveAt j c)) with
      | (s, some ws) => s.onJob cl j.id fun j => { j with acc := ws }
      | (s, none) => s.failJob cl j.id 24 (s.saveAt j c 0)
    else s
  | _ => s

/-- Whether a workgroup of a core holds spilled units (R466). -/
def Core.hasSpilled (c : Core) (g : Nat) : Bool :=
  c.spilled.any fun u => match u with
    | .spindle k _ _ _ => k == g
    | .granule k _ => k == g

/-- Whether a halted workgroup may resume (R466, R469): its units are back and its core is in the partition; those of a
cooperative launch that a forced shrink spilled resume together. -/
def State.mayResume (s : State) (r g : Nat) (w : Workgroup) : Bool :=
  let p := s.part (partOf w.rcd.ctx)
  let back (r g : Nat) : Bool := p.clm.getLsbD (clusterOf r) && !(s.core r).hasSpilled g
  if p.held || (p.pend && p.force) then false
  else if p.shrunk.contains (w.rcd.ctx, w.rcd.lseq) then
    (s.wgsOf w.rcd.ctx).all fun v => v.2.2.rcd.lseq != w.rcd.lseq || back v.1 v.2.1
  else back r g

/-- The workgroups and jobs of a current context that may go on (R466). -/
def State.resumeCtx (s : State) (cx : Nat) : State :=
  let s := ((s.wgsOf cx).filter fun w => w.2.2.halted && s.mayResume w.1 w.2.1 w.2.2).foldl
    (fun s w => s.onCore w.1 fun c => c.onWg w.2.1 fun g => { g with halted := false }) s
  let ready (j : Job) : Bool :=
    !(((s.core j.core).wg j.wg).any fun w => w.halted) && j.recv.all fun e => !(s.core e.1).holdsSpilled cx
  ((s.jobsOf cx).filter fun j => j.2.halted && ready j.2).foldl (fun s j => s.resumeJob j.1 j.2) s

/-- Whether a started collective of a context defers a slice end (R470). -/
def State.collRuns (s : State) (cx : Nat) : Bool :=
  (s.jobsOf cx).any fun j => j.2.status == .started && match j.2.kind with
    | .coll _ => true
    | _ => false

/-- The slice of a holder ends: it renews for a holder that is next, or the holder halts (R459, R460). -/
def State.endSlice (s : State) (p h : Nat) : State :=
  let q := s.part p
  if decide (q.until_.toNat ≤ s.tick.toNat) && s.nextHolder p h == some h then
    s.setPart p { q with until_ := s.tick + BitVec.ofNat 64 (s.ctx (16 * p + h)).sliceLen, deferred := none }
  else (s.haltCtx (16 * p + h)).setPart p { q with holder := none, last := h, deferred := none }

/-- The slice of a partition's holder ends, or its end is deferred for a collective (R459, R470). -/
def State.tryEnd (s : State) (p h : Nat) : State :=
  if s.collRuns (16 * p + h) then
    (if (s.part p).deferred.isSome then s else s.setPart p { s.part p with deferred := some s.tick })
  else s.endSlice p h

/-- SLICE_END (R459, R460, R470). -/
def execSliceEnd (p : Nat) (s : State) : Host.Outcome State Fault Refusal :=
  .next (match (s.part p).holder with
    | none => s
    | some h =>
      if s.running && (decide ((s.part p).until_.toNat ≤ s.tick.toNat) || !s.hasWork (16 * p + h)) then s.tryEnd p h else s)

/-- SLICE_TAKE (R459, R466). -/
def execSliceTake (p : Nat) (s : State) : Host.Outcome State Fault Refusal :=
  .next (
    let q := s.part p
    if !s.running || !q.en || q.held || q.holder.isSome then s
    else match s.nextHolder p q.last with
      | none => s
      | some h =>
        (s.setPart p { q with holder := some h, until_ := s.tick + BitVec.ofNat 64 (s.ctx (16 * p + h)).sliceLen }).resumeCtx (16 * p + h))

/-- COLLECTIVE_DEFER_TIMEOUT (R470). -/
def execCollectiveDeferTimeout (p : Nat) (s : State) : Host.Outcome State Fault Refusal :=
  .next (match (s.part p).holder, (s.part p).deferred with
    | some h, some e => if e.toNat + 1800000 ≤ s.tick.toNat then s.endSlice p h else s
    | _, _ => s)

/-- `sys.slice v0, v0` (R352, R459): the slice of the executing context ends, where it rotates and holds it. -/
def State.giveUp (s : State) (cx : Nat) : State :=
  let p := partOf cx
  if s.rotates cx && (s.part p).holder == some (cx % 16) then
    (s.setPart p { s.part p with until_ := s.tick }).tryEnd p (cx % 16)
  else s

/-- Words as a spill area holds them: a poisoned word is a free value there, and its bit of the mask is set (R431, R464). -/
def State.spillImage (s : State) : List LWord → State × List LWord × List Bool
  | [] => (s, [], [])
  | v :: l =>
    let (s, w) : State × LWord := match v with
      | .poison =>
        let (f, s) := s.fresh
        (s, .good f)
      | v => (s, .good v.val)
    let (s, ws, ms) := s.spillImage l
    (s, w :: ws, v.isPoison :: ms)

/-- The rows that a spindle's frames hold. -/
def Spindle.heldRows (sp : Spindle) : List Nat := sp.frames.flatMap fun f => (List.range f.rows).map (f.base + ·)

/-- Where the spill area of a slot keeps a row, and the row's poison mask (R431). -/
def rowSpill (base core slot row : Nat) : Nat × Nat :=
  let a := base + (core * 64 + slot) * 0x20000
  let k := row - quarterRow (quarterOf slot)
  ((a + 128 * k) % 2 ^ 64, (a + 0x10000 + 4 * k) % 2 ^ 64)

/-- Rows written to the spill area (R431); the first failing address, where there is one. -/
def State.spillRows (s : State) (core slot cx : Nat) : List Nat → State × Option Nat
  | [] => (s, none)
  | row :: l =>
    let (a, m) := rowSpill (s.ctx cx).spill core slot row
    let (s, ws, ms) := s.spillImage ((List.range 32).map ((s.core core).row row))
    let mask : Word := maskWhere fun i => ms.getD i false
    match s.writeVas (dieOf core) cx a ws with
    | (s, some _) => (s, some a)
    | (s, none) => match s.writeVa (dieOf core) cx m 4 (.good mask) with
      | (s, some _) => (s, some m)
      | (s, none) => s.spillRows core slot cx l

/-- Rows read back from the spill area (R431, R466); the failing address, where there is one. -/
def State.unspillRows (s : State) (core slot cx : Nat) : List Nat → State × Option Nat
  | [] => (s, none)
  | row :: l =>
    let (a, m) := rowSpill (s.ctx cx).spill core slot row
    match s.readVas (dieOf core) cx a 32 with
    | (s, .error _) => (s, some a)
    | (s, .ok ws) => match s.readVa (dieOf core) cx m with
      | (s, .error _) => (s, some m)
      | (s, .ok mask) =>
        let s := s.onCore core fun c => ws.zipIdx.foldl (fun c e =>
          c.setRow row e.2 (if mask.isPoison || mask.val.getLsbD e.2 then .poison else e.1)) c
        s.unspillRows core slot cx l

/-- A workgroup that a fault on its spill area terminates (R431, R442, R465). -/
def State.spillFault (s : State) (core g cx va : Nat) : State :=
  s.terminate core g { agentRec cx 1 33 24 va 0 with lseq := s.lseqOf core g, core := core }

/-- Rows set to zero (R465). -/
def Core.zeroHeld (c : Core) (sp : Spindle) : Core := sp.frames.foldl (fun c f => c.zeroRows f.base f.rows) c

/-- A halted spindle written to its owner's spill area and taken off its core (R463 to R465). -/
def State.spillSpindle (s : State) (core slot : Nat) : State :=
  match (s.core core).spindle slot with
  | none => s
  | some sp =>
    let cx := (((s.core core).wg sp.wg).getD default).rcd.ctx
    let state := ((s.ctx cx).spill + 0x332000000 + (64 * core + slot) * 0x1000) % 2 ^ 64
    let (s, bad) := if sp.spilled then (s, none) else s.spillRows core slot cx sp.heldRows
    let (s, bad) : State × Option Nat := match bad with
      | some a => (s, some a)
      | none =>
        let (s, img) := s.freshGood 1024
        let (s, e) := s.writeVas (dieOf core) cx state img
        (s, e.map fun _ => state)
    let c := s.core core
    let cpy := if sp.sidx = 0 ∧ c.cpyWg = some sp.wg then some c.cpybase else none
    let s := s.setCore core ({ c with spindles := SMap.erase c.spindles slot,
                                      spilled := c.spilled ++ [Spilled.spindle sp.wg slot sp cpy] }.zeroHeld sp)
    match bad with
    | some a => s.spillFault core sp.wg cx a
    | none => s

/-- Where the spill area keeps a scratchpad granule and its part of the poison mask (R464). -/
def granuleSpill (base core g : Nat) : Nat × Nat :=
  ((base + 0x300000000 + core * 0x80000 + g * 0x800) % 2 ^ 64, (base + 0x330000000 + core * 0x4000 + g * 64) % 2 ^ 64)

/-- Bits as words, the first lowest. -/
def bitWords : Nat → List Bool → List LWord
  | 0, _ => []
  | n + 1, l => .good (maskWhere fun i => l.getD i false) :: bitWords n (l.drop 32)

/-- A halted workgroup's scratchpad granule spilled (R463 to R465). -/
def State.spillGranule (s : State) (core wg g : Nat) : State :=
  let cx := (((s.core core).wg wg).getD default).rcd.ctx
  let (a, m) := granuleSpill (s.ctx cx).spill core g
  let (s, ws, ms) := s.spillImage ((List.range 512).map fun k => (s.core core).scr (512 * g + k))
  let (s, bad) : State × Option Nat := match s.writeVas (dieOf core) cx a ws with
    | (s, some _) => (s, some a)
    | (s, none) => match s.writeVas (dieOf core) cx m (bitWords 16 ms) with
      | (s, some _) => (s, some m)
      | (s, none) => (s, none)
  let s := s.onCore core fun c => { c with spilled := c.spilled ++ [Spilled.granule wg g] }.zeroScr (512 * g) 512
  match bad with
  | some a => s.spillFault core wg cx a
  | none => s

/-- The units that a placement takes from halted workgroups (R463): slots of spindles, and granules with their workgroups. -/
def Core.unitsIn (c : Core) (slots : List Nat) (frames : List (Nat × Nat)) (granules : List Nat) : List Nat × List (Nat × Nat) :=
  let hits (sp : Spindle) : Bool := !sp.spilled && sp.frames.any fun f => frames.any fun e =>
    decide (e.1 < f.base + f.rows) && decide (f.base < e.1 + e.2)
  ((c.spindles.filter fun e => slots.contains e.1 || hits e.2).map Prod.fst,
   granules.flatMap fun g => (c.wgs.filter fun w => decide (w.2.scrBase ≤ g) && decide (g < w.2.scrBase + w.2.rcd.scr) &&
      !c.spilled.contains (.granule w.1 g)).map fun w => (w.1, g))

/-- Whether what issued for a spindle is still on its way (R465): operations and results of its fibres, or an engine's writes to its rows. -/
def State.spindleBusy (s : State) (core slot : Nat) : Bool :=
  let c := s.core core
  match c.spindle slot with
  | none => false
  | some sp =>
    let fids := sp.fibres.map fun e => e.2.fid
    (c.iq.any fun o => fids.contains o.fid) || (c.results.any fun t => fids.contains t.fid) ||
      ((s.cluster (clusterOf core)).jobs.any fun j => j.core == core && j.status == .started &&
        (match j.kind with
          | .tile t => j.block == t.nb + 2 && j.writes.any fun w => match w with
              | .rows _ a n => sp.frames.any fun f => decide (a < f.base + f.rows) && decide (f.base < a + n)
              | _ => false
          | _ => false))

/-- Claimed units are spilled, where all of them belong to halted workgroups of contexts that are not current (R463) and nothing is on its
way to them; none otherwise. -/
def State.claimUnits (s : State) (core : Nat) (slots : List Nat) (frames : List (Nat × Nat)) (granules : List Nat) : Option State :=
  let c := s.core core
  let (ss, gs) := c.unitsIn slots frames granules
  let halted (g : Nat) : Bool := (c.wg g).any s.claimable
  let ok := !s.jobsSettling core && (ss.all fun sl => (c.spindle sl).any (fun sp => halted sp.wg) && !s.spindleBusy core sl) && gs.all fun e => halted e.1
  if ok then some (gs.foldl (fun s e => s.spillGranule core e.1 e.2) (ss.foldl (fun s sl => s.spillSpindle core sl) s)) else none

/-- CLAIM (R463, R465): the head record has no free room; the halted units in its way are spilled, zeroed and granted. -/
def execClaim (core : Nat) (s : State) : Host.Outcome State Fault Refusal :=
  .next (
    if !s.running || !isCore core then s
    else match s.headRecord core with
      | none => s
      | some r => match s.readRecord (clusterOf core) r with
      | (s, none) => s
      | (s, some r) =>
        if r.bad || !s.mayPop r || ((s.core core).place false r).isSome then s
        else match (s.claimView core).place true r with
          | none => s
          | some p =>
            let n := 8 * ceilDiv (r.frm + 1) 8
            match s.claimUnits core (p.spots.map Prod.fst) (p.spots.map fun e => (e.2, n)) ((List.range r.scr).map (p.scr + ·)) with
            | none => s
            | some s => s.place core r p)

/-- The age of a spilled unit (R432, R466). -/
def Core.unitAge (c : Core) (u : Spilled) : List Nat :=
  match u with
  | .spindle g _ sp _ => c.ageOf { sp with wg := g } 0
  | .granule g k => c.ageOf { (default : Spindle) with wg := g } k

/-- The oldest spilled unit of a context on a core (R466). -/
def Core.oldestUnit (c : Core) (cx : Nat) : Option Spilled :=
  (c.spilled.filter fun u => match u with
    | .spindle g _ _ _ => (c.wg g).any fun w => w.rcd.ctx == cx
    | .granule g _ => (c.wg g).any fun w => w.rcd.ctx == cx).foldl (fun best u => match best with
      | none => some u
      | some b => if ageLt (c.unitAge u) (c.unitAge b) then some u else some b) none

/-- A unit put back where it was (R466). -/
def State.putBack (s : State) (core cx : Nat) (u : Spilled) : State :=
  let s := s.onCore core fun c => { c with spilled := c.spilled.filter (· != u) }
  match u with
  | .spindle g slot sp cpy =>
    let s := s.onCore core fun c =>
      { c.setSpindle slot sp with cpybase := cpy.getD c.cpybase, cpyWg := if cpy.isSome then some g else c.cpyWg }
    match (if sp.spilled then (s, none) else s.unspillRows core slot cx sp.heldRows) with
    | (s, none) => s
    | (s, some a) => s.spillFault core g cx a
  | .granule g k =>
    let (a, m) := granuleSpill (s.ctx cx).spill core k
    match s.readVas (dieOf core) cx a 512 with
    | (s, .error _) => s.spillFault core g cx a
    | (s, .ok ws) => match s.readVas (dieOf core) cx m 16 with
      | (s, .error _) => s.spillFault core g cx m
      | (s, .ok ms) => s.onCore core fun c => ws.zipIdx.foldl (fun c e =>
          let b := ms.getD (e.2 / 32) .poison
          c.setScr (512 * k + e.2) (if b.isPoison || b.val.getLsbD (e.2 % 32) then .poison else e.1)) c

/-- RESTORE (R466): the oldest spilled unit of a current context goes back to its place, units of halted workgroups in its way being
claimed; what is whole goes on. -/
def execRestore (core ctx : Nat) (s : State) : Host.Outcome State Fault Refusal :=
  .next (
    if !s.running || !s.current ctx || !(s.part (partOf ctx)).clm.getLsbD (clusterOf core) then s
    else match (s.core core).oldestUnit ctx with
      | none => s.resumeCtx ctx
      | some u =>
        let room := match u with
          | .spindle _ slot sp _ => s.claimUnits core [slot] (if sp.spilled then [] else sp.frames.map fun (f : Frame) => (f.base, f.rows)) []
          | .granule _ g => s.claimUnits core [] [] [g]
        match room with
        | none => s
        | some s => (s.putBack core ctx u).resumeCtx ctx)

/-- The frames of the spindle in a slot, as first row and rows. -/
def Core.framesAt (c : Core) (slot : Nat) : List (Nat × Nat) :=
  ((c.spindle slot).map fun sp => sp.frames.map fun f => (f.base, f.rows)).getD []

/-- Whether a quarter is starved (R432): it has spindles, and each holds a blocked batch or is spilled. -/
def State.starved (s : State) (core q : Nat) : Bool :=
  let sps := (s.core core).spindles.filter fun e => e.1 / 16 == q
  let rs := s.rowRequests core q
  !sps.isEmpty && sps.all fun e => rs.any fun a => a.slot == e.1

/-- The oldest of some requests. -/
def oldestReq (rs : List RowReq) : Option RowReq :=
  rs.foldl (fun best a => match best with
    | none => some a
    | some b => if ageLt a.age b.age then some a else some b) none

/-- Whether an outstanding tile task or copy writes to the rows of a slot (R432 lines 5 and 6). -/
def State.engineIn (s : State) (core slot : Nat) : Bool := s.tileIn core ((s.core core).framesAt slot)

/-- The youngest unspilled spindle of a quarter that is younger than a slot's (R432 line 3). -/
def State.youngest (s : State) (core q slot : Nat) : Option Nat :=
  let c := s.core core
  let age (sp : Spindle) : List Nat := c.ageOf sp 0
  match c.spindle slot with
  | none => none
  | some sp =>
    ((c.spindles.filter fun e => e.1 / 16 == q && !e.2.spilled && ageLt (age sp) (age e.2)).foldl (fun best e => match best with
      | none => some e
      | some b => if ageLt (age b.2) (age e.2) then some e else some b) none).map Prod.fst

/-- A spindle spilled by the spill engine (R432 lines 7 and 8). -/
def State.spillYoung (s : State) (core slot : Nat) : State :=
  match (s.core core).spindle slot with
  | none => s
  | some sp =>
    let cx := (((s.core core).wg sp.wg).getD default).rcd.ctx
    let (s, bad) := s.spillRows core slot cx sp.heldRows
    let s := s.onCore core fun c => (c.setSpindle slot { sp with spilled := true }).zeroHeld sp
    match bad with
    | none => s
    | some a => s.spillFault core sp.wg cx a

/-- A spindle that the spill engine spilled is restored whole (R432 line 9). -/
def State.restoreYoung (s : State) (core slot : Nat) : State :=
  match (s.core core).spindle slot with
  | none => s
  | some sp =>
    let cx := (((s.core core).wg sp.wg).getD default).rcd.ctx
    let s := s.onCore core fun c => c.setSpindle slot { sp with spilled := false }
    match s.unspillRows core slot cx sp.heldRows with
    | (s, none) => s
    | (s, some a) => s.spillFault core sp.wg cx a

/-- The word that a request for rows comes from, and its demand in rows: a `call`, or the trap whose handler needs a frame (R426). -/
def State.demandOf (s : State) (core : Nat) (a : RowReq) : Nat × List (BitVec 32) :=
  match ((s.core core).spindle a.slot).bind fun sp => (sp.batchOf (lowestLane a.lanes)).map fun b => (sp, b) with
  | some (sp, b) => match b.wait with
    | .call dem _ _ iw => (dem, iw.map (BitVec.ofNat 32))
    | .trap t => ((s.ctx (((s.core core).wg sp.wg).getD default).rcd.ctx).hrows, t.iw)
    | _ => (8 * a.g, [])
  | none => (8 * a.g, [])

/-- The frame trap of a blocked batch (R426, R432 line 4). -/
def State.frameTrap (s : State) (core : Nat) (a : RowReq) : State :=
  match (s.core core).spindle a.slot with
  | none => s
  | some sp =>
    let pc := (sp.at_ (lowestLane a.lanes)).1
    let d := s.demandOf core a
    s.deliver core a.slot a.lanes { kind := 18, info := BitVec.ofNat 64 d.1, addr := 0, lanes := a.lanes, batch := a.lanes, pc := pc,
                                    rpc := pc, iw := d.2, recVa := none }

/-- SPILL (R432): a move of the spill engine in a quarter. A restore that is next in age goes back; in a starved quarter, a
spindle younger than the oldest request is spilled, or that request's batch takes the frame trap. -/
def execSpill (core q : Nat) (s : State) : Host.Outcome State Fault Refusal :=
  .next (
    if !s.running || !isCore core then s
    else
      let c := s.core core
      let rs := s.rowRequests core q
      match oldestReq (rs.filter (c.fits q)) with
      | some a => if a.frames.isEmpty then s else s.restoreYoung core a.slot
      | none =>
        if !s.starved core q then s
        else match oldestReq rs with
          | none => s
          | some a => match s.youngest core q a.slot with
            | some y => if s.engineIn core y || s.spindleBusy core y then s else s.spillYoung core y
            | none => if a.frames.isEmpty then s.frameTrap core a else s)

/-- The records of a partition queued at leaving clusters move in order to the lowest remaining one (R468). -/
def State.moveQueues (s : State) (p : Nat) (leaving : List Nat) (to_ : Nat) : State :=
  leaving.foldl (fun s cl => (List.range 16).foldl (fun s k =>
    let cx := 16 * p + k
    let q := SMap.get [] (s.cluster cl).queues cx
    if q.isEmpty then s
    else
      let s := s.setCluster cl { s.cluster cl with queues := SMap.erase (s.cluster cl).queues cx }
      s.setCluster to_ { s.cluster to_ with
        queues := SMap.set [] (s.cluster to_).queues cx (SMap.get [] (s.cluster to_).queues cx ++ q) }) s) s

/-- The records queued at the leaving clusters of a partition move (R468). -/
def State.moveLeaving (s : State) (p : Nat) : State :=
  let q := s.part p
  match (List.range 128).find? q.tclm.getLsbD with
  | some to_ => s.moveQueues p ((List.range 128).filter fun k => q.clm.getLsbD k && !q.tclm.getLsbD k) to_
  | none => s

/-- The workgroups of a partition's contexts. -/
def State.wgsOfPart (s : State) (p : Nat) : List (Nat × Nat × Workgroup) := (List.range 16).flatMap fun k => s.wgsOf (16 * p + k)

/-- Workgroups halted with their jobs (R460, R469, R483), named by core and number. -/
def State.haltAll (s : State) (l : List (Nat × Nat)) : State :=
  l.foldl (fun s w =>
    let s := s.onCore w.1 fun c => c.onWg w.2 fun g => { g with halted := true }
    ((s.jobsOf (((s.core w.1).wg w.2).getD default).rcd.ctx).filter fun j => j.2.core == w.1 && j.2.wg == w.2).foldl
      (fun s j => s.haltJob j.1 j.2) s) s

/-- A halted workgroup spilled whole (R464). -/
def State.spillWhole (s : State) (core g : Nat) : State :=
  let s := ((s.core core).spindlesOf g).foldl (fun s e => s.spillSpindle core e.1) s
  match (s.core core).wg g with
  | none => s
  | some w => ((List.range w.rcd.scr).map (w.scrBase + ·)).foldl (fun s k =>
      if (s.core core).spilled.contains (.granule g k) then s else s.spillGranule core g k) s

/-- Whether nothing that issued for some workgroups is still on its way (R465). -/
def State.settled (s : State) (l : List (Nat × Nat)) : Bool :=
  l.all fun w => !s.jobsSettling w.1 && ((s.core w.1).spindlesOf w.2).all fun e => !s.spindleBusy w.1 e.1

/-- The workgroups that a forced change of a partition's clusters spills, and the cooperative launches among them (R469). -/
def State.leavers (s : State) (p : Nat) : List (Nat × Nat) × List Nat :=
  let q := s.part p
  let gone (r : Nat) : Bool := q.clm.getLsbD (clusterOf r) && !q.tclm.getLsbD (clusterOf r)
  let ws := s.wgsOfPart p
  let coop := distinct ((ws.filter fun w => gone w.1 && w.2.2.coop).map fun w => w.2.2.rcd.ctx * 2 ^ 64 + w.2.2.rcd.lseq)
  ((ws.filter fun w => gone w.1 || (w.2.2.coop && coop.contains (w.2.2.rcd.ctx * 2 ^ 64 + w.2.2.rcd.lseq))).map fun w => (w.1, w.2.1), coop)

/-- A forced change completes once its workgroups are settled: they are spilled, and their cores leave (R469). -/
def State.finishForce (s : State) (p : Nat) : State :=
  let (ws, coop) := s.leavers p
  if (s.part p).pend && (s.part p).force && s.settled ws then
    let s := ws.foldl (fun s w => s.spillWhole w.1 w.2) s
    let shrunk := (s.part p).shrunk ++ coop.map fun k => (k / 2 ^ 64, k % 2 ^ 64)
    (s.moveLeaving p).setPart p { s.part p with clm := (s.part p).tclm, pend := false, shrunk := shrunk }
  else s

/-- A change of a partition's clusters begins (R467 to R469). -/
def State.startShrink (s : State) (p : Nat) (tclm : BitVec 128) (force : Bool) : State :=
  let q := s.part p
  let others := (List.range 20).any fun k => k != p && (s.part k).en && (s.part k).clm &&& (tclm &&& ~~~q.clm) != 0
  if q.pend || !q.en || others then s
  else
    let leaving := (List.range 128).filter fun k => q.clm.getLsbD k && !tclm.getLsbD k
    let s := s.setPart p { q with clm := q.clm ||| tclm, tclm := tclm, pend := !leaving.isEmpty, force := force }
    let s := s.moveLeaving p
    if force then (s.haltAll (s.leavers p).1).finishForce p else s

/-- PSHR_GO (R467): a write of word 2 of PSHR with `go` = 1. -/
def execPshrGo (p : Nat) (v : BitVec 64) (s : State) : Host.Outcome State Fault Refusal :=
  .next (if s.pkcState < 2 || s.stopped || decide (20 ≤ p) || !v.getLsbD 0 then s
    else s.startShrink p (s.part p).tclm (v.getLsbD 1))

/-- SHRINK_COMPLETE (R468). -/
def execShrinkComplete (p : Nat) (s : State) : Host.Outcome State Fault Refusal :=
  .next (
    let q := s.part p
    let leaving (k : Nat) : Bool := q.clm.getLsbD k && !q.tclm.getLsbD k
    if q.pend && !((s.wgsOfPart p).any fun w => leaving (clusterOf w.1)) then
      (s.moveLeaving p).setPart p { q with clm := q.tclm, pend := false }
    else s)

end Sys2Proof.Machine
end

