-- ==== Sys2Proof/Machine/System.lean ====
section
/-!
DEFINITION. Row commands, launches and records posted by programs, events, special registers and system words
(spec/14_engines.md R336 to R352, spec/23_faults_execution.md R430, spec/03_memory_spaces.md R72, R73): majors 0x76 to 0x7D.
-/

namespace Sys2Proof.Machine

/-- n blocks of a range translated for a row command (R336): physical addresses and `sl`, or the first failure. -/
def State.rowBlocks (s : State) (x : Iss) (dst : Bool) : Nat → Nat → State × Except Failure (List (Nat × Bool))
  | _, 0 => (s, .ok [])
  | va, n + 1 => match s.translate x.core x.cx (va % 2 ^ 64) .read with
    | (s, .error c) => (s, .error ⟨32, if c = 11 then 15 else c, va⟩)
    | (s, .ok (pa, l)) =>
      if !isHbm pa then (s, .error ⟨32, 10, va⟩)
      else if l.fv then (s, .error ⟨32, 15, va⟩)
      else if dst && !l.w then (s, .error ⟨32, 7, va⟩)
      else match s.rowBlocks x dst (va + 2048) n with
        | (s, .error e) => (s, .error e)
        | (s, .ok bs) => (s, .ok ((pa, l.sl) :: bs))

/-- The pairs of a row command (R336). -/
def rowPairs (va : Nat) (dst : List (Nat × Bool)) (src : Option (List (Nat × Bool))) : List RowPair :=
  dst.zipIdx.map fun e =>
    { dst := e.1.1, src := src.bind fun l => (l[e.2]?).map Prod.fst, dva := BitVec.ofNat 64 (va + 2048 * e.2), sl := e.1.2,
      prep := 0, refused := false, done := false }

/-- What a lane of `nmc.rowcp` or `nmc.rowzero` gives (R336): the byte count, both ranges, and the pairs. -/
def rowCheck (o : Opnds) (copy : Bool) (x : Iss) (s : State) (i : Nat) : State × Except Failure (Nat × Nat × Nat × List RowPair) :=
  let c := s.core x.core
  let b : Option DWord := if copy then srcVal64 c x o.b i else some 0
  match srcVal64 c x o.a i, b, srcVal c x o.c i with
  | some wa, some wb, some n =>
    if wa.toNat % 2048 ≠ 0 ∨ wb.toNat % 2048 ≠ 0 ∨ n.toNat % 2048 ≠ 0 ∨ n = 0 ∨ 2 ^ 31 < n.toNat then (s, .error ⟨6, 0, wa.toNat⟩)
    else match s.rowBlocks x true wa.toNat (n.toNat / 2048) with
      | (s, .error e) => (s, .error e)
      | (s, .ok ds) =>
        if !copy then (s, .ok (n.toNat, wa.toNat, 0, rowPairs wa.toNat ds none))
        else match s.rowBlocks x false wb.toNat (n.toNat / 2048) with
          | (s, .error e) => (s, .error e)
          | (s, .ok ss) => (s, .ok (n.toNat, wa.toNat, wb.toNat, rowPairs wa.toNat ds (some ss)))
  | a, b, n => (s, .error ⟨5, (if a.isNone then 33 else 0) ||| (if b.isNone then 34 else 0) ||| (if n.isNone then 4 else 0), 0⟩)

/-- One more on a workgroup's `NMCNT` (R341). -/
def State.nmUp (s : State) (x : Iss) : State := s.onCore x.core fun c => c.onWg x.wg fun w => { w with nmcnt := w.nmcnt + 1 }

/-- `nmc.rowcp` and `nmc.rowzero` (R336). -/
def rowBody (o : Opnds) (m : BitVec 16) (copy : Bool) (x : Iss) (s : State) : State :=
  let own := m.getLsbD 0
  if own && !(s.ctx x.cx).own && x.gt != 0 then s.trapAll x x.gt 12 0 0
  else s.allOrTrap x (rowCheck o copy x) fun s ps => ps.foldl (fun s p =>
    let (n, wa, wb, pairs) := p.2
    (s.postJob x p.1 (.row own false pairs) none (if copy then [.virt x.cx wb n] else []) [.virt x.cx wa n]).nmUp x) s

/-- R336. -/
def execNmcRowcp (h : Hdr) (o : Opnds) (m : BitVec 16) (s : State) : Host.Outcome State Fault Refusal :=
  .next (s.issue (.nmcRowcp h o m) (rowBody o m true))
def execNmcRowzero (h : Hdr) (o : Opnds) (m : BitVec 16) (s : State) : Host.Outcome State Fault Refusal :=
  .next (s.issue (.nmcRowzero h o m) (rowBody o m false))

/-- The place of a block (R338). -/
def rowPlace (pa : Nat) : Word :=
  BitVec.ofNat 32 (paPc pa * 2 ^ 22 + paStack pa * 2 ^ 18 + paBank pa * 2 ^ 14 + paSub pa * 2 ^ 9 + paRow pa)

/-- The block of an address in HBM, as `nmc.rowq` and `nmc.nmlaunch` read it (R338, R339). `bit` is the operand's bit of R428. -/
def hbmOf (a : Src) (bit : Nat) (x : Iss) (s : State) (i : Nat) : State × Except Failure Nat :=
  match srcVal64 (s.core x.core) x a i with
  | none => (s, .error ⟨5, bit + 32, 0⟩)
  | some va => match s.translate x.core x.cx va.toNat .read with
    | (s, .error c) => (s, .error ⟨32, c, va.toNat⟩)
    | (s, .ok (pa, _)) => if isHbm pa then (s, .ok pa) else (s, .error ⟨32, 10, va.toNat⟩)

/-- R338. -/
def execNmcRowq (h : Hdr) (o : Opnds) (m : BitVec 16) (s : State) : Host.Outcome State Fault Refusal :=
  .next (s.issue (.nmcRowq h o m) fun x s => s.allOrTrap x (hbmOf o.a 1 x) fun s ps =>
    let hz := (s.ctx x.cx).hz
    s.onCore x.core fun c => ps.foldl (fun c p => c.addResult x hz p.1 (.word o.d (.good (rowPlace p.2)))) c)

/-- The record of the workgroup that a word runs in. -/
def State.recOf (s : State) (r wg : Nat) : Record := (((s.core r).wg wg).getD default).rcd

/-- The WID of a lane's fibre. -/
def State.widAt (s : State) (x : Iss) (i : Nat) : BitVec 64 :=
  ((((s.core x.core).spindle x.slot).bind fun sp => sp.fibre i).map (·.wid)).getD 0

/-- A VA named by an operand, n-byte aligned and readable (R295, R314). -/
def pointerAt (a : Src) (n : Nat) (x : Iss) (s : State) (i : Nat) : State × Except Failure (BitVec 64 × Place) :=
  match srcVal64 (s.core x.core) x a i with
  | none => (s, .error ⟨5, 33, 0⟩)
  | some va => match s.globalPlace x va.toNat n .read 0 with
    | (s, .error e) => (s, .error e)
    | (s, .ok pl) => (s, .ok (va, pl))

/-- What a lane of `nmc.nmlaunch` gives (R339): the record, and the NMU that serves the data. -/
def nmlaunchCheck (o : Opnds) (x : Iss) (s : State) (i : Nat) : State × Except Failure (Nat × Record) :=
  let c := s.core x.core
  match srcVal64 c x o.a i, srcVal64 c x o.b i with
  | some _, some _ => match pointerAt o.a 32 x s i with
    | (s, .error e) => (s, .error e)
    | (s, .ok (va, pl)) =>
      let (s, ws) := s.viewWords x i pl 8
      match cardNum ws with
      | none => (s, .error ⟨5, 64, 0⟩)
      | some n =>
        let r := parseRecord n (s.recOf x.core x.wg) (s.widAt x i) va
        if r.kind ≠ 1 ∨ r.scr ≠ 0 ∨ 31 < r.cnt then (s, .error ⟨10, va.toNat, 0⟩)
        else match hbmOf o.b 2 x s i with
          | (s, .error e) => (s, .error e)
          | (s, .ok pa) => (s, .ok (homeBank pa, { r with home := some (x.core, x.wg) }))
  | a, b => (s, .error ⟨5, poisonInfo a.isNone b.isNone false, 0⟩)

/-- A lane posts something after its release (R77, R314). -/
def Core.postAfter (c : Core) (x : Iss) (lane : Nat) (p : Posted) : Core := (c.enqueue x lane (.release true false)).enqueue x lane (.posted p)

/-- R339. -/
def execNmcNmlaunch (h : Hdr) (o : Opnds) (m : BitVec 16) (s : State) : Host.Outcome State Fault Refusal :=
  .next (s.issue (.nmcNmlaunch h o m) fun x s => s.allOrTrap x (nmlaunchCheck o x) fun s ps =>
    ps.foldl (fun s p => (s.onCore x.core fun c => c.postAfter x p.1 (.nmu p.2.1 p.2.2)).nmUp x) s)

/-- R341. -/
def execNfence (h : Hdr) (o : Opnds) (s : State) : Host.Outcome State Fault Refusal :=
  .next (s.issue (.nfence h o) fun x s => if x.gt = 0 then s.complete x x.lanes else s.park x x.lanes (.nfence x.len))

/-- A batch parked at an `nfence` goes on once `NMCNT` is 0 (R90, R341). -/
def State.releaseNfence (s : State) (core slot lane : Nat) : State :=
  match s.waitAt core slot lane with
  | none => s
  | some (sp, b) => match b.wait, (s.core core).wg sp.wg with
    | .nfence len, some w => if w.nmcnt = 0 then s.letGo core slot b len true 0xFF else s
    | _, _ => s

/-- NFENCE_RELEASE (R341). -/
def execNfenceRelease (core slot lane : Nat) (s : State) : Host.Outcome State Fault Refusal := .next (s.releaseNfence core slot lane)

/-- Whether a context's launch queue has room (R384). -/
def State.launchRoom (s : State) (cx : Nat) : Bool := decide ((s.ctx cx).waiting < (s.ctx cx).room 32)

/-- Whether the queue of a cluster has room for a record of a context (R384). -/
def State.recordRoom (s : State) (cl cx : Nat) : Bool :=
  decide ((SMap.get [] (s.cluster cl).queues cx).length < (s.ctx cx).room 64)

/-- Whether the primitive queues of all fronts have room for a record of a context (R384), those on their way counted. -/
def State.primRoom (s : State) (cx : Nat) : Bool :=
  (List.range 8).all fun die => decide ((s.front die cx).held.length + (s.prims.filter fun p => p.1 == die && p.2.ctx == cx).length <
    (s.ctx cx).room 16)

/-- A word that posts in every lane, or parks the batch where a queue has no room (R314, R384). -/
def State.postOrBlock {α : Type} (s : State) (x : Iss) (f : State → Nat → State × Except Failure α) (room : State → Bool) (b : Block)
    (act : State → List (Nat × α) → State) : State :=
  let (s, rs) := s.checkLanes f (lanesOf x.gt)
  match failures rs with
  | (i, e) :: fs => s.trapAll x (maskOf (i :: fs.map Prod.fst)) e.kind e.info e.addr
  | [] =>
    if !(passes rs).isEmpty && !room s then s.park x x.lanes (.blocked b)
    else (act s (passes rs)).complete x x.lanes

/-- R342. -/
def execLaunch (h : Hdr) (o : Opnds) (m : BitVec 16) (s : State) : Host.Outcome State Fault Refusal :=
  .next (s.issue (.launch h o m) fun x s => s.postOrBlock x (pointerAt o.a 128 x) (·.launchRoom x.cx) .launchRoom fun s ps =>
    s.onCore x.core fun c => ps.foldl (fun c p => c.postAfter x p.1 (.launch p.2.1 p.2.2)) c)

/-- R343. -/
def execSpawn (h : Hdr) (o : Opnds) (m : BitVec 16) (s : State) : Host.Outcome State Fault Refusal :=
  .next (s.issue (.spawn h o m) fun x s =>
    let cl := runnerCluster x.core
    s.postOrBlock x (pointerAt o.a 32 x) (·.recordRoom cl x.cx) (.recordRoom cl 1) fun s ps =>
      s.onCore x.core fun c => ps.foldl (fun c p => c.postAfter x p.1 (.spawn p.2.1 (s.widAt x p.1) p.2.2)) c)

/-- The event index of a lane (R344). -/
def evtIndex (a : Src) (x : Iss) (s : State) (i : Nat) : State × Except Failure Nat :=
  (s, match srcVal (s.core x.core) x a i with
    | none => .error ⟨5, 1, 0⟩
    | some v => if 256 ≤ v.toNat then .error ⟨11, 0, 0⟩ else .ok v.toNat)

/-- `evt.set`, with `clr` or not (R344). -/
def evtBody (a : Src) (op : Nat) (x : Iss) (s : State) : State :=
  s.allOrTrap x (evtIndex a x) fun s ps => s.onCore x.core fun c => ps.foldl (fun c p =>
    (c.enqueue x p.1 (.release true false)).enqueue x p.1 (.evt op p.2 none)) c

/-- R344. -/
def execEvtSet (h : Hdr) (o : Opnds) (m : BitVec 16) (s : State) : Host.Outcome State Fault Refusal :=
  .next (s.issue (.evtSet h o m) (evtBody o.a 0))
def execEvtClear (h : Hdr) (o : Opnds) (m : BitVec 16) (s : State) : Host.Outcome State Fault Refusal :=
  .next (s.issue (.evtClear h o m) (evtBody o.a 1))
def execEvtTest (h : Hdr) (o : Opnds) (m : BitVec 16) (s : State) : Host.Outcome State Fault Refusal :=
  .next (s.issue (.evtTest h o m) fun x s => s.allOrTrap x (evtIndex o.a x) fun s ps =>
    let hz := (s.ctx x.cx).hz
    s.onCore x.core fun c => ps.foldl (fun c p =>
      (c.enqueue x p.1 (.evt 2 p.2 (some ⟨x.base, o.d.toNat⟩))).markRow x hz p.1 (x.base + o.d.toNat)) c)

/-- What a lane of `ppost` gives (R345, R354): the record as posted. -/
def ppostCheck (o : Opnds) (x : Iss) (s : State) (i : Nat) : State × Except Failure Prim :=
  let c := s.core x.core
  (s, match srcVal c x o.a i, srcVal c x o.b i, srcVal c x o.c i with
    | some _, some b, some d => match s.cardAt x o.a 1 64 64 i with
      | .error e => .error e
      | .ok (_, ws) =>
        if 2 ^ 20 ≤ b.toNat ∨ 4096 ≤ d.toNat then .error ⟨11, 0, 0⟩
        else
          let r := s.recOf x.core x.wg
          .ok { ctx := x.cx, lseq := r.lseq, wid := s.widAt x i, draw := d.toNat, idx := b.toNat, vs := ws.take 12,
                dvp := BitVec.ofNat 64 (numOf ((ws.drop 12).take 2)), attr := BitVec.ofNat 64 (numOf (ws.drop 14)), ring := none }
    | a, b, d => .error ⟨5, a.isNone.toNat + 2 * b.isNone.toNat + 4 * d.isNone.toNat, 0⟩)

/-- R345. -/
def execPpost (h : Hdr) (o : Opnds) (m : BitVec 16) (s : State) : Host.Outcome State Fault Refusal :=
  .next (s.issue (.ppost h o m) <| withCards fun x s => s.postOrBlock x (ppostCheck o x) (·.primRoom x.cx) (.primRoom 1) fun s ps =>
    s.onCore x.core fun c => ps.foldl (fun c p => c.postAfter x p.1 (.prim p.2)) c)

/-- What has been posted enters its queue, in the order of its fibre (R77, R79); it waits there for room (R384). -/
def State.performPosted (s : State) (r idx : Nat) (o : MemOp) (p : Posted) : State :=
  match p with
  | .job cl id => (s.dropOp r idx).queueJob cl id
  | .spawn va wid pl =>
    let cl := runnerCluster r
    if !s.recordRoom cl o.ctx then s
    else
      let (s, ws) := s.readWords r o.fid o.ctx pl (List.range 8)
      let by_ := s.recOf r o.wg
      let rcd := match cardNum ws with
        | some n => parseRecord n by_ wid va
        | none => poisonRecord by_ wid va
      match s.queueRecord cl rcd with
      | some s => s.dropOp r idx
      | none => s
  | .nmu n rcd =>
    { s.dropOp r idx with nmuQ := SMap.set [] s.nmuQ n (SMap.get [] s.nmuQ n ++ [rcd]) }.onLaunch rcd.ctx rcd.lseq
      fun (l : Launch) => { l with live := l.live + 1 }
  | .launch va pl =>
    if !s.launchRoom o.ctx then s
    else
      let (s, ws) := (s.dropOp r idx).readWords r o.fid o.ctx pl (List.range 32)
      s.takeHeader o.ctx ws false va
  | .prim p =>
    if !s.primRoom p.ctx then s
    else { s.dropOp r idx with prims := s.prims ++ (List.range 8).map fun die => (die, p) }

/-- The record VA of the innermost handler frame of a lane (R346: `FAULT`); none outside a handler. -/
def Spindle.handlerOf (sp : Spindle) (lane : Nat) : Option (BitVec 64) := (sp.chain lane).findSome? (·.handler)

/-- Whether a fibre may run privileged words (R348, R427). -/
def State.privileged (s : State) (x : Iss) : Bool :=
  (s.ctx x.cx).sysc || (((s.core x.core).spindle x.slot).bind fun sp => sp.handlerOf (lowestLane x.gt)).isSome

/-- A privileged word (R348). -/
def State.guardPriv (s : State) (x : Iss) (body : Iss → State → State) : State :=
  if x.gt = 0 then s.complete x x.lanes
  else if s.privileged x then body x s
  else s.trapAll x x.gt 12 0 0

/-- The field of `LINK` that a lane reads (R50): its first bit in D and its width. -/
def linkField : Nat → Option (Nat × Nat)
  | 0 => some (0, 32)
  | 1 => some (32, 32)
  | 2 => some (64, 11)
  | 3 => some (75, 9)
  | 4 => some (84, 8)
  | _ => none

/-- `LINK` in a lane (R50): poison when a lane of the link row that carries its field reads as poison. -/
def Core.linkAt (c : Core) (base lane : Nat) : LWord :=
  match linkField lane with
  | none => .good 0
  | some (lo, n) =>
    let ls := (List.range 32).filter fun i => decide (6 * i < lo + n) && decide (lo < 6 * i + 6)
    if ls.any fun i => (c.row base i).isPoison then .poison
    else
      let d := ls.foldl (fun a i =>
        let v := (c.row base i).val.toNat
        a + (nbits v 31 27 * 2 + nbits v 0 0) * 2 ^ (6 * i)) 0
      .good (BitVec.ofNat 32 (nbits d (lo + n - 1) lo))

/-- Whether a read of a special register is variable-latency (R346, R347). -/
def sregSlow (sr : Nat) : Bool := sr == 0 || sr == 10 || sr == 11 || sr == 14 || sr == 16 || decide (24 ≤ sr)

/-- The tick at which a context's slice ends (R459). -/
def State.sliceEndOf (s : State) (cx : Nat) : BitVec 64 :=
  if s.rotates cx then (s.part (partOf cx)).until_ else BitVec.allOnes 64

/-- A special register as a lane reads it (R346). The numbers of a unit that is no core are free (log entry 8). -/
def State.sregRead (s : State) (x : Iss) (sr i : Nat) : LWord × LWord :=
  let c := s.core x.core
  let k := s.ctx x.cx
  let w : Workgroup := (c.wg x.wg).getD default
  let one (v : Word) : LWord × LWord := (.good v, .good 0)
  let two (v : DWord) : LWord × LWord := (.good (lo32 v), .good (hi32 v))
  let num (v : Nat) : LWord × LWord := one (if isCore x.core then BitVec.ofNat 32 v else Config.freeWord s.free)
  let sp := c.spindle x.slot
  match sr with
  | 0 => two s.tick
  | 1 => two (s.widAt x i)
  | 2 => one (BitVec.ofNat 32 i)
  | 3 => one (BitVec.ofNat 32 x.seg)
  | 4 => num x.core
  | 5 => num (clusterOf x.core)
  | 6 => num (dieOf x.core)
  | 7 => one k.rank
  | 8 => one (BitVec.ofNat 32 (x.cx % 16))
  | 9 => one (BitVec.ofNat 32 (partOf x.cx))
  | 10 => two w.ctag
  | 11 => one w.nmcnt
  | 12 => two c.cpybase
  | 13 => one (BitVec.ofNat 32 (((sp.bind fun sp => sp.frameOf i).map (·.depth)).getD 0))
  | 14 => (c.linkAt x.base i, .good 0)
  | 15 => two ((sp.bind fun sp => sp.handlerOf i).getD 0)
  | 16 => two (s.sliceEndOf x.cx)
  | sr => one (BitVec.ofNat 32 (k.ev.toNat / 2 ^ (32 * (sr - 24))))

/-- What `sreg.rdsr` writes in a lane (R347). -/
def sregEffect (s : State) (d : BitVec 8) (sr : Nat) (x : Iss) (i : Nat) : LaneEffect :=
  let v := s.sregRead x sr i
  ⟨if sreg64 sr then [(d.toNat, v.1), (d.toNat + 1, v.2)] else [(d.toNat, v.1)], none, 0⟩

/-- R346, R347. -/
def execSregRdsr (h : Hdr) (o : Opnds) (m : BitVec 16) (s : State) : Host.Outcome State Fault Refusal :=
  .next (s.issue (.sregRdsr h o m) fun x s =>
    let f (_ : Core) (x : Iss) (i : Nat) : LaneEffect := sregEffect s o.d m.toNat x i
    let s' := if sregSlow m.toNat then varBody f x s else aluBody f x s
    if !isCore x.core then { s' with free := s'.free + 1 } else s')

/-- The value of `CPYBASE` that a lane writes (R320). -/
def cpybaseCheck (a : Src) (x : Iss) (s : State) (i : Nat) : State × Except Failure DWord :=
  (s, match srcVal64 (s.core x.core) x a i with
    | none => .error ⟨5, 1, 0⟩
    | some v =>
      let base := nbits v.toNat 19 0
      let lim := nbits v.toNat 43 24
      if base ≤ lim ∧ s.scrBase x ≤ base ∧ lim ≤ s.scrBase x + s.scrLimit x ∧ nbits v.toNat 47 44 = 0 ∧ nbits v.toNat 23 20 = 0 then
        .ok (BitVec.ofNat 64 (x.cx * 2 ^ 48 + lim * 2 ^ 24 + base))
      else .error ⟨11, 0, 0⟩)

/-- A write of `SEG` (R47, R347): the value of the lowest guard-true lane. -/
def wrsegBody (a : Src) (x : Iss) (s : State) : State :=
  if x.gt = 0 then s.complete x x.lanes
  else match srcVal (s.core x.core) x a (lowestLane x.gt) with
    | none => s.trapAll x (bitMask (lowestLane x.gt)) 5 1 0
    | some v =>
      if 1 ≤ v.toNat ∧ v.toNat ≤ 5 then
        (s.onCore x.core fun c => c.onSpindle x.slot fun sp => { sp with seg := v.toNat }).complete x x.lanes
      else s.trapAll x (bitMask (lowestLane x.gt)) 1 0 0

/-- R347: `SEG` and `CPYBASE` are the writable registers; a write of another raises the illegal-instruction trap. -/
def execSregWrsr (h : Hdr) (o : Opnds) (m : BitVec 16) (s : State) : Host.Outcome State Fault Refusal :=
  .next (s.issue (.sregWrsr h o m) fun x s =>
    if m = 3 then wrsegBody o.a x s
    else if m = 12 then s.allOrTrap x (cpybaseCheck o.a x) fun s ps =>
      s.onCore x.core fun c => ps.foldl (fun c p => { c with cpybase := p.2, cpyWg := some x.wg }) c
    else s.trapAll x x.lanes 1 0 0)

/-- R348. -/
def execSysSvc (h : Hdr) (o : Opnds) (m : BitVec 16) (s : State) : Host.Outcome State Fault Refusal :=
  .next (s.issue (.sysSvc h o m) (softTrap 16 m.toNat))

/-- n words of global memory from a VA as a fibre's own view has them, each translated by itself (R295, R350, R430). -/
def State.viewEach (s : State) (x : Iss) (i : Nat) : Nat → Nat → State × Except Failure (List LWord)
  | _, 0 => (s, .ok [])
  | va, n + 1 => match s.globalPlace x (va % 2 ^ 64) 4 .read 3 with
    | (s, .error e) => (s, .error e)
    | (s, .ok pl) =>
      let (s, ws) := s.viewWords x i pl 1
      match s.viewEach x i (va + 4) n with
      | (s, .error e) => (s, .error e)
      | (s, .ok vs) => (s, .ok (ws ++ vs))

/-- The PC that a lane's `sys.rte` returns to (R430), from the record at v2:v3. -/
def rteCheck (x : Iss) (s : State) (i : Nat) : State × Except Failure DWord :=
  let c := s.core x.core
  match pairVal (c.reg x.base 2 i) (c.reg x.base 3 i) with
  | none => (s, .error ⟨5, 32, 0⟩)
  | some va => match s.viewEach x i (va.toNat + 84) 2 with
    | (s, .error e) => (s, .error e)
    | (s, .ok ws) =>
      match pairVal (ws.getD 0 .poison) (ws.getD 1 .poison) with
      | none => (s, .error ⟨5, 64, 0⟩)
      | some t => (s, if misaligned t then .error ⟨4, 0, t.toNat⟩ else .ok t)

/-- THE RETURN FROM A TRAP (R430): a lane parks at a return whose PC is the record's `rpc`. -/
def rteBody (x : Iss) (s : State) : State :=
  let stay : Word := x.lanes &&& ~~~x.gt
  if x.gt = 0 then s.complete x x.lanes
  else if ((((s.core x.core).spindle x.slot).bind fun sp => sp.frameOf (lowestLane x.gt)).bind (·.handler)).isNone then
    s.trapAll x x.gt 12 0 0
  else if (s.core x.core).linkRead x.base = none then (s.trapLanes x x.gt 5 0 0).complete x stay
  else
    let (s, rs) := s.checkLanes (rteCheck x) (lanesOf x.gt)
    let bad := failures rs
    let ok := passes rs
    let s := s.trapEach x (bad.map fun e => (e.1, e.2.kind, e.2.info, e.2.addr))
    let s := s.onCore x.core fun c => c.onSpindle x.slot fun sp =>
      ok.foldl (fun (sp : Spindle) p => sp.onFibre p.1 fun f => { f with rtePc := some p.2 }) sp
    (s.park x (maskOf (ok.map Prod.fst)) (.ret 0 x.words)).complete x stay

/-- R430. -/
def execSysRte (h : Hdr) (o : Opnds) (m : BitVec 16) (s : State) : Host.Outcome State Fault Refusal :=
  .next (s.issue (.sysRte h o m) rteBody)

/-- The range of a lane's `sys.tinv` (R349). -/
def tinvCheck (o : Opnds) (x : Iss) (s : State) (i : Nat) : State × Except Failure (BitVec 64 × Nat) :=
  (s, match srcVal64 (s.core x.core) x o.a i, srcVal (s.core x.core) x o.b i with
    | some a, some b => .ok (a, b.toNat)
    | a, b => .error ⟨5, a.isNone.toNat + 2 * b.isNone.toNat, 0⟩)

/-- R349. -/
def execSysTinv (h : Hdr) (o : Opnds) (m : BitVec 16) (s : State) : Host.Outcome State Fault Refusal :=
  .next (s.issue (.sysTinv h o m) fun x s => s.guardPriv x fun x s => s.parkOrTrap x (tinvCheck o x) fun ps =>
    .tinv ((Sys2Proof.Scope.ofCode (xf m 2 0)).getD .pkg) (ps.map Prod.snd) x.len)

/-- Whether a run of virtual addresses meets one of some ranges (R349); a length of 0 names the whole VA space. -/
def inTinv (rs : List (BitVec 64 × Nat)) (start len : Nat) : Bool :=
  rs.any fun r => r.2 == 0 || (decide (start < r.1.toNat % 2 ^ 57 + r.2) && decide (r.1.toNat % 2 ^ 57 < start + len))

/-- Translations of a context's ranges dropped from a translation cache (R73). -/
def dropLeaves (cx : Nat) (rs : List (BitVec 64 × Nat)) (l : List Leaf) : List Leaf :=
  l.filter fun e => !(e.ctx == cx && inTinv rs (e.vpn * 2 ^ e.lg) (2 ^ e.lg))

/-- Non-leaf entries of a context's ranges dropped from a walker cache (R71, R73). -/
def dropWalks (cx : Nat) (rs : List (BitVec 64 × Nat)) (l : List WalkEnt) : List WalkEnt :=
  l.filter fun e => !(e.ctx == cx && inTinv rs (e.pre * 2 ^ (12 + 9 * (e.level - 1))) (2 ^ (12 + 9 * (e.level - 1))))

/-- The runners, clusters and walkers whose translation caches a scope names, seen from a runner (R73). -/
def tinvCore (sc : Scope) (r k : Nat) : Bool :=
  match sc with
  | .fib | .spd | .wg => k == r
  | .cl => k == r || (isCore k && clusterOf k == runnerCluster r)
  | .die => runnerDie k == runnerDie r
  | _ => true
def tinvCluster (sc : Scope) (r k : Nat) : Bool :=
  match sc with
  | .fib | .spd | .wg => false
  | .cl => k == runnerCluster r
  | .die => clusterDie k == runnerDie r
  | _ => true
def tinvWalker (sc : Scope) (r k : Nat) : Bool :=
  match sc with
  | .fib | .spd | .wg | .cl => false
  | .die => k == runnerDie r
  | _ => true

/-- Whether a row command in scope still holds translations of a context's ranges (R72). -/
def State.holdsRange (s : State) (sc : Scope) (r cx : Nat) (rs : List (BitVec 64 × Nat)) : Bool :=
  s.clusters.any fun k => (tinvCluster sc r k.1 || k.1 == runnerCluster r) && k.2.jobs.any fun j => j.ctx == cx && match j.kind with
    | .row _ _ _ => (j.reads ++ j.writes).any fun g => match g with
        | .virt _ start len => inTinv rs (start % 2 ^ 57) len
        | _ => false
    | _ => false

/-- TINV_COMPLETE (R72, R73). -/
def execTinvComplete (core slot lane : Nat) (s : State) : Host.Outcome State Fault Refusal :=
  .next (match s.waitAt core slot lane with
    | none => s
    | some (sp, b) => match b.wait with
      | .tinv sc rs len =>
        let cx := (s.recOf core sp.wg).ctx
        if s.holdsRange sc core cx rs then s
        else
          let s := { s with
            cores := s.cores.map fun (e : Nat × Core) => if tinvCore sc core e.1 then (e.1, { e.2 with tlb := dropLeaves cx rs e.2.tlb }) else e,
            clusters := s.clusters.map fun (e : Nat × Cluster) =>
              if tinvCluster sc core e.1 then (e.1, { e.2 with tlb := dropLeaves cx rs e.2.tlb }) else e,
            walkers := s.walkers.map fun (e : Nat × List WalkEnt) => if tinvWalker sc core e.1 then (e.1, dropWalks cx rs e.2) else e }
          s.onCore core fun c => c.release slot b.lanes len
      | _ => s)

/-- The code of a key slot's state (R350). -/
def KState.code : KState → Nat
  | .empty => 0
  | .active => 1
  | .staged => 2
  | .rekeying => 3

/-- The lowest block of a partition's pseudo-channels (R132). -/
def State.lowestBlock (s : State) (p : Nat) : Nat :=
  let bs := ((List.range 4096).map fun k => mkPa 0 0 0 (k / 256) (k % 256)).filter fun pa => (s.part p).pcg.getLsbD (homeBank pa)
  match bs with
  | [] => 0
  | b :: l => l.foldl min b / 2048

/-- `sys.rekey` on a slot (R132, R351): the status. -/
def State.rekey (s : State) (k : Nat) : State × Nat :=
  if k = 0 ∨ 64 ≤ k then (s, 2)
  else if (s.key k).st ≠ .staged then (s, 1)
  else (s.setKey k { s.key k with st := .rekeying, cursor := s.lowestBlock (s.key k).part }, 0)

/-- Statuses of a system word written to its lanes, one after another (R350, R351). -/
def State.statuses {α : Type} (x : Iss) (d : BitVec 8) (f : State → α → State × Nat) (s : State) (ps : List (Nat × α)) : State :=
  let hz := (s.ctx x.cx).hz
  ps.foldl (fun s p =>
    let (s, st) := f s p.2
    s.onCore x.core fun c => c.addResult x hz p.1 (.word d (.good (BitVec.ofNat 32 st)))) s

/-- An n32 operand of a lane; `bit` is its bit of R428. -/
def wordAt (a : Src) (bit : Nat) (x : Iss) (s : State) (i : Nat) : State × Except Failure Nat :=
  (s, match srcVal (s.core x.core) x a i with
    | none => .error ⟨5, bit, 0⟩
    | some v => .ok v.toNat)

/-- R351. -/
def execSysRekey (h : Hdr) (o : Opnds) (m : BitVec 16) (s : State) : Host.Outcome State Fault Refusal :=
  .next (s.issue (.sysRekey h o m) fun x s => s.guardPriv x fun x s =>
    s.allOrTrap x (wordAt o.a 1 x) (State.statuses x o.d State.rekey))

/-- The blob of a lane's `sys.kslot` (R350), and its slot. -/
def kslotCheck (o : Opnds) (x : Iss) (s : State) (i : Nat) : State × Except Failure (Nat × List LWord) :=
  match srcVal64 (s.core x.core) x o.a i, srcVal (s.core x.core) x o.b i with
  | some va, some b => match s.viewEach x i va.toNat 16 with
    | (s, .error e) => (s, .error e)
    | (s, .ok ws) => (s, .ok (b.toNat, ws))
  | a, b => (s, .error ⟨5, (if a.isNone then 33 else 0) ||| (if b.isNone then 2 else 0), 0⟩)

/-- Installing or staging a key (R132, R350): the status. -/
def State.takeKey (s : State) (p : Nat) (stage : Bool) (e : Nat × List LWord) : State × Nat :=
  let k := e.1
  if k = 0 ∨ 64 ≤ k then (s, 2)
  else if (s.key k).st ≠ (if stage then .active else .empty) then (s, 1)
  else match cardNum e.2 with
    | none => (s, 3)
    | some n =>
      let id := BitVec.ofNat 32 n
      let sq := BitVec.ofNat 64 (nbits n 95 32)
      let wrapped := (List.range 40).map fun j => BitVec.ofNat 8 (nbits n (103 + 8 * j) (96 + 8 * j))
      match s.sessions.find? fun t => t.id == id with
      | none => (s, 3)
      | some t =>
        if nbits n 511 416 ≠ 0 ∨ t.seq.any (fun q => decide (sq.toNat ≤ q.toNat)) then (s, 3)
        else match keyUnwrap t.ktk wrapped with
          | none => (s, 3)
          | some key =>
            let s := { s with sessions := s.sessions.map fun (u : Session) => if u.id = id then { u with seq := some sq } else u }
            (if stage then s.setKey k { s.key k with st := .staged, next := key }
             else s.setKey k { s.key k with st := .active, key := key, part := p }, 0)

/-- Erasing a slot (R132, R350): the status. -/
def State.eraseKey (s : State) (k : Nat) : State × Nat :=
  if k = 0 ∨ 64 ≤ k then (s, 2)
  else if (s.key k).st ≠ .active then (s, 1)
  else (s.setKey k KeySlot.reset, 0)

/-- The state of a slot (R350). -/
def State.queryKey (s : State) (k : Nat) : State × Nat := (s, if k = 0 ∨ 64 ≤ k then 2 else (s.key k).st.code)

/-- R350. -/
def execSysKslotInstall (h : Hdr) (o : Opnds) (m : BitVec 16) (s : State) : Host.Outcome State Fault Refusal :=
  .next (s.issue (.sysKslotInstall h o m) fun x s => s.guardPriv x fun x s =>
    s.allOrTrap x (kslotCheck o x) (State.statuses x o.d fun s => s.takeKey (partOf x.cx) false))
def execSysKslotStage (h : Hdr) (o : Opnds) (m : BitVec 16) (s : State) : Host.Outcome State Fault Refusal :=
  .next (s.issue (.sysKslotStage h o m) fun x s => s.guardPriv x fun x s =>
    s.allOrTrap x (kslotCheck o x) (State.statuses x o.d fun s => s.takeKey (partOf x.cx) true))
def execSysKslotErase (h : Hdr) (o : Opnds) (m : BitVec 16) (s : State) : Host.Outcome State Fault Refusal :=
  .next (s.issue (.sysKslotErase h o m) fun x s => s.guardPriv x fun x s =>
    s.allOrTrap x (wordAt o.b 2 x) (State.statuses x o.d State.eraseKey))
def execSysKslotQuery (h : Hdr) (o : Opnds) (m : BitVec 16) (s : State) : Host.Outcome State Fault Refusal :=
  .next (s.issue (.sysKslotQuery h o m) fun x s => s.guardPriv x fun x s =>
    s.allOrTrap x (wordAt o.b 2 x) (State.statuses x o.d State.queryKey))

/-- Whether an operand is v0 itself (R352). -/
def isV0 (a : Src) : Bool :=
  match a with
  | .reg 0 _ => true
  | _ => false

/-- The slice length and the context of a lane's `sys.slice` (R352). -/
def sliceCheck (o : Opnds) (x : Iss) (s : State) (i : Nat) : State × Except Failure (Nat × Nat) :=
  (s, match srcVal (s.core x.core) x o.a i, srcVal (s.core x.core) x o.b i with
    | some a, some b => if a = 0 ∨ 16 ≤ b.toNat then .error ⟨11, 0, 0⟩ else .ok (a.toNat, b.toNat)
    | a, b => .error ⟨5, a.isNone.toNat + 2 * b.isNone.toNat, 0⟩)

/-- R352. -/
def execSysSlice (h : Hdr) (o : Opnds) (m : BitVec 16) (s : State) : Host.Outcome State Fault Refusal :=
  .next (s.issue (.sysSlice h o m) fun x s =>
    if isV0 o.a && isV0 o.b then (if x.gt = 0 then s.complete x x.lanes else (s.complete x x.lanes).giveUp x.cx)
    else s.guardPriv x fun x s => s.allOrTrap x (sliceCheck o x) fun s ps =>
      ps.foldl (fun s p => s.onCtx (16 * partOf x.cx + p.2.2) fun c => { c with slen := some p.2.1 }) s)

end Sys2Proof.Machine
end

