-- ==== Sys2Proof/Machine/Targets.lean ====
section
/-!
DEFINITION. Render targets and their methods (spec/15_graphics.md R361 to R367, R372, R377): descriptors, the places of samples,
method slots, and the application of a post or a `tmeth` to a pixel.
-/

namespace Sys2Proof.Machine

/-- A target descriptor (R361): none where it holds reserved bits or a misaligned base. -/
def parseTarget (n : Nat) : Option Target :=
  let pb := (List.range 6).map fun k => nbits n (127 + 64 * k) (64 + 64 * k)
  if nbits n 1023 490 ≠ 0 ∨ pb.any (fun b => b % 2048 != 0) ∨ nbits n 63 0 % 512 ≠ 0 then none
  else some { cfmt := nbits n 489 482, lsmp := nbits n 481 480, h := nbits n 479 464 + 1, w := nbits n 463 448 + 1, pb := pb,
              mtab := nbits n 63 0 }

/-- The samples of a pixel (R361). -/
def Target.samples (t : Target) : Nat := 2 ^ t.lsmp

/-- Whether a plane is present (R361). -/
def Target.has (t : Target) (pl : Nat) : Bool := t.pb.getD pl 0 != 0

/-- The format code of a colour plane (R361). -/
def Target.fmtOf (t : Target) (pl : Nat) : Nat := t.cfmt / 4 ^ pl % 4

/-- E of a plane (R362). -/
def Target.elemBytes (t : Target) (pl : Nat) : Nat :=
  if pl = 4 then 4
  else if pl = 5 then 1
  else match t.fmtOf pl with
    | 0 => 16
    | 1 => 8
    | _ => 4

/-- The address of a sample (R363). -/
def Target.sampleVa (t : Target) (pl x y k : Nat) : Nat :=
  let se := t.samples * t.elemBytes pl
  let p := (2048 / se).log2
  let bw := 2 ^ ((p + 1) / 2)
  let bh := 2 ^ (p / 2)
  let tile := y / 64 * ceilDiv t.w 64 + x / 64
  let lx := x % 64
  let ly := y % 64
  (t.pb.getD pl 0 + tile * 4096 * se + (ly / bh * (64 / bw) + lx / bw) * 2048 + (ly % bh * bw + lx % bw) * se + k * t.elemBytes pl) %
    2 ^ 64

/-- An encoding of one format converted to another under rn (R362), a NaN becoming the canonical one. -/
def fmtConvert (f g : Fmt) (x : Nat) : Nat :=
  match f.decode x with
  | .nan _ => g.nanBits
  | .inf n => g.signed n g.infBits
  | .fin n m e => (g.round .rn false false (exactOf n m e)).1

/-- The n8 unorm code of an FP32 value (R362). -/
def unormOf (v : Word) : Nat :=
  match f32Val v with
  | .nan _ => 0
  | .inf n => if n then 0 else 255
  | .fin n m e =>
    if n || m == 0 then 0
    else if exactLt (exactOf false 1 0) (exactOf false m e) then 255
    else ((exactOf false (255 * m) e).toInt .rn).1.toNat

/-- A sub-word of words, poison where its word is. -/
def partOfWords (ws : List LWord) (bits k : Nat) : Option Nat :=
  match ws.getD (bits * k / 32) .poison with
  | .poison => none
  | v => some (v.val.toNat >>> (bits * k % 32) % 2 ^ bits)

/-- The bits of one channel of a plane (R362). -/
def Target.codeBits (t : Target) (pl : Nat) : Nat :=
  if pl = 4 then 32
  else if pl = 5 then 8
  else match t.fmtOf pl with
    | 0 => 32
    | 1 => 16
    | _ => 8

/-- The codes of a sample's channels: four of a colour, one of depth or stencil; none where the stored word is poison. -/
def Target.codesOf (t : Target) (pl : Nat) (ws : List LWord) : List (Option Nat) :=
  (List.range (if pl < 4 then 4 else 1)).map (partOfWords ws (t.codeBits pl))

/-- A channel's code as it is read (R362): FP32 of a colour or of depth, the number of a stencil. -/
def Target.decodeCode (t : Target) (pl x : Nat) : Word :=
  if 4 ≤ pl then BitVec.ofNat 32 x
  else match t.fmtOf pl with
    | 0 => BitVec.ofNat 32 x
    | 1 => BitVec.ofNat 32 (fmtConvert .f16 .f32 x)
    | 2 => f32Ratio x 255
    | _ => BitVec.ofNat 32 (fmtConvert .e5m2 .f32 x)

/-- A channel's code as it is written (R362). -/
def Target.encodeCode (t : Target) (pl : Nat) (v : Word) : Nat :=
  if pl = 4 then v.toNat
  else if pl = 5 then v.toNat % 256
  else match t.fmtOf pl with
    | 0 => v.toNat
    | 1 => fmtConvert .f32 .f16 v.toNat
    | 2 => unormOf v
    | _ => fmtConvert .f32 .e5m2 v.toNat

/-- The channels of a sample as they are read (R362). -/
def Target.decodeElem (t : Target) (pl : Nat) (ws : List LWord) : List (Option Word) :=
  (t.codesOf pl ws).map fun x => x.map (t.decodeCode pl)

/-- Codes joined into words, each of some bits; a word with a code that is none is poison. -/
def joinCodes (bits n : Nat) (cs : List (Option Nat)) : List LWord :=
  let per := 32 / bits
  (List.range n).map fun w =>
    let l := (cs.drop (per * w)).take per
    if l.any Option.isNone then .poison
    else .good (BitVec.ofNat 32 (l.zipIdx.foldl (fun a e => a + e.1.getD 0 * 2 ^ (bits * e.2)) 0))

/-- The channels of a sample as they are stored (R362). -/
def Target.encodeElem (t : Target) (pl : Nat) (cs : List (Option Word)) : List (Option Nat) := cs.map fun c => c.map (t.encodeCode pl)

/-- The die of a home bank's method unit (R14). -/
def bankDie (bank : Nat) : Nat := bank / 64

/-- A word of a plane read at its home by an agent with no view (R372, R377); with `take`, its owner gives it up first. A word
that cannot be reached is recorded and reads as poison. -/
def State.pixelWord (s : State) (die cx va : Nat) (take : Bool) : State × LWord :=
  match s.translateHw die cx va .read with
  | (s, .error c) => (s.note cx 3 32 c va 0, .poison)
  | (s, .ok (pa, l)) =>
    if inPlacePage l pa then (s, s.readInPlace pa)
    else if l.fv then
      let (s, ok) := s.ensureView (some cx) pa
      (s, if ok then s.l2Word (pa / 4) else .poison)
    else (if take then s.recallWord (pa / 4) else s).readHome (some cx) (s.ctx cx).ks l.sl pa

/-- The words of a sample. A stencil sample is a byte of a word. -/
def State.sampleWords (s : State) (die cx : Nat) (t : Target) (pl x y k : Nat) (take : Bool) : State × List LWord :=
  let va := t.sampleVa pl x y k
  if pl = 5 then
    let (s, v) := s.pixelWord die cx (va / 4 * 4) take
    (s, [extractBytes v (va % 4) 1 false])
  else (List.range (t.elemBytes pl / 4)).foldl (fun (acc : State × List LWord) j =>
    let (s, v) := acc.1.pixelWord die cx ((va + 4 * j) % 2 ^ 64) take
    (s, acc.2 ++ [v])) (s, [])

/-- The codes of a sample's channels (R362). -/
def State.sampleCodes (s : State) (die cx : Nat) (t : Target) (pl x y k : Nat) (take : Bool) : State × List (Option Nat) :=
  let (s, ws) := s.sampleWords die cx t pl x y k take
  (s, t.codesOf pl ws)

/-- A sample read (R362). -/
def State.readSample (s : State) (die cx : Nat) (t : Target) (pl x y k : Nat) (take : Bool) : State × List (Option Word) :=
  let (s, ws) := s.sampleWords die cx t pl x y k take
  (s, t.decodeElem pl ws)

/-- Bytes of a plane written at their home (R377); what cannot be reached is recorded and dropped. -/
def State.pixelWrite (s : State) (die cx va n : Nat) (v : LWord) : State :=
  match s.translateHw die cx va .write with
  | (s, .error c) => s.note cx 3 32 c va 0
  | (s, .ok (pa, l)) =>
    if inPlacePage l pa then s.writeInPlace pa n v
    else ((s.recallWord (pa / 4)).writeHome (some cx) (s.ctx cx).ks l.sl pa n v).1

/-- The codes of a sample's channels written. -/
def State.writeCodes (s : State) (die cx : Nat) (t : Target) (pl x y k : Nat) (cs : List (Option Nat)) : State :=
  let va := t.sampleVa pl x y k
  let ws := joinCodes (t.codeBits pl) (ceilDiv (t.elemBytes pl) 4) cs
  if pl = 5 then s.pixelWrite die cx va 1 (ws.getD 0 .poison)
  else ws.zipIdx.foldl (fun s e => s.pixelWrite die cx ((va + 4 * e.2) % 2 ^ 64) 4 e.1) s

/-- A sample written (R362). -/
def State.writeSample (s : State) (die cx : Nat) (t : Target) (pl x y k : Nat) (cs : List (Option Word)) : State :=
  s.writeCodes die cx t pl x y k (t.encodeElem pl cs)

/-- A method slot (R364): `w0` holds its `kf` bits. -/
structure MethodSlot where
  kind : Nat
  pl   : Nat
  w0   : Nat
  pv   : BitVec 64
  p1   : Nat
  p2   : Nat
  deriving DecidableEq, Repr

/-- The bits of word 0 that a kind uses (R365). -/
def kindBits (kind : Nat) : Nat :=
  match kind with
  | 1 => 0xF00
  | 2 => 0x3F0700
  | 3 => 0xF7FF7FF00
  | 5 => 0x700
  | 8 => 0xFF00
  | _ => 0

/-- A method slot (R364 to R366): none where it is malformed. -/
def parseMethod (t : Target) (n : Nat) : Option MethodSlot :=
  let w0 := nbits n 63 0
  let kind := nbits w0 3 0
  let pl := nbits w0 6 4
  let bits := kindBits kind
  let planeOk := match kind with
    | 1 => pl == 4
    | 2 => pl == 5
    | _ => decide (pl < 6)
  let paramOk := match kind with
    | 3 => decide (nbits w0 11 8 ≤ 9) && decide (nbits w0 15 12 ≤ 9) && decide (nbits w0 23 20 ≤ 9) && decide (nbits w0 27 24 ≤ 9) &&
        decide (nbits w0 18 16 ≤ 4) && decide (nbits w0 30 28 ≤ 4)
    | 8 => decide (13 ≤ nbits w0 15 8) && nbits n 127 64 % 4 == 0
    | _ => true
  if kind = 0 then some ⟨0, 0, 0, 0, 0, 0⟩
  else if 8 < kind ∨ nbits w0 63 40 ≠ 0 ∨ nbit w0 7 ∨ (w0 / 256 * 256) &&& (2 ^ 40 - 1 - bits) ≠ 0 ∨ !planeOk ∨ !t.has pl ∨ !paramOk then none
  else some ⟨kind, pl, w0, BitVec.ofNat 64 (nbits n 127 64), nbits n 191 128, nbits n 255 192⟩

/-- A target descriptor read for a context (R361); none where it cannot be read. -/
def State.readTarget (s : State) (die cx : Nat) (va : BitVec 64) : State × Option Target :=
  match s.readVas die cx va.toNat 32 with
  | (s, .error c) => (s.note cx 3 32 c va.toNat 0, none)
  | (s, .ok ws) => (s, (cardNum ws).bind parseTarget)

/-- A slot of a target's method table (R364). -/
def State.readSlot (s : State) (die cx : Nat) (t : Target) (k : Nat) : State × Option MethodSlot :=
  match s.readVas die cx (t.mtab + 32 * k) 8 with
  | (s, .error c) => (s.note cx 3 32 c (t.mtab + 32 * k) 0, none)
  | (s, .ok ws) => (s, (cardNum ws).bind (parseMethod t))

/-- The condition code of R247 for a `cmp` code of a method (R365). -/
def methodCmp (code : Nat) (a b : Word) : Bool :=
  match code with
  | 0 => false
  | 1 => (fCond 2 (f32Val a) (f32Val b)).1
  | 2 => (fCond 0 (f32Val a) (f32Val b)).1
  | 3 => (fCond 3 (f32Val a) (f32Val b)).1
  | 4 => (fCond 4 (f32Val a) (f32Val b)).1
  | 5 => (fCond 1 (f32Val a) (f32Val b)).1
  | 6 => (fCond 5 (f32Val a) (f32Val b)).1
  | _ => true

/-- The same on the numbers of a stencil (R365). -/
def stencilCmp (code a b : Nat) : Bool :=
  match code with
  | 0 => false
  | 1 => decide (a < b)
  | 2 => decide (a = b)
  | 3 => decide (a ≤ b)
  | 4 => decide (b < a)
  | 5 => decide (a ≠ b)
  | 6 => decide (b ≤ a)
  | _ => true

/-- The stencil operations (R365). -/
def stencilOp (op st ref : Nat) : Nat :=
  match op with
  | 0 => st
  | 1 => 0
  | 2 => ref
  | 3 => min 255 (st + 1)
  | 4 => st - 1
  | 5 => 255 - st
  | 6 => (st + 1) % 256
  | _ => (st + 255) % 256

/-- A stencil value after a test (R365). -/
def stencilNew (m : MethodSlot) (st : Nat) (t : Bool) : Nat :=
  let ref := nbits m.p1 7 0
  let wmask := nbits m.p1 23 16
  let r := stencilOp (if t then nbits m.w0 21 19 else nbits m.w0 18 16) st ref
  (st &&& (255 - wmask)) ||| (r &&& wmask)

/-- A blend factor of channel c (R366). -/
def blendFactor (code c : Nat) (s d : List (Option Word)) : Option Word :=
  let inv (v : Option Word) : Option Word := v.map fun w => f32Sub 0x3F800000 w
  match code with
  | 0 => some 0
  | 1 => some 0x3F800000
  | 2 => s.getD c none
  | 3 => inv (s.getD c none)
  | 4 => s.getD 3 none
  | 5 => inv (s.getD 3 none)
  | 6 => d.getD c none
  | 7 => inv (d.getD c none)
  | 8 => d.getD 3 none
  | _ => inv (d.getD 3 none)

/-- A blend operation on one channel (R366). -/
def blendChannel (op fs fd c : Nat) (s d : List (Option Word)) : Option Word :=
  match s.getD c none, d.getD c none, blendFactor fs c s d, blendFactor fd c s d with
  | some a, some b, f, g => match op with
    | 3 => some (BitVec.ofNat 32 (fMinMax .f32 false true a.toNat b.toNat).1)
    | 4 => some (BitVec.ofNat 32 (fMinMax .f32 true true a.toNat b.toNat).1)
    | op => match f, g with
      | some f, some g =>
        let u := f32Mul a f
        let v := f32Mul b g
        some (match op with
          | 0 => f32Add u v
          | 1 => f32Sub u v
          | _ => f32Sub v u)
      | _, _ => none
  | _, _, _, _ => none

/-- The channels that a method computes, each as a value to store, or none where the stored code is kept (R365, R366). -/
abbrev Channels := List (Option (Option Word))

/-- BLEND (R366): a channel whose `wm` bit is 0 keeps its stored value. -/
def blend (m : MethodSlot) (s d : List (Option Word)) : Channels :=
  (List.range 4).map fun c =>
    if !nbit m.w0 (32 + c) then none
    else some (if c = 3 then blendChannel (nbits m.w0 30 28) (nbits m.w0 23 20) (nbits m.w0 27 24) c s d
      else blendChannel (nbits m.w0 18 16) (nbits m.w0 11 8) (nbits m.w0 15 12) c s d)

/-- TONE (R365): alpha is kept. -/
def tone (e : Word) (d : List (Option Word)) : Channels :=
  d.zipIdx.map fun v => if v.2 = 3 then none else some (v.1.map fun c =>
    let t := f32Mul c e
    f32Div t (f32Add 0x3F800000 t))

/-- The codes of a sample after a method: those of the channels it computes, and the stored ones of the others. -/
def Target.changed (t : Target) (pl : Nat) (old : List (Option Nat)) (new : Channels) : List (Option Nat) :=
  (old.zip new).map fun e => match e.2 with
    | none => e.1
    | some v => v.map (t.encodeCode pl)

/-- The value that CLEAR stores (R365). -/
def clearValue (m : MethodSlot) : List (Option Word) :=
  if m.pl = 4 then [some (BitVec.ofNat 32 m.p1)]
  else if m.pl = 5 then [some (BitVec.ofNat 32 (m.p1 % 256))]
  else [some (BitVec.ofNat 32 m.p1), some (BitVec.ofNat 32 (m.p1 / 2 ^ 32)), some (BitVec.ofNat 32 m.p2), some (BitVec.ofNat 32 (m.p2 / 2 ^ 32))]

/-- The average of samples, channel by channel (R373 line 7): sums ascending, then times 1/S. -/
def average (vs : List (List (Option Word))) (n lg : Nat) : List (Option Word) :=
  (List.range n).map fun c =>
    let l := vs.map fun v => v.getD c none
    match l with
    | [] => none
    | v :: l => (l.foldl (fun a b => match a, b with
        | some a, some b => some (f32Add a b)
        | _, _ => none) v).map fun w => f32Mul w (BitVec.ofNat 32 ((127 - lg) * 2 ^ 23))

/-- An application (R372): what is applied to which pixel. -/
structure Appl where
  bank   : Nat
  post   : Post
  fromTk : Bool
  deriving DecidableEq, Repr

def Appl.die (a : Appl) : Nat := bankDie a.bank
def Appl.cx (a : Appl) : Nat := a.post.tk.ctx
def Appl.px (a : Appl) : Nat := a.post.tk.px
def Appl.py (a : Appl) : Nat := a.post.tk.py

/-- The least depth bound that a region's stored depths allow (R360): their maximum; none where one is a NaN or poison. -/
def State.regionBound (s : State) (die cx : Nat) (t : Target) (rx ry : Nat) : State × Option Word :=
  let cells := (List.range 64).filterMap fun i =>
    let x := 8 * rx + i % 8
    let y := 8 * ry + i / 8
    if x < t.w ∧ y < t.h then some (x, y) else none
  let vs := cells.flatMap fun c => (List.range t.samples).map fun k => (c.1, c.2, k)
  vs.foldl (fun (acc : State × Option Word) v =>
    let (s, d) := acc.1.readSample die cx t 4 v.1 v.2.1 v.2.2 false
    (s, match acc.2, d.getD 0 none with
      | some m, some w => if (f32Val w).isNan then none else some (if f32Lt m w then w else m)
      | _, _ => none)) (s, some 0xFF800000)

/-- The die whose front owns a pixel's screen tile (R359). -/
def frontOf (x y : Nat) : Nat := (x / 64 + 3 * (y / 64)) % 8

/-- The bound of a pixel's region of a target after its depth plane was written (R360), kept by the tile's front. -/
def State.updateBound (s : State) (a : Appl) (va : BitVec 64) (t : Target) : State :=
  let (s, b) := s.regionBound a.die a.cx t (a.px / 8) (a.py / 8)
  let die := frontOf a.px a.py
  let f := s.front die a.cx
  let rest := f.zbs.filter fun z => !(z.target == va && z.rx == a.px / 8 && z.ry == a.py / 8)
  s.setFront die a.cx { f with zbs := match b with
    | some w => rest ++ [⟨va, a.px / 8, a.py / 8, w⟩]
    | none => rest }

/-- DEPTH on a sample (R365): whether it stays alive. A test against poison has a free outcome (log entry 8). -/
def State.depthSample (s : State) (a : Appl) (t : Target) (m : MethodSlot) (k : Nat) : State × Bool :=
  let (s, d) := s.readSample a.die a.cx t 4 a.px a.py k true
  let new := a.post.depth.val
  let (s, ok) : State × Bool := match d.getD 0 none with
    | some st => (s, methodCmp (nbits m.w0 10 8) new st)
    | none =>
      let (v, s) := s.fresh
      (s, v.getLsbD 0)
  (if ok && nbit m.w0 11 then s.writeSample a.die a.cx t 4 a.px a.py k [some new] else s, ok)

/-- STENCIL on a sample (R365, R372): whether it stays alive. -/
def State.stencilSample (s : State) (a : Appl) (t : Target) (m : MethodSlot) (k : Nat) : State × Bool :=
  let (s, d) := s.readSample a.die a.cx t 5 a.px a.py k true
  match d.getD 0 none with
  | some st =>
    let rmask := nbits m.p1 15 8
    let ok := stencilCmp (nbits m.w0 10 8) (nbits m.p1 7 0 &&& rmask) (st.toNat &&& rmask)
    (s.writeSample a.die a.cx t 5 a.px a.py k [some (BitVec.ofNat 32 (stencilNew m st.toNat ok))], ok)
  | none =>
    let (v, s) := s.fresh
    (s.writeSample a.die a.cx t 5 a.px a.py k [none], v.getLsbD 0)

/-- BLEND and TONE on a sample (R365, R366): the channels that the method keeps hold the bits they held. Of a depth or stencil sample, for
which the rules give no result, what is stored is a free value (log entry 79). -/
def State.colourSample (s : State) (a : Appl) (t : Target) (m : MethodSlot) (k : Nat) : State :=
  let (s, old) := s.sampleCodes a.die a.cx t m.pl a.px a.py k true
  let d := old.map fun x => x.map (t.decodeCode m.pl)
  let src := a.post.colour.map fun v => if v.isPoison then none else some v.val
  let (s, new) : State × Channels :=
    if 4 ≤ m.pl then
      let (v, s) := s.fresh
      (s, [some (some v)])
    else (s, if m.kind = 3 then blend m src d else tone (BitVec.ofNat 32 m.p1) d)
  s.writeCodes a.die a.cx t m.pl a.px a.py k (t.changed m.pl old new)

/-- A method on one alive sample (R365): whether it stays alive. -/
def State.methodSample (s : State) (a : Appl) (t : Target) (m : MethodSlot) (k : Nat) : State × Bool :=
  match m.kind with
  | 1 => s.depthSample a t m k
  | 2 => s.stencilSample a t m k
  | 4 => (s.writeSample a.die a.cx t m.pl a.px a.py k (clearValue m), true)
  | _ => (s.colourSample a t m k, true)

/-- The alive samples of a pixel, in ascending order. -/
def aliveList (t : Target) (alive : BitVec 8) : List Nat := (List.range t.samples).filter alive.getLsbD

/-- What RESOLVE stores (R372 line 5): the average of a colour or depth plane in a plane of its class. For the other pairs of planes the
rules give no average, and it is a free value (log entry 79). -/
def State.resolved (s : State) (vs : List (List (Option Word))) (pl dp lg : Nat) : State × List (Option Word) :=
  if pl < 4 ∧ dp < 4 then (s, average vs 4 lg)
  else if pl = 4 ∧ dp = 4 then (s, average vs 1 lg)
  else
    let (s, ws) := s.freshGood (if dp < 4 then 4 else 1)
    (s, ws.map fun w => some w.val)

/-- RESOLVE (R372 lines 4 and 5). A destination that cannot be read, lacks the plane or the pixel takes nothing. -/
def State.resolve (s : State) (a : Appl) (t : Target) (m : MethodSlot) : State :=
  let dp := nbits m.w0 10 8
  let (s, vs) := (List.range t.samples).foldl (fun (acc : State × List (List (Option Word))) k =>
    let (s, v) := acc.1.readSample a.die a.cx t m.pl a.px a.py k true
    (s, acc.2 ++ [v])) (s, [])
  match s.readTarget a.die a.cx m.pv with
  | (s, none) => s
  | (s, some d) =>
    if d.has dp && decide (a.px < d.w) && decide (a.py < d.h) then
      let (s, cs) := s.resolved vs m.pl dp t.lsmp
      let s := s.writeSample a.die a.cx d dp a.px a.py 0 cs
      if dp = 4 then s.updateBound a m.pv d else s
    else s

/-- The first rows of a PROG method's lanes (R367). -/
def progEntry (s : State) (a : Appl) (t : Target) (m : MethodSlot) (alive : BitVec 8) : State × List (List LWord) :=
  let word (v : Option Word) : LWord := match v with
    | some w => .good w
    | none => .poison
  (List.range t.samples).foldl (fun (acc : State × List (List LWord)) k =>
    let (s, d) := acc.1.readSample a.die a.cx t m.pl a.px a.py k true
    let stored := if m.pl < 4 then d.map word else [word (d.getD 0 none), .good 0, .good 0, .good 0]
    let v1 : Word := if alive.getLsbD k then 3 else 1
    let xy := BitVec.ofNat 32 (a.px + a.py * 65536)
    let key := BitVec.ofNat 32 (if a.fromTk then a.post.tk.key else 0)
    let col := (List.range 4).map fun c => a.post.colour.getD c (.good 0)
    (s, acc.2 ++ [[.good v1] ++ col ++ [a.post.depth] ++ stored ++ [.good xy, .good key, .good (BitVec.ofNat 32 k)]])) (s, [])

/-- A PROG method starts on its method unit (R367), which runs one at a time; none while it cannot. -/
def State.startProg (s : State) (a : Appl) (t : Target) (m : MethodSlot) (slot : Nat) (alive : BitVec 8) : Option State :=
  let rn := 0xA00 + a.bank
  if !(s.core rn).wgs.isEmpty then none
  else
    let id := s.nextSeq
    let (s, vals) := progEntry { s with nextSeq := id + 1 } a t m alive
    let r : Record := { (default : Record) with
      kind := 1, frm := nbits m.w0 15 8, cnt := t.samples - 1, code := m.pv, ctx := a.cx, lseq := a.post.tk.lseq,
      wid := a.post.tk.wid, unit := some id }
    match (s.core rn).place false r with
    | none => none
    | some p =>
      let s := s.startWg rn r p
      let base := (p.spots.head?.map Prod.snd).getD 0
      let s := s.onCore rn fun c => vals.zipIdx.foldl (fun c e =>
        e.1.zipIdx.foldl (fun c v => c.setRow (base + 1 + v.2) e.2 v.1) c) c
      some { s with progs := s.progs ++ [{ id := id, unit := a.bank, post := a.post, fromTk := a.fromTk, slot := slot, alive := alive,
                                           ret := [], ended := false, trapped := false, img := [] }] }

/-- The rest of an application's slots (R372): false where a PROG method is under way and the application waits for its return. While its
method unit is taken, a PROG slot waits. -/
def State.runSlots (s : State) (a : Appl) (t : Target) : List Nat → BitVec 8 → State × Bool
  | [], _ => (s, true)
  | k :: ks, alive =>
    match s.readSlot a.die a.cx t k with
    | (s, none) => s.runSlots a t ks alive
    | (s, some m) =>
      if m.kind = 0 ∨ m.kind = 6 then s.runSlots a t ks alive
      else if m.kind = 5 then (if a.fromTk then s else s.resolve a t m).runSlots a t ks alive
      else if m.kind = 8 then match s.startProg a t m k alive with
        | some s => (s, false)
        | none => (s.wait, false)
      else
        let (s, alive') := (aliveList t alive).foldl (fun (acc : State × BitVec 8) i =>
          let (s, ok) := acc.1.methodSample a t m i
          (s, if ok then acc.2 else acc.2 &&& ~~~((1 : BitVec 8) <<< i))) (s, alive)
        let s := if m.pl = 4 then s.updateBound a a.post.tk.target t else s
        s.runSlots a t ks alive'

/-- The slots that a post selects, ascending (R372). -/
def Post.slotList (p : Post) : List Nat := (List.range 16).filter p.slots.getLsbD

/-- An application made from its first slot, or from the slots after a PROG method; counted when it is done (R372, R486). A post with mask
0 only advances the FIFO (R375). The records of faults it meets name the ticket's launch (R425). -/
def State.applyFrom (s : State) (a : Appl) (slots : List Nat) (alive : BitVec 8) : State × Bool :=
  let n := s.recq.length
  let count (s : State) : State := (s.setMreg a.bank { s.mreg a.bank with applied := (s.mreg a.bank).applied + 1 }).madeFor n
    a.post.tk.lseq a.post.tk.wid
  if a.post.mask = 0 then (count s, true)
  else match s.readTarget a.die a.cx a.post.tk.target with
    | (s, none) => (count s, true)
    | (s, some t) =>
      if t.w ≤ a.px ∨ t.h ≤ a.py then (count s, true)
      else match s.runSlots a t slots (alive &&& BitVec.ofNat 8 (2 ^ t.samples - 1)) with
        | (s, true) => (count s, true)
        | (s, false) => (s.madeFor n a.post.tk.lseq a.post.tk.wid, false)

/-- The home bank of a pixel (R363): that of its block in the first present plane that is mapped, else one of its front's die. -/
def State.pixelBank (s : State) (die cx : Nat) (t : Target) (x y : Nat) : State × Nat :=
  (List.range 6).foldr (fun pl (acc : State × Nat) =>
    if !t.has pl then acc
    else match acc.1.translateHw die cx (t.sampleVa pl x y 0) .read with
      | (s, .ok (pa, _)) => (s, homeBank pa)
      | (s, .error _) => (s, acc.2)) (s, 64 * frontOf x y)

/-- The physical words of a pixel, over its planes. -/
def State.pixelPas (s : State) (die cx : Nat) (t : Target) (x y : Nat) : State × List Nat :=
  let vas := ((List.range 6).filter t.has).flatMap fun pl => (List.range t.samples).flatMap fun k =>
    (List.range (ceilDiv (t.elemBytes pl) 4)).map fun j => t.sampleVa pl x y k / 4 * 4 + 4 * j
  vas.foldl (fun (acc : State × List Nat) va => match acc.1.translateHw die cx (va % 2 ^ 64) .read with
    | (s, .ok (pa, l)) => (s, if inPlacePage l pa then acc.2 else acc.2 ++ [pa / 4])
    | (s, .error _) => (s, acc.2)) (s, [])

/-- Whether a PROG method of a pixel is under way (R367, R372). -/
def State.pixelBusy (s : State) (cx : Nat) (target : BitVec 64) (x y : Nat) : Bool :=
  s.progs.any fun p => p.post.tk.ctx == cx && p.post.tk.target == target && p.post.tk.px == x && p.post.tk.py == y

/-- Whether an application must wait: another of its pixel is under way, its words are with the host or in an own mode (R115,
R118), or it needs a method unit that is busy. -/
def State.applWaits (s : State) (a : Appl) : Bool :=
  s.pixelBusy a.cx a.post.tk.target a.px a.py || a.post.mask != 0 &&
    match s.readTarget a.die a.cx a.post.tk.target with
    | (_, none) => false
    | (s, some t) =>
      if t.w ≤ a.px ∨ t.h ≤ a.py then false
      else
        let ms := a.post.slotList.filterMap fun k => (s.readSlot a.die a.cx t k).2
        let (s, ws) := s.pixelPas a.die a.cx t a.px a.py
        let (s, ds) : State × List Nat := match ms.find? fun m => !a.fromTk && m.kind == 5 with
          | some m => match s.readTarget a.die a.cx m.pv with
            | (s, some d) => s.pixelPas a.die a.cx d a.px a.py
            | (s, none) => (s, [])
          | none => (s, [])
        (ms.any fun m => m.kind == 8) && !(s.core (0xA00 + a.bank)).wgs.isEmpty || (ws ++ ds).any s.registerWaits

/-- A pixel's FIFO. -/
def State.fifoOf (s : State) (cx : Nat) (target : BitVec 64) (x y : Nat) : Option Fifo :=
  s.fifos.find? fun f => f.ctx == cx && f.target == target && f.px == x && f.py == y

/-- The head of a pixel's FIFO popped (R370); an empty FIFO is no longer listed. -/
def State.popFifo (s : State) (tk : Ticket) : State :=
  { s with fifos := s.fifos.filterMap fun (f : Fifo) =>
      if f.ctx = tk.ctx ∧ f.target = tk.target ∧ f.px = tk.px ∧ f.py = tk.py then
        (if f.tks.length ≤ 1 then none else some { f with tks := f.tks.drop 1 })
      else some f }

/-- A post applied to its pixel, whose head it answers; its ticket is popped with the application (R370, R372). -/
def State.applyPost (s : State) (a : Appl) : State :=
  match s.applyFrom a a.post.slotList a.post.mask with
  | (s, true) => s.popFifo a.post.tk
  | (s, false) => s

/-- A parked post of a bank whose key is at the head of its FIFO and which need not wait. -/
def State.readyParked (s : State) (bank : Nat) : Option Post :=
  s.parked.find? fun p => p.tk.bank == bank &&
    (match s.fifoOf p.tk.ctx p.tk.target p.tk.px p.tk.py with
      | some f => f.tks.head?.any fun t => t.key == p.tk.key
      | none => false) && !s.applWaits ⟨bank, p, true⟩

/-- The parked posts that have come to the head are applied (R370); the number bounds how many. -/
def State.drainParked (s : State) (bank : Nat) : Nat → State
  | 0 => s
  | n + 1 => match s.readyParked bank with
    | none => s
    | some p => ({ s with parked := s.parked.erase p }.applyPost ⟨bank, p, true⟩).drainParked bank n

def State.drainBank (s : State) (bank : Nat) : State := s.drainParked bank s.parked.length

end Sys2Proof.Machine
end

