-- ==== Sys2Proof/Machine/Raster.lean ====
section
/-!
DEFINITION. The raster fronts (spec/15_graphics.md R353 to R360, R368, R369, R378; spec/18_prog_fragments.md R405): primitive
order, clipping and coverage, tickets, fragment blocks and fence markers.
-/

namespace Sys2Proof.Machine

/-- A draw descriptor (R353): none where it holds a reserved value. -/
def parseDraw (va : BitVec 64) (n : Nat) : Option DrawDesc :=
  let d : DrawDesc :=
    { va := va, vp := (List.range 4).map fun k => BitVec.ofNat 32 (nbits n (287 + 32 * k) (256 + 32 * k)), cull := nbits n 214 213,
      dslot := nbits n 212 209, erej := nbit n 208, frm := nbits n 207 200, lfr := nbits n 199 196,
      fring := BitVec.ofNat 64 (nbits n 191 128), fcode := BitVec.ofNat 64 (nbits n 127 64), tgt := BitVec.ofNat 64 (nbits n 63 0) }
  if nbits n 1023 384 ≠ 0 ∨ nbits n 255 215 ≠ 0 ∨ nbits n 195 192 ≠ 0 ∨ d.cull = 3 ∨ 12 < d.lfr ∨ d.fring.toNat % 2048 ≠ 0 ∨
      d.fcode.toNat % 4 ≠ 0 ∨ d.tgt.toNat % 128 ≠ 0 then none
  else some d

/-- A vertex in clip coordinates. -/
structure Vert where
  x : Word
  y : Word
  z : Word
  w : Word
  deriving DecidableEq, Repr

/-- A vertex on the snapped grid, in 1/256 pixel, with its depth (R356). -/
structure Point where
  x : Int
  y : Int
  z : Word
  deriving DecidableEq, Repr

/-- Whether an FP32 word is below zero. -/
def f32Below (v : Word) : Bool := f32Lt v 0

/-- Whether an FP32 word is a finite number. -/
def f32Finite (v : Word) : Bool :=
  match f32Val v with
  | .fin _ _ _ => true
  | _ => false

/-- The distance of a vertex inside the clip plane of a number (R356): w + x, w − x, w + y, w − y, z, w − z. -/
def clipDist (k : Nat) (v : Vert) : Word :=
  match k with
  | 0 => f32Add v.w v.x
  | 1 => f32Sub v.w v.x
  | 2 => f32Add v.w v.y
  | 3 => f32Sub v.w v.y
  | 4 => v.z
  | _ => f32Sub v.w v.z

/-- The vertex on an edge at parameter t, in FP32 under rn (R356). -/
def lerpVert (t : Word) (a b : Vert) : Vert :=
  let f (x y : Word) : Word := f32Add x (f32Mul t (f32Sub y x))
  ⟨f a.x b.x, f a.y b.y, f a.z b.z, f a.w b.w⟩

/-- A polygon clipped by one plane, edge by edge (R356). -/
def clipEdges (k : Nat) : List (Vert × Vert) → List Vert
  | [] => []
  | (p, q) :: l =>
    let dp := clipDist k p
    let dq := clipDist k q
    let here : List Vert := if f32Below dp then [] else [p]
    let cut : List Vert :=
      if f32Below dp = f32Below dq then []
      else if f32Below dp then [lerpVert (f32Div dq (f32Sub dq dp)) q p]
      else [lerpVert (f32Div dp (f32Sub dp dq)) p q]
    here ++ cut ++ clipEdges k l

/-- The edges of a polygon. -/
def edgesOf {α : Type} (l : List α) : List (α × α) := l.zip (l.drop 1 ++ l.take 1)

/-- A primitive clipped by all planes (R356); fewer than three vertices are none. -/
def clipPoly (vs : List Vert) : List Vert :=
  (List.range 6).foldl (fun l k =>
    let r := clipEdges k (edgesOf l)
    if r.length < 3 then [] else r) vs

/-- An FP32 coordinate snapped to 1/256 pixel, rn (R356). -/
def snap (v : Word) : Option Int :=
  match f32Val v with
  | .fin n m e => some ((exactOf n m (e + 8)).toInt .rn).1
  | _ => none

/-- A clipped vertex on the screen (R356). -/
def toScreen (vp : List Word) (v : Vert) : Option Point :=
  if f32Below v.w || f32Val v.w == .fin false 0 (1 - Fmt.f32.bias - 23) || f32Val v.w == .fin true 0 (1 - Fmt.f32.bias - 23) then none
  else
    match snap (f32Add (f32Mul (vp.getD 0 0) (f32Div v.x v.w)) (vp.getD 2 0)),
        snap (f32Add (f32Mul (vp.getD 1 0) (f32Div v.y v.w)) (vp.getD 3 0)) with
    | some x, some y => some ⟨x, y, f32Div v.z v.w⟩
    | _, _ => none

/-- Twice the signed area of a triangle (R356, R357), exact. -/
def cross (a b p : Point) : Int := (a.x - p.x) * (b.y - p.y) - (b.x - p.x) * (a.y - p.y)

/-- The sample positions in 1/16 pixel (R357). -/
def samplePos (lg : Nat) : List (Nat × Nat) :=
  match lg with
  | 0 => [(8, 8)]
  | 1 => [(4, 4), (12, 12)]
  | 2 => [(6, 2), (14, 6), (2, 10), (10, 14)]
  | _ => [(9, 5), (7, 11), (13, 9), (5, 3), (3, 13), (1, 7), (11, 15), (15, 1)]

/-- Whether a point is covered by a polygon whose inside is positive (R357): an edge function of 0 only on a top or a left edge. -/
def covers (es : List (Point × Point)) (p : Point) : Bool :=
  es.all fun e =>
    let v := cross e.1 e.2 p
    let topLeft := (decide (e.2.y = e.1.y) && decide (e.1.x < e.2.x)) || decide (e.2.y < e.1.y)
    decide (0 < v) || (decide (v = 0) && topLeft)

/-- The coverage of a pixel (R357). -/
def coverOf (es : List (Point × Point)) (lg x y : Nat) : BitVec 8 :=
  (samplePos lg).zipIdx.foldl (fun (m : BitVec 8) e =>
    if covers es ⟨256 * x + 16 * e.1.1, 256 * y + 16 * e.1.2, 0⟩ then m ||| ((1 : BitVec 8) <<< e.2) else m) 0

/-- A primitive on the screen: its points, the polygon with its inside positive, and the triangles of its fan. -/
structure Shape where
  pts  : List Point
  es   : List (Point × Point)
  tris : List (Point × Point × Point)
  deriving DecidableEq, Repr

/-- A primitive clipped, placed and culled (R353, R356); none where it is discarded. -/
def shapeOf (d : DrawDesc) (vs : List LWord) : Option Shape :=
  let v (k : Nat) : Word := (vs.getD k .poison).val
  let verts : List Vert := (List.range 3).map fun k => ⟨v (4 * k), v (4 * k + 1), v (4 * k + 2), v (4 * k + 3)⟩
  if !(vs.all fun w => f32Finite w.val) then none
  else
    let poly := clipPoly verts
    let pts := poly.filterMap (toScreen d.vp)
    if pts.length < 3 ∨ pts.length ≠ poly.length then none
    else
      let o : Point := ⟨0, 0, 0⟩
      let area := ((edgesOf pts).map fun e => cross e.1 e.2 o).sum
      if area = 0 ∨ (d.cull = 1 ∧ area < 0) ∨ (d.cull = 2 ∧ 0 < area) then none
      else
        let ring := if 0 < area then pts else pts.reverse
        let es := (edgesOf ring).filter fun e => !(e.1.x == e.2.x && e.1.y == e.2.y)
        let tris := match pts with
          | [] => []
          | a :: l => (edgesOf l).dropLast.filterMap fun e => if cross e.1 e.2 a = 0 then none else some (a, e.1, e.2)
        some ⟨pts, es, tris⟩

/-- The triangle of a fan that holds a point, or the first (R358). -/
def Shape.triAt (g : Shape) (p : Point) : Option (Point × Point × Point) :=
  match g.tris.find? fun t =>
      let a := cross t.2.1 t.2.2 t.1
      [cross t.2.1 t.2.2 p, cross t.2.2 t.1 p, cross t.1 t.2.1 p].all fun e => decide (0 ≤ e * a) with
  | some t => some t
  | none => g.tris.head?

/-- An exact ratio as FP32 (R358). -/
def ratio (n d : Int) : Word := f32Ratio (if d < 0 then -n else n) d.natAbs

/-- b1, b2 and z of a pixel (R358). -/
def Shape.interp (g : Shape) (x y : Nat) : Word × Word × Word :=
  let c : Point := ⟨256 * x + 128, 256 * y + 128, 0⟩
  match g.triAt c with
  | none => (0, 0, 0)
  | some (v0, v1, v2) =>
    let a := cross v0 v1 v2
    let b1 := ratio (cross v2 v0 c) a
    let b2 := ratio (cross v0 v1 c) a
    (b1, b2, f32Add (f32Add v0.z (f32Mul b1 (f32Sub v1.z v0.z))) (f32Mul b2 (f32Sub v2.z v0.z)))

/-- The least depth over a primitive's vertices (R360). -/
def Shape.leastZ (g : Shape) : Word :=
  match g.pts with
  | [] => 0
  | p :: l => l.foldl (fun m q => if f32Lt q.z m then q.z else m) p.z

/-- Whether early rejection spares a region its tickets (R360). -/
def Front.rejects (f : Front) (d : DrawDesc) (g : Shape) (x y : Nat) : Bool :=
  d.erej && f.zbs.any fun z => z.target == d.tgt && z.rx == x / 8 && z.ry == y / 8 && !f32Lt g.leastZ z.zb

/-- The numbers from a coordinate of the grid to another, as pixels of an extent. -/
def pixelRange (cs : List Int) (n : Nat) : List Nat :=
  match cs with
  | [] => []
  | c :: l =>
    let lo := (l.foldl min c / 256).toNat
    let hi := l.foldl max c
    if hi < 0 then [] else (List.range n).filter fun k => decide (lo ≤ k) && decide (k ≤ (hi / 256).toNat)

/-- The tickets of a primitive at a front, in raster order (R357 to R360, R368, R405). -/
def State.ticketsOf (s : State) (die cx : Nat) (f : Front) (d : DrawDesc) (p : Prim) : State × List FrontOut :=
  match s.readTarget die cx d.tgt, shapeOf d p.vs with
  | (s, some t), some g =>
    let xs := pixelRange (g.pts.map (·.x)) t.w
    let ys := pixelRange (g.pts.map (·.y)) t.h
    let px := ys.flatMap fun y => xs.filterMap fun x =>
      if frontOf x y = die ∧ coverOf g.es t.lsmp x y ≠ 0 ∧ f.rejects d g x y = false then some (x, y) else none
    px.foldl (fun (acc : State × List FrontOut) e =>
      let (s, bank) := acc.1.pixelBank die cx t e.1 e.2
      let (b1, b2, z) := g.interp e.1 e.2
      let tk : Ticket := { ctx := cx, key := p.draw * 2 ^ 20 + p.idx, target := d.tgt, px := e.1, py := e.2,
                           cover := coverOf g.es t.lsmp e.1 e.2, z := z, bank := bank, seq := 0, gen := f.gen, lseq := p.lseq,
                           wid := p.wid }
      (s, acc.2 ++ [.frag ⟨tk, b1, b2, p.attr⟩])) (s, [])
  | (s, _), _ => (s, [])

/-- The number under which a front holds a record (R355). -/
def primKey (draw idx : Nat) : Nat := draw * 2 ^ 20 + idx

/-- The flags of a primitive record (R354). -/
def Prim.last (p : Prim) : Bool := p.dvp.getLsbD 0
def Prim.skip (p : Prim) : Bool := p.dvp.getLsbD 1
def Prim.fence (p : Prim) : Bool := p.dvp.getLsbD 2 && !p.skip

/-- A discarded primitive record (R355, R426); the front of die 0 writes its fault record. -/
def State.discardPrim (s : State) (die : Nat) (p : Prim) : State :=
  if die = 0 then s.noteWork p.ctx 23 (1 + primKey p.draw p.idx * 2 ^ 32) 0 (p.dvp.toNat / 128 * 128) p.lseq 0 p.wid else s

/-- Whether an arriving record repeats one or follows `last` (R355). -/
def Front.stale (f : Front) (p : Prim) : Bool :=
  (p.draw == f.draw && decide (p.idx < f.next)) || (SMap.find f.held (primKey p.draw p.idx)).isSome || f.done.contains p.draw ||
    f.held.any fun e => e.2.draw == p.draw && e.2.last && decide (e.2.idx < p.idx)

/-- The words of a primitive record (R354). -/
def Prim.words (p : Prim) : List LWord := p.vs ++ words64 p.dvp ++ words64 p.attr

/-- PRIMITIVE_ARRIVAL (R355, R384): the k-th record on its way reaches its front. -/
def execPrimitiveArrival (k : Nat) (s : State) : Host.Outcome State Fault Refusal :=
  .next (match s.prims[k]? with
    | none => s
    | some (die, p) =>
      let s := { s with prims := removeAt s.prims k }
      let f := s.front die p.ctx
      if f.stale p then s.discardPrim die p
      else
        let c := s.ctx p.ctx
        let q := c.queueLen
        let va := (c.queueBase + 4096 * q + die * 64 * q + 64 * (f.rung % q)) % 2 ^ 64
        let (s, ok) : State × Bool :=
          if (f.held.filter fun e => e.2.ring.isNone).length < 16 then (s, true)
          else
            let (s, ok) := s.ringPut p.ctx va p.words
            (s.setFront die p.ctx { s.front die p.ctx with rung := f.rung + 1 }, ok)
        let p := { p with ring := if (f.held.filter fun e => e.2.ring.isNone).length < 16 then none else some va }
        if ok then s.setFront die p.ctx { s.front die p.ctx with held := SMap.put f.held (primKey p.draw p.idx) p } else s)

/-- A record of a front's ring is read back from the queue area (R384); where that meets a fault, it is discarded. -/
def State.readPrim (s : State) (die : Nat) (p : Prim) : State × Option Prim :=
  match p.ring with
  | none => (s, some p)
  | some va =>
    let (s, ws) := s.readVas die p.ctx va 16
    match (match ws with
      | .ok ws => cardNum ws
      | .error _ => none) with
    | some n =>
      let vs := (List.range 12).map fun k => LWord.good (BitVec.ofNat 32 (n / 2 ^ (32 * k)))
      (s, some { p with vs := vs, dvp := BitVec.ofNat 64 (n / 2 ^ 384), attr := BitVec.ofNat 64 (n / 2 ^ 448), ring := none })
    | none =>
      let f := s.front die p.ctx
      ((s.setFront die p.ctx { f with held := SMap.erase f.held (primKey p.draw p.idx) }).noteWork p.ctx 33 24 va 0 p.lseq 0 p.wid, none)

/-- Whether a ticket of an earlier draw with the same number is unanswered (R355): it is in a FIFO, or a front has yet to send it. -/
def State.earlierTickets (s : State) (cx draw gen : Nat) : Bool :=
  let old (t : Ticket) : Bool := t.ctx == cx && t.key / 2 ^ 20 == draw && decide (t.gen < gen)
  (s.fifos.any fun f => f.tks.any old) || (List.range 8).any fun die => (s.front die cx).out.any fun o => match o with
    | .frag f => old f.tk
    | .fence _ => false

/-- A draw descriptor read when primitive 0 is processed (R355). -/
def State.readDraw (s : State) (die cx : Nat) (va : BitVec 64) : State × Option DrawDesc :=
  match s.readVas die cx va.toNat 32 with
  | (s, .error c) => (s.note cx 3 32 c va.toNat va.toNat, none)
  | (s, .ok ws) => (s, (cardNum ws).bind (parseDraw va))

/-- The fence of a primitive, made by the first front that meets it (R378). -/
def State.fenceFor (s : State) (cx : Nat) (d : DrawDesc) (p : Prim) (gen : Nat) : State × Nat :=
  let draw := gen * 4096 + p.draw
  match s.fences.find? fun f => f.ctx == cx && f.draw == draw && f.idx == p.idx with
  | some f => (s, f.id)
  | none =>
    let f : Fence := { id := s.nextSeq, ctx := cx, draw := draw, idx := p.idx, target := d.tgt, fslot := nbits p.dvp.toNat 6 3,
                       fronts := 0, banks := 0, waits := [] }
    ({ s with nextSeq := s.nextSeq + 1, fences := s.fences ++ [f] }, f.id)

/-- What a front makes of a primitive (R354, R378): tickets, a fence marker, or nothing. -/
def State.primOut (s : State) (die cx : Nat) (f : Front) (p : Prim) : State × List FrontOut :=
  match f.desc with
  | none => (s, [])
  | some d =>
    if p.skip then (s, [])
    else if p.fence then
      let (s, id) := s.fenceFor cx d p f.gen
      (s, [.fence id])
    else s.ticketsOf die cx f d p

/-- A front after a processed record (R355 item 2): the draw goes on, or is complete, and held records that follow `last` are
discarded. -/
def State.afterPrim (s : State) (die cx : Nat) (p : Prim) (out : List FrontOut) : State :=
  let f := s.front die cx
  if !p.last then s.setFront die cx { f with next := f.next + 1, out := out, held := SMap.erase f.held (primKey p.draw p.idx) }
  else
    let held := SMap.erase f.held (primKey p.draw p.idx)
    let late := held.filter fun e => e.2.draw == f.draw
    let done := (f.done ++ [f.draw]).filter (· != (f.draw + 1) % 4096)
    let s := s.setFront die cx { f with draw := (f.draw + 1) % 4096, next := 0, gen := f.gen + 1, done := done.drop (done.length - 2048),
                                        out := out, held := held.filter fun e => e.2.draw != f.draw }
    late.foldl (fun s e => s.discardPrim die e.2) s

/-- PRIMITIVE_PROCESS (R353 to R360): the next record of the current draw, once what the front made before has been sent. -/
def execPrimitiveProcess (die ctx : Nat) (s : State) : Host.Outcome State Fault Refusal :=
  .next (
    let f := s.front die ctx
    match SMap.find f.held (primKey f.draw f.next) with
    | none => s
    | some p =>
      if !s.running || !f.out.isEmpty || (f.next == 0 && (!f.block.isEmpty || s.earlierTickets ctx f.draw f.gen)) then s
      else
        let n := s.recq.length
        match s.readPrim die p with
        | (s, none) => s
        | (s, some p) =>
          let s := if f.next = 0 then
              let (s, d) := s.readDraw die ctx (BitVec.ofNat 64 (p.dvp.toNat / 128 * 128))
              s.setFront die ctx { s.front die ctx with desc := d }
            else s
          let (s, out) := s.primOut die ctx (s.front die ctx) p
          (s.afterPrim die ctx p out).madeFor n p.lseq p.wid)

/-- A ticket arrives at its bank's FIFO, and joins the front's open block (R369, R370). -/
def State.sendTicket (s : State) (die cx : Nat) (f : Front) (g : Frag) (rest : List FrontOut) : State :=
  let tk := { g.tk with seq := s.nextSeq }
  let fifos : List Fifo := match s.fifoOf cx tk.target tk.px tk.py with
    | some _ => s.fifos.map fun (q : Fifo) =>
        if q.ctx = cx ∧ q.target = tk.target ∧ q.px = tk.px ∧ q.py = tk.py then { q with tks := q.tks ++ [tk] } else q
    | none => s.fifos ++ [{ bank := tk.bank, ctx := cx, target := tk.target, px := tk.px, py := tk.py, tks := [tk] }]
  { s with nextSeq := s.nextSeq + 1, fifos := fifos }.setFront die cx { f with out := rest, block := f.block ++ [{ g with tk := tk }] }

/-- The outstanding tickets of a context's target in the tiles of a front (R359, R378). -/
def State.ticketsIn (s : State) (die cx : Nat) (target : BitVec 64) : List Nat :=
  s.fifos.flatMap fun f => if f.ctx = cx && f.target == target && frontOf f.px f.py == die then f.tks.map (·.seq) else []

/-- TICKET_ARRIVAL (R368, R370, R378): what the front has ready to send next. -/
def execTicketArrival (die ctx : Nat) (s : State) : Host.Outcome State Fault Refusal :=
  .next (
    let f := s.front die ctx
    match f.out with
    | [] => s
    | .frag g :: rest =>
      let n := ((s.fifoOf ctx g.tk.target g.tk.px g.tk.py).map fun q => q.tks.length).getD 0
      if 8 ≤ n ∨ 32 ≤ f.block.length then s else s.sendTicket die ctx f g rest
    | .fence id :: rest =>
      { s with fences := s.fences.map fun (x : Fence) => if x.id = id then
          { x with fronts := x.fronts ||| ((1 : BitVec 8) <<< die), waits := x.waits ++ s.ticketsIn die ctx x.target } else x }.setFront
        die ctx { f with out := rest })

/-- The words of a fragment block (R369). -/
def blockWords (d : DrawDesc) (l : List Frag) : List LWord :=
  words64 d.tgt ++ words64 d.va ++ List.replicate 12 (.good 0) ++ l.flatMap fun f =>
    [.good (BitVec.ofNat 32 f.tk.key), .good (BitVec.ofNat 32 (f.tk.px + f.tk.py * 65536)), .good (f.tk.cover.setWidth 32),
     .good f.tk.z, .good f.b1, .good f.b2] ++ words64 f.attr

/-- The state of a fragment ring: the next slot and those in use (R369). -/
def State.ringOf (s : State) (cx : Nat) (fring : BitVec 64) : Ring :=
  (s.rings.find? fun r => r.ctx == cx && r.fring == fring).getD ⟨cx, fring, 0, []⟩

/-- Whether a front has a further record of its block's draw ready to process (R405). A ticket that meets a full FIFO stalls the front, so
that no record is ready behind it (log entry 134). -/
def State.frontMore (s : State) (ctx : Nat) (f : Front) : Bool :=
  match f.out with
  | [] => f.next != 0 && (SMap.find f.held (primKey f.draw f.next)).isSome
  | .fence _ :: _ => true
  | .frag g :: _ => decide (((s.fifoOf ctx g.tk.target g.tk.px g.tk.py).map fun q => q.tks.length).getD 0 < 8)

/-- A fragment block written, and its record queued (R369); none where the front stalls. -/
def State.emitBlock (s : State) (die cx : Nat) (f : Front) (d : DrawDesc) : Option State :=
  let ring := s.ringOf cx d.fring
  let slot := ring.next % 2 ^ d.lfr
  let cls := s.clustersOf (partOf cx)
  match cls[f.turn % max 1 cls.length]? with
  | none => none
  | some cl =>
    if ring.busy.contains slot || !s.recordRoom cl cx then none
    else
      let va := (d.fring.toNat + 2048 * slot) % 2 ^ 64
      match s.writeVas die cx va (blockWords d f.block) with
      | (s, some c) =>
        let s := (s.note cx 3 32 c va d.va.toNat).setFront die cx { f with block := [] }
        some { s with parked := s.parked ++ f.block.map fun g => voidPost g.tk }
      | (s, none) =>
        let tk := (f.block.map (·.tk)).headD default
        let r : Record := { (default : Record) with
          kind := 1, frm := d.frm, cnt := f.block.length - 1, framep := BitVec.ofNat 64 (va + 1), code := d.fcode, ctx := cx,
          lseq := tk.lseq, wid := tk.wid, prog := true, tks := f.block.map (·.tk) }
        let s := s.setFront die cx { f with block := [], turn := f.turn + 1 }
        let ring := { ring with next := ring.next + 1, busy := ring.busy ++ [slot] }
        { s with rings := s.rings.filter (fun (r : Ring) => !(r.ctx == cx && r.fring == d.fring)) ++ [ring] }.queueRecord cl r

/-- FRAGMENT_BLOCK_EMIT (R369, R405). -/
def execFragmentBlockEmit (die ctx : Nat) (s : State) : Host.Outcome State Fault Refusal :=
  .next (
    let f := s.front die ctx
    match f.desc with
    | none => s
    | some d =>
      if !s.running || f.block.isEmpty || (decide (f.block.length < 32) && s.frontMore ctx f) then s
      else (s.emitBlock die ctx f d).getD s)

/-- FENCE_MARKER (R378): the marker reaches a bank behind the earlier tickets of every front. -/
def execFenceMarker (id bank : Nat) (s : State) : Host.Outcome State Fault Refusal :=
  .next (
    if 512 ≤ bank then s
    else { s with fences := s.fences.map fun (x : Fence) =>
      if x.id = id ∧ x.fronts = 0xFF then { x with banks := x.banks ||| ((1 : BitVec 512) <<< bank) } else x })

/-- FENCE_COMPLETE (R378, R89): every bank has applied the tickets before the marker; the BARRIER slot adds to its counter. -/
def execFenceComplete (id : Nat) (s : State) : Host.Outcome State Fault Refusal :=
  .next (match s.fences.find? fun f => f.id == id with
    | none => s
    | some f =>
      if f.banks ≠ BitVec.allOnes 512 ∨ s.fifos.any (fun q => q.tks.any fun t => f.waits.contains t.seq) then s
      else
        let s := { s with fences := s.fences.filter fun g => g.id != id }
        match s.readTarget 0 f.ctx f.target with
        | (s, none) => s
        | (s, some t) => match s.readSlot 0 f.ctx t f.fslot with
          | (s, some m) =>
            if m.kind = 6 then
              match s.counterAdd 0 f.ctx m.pv.toNat (m.p1 % 2 ^ 32) with
              | (s, some c) => s.note f.ctx 3 32 c m.pv.toNat 0
              | (s, none) => s
            else s
          | (s, none) => s)

end Sys2Proof.Machine
end

