-- ==== Sys2Proof/Machine/Graphics.lean ====
section
/-!
DEFINITION. `smp`, `fpost` and `tmeth`, the posts at their home banks, PROG methods, and the return trap of a unit
(spec/15_graphics.md R367 to R376, spec/14_engines.md R340, spec/24_faults_memory.md R454): majors 0x5D to 0x5F.
-/

namespace Sys2Proof.Machine

/-- A target that a word names (R373 lines 1 to 3): its VA and descriptor. -/
def targetCheck (o : Opnds) (b : Option DWord) (pd : Bool) (x : Iss) (s : State) (i : Nat) :
    State × Except Failure (BitVec 64 × Target × DWord) :=
  match srcVal64 (s.core x.core) x o.a i, b, pd with
  | some va, some b, false => match s.globalPlace x va.toNat 128 .read 3 with
    | (s, .error e) => (s, .error e)
    | (s, .ok pl) =>
      let (s, ws) := s.viewWords x i pl 32
      match cardNum ws with
      | none => (s, .error ⟨5, 64, 0⟩)
      | some n => match parseTarget n with
        | none => (s, .error ⟨11, 0, 0⟩)
        | some t => (s, .ok (va, t, b))
  | a, b, pd => (s, .error ⟨5, poisonInfo a.isNone b.isNone pd, 0⟩)

/-- The samples that `smp` reads: one, or all for the average (R373). -/
def smpSamples (t : Target) (sid : Nat) : List Nat := if sid < 8 then [sid] else List.range t.samples

/-- The pixel of a `smp` translated at its issue, sample by sample (R440). -/
def smpWalk (x : Iss) (t : Target) (b : DWord) (pl : Nat) (s : State) : List Nat → State × Except Failure Unit
  | [] => (s, .ok ())
  | k :: ks => match s.globalPlace x (t.sampleVa pl (nbits b.toNat 15 0) (nbits b.toNat 31 16) k) (min 4 (t.elemBytes pl)) .read 3 with
    | (s, .error e) => (s, .error e)
    | (s, .ok _) => smpWalk x t b pl s ks

/-- What a lane of `smp` gives (R373). -/
def smpCheck (o : Opnds) (m : BitVec 16) (x : Iss) (s : State) (i : Nat) : State × Except Failure (Target × DWord) :=
  let b := (srcVal (s.core x.core) x o.b i).map fun (v : Word) => v.setWidth 64
  let pl := xf m 2 0
  let sid := xf m 6 3
  match targetCheck o b false x s i with
  | (s, .error e) => (s, .error e)
  | (s, .ok (_, t, b)) =>
    if !t.has pl || (decide (t.samples ≤ sid) && sid != 8) || (sid == 8 && pl == 5) then (s, .error ⟨11, 0, 0⟩)
    else if t.w ≤ nbits b.toNat 15 0 ∨ t.h ≤ nbits b.toNat 31 16 then (s, .ok (t, b))
    else match smpWalk x t b pl s (smpSamples t sid) with
      | (s, .error e) => (s, .error e)
      | (s, .ok _) => (s, .ok (t, b))

/-- R373. -/
def execSmp (h : Hdr) (o : Opnds) (m : BitVec 16) (s : State) : Host.Outcome State Fault Refusal :=
  .next (s.issue (.smp h o m) fun x s => s.allOrTrap x (smpCheck o m x) fun s ps =>
    let hz := (s.ctx x.cx).hz
    s.onCore x.core fun c => ps.foldl (fun c p =>
      let k : OpKind := .smp p.2.1 (nbits p.2.2.toNat 15 0) (nbits p.2.2.toNat 31 16) (xf m 2 0) (xf m 6 3) ⟨x.base, o.d.toNat⟩
      (List.range 4).foldl (fun c j => c.markRow x hz p.1 (x.base + o.d.toNat + j)) (c.enqueue x p.1 k)) c)

/-- Whether an application to a pixel of a target is under way (R372). -/
def State.pixelHeld (s : State) (die cx : Nat) (t : Target) (x y : Nat) : Bool :=
  s.progs.any fun p => p.post.tk.ctx == cx && p.post.tk.px == x && p.post.tk.py == y &&
    (s.readTarget die cx p.post.tk.target).2 == some t

/-- `smp` performed (R373 lines 5 to 9, R374): every sample in one move, between applications to the pixel. -/
def State.performSmp (s : State) (r idx : Nat) (o : MemOp) (t : Target) (x y pl sid : Nat) (dst : Dest) : State :=
  let die := runnerDie r
  if t.w ≤ x ∨ t.h ≤ y then (s.dropOp r idx).sendResult r o dst (List.replicate 4 (LWord.good 0))
  else if s.pixelHeld die o.ctx t x y then s
  else
    let (s, vs) := (smpSamples t sid).foldl (fun (acc : State × List (List (Option Word))) k =>
      let (s, v) := acc.1.readSample die o.ctx t pl x y k false
      (s, acc.2 ++ [v])) (s, [])
    let v := if sid < 8 then vs.headD [] else average vs (if pl = 4 then 1 else 4) t.lsmp
    let ws : List LWord := v.map fun c => match c with
      | some w => .good w
      | none => .poison
    (s.dropOp r idx).sendResult r o dst ((ws ++ List.replicate 3 (LWord.good 0)).take 4)

/-- The post of a lane's `fpost` (R375), or its trap. -/
def fpostLane (o : Opnds) (m : BitVec 16) (s : State) (x : Iss) (i : Nat) : Except (Nat × Nat × Nat) Post :=
  let c := s.core x.core
  match ((c.spindle x.slot).bind fun sp => sp.fibre i).bind fun f => if f.answered then none else f.ticket with
  | none => .error (13, 0, 0)
  | some t =>
    if m.getLsbD 0 then .ok (voidPost t)
    else
      let col := (List.range 4).map fun k => c.reg x.base (o.d.toNat + k) i
      match srcVal c x o.a i, srcVal c x o.b i, col.any LWord.isPoison with
      | some a, some b, false =>
        if nbits b.toNat 31 24 ≠ 0 then .error (11, 0, 0)
        else .ok { tk := t, mask := t.cover &&& BitVec.ofNat 8 (nbits b.toNat 23 16), slots := b.setWidth 16, colour := col,
                   depth := if m.getLsbD 1 then .good a else .good t.z, refused := false }
      | a, b, p => .error (5, a.isNone.toNat + 2 * b.isNone.toNat + 8 * p.toNat, 0)

/-- `fpost` (R370, R375): failing lanes leave the batch with their traps, the others answer their tickets. -/
def fpostBody (o : Opnds) (m : BitVec 16) (x : Iss) (s : State) : State :=
  let n := (lanesOf x.gt).length
  if 64 < (s.core x.core).posts.length + n ∧ x.gt ≠ 0 then s.park x x.lanes (.blocked (.postRoom n))
  else
    let rs := (lanesOf x.gt).map fun i => (i, fpostLane o m s x i)
    let ok : List (Nat × Post) := rs.filterMap fun e => match e.2 with
      | .ok p => some (e.1, p)
      | .error _ => none
    let bad : List (Nat × Nat × Nat × Nat) := rs.filterMap fun e => match e.2 with
      | .ok _ => none
      | .error t => some (e.1, t)
    let s := s.onCore x.core fun c => { c with posts := c.posts ++ ok.map Prod.snd }.onSpindle x.slot fun (sp : Spindle) =>
      ok.foldl (fun (sp : Spindle) (p : Nat × Post) => sp.onFibre p.1 fun (f : Fibre) => { f with answered := true }) sp
    (s.trapEach x bad).complete x (x.lanes &&& ~~~maskOf (bad.map Prod.fst))

/-- R375. -/
def execFpost (h : Hdr) (o : Opnds) (m : BitVec 16) (s : State) : Host.Outcome State Fault Refusal :=
  .next (s.issue (.fpost h o m) (fpostBody o m))

/-- A rectangle clamped to its target (R376). -/
def clampRect (t : Target) (b : DWord) : DWord :=
  BitVec.ofNat 64 (nbits b.toNat 31 0 + min (nbits b.toNat 47 32) t.w * 2 ^ 32 + min (nbits b.toNat 63 48) t.h * 2 ^ 48)

/-- What a lane of `tmeth` gives (R376): the target's VA, the rectangle and the payload. -/
def tmethCheck (o : Opnds) (k : Nat) (x : Iss) (s : State) (i : Nat) :
    State × Except Failure (BitVec 64 × DWord × List LWord) :=
  let c := s.core x.core
  let pay := (List.range 4).map fun j => c.reg x.base (o.d.toNat + j) i
  match targetCheck o (srcVal64 c x o.b i) (pay.any LWord.isPoison) x s i with
  | (s, .error e) => (s, .error e)
  | (s, .ok (va, t, b)) => match s.globalPlace x (t.mtab + 32 * k) 32 .read 3 with
    | (s, .error e) => (s, .error e)
    | (s, .ok pl) =>
      let (s, ws) := s.viewWords x i pl 8
      match cardNum ws with
      | none => (s, .error ⟨5, 64, 0⟩)
      | some n => match parseMethod t n with
        | none => (s, .error ⟨10, va.toNat, 0⟩)
        | some sl => if sl.kind = 0 ∨ sl.kind = 6 then (s, .error ⟨10, va.toNat, 0⟩) else (s, .ok (va, clampRect t b, pay))

/-- R376. -/
def execTmeth (h : Hdr) (o : Opnds) (m : BitVec 16) (s : State) : Host.Outcome State Fault Refusal :=
  .next (s.issue (.tmeth h o m) fun x s => s.allOrTrap x (tmethCheck o (xf m 3 0) x) fun s ps =>
    s.onCore x.core fun c => ps.foldl (fun c p => c.enqueue x p.1 (.tmeth p.2.1 (xf m 3 0) p.2.2.1 p.2.2.2)) c)

/-- `tmeth` performed (R376): its pixels go to their homes, and count as stores of its fibre until they are applied. -/
def State.performTmeth (s : State) (r idx : Nat) (o : MemOp) (desc : BitVec 64) (slot : Nat) (rect : DWord) (pay : List LWord) : State :=
  let x0 := nbits rect.toNat 15 0
  let y0 := nbits rect.toNat 31 16
  let x1 := nbits rect.toNat 47 32
  let y1 := nbits rect.toNat 63 48
  let rcd := (((s.core r).wg o.wg).getD default).rcd
  let wid := ((((s.core r).spindle o.slot).bind fun sp => sp.fibre o.lane).map fun f => f.wid).getD rcd.wid
  let one (x y : Nat) : Tmeth :=
    let tk : Ticket := { ctx := o.ctx, key := 0, target := desc, px := x, py := y, cover := 0xFF, z := (pay.getD 0 .poison).val, bank := 0,
                         seq := 0, gen := 0, lseq := rcd.lseq, wid := wid }
    { core := r, fid := o.fid, wg := o.wg, busy := false,
      post := { tk := tk, mask := 0xFF, slots := (1 : BitVec 16) <<< slot, colour := pay, depth := pay.getD 0 .poison, refused := false } }
  { s.dropOp r idx with tmeths := s.tmeths ++
    (List.range (y1 - y0)).flatMap fun j => (List.range (x1 - x0)).map fun i => one (x0 + i) (y0 + j) }

/-- TMETH_APPLY (R372, R376): the k-th pixel on its way is applied at its home. -/
def execTmethApply (k : Nat) (s : State) : Host.Outcome State Fault Refusal :=
  .next (match s.tmeths[k]? with
    | none => s
    | some e =>
      let tk := e.post.tk
      let die := frontOf tk.px tk.py
      match s.readTarget die tk.ctx tk.target with
      | (s, none) => { s with tmeths := removeAt s.tmeths k }
      | (s, some t) =>
        let (s, bank) := s.pixelBank die tk.ctx t tk.px tk.py
        let a : Appl := ⟨bank, e.post, false⟩
        if e.busy || s.applWaits a then s
        else match s.applyFrom a e.post.slotList e.post.mask with
          | (s, true) => { s with tmeths := removeAt s.tmeths k }
          | (s, false) => { s with tmeths := setAt s.tmeths k { e with busy := true } })

/-- A post that its home has taken leaves the core's buffer (R370). -/
def State.takePost (s : State) (core k : Nat) : State := s.onCore core fun c => { c with posts := removeAt c.posts k }

/-- POST_ARRIVAL (R370): applied at the head, parked behind it, refused while the parking store is full, or discarded. -/
def execPostArrival (core k : Nat) (s : State) : Host.Outcome State Fault Refusal :=
  .next (match (s.core core).posts[k]? with
    | none => s
    | some p =>
      if p.refused then s
      else
        let t := p.tk
        match s.fifoOf t.ctx t.target t.px t.py with
        | none => (s.takePost core k).noteWork t.ctx 23 (2 + t.key * 2 ^ 32) 0 t.target.toNat t.lseq core t.wid
        | some f =>
          if !(f.tks.any fun u => u.key == t.key) then (s.takePost core k).noteWork t.ctx 23 (2 + t.key * 2 ^ 32) 0 t.target.toNat t.lseq core t.wid
          else if f.tks.head?.any fun u => u.key == t.key then
            let a : Appl := ⟨f.bank, p, true⟩
            if s.applWaits a then s else (s.takePost core k).applyPost a
          else if (s.parked.filter fun q => q.tk.bank == f.bank).length < 4096 then
            { s.takePost core k with parked := s.parked ++ [p] }
          else
            let s := s.onCore core fun c => { c with posts := setAt c.posts k { p with refused := true } }
            s.setMreg f.bank { s.mreg f.bank with refused := (s.mreg f.bank).refused + 1 })

/-- POST_RESEND (R370). -/
def execPostResend (core k : Nat) (s : State) : Host.Outcome State Fault Refusal :=
  .next (match (s.core core).posts[k]? with
    | none => s
    | some p => s.onCore core fun c => { c with posts := setAt c.posts k { p with refused := false } })

/-- The values that a PROG method left in a lane (R367): whether p1 is set, and v7 to v10. A poisoned v1 has a free p1 (log entry 8). -/
def State.progLane (s : State) (v : List LWord) : State × Bool × List (Option Word) :=
  let chan : List (Option Word) := (v.drop 1).map fun w => if w.isPoison then none else some w.val
  match v.getD 0 .poison with
  | .poison =>
    let (f, s) := s.fresh
    (s, f.getLsbD 0, chan)
  | w => (s, w.val.getLsbD 1, chan)

/-- What a PROG method leaves of its pixel (R367): planes written, samples killed. -/
def State.progWrite (s : State) (a : Appl) (t : Target) (pl : Nat) (p : Prog) : State × BitVec 8 :=
  (p.ret.filter fun e => decide (e.1 < t.samples)).foldl (fun (acc : State × BitVec 8) e =>
    let (s, keep, vs) := acc.1.progLane e.2
    if keep then (s.writeSample a.die a.cx t pl a.px a.py e.1 (if pl < 4 then vs else vs.take 1), acc.2)
    else (s, acc.2 &&& ~~~((1 : BitVec 8) <<< e.1))) (s, p.alive)

/-- An application whose PROG method has returned goes on with its later slots (R367); after a trap it is over (R454). -/
def State.progResume (s : State) (a : Appl) (p : Prog) : State × Bool :=
  if p.trapped then s.applyFrom a [] 0
  else match s.readTarget a.die a.cx a.post.tk.target with
    | (s, none) => s.applyFrom a [] 0
    | (s, some t) => match s.readSlot a.die a.cx t p.slot with
      | (s, none) => s.applyFrom a (p.post.slotList.filter (p.slot < ·)) p.alive
      | (s, some m) =>
        let (s, alive) := s.progWrite a t m.pl p
        let s := if m.pl = 4 then s.updateBound a a.post.tk.target t else s
        s.applyFrom a (p.post.slotList.filter (p.slot < ·)) alive

/-- PROG_METHOD_RETURN (R367, R454): the last fibre has ended, and the method unit finishes the application. -/
def execProgMethodReturn (id : Nat) (s : State) : Host.Outcome State Fault Refusal :=
  .next (match s.progs.find? fun p => p.id == id with
    | none => s
    | some p =>
      if !p.ended then s
      else
        let a : Appl := ⟨p.unit, p.post, p.fromTk⟩
        match { s with progs := s.progs.filter fun q => q.id != id }.progResume a p with
        | (s, false) => s
        | (s, true) =>
          if p.fromTk then s.popFifo p.post.tk
          else match s.tmeths.findIdx? fun e => e.busy && e.post == p.post with
            | some k => { s with tmeths := removeAt s.tmeths k }
            | none => s)

/-- The image of a spindle that leaves its unit (R340). -/
def imageOf (c : Core) (sp : Spindle) (f : Frame) : List LWord :=
  let head : List LWord := [.good sp.occupied, .good (BitVec.ofNat 32 (sp.seg + f.rows / 8 * 256))] ++ List.replicate 30 (.good 0)
  let pcs := (List.range 32).flatMap fun i => words64 (((sp.fibre i).map fun b => b.pc).getD 0)
  let rows := (List.range (f.rows - 1)).flatMap fun k => (List.range 32).map fun i => c.row (f.base + 1 + k) i
  head ++ pcs ++ rows

/-- The kind 2 record of a return trap (R340). -/
def returnRecord (r : Record) (sp : Spindle) (f : Frame) : Record :=
  { (default : Record) with
    kind := 2, code := (sp.at_ (lowestLane sp.occupied)).1, framep := if r.unit.isSome then 0 else r.framep, frm := f.rows - 1, cnt := 31,
    joinp := r.joinp, ctx := r.ctx, lseq := r.lseq, wid := r.wid, ordinal := r.ordinal, unit := r.unit }

/-- A unit's spindle leaves for a core (R340, R341, R367). A PROG method's image stays with its method unit (log entry 24). -/
def State.shipSpindle (s : State) (rn slot : Nat) (sp : Spindle) (f : Frame) (w : Workgroup) : State :=
  let cl := runnerCluster rn
  let img := imageOf (s.core rn) sp f
  let low := (sp.at_ (lowestLane sp.occupied)).1
  let (s, bad) : State × Option (Nat × Nat) := match w.rcd.unit with
    | some id =>
      let m := rn % 0x200
      ({ s with progs := s.progs.map fun (p : Prog) => if p.id = id then { p with img := img } else p }.setMreg m
        { s.mreg m with rtraps := (s.mreg m).rtraps + 1 }, none)
    | none => match s.writeVas (runnerDie rn) w.rcd.ctx w.rcd.framep.toNat img with
      | (s, some c) => (s, some (c, w.rcd.framep.toNat))
      | (s, none) => (s, none)
  match bad with
  | some (c, va) => s.deliver rn slot sp.occupied
      { kind := 32, info := BitVec.ofNat 64 c, addr := BitVec.ofNat 64 va, lanes := sp.occupied, batch := sp.occupied, pc := low, rpc := low,
        iw := [], recVa := none }
  | none =>
    let s := s.endRelease rn
    match s.queueRecord cl (returnRecord w.rcd sp f) with
    | none => s
    | some s =>
      let s := if w.rcd.unit.isSome then s else (s.nmDown w.rcd).countDown w.rcd
      s.freeWg rn sp.wg

/-- RETURN_TRAP (R340, R341, R454): once what the spindle has issued is done, it is shipped; one with a loop record or a deeper
frame is terminated. -/
def execReturnTrap (rn : Nat) (s : State) : Host.Outcome State Fault Refusal :=
  .next (
    let c := s.core rn
    match c.spindles with
    | [] => s
    | (slot, sp) :: _ =>
      match sp.batches.find? fun b => b.wait == .returnTrap, c.wg sp.wg, sp.frames.head? with
      | some b, some w, some f =>
        if !c.iq.isEmpty || !c.sbuf.isEmpty || !c.results.isEmpty || isCore rn then s
        else if !sp.loops.isEmpty || sp.frames.any (fun g => g.depth != 0) then
          let low := (sp.at_ (lowestLane b.lanes)).1
          s.deliver rn slot b.lanes { kind := 20, info := low, addr := 0, lanes := b.lanes, batch := b.lanes, pc := low, rpc := 0, iw := [],
                                      recVa := none }
        else if !s.recordRoom (runnerCluster rn) w.rcd.ctx then s
        else s.shipSpindle rn slot sp f w
      | _, _, _ => s)

end Sys2Proof.Machine
end

