-- ==== Sys2Proof/Machine/Rows.lean ====
section
/-!
DEFINITION. Row commands at the near-memory units (spec/05_registration.md R117, R118, spec/06_sealing.md R131 to R135,
spec/14_engines.md R337, R341, spec/24_faults_memory.md R453), and the moves of translation, sealing, re-keying and format views.
-/

namespace Sys2Proof.Machine

/-- A row command by its number: its cluster and its job. -/
def State.rowJob (s : State) (id : Nat) : Option (Nat × Job) :=
  s.clusters.findSome? fun k => (k.2.jobs.find? fun j => j.id == id && match j.kind with
    | .row _ _ _ => true
    | _ => false).map fun j => (k.1, j)

/-- The words of a block. -/
def blockWordNos (blk : Nat) : List Nat := (List.range 512).map (512 * blk + ·)

/-- The registered words of a block. -/
def State.blockRegs (s : State) (blk : Nat) : List (Nat × RState) := s.regst.filter fun e => e.1 / 512 == blk

/-- The blocks that a pair touches. -/
def RowPair.blocks (p : RowPair) : List Nat := p.dst / 2048 :: (p.src.toList.map (· / 2048))

/-- Whether two addresses lie in one stack and pseudo-channel (R336). -/
def sameChannel (a b : Nat) : Bool := paStack a == paStack b && paPc a == paPc b

/-- The check of a `rowcp` pair (R135, R453): a cause of refusal. -/
def State.copyPairCheck (s : State) (ks : Nat) (p : RowPair) (src : Nat) (md ms : Meta) : Option Nat :=
  if md.kslot ≠ ks ∨ ms.kslot ≠ ks then some 32
  else if ms.p then some 33
  else if md.x then some 34
  else if md.ver = 2 ^ 44 - 1 then some 35
  else if !sameChannel p.dst src then some 37
  else if ms.otag ≠ outerTag (s.keysFor ms.kslot ms.kgen (src / 2048)).2 (src / 2048) ms then some 38
  else none

/-- The check of a `rowzero` pair (R135, R453). -/
def State.zeroPairCheck (s : State) (ks : Nat) (md : Meta) : Option Nat :=
  let free := md.kslot != 0 && (s.key md.kslot).st == .empty
  if free then none
  else if md.x then some 34
  else if md.kslot = ks ∨ md.z then none
  else some 36

/-- A pair checked (R453): refused with a record, or passed. A block whose metadata row has failed is refused without one. -/
def State.checkPair (s : State) (cx : Nat) (p : RowPair) : State × RowPair :=
  let ks := (s.ctx cx).ks
  let refuse (s : State) (c : Nat) : State × RowPair := (s.note cx 3 38 c p.dva.toNat 0, { p with refused := true })
  match s.getMeta (p.dst / 2048) with
  | (s, none) => (s, { p with refused := true })
  | (s, some md) => match p.src with
    | none => match s.zeroPairCheck ks md with
      | some c => refuse s c
      | none => (s, p)
    | some src => match s.getMeta (src / 2048) with
      | (s, none) => (s, { p with refused := true })
      | (s, some ms) => match s.copyPairCheck ks p src md ms with
        | some 38 =>
          let s := (s.bumpLife 2 1).count (cntSeal (homeBank src) 2) 1
          refuse (s.putMeta (src / 2048) { ms with p := true }) 38
        | some c => refuse s c
        | none => (s, p)

/-- The L2 lines of a block invalidated without write-back. -/
def State.dropBlock (s : State) (blk : Nat) : State :=
  { s with l2 := s.l2.filter fun e => e.1 / 16 != blk }

/-- All pairs of a command checked, in order. -/
def State.checkPairs (s : State) (cx : Nat) : List RowPair → State × List RowPair
  | [] => (s, [])
  | p :: ps =>
    let (s, q) := s.checkPair cx p
    let (s, qs) := s.checkPairs cx ps
    (s, q :: qs)

/-- The pairs of a row command set. -/
def State.setPairs (s : State) (cl id : Nat) (own prepared : Bool) (ps : List RowPair) : State :=
  s.onJob cl id fun j => { j with status := .started, kind := .row own prepared ps }

/-- A line of a source row prepared (R117): words with U = 0 come back to L2, those with U = 1 are held. -/
def State.sourceLine (s : State) (line : Nat) : State := s.recallLine line fun _ => true

/-- A line of a destination row prepared (R117): registrations and held words are discarded, and owners drop to I. -/
def State.destLine (s : State) (line : Nat) : State :=
  (s.lineRegs line).foldl (fun s e =>
    let s := match e.2 with
      | .own o _ => s.ownerDrop o e.1
      | _ => s
    s.setRegAt e.1 none) s

/-- A line taken into own mode (R118): the values that owners hold come home, and every word is registered to the NMU. -/
def State.ownLine (s : State) (nmu id line : Nat) : State :=
  (List.range 32).foldl (fun s i =>
    let w := 32 * line + i
    let s := match s.regAt w with
      | none => s
      | some _ =>
        let (s, v) := s.takeOver w
        s.homePut w v
    s.setRegAt w (some (.ownMode nmu id))) s

/-- The steps of a pair's preparation (R117, R118). The lines of the source row are steps 0 to 15 and its write-back is step 16; the lines
of the destination row are steps 17 to 32, and, but in own mode, 33 to 48 take them out of L2. -/
def RowPair.steps (p : RowPair) (own : Bool) : List Nat :=
  (if p.src.isSome then List.range 17 else []) ++ (List.range (if own then 16 else 32)).map (17 + ·)

/-- Whether a pair's preparation is made. -/
def RowPair.ready (p : RowPair) (own : Bool) : Bool := p.refused || (p.steps own).all fun k => nbit p.prep k

/-- Whether a step of a pair's preparation may be made: the write-back follows the lines of the source row, and a line leaves L2 once
its registrations are dropped. -/
def RowPair.may (p : RowPair) (own : Bool) (k : Nat) : Bool :=
  !p.refused && (p.steps own).contains k && !nbit p.prep k && (k != 16 || (List.range 16).all fun i => nbit p.prep i) &&
    (decide (k < 33) || nbit p.prep (k - 16))

/-- The line of a pair that a step is about; the write-back is about the block's first. -/
def RowPair.lineOf (p : RowPair) (k : Nat) : Nat :=
  if k ≤ 16 then (p.src.getD 0) / 2048 * 16 + k % 16 else p.dst / 2048 * 16 + (k - 17) % 16

/-- Whether a step waits at a line: for the host, which gives up what it holds of it (R115, R487), or for a command in own mode (R118). -/
def State.stepWaits (s : State) (line : Nat) (writes : Bool) : Bool :=
  (List.range 32).any fun i => s.waitsOwn (32 * line + i) || s.hostBlocks (32 * line + i) writes

/-- One step of a pair's preparation; false where a directory set or the split table has no room yet (R107). -/
def State.prepareStep (s : State) (cx id : Nat) (own : Bool) (p : RowPair) (k : Nat) : State × Bool :=
  let line := p.lineOf k
  let nmu := homeBank p.dst
  if k = 16 then (s.cleanBlock (some cx) (line / 16), true)
  else if own then match s.makeRoom line (0x800 + nmu) ((List.range 32).map (32 * line + ·)) with
    | (s, true) => (s.ownLine nmu id line, true)
    | (s, false) => (s, false)
  else if k < 16 then (s.sourceLine line, true)
  else if k < 33 then (s.destLine line, true)
  else ({ s with l2 := SMap.erase s.l2 line }, true)

/-- ROW_COMMAND_PREPARE (R87, R117, R118, R453). Once the command's edges are complete, its pairs are checked, all before any row is
prepared; then each event makes a step of a pair, and the command is prepared when all steps are made. -/
def execRowCommandPrepare (e : PrepareStep) (s : State) : Host.Outcome State Fault Refusal :=
  .next (match s.rowJob e.job with
    | none => s
    | some (cl, j) => match j.kind with
      | .row own false ps =>
        let open_ := (s.cluster cl).jobs.map Job.id
        if j.status = .queued then
          if j.edges.any open_.contains then s
          else
            let (s, ps) := s.checkPairs j.ctx ps
            s.setPairs cl e.job own (ps.all fun p => p.ready own) ps
        else match ps[e.step / 64]? with
          | none => s
          | some p =>
            if !p.may own (e.step % 64) then s
            else if e.step % 64 ≠ 16 ∧ s.stepWaits (p.lineOf (e.step % 64)) (own || decide (16 < e.step % 64)) then s
            else match s.prepareStep j.ctx e.job own p (e.step % 64) with
              | (s, false) => s
              | (s, true) =>
                let ps := setAt ps (e.step / 64) { p with prep := p.prep + 2 ^ (e.step % 64) }
                s.setPairs cl e.job own (ps.all fun p => p.ready own) ps
      | _ => s)

/-- The metadata of a `rowcp` destination (R134). -/
def copiedMeta (md ms : Meta) : Meta :=
  let ver := md.ver + 1
  { o := ms.o, p := false, x := ms.kgen == 15 && ver == 2 ^ 44 - 1, z := ms.z, kslot := ms.kslot, kgen := ms.kgen, otag := 0, itag := ms.itag,
    nonce := ms.nonce, ver := ver }

/-- The metadata of a `rowzero` block (R134). -/
def zeroedMeta (md : Meta) (ks : Nat) (sl : Bool) : Meta :=
  let (ver, kgen) : Nat × Nat :=
    if md.kslot ≠ ks then (0, 0) else if md.ver = 2 ^ 44 - 1 then (0, md.kgen + 1) else (md.ver + 1, md.kgen)
  { md with o := !sl, p := false, x := md.kslot == ks && kgen == 15 && ver == 2 ^ 44 - 1, z := true, kslot := ks, kgen := kgen, ver := ver }

/-- One row operation and its metadata update (R117, R134, R337). -/
def State.rowOp (s : State) (cx : Nat) (p : RowPair) : State :=
  let ks := (s.ctx cx).ks
  let blk := p.dst / 2048
  match s.getMeta blk with
  | (s, none) => s
  | (s, some md) => match p.src with
    | none =>
      ({ s with hbm := Memory.writeBytes s.hbm (blk * 2048) (List.replicate 2048 0) }.putMeta blk (zeroedMeta md ks p.sl)).dropBlock blk
    | some src => match s.getMeta (src / 2048) with
      | (s, none) => s
      | (s, some ms) =>
        let bs := Memory.readBytes s.hbm (src / 2048 * 2048) 2048
        ({ s with hbm := Memory.writeBytes s.hbm (blk * 2048) bs }.putMeta blk (copiedMeta md ms)).dropBlock blk

/-- ROW_OPERATION (R117, R134, R337): pair k of a prepared command. -/
def execRowOperation (id k : Nat) (s : State) : Host.Outcome State Fault Refusal :=
  .next (match s.rowJob id with
    | none => s
    | some (cl, j) => match j.kind with
      | .row own true ps => match ps[k]? with
        | some p => if p.refused || p.done then s
          else ((s.count (cntSeal (homeBank p.dst) 3) 1).rowOp j.ctx p).setPairs cl id own true (setAt ps k { p with done := true })
        | none => s
      | _ => s)

/-- The registrations of an own-mode command dropped, and its destination lines invalidated (R118). -/
def State.leaveOwn (s : State) (id : Nat) (ps : List RowPair) : State :=
  let ws := s.regst.filterMap fun e => match e.2 with
    | .ownMode _ c => if c = id then some e.1 else none
    | _ => none
  let s := ws.foldl (fun s w => s.setRegAt w none) s
  ps.foldl (fun s p => if p.refused then s else s.dropBlock (p.dst / 2048)) s

/-- ROW_COMMAND_COMPLETE (R89, R118, R341): all pairs are done or refused. -/
def execRowCommandComplete (id : Nat) (s : State) : Host.Outcome State Fault Refusal :=
  .next (match s.rowJob id with
    | none => s
    | some (cl, j) => match j.kind with
      | .row own true ps =>
        if ps.any (fun p => !p.refused && !p.done) then s
        else
          let s := if own then s.leaveOwn id ps else s
          (s.onCore j.core fun c => c.onWg j.wg fun w => { w with nmcnt := w.nmcnt - 1 }).dropJob cl id
      | _ => s)

/-- TRANSLATION_WALK (R59, R71): a walker serves a page of a context for a runner, and the caches keep what it found. -/
def execTranslationWalk (core ctx : Nat) (va : BitVec 64) (s : State) : Host.Outcome State Fault Refusal :=
  .next (if s.running && s.current ctx then (s.translate core ctx va.toNat .read).1 else s)

/-- A place in a block of HBM, through the registry, with an attribute. -/
def Place.asks (pl : Place) (blk : Nat) (sl : Bool) : Bool :=
  match pl with
  | .mem pa _ t fv _ _ => pa / 2048 == blk && t == sl && !fv
  | _ => false

/-- The place in memory that an operation names. -/
def OpKind.place? (k : OpKind) : Option Place :=
  match k with
  | .load pl _ _ _ _ => some pl
  | .atomic pl _ _ _ _ _ _ _ => some pl
  | .pref pa sl fv cache creg va => some (.mem pa creg sl fv cache va)
  | _ => none

/-- The requests that cores have on their way to global memory: context and place (R74, R80). -/
def State.requests (s : State) : List (Nat × Place) :=
  s.cores.flatMap fun e => (e.2.iq.filterMap fun o => o.kind.place?.map fun pl => (o.ctx, pl)) ++
    e.2.sbuf.map fun t => (t.ctx, t.pl)

/-- FILL (R127, R131): a request on its way has its block filled under its context's slot. -/
def execFill (pa ks : Nat) (sl : Bool) (s : State) : Host.Outcome State Fault Refusal :=
  .next (match s.requests.find? fun e => e.2.asks (pa / 2048) sl && (s.ctx e.1).ks == ks with
    | none => s
    | some e => if !isHbm pa then s else (s.ensureLine (some e.1) pa ks sl).1)

/-- BLOCK_WRITEBACK (R85, R116, R128, R129, R151): lines leave L2, those of a sealed block together; pinned lines stay (R108). -/
def execBlockWriteback (pa : Nat) (s : State) : Host.Outcome State Fault Refusal :=
  .next (if s.pinned (pa / 128) || (s.hostOff && !isHbm pa) then s else s.evictLine (pa / 128))

/-- METADATA_ROW_WRITEBACK (R126). -/
def execMetadataRowWriteback (row : Nat) (s : State) : Host.Outcome State Fault Refusal := .next (s.writeBackRow row)

/-- The block at the cursor of a walk sealed again under the pending key (R133). A block that reads as zero or that is poisoned is sealed
again without its data row being read, once its outer tag is checked. -/
def State.resealBlock (s : State) (k blk : Nat) : State :=
  match s.getMeta blk with
  | (s, none) => s
  | (s, some m) =>
    if m.kslot ≠ k then s
    else
      let past (s : State) : State := s.setKey k { s.key k with cursor := blk + 1 }
      let fresh (m : Meta) : Meta := { m with kgen := 0, ver := 0, x := false }
      match s.fillBlock none (blk * 2048) 0 k (!m.o) with
      | (s, .bytes p) =>
        let s := past s
        if m.z then s.putMeta blk (fresh m)
        else
          let key := s.keysFor k 0 blk
          let c := if m.o then p else xorBytes p (keystream key.1 0)
          { s with hbm := Memory.writeBytes s.hbm (blk * 2048) c }.putMeta blk
            { fresh m with nonce := 0, itag := if m.o then m.itag else innerTag key.2 c 0 }
      | (s, _) => (past s).putMeta blk (fresh { m with p := true })

/-- REKEY_WALK_BLOCK (R132, R133): the block at the cursor, where it is one of the slot's partition; after the last the pending key is
the master key. -/
def execRekeyWalkBlock (slot : Nat) (s : State) : Host.Outcome State Fault Refusal :=
  .next (
    let k := s.key slot
    if k.st ≠ .rekeying then s
    else if 2 ^ 30 ≤ k.cursor then s.setKey slot { k with st := .active, key := k.next, next := 0, cursor := 0 }
    else
      let pa := k.cursor * 2048
      let mine := (s.part k.part).pcg.getLsbD (homeBank pa) && decide (paRow pa < 496) && !s.behindView k.cursor && !s.rowBusy (pa / 4)
      let s := if mine then s.resealBlock slot k.cursor else s
      if s.rowBusy (pa / 4) then s else s.setKey slot { s.key slot with cursor := k.cursor + 1 })

/-- VIEW_LINE_FILL (R150): a request on its way to a view line has it made. -/
def execViewLineFill (pa : Nat) (s : State) : Host.Outcome State Fault Refusal :=
  .next (match s.requests.find? fun e => match e.2 with
      | .mem p _ _ true _ _ => p / 128 == pa / 128
      | _ => false with
    | none => s
    | some e => (s.ensureView (some e.1) pa).1)

/-- Whether a line lies in the view range that a format-range word 0 gives (R149). -/
def viewCovers (w0 line : Nat) : Bool :=
  nbits w0 63 60 != 0 && decide (nbits w0 51 16 ≤ line / 512) && decide (line / 512 ≤ nbits w0 51 16 + nbits w0 15 0)

/-- The bits of a word of a format-range register (R149); the others are reserved. -/
def frrMask (w : Nat) : Nat :=
  match w with
  | 0 => 0xF00FFFFFFFFFFFFF
  | 1 => 0x000FFFFFFFFFC000
  | 2 => 0xFC0FFFFFFFFFFC00
  | _ => 0x000FFFFFFFFFFC00

/-- FRR_WRITE (R149, R151): every line of the old and the new view range leaves L2 without write-back, and the word takes effect. A
reserved `fmt` is held as 0 (R3): the register then covers nothing. -/
def execFrrWrite (n w : Nat) (v : BitVec 64) (s : State) : Host.Outcome State Fault Refusal :=
  .next (
    if s.pkcState < 2 || s.stopped || decide (16 ≤ n) || decide (4 ≤ w) then s
    else
      let old := (SMap.get 0 s.frr (4 * n)).toNat
      let v := v &&& BitVec.ofNat 64 (frrMask w)
      let v := if w = 0 ∧ 1 < nbits v.toNat 63 60 then v &&& 0x0FFFFFFFFFFFFFFF else v
      let new := if w = 0 then v.toNat else old
      { s with l2 := s.l2.filter fun e => !(isHbm (e.1 * 128) && (viewCovers old e.1 || viewCovers new e.1)),
               frr := SMap.set 0 s.frr (4 * n + w) v })

end Sys2Proof.Machine
end

