-- ==== Sys2Proof/Machine/Fabric.lean ====
section
/-!
DEFINITION. Gimond Link, streams and collectives (spec/16_links.md R387 to R392, spec/24_faults_memory.md R455 to R457,
spec/25_preemption.md R470). The manual gives the commands of a stream no format; log entry 22 names the model's own.
-/

namespace Sys2Proof.Machine

/-- The live ports of a partition (R387, R455). -/
def State.livePorts (s : State) (p : Nat) : List Nat :=
  (List.range 36).filter fun k => (s.part p).ptm.getLsbD k && (s.port k).up

/-- The port that a flit to a node leaves by (R387, R455). -/
def State.portTo (s : State) (p dst : Nat) : Option Nat :=
  let ps := s.livePorts p
  ps[dst % max 1 ps.length]?

/-- The 256 bytes of a flit, with a value in its `crc` field (R387). -/
def flitBytes (f : Flit) (crc : BitVec 32) : List Byte :=
  let h := f.len % 512 + (f.part % 32) * 2 ^ 9 + (f.kind % 16) * 2 ^ 14 + (f.src % 2 ^ 17) * 2 ^ 18 + (f.dst % 2 ^ 17) * 2 ^ 35 +
    (f.lseq % 4096) * 2 ^ 52 + (f.eseq % 2 ^ 32) * 2 ^ 64 + crc.toNat * 2 ^ 96
  toBytes 16 h ++ (List.range 240).map fun k => f.data.getD k 0

/-- The `crc` of a flit (R387): over its bytes with the field 0. -/
def flitCrc (f : Flit) : BitVec 32 := crc32c (flitBytes f 0)

/-- Whether the `crc` of a flit checks (R388). -/
def flitOk (f : Flit) : Bool := f.crc == flitCrc f

/-- A flit as it leaves on a link: numbered, with its `crc` (R387, R388). -/
def sealFlit (f : Flit) (lseq : Nat) : Flit :=
  let f := { f with lseq := lseq }
  { f with crc := flitCrc f }

/-- A flit sent on a port (R388): numbered, and kept for replay. -/
def State.sendFlit (s : State) (port : Nat) (f : Flit) : State :=
  let p := s.port port
  (s.count (cntPort port 0) 1).setPort port
    { p with txSeq := (p.txSeq + 1) % 4096, replay := (p.replay ++ [sealFlit f p.txSeq]).drop (p.replay.length - 255) }

/-- A flit of the package's own sent to a node, by the port that R387 names; where no port is live it is not sent (R455). -/
def State.sendOwn (s : State) (part dst kind eseq : Nat) (data : List Byte) : State :=
  match s.portTo part dst with
  | none => s
  | some port => s.sendFlit port { crc := 0, eseq := eseq, lseq := 0, dst := dst, src := s.node, kind := kind, part := part,
                                   len := min 240 data.length, data := data }

/-- The answer of a receiver on a link (R388): an ack of a number, or a nak that names the one expected (log entry 22 for its form). -/
def State.linkAnswer (s : State) (port : Nat) (nak : Bool) (n : Nat) : State :=
  s.sendFlit port { crc := 0, eseq := 0, lseq := 0, dst := 0, src := s.node, kind := 1, part := 0, len := 3,
                    data := BitVec.ofNat 8 nak.toNat :: toBytes 2 n }

/-- What a link ack or nak says: whether it is a nak, and the number (log entry 22). -/
def linkSays (f : Flit) : Bool × Nat := (f.data.getD 0 0 != 0, (f.data.getD 1 0).toNat + 256 * (f.data.getD 2 0).toNat)

/-- A stream (R389). -/
def State.stream (s : State) (src dst part : Nat) : Stream :=
  (s.streams.find? fun t => t.src == src && t.dst == dst && t.part == part).getD
    { src := src, dst := dst, part := part, eseq := 0, open_ := [], rxNext := 0, kept := [], failed := false }

def State.setStream (s : State) (t : Stream) : State :=
  { s with streams := s.streams.filter (fun u => !(u.src == t.src && u.dst == t.dst && u.part == t.part)) ++ [t] }

/-- The resume area of a dump (R482): the context it is written for, and its VA. -/
def State.dumpArea (s : State) (p : Nat) : Option (Nat × Nat) := (s.sysCtx p).map fun cx => (cx, s.dumpb.toNat / 2048 * 2048)

/-- A flit as 64 words of the dump area (R387, R483). -/
def flitWords (f : Flit) : List LWord := (wordsOf 64 (flitBytes f f.crc)).map .good

/-- Whether a flit repeats a command that has been executed, or a response that has been answered (R389). -/
def State.isDuplicate (s : State) (f : Flit) : Bool :=
  if f.kind = 2 then (s.stream f.src f.dst f.part).kept.any fun k => k.1 == f.eseq
  else if f.kind = 3 then !((s.stream f.dst f.src f.part).open_.any fun u => u.eseq == f.eseq)
  else false

/-- A flit of a recorded partition held until resumption (R483). -/
def State.holdFlit (s : State) (port : Nat) (f : Flit) : State :=
  let n := s.dumpFlits
  let s := { s with heldFlits := s.heldFlits ++ [HeldFlit.mk port f], dumpFlits := n + 1 }
  match s.dumpArea f.part with
  | none => s
  | some (cx, va) => match s.writeVas 0 cx ((va + 64 + 256 * n) % 2 ^ 64) (flitWords f) with
    | (s, none) => s
    | (s, some c) => s.note cx 3 32 c (va + 64 + 256 * n) 0

/-- A port direction retrains (R455). -/
def State.retrain (s : State) (port : Nat) : State := s.setPort port { s.port port with training := true, naks := 0 }

/-- A nak (R388, R455): the sender replays from the number named; 64 naks in a row of one number retrain the port. -/
def State.nakked (s : State) (port lseq : Nat) : State :=
  let p := s.port port
  let n := if p.nakSeq = lseq then p.naks + 1 else 1
  let again := (p.replay.findIdx? fun r => r.lseq == lseq).map fun k => p.replay.length - k
  let s := ((s.bumpLife 4 1).count (cntPort port 2) 1).count (cntPort port 3) 1
  let s := (s.count (cntPort port 0) (again.getD 0)).setPort port { p with naks := n, nakSeq := lseq }
  if 64 ≤ n then s.retrain port else s

/-- An ack (R388): what it covers leaves the replay buffer. -/
def State.acked (s : State) (port lseq : Nat) : State :=
  let p := s.port port
  s.setPort port { p with naks := 0, replay := p.replay.drop ((p.replay.findIdx? fun r => r.lseq == lseq).map (· + 1) |>.getD 0) }

/-- What an accepted flit does here (R387, R483): one for another node goes on; one of a recorded partition is held; a peer's rendezvous
is kept until it is answered (R392). What a command, a response or a marker does is a move of its own (log entry 22). -/
def State.takeFlit (s : State) (port : Nat) (f : Flit) : State :=
  if 8 ≤ f.kind ∨ 20 ≤ f.part ∨ (s.part f.part).ptm.getLsbD port = false then { s with discarded := s.discarded + 1 }
  else if f.dst ≠ s.node then match s.portTo f.part f.dst with
    | some out => s.sendFlit out f
    | none => { s with discarded := s.discarded + 1 }
  else if (s.part f.part).dumped && !(s.port port).closed && decide (2 ≤ f.kind) && decide (f.kind ≤ 4) then
    (if s.isDuplicate f then s else s.holdFlit port f)
  else if f.kind = 5 ∧ f.data.getD 18 0 = 0 then
    let n (k l : Nat) : Nat := ofBytes ((List.range l).map fun i => f.data.getD (k + i) 0)
    { s with asks := s.asks ++ [{ part := f.part, node := f.src, tid := BitVec.ofNat 64 (n 0 8), cid := n 8 4, cnt := n 12 4, cop := n 16 1, ety := n 17 1 }] }
  else s

/-- LINK_FLIT_RECEIVE (R387, R388): a flit whose `crc` checks and that is the next in sequence is accepted and acknowledged; one that was
accepted before is discarded, and any other is discarded with a nak. Idle flits are not numbered; a link ack or nak is, and the next
ack covers it (log entry 135). -/
def execLinkFlitReceive (port : Nat) (f : Flit) (s : State) : Host.Outcome State Fault Refusal :=
  .next (
    let p := s.port port
    let behind := (p.rxSeq + 4096 - f.lseq % 4096) % 4096
    if s.stopped || decide (36 ≤ port) || !p.up || p.training || f.kind = 0 then s
    else if !flitOk f then s.linkAnswer port true p.rxSeq
    else if f.lseq ≠ p.rxSeq then (if 1 ≤ behind ∧ behind ≤ 256 then s else s.linkAnswer port true p.rxSeq)
    else
      let s := (s.count (cntPort port 1) 1).setPort port { p with rxSeq := (p.rxSeq + 1) % 4096 }
      if f.kind = 1 then (if (linkSays f).1 then s.nakked port (linkSays f).2 else s.acked port (linkSays f).2)
      else (s.linkAnswer port false f.lseq).takeFlit port f)

/-- LINK_NAK (R388, R455). -/
def execLinkNak (port lseq : Nat) (s : State) : Host.Outcome State Fault Refusal :=
  .next (if s.stopped || !(s.port port).up || (s.port port).training then s else s.nakked port lseq)

/-- LINK_ACK_TIMEOUT (R455). -/
def execLinkAckTimeout (port : Nat) (s : State) : Host.Outcome State Fault Refusal :=
  .next (if !s.stopped && (s.port port).up && !(s.port port).training && !(s.port port).replay.isEmpty then s.retrain port else s)

/-- LINK_RETRAIN_DONE (R455): the third failure within 18,000,000 ticks takes the port down (R485). -/
def execLinkRetrainDone (port : Nat) (ok : Bool) (s : State) : Host.Outcome State Fault Refusal :=
  .next (
    let p := s.port port
    if s.stopped || !p.up || !p.training then s
    else if ok then s.setPort port { p with training := false, naks := 0 }
    else
      let recent := (p.retrains.filter fun t => decide (s.tick.toNat < t.toNat + 18000000)) ++ [s.tick]
      if 3 ≤ recent.length then
        (s.setPort port { p with up := false, training := false, replay := [], retrains := [] }).logEvent (port / 18) 7 port
      else s.setPort port { p with retrains := recent })

/-- A 64-bit counter added to at its home, for a command (R389); where a request for its words must wait, the move is not made. -/
def State.remoteAdd (s : State) (pa : Nat) (v : BitVec 64) : State :=
  let ws := wordSpan (pa / 8 * 8) 8
  if ws.any s.registerWaits then s.wait
  else
    let s := ws.foldl State.ensureHome s
    match s.exhausted (pa / 4), atomWords 0 0 8 (ws.map (s.atomRead 0xFFFF)) (words64 v) [] with
    | (_, false), some new => (ws.zip new).foldl (fun s p => s.atomWrite 0xFFFF p.1 p.2) s
    | (s, _), _ => s

/-- A byte written at its home, for a command (R389); where a request for its word must wait, the move is not made. -/
def State.remoteByte (s : State) (pa : Nat) (b : BitVec 8) : State :=
  let w := pa / 4
  if s.registerWaits w then s.wait
  else match (s.ensureHome w).exhausted w with
    | (s, true) => s
    | (s, false) =>
      let (s, old) := s.takeOver w
      s.homePut w (mergeBytes old (pa % 4) 1 (.good (b.setWidth 32)))

/-- The collective cards of a partition with an identity (R391), with their clusters. -/
def State.collJobs (s : State) (part cid : Nat) : List (Nat × Job) :=
  s.clusters.flatMap fun k => (k.2.jobs.filter fun j => partOf j.ctx == part && match j.kind with
    | .coll c => c.cid == cid
    | _ => false).map fun j => (k.1, j)

/-- What a command does where it arrives (R389; log entry 22). -/
def State.runCommand (s : State) (part : Nat) (c : FabricCmd) : State :=
  match c with
  | .addCounter pa v => if isHbm pa && (s.part part).pcg.getLsbD (homeBank pa) then s.remoteAdd pa v else s
  | .write pa bs => bs.zipIdx.foldl (fun s e =>
      if isHbm (pa + e.2) && (s.part part).pcg.getLsbD (homeBank (pa + e.2)) then s.remoteByte (pa + e.2) e.1 else s) s
  | .contribution cid rank ws => (s.collJobs part cid).foldl (fun s j =>
      s.onJob j.1 j.2.id fun j => { j with answers := SMap.put j.answers rank ws }) s

/-- The card that a command belongs to completes with a status, and the failure is recorded (R456, R457). -/
def State.failCommand (s : State) (part : Nat) (c : FabricCmd) (cause : Nat) : State :=
  match c with
  | .contribution cid _ _ => match s.collJobs part cid with
    | [] => s
    | l => l.foldl (fun s j => (s.onJob j.1 j.2.id fun j => { j with status := .started, verdict := 2 }).note j.2.ctx 3 40 cause 0 0) s
  | _ => match s.sysCtx part with
    | some cx => s.note cx 3 40 cause 0 0
    | none => s

/-- The own contribution of a card noted as sent to a node (R392): its words are what the job has read. None where no started card of the
identity has them or the node has had them. -/
def State.sendsOwn (s : State) (part dst cid rank : Nat) (ws : List Word) : Option State :=
  let may (j : Job) : Bool := match j.kind with
    | .coll c => j.status == .started && j.rank == rank && c.gives rank && j.peers.contains dst && !j.sent.contains dst &&
        j.ownWords c == some (ws.map .good)
    | _ => false
  ((s.collJobs part cid).find? fun e => may e.2).map fun e => s.onJob e.1 e.2.id fun j => { j with sent := j.sent ++ [dst] }

/-- A command sent on its stream (R389). -/
def State.sendCommand (s : State) (t : Stream) (c : FabricCmd) : State :=
  (s.setStream { t with eseq := (t.eseq + 1) % 2 ^ 32, open_ := t.open_ ++ [⟨t.eseq, c, s.tick, 0⟩] }).sendOwn t.part t.dst 2 t.eseq
    (Config.commandBytes c)

/-- STREAM_COMMAND (R389, R392, R456): the package sends a command of its own, or executes one that arrives, in order and once; the
response to one that was executed before is sent again. -/
def execStreamCommand (src dst part eseq : Nat) (c : FabricCmd) (s : State) : Host.Outcome State Fault Refusal :=
  .next (
    let t := s.stream src dst part
    if !s.running || decide (20 ≤ part) || !(s.part part).en || (s.part part).dumped then s
    else if src = s.node then
      if t.failed then s.failCommand part c 41
      else if eseq ≠ t.eseq ∨ 64 ≤ t.open_.length then s
      else match c with
        | .contribution cid rank ws => match s.sendsOwn part dst cid rank ws with
          | some s => s.sendCommand t c
          | none => s
        | c => s.sendCommand t c
    else if dst = s.node then
      match t.kept.find? fun k => k.1 == eseq with
      | some k => s.sendOwn part src 3 eseq k.2
      | none =>
        if eseq ≠ t.rxNext then s
        else
          let r := Config.responseBytes c
          ((s.runCommand part c).setStream { t with rxNext := (t.rxNext + 1) % 2 ^ 32,
                                                    kept := (t.kept ++ [(eseq, r)]).drop (t.kept.length - 63) }).sendOwn part src 3 eseq r
    else s)

/-- STREAM_RESPONSE (R389): a response answers its command, once. -/
def execStreamResponse (src dst part eseq : Nat) (s : State) : Host.Outcome State Fault Refusal :=
  .next (
    let t := s.stream src dst part
    if !s.running || src ≠ s.node then s
    else if t.open_.any fun u => u.eseq == eseq then s.setStream { t with open_ := t.open_.filter fun u => u.eseq != eseq } else s)

/-- COMMAND_RESEND_TIMEOUT (R389, R456, R483): a command is sent again; after eight times its stream fails. -/
def execCommandResendTimeout (src dst part eseq : Nat) (s : State) : Host.Outcome State Fault Refusal :=
  .next (
    let t := s.stream src dst part
    match t.open_.find? fun u => u.eseq == eseq with
    | none => s
    | some u =>
      if !s.running || src ≠ s.node || (s.part part).dumped || decide (s.tick.toNat < u.sent.toNat + 180000) then s
      else if 8 ≤ u.tries then (s.setStream { t with failed := true, open_ := [] }).failCommand part u.cmd 40
      else (s.setStream { t with open_ := t.open_.map fun w => if w.eseq = eseq then { w with sent := s.tick, tries := w.tries + 1 } else w }).sendOwn
        part dst 2 eseq (Config.commandBytes u.cmd))

/-- The table of a collective (R385, R391): own rank, and the table. -/
def State.collTable (s : State) (cx : Nat) (pg : BitVec 64) : State × Option (Nat × PgTable) :=
  match s.readTable cx (pg.toNat / 64 * 64) with
  | (s, none) => (s, none)
  | (s, some t) => (s, (t.rankOf s.node).map fun r => (r, t))

/-- A card ends at its rendezvous with a status and a record (R456, R457). -/
def State.endCard (s : State) (cl : Nat) (j : Job) (status kind cause : Nat) : State :=
  (s.onJob cl j.id fun k => { k with status := .started, verdict := status }).note j.ctx 3 kind cause 0 0

/-- The payload of a rendezvous flit: what it names, and whether it is an answer (R392; log entry 22 for its form). -/
def rdvBytes (tid : BitVec 64) (c : CollCard) (answer : Bool) : List Byte :=
  toBytes 8 tid.toNat ++ toBytes 4 c.cid ++ toBytes 4 c.cnt ++ [BitVec.ofNat 8 c.cop, BitVec.ofNat 8 c.ety, BitVec.ofNat 8 answer.toNat]

/-- A peer's rendezvous answered where the package holds a posted card of its identity, whose context is current and whose table has its
`tid` (R392, R470); the card ends where the two do not match (R457). -/
def State.answerAsk (s : State) (a : Ask) : State :=
  (s.collJobs a.part a.cid).foldl (fun s e => match e.2.kind with
    | .coll c =>
      if !s.current e.2.ctx || !s.asks.contains a then s
      else match s.collTable e.2.ctx c.pg with
        | (s, some (_, t)) =>
          if t.tid ≠ a.tid ∨ !t.nodes.contains a.node then s
          else
            let s := { s with asks := s.asks.erase a }.sendOwn a.part a.node 5 0 (rdvBytes t.tid c true)
            if c.cop = a.cop ∧ c.cnt = a.cnt ∧ c.ety = a.ety ∨ e.2.status ≠ .queued then s else s.endCard e.1 e.2 3 41 42
        | (s, none) => s
    | _ => s) s

/-- A queued collective goes to its rendezvous (R392): a rendezvous flit goes to every other rank, once, and the peers that ask are
answered. -/
def State.startColl (s : State) (cl : Nat) (j : Job) (c : CollCard) : State :=
  let s := if !j.peers.isEmpty then s else match s.collTable j.ctx c.pg with
    | (s, none) => s
    | (s, some (q, t)) =>
      let s := s.onJob cl j.id fun k => { k with peers := t.nodes, ranks := t.ranks, rank := q }
      (t.nodes.filter (· != s.node)).foldl (fun s n => s.sendOwn (partOf j.ctx) n 5 0 (rdvBytes t.tid c false)) s
  s.asks.foldl State.answerAsk s

/-- JOB_START (R87, R319, R392, R441): a queued job of a current context all of whose edges are complete. Row commands start with their
preparation, and a collective after its rendezvous, to which it goes here. A core runs at most two tile tasks (R333). -/
def execJobStart (cl job : Nat) (s : State) : Host.Outcome State Fault Refusal :=
  .next (match s.job cl job with
    | none => s
    | some j =>
      let open_ := (s.cluster cl).jobs.map Job.id
      if j.status != .queued || j.halted || !s.current j.ctx || j.edges.any open_.contains then s
      else
        let tiles := s.tilesStarted cl j.core
        let start : State := s.onJob cl job fun k => { k with status := .started, eng := if tiles.contains 0 then 1 else 0,
                                                               failed := if k.failed.isSome then k.failed else j.startFault s }
        match j.kind with
        | .row _ _ _ => s
        | .coll c => if s.running then s.startColl cl j c else s
        | .tile c =>
          let die := cl / 16
          if 2 ≤ tiles.length || s.withheldAt die (partOf j.ctx) then s
          else
            let d := start.die die
            start.setDie die { d with cards := d.cards + 1, work := d.work + (c.pa + 1) * (c.pb + 1) }
        | _ => start)

/-- RENDEZVOUS (R392, R457, R470): a peer's answer to the package's rendezvous; once every peer has answered, the card starts. -/
def execRendezvous (cl job : Nat) (r : RdvReply) (s : State) : Host.Outcome State Fault Refusal :=
  .next (match s.job cl job with
    | none => s
    | some j => match j.kind with
      | .coll c =>
        let open_ := (s.cluster cl).jobs.map Job.id
        if !s.running || j.status != .queued || j.halted || !s.current j.ctx || j.edges.any open_.contains || j.peers.isEmpty then s
        else match s.collTable j.ctx c.pg with
          | (s, none) => s
          | (s, some (_, t)) =>
            if j.ranks = 1 then s.onJob cl job fun k => { k with status := .started }
            else if r.rank = j.rank ∨ j.ranks ≤ r.rank then s
            else if r.failed then s.endCard cl j 2 40 41
            else if r.tid ≠ t.tid ∨ r.cid ≠ c.cid then s
            else if r.cop ≠ c.cop ∨ r.cnt ≠ c.cnt ∨ r.ety ≠ c.ety then s.endCard cl j 3 41 42
            else
              let met := keepIn j.met r.rank true
              s.onJob cl job fun k => { k with met := met, status := if met.length + 1 = j.ranks then .started else k.status }
      | _ => s)

end Sys2Proof.Machine
end

