-- ==== Sys2Proof/Machine/Integer.lean ====
section
/-!
DEFINITION. The integer and logic majors 0x00 to 0x1F (spec/10_integer.md R209 to R237). Poison in an operand gives poison
(R147, R212).
-/

namespace Sys2Proof.Machine

/-- A function of one value, poison where it is none. -/
def lift1 (f : Word → Word) (a : Option Word) : LWord :=
  match a with
  | some a => .good (f a)
  | none => .poison

/-- A function of two values. -/
def lift2 (f : Word → Word → Word) (a b : Option Word) : LWord :=
  match a, b with
  | some a, some b => .good (f a b)
  | _, _ => .poison

/-- A function of three values. -/
def lift3 (f : Word → Word → Word → Word) (a b c : Option Word) : LWord :=
  match a, b, c with
  | some a, some b, some c => .good (f a b c)
  | _, _, _ => .poison

/-- One register from source a. -/
def eff1 (o : Opnds) (f : Word → Word) (c : Core) (x : Iss) (i : Nat) : LaneEffect :=
  .word o.d (lift1 f (srcVal c x o.a i))

/-- One register from sources a and b. -/
def eff2 (o : Opnds) (f : Word → Word → Word) (c : Core) (x : Iss) (i : Nat) : LaneEffect :=
  .word o.d (lift2 f (srcVal c x o.a i) (srcVal c x o.b i))

/-- One register from sources a, b and c. -/
def eff3 (o : Opnds) (f : Word → Word → Word → Word) (c : Core) (x : Iss) (i : Nat) : LaneEffect :=
  .word o.d (lift3 f (srcVal c x o.a i) (srcVal c x o.b i) (srcVal c x o.c i))

/-- A pair from the pairs a and b (R212, R234). -/
def eff64 (o : Opnds) (f : DWord → DWord → DWord) (c : Core) (x : Iss) (i : Nat) : LaneEffect :=
  .wide o.d (match srcVal64 c x o.a i, srcVal64 c x o.b i with
    | some a, some b => some (f a b)
    | _, _ => none) 0

/-- Src of a lane-word (R211). -/
def wsrc (t : Ty) (v : Word) : Int := intSrc t v.toNat

/-- The low bits of a lane-word, read unsigned (R216). -/
def wlow (t : Ty) (v : Word) : Nat := v.toNat % 2 ^ tyBits t

/-- `nop` (R233): the guard is ignored. -/
def execNop (h : Hdr) (o : Opnds) (s : State) : Host.Outcome State Fault Refusal :=
  .next (s.issue (.nop { h with guard := .always } o) fun x s => s.complete x x.lanes)

/-- A sum or difference with its carry or borrow bit (R215, R216, R217). -/
def carryEffect (o : Opnds) (m : IMods) (reads : Bool) (f : Int → Int → Int → Int) (out : Nat → Nat → Nat → Bool)
    (c : Core) (x : Iss) (i : Nat) : LaneEffect :=
  let cp := xf m.x 4 0
  let v1 := c.reg x.base 1 i
  match srcVal c x o.a i, srcVal c x o.b i, reads && v1.isPoison with
  | some a, some b, false =>
    let k : Nat := if reads then (v1.val.getLsbD cp).toNat else 0
    ⟨[(o.d.toNat, .good (intRes m.ty m.sat (f (wsrc m.ty a) (wsrc m.ty b) k)))],
      if cp = 0 then none else some (cp, some (out (wlow m.ty a) (wlow m.ty b) k)), 0⟩
  | _, _, _ => ⟨[(o.d.toNat, .poison)], if cp = 0 then none else some (cp, none), 0⟩

def carryOut (t : Ty) (a b k : Nat) : Bool := decide (2 ^ tyBits t ≤ a + b + k)
def borrowOut (a b k : Nat) : Bool := decide (a < b + k)

/-- R216. -/
def execAdd (h : Hdr) (o : Opnds) (m : IMods) : State → Host.Outcome State Fault Refusal :=
  aluWord (.add h o m) (carryEffect o m false (fun a b k => a + b + k) (carryOut m.ty))
def execAddAddc (h : Hdr) (o : Opnds) (m : IMods) : State → Host.Outcome State Fault Refusal :=
  aluWord (.addAddc h o m) (carryEffect o m true (fun a b k => a + b + k) (carryOut m.ty))
def execAddAdd3 (h : Hdr) (o : Opnds) (m : IMods) : State → Host.Outcome State Fault Refusal :=
  aluWord (.addAdd3 h o m) (eff3 o fun a b c => intRes m.ty m.sat (wsrc m.ty a + wsrc m.ty b + wsrc m.ty c))

/-- R217. -/
def execSub (h : Hdr) (o : Opnds) (m : IMods) : State → Host.Outcome State Fault Refusal :=
  aluWord (.sub h o m) (carryEffect o m false (fun a b k => a - b - k) borrowOut)
def execSubSubb (h : Hdr) (o : Opnds) (m : IMods) : State → Host.Outcome State Fault Refusal :=
  aluWord (.subSubb h o m) (carryEffect o m true (fun a b k => a - b - k) borrowOut)
def execSubRsub (h : Hdr) (o : Opnds) (m : IMods) : State → Host.Outcome State Fault Refusal :=
  aluWord (.subRsub h o m) (eff2 o fun a b => intRes m.ty m.sat (wsrc m.ty b - wsrc m.ty a))

/-- Bits [63:32] of an exact integer mod 2^64 (R218). -/
def highWord (v : Int) : Word := hi32 (BitVec.ofInt 64 v)

/-- R218. -/
def execMulLo (h : Hdr) (o : Opnds) (m : IMods) : State → Host.Outcome State Fault Refusal :=
  aluWord (.mulLo h o m) (eff2 o fun a b => intRes m.ty m.sat (wsrc m.ty a * wsrc m.ty b))
def execMulHi (h : Hdr) (o : Opnds) (m : IMods) : State → Host.Outcome State Fault Refusal :=
  aluWord (.mulHi h o m) (eff2 o fun a b => highWord (wsrc m.ty a * wsrc m.ty b))
def execMadLo (h : Hdr) (o : Opnds) (m : IMods) : State → Host.Outcome State Fault Refusal :=
  aluWord (.madLo h o m) (eff3 o fun a b c => intRes m.ty m.sat (wsrc m.ty a * wsrc m.ty b + wsrc m.ty c))
def execMadHi (h : Hdr) (o : Opnds) (m : IMods) : State → Host.Outcome State Fault Refusal :=
  aluWord (.madHi h o m) (eff3 o fun a b c => highWord (wsrc m.ty a * wsrc m.ty b + wsrc m.ty c))

/-- The pair that `mad.wide` writes (R218). -/
def madWideEffect (o : Opnds) (m : IMods) (c : Core) (x : Iss) (i : Nat) : LaneEffect :=
  .wide o.d (match srcVal c x o.a i, srcVal c x o.b i, srcVal64 c x o.c i with
    | some a, some b, some w => some (BitVec.ofInt 64 (wsrc m.ty a * wsrc m.ty b + intSrc (ty64 m.ty) w.toNat))
    | _, _, _ => none) 0

def execMadWide (h : Hdr) (o : Opnds) (m : IMods) : State → Host.Outcome State Fault Refusal :=
  aluWord (.madWide h o m) (madWideEffect o m)

/-- R221. -/
def execMinI (h : Hdr) (o : Opnds) (m : IMods) : State → Host.Outcome State Fault Refusal :=
  aluWord (.minI h o m) (eff2 o fun a b => intRes m.ty false (min (wsrc m.ty a) (wsrc m.ty b)))
def execMaxI (h : Hdr) (o : Opnds) (m : IMods) : State → Host.Outcome State Fault Refusal :=
  aluWord (.maxI h o m) (eff2 o fun a b => intRes m.ty false (max (wsrc m.ty a) (wsrc m.ty b)))
def execClamp (h : Hdr) (o : Opnds) (m : IMods) : State → Host.Outcome State Fault Refusal :=
  aluWord (.clamp h o m) (eff3 o fun a b c => intRes m.ty false (min (max (wsrc m.ty a) (wsrc m.ty b)) (wsrc m.ty c)))

/-- Byte or halfword k of a word. -/
def lanePart (n : Nat) (v : Word) (k : Nat) : Nat := nbits v.toNat (n * k + n - 1) (n * k)

/-- The sum of a function over k below n. -/
def sumUpTo (n : Nat) (f : Nat → Int) : Int := ((List.range n).map f).foldl (· + ·) 0

/-- R219: the absolute differences, by word or by byte. -/
def sadValue (t : Ty) (sat : Bool) (a b c : Word) : Word :=
  let t32 : Ty := if tySigned t then .i32 else .n32
  let d : Int :=
    if tyBits t = 8 then sumUpTo 4 fun k => (intSrc t (lanePart 8 a k) - intSrc t (lanePart 8 b k)).natAbs
    else (wsrc t a - wsrc t b).natAbs
  intRes t32 sat (d + wsrc t32 c)

def execSad (h : Hdr) (o : Opnds) (m : IMods) : State → Host.Outcome State Fault Refusal :=
  aluWord (.sad h o m) (eff3 o (sadValue m.ty m.sat))

/-- R220: a dot product of n parts of w bits, accumulated. -/
def dotValue (n w : Nat) (m : IMods) (a b c : Word) : Word :=
  let sa := tySigned m.ty
  let sb := sa != m.x.getLsbD 0
  let t32 : Ty := if sa then .i32 else .n32
  let part (sg : Bool) (v : Word) (k : Nat) : Int := if sg then sextInt w (lanePart w v k) else lanePart w v k
  intRes t32 m.sat (sumUpTo n (fun k => part sa a k * part sb b k) + wsrc t32 c)

def execDp4 (h : Hdr) (o : Opnds) (m : IMods) : State → Host.Outcome State Fault Refusal :=
  aluWord (.dp4 h o m) (eff3 o (dotValue 4 8 m))
def execDp4Dp2 (h : Hdr) (o : Opnds) (m : IMods) : State → Host.Outcome State Fault Refusal :=
  aluWord (.dp4Dp2 h o m) (eff3 o (dotValue 2 16 m))

/-- R222. -/
def execAndI (h : Hdr) (o : Opnds) (m : IMods) : State → Host.Outcome State Fault Refusal :=
  aluWord (.andI h o m) (eff2 o fun a b => a &&& b)
def execOrI (h : Hdr) (o : Opnds) (m : IMods) : State → Host.Outcome State Fault Refusal :=
  aluWord (.orI h o m) (eff2 o fun a b => a ||| b)
def execXorI (h : Hdr) (o : Opnds) (m : IMods) : State → Host.Outcome State Fault Refusal :=
  aluWord (.xorI h o m) (eff2 o fun a b => a ^^^ b)
def execAndn (h : Hdr) (o : Opnds) (m : IMods) : State → Host.Outcome State Fault Refusal :=
  aluWord (.andn h o m) (eff2 o fun a b => a &&& ~~~b)

/-- R222: the truth table applied to each bit position. -/
def lop3Value (tt : Nat) (a b c : Word) : Word :=
  maskWhere fun j => tt.testBit ((a.getLsbD j).toNat + 2 * (b.getLsbD j).toNat + 4 * (c.getLsbD j).toNat)

def execLop3 (h : Hdr) (o : Opnds) (m : IMods) : State → Host.Outcome State Fault Refusal :=
  aluWord (.lop3 h o m) (eff3 o (lop3Value (xf m.x 7 0)))

/-- R223: shifts by 32 or more give 0 or copies of the sign. -/
def execShl (h : Hdr) (o : Opnds) (m : IMods) : State → Host.Outcome State Fault Refusal :=
  aluWord (.shl h o m) (eff2 o fun a n => if n.toNat < 32 then a <<< n.toNat else 0)
def execShr (h : Hdr) (o : Opnds) (m : IMods) : State → Host.Outcome State Fault Refusal :=
  aluWord (.shr h o m) (eff2 o fun a n => if n.toNat < 32 then a >>> n.toNat else 0)
def execSar (h : Hdr) (o : Opnds) (m : IMods) : State → Host.Outcome State Fault Refusal :=
  aluWord (.sar h o m) (eff2 o fun a n => a.sshiftRight (min n.toNat 31))
def execRot (h : Hdr) (o : Opnds) (m : IMods) : State → Host.Outcome State Fault Refusal :=
  aluWord (.rot h o m) (eff2 o fun a n => a.rotateLeft (n.toNat % 32))

/-- R224: the funnel shift of b:a. -/
def funnel (rt cl : Bool) (a b c : Word) : Word :=
  let n := if cl then min c.toNat 32 else c.toNat % 32
  let w := pair64 a b
  if rt then lo32 (w >>> n) else hi32 (w <<< n)

def execShf (h : Hdr) (o : Opnds) (m : IMods) : State → Host.Outcome State Fault Refusal :=
  aluWord (.shf h o m) (eff3 o (funnel (m.x.getLsbD 0) (m.x.getLsbD 1)))

/-- R225: field extraction; bits above 31 read as the sign for i32 and as 0 for n32. -/
def bfxValue (t : Ty) (a b : Word) : Word :=
  let pos := nbits b.toNat 7 0
  let len := nbits b.toNat 15 8
  if len = 0 then 0
  else if t = .i32 then
    let f := (a.signExtend 512 >>> pos).toNat
    if len ≤ 32 then BitVec.ofInt 32 (sextInt len f) else BitVec.ofNat 32 f
  else BitVec.ofNat 32 ((a.toNat >>> pos) % 2 ^ len)

def execBfx (h : Hdr) (o : Opnds) (m : IMods) : State → Host.Outcome State Fault Refusal :=
  aluWord (.bfx h o m) (eff2 o (bfxValue m.ty))

/-- R226: field insertion. -/
def bfiValue (a b c : Word) : Word :=
  let pos := nbits b.toNat 7 0
  let len := nbits b.toNat 15 8
  let mask := BitVec.ofNat 32 ((2 ^ min len 32 - 1) * 2 ^ pos)
  (c &&& ~~~mask) ||| ((a <<< pos) &&& mask)

def execBfi (h : Hdr) (o : Opnds) (m : IMods) : State → Host.Outcome State Fault Refusal :=
  aluWord (.bfi h o m) (eff3 o bfiValue)

/-- R227. -/
def execBcntPop (h : Hdr) (o : Opnds) (m : IMods) : State → Host.Outcome State Fault Refusal :=
  aluWord (.bcntPop h o m) (eff1 o fun a => BitVec.ofNat 32 (popCount a))
def execBcntClz (h : Hdr) (o : Opnds) (m : IMods) : State → Host.Outcome State Fault Refusal :=
  aluWord (.bcntClz h o m) (eff1 o fun a => BitVec.ofNat 32 (clz a))
def execBcntCtz (h : Hdr) (o : Opnds) (m : IMods) : State → Host.Outcome State Fault Refusal :=
  aluWord (.bcntCtz h o m) (eff1 o fun a => BitVec.ofNat 32 (ctz a))
def execBcntBrev (h : Hdr) (o : Opnds) (m : IMods) : State → Host.Outcome State Fault Refusal :=
  aluWord (.bcntBrev h o m) (eff1 o bitReverse)
def execBcntIsp (h : Hdr) (o : Opnds) (m : IMods) : State → Host.Outcome State Fault Refusal :=
  aluWord (.bcntIsp h o m) fun c x i => .word o.d (.good (if (srcWord c x o.a i).isPoison then 1 else 0))

/-- R228: each output byte from a byte of a or b. -/
def permValue (a b c : Word) : Word :=
  let byte (k : Nat) : Nat :=
    let sel := nbits c.toNat (5 * k + 4) (5 * k)
    let i := sel % 8
    let y := if i < 4 then lanePart 8 a i else lanePart 8 b (i - 4)
    match sel / 8 with
    | 0 => y
    | 1 => if y.testBit 7 then 0xFF else 0
    | 2 => 0
    | _ => 0xFF
  BitVec.ofNat 32 (byte 0 + byte 1 * 2 ^ 8 + byte 2 * 2 ^ 16 + byte 3 * 2 ^ 24)

def execPerm (h : Hdr) (o : Opnds) (m : IMods) : State → Host.Outcome State Fault Refusal :=
  aluWord (.perm h o m) (eff3 o permValue)

/-- The conditions of R229 on exact values; `both` is the AND of the low bits. -/
def intCond (cc : Nat) (a b : Int) (both : Nat) : Bool :=
  match cc with
  | 0 => decide (a = b)
  | 1 => decide (a ≠ b)
  | 2 => decide (a < b)
  | 3 => decide (a ≤ b)
  | 4 => decide (b < a)
  | 5 => decide (b ≤ a)
  | _ => decide (both ≠ 0)

/-- R229. -/
def execCmp (h : Hdr) (o : Opnds) (m : IMods) : State → Host.Outcome State Fault Refusal :=
  aluWord (.cmp h o m) fun c x i =>
    cmpEffect o.d m.x (c.reg x.base 1 i) (match srcVal c x o.a i, srcVal c x o.b i with
      | some a, some b => some (intCond (xf m.x 2 0) (wsrc m.ty a) (wsrc m.ty b) (wlow m.ty a &&& wlow m.ty b))
      | _, _ => none) 0

/-- R230: selection by a bit of v1. -/
def selEffect (o : Opnds) (m : IMods) (c : Core) (x : Iss) (i : Nat) : LaneEffect :=
  let v1 := c.reg x.base 1 i
  .word o.d (
    if v1.isPoison then .poison
    else match srcVal c x o.a i, srcVal c x o.b i with
      | some a, some b => .good (if v1.val.getLsbD (xf m.x 4 0) != m.x.getLsbD 5 then a else b)
      | _, _ => .poison)

def execSel (h : Hdr) (o : Opnds) (m : IMods) : State → Host.Outcome State Fault Refusal := aluWord (.sel h o m) (selEffect o m)

/-- R231. -/
def execMov (h : Hdr) (o : Opnds) (m : IMods) : State → Host.Outcome State Fault Refusal :=
  aluWord (.mov h o m) (eff1 o fun a => a)

/-- R232. -/
def execLdi (h : Hdr) (o : Opnds) (m : IMods) : State → Host.Outcome State Fault Refusal :=
  aluWord (.ldi h o m) (eff1 o fun a => a)

/-- Src64 of a pair (R234). -/
def dsrc (t : Ty) (v : DWord) : Int := intSrc (ty64 t) v.toNat

/-- R235. -/
def execAdd64 (h : Hdr) (o : Opnds) (m : IMods) : State → Host.Outcome State Fault Refusal :=
  aluWord (.add64 h o m) (eff64 o fun a b => intRes64 (ty64 m.ty) m.sat (dsrc m.ty a + dsrc m.ty b))
def execAdd64Sub (h : Hdr) (o : Opnds) (m : IMods) : State → Host.Outcome State Fault Refusal :=
  aluWord (.add64Sub h o m) (eff64 o fun a b => intRes64 (ty64 m.ty) m.sat (dsrc m.ty a - dsrc m.ty b))
def execAdd64Neg (h : Hdr) (o : Opnds) (m : IMods) : State → Host.Outcome State Fault Refusal :=
  aluWord (.add64Neg h o m) fun c x i => .wide o.d ((srcVal64 c x o.a i).map fun a => intRes64 (ty64 m.ty) m.sat (-dsrc m.ty a)) 0
def execMul64 (h : Hdr) (o : Opnds) (m : IMods) : State → Host.Outcome State Fault Refusal :=
  aluWord (.mul64 h o m) (eff64 o fun a b => intRes64 (ty64 m.ty) m.sat (dsrc m.ty a * dsrc m.ty b))

/-- A shift of a pair by a 32-bit amount (R236). -/
def shift64 (o : Opnds) (f : DWord → Nat → DWord) (c : Core) (x : Iss) (i : Nat) : LaneEffect :=
  .wide o.d (match srcVal64 c x o.a i, srcVal c x o.b i with
    | some a, some n => some (f a n.toNat)
    | _, _ => none) 0

/-- R236. -/
def execSh64Shl (h : Hdr) (o : Opnds) (m : IMods) : State → Host.Outcome State Fault Refusal :=
  aluWord (.sh64Shl h o m) (shift64 o fun a n => if n < 64 then a <<< n else 0)
def execSh64Shr (h : Hdr) (o : Opnds) (m : IMods) : State → Host.Outcome State Fault Refusal :=
  aluWord (.sh64Shr h o m) (shift64 o fun a n => if n < 64 then a >>> n else 0)
def execSh64Sar (h : Hdr) (o : Opnds) (m : IMods) : State → Host.Outcome State Fault Refusal :=
  aluWord (.sh64Sar h o m) (shift64 o fun a n => a.sshiftRight (min n 63))

/-- R237. -/
def execCmp64 (h : Hdr) (o : Opnds) (m : IMods) : State → Host.Outcome State Fault Refusal :=
  aluWord (.cmp64 h o m) fun c x i =>
    cmpEffect o.d m.x (c.reg x.base 1 i) (match srcVal64 c x o.a i, srcVal64 c x o.b i with
      | some a, some b => some (intCond (xf m.x 2 0) (dsrc m.ty a) (dsrc m.ty b) (a.toNat &&& b.toNat))
      | _, _ => none) 0

end Sys2Proof.Machine
end

