-- ==== Sys2Proof/Machine/Sfu.lean ====
section
/-!
DEFINITION. The special-function unit (spec/11_float.md R257, R258). Where no exact case is stated, the result is a free value
that keeps its bound (log entry 9): the implementation's value where it lies within the bound, else the rounded one. The real
functions are computed in fixed point with 100 fraction bits.
-/

namespace Sys2Proof.Machine

/-- One, ln 2 and pi in fixed point with 100 fraction bits. -/
def fxOne : Nat := 2 ^ 100
def fxLn2 : Nat := 878668439483319573618263538048
def fxPi : Nat := 3982441812995697363688351113952

def fxMul (a b : Nat) : Nat := a * b / fxOne
def fxDiv (a b : Nat) : Nat := a * fxOne / b

/-- A finite magnitude in fixed point. -/
def fxOf (m : Nat) (e : Int) : Nat := if 0 ≤ e + 100 then shlInt m (e + 100) else m >>> (-(e + 100)).toNat

/-- e^x for x below 1, by its series. -/
def fxExp (x : Nat) : Nat :=
  ((List.range 32).foldl (fun (p : Nat × Nat) k => let t := fxMul p.2 x / (k + 1); (p.1 + t, t)) (fxOne, fxOne)).1

/-- 2^f for a fraction f. -/
def fxExp2 (f : Nat) : Nat := fxExp (fxMul f fxLn2)

/-- ln m for m from 1 to 2, by the series in (m - 1)/(m + 1). -/
def fxLn (m : Nat) : Nat :=
  let z := fxDiv (m - fxOne) (m + fxOne)
  let z2 := fxMul z z
  2 * ((List.range 40).foldl (fun (p : Nat × Nat) k => (p.1 + p.2 / (2 * k + 1), fxMul p.2 z2)) (0, z)).1

/-- sin x for x from 0 to pi/2, by its series. -/
def fxSin (x : Nat) : Nat :=
  let x2 := fxMul x x
  ((List.range 24).foldl (fun (p : Int × Nat) k =>
    (if k % 2 = 0 then p.1 + p.2 else p.1 - p.2, fxMul p.2 x2 / ((2 * k + 2) * (2 * k + 3)))) (0, x)).1.toNat

/-- The real function of a minor at a finite non-zero value, to far below its bound, with the binary exponent that the bound
counts ulps from, or the absolute bound's exponent. -/
def sfuReal (minor : Nat) (neg : Bool) (m : Nat) (e : Int) : Exact :=
  match minor with
  | 0 => exactDiv (exactOf neg 1 0) (exactOf false m e)
  | 1 => exactDiv (exactOf false 1 0) (exactSqrt (exactOf false m e))
  | 2 => exactSqrt (exactOf neg m e)
  | 3 =>
    if neg && decide (floorLog2 m e < -90) then ⟨false, 2 ^ 100 - 1, -100, true⟩ else
    let x : Int := if neg then -(fxOf m e : Int) else fxOf m e
    let k := x / (fxOne : Int)
    if k < -400 then ⟨false, 1, -400, true⟩ else if 400 < k then ⟨false, 1, 400, true⟩
    else ⟨false, fxExp2 (x % (fxOne : Int)).toNat, k - 100, true⟩
  | 4 =>
    let top := floorLog2 m e
    let v : Int := top * (fxOne : Int) + fxDiv (fxLn (fxOf m (e - top))) fxLn2
    ⟨decide (v < 0), v.natAbs, -100, true⟩
  | 5 =>
    if floorLog2 m e < -40 then exactMul (exactOf neg m e) (exactOf false fxPi (-100)) else
    let r := fxOf m e % (2 * fxOne)
    let s := if fxOne ≤ r then r - fxOne else r
    let q := if 2 * s ≤ fxOne then s else fxOne - s
    ⟨neg != decide (fxOne ≤ r), fxSin (fxMul q fxPi), -100, true⟩
  | 6 =>
    let r := fxOf m e % (2 * fxOne)
    let s := if fxOne ≤ r then 2 * fxOne - r else r
    if 2 * s ≤ fxOne then ⟨false, fxSin (fxMul (fxOne / 2 - s) fxPi), -100, true⟩
    else ⟨true, fxSin (fxMul (s - fxOne / 2) fxPi), -100, true⟩
  | _ =>
    if floorLog2 m e < -12 then
      let x2 := exactMul (exactOf false m e) (exactOf false m e)
      let c := exactDiv x2 (exactOf false 3 0)
      exactMul (exactOf neg m e) (exactAdd .rn (exactOf false 1 0) ⟨true, c.m, c.e, false⟩)
    else if 6 < floorLog2 m e then ⟨neg, 2 ^ 100 - 1, -100, true⟩
    else
      let y := fxDiv (2 * fxOf m e) fxLn2
      let t := fxExp2 (y % fxOne) * 2 ^ (y / fxOne)
      ⟨neg, fxDiv (t - fxOne) (t + fxOne), -100, true⟩

/-- The bound of a minor (R257) as a multiple of a power of two: k times 2^q. An ulp is measured at the real result. -/
def sfuBound (minor : Nat) (m : Nat) (e : Int) (r : Exact) : Nat × Int :=
  let ulp : Int := max (floorLog2 r.m r.e) (-126) - 23
  match minor with
  | 0 => (1, ulp)
  | 4 => if floorLog2 m e = 0 ∨ floorLog2 m e = -1 ∨ (m = 2 ^ m.log2 ∧ floorLog2 m e = 1) then (1, -22) else (2, ulp)
  | 5 | 6 => if floorLog2 m e < 20 ∨ (m = 2 ^ m.log2 ∧ floorLog2 m e = 20) then (1, -22) else (1, -16)
  | _ => (2, ulp)

/-- Whether an f32 value lies within a bound of a real. -/
def withinBound (g : FVal) (r : Exact) (b : Nat × Int) : Bool :=
  match g with
  | .fin n m e =>
    let d := exactAdd .rn (exactOf n m e) ⟨!r.neg, r.m, r.e, false⟩
    !exactLt (exactOf false b.1 b.2) ⟨false, d.m, d.e, false⟩
  | _ => false

/-- An integral value, and whether a value lies in ℤ + ½. -/
def isIntegral (m : Nat) (e : Int) : Bool := decide (0 ≤ e) || m % 2 ^ (-e).toNat == 0
def isHalf (m : Nat) (e : Int) : Bool := !isIntegral m e && isIntegral (2 * m) e

/-- Whether an integral magnitude is odd. -/
def isOddInt (m : Nat) (e : Int) : Bool := if 0 < e then false else (m >>> (-e).toNat) % 2 == 1

/-- The exact cases of R258 for a finite or infinite value, with their flags; none where the bound of R257 applies. -/
def sfuExact (minor : Nat) (a : FVal) : Option (Nat × Flags) :=
  let f := Fmt.f32
  let one (neg : Bool) : Nat := f.signed neg 0x3F800000
  let inf (neg : Bool) : Nat := f.signed neg f.infBits
  let pow (neg : Bool) (k : Int) : Nat := (f.round .rn false false (exactOf neg 1 k)).1
  match a with
  | .nan s => some (nanResult f [.nan s])
  | .inf n =>
    match minor with
    | 0 => some (f.signed n 0, 0)
    | 1 => if n then some (invalid f) else some (0, 0)
    | 2 => if n then some (invalid f) else some (inf false, 0)
    | 3 => some (if n then 0 else inf false, 0)
    | 4 => if n then some (invalid f) else some (inf false, 0)
    | 5 | 6 => some (invalid f)
    | _ => some (one n, 0)
  | .fin n m e =>
    if m = 0 then
      match minor with
      | 0 => some (inf n, Flags.dz)
      | 1 => some (inf n, Flags.dz)
      | 2 => some (f.signed n 0, 0)
      | 3 => some (one false, 0)
      | 4 => some (inf true, Flags.dz)
      | 5 => some (f.signed n 0, 0)
      | 6 => some (one false, 0)
      | _ => some (f.signed n 0, 0)
    else
      let pow2 := decide (m = 2 ^ m.log2)
      let k := floorLog2 m e
      match minor with
      | 0 => if pow2 && decide (-126 ≤ -k) && decide (-k ≤ 127) then some (pow n (-k), 0) else none
      | 1 => if n then some (invalid f) else if pow2 && decide (k % 2 = 0) then some (pow false (-(k / 2)), 0) else none
      | 2 => if n then some (invalid f) else none
      | 3 =>
        let v : Int := if n then -((shlInt m e >>> (-e).toNat : Nat) : Int) else (shlInt m e >>> (-e).toNat : Nat)
        if isIntegral m e && decide (-126 ≤ v) && decide (v ≤ 127) then some (pow false v, 0) else none
      | 4 => if n then some (invalid f)
        else if pow2 then some ((f.round .rn false false (exactOf (decide (k < 0)) k.natAbs 0)).1, 0) else none
      | 5 => if isIntegral m e then some (f.signed n 0, 0)
        else if isHalf m e then some (one (n != isOddInt (m - 2 ^ ((-e).toNat - 1)) e), 0) else none
      | 6 => if isHalf m e then some (0, 0) else if isIntegral m e then some (one (isOddInt m e), 0) else none
      | _ => none

/-- The result of `sfu` on the bits of A after R239, with its flags (R257, R258; `ftz` as R144). -/
def sfuValue (minor : Nat) (rnd : Rnd) (ftz : Bool) (x : Nat) : Nat × Flags :=
  let f := Fmt.f32
  let a := f.decode x
  match sfuExact minor a, a with
  | some r, _ => r
  | none, .fin n m e =>
    let r := sfuReal minor n m e
    let rounded := f.round rnd false ftz r
    if minor = 2 then rounded
    else
      let fl := (f.round rnd false ftz { r with st := true }).2 ||| Flags.nx
      if rounded.2 &&& Flags.of ≠ 0 then (rounded.1, fl)
      else
        let g := (Config.sfu minor (BitVec.ofNat 32 x)).toNat
        let v := if withinBound (f.decode g) r (sfuBound minor m e r) then g else (f.round .rn false false r).1
        if ftz && f.isSubnormal v then (if 2 ^ 31 ≤ v then 2 ^ 31 else 0, fl ||| Flags.uf) else (v, fl)
  | none, _ => (f.nanBits, 0)

end Sys2Proof.Machine
end

