-- ==== Sys2Proof/Machine/FloatOps.lean ====
section
/-!
DEFINITION. The floating-point majors 0x20 to 0x35 (spec/11_float.md R238 to R259).
-/

namespace Sys2Proof.Machine

/-- A 32-bit result with flags, poison where an operand is (R147, R241). -/
def fEffect (d : BitVec 8) (r : Option (Nat × Flags)) : LaneEffect :=
  match r with
  | some (v, f) => ⟨[(d.toNat, .good (BitVec.ofNat 32 v))], none, f⟩
  | none => ⟨[(d.toNat, .poison)], none, 0⟩

/-- A 64-bit result with flags. -/
def dEffect (d : BitVec 8) (r : Option (Nat × Flags)) : LaneEffect :=
  match r with
  | some (v, f) => .wide d (some (BitVec.ofNat 64 v)) f
  | none => .wide d none 0

/-- A float operation of one, two or three f32 operands, on their bits after R239. -/
def f1 (o : Opnds) (m : FMods) (g : Nat → Nat × Flags) (c : Core) (x : Iss) (i : Nat) : LaneEffect :=
  fEffect o.d ((srcVal c x o.a i).map fun a => g (fInBits .f32 a.toNat m.na m.ftz))

def f2 (o : Opnds) (m : FMods) (g : Nat → Nat → Nat × Flags) (c : Core) (x : Iss) (i : Nat) : LaneEffect :=
  fEffect o.d (match srcVal c x o.a i, srcVal c x o.b i with
    | some a, some b => some (g (fInBits .f32 a.toNat m.na m.ftz) (fInBits .f32 b.toNat m.nb m.ftz))
    | _, _ => none)

def f3 (o : Opnds) (m : FMods) (g : Nat → Nat → Nat → Nat × Flags) (c : Core) (x : Iss) (i : Nat) : LaneEffect :=
  fEffect o.d (match srcVal c x o.a i, srcVal c x o.b i, srcVal c x o.c i with
    | some a, some b, some k => some (g (fInBits .f32 a.toNat m.na m.ftz) (fInBits .f32 b.toNat m.nb m.ftz)
        (fInBits .f32 k.toNat m.nc m.ftz))
    | _, _, _ => none)

/-- A float operation of one, two or three f64 pairs. -/
def d1 (o : Opnds) (m : FMods) (g : Nat → Nat × Flags) (c : Core) (x : Iss) (i : Nat) : LaneEffect :=
  dEffect o.d ((srcVal64 c x o.a i).map fun a => g (fInBits .f64 a.toNat m.na false))

def d2 (o : Opnds) (m : FMods) (g : Nat → Nat → Nat × Flags) (c : Core) (x : Iss) (i : Nat) : LaneEffect :=
  dEffect o.d (match srcVal64 c x o.a i, srcVal64 c x o.b i with
    | some a, some b => some (g (fInBits .f64 a.toNat m.na false) (fInBits .f64 b.toNat m.nb false))
    | _, _ => none)

def d3 (o : Opnds) (m : FMods) (g : Nat → Nat → Nat → Nat × Flags) (c : Core) (x : Iss) (i : Nat) : LaneEffect :=
  dEffect o.d (match srcVal64 c x o.a i, srcVal64 c x o.b i, srcVal64 c x o.c i with
    | some a, some b, some k => some (g (fInBits .f64 a.toNat m.na false) (fInBits .f64 b.toNat m.nb false)
        (fInBits .f64 k.toNat m.nc false))
    | _, _, _ => none)

/-- The operations of R243 on encodings. -/
def addOp (f : Fmt) (m : FMods) (a b : Nat) : Nat × Flags := fAdd f m.rnd m.sat m.ftz (f.decode a) (f.decode b)
def mulOp (f : Fmt) (m : FMods) (a b : Nat) : Nat × Flags := fMul f m.rnd m.sat m.ftz (f.decode a) (f.decode b)
def fmaOp (f : Fmt) (m : FMods) (a b k : Nat) : Nat × Flags :=
  fFma f m.rnd m.sat m.ftz (f.decode a) (f.decode b) (f.decode k)

/-- R243. -/
def execFadd (h : Hdr) (o : Opnds) (m : FMods) : State → Host.Outcome State Fault Refusal :=
  aluWord (.fadd h o m) (f2 o m (addOp .f32 m))
def execFmul (h : Hdr) (o : Opnds) (m : FMods) : State → Host.Outcome State Fault Refusal :=
  aluWord (.fmul h o m) (f2 o m (mulOp .f32 m))
def execFfma (h : Hdr) (o : Opnds) (m : FMods) : State → Host.Outcome State Fault Refusal :=
  aluWord (.ffma h o m) (f3 o m (fmaOp .f32 m))

/-- R244. -/
def execFminMin (h : Hdr) (o : Opnds) (m : FMods) : State → Host.Outcome State Fault Refusal :=
  aluWord (.fminMin h o m) (f2 o m (fMinMax .f32 false false))
def execFminMax (h : Hdr) (o : Opnds) (m : FMods) : State → Host.Outcome State Fault Refusal :=
  aluWord (.fminMax h o m) (f2 o m (fMinMax .f32 true false))
def execFminMinnum (h : Hdr) (o : Opnds) (m : FMods) : State → Host.Outcome State Fault Refusal :=
  aluWord (.fminMinnum h o m) (f2 o m (fMinMax .f32 false true))
def execFminMaxnum (h : Hdr) (o : Opnds) (m : FMods) : State → Host.Outcome State Fault Refusal :=
  aluWord (.fminMaxnum h o m) (f2 o m (fMinMax .f32 true true))

/-- The comparison of R247 on two encodings, and the flags it raises. -/
def fcmpValue (f : Fmt) (x : BitVec 11) (a b : Nat) : Bool × Flags :=
  let va := f.decode a
  let vb := f.decode b
  let r := fCond (xf x 2 0) va vb
  (r.1, if va.isSnan || vb.isSnan || (x.getLsbD 10 && r.2) then Flags.nv else 0)

/-- R247. -/
def fcmpEffect (o : Opnds) (m : IMods) (c : Core) (x : Iss) (i : Nat) (r : Option (Bool × Flags)) : LaneEffect :=
  cmpEffect o.d m.x (c.reg x.base 1 i) (r.map Prod.fst) ((r.map Prod.snd).getD 0)

def execFcmp (h : Hdr) (o : Opnds) (m : IMods) : State → Host.Outcome State Fault Refusal :=
  aluWord (.fcmp h o m) fun c x i => fcmpEffect o m c x i (match srcVal c x o.a i, srcVal c x o.b i with
    | some a, some b => some (fcmpValue .f32 m.x a.toNat b.toNat)
    | _, _ => none)
def execDcmp (h : Hdr) (o : Opnds) (m : IMods) : State → Host.Outcome State Fault Refusal :=
  aluWord (.dcmp h o m) fun c x i => fcmpEffect o m c x i (match srcVal64 c x o.a i, srcVal64 c x o.b i with
    | some a, some b => some (fcmpValue .f64 m.x a.toNat b.toNat)
    | _, _ => none)

/-- R248. -/
def execFrnd (h : Hdr) (o : Opnds) (m : FMods) : State → Host.Outcome State Fault Refusal :=
  aluWord (.frnd h o m) (f1 o m (fRoundInt .f32 m.rnd))
def execDrnd (h : Hdr) (o : Opnds) (m : FMods) : State → Host.Outcome State Fault Refusal :=
  aluWord (.drnd h o m) (d1 o m (fRoundInt .f64 m.rnd))

/-- The exponent that a conversion to e8m0 takes (R146), and whether it was inexact. -/
def e8m0Exp (rnd : Rnd) (m : Nat) (e : Int) : Int × Bool :=
  let k := floorLog2 m e
  let pow2 := decide (m = 2 ^ m.log2)
  let up := match rnd with
    | .ru => !pow2
    | .rn => decide (3 * 2 ^ m.log2 ≤ 2 * m)
    | _ => false
  (if up then k + 1 else k, !pow2)

/-- Conversion of a value to e8m0 (R146). -/
def toE8m0 (rnd : Rnd) (v : FVal) : Nat × Flags :=
  match v with
  | .fin _ m e =>
    if m = 0 then (0xFF, Flags.nv)
    else
      let (k, inexact) := e8m0Exp rnd m e
      if k < -127 ∨ 127 < k then (0xFF, Flags.nv) else ((k + 127).toNat, if inexact then Flags.nx else 0)
  | _ => (0xFF, Flags.nv)

/-- Conversion of a value to an integer type (R145, R146); the number is of the type's width. -/
def toIntTy (t : Ty) (rnd : Rnd) (v : FVal) : Int × Flags :=
  match v with
  | .nan _ => (0, Flags.nv)
  | .inf n => (if n then intLo t else intHi t, Flags.nv)
  | .fin n m e =>
    let (k, inexact) := (exactOf n m e).toInt rnd
    if k < intLo t ∨ intHi t < k then (intClamp t k, Flags.nv) else (k, if inexact then Flags.nx else 0)

/-- Conversion of a value to a float format (R251 lines 7 to 11). -/
def toFloat (t : Ty) (f : Fmt) (rnd : Rnd) (sat ftz : Bool) (v : FVal) : Nat × Flags :=
  match v with
  | .nan s => if t = .e2m1 then (0, Flags.nv) else (f.nanBits, if s then Flags.nv else 0)
  | .inf n =>
    if t = .e4m3 ∨ t = .e2m1 then
      if sat then (f.signed n f.maxBits, 0) else (if t = .e4m3 then f.nanBits else f.signed n f.maxBits, Flags.nv)
    else infResult f n sat
  | .fin n m e => f.round rnd sat ftz (exactOf n m e)

/-- `ftz` acts only on f32, f16 and bf16 (R249). -/
def ftzSide (t : Ty) : Bool := t == .f32 || t == .f16 || t == .bf16

/-- The value that a conversion reads (R251 lines 1 and 2). -/
def cvtSource (t : Ty) (ftz : Bool) (x : Nat) : FVal :=
  match Ty.fmt t with
  | some f => fIn f x 0 (ftz && ftzSide t)
  | none =>
    if t = .e8m0 then (if x % 256 = 255 then .nan false else .fin false 1 ((x % 256 : Nat) - 127))
    else
      let v := intSrc t x
      .fin (decide (v < 0)) v.natAbs 0

/-- A conversion (R251): the destination's bits (a lane-word or a pair) and flags. -/
def cvtValue (m : TMods) (x : Nat) : Nat × Flags :=
  let v := cvtSource m.stype m.ftz x
  match Ty.fmt m.dtype with
  | some f => toFloat m.dtype f m.rnd m.sat (m.ftz && ftzSide m.dtype) v
  | none =>
    if m.dtype = .e8m0 then toE8m0 m.rnd v
    else
      let r := toIntTy m.dtype m.rnd v
      (if m.dtype.is64 then modPow 64 r.1 else modPow 32 r.1, r.2)

/-- R251. -/
def cvtEffect (o : Opnds) (m : TMods) (c : Core) (x : Iss) (i : Nat) : LaneEffect :=
  let src : Option Nat := if m.stype.is64 then (srcVal64 c x o.a i).map BitVec.toNat else (srcVal c x o.a i).map BitVec.toNat
  if m.dtype.is64 then dEffect o.d (src.map (cvtValue m)) else fEffect o.d (src.map (cvtValue m))

def execFcvt (h : Hdr) (o : Opnds) (m : TMods) : State → Host.Outcome State Fault Refusal := aluWord (.fcvt h o m) (cvtEffect o m)
def execDcvt (h : Hdr) (o : Opnds) (m : TMods) : State → Host.Outcome State Fault Refusal := aluWord (.dcvt h o m) (cvtEffect o m)

/-- R252. -/
def classOf (x : Nat) : Nat :=
  let f := Fmt.f32
  match f.decode x with
  | .nan s => if s then 1 else 2
  | .inf n => if n then 4 else 0x200
  | .fin n m _ =>
    if m = 0 then (if n then 0x20 else 0x40)
    else if f.isSubnormal x then (if n then 0x10 else 0x80)
    else if n then 8 else 0x100

def execFclass (h : Hdr) (o : Opnds) (m : FMods) : State → Host.Outcome State Fault Refusal :=
  aluWord (.fclass h o m) (f1 o m fun a => (classOf a, 0))

/-- R253. Infinities and zeros are returned unchanged. An exponent beyond 1,000 either way overflows or vanishes like 1,000. -/
def scaleValue (m : FMods) (a : Nat) (k : Int) : Nat × Flags :=
  match Fmt.f32.decode a with
  | .nan s => nanResult .f32 [.nan s]
  | .inf _ => (a, 0)
  | .fin n v e => if v = 0 then (a, 0) else Fmt.f32.round m.rnd m.sat m.ftz (exactOf n v (e + max (-1000) (min k 1000)))

def execFscale (h : Hdr) (o : Opnds) (m : FMods) : State → Host.Outcome State Fault Refusal :=
  aluWord (.fscale h o m) fun c x i => fEffect o.d (match srcVal c x o.a i, srcVal c x o.b i with
    | some a, some b => some (scaleValue m (fInBits .f32 a.toNat m.na m.ftz) b.toInt)
    | _, _ => none)

/-- R254. -/
def xtrValue (a : Nat) : Nat × Flags :=
  match Fmt.f32.decode a with
  | .nan _ => (0x80000000, Flags.nv)
  | .inf _ => (0x7FFFFFFF, Flags.nv)
  | .fin _ m e => if m = 0 then (0x80000000, Flags.nv) else (modPow 32 (floorLog2 m e), 0)

def execFxtr (h : Hdr) (o : Opnds) (m : FMods) : State → Host.Outcome State Fault Refusal :=
  aluWord (.fxtr h o m) (f1 o m xtrValue)

/-- The format of a packed major (R255). -/
def packedFmt (m : FMods) : Fmt := if m.ty = .bf16 then .bf16 else .f16

/-- An operation on both halves (R255). -/
def halves (g : Nat → Nat × Flags) : Nat × Flags :=
  let lo := g 0
  let hi := g 16
  (lo.1 + hi.1 * 65536, lo.2 ||| hi.2)

/-- One half of an operand after R239. -/
def halfIn (m : FMods) (n : BitVec 2) (v : Word) (k : Nat) : Nat := fInBits (packedFmt m) (nbits v.toNat (k + 15) k) n m.ftz

def h2 (o : Opnds) (m : FMods) (g : Nat → Nat → Nat × Flags) (c : Core) (x : Iss) (i : Nat) : LaneEffect :=
  fEffect o.d (match srcVal c x o.a i, srcVal c x o.b i with
    | some a, some b => some (halves fun k => g (halfIn m m.na a k) (halfIn m m.nb b k))
    | _, _ => none)

def h3 (o : Opnds) (m : FMods) (g : Nat → Nat → Nat → Nat × Flags) (c : Core) (x : Iss) (i : Nat) : LaneEffect :=
  fEffect o.d (match srcVal c x o.a i, srcVal c x o.b i, srcVal c x o.c i with
    | some a, some b, some w => some (halves fun k => g (halfIn m m.na a k) (halfIn m m.nb b k) (halfIn m m.nc w k))
    | _, _, _ => none)

/-- R255, R245. -/
def execHadd2 (h : Hdr) (o : Opnds) (m : FMods) : State → Host.Outcome State Fault Refusal :=
  aluWord (.hadd2 h o m) (h2 o m (addOp (packedFmt m) m))
def execHmul2 (h : Hdr) (o : Opnds) (m : FMods) : State → Host.Outcome State Fault Refusal :=
  aluWord (.hmul2 h o m) (h2 o m (mulOp (packedFmt m) m))
def execHfma2 (h : Hdr) (o : Opnds) (m : FMods) : State → Host.Outcome State Fault Refusal :=
  aluWord (.hfma2 h o m) (h3 o m (fmaOp (packedFmt m) m))
def execHmin2 (h : Hdr) (o : Opnds) (m : FMods) : State → Host.Outcome State Fault Refusal :=
  aluWord (.hmin2 h o m) (h2 o m (fMinMax (packedFmt m) false true))

/-- R256. -/
def execDadd (h : Hdr) (o : Opnds) (m : FMods) : State → Host.Outcome State Fault Refusal :=
  aluWord (.dadd h o m) (d2 o m (addOp .f64 { m with ftz := false }))
def execDmul (h : Hdr) (o : Opnds) (m : FMods) : State → Host.Outcome State Fault Refusal :=
  aluWord (.dmul h o m) (d2 o m (mulOp .f64 { m with ftz := false }))
def execDfma (h : Hdr) (o : Opnds) (m : FMods) : State → Host.Outcome State Fault Refusal :=
  aluWord (.dfma h o m) (d3 o m (fmaOp .f64 { m with ftz := false }))
def execDmin (h : Hdr) (o : Opnds) (m : FMods) : State → Host.Outcome State Fault Refusal :=
  aluWord (.dmin h o m) (d2 o m (fMinMax .f64 false true))

/-- R257 to R259: the results of the special-function unit are variable-latency. -/
def sfuEffect (minor : Nat) (o : Opnds) (m : FMods) : Core → Iss → Nat → LaneEffect := f1 o m (sfuValue minor m.rnd m.ftz)

def execSfuRcp (h : Hdr) (o : Opnds) (m : FMods) : State → Host.Outcome State Fault Refusal := varWord (.sfuRcp h o m) (sfuEffect 0 o m)
def execSfuRsq (h : Hdr) (o : Opnds) (m : FMods) : State → Host.Outcome State Fault Refusal := varWord (.sfuRsq h o m) (sfuEffect 1 o m)
def execSfuSqrt (h : Hdr) (o : Opnds) (m : FMods) : State → Host.Outcome State Fault Refusal := varWord (.sfuSqrt h o m) (sfuEffect 2 o m)
def execSfuEx2 (h : Hdr) (o : Opnds) (m : FMods) : State → Host.Outcome State Fault Refusal := varWord (.sfuEx2 h o m) (sfuEffect 3 o m)
def execSfuLg2 (h : Hdr) (o : Opnds) (m : FMods) : State → Host.Outcome State Fault Refusal := varWord (.sfuLg2 h o m) (sfuEffect 4 o m)
def execSfuSinpi (h : Hdr) (o : Opnds) (m : FMods) : State → Host.Outcome State Fault Refusal := varWord (.sfuSinpi h o m) (sfuEffect 5 o m)
def execSfuCospi (h : Hdr) (o : Opnds) (m : FMods) : State → Host.Outcome State Fault Refusal := varWord (.sfuCospi h o m) (sfuEffect 6 o m)
def execSfuTanh (h : Hdr) (o : Opnds) (m : FMods) : State → Host.Outcome State Fault Refusal := varWord (.sfuTanh h o m) (sfuEffect 7 o m)

end Sys2Proof.Machine
end

