-- ==== Sys2Proof/Machine/HostPort.lean ====
section
/-!
DEFINITION. The CXL port (spec/05_registration.md R115, R116, spec/16_links.md R393 to R395, spec/24_faults_memory.md R458): the
host agent's accesses to device memory, its snoops of host memory, IDE, SPDM, TDISP and the HDM decoders.
-/

namespace Sys2Proof.Machine

/-- The owner code of the host agent (R106). -/
def hostAgent : Nat := 0xC00

/-- A word of an HDM decoder (R394). -/
def State.hdmWord (s : State) (k w : Nat) : Nat := (SMap.get 0 s.hdm (4 * k + w)).toNat

/-- Whether a decoder covers a host address (R394). -/
def State.hdmCovers (s : State) (k hpa : Nat) : Bool :=
  nbit (s.hdmWord k 0) 0 && decide (nbits (s.hdmWord k 0) 63 28 ≤ nbits hpa 63 28) &&
    decide (nbits hpa 63 28 ≤ nbits (s.hdmWord k 1) 63 28)

/-- The enabled decoder that covers a host address (R394). -/
def State.hdmFind (s : State) (hpa : Nat) : Option Nat := (List.range 8).find? fun k => s.hdmCovers k hpa

/-- The device address that a decoder gives a host address (R394). -/
def State.hdmPa (s : State) (k hpa : Nat) : Nat := nbits (s.hdmWord k 2) 40 28 * 2 ^ 28 + (hpa - nbits (s.hdmWord k 0) 63 28 * 2 ^ 28)
def State.hdmSlot (s : State) (k : Nat) : Nat := nbits (s.hdmWord k 3) 5 0
def State.hdmPart (s : State) (k : Nat) : Nat := nbits (s.hdmWord k 3) 10 6
def State.hdmTracked (s : State) (k : Nat) : Bool := nbit (s.hdmWord k 3) 11

/-- A record for a partition (R439). -/
def State.notePart (s : State) (p kind cause addr : Nat) : State :=
  match s.sysCtx p with
  | some cx => s.note cx 3 kind (2 ^ 63 + cause) addr 0
  | none => s

/-- What a host access through a decoder finds (R394): the device address, where it may be used. A block outside the partition's
groups is refused with a record. -/
def State.hostReach (s : State) (k hpa : Nat) : State × Option Nat :=
  let pa := s.hdmPa k hpa
  if !(s.part (s.hdmPart k)).pcg.getLsbD (homeBank pa) || !isHbm pa then (s.notePart (s.hdmPart k) 42 39 pa, none)
  else match s.ensureLine none pa (s.hdmSlot k) true with
    | (s, true) => (s, some pa)
    | (s, false) => (s, none)

/-- Whether a request of the host that registers or writes a line waits for rows in own mode (R118). What only reads is answered with
poison there, as a Fetch is (R115). -/
def State.hostWaits (s : State) (line : Nat) : Bool := (List.range 32).any fun i => s.waitsOwn (32 * line + i)

/-- Whether the host's write of a word is dropped with its block (R394, R445): the block is poisoned, its tag has failed, or its metadata
row has, and the line is the one that the fill gave. -/
def State.hostDropped (s : State) (fresh : Bool) (pa : Nat) : Bool :=
  (match (s.getMeta (pa / 2048)).2 with
  | none => true
  | some m => m.p) && (fresh || (s.l2Word (pa / 4)).isPoison)

/-- The lines homed on a die that its snoop filter holds (R115). -/
def State.snoopOf (s : State) (die : Nat) : List Nat := s.snoop.filter fun l => lineBank l / 64 == die

/-- Whether a snoop filter has room for a line (R115). -/
def State.snoopRoom (s : State) (line : Nat) : Bool :=
  s.snoop.contains line || decide ((s.snoopOf (lineBank line / 64)).length < 262144)

/-- The words of a line. -/
def lineWordNos (line : Nat) : List Nat := (List.range 32).map (32 * line + ·)

/-- Data returned to the host with CXL poison in every word. -/
def poisonLine : List LWord := List.replicate 32 .poison

/-- HOST_SHARED_READ (R115, R394): a Fetch by the host agent through a tracked decoder; the snoop filter keeps the line. -/
def execHostSharedRead (hpa : Nat) (s : State) : Host.Outcome State Fault Refusal :=
  .next (match s.hdmFind hpa with
    | none => s
    | some k =>
      let line := s.hdmPa k hpa / 128
      if !s.running || s.hostOff || !s.hdmTracked k || !s.snoopRoom line then s
      else match s.hostReach k hpa with
        | (s, none) => { s with hostData := poisonLine }
        | (s, some _) => { s with hostData := (lineWordNos line).map fun w => (s.fetchHome none w).2,
                                  snoop := keepIn s.snoop line true })

/-- Every word of a line registered to the host agent, where the directory has room (R107, R109, R115): the words' values. -/
def State.hostRegister (s : State) (line : Nat) : State × Option (List LWord) :=
  if (lineWordNos line).all fun w => s.regAt w == some (.own hostAgent false) then (s, some ((lineWordNos line).map s.l2Word))
  else match s.makeRoom line hostAgent (lineWordNos line) with
    | (s, false) => (s, none)
    | (s, true) =>
      let step (acc : State × List LWord) (w : Nat) : State × List LWord :=
        let (t, v) := acc.1.registerHome hostAgent w false
        (t.homePut w v, acc.2 ++ [v])
      let r := (lineWordNos line).foldl step (s, [])
      (r.1, some r.2)

/-- HOST_EXCLUSIVE_REQUEST (R115, R394, R447): every word of the line becomes the host agent's. -/
def execHostExclusiveRequest (hpa : Nat) (s : State) : Host.Outcome State Fault Refusal :=
  .next (match s.hdmFind hpa with
    | none => s
    | some k =>
      let line := s.hdmPa k hpa / 128
      if !s.running || s.hostOff || !s.hdmTracked k || s.hostWaits line || !s.snoopRoom line then s
      else match s.hostReach k hpa with
        | (s, none) => { s with hostData := poisonLine }
        | (s, some _) => match s.exhausted (line * 32) with
          | (s, true) => { s.notePart (s.hdmPart k) 35 20 (line * 128) with hostData := poisonLine }
          | (s, false) => match s.hostRegister line with
            | (s, none) => s.wait
            | (s, some vs) => { s with hostData := vs, snoop := keepIn s.snoop line true })

/-- HOST_UNCACHED_ACCESS (R115, R394, R458): one word read or written at its home as a wide access by the host agent. -/
def execHostUncachedAccess (hpa : Nat) (acc : HostAccess) (s : State) : Host.Outcome State Fault Refusal :=
  .next (match s.hdmFind hpa with
    | none => s
    | some k =>
      let pa := s.hdmPa k hpa / 4 * 4
      if !s.running || s.hostOff || s.hdmTracked k || s.ownsWord hostAgent (pa / 4) then s
      else
        let fresh := (SMap.find s.l2 (pa / 128)).isNone
        let write (s : State) (v : LWord) : State := match s.hostReach k hpa with
          | (s, none) => s
          | (s, some _) =>
            if s.hostDropped fresh pa then s
            else match s.exhausted (pa / 4) with
              | (s, true) => s.notePart (s.hdmPart k) 35 20 pa
              | (s, false) => (s.writeHome none (s.hdmSlot k) true pa 4 v).1
        match acc with
        | .read => match s.hostReach k hpa with
          | (s, none) => { s with hostData := [.poison] }
          | (s, some _) => { s with hostData := [(s.fetchHome none (pa / 4)).2] }
        | .write v => write s (.good v)
        | .writePoison => (write s .poison).notePart (s.hdmPart k) 42 30 pa)

/-- HOST_SNOOP (R116): a line of host memory is recalled and given to the host, held words as poison. SnpInv takes it away, and waits
while an engine job's word pins the line (R108; log entry 125); after SnpData the home keeps it in state S. -/
def execHostSnoop (line : Nat) (inv : Bool) (s : State) : Host.Outcome State Fault Refusal :=
  .next (
    if !s.running || s.hostOff || isHbm (line * 128) || (SMap.find s.cacheLines line).isNone ||
        (inv && (s.lineRegs line).any fun e => e.2.isJ) then s
    else
      let s := s.recallLine line fun _ => true
      let data := (lineWordNos line).map fun w => match s.regAt w with
        | none => s.l2Word w
        | some _ => .poison
      let s := { s.hostLineOut line with hostData := data }
      if inv then { s with l2 := SMap.erase s.l2 line, cacheLines := SMap.erase s.cacheLines line }
      else { s with cacheLines := SMap.put s.cacheLines line false })

/-- A line leaves the snoop filter: the host's words of it become what a function says. -/
def State.leaveSnoop (s : State) (line : Nat) (r : Option RState) : State :=
  let ws := (lineWordNos line).filter (s.ownsWord hostAgent)
  let s := ws.foldl (fun s w => s.setRegAt w r) s
  { s with snoop := s.snoop.filter (· != line) }

/-- SNOOP_FILTER_EVICTION (R115, R487): the host answers BISnpInv; its dirty data goes into L2, and the entry is freed. -/
def execSnoopFilterEviction (line : Nat) (dirty : List (Nat × BitVec 32)) (s : State) : Host.Outcome State Fault Refusal :=
  .next (
    if !s.running || s.hostOff || !s.snoop.contains line then s
    else
      let s := dirty.foldl (fun s d =>
        if d.1 < 32 && s.ownsWord hostAgent (32 * line + d.1) then s.homePut (32 * line + d.1) (.good d.2) else s) s
      s.leaveSnoop line none)

/-- BISNP_TIMEOUT (R448, R458): the host agent's words of a line become lost, and its entry is freed. -/
def execBisnpTimeout (line : Nat) (s : State) : Host.Outcome State Fault Refusal :=
  .next (
    if !s.running || !s.snoop.contains line then s
    else
      let ws := (lineWordNos line).filter (s.ownsWord hostAgent)
      let wm := ws.foldl (fun m w => m + 2 ^ (w % 32)) 0
      let s := s.leaveSnoop line (some .lost)
      (s.noteFor none (lineBank line) 37 (2 ^ 63 + wm * 256 + 29) (line * 128)).noteFor none (lineBank line) 42 (2 ^ 63 + 29) (line * 128))

/-- The groups of a partition filled with zeros (R395): their blocks are as initialisation leaves them (log entry 26). -/
def State.zeroGroups (s : State) (p : Nat) : State :=
  let g := (s.part p).pcg
  let mine (pa : Nat) : Bool := isHbm pa && g.getLsbD (homeBank pa)
  let gone := (s.cores.map fun e => (e.1, { e.2 with l1 := e.2.l1.filter fun w => !mine (4 * w.1) }))
  let s := { s with
    hbm := s.hbm.filter fun c => !mine c.1
    l2 := s.l2.filter fun e => !mine (e.1 * 128)
    mcache := s.mcache.filter fun e => !mine (e.1 * 2048)
    rowsKept := s.rowsKept.filter fun e => !mine (e.1 * 2048)
    privWords := s.privWords.filter fun e => !mine (4 * e.1)
    root := s.root.filter fun e => !g.getLsbD (e.1 / 8)
    failedRows := s.failedRows.filter fun r => !mine (r * 2048)
    failedEngines := s.failedEngines.filter fun e => !g.getLsbD e
    regst := s.regst.filter fun e => !mine (4 * e.1)
    snoop := s.snoop.filter fun l => !mine (l * 128)
    cores := gone }
  { s with dirOrder := s.dirOrder.filter fun l => !mine (l * 128)
           splitOrder := s.splitOrder.filter fun l => !mine (l * 128)
           sidx := s.sidx.filter fun e => !mine (e.1 * 128)
           holdOrder := s.holdOrder.filter fun l => !mine (l.1 * 128) }

/-- A partition's contexts halt and its groups are filled with zeros: its TDI leaves RUN (R395). -/
def State.leaveRun (s : State) (p : Nat) : State :=
  let s := ((List.range 16).map (16 * p + ·)).foldl State.haltCtx s
  (s.setPart p { s.part p with holder := none, held := true, dumpId := none, dumped := false }).zeroGroups p

/-- A TDI moves to a state (R395). -/
def State.setTdi (s : State) (p : Nat) (t : Tdi) : State :=
  let s := if (s.part p).tdi = .run ∧ (t = .error ∨ t = .unlocked) then s.leaveRun p else s
  s.setPart p { s.part p with tdi := t }

/-- Whether the TDI of a partition refuses changes (R395). -/
def State.tdiLocked (s : State) (p : Nat) : Bool := (s.part p).tdi == .locked || (s.part p).tdi == .run

/-- IDE_INTEGRITY_FAILURE (R458). -/
def execIdeIntegrityFailure (s : State) : Host.Outcome State Fault Refusal :=
  .next (
    if !s.running then s
    else (List.range 20).foldl (fun s p => (s.setTdi p .error).notePart p 42 31 0) { s with ideFailed := true })

/-- IDE_REESTABLISH (R458): in an SPDM session; TDIs are assigned afresh. -/
def execIdeReestablish (s : State) : Host.Outcome State Fault Refusal :=
  .next (
    if !s.running || !s.ideFailed || s.sessions.isEmpty then s
    else (List.range 20).foldl (fun s p => s.setTdi p .unlocked) { s with ideFailed := false })

/-- SPDM_REQUEST (R393): the answer; a key exchange opens a session with its key-transfer key (R350). -/
def execSpdmRequest (r : SpdmReq) (s : State) : Host.Outcome State Fault Refusal :=
  .next (
    if s.pkcState < 2 || s.stopped then s
    else
      let s := { s with spdmOut := Config.spdmAnswer r }
      match r with
      | .keyExchange id ktk =>
        { s with sessions := (s.sessions.filter fun e => e.id != id) ++ [Session.mk id ktk none] }
      | _ => s)

/-- TDISP_REQUEST (R395; log entry 11 for the transitions). -/
def execTdispRequest (p : Nat) (r : TdispReq) (s : State) : Host.Outcome State Fault Refusal :=
  .next (
    if s.pkcState < 2 || s.stopped || s.ideFailed || decide (20 ≤ p) then s
    else match r, (s.part p).tdi with
      | .lock, .unlocked => s.setTdi p .locked
      | .start, .locked => s.setTdi p .run
      | .stop, _ => s.setTdi p .unlocked
      | _, _ => s)

/-- The bits of a word of an HDM decoder (R394); the others are reserved. -/
def hdmMask (w : Nat) : BitVec 64 :=
  match w with
  | 0 => 0xFFFFFFFFF0000001
  | 1 => 0xFFFFFFFFF0000000
  | 2 => 0x000001FFF0000000
  | _ => 0x0000000000000FFF

/-- The units of 256 MiB that a decoder maps. -/
def State.hdmUnits (s : State) (k : Nat) : Nat := nbits (s.hdmWord k 1) 63 28 + 1 - nbits (s.hdmWord k 0) 63 28

/-- Whether a decoder may be enabled (R394). -/
def State.hdmAllowed (s : State) (k : Nat) : Bool :=
  let overlap := (List.range 8).any fun j => j != k && nbit (s.hdmWord j 0) 0 &&
    decide (nbits (s.hdmWord k 0) 63 28 ≤ nbits (s.hdmWord j 1) 63 28) && decide (nbits (s.hdmWord j 0) 63 28 ≤ nbits (s.hdmWord k 1) 63 28)
  !overlap && s.hdmSlot k != 0 && decide ((nbits (s.hdmWord k 2) 40 28 + s.hdmUnits k) * 2 ^ 28 ≤ 0x1F000000000)

/-- HDM_DECODER_WRITE (R394, R395): a decoder changes only while its `en` is 0, but for `en` itself, and not while its partition's TDI
is locked or running. -/
def execHdmDecoderWrite (k w : Nat) (v : BitVec 64) (s : State) : Host.Outcome State Fault Refusal :=
  .next (
    if s.pkcState < 2 || s.stopped || decide (8 ≤ k) || decide (4 ≤ w) then s
    else
      let v := v &&& hdmMask w
      let set (x : BitVec 64) : State := { s with hdm := SMap.set 0 s.hdm (4 * k + w) x }
      let part := if w = 3 then nbits v.toNat 10 6 else s.hdmPart k
      if s.tdiLocked (s.hdmPart k) || s.tdiLocked part then s
      else if nbit (s.hdmWord k 0) 0 then
        (if w = 0 && !v.getLsbD 0 then set (SMap.get 0 s.hdm (4 * k) &&& ~~~1) else s)
      else if w = 0 && v.getLsbD 0 then (if (set v).hdmAllowed k then set v else s)
      else set v)

end Sys2Proof.Machine
end

