-- ==== Sys2Proof/Machine/Lanes.lean ====
section
/-!
DEFINITION. The lane majors 0x40 to 0x46 (spec/12_lanes_flow.md R260 to R268).
-/

namespace Sys2Proof.Machine

/-- The lanes of lane i's segment (R260). -/
def segmentOf (x : Iss) (i : Nat) : List Nat := (List.range 32).filter fun j => j / 2 ^ x.seg == i / 2 ^ x.seg

/-- The participating set P(i) (R260). -/
def participants (x : Iss) (i : Nat) : List Nat := (segmentOf x i).filter x.gt.getLsbD

/-- The values of a source over some lanes; none when one is poison (R260). -/
def valuesOver (c : Core) (x : Iss) (a : Src) : List Nat → Option (List (Nat × Word))
  | [] => some []
  | j :: js => match srcVal c x a j, valuesOver c x a js with
    | some v, some vs => some ((j, v) :: vs)
    | _, _ => none

/-- The bit of v1 that a lane major writes (R261): poison where an input is. -/
def predBit (m : IMods) (r : Option Bool) : Option (Nat × Option Bool) :=
  if xf m.x 7 3 = 0 then none else some (xf m.x 7 3, r)

/-- Where `shfl` reads within a segment of z lanes, and whether the index stayed in it (R262): lane k, index n. -/
def shflIndex (minor z k n : Nat) : Nat × Bool :=
  match minor with
  | 0 => (n % z, decide (n < z))
  | 1 => ((((k : Int) - n) % z).toNat, decide (n ≤ k))
  | 2 => ((k + n) % z, decide (k + n < z))
  | _ => (k ^^^ (n % z), decide (n < z))

/-- One lane of a `shfl` (R262). -/
def shflEffect (minor : Nat) (o : Opnds) (m : IMods) (c : Core) (x : Iss) (i : Nat) : LaneEffect :=
  let z := 2 ^ x.seg
  match srcVal c x o.b i with
  | none => ⟨[(o.d.toNat, .poison)], predBit m none, 0⟩
  | some n =>
    let (j, ok) := shflIndex minor z (i % z) n.toNat
    let src := i - i % z + j
    match srcVal c x o.a src with
    | none => ⟨[(o.d.toNat, .poison)], predBit m none, 0⟩
    | some v => ⟨[(o.d.toNat, .good v)], predBit m (some (ok && (participants x i).contains src)), 0⟩

/-- One lane of a word that combines the inputs of P(i) into a value and a predicate (R263, R264). -/
def voteEffect (o : Opnds) (m : IMods) (f : Nat → List (Nat × Word) → Word × Bool) (c : Core) (x : Iss) (i : Nat) : LaneEffect :=
  match valuesOver c x o.a (participants x i) with
  | none => ⟨[(o.d.toNat, .poison)], predBit m none, 0⟩
  | some vs => ⟨[(o.d.toNat, .good (f i vs).1)], predBit m (some (f i vs).2), 0⟩

/-- Whether every value of a list is equal. -/
def allEqual (vs : List (Nat × Word)) : Bool :=
  match vs with
  | [] => true
  | v :: l => l.all fun w => w.2 == v.2

/-- R262. -/
def execShflLane (h : Hdr) (o : Opnds) (m : IMods) : State → Host.Outcome State Fault Refusal :=
  varWord (.shflLane h o m) (shflEffect 0 o m)
def execShflBack (h : Hdr) (o : Opnds) (m : IMods) : State → Host.Outcome State Fault Refusal :=
  varWord (.shflBack h o m) (shflEffect 1 o m)
def execShflFwd (h : Hdr) (o : Opnds) (m : IMods) : State → Host.Outcome State Fault Refusal :=
  varWord (.shflFwd h o m) (shflEffect 2 o m)
def execShflFlip (h : Hdr) (o : Opnds) (m : IMods) : State → Host.Outcome State Fault Refusal :=
  varWord (.shflFlip h o m) (shflEffect 3 o m)

/-- R263. -/
def execVoteAll (h : Hdr) (o : Opnds) (m : IMods) : State → Host.Outcome State Fault Refusal :=
  varWord (.voteAll h o m) (voteEffect o m fun _ vs =>
    let r := vs.all fun v => v.2 != 0
    (boolMask r, r))
def execVoteAny (h : Hdr) (o : Opnds) (m : IMods) : State → Host.Outcome State Fault Refusal :=
  varWord (.voteAny h o m) (voteEffect o m fun _ vs =>
    let r := vs.any fun v => v.2 != 0
    (boolMask r, r))
def execVoteBallot (h : Hdr) (o : Opnds) (m : IMods) : State → Host.Outcome State Fault Refusal :=
  varWord (.voteBallot h o m) (voteEffect o m fun _ vs =>
    let d := maskOf ((vs.filter fun v => v.2 != 0).map Prod.fst)
    (d, d != 0))
def execVoteUni (h : Hdr) (o : Opnds) (m : IMods) : State → Host.Outcome State Fault Refusal :=
  varWord (.voteUni h o m) (voteEffect o m fun _ vs => (boolMask (allEqual vs), allEqual vs))

/-- The lanes of a list whose value is lane i's. -/
def sameAs (i : Nat) (vs : List (Nat × Word)) : Word :=
  maskOf ((vs.filter fun v => vs.any fun w => w.1 == i && w.2 == v.2).map Prod.fst)

/-- R264. -/
def execMatchAny (h : Hdr) (o : Opnds) (m : IMods) : State → Host.Outcome State Fault Refusal :=
  varWord (.matchAny h o m) (voteEffect o m fun i vs => (sameAs i vs, (sameAs i vs &&& ~~~ bitMask i) != 0))
def execMatchAll (h : Hdr) (o : Opnds) (m : IMods) : State → Host.Outcome State Fault Refusal :=
  varWord (.matchAll h o m) (voteEffect o m fun i vs => (if allEqual vs then sameAs i vs else 0, allEqual vs))

/-- The combinations of R265 and R266 by minor: add, min, max, and, or, xor. -/
def combine (op : Nat) (t : Ty) (a b : Word) : Word :=
  match op with
  | 0 => a + b
  | 1 => if intSrc t a.toNat ≤ intSrc t b.toNat then a else b
  | 2 => if intSrc t a.toNat ≤ intSrc t b.toNat then b else a
  | 3 => a &&& b
  | 4 => a ||| b
  | _ => a ^^^ b

/-- The identities of R266. -/
def scanIdentity (op : Nat) (t : Ty) : Word :=
  match op, tySigned t with
  | 0, _ => 0
  | 1, true => 0x7FFFFFFF
  | 1, false => 0xFFFFFFFF
  | _, true => 0x80000000
  | _, false => 0

/-- The combination of a list of values, or a given word when it is empty. -/
def foldWords (op : Nat) (t : Ty) (e : Word) (vs : List (Nat × Word)) : Word :=
  match vs with
  | [] => e
  | v :: l => l.foldl (fun acc w => combine op t acc w.2) v.2

/-- One lane of a `redux` (R265). -/
def reduxEffect (op : Nat) (o : Opnds) (m : IMods) (c : Core) (x : Iss) (i : Nat) : LaneEffect :=
  .word o.d (goodOr ((valuesOver c x o.a (participants x i)).map (foldWords op m.ty 0)))

/-- One lane of a `scan` (R266). A poisoned input poisons the lanes at or after it (R260). -/
def scanEffect (incl : Bool) (op : Nat) (o : Opnds) (m : IMods) (c : Core) (x : Iss) (i : Nat) : LaneEffect :=
  let vs := valuesOver c x o.a ((participants x i).filter fun j => decide (j ≤ i))
  .word o.d (goodOr (vs.map fun vs => foldWords op m.ty (scanIdentity op m.ty) (vs.filter fun v => incl || v.1 != i)))

/-- R265. -/
def execReduxAdd (h : Hdr) (o : Opnds) (m : IMods) : State → Host.Outcome State Fault Refusal :=
  varWord (.reduxAdd h o m) (reduxEffect 0 o m)
def execReduxMin (h : Hdr) (o : Opnds) (m : IMods) : State → Host.Outcome State Fault Refusal :=
  varWord (.reduxMin h o m) (reduxEffect 1 o m)
def execReduxMax (h : Hdr) (o : Opnds) (m : IMods) : State → Host.Outcome State Fault Refusal :=
  varWord (.reduxMax h o m) (reduxEffect 2 o m)
def execReduxAnd (h : Hdr) (o : Opnds) (m : IMods) : State → Host.Outcome State Fault Refusal :=
  varWord (.reduxAnd h o m) (reduxEffect 3 o m)
def execReduxOr (h : Hdr) (o : Opnds) (m : IMods) : State → Host.Outcome State Fault Refusal :=
  varWord (.reduxOr h o m) (reduxEffect 4 o m)
def execReduxXor (h : Hdr) (o : Opnds) (m : IMods) : State → Host.Outcome State Fault Refusal :=
  varWord (.reduxXor h o m) (reduxEffect 5 o m)

/-- R266. -/
def execScanInclAdd (h : Hdr) (o : Opnds) (m : IMods) : State → Host.Outcome State Fault Refusal :=
  varWord (.scanInclAdd h o m) (scanEffect true 0 o m)
def execScanInclMin (h : Hdr) (o : Opnds) (m : IMods) : State → Host.Outcome State Fault Refusal :=
  varWord (.scanInclMin h o m) (scanEffect true 1 o m)
def execScanInclMax (h : Hdr) (o : Opnds) (m : IMods) : State → Host.Outcome State Fault Refusal :=
  varWord (.scanInclMax h o m) (scanEffect true 2 o m)
def execScanExclAdd (h : Hdr) (o : Opnds) (m : IMods) : State → Host.Outcome State Fault Refusal :=
  varWord (.scanExclAdd h o m) (scanEffect false 0 o m)
def execScanExclMin (h : Hdr) (o : Opnds) (m : IMods) : State → Host.Outcome State Fault Refusal :=
  varWord (.scanExclMin h o m) (scanEffect false 1 o m)
def execScanExclMax (h : Hdr) (o : Opnds) (m : IMods) : State → Host.Outcome State Fault Refusal :=
  varWord (.scanExclMax h o m) (scanEffect false 2 o m)

/-- `seg` (R267): the value of the lowest guard-true lane; no lane, no change. -/
def segBody (b : Src) (x : Iss) (s : State) : State :=
  if x.gt = 0 then s.complete x x.lanes
  else match srcVal (s.core x.core) x b (lowestLane x.gt) with
    | none => s.trapAll x (bitMask (lowestLane x.gt)) 5 2 0
    | some v =>
      if 1 ≤ v.toNat ∧ v.toNat ≤ 5 then
        (s.onCore x.core fun c => c.onSpindle x.slot fun sp => { sp with seg := v.toNat }).complete x x.lanes
      else s.trapAll x (bitMask (lowestLane x.gt)) 1 0 0

/-- R267. -/
def execSeg (h : Hdr) (o : Opnds) (s : State) : Host.Outcome State Fault Refusal :=
  .next (s.issue (.seg h o) (segBody o.b))

/-- R268. -/
def execRdlLane (h : Hdr) (o : Opnds) : State → Host.Outcome State Fault Refusal :=
  aluWord (.rdlLane h o) fun _ _ i => .word o.d (.good (BitVec.ofNat 32 i))
def execRdlActive (h : Hdr) (o : Opnds) : State → Host.Outcome State Fault Refusal :=
  aluWord (.rdlActive h o) fun _ x _ => .word o.d (.good x.gt)
def execRdlFibre (h : Hdr) (o : Opnds) : State → Host.Outcome State Fault Refusal :=
  aluWord (.rdlFibre h o) fun c x _ => .word o.d (.good (((c.spindle x.slot).map Spindle.occupied).getD 0))
def execRdlSegidx (h : Hdr) (o : Opnds) : State → Host.Outcome State Fault Refusal :=
  aluWord (.rdlSegidx h o) fun _ x i => .word o.d (.good (BitVec.ofNat 32 (i / 2 ^ x.seg)))

end Sys2Proof.Machine
end

