-- ==== Sys2Proof/Machine/Manage.lean ====
section
/-!
DEFINITION. Power, cooling, bring-up and the management space (spec/16_links.md R380 to R384, spec/17_management.md R397 to
R404, spec/27_observation.md R485).
-/

namespace Sys2Proof.Machine

/-- RESET (R402): all state is lost but host memory, which is outside the package, and the model's own counters (log entry 12). -/
def execReset (s : State) : Host.Outcome State Fault Refusal :=
  .next { State.reset with turn := s.turn, free := s.free, sealInits := s.sealInits, host := s.host }

/-- The package enters a state of bring-up (R401, R402). -/
def State.enter (s : State) (n : Nat) : State := { s with pkc := s.pkc &&& ~~~0xF ||| BitVec.ofNat 64 n }

/-- RAILS_IN_RANGE (R402). -/
def execRailsInRange (s : State) : Host.Outcome State Fault Refusal := .next (if s.pkcState = 0 ∧ s.stopped = false then s.enter 1 else s)

/-- CLOCKS_LOCKED (R402): TICK starts at 0. -/
def execClocksLocked (s : State) : Host.Outcome State Fault Refusal :=
  .next (if s.pkcState = 1 ∧ s.stopped = false then { s.enter 2 with tick := 0 } else s)

/-- HBM_TRAINED (R402). -/
def execHbmTrained (s : State) : Host.Outcome State Fault Refusal := .next (if s.pkcState = 2 ∧ s.stopped = false then s.enter 3 else s)

/-- SEAL_INIT_DONE (R136, R402): a device key is drawn, and every metadata and tree entry has its value on entry. -/
def execSealInitDone (s : State) : Host.Outcome State Fault Refusal :=
  .next (
    if s.pkcState = 3 ∧ s.stopped = false then
      { s.enter 4 with keys := SMap.put s.keys 0 { KeySlot.reset with st := .active, key := Config.deviceKey s.sealInits },
                       sealInits := s.sealInits + 1, mcache := [], root := [], rowsKept := [], failedRows := [], failedEngines := [], l2 := [] }
    else s)

/-- LINKS_TRAINED (R402): each fabric port and the CXL port is up or reported down; the package is READY. -/
def execLinksTrained (up : Trained) (s : State) : Host.Outcome State Fault Refusal :=
  .next (
    if s.pkcState = 4 ∧ s.stopped = false then
      (List.range 36).foldl (fun s k => s.setPort k { s.port k with up := up.fabric.getLsbD k }) { s.enter 5 with cxlDown := !up.cxl }
    else s)

/-- Ticks added to a band of a die's histogram (R404). -/
def State.addBand (s : State) (base die band n : Nat) : State := s.bumpLife (base + 16 * die + min 15 band) n

/-- The ticks of a window: 1 ms (R4, R398). -/
def windowTicks : Nat := 1800000

/-- The tick at which a die's window ends. -/
def Die.due (d : Die) : BitVec 64 := d.winAt + BitVec.ofNat 64 windowTicks

/-- 110 °C on a die (R399, R485): the entry is written, then every clock stops and the state is TRIPPED. -/
def State.trip (s : State) (die temp : Nat) : State := { (s.logEvent die 5 temp).enter 15 with stopped := true }

/-- A reading of a die's hottest sensor (R399, R485). -/
def State.sense (s : State) (die temp : Nat) : State :=
  if 110 ≤ temp then s.trip die temp
  else if 95 ≤ temp ∧ (s.die die).hot = false then (s.logEvent die 3 temp).onDie die fun d => { d with hot := true }
  else if temp < 92 ∧ (s.die die).hot = true then (s.logEvent die 4 temp).onDie die fun d => { d with hot := false }
  else s

/-- Whether a reading is one of a governor that holds its die inside its allowance and its voltage in range (R397, R398). -/
def governed (g : GovReading) : Bool :=
  decide (g.amps.toNat ≤ 2500) && decide (g.watts.toNat ≤ 1050) && decide (105 ≤ g.mv.toNat) && decide (g.mv.toNat ≤ 137)

/-- The partitions with clusters on a die, of a set (R398). -/
def State.sharers (s : State) (die : Nat) (ps : BitVec 20) : BitVec 20 :=
  BitVec.ofNat 20 (((List.range 20).filter fun p => ps.getLsbD p && s.clustersOn die p != 0).map (2 ^ ·)).sum

/-- GOVERNOR_WINDOW (R21, R22, R398, R399, R403, R404): once 1 ms of TICK has passed, the die's telemetry is updated in one step, what
the window withheld is counted, a new window begins, and the partitions beyond their shares of the power allowance are withheld in
it. Of a die that withheld nothing GOVW stays. What is withheld delays words and changes no result. -/
def execGovernorWindow (die : Nat) (g : GovReading) (s : State) : Host.Outcome State Fault Refusal :=
  .next (
    if s.pkcState < 2 || s.stopped || decide (8 ≤ die) || !governed g || decide (s.tick.toNat < (s.die die).due.toNat) then s
    else
      let d := s.die die
      let n := s.tick.toNat - d.winAt.toNat
      let tel : BitVec 64 := (0 : BitVec 16) ++ g.amps ++ g.watts ++ g.mv ++ g.temp
      let s := s.setDie die
        { d with tel := tel, govw := if d.saw then d.govw + g.withheld else d.govw, winAt := s.tick, cards := 0, work := 0, formed := [],
                 saw := false }
      let s := (s.addBand 0x20 die (g.temp.toNat / 8) n).addBand 0xA0 die (g.amps.toNat / 160) n
      let s := s.onDie die fun d => { d with beyond := s.sharers die g.beyond, plane := false }
      let s := s.sense die g.temp.toNat
      let d := s.die die
      s.setDie die { d with govs := d.begun, gove := if d.runs then 0 else d.ended, saw := d.runs })

/-- TEMP_THROTTLE (R399, R485): at 95 °C. -/
def execTempThrottle (die : Nat) (temp : BitVec 8) (s : State) : Host.Outcome State Fault Refusal :=
  .next (if s.stopped || decide (8 ≤ die) || decide (temp.toNat < 95) then s else s.sense die temp.toNat)

/-- TEMP_RECOVER (R399, R485): below 92 °C. -/
def execTempRecover (die : Nat) (temp : BitVec 8) (s : State) : Host.Outcome State Fault Refusal :=
  .next (if s.stopped || decide (8 ≤ die) || decide (92 ≤ temp.toNat) then s else s.sense die temp.toNat)

/-- THERMAL_TRIP (R399, R485): at 110 °C. -/
def execThermalTrip (die : Nat) (temp : BitVec 8) (s : State) : Host.Outcome State Fault Refusal :=
  .next (if s.stopped || decide (8 ≤ die) || decide (temp.toNat < 110) then s else s.sense die temp.toNat)

/-- RAIL_OUT_OF_RANGE (R485). -/
def execRailOutOfRange (die : Nat) (val : BitVec 32) (s : State) : Host.Outcome State Fault Refusal :=
  .next (if s.stopped || decide (8 ≤ die) then s else s.logEvent die 6 val.toNat)

/-- A 1,024-bit partition record (R380). -/
def Partition.pack (p : Partition) : Nat :=
  p.clm.toNat * 2 ^ 896 + p.pcg.toNat * 2 ^ 384 + p.l2w.toNat * 2 ^ 370 + p.ptm.toNat * 2 ^ 334 + p.en.toNat

/-- The masks and the enable of a record taken from its bits. -/
def Partition.unpack (p : Partition) (x : Nat) : Partition :=
  { p with clm := BitVec.ofNat 128 (x / 2 ^ 896), pcg := BitVec.ofNat 512 (x / 2 ^ 384), l2w := BitVec.ofNat 14 (x / 2 ^ 370),
           ptm := BitVec.ofNat 36 (x / 2 ^ 334), en := nbit x 0 }

/-- A number with one 64-bit word replaced. -/
def setWord64 (x w : Nat) (v : BitVec 64) : Nat := x - nbits x (64 * w + 63) (64 * w) * 2 ^ (64 * w) + v.toNat * 2 ^ (64 * w)

/-- Whether two records overlap in a mask that must be disjoint (R381). -/
def Partition.overlaps (a b : Partition) : Bool := a.clm &&& b.clm != 0 || a.pcg &&& b.pcg != 0 || a.ptm &&& b.ptm != 0

/-- A record is enabled for the first time, or again (R32, R401, R456): its streams start afresh, and its contexts are not held and
number their launches from 0. -/
def State.enablePart (s : State) (p : Nat) : State :=
  let s := { s with nodeLocked := true, streams := s.streams.filter fun t => t.part != p }.setPart p { s.part p with held := false, dumped := false }
  ((List.range 16).map (16 * p + ·)).foldl (fun s cx => s.onCtx cx fun c => { c with nextLseq := 0 }) s

/-- The event vectors of a partition's contexts cleared (R33). -/
def State.clearEvents (s : State) (p : Nat) : State :=
  ((List.range 16).map (16 * p + ·)).foldl (fun s cx => s.onCtx cx fun c => { c with ev := 0 }) s

/-- PARTITION_RECORD_WRITE (R33, R380, R381, R395, R401, R402, R456, R467): word w of record p. -/
def execPartitionRecordWrite (p w : Nat) (v : BitVec 64) (s : State) : Host.Outcome State Fault Refusal :=
  .next (
    if s.pkcState < 2 || s.stopped || decide (20 ≤ p) || decide (16 ≤ w) || s.tdiLocked p then s
    else
      let old := s.part p
      let new := old.unpack (setWord64 old.pack w v)
      if old.en && decide (14 ≤ w) then s.startShrink p new.clm false
      else if new.en && (List.range 20).any fun k => k != p && (s.part k).en && new.overlaps (s.part k) then s
      else
        let s := s.setPart p new
        let s := if new.en && w == 0 then s.clearEvents p else s
        if new.en && !old.en then s.enablePart p else s)

/-- Whether a context is idle (R58): no launch of its is open, and no record of its waits and no workgroup of its is resident, at a
cluster, a core, an NMU or a method unit. -/
def State.idle (s : State) (cx : Nat) : Bool :=
  (s.ctx cx).launches.isEmpty && (s.cores.all fun e => e.2.wgs.all fun w => w.2.rcd.ctx != cx) &&
    (s.clusters.all fun k => (SMap.get [] k.2.queues cx).isEmpty) && s.nmuQ.all fun q => q.2.all fun r => r.ctx != cx

/-- Whether the registers of a context may be written (R58). -/
def State.ctxWritable (s : State) (cx : Nat) : Bool :=
  decide (cx < 320) && (s.idle cx || (s.rotates cx && (s.part (partOf cx)).holder != some (cx % 16)))

/-- CTXC_WRITE (R382, R383, R395). -/
def execCtxcWrite (ctx : Nat) (v : BitVec 64) (s : State) : Host.Outcome State Fault Refusal :=
  .next (
    let v := v &&& 0x000007FFFFFFFFFF
    let bad := v &&& 0x3F == 0 && !v.getLsbD 9
    if s.pkcState < 2 || s.stopped || !s.ctxWritable ctx || s.tdiLocked (partOf ctx) || bad then s
    else s.onCtx ctx fun c => { c with ctxc := v, slen := none })

/-- PKC_WRITE (R401): `node`, until a partition has been enabled. -/
def execPkcWrite (v : BitVec 64) (s : State) : Host.Outcome State Fault Refusal :=
  .next (
    if s.pkcState < 2 || s.stopped || s.nodeLocked then s
    else { s with pkc := s.pkc &&& 0xF ||| v &&& 0x0000001FFFF00000 })

/-- The register of a context at an offset of its block written (R58, R382, R423); none where the offset has no register. -/
def Context.writeReg (c : Context) (k : Nat) (v : BitVec 64) : Option Context :=
  match k with
  | 0 => some { c with ptb := v &&& 0x000FFFFFFFFFF000 }
  | 1 => some { c with pvb := v &&& 0xFFFFFFFFFFFFF000 }
  | 2 => some { c with pvs := v &&& 0xFFFF }
  | 4 => some { c with pgt := v &&& 0xFFFFFFFFFFFFFFC0 }
  | 5 => some { c with trv := v }
  | 6 => some { c with frb := v &&& 0xFFFFFFFFFFFFF00F }
  | 7 => some { c with spb := v &&& 0xFFFFFFFFFFFE0000 }
  | _ => none

/-- A register of a context written, where R58 and R395 allow it. -/
def State.writeCtxReg (s : State) (cx k : Nat) (v : BitVec 64) : State :=
  if !s.ctxWritable cx || (k == 4 && s.tdiLocked (partOf cx)) then s
  else match (s.ctx cx).writeReg k v with
    | none => s
    | some c => s.setCtx cx c

/-- REGISTER_WRITE (R58, R384, R395, R400, R423, R467, R476, R481, R482): an aligned 8-byte write of the management space to a register
with no behaviour of its own; other offsets ignore it. A reserved `lg` is held as 0 (R3; log entry 136). -/
def execRegisterWrite (off : Nat) (v : BitVec 64) (s : State) : Host.Outcome State Fault Refusal :=
  .next (
    if s.pkcState < 2 || s.stopped || decide (off % 8 ≠ 0) then s
    else if 0x10C00 ≤ off ∧ off < 0x10E80 then
      let p := (off - 0x10C00) / 32
      let q := s.part p
      if q.pend then s
      else match (off - 0x10C00) % 32 / 8 with
        | 0 => s.setPart p { q with tclm := q.tclm &&& ~~~0xFFFFFFFFFFFFFFFF ||| v.setWidth 128 }
        | 1 => s.setPart p { q with tclm := q.tclm &&& 0xFFFFFFFFFFFFFFFF ||| v.setWidth 128 <<< 64 }
        | 2 => if v.getLsbD 0 then s else s.setPart p { q with force := v.getLsbD 1 }
        | _ => s
    else if 0x20000 ≤ off ∧ off < 0x25000 then s.writeCtxReg ((off - 0x20000) / 64) ((off - 0x20000) % 64 / 8) v
    else if 0x28000 ≤ off ∧ off < 0x28A00 then
      let cx := (off - 0x28000) / 8
      if s.ctxWritable cx then s.onCtx cx fun c => { c with qrb := v &&& 0xFFFFFFFFFFFF000F } else s
    else if off = 0x60008 then { s with stt := v }
    else if off = 0x60018 then { s with dumpb := v &&& 0xFFFFFFFFFFFFF800 }
    else if off = 0x60020 then { s with snt := v }
    else if 0x68000 ≤ off ∧ off < 0x6E000 then
      let r := (off - 0x68000) / 16
      if off % 16 = 0 then
        s.onCore r fun c => { c with smpCtl := if 20 < nbits v.toNat 22 18 then v &&& 0x80FFFF else v &&& 0xFCFFFF, smpN := 0 }
      else s.onCore r fun c => { c with smpDat := v &&& 0xFFFFFFFFFFFFF00F }
    else s)

/-- ONCHIP_WINDOW_ACCESS (R66, R67): one word of a core's register file or scratchpad, or of a method unit, read or written. -/
def execOnchipWindowAccess (pa : Nat) (wr : Option (BitVec 32)) (s : State) : Host.Outcome State Fault Refusal :=
  .next (
    if !s.running || !isWindow pa || decide (pa % 4 ≠ 0) then s
    else if !((List.range 20).any fun p => s.windowOk p pa) then s
    else match wr with
      | some v => s.writeInPlace pa 4 (.good v)
      | none => match s.readInPlace pa with
        | .poison => { s with readOut := 2 ^ 32 }
        | v => { s with readOut := v.val.setWidth 64 })

/-- What a read of a launch window gives (R396), as 8 bytes; the accepted and rejected counts, the event vector, header slots. -/
def Context.readWindow (c : Context) (off : Nat) : BitVec 64 :=
  if off < 0xF80 then BitVec.ofNat 64 (ofBytes ((List.range 8).map fun j => SMap.get 0 c.window (off + j)))
  else if off < 0xFA0 then (c.ev >>> (8 * (off - 0xF80))).setWidth 64
  else if off = 0xFA0 then c.accepted
  else if off = 0xFA8 then c.rejected
  else 0

/-- What an aligned 8-byte read of the management space gives from HBM onward (R400 to R404, R467, R476 to R485). A read changes
nothing. -/
def State.readRegister (s : State) (off : Nat) : BitVec 64 :=
  if s.pkcState < 2 || decide (off % 8 ≠ 0) then 0
  else if off = 0 then s.pkc
  else if 0x10000 ≤ off ∧ off < 0x10A00 then BitVec.ofNat 64 ((s.part ((off - 0x10000) / 128)).pack >>> (64 * ((off - 0x10000) % 128 / 8)))
  else if 0x10C00 ≤ off ∧ off < 0x10E80 then
    let p := (off - 0x10C00) / 32
    let q := s.part p
    match (off - 0x10C00) % 32 / 8 with
    | 0 => q.tclm.setWidth 64
    | 1 => (q.tclm >>> 64).setWidth 64
    | 2 =>
      let def_ := q.pend && (s.wgsOfPart p).any fun w => w.2.2.coop && q.clm.getLsbD (clusterOf w.1) && !q.tclm.getLsbD (clusterOf w.1)
      BitVec.ofNat 64 (2 * q.force.toNat + 4 * q.pend.toNat + 8 * def_.toNat)
    | _ => 0
  else if 0x20000 ≤ off ∧ off < 0x25000 then
    let c := s.ctx ((off - 0x20000) / 64)
    match (off - 0x20000) % 64 / 8 with
    | 0 => c.ptb
    | 1 => c.pvb
    | 2 => c.pvs
    | 3 => c.ctxc
    | 4 => c.pgt
    | 5 => c.trv
    | 6 => c.frb
    | _ => c.spb
  else if 0x28000 ≤ off ∧ off < 0x28A00 then (s.ctx ((off - 0x28000) / 8)).qrb
  else if 0x30000 ≤ off ∧ off < 0x30200 then SMap.get 0 s.frr ((off - 0x30000) / 8)
  else if 0x38000 ≤ off ∧ off < 0x38100 then SMap.get 0 s.hdm ((off - 0x38000) / 8)
  else if 0x40000 ≤ off ∧ off < 0x40800 then
    let d := s.die ((off - 0x40000) / 0x100)
    match (off - 0x40000) % 0x100 / 8 with
    | 0 => d.tel
    | 1 => d.govw
    | 2 => d.govs
    | 3 => d.gove
    | _ => 0
  else if 0x50000 ≤ off ∧ off < 0x60000 then SMap.get 0 s.life ((off - 0x50000) / 8)
  else if off = 0x60000 then s.obsc
  else if off = 0x60008 then s.stt
  else if off = 0x60010 then s.dump
  else if off = 0x60018 then s.dumpb
  else if off = 0x60020 then s.snt
  else if 0x61000 ≤ off ∧ off < 0x67000 then
    let c := s.core ((off - 0x61000) / 16)
    if off % 16 = 0 then BitVec.ofNat 64 (c.dbgSt * 2 ^ 32 + c.dbgLane * 2 ^ 20 + c.dbgSlot * 2 ^ 10) else c.smask
  else if 0x68000 ≤ off ∧ off < 0x6E000 then
    let c := s.core ((off - 0x68000) / 16)
    if off % 16 = 0 then c.smpCtl else c.smpDat
  else if 0x70000 ≤ off ∧ off < 0x70400 then
    (SMap.get 0 s.log ((off - 0x70000) / 16) >>> (if off % 16 = 0 then 0 else 64)).setWidth 64
  else if off = 0x70400 then s.logCount
  else if 0x80000 ≤ off then SMap.get 0 s.shadows ((off - 0x80000) / 8)
  else 0

end Sys2Proof.Machine
end

