-- ==== Sys2Proof/Machine/Observe.lean ====
section
/-!
DEFINITION. Observation: snapshots, the stop tick, debugging, and dumps (spec/27_observation.md R475 to R484).
-/

namespace Sys2Proof.Machine

/-- The bits of OBSC that software writes (R476): `tmc`, `ttk`, `sten`. -/
def obscMask : BitVec 64 := 0x32

/-- OBSC_SNAP (R476, R478): a write of OBSC; `snap` = 1 triggers a snapshot. -/
def execObscSnap (v : BitVec 64) (s : State) : Host.Outcome State Fault Refusal :=
  .next (
    if s.pkcState < 2 || s.stopped then s
    else
      let s := { s with obsc := s.obsc &&& ~~~obscMask ||| v &&& obscMask }
      if v.getLsbD 3 then s.trigger else s)

/-- A snapshot triggered by TICK reaching SNT (R478). -/
def State.snapAtTick (s : State) : State := if s.obsc.getLsbD 4 && s.tick == s.snt then s.trigger else s

/-- SNAPSHOT_TICK (R478). -/
def execSnapshotTick (s : State) : Host.Outcome State Fault Refusal :=
  .next (if s.pkcState < 2 || s.stopped then s else s.snapAtTick)

/-- The words of a core that are levels or that nothing in the model counts: slots withheld, parked and blocked batch-slots are free
values (log entry 8), resident spindles a level. -/
def State.latchCore (s : State) (e : Nat × Core) : State :=
  let (a, s) := s.fresh
  let (b, s) := s.fresh
  let (c, s) := s.fresh
  if isCore e.1 then
    { s with shadows := SMap.put (SMap.put (SMap.put (SMap.put s.shadows (cntCore e.1 1) (a.setWidth 64)) (cntCore e.1 2) (b.setWidth 64))
               (cntCore e.1 3) (c.setWidth 64)) (cntCore e.1 4) (BitVec.ofNat 64 e.2.spindles.length) }
  else s

/-- The levels of a bank (R478): depth of its line queues, split-table entries, hold-store lines. -/
def State.latchBank (s : State) (b : Nat) : State :=
  let queued := (s.cores.map fun e => (e.2.sbuf.filter fun t => match t.pl with
    | .mem pa _ _ _ _ _ => t.sent && homeBank pa == b
    | _ => false).length).sum
  let n (l : List Nat) : BitVec 64 := BitVec.ofNat 64 (l.filter fun x => lineBank x == b).length
  { s with shadows := SMap.put (SMap.put (SMap.put s.shadows (cntBank b 0) (BitVec.ofNat 64 queued)) (cntBank b 1) (n s.splitOrder))
             (cntBank b 2) (n (s.holdOrder.map Prod.fst)) }

/-- Every block copies its counters into its shadow words, and `sseq` counts the snapshot (R478). -/
def State.latchAll (s : State) : State :=
  let sseq := (s.obsc >>> 32) + 1
  let s := { s with shadows := SMap.put (SMap.put s.counts 0 s.tick) 1 (sseq &&& 0xFFFFFFFF),
                    obsc := s.obsc &&& 0xFFFFFFFF ||| sseq <<< 32, latchAt := none }
  (List.range 512).foldl State.latchBank (s.cores.foldl State.latchCore s)

/-- A snapshot latched where its tick has come (R478). -/
def State.latchNow (s : State) : State := if s.latchAt == some s.tick then s.latchAll else s

/-- SNAPSHOT_LATCH (R478). -/
def execSnapshotLatch (s : State) : Host.Outcome State Fault Refusal := .next (if s.stopped then s else s.latchNow)

/-- Every clock is gated at the stop tick, and the ports go down (R477). -/
def State.stopNow (s : State) : State :=
  if s.obsc.getLsbD 1 && s.tick == s.stt then
    { s with stopped := true, cxlDown := true, ports := s.ports.map fun (e : Nat × Port) => (e.1, { e.2 with up := false }) }
  else s

/-- STOP_TICK (R477). -/
def execStopTick (s : State) : Host.Outcome State Fault Refusal := .next (if s.pkcState < 2 || s.stopped then s else s.stopNow)

/-- Whether a core's partition refuses writes of its debug registers (R479). -/
def State.debugLocked (s : State) (core : Nat) : Bool :=
  (List.range 20).any fun p => (s.part p).clm.getLsbD (clusterOf core) && s.tdiLocked p

/-- DEBUG_STEP (R479, R480): a write of word 0 of a core's debug pair. A step of a ready batch issues next; one of a batch that is not
ready waits for it. A reserved `lane` is held as 0, and its step is refused (R3; log entry 136). -/
def execDebugStep (core : Nat) (v : BitVec 64) (s : State) : Host.Outcome State Fault Refusal :=
  .next (
    if s.pkcState < 2 || s.stopped || decide (1536 ≤ core) || s.debugLocked core then s
    else
      let c := s.core core
      if c.dbgSt = 2 then s
      else
        let slot := nbits v.toNat 15 10
        let asked := nbits v.toNat 25 20
        let lane := if asked ≤ 32 then asked else 0
        let c := { c with dbgSlot := slot, dbgLane := lane }
        if !v.getLsbD 0 then s.setCore core c
        else
          let lives : Bool := match c.spindle slot with
            | none => false
            | some sp => decide (asked = 32) || (decide (asked < 32) && (sp.fibre asked).isSome)
          if !c.smask.getLsbD slot || !lives then s.setCore core { c with dbgSt := 3 }
          else { s.setCore core { c with dbgSt := 2 } with agenda := .issue core (slot / 16) :: s.agenda })

/-- DEBUG_SMASK_WRITE (R479). -/
def execDebugSmaskWrite (core : Nat) (v : BitVec 64) (s : State) : Host.Outcome State Fault Refusal :=
  .next (
    if s.pkcState < 2 || s.stopped || decide (1536 ≤ core) || s.debugLocked core then s
    else s.onCore core fun c => { c with smask := v })

/-- The contexts of a partition. -/
def partCtxs (p : Nat) : List Nat := (List.range 16).map (16 * p + ·)

/-- The header of a dump: `id`, node, E and the flit count (R483). -/
def State.dumpHeader (s : State) (p : Nat) : List LWord :=
  let q := s.part p
  words64 (BitVec.ofNat 64 ((q.dumpId.getD 0) % 2 ^ 32)) ++ words64 (BitVec.ofNat 64 s.node) ++ words64 q.dumpE ++
    words64 (BitVec.ofNat 64 s.dumpFlits) ++ List.replicate 8 (.good 0)

/-- The header of a partition's dump written to its area, a failure recorded. -/
def State.writeDumpHeader (s : State) (p : Nat) : State :=
  match s.dumpArea p with
  | none => s
  | some (cx, va) => match s.writeVas 0 cx va (s.dumpHeader p) with
    | (s, none) => s
    | (s, some c) => s.note cx 3 32 c va 0

/-- `done` is set once the partition is recorded and every live port is closed (R483). -/
def State.dumpDone (s : State) (p : Nat) : State :=
  if (s.part p).dumped && (s.livePorts p).all (fun k => (s.port k).closed) && !s.dump.getLsbD 3 then
    { s with dump := s.dump ||| 8 }.writeDumpHeader p
  else s

/-- A marker flit (R482): `id` and the initiator's node. -/
def markerFlit (p src id node : Nat) : Flit :=
  { crc := 0, eseq := 0, lseq := 0, dst := 0, src := src, kind := 6, part := p, len := 8,
    data := toBytes 4 id ++ toBytes 4 node }

/-- A partition's local state is recorded once its workgroups are settled: its halted units are spilled, the header is written, and a
marker goes out on every live port (R483 steps 2 to 4). -/
def State.record (s : State) (p : Nat) : State :=
  let q := s.part p
  let ws := (s.wgsOfPart p).map fun w => (w.1, w.2.1)
  if !q.held || q.dumpId.isNone || q.dumped || !s.settled ws then s
  else
    let s := ws.foldl (fun s w => s.spillWhole w.1 w.2) s
    let s := { s.setPart p { s.part p with dumped := true } with dump := s.dump ||| 4, dumpFlits := 0 }.writeDumpHeader p
    let id := q.dumpId.getD 0
    ((s.livePorts p).foldl (fun s k => s.sendFlit k (markerFlit p s.node id s.node)) s).dumpDone p

/-- A dump of a partition starts here (R483 step 1): its contexts halt at this tick. -/
def State.startDump (s : State) (p id : Nat) : State :=
  let s := (partCtxs p).foldl State.haltCtx s
  let q := s.part p
  let last := match q.holder with
    | some h => h
    | none => q.last
  let s := s.setPart p { q with holder := none, last := last, deferred := none, held := true, dumpId := some id, dumpE := s.tick, dumped := false }
  { s with dump := BitVec.ofNat 64 ((id % 2 ^ 32) * 2 ^ 32 + p * 2 ^ 23) }.record p

/-- Whether a dump of a partition is under way here. -/
def State.dumping (s : State) (p : Nat) : Bool := (s.part p).held && (s.part p).dumpId.isSome

/-- DUMP_GO (R482, R483). -/
def execDumpGo (v : BitVec 64) (s : State) : Host.Outcome State Fault Refusal :=
  .next (
    let p := nbits v.toNat 27 23
    if !s.running || !v.getLsbD 0 || decide (20 ≤ p) || !(s.part p).en || (s.part p).held || (List.range 20).any s.dumping then s
    else s.startDump p (nbits v.toNat 63 32))

/-- DUMP_MARKER (R483): the first marker of a new identity records the partition; a marker closes its port's channel. -/
def execDumpMarker (port : Nat) (part id node : Nat) (s : State) : Host.Outcome State Fault Refusal :=
  .next (
    if !s.running || decide (20 ≤ part) || decide (36 ≤ port) || !(s.part part).en || !(s.part part).ptm.getLsbD port ||
      decide (2 ^ 17 ≤ node) then s
    else
      let close (s : State) : State := s.setPort port { s.port port with closed := true }
      if s.dumping part && (s.part part).dumpId == some id then (close s).dumpDone part
      else if (s.part part).held || (s.part part).dumpId == some id || (List.range 20).any s.dumping then s
      else (close s).startDump part id)

/-- DUMP_RESUME (R466, R483): after `done`, the held flits are executed and the contexts resume. The resend timers stood still. -/
def execDumpResume (v : BitVec 64) (s : State) : Host.Outcome State Fault Refusal :=
  .next (
    let p := nbits s.dump.toNat 27 23
    if !s.running || !v.getLsbD 4 || !s.dump.getLsbD 3 || !(s.part p).dumped then s
    else
      let stood := s.tick - (s.part p).dumpE
      let s := s.setPart p { s.part p with dumped := false, held := false }
      let s := (s.livePorts p).foldl (fun s k => s.setPort k { s.port k with closed := false }) s
      let s := { s with
        dump := s.dump &&& ~~~0xC
        heldFlits := s.heldFlits.filter fun h => h.f.part != p
        streams := s.streams.map fun (t : Stream) =>
          if t.part = p then { t with open_ := t.open_.map fun u => { u with sent := u.sent + stood } } else t }
      ((partCtxs p).filter s.current).foldl State.resumeCtx s)

end Sys2Proof.Machine
end

