-- ==== Sys2Proof/Machine/PairOps.lean ====
section
/-!
DEFINITION. Pair words (spec/08_encoding.md R171 to R173): two slots, each with the effect of minor 0 of its major under the
defaults of R160.
-/

namespace Sys2Proof.Machine

/-- The default modifiers of an integer, an f32 and a packed major (R160). -/
def defI : IMods := ⟨.i32, false, 0⟩
def defF : FMods := ⟨.rn, false, false, 0, 0, 0, .f32⟩
def defH : FMods := ⟨.rn, false, false, 0, 0, 0, .f16⟩

/-- The operands of a slot: registers with the identity pattern (R172). -/
def slotOpnds (k : Slot) : Opnds := ⟨k.d, .reg k.a .ident, .reg k.b .ident, .reg k.c .ident⟩

/-- The effect of a slot in one lane (R172, R173). -/
def slotEffect (k : Slot) : Core → Iss → Nat → LaneEffect :=
  let o := slotOpnds k
  match k.op with
  | .add => carryEffect o defI false (fun a b k => a + b + k) (carryOut .i32)
  | .sub => carryEffect o defI false (fun a b k => a - b - k) borrowOut
  | .mul => eff2 o fun a b => intRes .i32 false (wsrc .i32 a * wsrc .i32 b)
  | .mad => eff3 o fun a b c => intRes .i32 false (wsrc .i32 a * wsrc .i32 b + wsrc .i32 c)
  | .min => eff2 o fun a b => intRes .i32 false (min (wsrc .i32 a) (wsrc .i32 b))
  | .max => eff2 o fun a b => intRes .i32 false (max (wsrc .i32 a) (wsrc .i32 b))
  | .sad => eff3 o (sadValue .i32 false)
  | .andO => eff2 o fun a b => a &&& b
  | .orO => eff2 o fun a b => a ||| b
  | .xorO => eff2 o fun a b => a ^^^ b
  | .andn => eff2 o fun a b => a &&& ~~~b
  | .shl => eff2 o fun a n => if n.toNat < 32 then a <<< n.toNat else 0
  | .shr => eff2 o fun a n => if n.toNat < 32 then a >>> n.toNat else 0
  | .sar => eff2 o fun a n => a.sshiftRight (Nat.min n.toNat 31)
  | .rot => eff2 o fun a n => a.rotateLeft (n.toNat % 32)
  | .perm => eff3 o permValue
  | .mov => eff1 o fun a => a
  | .dp4 => eff3 o (dotValue 4 8 defI)
  | .fadd => f2 o defF (addOp .f32 defF)
  | .fmul => f2 o defF (mulOp .f32 defF)
  | .ffma => f3 o defF (fmaOp .f32 defF)
  | .fmin => f2 o defF (fMinMax .f32 false false)
  | .hadd2 => h2 o defH (addOp .f16 defH)
  | .hmul2 => h2 o defH (mulOp .f16 defH)
  | .hfma2 => h3 o defH (fmaOp .f16 defH)
  | .hmin2 => h2 o defH (fMinMax .f16 false true)

/-- Both slots of a pair in one lane: sources are read before either writes, and the flags of both are ORed into v1 (R172). -/
def pairEffect (sa sb : Slot) (c : Core) (x : Iss) (i : Nat) : LaneEffect :=
  let a := slotEffect sa c x i
  let b := slotEffect sb c x i
  ⟨a.regs ++ b.regs, none, a.flags ||| b.flags⟩

/-- R171, R172. -/
def execPair (h : Hdr) (sa sb : Slot) : State → Host.Outcome State Fault Refusal := aluWord (.pair h sa sb) (pairEffect sa sb)

end Sys2Proof.Machine
end

