-- ==== Sys2Proof/Machine/Dispatch.lean ====
section
/-!
DEFINITION. The meaning of every constructor of `Instr`, one arm each.
-/

namespace Sys2Proof.Machine

/-- The meaning of an instruction word or an event in a state. -/
def exec (i : Instr) (s : State) : Host.Outcome State Fault Refusal :=
  match i with
  | .nop h o => Sys2Proof.Machine.execNop h o s
  | .add h o m => Sys2Proof.Machine.execAdd h o m s
  | .addAddc h o m => Sys2Proof.Machine.execAddAddc h o m s
  | .addAdd3 h o m => Sys2Proof.Machine.execAddAdd3 h o m s
  | .sub h o m => Sys2Proof.Machine.execSub h o m s
  | .subSubb h o m => Sys2Proof.Machine.execSubSubb h o m s
  | .subRsub h o m => Sys2Proof.Machine.execSubRsub h o m s
  | .mulLo h o m => Sys2Proof.Machine.execMulLo h o m s
  | .mulHi h o m => Sys2Proof.Machine.execMulHi h o m s
  | .madLo h o m => Sys2Proof.Machine.execMadLo h o m s
  | .madHi h o m => Sys2Proof.Machine.execMadHi h o m s
  | .madWide h o m => Sys2Proof.Machine.execMadWide h o m s
  | .minI h o m => Sys2Proof.Machine.execMinI h o m s
  | .maxI h o m => Sys2Proof.Machine.execMaxI h o m s
  | .sad h o m => Sys2Proof.Machine.execSad h o m s
  | .andI h o m => Sys2Proof.Machine.execAndI h o m s
  | .orI h o m => Sys2Proof.Machine.execOrI h o m s
  | .xorI h o m => Sys2Proof.Machine.execXorI h o m s
  | .andn h o m => Sys2Proof.Machine.execAndn h o m s
  | .lop3 h o m => Sys2Proof.Machine.execLop3 h o m s
  | .shl h o m => Sys2Proof.Machine.execShl h o m s
  | .shr h o m => Sys2Proof.Machine.execShr h o m s
  | .sar h o m => Sys2Proof.Machine.execSar h o m s
  | .rot h o m => Sys2Proof.Machine.execRot h o m s
  | .shf h o m => Sys2Proof.Machine.execShf h o m s
  | .bfx h o m => Sys2Proof.Machine.execBfx h o m s
  | .bfi h o m => Sys2Proof.Machine.execBfi h o m s
  | .bcntPop h o m => Sys2Proof.Machine.execBcntPop h o m s
  | .bcntClz h o m => Sys2Proof.Machine.execBcntClz h o m s
  | .bcntCtz h o m => Sys2Proof.Machine.execBcntCtz h o m s
  | .bcntBrev h o m => Sys2Proof.Machine.execBcntBrev h o m s
  | .bcntIsp h o m => Sys2Proof.Machine.execBcntIsp h o m s
  | .perm h o m => Sys2Proof.Machine.execPerm h o m s
  | .cmp h o m => Sys2Proof.Machine.execCmp h o m s
  | .sel h o m => Sys2Proof.Machine.execSel h o m s
  | .mov h o m => Sys2Proof.Machine.execMov h o m s
  | .ldi h o m => Sys2Proof.Machine.execLdi h o m s
  | .add64 h o m => Sys2Proof.Machine.execAdd64 h o m s
  | .add64Sub h o m => Sys2Proof.Machine.execAdd64Sub h o m s
  | .add64Neg h o m => Sys2Proof.Machine.execAdd64Neg h o m s
  | .mul64 h o m => Sys2Proof.Machine.execMul64 h o m s
  | .sh64Shl h o m => Sys2Proof.Machine.execSh64Shl h o m s
  | .sh64Shr h o m => Sys2Proof.Machine.execSh64Shr h o m s
  | .sh64Sar h o m => Sys2Proof.Machine.execSh64Sar h o m s
  | .cmp64 h o m => Sys2Proof.Machine.execCmp64 h o m s
  | .dp4 h o m => Sys2Proof.Machine.execDp4 h o m s
  | .dp4Dp2 h o m => Sys2Proof.Machine.execDp4Dp2 h o m s
  | .clamp h o m => Sys2Proof.Machine.execClamp h o m s
  | .fadd h o m => Sys2Proof.Machine.execFadd h o m s
  | .fmul h o m => Sys2Proof.Machine.execFmul h o m s
  | .ffma h o m => Sys2Proof.Machine.execFfma h o m s
  | .fminMin h o m => Sys2Proof.Machine.execFminMin h o m s
  | .fminMax h o m => Sys2Proof.Machine.execFminMax h o m s
  | .fminMinnum h o m => Sys2Proof.Machine.execFminMinnum h o m s
  | .fminMaxnum h o m => Sys2Proof.Machine.execFminMaxnum h o m s
  | .fcmp h o m => Sys2Proof.Machine.execFcmp h o m s
  | .frnd h o m => Sys2Proof.Machine.execFrnd h o m s
  | .fcvt h o m => Sys2Proof.Machine.execFcvt h o m s
  | .fclass h o m => Sys2Proof.Machine.execFclass h o m s
  | .fscale h o m => Sys2Proof.Machine.execFscale h o m s
  | .fxtr h o m => Sys2Proof.Machine.execFxtr h o m s
  | .hadd2 h o m => Sys2Proof.Machine.execHadd2 h o m s
  | .hmul2 h o m => Sys2Proof.Machine.execHmul2 h o m s
  | .hfma2 h o m => Sys2Proof.Machine.execHfma2 h o m s
  | .hmin2 h o m => Sys2Proof.Machine.execHmin2 h o m s
  | .dadd h o m => Sys2Proof.Machine.execDadd h o m s
  | .dmul h o m => Sys2Proof.Machine.execDmul h o m s
  | .dfma h o m => Sys2Proof.Machine.execDfma h o m s
  | .dmin h o m => Sys2Proof.Machine.execDmin h o m s
  | .dcmp h o m => Sys2Proof.Machine.execDcmp h o m s
  | .dcvt h o m => Sys2Proof.Machine.execDcvt h o m s
  | .drnd h o m => Sys2Proof.Machine.execDrnd h o m s
  | .sfuRcp h o m => Sys2Proof.Machine.execSfuRcp h o m s
  | .sfuRsq h o m => Sys2Proof.Machine.execSfuRsq h o m s
  | .sfuSqrt h o m => Sys2Proof.Machine.execSfuSqrt h o m s
  | .sfuEx2 h o m => Sys2Proof.Machine.execSfuEx2 h o m s
  | .sfuLg2 h o m => Sys2Proof.Machine.execSfuLg2 h o m s
  | .sfuSinpi h o m => Sys2Proof.Machine.execSfuSinpi h o m s
  | .sfuCospi h o m => Sys2Proof.Machine.execSfuCospi h o m s
  | .sfuTanh h o m => Sys2Proof.Machine.execSfuTanh h o m s
  | .shflLane h o m => Sys2Proof.Machine.execShflLane h o m s
  | .shflBack h o m => Sys2Proof.Machine.execShflBack h o m s
  | .shflFwd h o m => Sys2Proof.Machine.execShflFwd h o m s
  | .shflFlip h o m => Sys2Proof.Machine.execShflFlip h o m s
  | .voteAll h o m => Sys2Proof.Machine.execVoteAll h o m s
  | .voteAny h o m => Sys2Proof.Machine.execVoteAny h o m s
  | .voteBallot h o m => Sys2Proof.Machine.execVoteBallot h o m s
  | .voteUni h o m => Sys2Proof.Machine.execVoteUni h o m s
  | .matchAny h o m => Sys2Proof.Machine.execMatchAny h o m s
  | .matchAll h o m => Sys2Proof.Machine.execMatchAll h o m s
  | .reduxAdd h o m => Sys2Proof.Machine.execReduxAdd h o m s
  | .reduxMin h o m => Sys2Proof.Machine.execReduxMin h o m s
  | .reduxMax h o m => Sys2Proof.Machine.execReduxMax h o m s
  | .reduxAnd h o m => Sys2Proof.Machine.execReduxAnd h o m s
  | .reduxOr h o m => Sys2Proof.Machine.execReduxOr h o m s
  | .reduxXor h o m => Sys2Proof.Machine.execReduxXor h o m s
  | .scanInclAdd h o m => Sys2Proof.Machine.execScanInclAdd h o m s
  | .scanInclMin h o m => Sys2Proof.Machine.execScanInclMin h o m s
  | .scanInclMax h o m => Sys2Proof.Machine.execScanInclMax h o m s
  | .scanExclAdd h o m => Sys2Proof.Machine.execScanExclAdd h o m s
  | .scanExclMin h o m => Sys2Proof.Machine.execScanExclMin h o m s
  | .scanExclMax h o m => Sys2Proof.Machine.execScanExclMax h o m s
  | .seg h o => Sys2Proof.Machine.execSeg h o s
  | .rdlLane h o => Sys2Proof.Machine.execRdlLane h o s
  | .rdlActive h o => Sys2Proof.Machine.execRdlActive h o s
  | .rdlFibre h o => Sys2Proof.Machine.execRdlFibre h o s
  | .rdlSegidx h o => Sys2Proof.Machine.execRdlSegidx h o s
  | .ld h o m => Sys2Proof.Machine.execLd h o m s
  | .st h o m => Sys2Proof.Machine.execSt h o m s
  | .atomAdd h o m => Sys2Proof.Machine.execAtomAdd h o m s
  | .atomMin h o m => Sys2Proof.Machine.execAtomMin h o m s
  | .atomMax h o m => Sys2Proof.Machine.execAtomMax h o m s
  | .atomAnd h o m => Sys2Proof.Machine.execAtomAnd h o m s
  | .atomOr h o m => Sys2Proof.Machine.execAtomOr h o m s
  | .atomXor h o m => Sys2Proof.Machine.execAtomXor h o m s
  | .atomXchg h o m => Sys2Proof.Machine.execAtomXchg h o m s
  | .atomCas h o m => Sys2Proof.Machine.execAtomCas h o m s
  | .atomIncw h o m => Sys2Proof.Machine.execAtomIncw h o m s
  | .atomDecw h o m => Sys2Proof.Machine.execAtomDecw h o m s
  | .red h o m => Sys2Proof.Machine.execRed h o m s
  | .fence h o m => Sys2Proof.Machine.execFence h o m s
  | .inv h o m => Sys2Proof.Machine.execInv h o m s
  | .wb h o m => Sys2Proof.Machine.execWb h o m s
  | .pref h o m => Sys2Proof.Machine.execPref h o m s
  | .ldp h o m => Sys2Proof.Machine.execLdp h o m s
  | .stp h o m => Sys2Proof.Machine.execStp h o m s
  | .lds h o m => Sys2Proof.Machine.execLds h o m s
  | .sts h o m => Sys2Proof.Machine.execSts h o m s
  | .atoms h o m => Sys2Proof.Machine.execAtoms h o m s
  | .smp h o x => Sys2Proof.Machine.execSmp h o x s
  | .fpost h o x => Sys2Proof.Machine.execFpost h o x s
  | .tmeth h o x => Sys2Proof.Machine.execTmeth h o x s
  | .br h o x => Sys2Proof.Machine.execBr h o x s
  | .jmp h o x => Sys2Proof.Machine.execJmp h o x s
  | .call h o x => Sys2Proof.Machine.execCall h o x s
  | .calli h o x => Sys2Proof.Machine.execCalli h o x s
  | .ret h o x => Sys2Proof.Machine.execRet h o x s
  | .unwind h o x => Sys2Proof.Machine.execUnwind h o x s
  | .loop h o x => Sys2Proof.Machine.execLoop h o x s
  | .fork h o x => Sys2Proof.Machine.execFork h o x s
  | .endFibre h o => Sys2Proof.Machine.execEndFibre h o s
  | .join h o => Sys2Proof.Machine.execJoin h o s
  | .yieldI h o => Sys2Proof.Machine.execYieldI h o s
  | .bar h o x => Sys2Proof.Machine.execBar h o x s
  | .mbarInit h o x => Sys2Proof.Machine.execMbarInit h o x s
  | .mbarArrive h o x => Sys2Proof.Machine.execMbarArrive h o x s
  | .mbarExpect h o x => Sys2Proof.Machine.execMbarExpect h o x s
  | .mbarWait h o x => Sys2Proof.Machine.execMbarWait h o x s
  | .mbarTest h o x => Sys2Proof.Machine.execMbarTest h o x s
  | .waitge h o x => Sys2Proof.Machine.execWaitge h o x s
  | .trap h o x => Sys2Proof.Machine.execTrap h o x s
  | .trapBkpt h o x => Sys2Proof.Machine.execTrapBkpt h o x s
  | .exit h o => Sys2Proof.Machine.execExit h o s
  | .cpyPlain h o x => Sys2Proof.Machine.execCpyPlain h o x s
  | .cpyPlane h o x => Sys2Proof.Machine.execCpyPlane h o x s
  | .cpyGather h o x => Sys2Proof.Machine.execCpyGather h o x s
  | .cpyMcast h o x => Sys2Proof.Machine.execCpyMcast h o x s
  | .cwaitAll h o x => Sys2Proof.Machine.execCwaitAll h o x s
  | .cwaitAny h o x => Sys2Proof.Machine.execCwaitAny h o x s
  | .cwaitFirst h o x => Sys2Proof.Machine.execCwaitFirst h o x s
  | .cbatchClose h o x => Sys2Proof.Machine.execCbatchClose h o x s
  | .cbatchWait h o x => Sys2Proof.Machine.execCbatchWait h o x s
  | .post h o x => Sys2Proof.Machine.execPost h o x s
  | .ttask h o x => Sys2Proof.Machine.execTtask h o x s
  | .ttwait h o x => Sys2Proof.Machine.execTtwait h o x s
  | .nmcRowcp h o x => Sys2Proof.Machine.execNmcRowcp h o x s
  | .nmcRowzero h o x => Sys2Proof.Machine.execNmcRowzero h o x s
  | .nmcRowq h o x => Sys2Proof.Machine.execNmcRowq h o x s
  | .nmcNmlaunch h o x => Sys2Proof.Machine.execNmcNmlaunch h o x s
  | .nfence h o => Sys2Proof.Machine.execNfence h o s
  | .launch h o x => Sys2Proof.Machine.execLaunch h o x s
  | .spawn h o x => Sys2Proof.Machine.execSpawn h o x s
  | .evtSet h o x => Sys2Proof.Machine.execEvtSet h o x s
  | .evtClear h o x => Sys2Proof.Machine.execEvtClear h o x s
  | .evtTest h o x => Sys2Proof.Machine.execEvtTest h o x s
  | .ppost h o x => Sys2Proof.Machine.execPpost h o x s
  | .sregRdsr h o x => Sys2Proof.Machine.execSregRdsr h o x s
  | .sregWrsr h o x => Sys2Proof.Machine.execSregWrsr h o x s
  | .sysSvc h o x => Sys2Proof.Machine.execSysSvc h o x s
  | .sysRte h o x => Sys2Proof.Machine.execSysRte h o x s
  | .sysTinv h o x => Sys2Proof.Machine.execSysTinv h o x s
  | .sysRekey h o x => Sys2Proof.Machine.execSysRekey h o x s
  | .sysKslotInstall h o x => Sys2Proof.Machine.execSysKslotInstall h o x s
  | .sysKslotStage h o x => Sys2Proof.Machine.execSysKslotStage h o x s
  | .sysKslotErase h o x => Sys2Proof.Machine.execSysKslotErase h o x s
  | .sysKslotQuery h o x => Sys2Proof.Machine.execSysKslotQuery h o x s
  | .sysSlice h o x => Sys2Proof.Machine.execSysSlice h o x s
  | .pair h sa sb => Sys2Proof.Machine.execPair h sa sb s
  | .launchWindowHeader ctx off data => Sys2Proof.Machine.execLaunchWindowHeader ctx off data s
  | .eventWindowWrite ctx off v => Sys2Proof.Machine.execEventWindowWrite ctx off v s
  | .launchEligible ctx lseq => Sys2Proof.Machine.execLaunchEligible ctx lseq s
  | .workgroupExpand ctx lseq => Sys2Proof.Machine.execWorkgroupExpand ctx lseq s
  | .admission core => Sys2Proof.Machine.execAdmission core s
  | .claim core => Sys2Proof.Machine.execClaim core s
  | .workgroupEnd core wg => Sys2Proof.Machine.execWorkgroupEnd core wg s
  | .launchComplete ctx lseq => Sys2Proof.Machine.execLaunchComplete ctx lseq s
  | .resultLand core idx => Sys2Proof.Machine.execResultLand core idx s
  | .markerResume core slot lane => Sys2Proof.Machine.execMarkerResume core slot lane s
  | .joinRelease core slot lane => Sys2Proof.Machine.execJoinRelease core slot lane s
  | .retRelease core slot lane => Sys2Proof.Machine.execRetRelease core slot lane s
  | .callRetry core slot lane => Sys2Proof.Machine.execCallRetry core slot lane s
  | .barRelease core wg bid => Sys2Proof.Machine.execBarRelease core wg bid s
  | .mbarWaitRelease core slot lane => Sys2Proof.Machine.execMbarWaitRelease core slot lane s
  | .waitgeReread core slot lane => Sys2Proof.Machine.execWaitgeReread core slot lane s
  | .cwaitRelease core slot lane => Sys2Proof.Machine.execCwaitRelease core slot lane s
  | .cbatchWaitRelease core slot lane => Sys2Proof.Machine.execCbatchWaitRelease core slot lane s
  | .ttwaitRelease core slot lane => Sys2Proof.Machine.execTtwaitRelease core slot lane s
  | .nfenceRelease core slot lane => Sys2Proof.Machine.execNfenceRelease core slot lane s
  | .yieldRelease core slot lane => Sys2Proof.Machine.execYieldRelease core slot lane s
  | .tinvComplete core slot lane => Sys2Proof.Machine.execTinvComplete core slot lane s
  | .storeDrain core idx => Sys2Proof.Machine.execStoreDrain core idx s
  | .l1Eviction core pa => Sys2Proof.Machine.execL1Eviction core pa s
  | .fetch core idx => Sys2Proof.Machine.execFetch core idx s
  | .register core fromIq idx => Sys2Proof.Machine.execRegister core fromIq idx s
  | .homeWideAtomic core idx => Sys2Proof.Machine.execHomeWideAtomic core idx s
  | .writeback core pa => Sys2Proof.Machine.execWriteback core pa s
  | .jWrite cl job k => Sys2Proof.Machine.execJWrite cl job k s
  | .jClear cl job => Sys2Proof.Machine.execJClear cl job s
  | .holdClear core bank => Sys2Proof.Machine.execHoldClear core bank s
  | .ownerRecall line owner => Sys2Proof.Machine.execRecall line owner s
  | .translationWalk core ctx va => Sys2Proof.Machine.execTranslationWalk core ctx va s
  | .fill pa ks sl => Sys2Proof.Machine.execFill pa ks sl s
  | .blockWriteback pa => Sys2Proof.Machine.execBlockWriteback pa s
  | .metadataRowWriteback row => Sys2Proof.Machine.execMetadataRowWriteback row s
  | .rekeyWalkBlock slot => Sys2Proof.Machine.execRekeyWalkBlock slot s
  | .viewLineFill pa => Sys2Proof.Machine.execViewLineFill pa s
  | .frrWrite n w v => Sys2Proof.Machine.execFrrWrite n w v s
  | .jobStart cl job => Sys2Proof.Machine.execJobStart cl job s
  | .copyGranuleCredit cl job g => Sys2Proof.Machine.execCopyGranuleCredit cl job g s
  | .jobComplete cl job => Sys2Proof.Machine.execJobComplete cl job s
  | .copyFault cl job => Sys2Proof.Machine.execCopyFault cl job s
  | .rowCommandPrepare id => Sys2Proof.Machine.execRowCommandPrepare id s
  | .rowOperation id k => Sys2Proof.Machine.execRowOperation id k s
  | .rowCommandComplete id => Sys2Proof.Machine.execRowCommandComplete id s
  | .returnTrap unit => Sys2Proof.Machine.execReturnTrap unit s
  | .primitiveArrival k => Sys2Proof.Machine.execPrimitiveArrival k s
  | .primitiveProcess die ctx => Sys2Proof.Machine.execPrimitiveProcess die ctx s
  | .ticketArrival die ctx => Sys2Proof.Machine.execTicketArrival die ctx s
  | .fragmentBlockEmit die ctx => Sys2Proof.Machine.execFragmentBlockEmit die ctx s
  | .postArrival core k => Sys2Proof.Machine.execPostArrival core k s
  | .postResend core k => Sys2Proof.Machine.execPostResend core k s
  | .tmethApply k => Sys2Proof.Machine.execTmethApply k s
  | .progMethodReturn id => Sys2Proof.Machine.execProgMethodReturn id s
  | .fenceMarker id bank => Sys2Proof.Machine.execFenceMarker id bank s
  | .fenceComplete id => Sys2Proof.Machine.execFenceComplete id s
  | .governorWindow die g => Sys2Proof.Machine.execGovernorWindow die g s
  | .tempThrottle die temp => Sys2Proof.Machine.execTempThrottle die temp s
  | .tempRecover die temp => Sys2Proof.Machine.execTempRecover die temp s
  | .thermalTrip die temp => Sys2Proof.Machine.execThermalTrip die temp s
  | .railOutOfRange die val => Sys2Proof.Machine.execRailOutOfRange die val s
  | .reset => Sys2Proof.Machine.execReset s
  | .railsInRange => Sys2Proof.Machine.execRailsInRange s
  | .clocksLocked => Sys2Proof.Machine.execClocksLocked s
  | .hbmTrained => Sys2Proof.Machine.execHbmTrained s
  | .sealInitDone => Sys2Proof.Machine.execSealInitDone s
  | .linksTrained up => Sys2Proof.Machine.execLinksTrained up s
  | .partitionRecordWrite p w v => Sys2Proof.Machine.execPartitionRecordWrite p w v s
  | .ctxcWrite ctx v => Sys2Proof.Machine.execCtxcWrite ctx v s
  | .pkcWrite v => Sys2Proof.Machine.execPkcWrite v s
  | .hdmDecoderWrite k w v => Sys2Proof.Machine.execHdmDecoderWrite k w v s
  | .pshrGo p v => Sys2Proof.Machine.execPshrGo p v s
  | .shrinkComplete p => Sys2Proof.Machine.execShrinkComplete p s
  | .obscSnap v => Sys2Proof.Machine.execObscSnap v s
  | .snapshotTick => Sys2Proof.Machine.execSnapshotTick s
  | .snapshotLatch => Sys2Proof.Machine.execSnapshotLatch s
  | .stopTick => Sys2Proof.Machine.execStopTick s
  | .debugStep core v => Sys2Proof.Machine.execDebugStep core v s
  | .dumpGo v => Sys2Proof.Machine.execDumpGo v s
  | .dumpMarker port part id node => Sys2Proof.Machine.execDumpMarker port part id node s
  | .dumpResume v => Sys2Proof.Machine.execDumpResume v s
  | .registerWrite off v => Sys2Proof.Machine.execRegisterWrite off v s
  | .onchipWindowAccess pa wr => Sys2Proof.Machine.execOnchipWindowAccess pa wr s
  | .linkFlitReceive port f => Sys2Proof.Machine.execLinkFlitReceive port f s
  | .linkNak port lseq => Sys2Proof.Machine.execLinkNak port lseq s
  | .linkAckTimeout port => Sys2Proof.Machine.execLinkAckTimeout port s
  | .streamCommand src dst part eseq c => Sys2Proof.Machine.execStreamCommand src dst part eseq c s
  | .streamResponse src dst part eseq => Sys2Proof.Machine.execStreamResponse src dst part eseq s
  | .commandResendTimeout src dst part eseq => Sys2Proof.Machine.execCommandResendTimeout src dst part eseq s
  | .rendezvous cl job r => Sys2Proof.Machine.execRendezvous cl job r s
  | .collectiveDeferTimeout p => Sys2Proof.Machine.execCollectiveDeferTimeout p s
  | .hostSharedRead hpa => Sys2Proof.Machine.execHostSharedRead hpa s
  | .hostExclusiveRequest hpa => Sys2Proof.Machine.execHostExclusiveRequest hpa s
  | .hostUncachedAccess hpa acc => Sys2Proof.Machine.execHostUncachedAccess hpa acc s
  | .hostSnoop line inv => Sys2Proof.Machine.execHostSnoop line inv s
  | .snoopFilterEviction line dirty => Sys2Proof.Machine.execSnoopFilterEviction line dirty s
  | .bisnpTimeout line => Sys2Proof.Machine.execBisnpTimeout line s
  | .ideIntegrityFailure => Sys2Proof.Machine.execIdeIntegrityFailure s
  | .ideReestablish => Sys2Proof.Machine.execIdeReestablish s
  | .spdmRequest r => Sys2Proof.Machine.execSpdmRequest r s
  | .sliceEnd p => Sys2Proof.Machine.execSliceEnd p s
  | .sliceTake p => Sys2Proof.Machine.execSliceTake p s
  | .restore core ctx => Sys2Proof.Machine.execRestore core ctx s
  | .spill core q => Sys2Proof.Machine.execSpill core q s
  | .trapDelivery core slot lane => Sys2Proof.Machine.execTrapDelivery core slot lane s
  | .tdispRequest p r => Sys2Proof.Machine.execTdispRequest p r s
  | .linkRetrainDone port ok => Sys2Proof.Machine.execLinkRetrainDone port ok s
  | .debugSmaskWrite core v => Sys2Proof.Machine.execDebugSmaskWrite core v s

end Sys2Proof.Machine
end

