-- ==== Sys2Proof/Machine/Moves.lean ====
section
/-!
DEFINITION. The moves of the package that are no rows of the opcode table (spec/04_ordering.md R75): which move is next, and
what each does before and after the meaning of a word or an event.
-/

namespace Sys2Proof.Machine

/-- The moves of a runner that no run puts off for ever (R56, R57): the issue of its quarters, the requests and the performing of its
queued operations, its store drains, its results on their way, and the batches that wait. -/
def State.duties (s : State) (r : Nat) : List Move :=
  let c := s.core r
  (List.range 4).map (.issue r ·) ++
    ((List.range c.iq.length).reverse.flatMap fun k =>
      [.event (.fetch r k), .event (.register r true k), .event (.homeWideAtomic r k), .perform r k]) ++
    ((List.range c.sbuf.length).reverse.flatMap fun k => [.event (.register r false k), .event (.storeDrain r k)]) ++
    (List.range c.results.length).reverse.map (fun k => .event (.resultLand r k)) ++
    (c.iq.flatMap fun o => match o.kind with
      | .relWait bs _ => ((List.range 512).filter bs.getLsbD).map fun b => .event (.holdClear r b)
      | _ => []) ++
    c.spindles.flatMap fun e => e.2.batches.flatMap fun b =>
      let k := lowestLane b.lanes
      [.event (.markerResume r e.1 k), .event (.callRetry r e.1 k), .event (.yieldRelease r e.1 k), .event (.waitgeReread r e.1 k)]

/-- The next move: the head of the agenda, or a free choice (R75); after some free choices the duties of all runners are the agenda
(R57; log entry 1). A wait that a move met is over with it. -/
def State.nextMove (s : State) : State × Move :=
  match s.agenda with
  | m :: l => ({ s with agenda := l, stall := false }, m)
  | [] =>
    let t := { s with turn := s.turn + 1, stall := false }
    match s.patience with
    | n + 1 => ({ t with patience := n }, Config.nextMove s.turn)
    | 0 =>
      let t := { t with patience := Config.gap s.turn }
      match s.cores.flatMap fun e => s.duties e.1 with
      | [] => (t, Config.nextMove s.turn)
      | m :: l => ({ t with agenda := l }, m)

/-- An operation of an issue queue performed where it may be (R79), with the arrival at a barrier that it may complete (R284). -/
def State.performMove (s : State) (r idx : Nat) : State :=
  if !s.running || !s.opReady r idx then s
  else match (s.core r).iq[idx]? with
    | none => s
    | some o =>
      let t := match o.kind with
        | .chain desc card dst => s.performChain r idx o desc card dst
        | .posted p => s.performPosted r idx o p
        | .smp g x y pl sid dst => s.performSmp r idx o g x y pl sid dst
        | .tmeth desc slot rect pay => s.performTmeth r idx o desc slot rect pay
        | _ => s.performMem r idx o
      t.onCore r fun c => c.arrive o.slot o.lane

/-- The least of some ticks that lies after now, as a distance no more than n. -/
def State.distance (s : State) (n : Nat) (l : List (BitVec 64)) : Nat :=
  l.foldl (fun d t => if s.tick.toNat < t.toNat then min d (t.toNat - s.tick.toNat) else d) n

/-- The ticks at which something happens by itself (R398, R459, R477, R478). -/
def State.alarms (s : State) : List (BitVec 64) :=
  (if s.obsc.getLsbD 1 then [s.stt] else []) ++ (if s.obsc.getLsbD 4 then [s.snt] else []) ++ s.latchAt.toList ++
    (s.parts.filterMap fun (e : Nat × Partition) => if e.2.holder.isSome then some e.2.until_ else none) ++
    (List.range 8).map fun d => (s.die d).due

/-- Whether a slice passes at this tick (R459): a free one that a context with work takes, or one whose holder has no work left. -/
def State.sliceDue (s : State) (e : Nat × Partition) : Bool :=
  s.running && match e.2.holder with
  | none => e.2.en && !e.2.held && (s.nextHolder e.1 e.2.last).isSome
  | some h => !s.hasWork (16 * e.1 + h) && e.2.deferred.isNone

/-- Time passes, up to the next tick at which something happens by itself; what happens then happens (R4, R459, R475 to R478).
None passes while the window of a die is over and its governor has not acted (R398), or while a slice is to pass at this tick (R459). -/
def State.advance (s : State) (n : Nat) : State :=
  if s.pkcState < 2 || (List.range 8).any fun d => decide ((s.die d).due.toNat ≤ s.tick.toNat) || s.parts.any s.sliceDue then s
  else
    let s := { s with tick := s.tick + BitVec.ofNat 64 (s.distance n s.alarms) }
    let s := s.snapAtTick.latchNow
    let s := s.parts.foldl (fun s (e : Nat × Partition) => match e.2.holder with
      | some h => if s.running && decide (e.2.until_.toNat ≤ s.tick.toNat) then s.tryEnd e.1 h else s
      | none => s) s
    s.stopNow

/-- A record of a soft error (R452): a physical address where it has one. -/
def State.noteSoft (s : State) (who : Option Nat) (bank cause wm addr : Nat) : State :=
  (s.bumpLife 0 1).noteFor who bank 39 (2 ^ 63 + wm * 256 + cause) addr

/-- A soft error strikes (R436, R446, R448, R452). -/
def State.soft (s : State) (e : SoftError) : State :=
  if !s.running then s
  else match e with
  | .check core q lane row res twice =>
    match s.issueMove core q with
    | (_, none) => s
    | (t, some i) => match t.context (hdrOf i) with
      | none => s
      | some x =>
        let regs := 1 :: if res then regWrites i else (regReads i).map Prod.fst
        if !isCore core || !x.lanes.getLsbD lane || !(regs.any fun r => x.base + r == row) then s
        else if twice then (t.bumpLife 0 1).machineCheck x row lane res
        else s.bumpLife 0 1
  | .reg core row lane v res => s.onCore core fun c => c.setRow row lane (.bad v res)
  | .l1 core pa =>
    let w := pa / 4
    match (s.core core).l1At w with
    | none => s
    | some x =>
      if !x.g then (s.bumpLife 0 1).onCore core (·.l1Drop w)
      else
        let cx := ((s.core core).lineInfo (w / 32)).ctx
        ((s.loseWord core w).noteSoft (some cx) (homeBank pa) 27 (2 ^ (w % 32)) (w / 32 * 128)).noteWord cx 37 27 w
  | .l2 pa =>
    match SMap.find s.l2 (pa / 128) with
    | none => s
    | some l =>
      if l.dirty then
        { s with l2 := SMap.put s.l2 (pa / 128) { l with ws := setAt l.ws (pa / 4 % 32) .poison } }.noteSoft none (homeBank pa) 28
          (2 ^ (pa / 4 % 32)) (pa / 4 * 4)
      else { s.bumpLife 0 1 with l2 := SMap.erase s.l2 (pa / 128) }
  | .scratch core word =>
    let c := s.core core
    let who := ((c.wgs.find? fun e => decide (e.2.scrBase ≤ word / 512) && decide (word / 512 < e.2.scrBase + e.2.rcd.scr)).map
      fun e => e.2.rcd.ctx)
    match who with
    | some cx => ((s.onCore core fun c => c.setScr word .poison)).noteSoft (some cx) 0 28 0 (windowBase + core * 0x100000 + 0x80000 + 4 * word)
    | none => (s.onCore core fun c => c.setScr word .poison).bumpLife 0 1
  | .hbm pa v => if isHbm pa then s.strikeHbm pa v else s
  | .metaRow row => if (SMap.find s.mcache row).isSome || s.rowFailed 3 row then s else s.metaFailure row

/-- A move made up to the meaning of its word or event, if it has one. Nothing but a reset moves a stopped package (R399, R477). -/
def State.begin_ (s : State) (m : Move) : State × Option Instr :=
  if s.stopped && m != .event .reset then (s, none)
  else match m with
  | .issue r q => s.issueMove r q
  | .perform r idx => (s.performMove r idx, none)
  | .engine cl job k => (if s.running then s.engineMove cl job k else s, none)
  | .advance n => (s.advance n, none)
  | .soft e => (s.soft e, none)
  | .event e => if e.isWord then (s, none) else (s, some e)

/-- A small resident state whose next fetch reads an L2 line (log entry 12). -/
def State.placeFetch (s : State) (ws : List LWord) : State :=
  let f : Fibre := { pc := 0, base := 0, rows := 256, wid := 0, fid := 0, ticket := none, answered := false, rtePc := none }
  let sp : Spindle := { wg := 0, sidx := 0, seg := 5, fibres := [(0, f)],
                        batches := [{ lanes := 1, wait := .none, mark := false, waited := 0, current := true }], lastS := false,
                        loops := [], frames := [{ base := 0, rows := 256, depth := 0, members := 1, handler := none }],
                        pend := [], issues := 0, spilled := false }
  let rcd : Record := { (default : Record) with ctx := 0, pv := true }
  let wg : Workgroup := { rcd := rcd, argp := 0, slots := [0], scrBase := 0, ctag := BitVec.allOnes 64, tagst := [],
                          nmcnt := 0, openB := [], closedB := [], bars := [], coop := false, halted := false,
                          ending := false, killed := false }
  let leaf : Leaf := { ctx := 0, lg := 12, vpn := 0, ppn := 0, creg := 0, hc := false, fv := false, sl := true, cpol := 0,
                       x := true, w := true }
  let row0 : LWord := .good 1
  let c := ({ Core.reset with tlb := [leaf], nextFid := 1, nextWg := 1 }.setRow 1 0 row0).setSpindle 0 sp |>.setWg 0 wg
  { s with cores := SMap.put s.cores 0 c, l2 := SMap.put s.l2 0 { ws := ws, dirty := false, ks := 0, view := false, first := false, way := 0 },
           regst := s.regst.filter fun e => decide (32 ≤ e.1),
           parts := SMap.put s.parts 0 { s.part 0 with en := true, pcg := (s.part 0).pcg ||| 1, clm := (s.part 0).clm ||| 1,
                                                       holder := some 0 } }

/-- Whether what blocks a batch is over (R53). -/
def State.unblocked (s : State) (r : Nat) (w : Workgroup) (b : Block) : Bool :=
  let cx := w.rcd.ctx
  match b with
  | .tile rows => !s.tileIn r rows
  | .copySlots n => decide (s.copiesOf r + n ≤ 512)
  | .chain va => match s.readVas (runnerDie r) cx va.toNat 16 with
    | (_, .ok ws) => match (cardNum ws).bind parseDescriptor with
      | some d => d.room 1
      | none => true
    | (_, .error _) => true
  | .closedBatch => decide ((s.closedOf r w).length < 16)
  | .postRoom n => decide ((s.core r).posts.length + n ≤ 64)
  | .recordRoom cl _ => s.recordRoom cl cx
  | .launchRoom => s.launchRoom cx
  | .primRoom _ => s.primRoom cx

/-- A batch that is no longer blocked is ready again: its word is issued anew (R53). -/
def State.wakeBatch (s : State) (r : Nat) (w : Workgroup) (b : Batch) : Batch :=
  match b.wait with
  | .blocked k => if s.unblocked r w k then { b with wait := .none } else b
  | _ => b

/-- The blocked batches of a runner looked at again. -/
def State.wakeCore (s : State) (r : Nat) (c : Core) : Core :=
  { c with spindles := c.spindles.map fun (e : Nat × Spindle) =>
      match c.wg e.2.wg with
      | some w => (e.1, { e.2 with batches := e.2.batches.map (s.wakeBatch r w) })
      | none => e }

def State.wake (s : State) : State := { s with cores := s.cores.map fun (e : Nat × Core) => (e.1, s.wakeCore e.1 e.2) }

/-- A batch parked on a wait is released where its condition holds (R90). -/
def State.releaseBatch (s : State) (r slot wg : Nat) (b : Batch) : State :=
  let lane := lowestLane b.lanes
  match b.wait with
  | .join _ _ => s.releaseJoin r slot lane
  | .ret _ _ => s.releaseRet r slot lane
  | .bar bid _ _ _ _ _ => s.releaseBar r wg bid
  | .mbarWait _ _ _ => s.releaseMbar r slot lane
  | .waitge _ _ _ _ => s.releaseWaitge r slot lane
  | .cwait _ _ _ _ _ _ _ => s.releaseCwait r slot lane
  | .cbatchWait _ _ => s.releaseCbatch r slot lane
  | .ttwait _ _ _ => s.releaseTtwait r slot lane
  | .nfence _ => s.releaseNfence r slot lane
  | _ => s

/-- The batches whose waits are over go on, and the launches whose bits stand are eligible, before any other move (R34, R90). -/
def State.release (s : State) : State :=
  let s := s.ctxs.foldl (fun s e => s.latch e.1) s
  s.cores.foldl (fun s e => e.2.spindles.foldl (fun s sp => sp.2.batches.foldl (fun s b =>
    s.unlessWait fun s => s.releaseBatch e.1 sp.1 sp.2.wg b) s) s) s

/-- The home banks with parked posts take what they can (R370). -/
def State.drainBanks (s : State) : State :=
  (distinct (s.parked.map fun p => p.tk.bank)).foldl (fun s b => s.unlessWait fun s => s.drainBank b) s

/-- The changes of partitions and the dumps that wait for their workgroups to settle (R469, R483). -/
def State.settle (s : State) : State :=
  s.parts.foldl (fun s (e : Nat × Partition) => s.unlessWait fun s =>
    if e.2.pend && e.2.force then s.finishForce e.1
    else if e.2.held && e.2.dumpId.isSome && !e.2.dumped then s.record e.1
    else s) s

/-- The end of a move: what follows from it at once, and the records it asks for (R424). What must wait is left for a later move. -/
def State.endMove (s : State) : State := if s.stopped then s else s.settle.drainBanks.flushFired.release.wake.flushRecords

/-- What a move leaves: its state, or, where it met a request that must wait, the state before it (R109). -/
def State.commit (s t : State) : State := if t.stall then s.nextMove.1 else t

end Sys2Proof.Machine
end

