-- ==== Sys2Proof/Machine/Step.lean ====
section
/-!
DEFINITION. One step of the package: one move (spec/04_ordering.md R75; log entry 1).
-/

namespace Sys2Proof.Machine

/-- One move: the next of the agenda or a free choice, with the meaning of its word or event where it has one, and the fault
records that it asks for. A move that meets a request that must wait is not made (R109). -/
def step (s : State) : Host.Outcome State Fault Refusal :=
  let p := s.nextMove.1.begin_ s.nextMove.2
  match p.2 with
  | none => .next (s.commit p.1).endMove
  | some i => match exec i p.1 with
    | .next t => .next (s.commit t).endMove
    | .fault f => .fault f
    | .refused r => .refused r

/-- The instruction of `nbits` bits w stored where the next step fetches it (log entry 12): the package is READY, context 0 is
enabled, core 0 holds one spindle of one fibre whose PC is 0, the core's TLB maps page 0 to physical page 0, the first L2 line
holds the words, and the next move issues from quarter 0. -/
def State.withFetchWord (s : State) (nbits w : Nat) : State :=
  let ws : List LWord := (List.range 32).map fun k => .good (BitVec.ofNat 32 (w % 2 ^ nbits / 2 ^ (32 * k)))
  { s with agenda := [.issue 0 0], pkc := 5, stopped := false }.placeFetch ws

end Sys2Proof.Machine
end

