-- ==== Sys2Proof/Safety.lean ====
section
/-!
DEFINITION. What counts as a safe run, the data invariant of the state, and the terms in which the statements say what a word
leaves: when a word issues as itself, what a lane's registers hold after its writes, and what stays.
-/

namespace Sys2Proof

open Sys2Proof.Machine

/-- A run of k steps that stops nowhere. -/
def SafeRun (k : Nat) (s : State) : Prop := ∃ t, core.run k s = .next t

/-- The memories of a state are in canonical form. -/
def DataInv (s : State) : Prop := Memory.wf s.hbm = true ∧ Memory.wf s.host = true

/-- The current batch issues the word with its own meaning: the batch stands in its spindle, no register is outside the frame, no
residue mismatches, no hazard is met (R166, R434, R436), and no lane's guard is poisoned (R167). -/
structure Issues (s : State) (i : Instr) (x : Iss) : Prop where
  context : s.context (hdrOf i) = some x
  free : stopOf (s.core x.core) x (s.ctx x.cx).hz i = .none
  guards : ∀ l ∈ lanesOf x.lanes, guardAt (s.core x.core) x.base (hdrOf i).guard l ≠ none

/-- The lanes in which a word acts: those whose guard is true (R167). -/
def actsIn (x : Iss) (l : Nat) : Prop := l ∈ lanesOf x.gt

/-- Register vk of a fibre after the writes of a word in its lane (R48, R166, R143, R212): v0 discards what is written, v1 keeps
its bit 0 at 1, then takes the predicate bit and then the flags. -/
def afterWrites (e : LaneEffect) (k : Nat) (old : LWord) : LWord :=
  let w := e.regs.foldl (fun w r => if r.1 = k then (if k = 1 then orBit0 r.2 else r.2) else w) old
  if k = 0 then old
  else if k = 1 then
    let w := match e.bit with
      | some (j, b) => putBit w j b
      | none => w
    if e.flags = 0 then w else orFlags w e.flags
  else w
where
  /-- A good word with its bit 0 set. -/
  orBit0 : LWord → LWord
    | .good w => .good (w ||| 1)
    | w => w

/-- A spindle whose lanes have completed a word of `len` words (R158, R278): only program counters, loop records and batches
differ, and without loop records every lane of the batch stands after the word. -/
structure GoesOn (lanes : Word) (len : Nat) (sp sp' : Spindle) : Prop where
  rest : { sp' with fibres := sp.fibres, batches := sp.batches, loops := sp.loops } = sp
  others : ∀ l, l ∉ lanesOf lanes → sp'.fibre l = sp.fibre l
  lanes : ∀ l, l ∈ lanesOf lanes → ∀ f, sp.fibre l = some f →
    ∃ p, sp'.fibre l = some { f with pc := p } ∧ (sp.loops = [] → p = f.pc + BitVec.ofNat 64 (4 * len))
  empty : ∀ l, sp.fibre l = none → sp'.fibre l = none

/-- What the rows of a runner may differ in after a word: its lanes' registers by `after`, the rest not at all. -/
def RowsAfter (x : Iss) (after : Nat → Nat → LWord → LWord) (c c' : Core) : Prop :=
  ∀ row l, l < 32 → (actsIn x l → x.base < row → c'.row row l = after l (row - x.base) (c.row row l)) ∧
    (¬ (actsIn x l ∧ x.base < row) → c'.row row l = c.row row l)

/-- The frame of a word that acts on its own runner alone: every other part of the package is as before, every other runner too,
and in its own runner only the fields that `keep` gives back may differ; its spindle goes on (with what the word `sets` in it), and no other
spindle changes. -/
structure OwnRunner (x : Iss) (keep : Core → Core → Core) (s t : State) (sets : Spindle → Spindle := id) : Prop where
  elsewhere : { t with cores := s.cores } = s
  others : ∀ r, r ≠ x.core → t.core r = s.core r
  own : { keep (s.core x.core) (t.core x.core) with spindles := (s.core x.core).spindles } = s.core x.core
  slots : ∀ k, k ≠ x.slot → (t.core x.core).spindle k = (s.core x.core).spindle k
  spindle : ∃ sp sp', (s.core x.core).spindle x.slot = some sp ∧ (t.core x.core).spindle x.slot = some sp' ∧
    GoesOn x.lanes x.len (sets sp) sp'

/-- AN ALU-CLASS WORD (R166, R174): every lane whose guard is true makes the writes `e`, read from the state before; no other
register of any lane, and nothing else of the package, changes. -/
def RunsAlu (i : Instr) (e : Core → Iss → Nat → LaneEffect) : Prop :=
  ∀ s x, Issues s i x → ∃ t, exec i s = .next t ∧
    OwnRunner x (fun c c' => { c' with rows := c.rows }) s t ∧
    RowsAfter x (fun l k old => afterWrites (e (s.core x.core) x l) k old) (s.core x.core) (t.core x.core)

/-- A VARIABLE-LATENCY WORD (R174, R176): every lane whose guard is true sends one result on its way, in ascending order of lanes,
with the writes `e` of the lane by absolute row; no register changes yet, and nothing else of the package changes but hazard
marks (R434). -/
def RunsVar (i : Instr) (e : Core → Iss → Nat → LaneEffect) : Prop :=
  ∀ s x, Issues s i x → ∃ t, exec i s = .next t ∧
    OwnRunner x (fun c c' => { c' with results := c.results, marks := c.marks }) s t ∧
    ((s.ctx x.cx).hz = false → (t.core x.core).marks = (s.core x.core).marks) ∧
    (t.core x.core).results = (s.core x.core).results ++ (lanesOf x.gt).map fun l =>
      { fid := fidOf (s.core x.core) x l, slot := x.slot, lane := l,
        words := ((e (s.core x.core) x l).regs.filter fun w => w.1 != 0).map fun w => (x.base + w.1, w.2),
        v1row := x.base + 1, pd := (e (s.core x.core) x l).bit, flags := (e (s.core x.core) x l).flags, smp := none }

/-! What the operands of a word give and what its results are (R138, R147, R211, R212). -/

/-- A lane-word read as an integer of a type (R211: Src): its low bits, with or without a sign. -/
def readAs (t : Ty) (x : Word) : Int :=
  if tySigned t then (x.setWidth (tyBits t)).toInt else (x.setWidth (tyBits t)).toNat

/-- An exact integer written as a lane-word of a type (R211: Res): clamped to its bounds where `sat`, taken mod 2^N, and extended
to 32 bits by its sign or by zeros. -/
def writeAs (t : Ty) (sat : Bool) (v : Int) : Word :=
  let n := tyBits t
  let v := if sat then (if tySigned t then min (max v (-2 ^ (n - 1))) (2 ^ (n - 1) - 1) else min (max v 0) (2 ^ n - 1)) else v
  if tySigned t then (BitVec.ofInt n v).signExtend 32 else (BitVec.ofInt n v).setWidth 32

/-- A pair read as a 64-bit integer with the signedness of a type (R234: Src64). -/
def readAs64 (t : Ty) (x : DWord) : Int := if tySigned t then x.toInt else x.toNat

/-- An exact integer written as a pair with the signedness of a type (R234: Res64). -/
def writeAs64 (t : Ty) (sat : Bool) (v : Int) : DWord :=
  BitVec.ofInt 64 (if sat then (if tySigned t then min (max v (-2 ^ 63)) (2 ^ 63 - 1) else min (max v 0) (2 ^ 64 - 1)) else v)

/-- Register d takes a value, or poison where an operand has none (R147, R212). -/
def writesD (o : Opnds) (v : Option Word) : LaneEffect := ⟨[(o.d.toNat, goodOr v)], none, 0⟩

/-- The pair at d takes a value, the low word first, or poison in both words (R138, R212). -/
def writesPair (o : Opnds) (v : Option DWord) : LaneEffect :=
  ⟨[(o.d.toNat, goodOr (v.map fun (w : DWord) => w.setWidth 32)), (o.d.toNat + 1, goodOr (v.map fun (w : DWord) => (w >>> 32).setWidth 32))], none, 0⟩

/-- The value of operand a, of a and b, of a, b and c in a lane under a function; none where one of them is poison. -/
def ofA {α : Type} (o : Opnds) (f : Word → α) (c : Core) (x : Iss) (l : Nat) : Option α := (srcVal c x o.a l).map f
def ofAB {α : Type} (o : Opnds) (f : Word → Word → α) (c : Core) (x : Iss) (l : Nat) : Option α :=
  (srcVal c x o.a l).bind fun a => (srcVal c x o.b l).map fun b => f a b
def ofABC {α : Type} (o : Opnds) (f : Word → Word → Word → α) (c : Core) (x : Iss) (l : Nat) : Option α :=
  (srcVal c x o.a l).bind fun a => (srcVal c x o.b l).bind fun b => (srcVal c x o.c l).map fun w => f a b w

/-- The value of the pairs a, and a and b, in a lane under a function. -/
def ofPair {α : Type} (o : Opnds) (f : DWord → α) (c : Core) (x : Iss) (l : Nat) : Option α := (srcVal64 c x o.a l).map f
def ofPairs {α : Type} (o : Opnds) (f : DWord → DWord → α) (c : Core) (x : Iss) (l : Nat) : Option α :=
  (srcVal64 c x o.a l).bind fun a => (srcVal64 c x o.b l).map fun b => f a b

/-- v1 of a lane as a value; none where it is poison. -/
def v1Val (c : Core) (x : Iss) (l : Nat) : Option Word :=
  match c.reg x.base 1 l with
  | .poison => none
  | w => some w.val

/-- A sum or difference that also writes a carry or borrow bit of v1 (R216, R217): d first, then bit `cp`; from a poisoned
operand both are poison (R212). `k` is the incoming bit. -/
def writesCarry (o : Opnds) (cp : Nat) (v : Option (Word × Bool)) : LaneEffect :=
  ⟨[(o.d.toNat, goodOr (v.map Prod.fst))], if cp = 0 then none else some (cp, v.map Prod.snd), 0⟩

/-- What a compare writes (R229): the mask in d, and with `pd` the bit of v1 by `bop` from the old bit and the outcome; and the
flags, where the outcome has a value. -/
def writesCmp (o : Opnds) (pd bop : Nat) (old : Bool) (r : Option Bool) (f : BitVec 5) : LaneEffect :=
  ⟨[(o.d.toNat, goodOr (r.map fun b => if b then 0xFFFFFFFF else 0))],
   if pd = 0 then none
   else some (pd, r.map fun b => if bop = 0 then b else if bop = 1 then old && b else if bop = 2 then old || b else xor old b),
   if r.isSome then f else 0⟩

/-- The conditions of a compare (R229) on exact values, with the AND of the bits compared. -/
def holdsCc (cc : Nat) (a b : Int) (both : Nat) : Bool :=
  if cc = 0 then decide (a = b) else if cc = 1 then decide (a ≠ b) else if cc = 2 then decide (a < b)
  else if cc = 3 then decide (a ≤ b) else if cc = 4 then decide (a > b) else if cc = 5 then decide (a ≥ b) else decide (both ≠ 0)

/-- A float result of up to 32 bits in d with its flags, or poison and no flag where an operand is poison (R147, R240). -/
def writesF (o : Opnds) (v : Option (Nat × Flags)) : LaneEffect :=
  ⟨[(o.d.toNat, goodOr (v.map fun r => BitVec.ofNat 32 r.1))], none, (v.map Prod.snd).getD 0⟩

/-- An FP64 result in the pair at d with its flags (R138, R240). -/
def writesF64 (o : Opnds) (v : Option (Nat × Flags)) : LaneEffect :=
  ⟨[(o.d.toNat, goodOr (v.map fun r => BitVec.ofNat 32 r.1)), (o.d.toNat + 1, goodOr (v.map fun r => BitVec.ofNat 32 (r.1 / 2 ^ 32)))],
   none, (v.map Prod.snd).getD 0⟩

/-- A magnitude m·2^e is a whole number v. -/
def WholeIs (m : Nat) (e : Int) (v : Nat) : Prop := m * 2 ^ e.toNat = v * 2 ^ (-e).toNat

/-- The values A that R258 gives no exact result of a minor of `sfu` for: finite, not zero, in its domain, and none of its row. -/
def SfuRounds (minor : Nat) (neg : Bool) (m : Nat) (e : Int) : Prop := m ≠ 0 ∧
  (minor = 0 → ∀ j : Nat, m = 2 ^ j → ¬ (-127 ≤ j + e ∧ j + e ≤ 126)) ∧
  (minor = 1 → neg = false ∧ ∀ (j : Nat) (i : Int), m = 2 ^ j → j + e ≠ 2 * i) ∧
  (minor = 3 → ∀ v, WholeIs m e v → (if neg then 126 else 127) < v) ∧
  (minor = 4 → neg = false ∧ ∀ j : Nat, m ≠ 2 ^ j) ∧
  (minor = 5 ∨ minor = 6 → ∀ v, ¬ WholeIs (2 * m) e v)

/-- A result of `sfu` within its bound (R257), as the model's free value keeps it (log entry 9): the unit's own value or the nearest
one; past the largest finite number the rounded one; and with `ftz` a subnormal one is the zero of its sign (R144). -/
def SfuBounded (minor : Nat) (m : FMods) (neg : Bool) (f : Nat) (e : Int) (v : Nat) : Prop :=
  let r := sfuReal minor neg f e
  withinBound (Fmt.f32.decode v) r (sfuBound minor f e r) = true ∨ v = (Fmt.f32.round .rn false false r).1 ∨
    (v = (Fmt.f32.round m.rnd false m.ftz r).1 ∧ (Fmt.f32.round m.rnd false m.ftz r).2 &&& Flags.of ≠ 0) ∨ m.ftz = true ∧ v % 2 ^ 31 = 0

/-- One half of two packed operands read as a format (R239, R255). -/
def halfOf (f : Fmt) (m : FMods) (n : BitVec 2) (w : Word) (hi : Bool) : FVal :=
  fIn f (if hi then w.toNat / 2 ^ 16 else w.toNat % 2 ^ 16) n m.ftz

/-- Both halves of a packed result, each on its own, with the flags of both (R255). -/
def bothHalves (g : Bool → Nat × Flags) : Nat × Flags := ((g false).1 + 2 ^ 16 * (g true).1, (g false).2 ||| (g true).2)

/-- The participating set of a lane (R260): the lanes of its segment that belong to the batch and whose guard is true. -/
def participating (x : Iss) (i : Nat) : List Nat :=
  (List.range 32).filter fun j => decide (j / 2 ^ x.seg = i / 2 ^ x.seg) && x.gt.getLsbD j

/-- The values of operand a over lanes; none where one is poison (R260). -/
def ofLanes {α : Type} (o : Opnds) (js : List Nat) (f : (Nat → Word) → α) (c : Core) (x : Iss) : Option α :=
  if js.any fun j => (srcVal c x o.a j).isNone then none else some (f fun j => (srcVal c x o.a j).getD 0)

/-- A value in d and the predicate bit `pd` of v1 (R261); from a poisoned input both are poison. -/
def writesVote (o : Opnds) (pd : Nat) (v : Option (Word × Bool)) : LaneEffect :=
  ⟨[(o.d.toNat, goodOr (v.map Prod.fst))], if pd = 0 then none else some (pd, v.map Prod.snd), 0⟩

/-- A mask of all ones where a condition holds, with the condition. -/
def asMask (r : Bool) : Word × Bool := (if r then 0xFFFFFFFF else 0, r)

/-- Field k of n bits of a word as an integer, with or without a sign (R219, R220). -/
def fieldInt (sg : Bool) (n k : Nat) (w : Word) : Int :=
  if sg then ((w >>> (n * k)).setWidth n).toInt else ((w >>> (n * k)).setWidth n).toNat

/-- The distance of two integers. -/
def distance (a b : Int) : Int := max (a - b) (b - a)

/-- A rotation to the left (R223). -/
def rotated (a : Word) (n : Nat) : Word := a <<< (n % 32) ||| a >>> (32 - n % 32)

/-- The bytes that `perm` selects (R228). -/
def permuted (a b w : Word) : Word :=
  let byte (v : Word) (k : Nat) : BitVec 8 := (v >>> (8 * k)).setWidth 8
  let out (k : Nat) : BitVec 8 :=
    let sel := ((w >>> (5 * k)).setWidth 5).toNat
    let y := if sel % 8 < 4 then byte a (sel % 8) else byte b (sel % 8 - 4)
    if sel / 8 = 0 then y else if sel / 8 = 1 then (if y.getLsbD 7 then 0xFF else 0) else if sel / 8 = 2 then 0 else 0xFF
  out 3 ++ out 2 ++ out 1 ++ out 0

/-- The writes of a slot of a pair word in a lane (R172, R173): minor 0 of its major under the defaults of R160. -/
def slotWrites (k : Slot) (c : Core) (x : Iss) (l : Nat) : LaneEffect :=
  let o : Opnds := ⟨k.d, .reg k.a .ident, .reg k.b .ident, .reg k.c .ident⟩
  let i2 (f : Word → Word → Word) : LaneEffect := writesD o (ofAB o f c x l)
  let i3 (f : Word → Word → Word → Word) : LaneEffect := writesD o (ofABC o f c x l)
  let f2 (g : FVal → FVal → Nat × Flags) : LaneEffect := writesF o (ofAB o (fun a b => g (Fmt.f32.decode a.toNat) (Fmt.f32.decode b.toNat)) c x l)
  let half (w : Word) (hi : Bool) : Nat := if hi then w.toNat / 2 ^ 16 else w.toNat % 2 ^ 16
  let h2 (g : Nat → Nat → Nat × Flags) : LaneEffect :=
    writesF o (ofAB o (fun a b => bothHalves fun hi => g (half a hi) (half b hi)) c x l)
  match k.op with
  | .add => i2 fun a b => a + b
  | .sub => i2 fun a b => a - b
  | .mul => i2 fun a b => a * b
  | .mad => i3 fun a b w => a * b + w
  | .min => i2 fun a b => if a.toInt ≤ b.toInt then a else b
  | .max => i2 fun a b => if a.toInt ≤ b.toInt then b else a
  | .sad => i3 fun a b w => BitVec.ofInt 32 (distance a.toInt b.toInt + w.toInt)
  | .andO => i2 fun a b => a &&& b
  | .orO => i2 fun a b => a ||| b
  | .xorO => i2 fun a b => a ^^^ b
  | .andn => i2 fun a b => a &&& ~~~b
  | .shl => i2 fun a n => if n.toNat < 32 then a <<< n.toNat else 0
  | .shr => i2 fun a n => if n.toNat < 32 then a >>> n.toNat else 0
  | .sar => i2 fun a n => if n.toNat < 32 then a.sshiftRight n.toNat else if a.getLsbD 31 then BitVec.allOnes 32 else 0
  | .rot => i2 fun a n => rotated a n.toNat
  | .perm => i3 permuted
  | .mov => writesD o (ofA o (fun a => a) c x l)
  | .dp4 => i3 fun a b w => BitVec.ofInt 32 (fieldInt true 8 0 a * fieldInt true 8 0 b + fieldInt true 8 1 a * fieldInt true 8 1 b +
      fieldInt true 8 2 a * fieldInt true 8 2 b + fieldInt true 8 3 a * fieldInt true 8 3 b + w.toInt)
  | .fadd => f2 (fAdd .f32 .rn false false)
  | .fmul => f2 (fMul .f32 .rn false false)
  | .ffma => writesF o (ofABC o (fun a b w => fFma .f32 .rn false false (Fmt.f32.decode a.toNat) (Fmt.f32.decode b.toNat)
      (Fmt.f32.decode w.toNat)) c x l)
  | .fmin => writesF o (ofAB o (fun a b => fMinMax .f32 false false a.toNat b.toNat) c x l)
  | .hadd2 => h2 fun a b => fAdd .f16 .rn false false (Fmt.f16.decode a) (Fmt.f16.decode b)
  | .hmul2 => h2 fun a b => fMul .f16 .rn false false (Fmt.f16.decode a) (Fmt.f16.decode b)
  | .hfma2 => writesF o (ofABC o (fun a b w => bothHalves fun hi => fFma .f16 .rn false false (Fmt.f16.decode (half a hi))
      (Fmt.f16.decode (half b hi)) (Fmt.f16.decode (half w hi))) c x l)
  | .hmin2 => h2 (fMinMax .f16 false true)

/-! The memory words (R293 to R310). -/

/-- The address of a global access in a lane (R293): the pair a plus b, a literal with its sign, anything else without. -/
def address64 (c : Core) (x : Iss) (o : Opnds) (l : Nat) : Option (BitVec 64) :=
  (srcVal64 c x o.a l).bind fun a => (srcVal c x o.b l).map fun b => a + (match o.b with
    | .lit | .litHi => b.signExtend 64
    | _ => b.setWidth 64)

/-- The offset of a scratchpad or private access in a lane (R293). -/
def offset32 (c : Core) (x : Iss) (o : Opnds) (l : Nat) : Option (BitVec 32) := ofAB o (fun a b => a + b) c x l

/-- The words of a run of registers in a lane. -/
def dataOf (c : Core) (x : Iss) (d n l : Nat) : List LWord := (List.range n).map fun k => c.reg x.base (d + k) l

/-- The checks of a global access pass in a lane (R295) with an address whose leaf the runner's TLB holds: no poison, alignment,
translation and permission (R61); parts of a word are not written in the on-chip window (R67). -/
structure PassesGlobal (s : State) (x : Iss) (o : Opnds) (n : Nat) (use : Use) (data : Nat) (l : Nat) (ea : BitVec 64) (leaf : Leaf) :
    Prop where
  addr : address64 (s.core x.core) x o l = some ea
  data : ∀ w ∈ dataOf (s.core x.core) x o.d.toNat data l, w.isPoison = false
  align : ea.toNat % n = 0
  canonical : canonical ea.toNat = true
  hit : findLeaf (s.core x.core).tlb x.cx ea.toNat = some leaf
  allowed : s.leafCheck x.cx leaf (leaf.pa ea.toNat) use = none
  window : use = .write → n < 4 → isWindow (leaf.pa ea.toNat) = false

/-- Where a global access goes (R62): in place for the on-chip window and for a host page with `hc` = 0, else through the registry
with the page's attributes and the effective caching. -/
def globalAt (m : MMods) (ea : BitVec 64) (leaf : Leaf) : Place :=
  let pa := leaf.pa ea.toNat
  if isWindow pa || (isHost pa && !leaf.hc) then .inPlace pa ea.toNat
  else .mem pa leaf.creg leaf.sl leaf.fv (max leaf.cpol m.cache.toNat) ea.toNat

/-- The checks of a scratchpad access pass in a lane (R68, R295): within the workgroup's range. -/
structure PassesScratch (s : State) (x : Iss) (o : Opnds) (n data l : Nat) (b : BitVec 32) : Prop where
  addr : offset32 (s.core x.core) x o l = some b
  data : ∀ w ∈ dataOf (s.core x.core) x o.d.toNat data l, w.isPoison = false
  align : b.toNat % n = 0
  bounds : b.toNat + n ≤ s.scrLimit x

/-- The address of a byte of a lane's private memory (R69): the block of the spindle's slot from `PVB` on, then the offset. -/
def privateAt (s : State) (x : Iss) (l : Nat) (b : BitVec 32) : BitVec 64 :=
  let k := s.ctx x.cx
  (k.pvb &&& ~~~0xFFF#64) + BitVec.ofNat 64 ((x.core * 64 + x.slot) * 512 * (k.pvs.setWidth 16).toNat) +
    BitVec.ofNat 64 (b.toNat / 16 * 512 + l * 16 + b.toNat % 16)

/-- The checks of a private access pass in a lane (R69, R295, R310): within the context's private size, at an address whose leaf the
runner's TLB holds and that the leaf allows. -/
structure PassesPrivate (s : State) (x : Iss) (o : Opnds) (n : Nat) (use : Use) (data l : Nat) (b : BitVec 32) (leaf : Leaf) : Prop where
  addr : offset32 (s.core x.core) x o l = some b
  data : ∀ w ∈ dataOf (s.core x.core) x o.d.toNat data l, w.isPoison = false
  align : b.toNat % n = 0
  bounds : b.toNat + n ≤ (s.ctx x.cx).privSize
  canonical : canonical (privateAt s x l b).toNat = true
  hit : findLeaf (s.core x.core).tlb x.cx (privateAt s x l b).toNat = some leaf
  allowed : s.leafCheck x.cx leaf (leaf.pa (privateAt s x l b).toNat) use = none

/-- An access with the release before it and the acquire after it that its order asks for (R76). -/
def ordered (ord : Order) (sc : Scope) (creg : BitVec 8) (drained : Bool) (k : OpKind) : List OpKind :=
  let wide : Bool := match sc with
    | .fib | .spd | .wg => false
    | _ => true
  (match ord with
    | .rel | .ar => [.release wide true]
    | _ => []) ++ [k] ++
  match ord with
  | .acq | .ar => [.acquire wide creg drained true]
  | _ => []

/-- A WORD THAT ENTERS THE ISSUE QUEUE (R74): each guard-true lane, in ascending order, puts its operations at the end of the queue;
no register, no word of memory and nothing else of the package changes but hazard marks (R434). -/
def Enqueues (i : Instr) (s : State) (x : Iss) (kinds : Nat → List OpKind) : Prop :=
  ∃ t, exec i s = .next t ∧ OwnRunner x (fun c c' => { c' with iq := c.iq, marks := c.marks }) s t ∧
    ((s.ctx x.cx).hz = false → (t.core x.core).marks = (s.core x.core).marks) ∧
    (t.core x.core).iq = (s.core x.core).iq ++ (lanesOf x.gt).flatMap fun l => (kinds l).map fun k =>
      { seen := false, counted := false, grp := (s.core x.core).issued.toNat, tick := x.tick, fid := fidOf (s.core x.core) x l, slot := x.slot,
        lane := l, wg := x.wg, ctx := x.cx, kind := k }

/-! The control words and the batches (R45 to R55, R270 to R290). -/

/-- A word or an event that changes one spindle of one runner: every other part of the package is as before, every other runner too,
in its runner only the fields that `keep` gives back may differ, no other spindle changes, and its own one changes by R. -/
structure OwnSpindle (core slot : Nat) (keep : Core → Core → Core) (s t : State) (R : Spindle → Spindle → Prop) : Prop where
  elsewhere : { t with cores := s.cores } = s
  others : ∀ r, r ≠ core → t.core r = s.core r
  own : { keep (s.core core) (t.core core) with spindles := (s.core core).spindles } = s.core core
  slots : ∀ k, k ≠ slot → (t.core core).spindle k = (s.core core).spindle k
  spindle : ∃ sp sp', (s.core core).spindle slot = some sp ∧ (t.core core).spindle slot = some sp' ∧ R sp sp'

/-- The lanes of a word whose guard is false (R167). -/
def Machine.Iss.stay (x : Iss) : Word := x.lanes &&& ~~~x.gt

/-- The address after a word. -/
def Machine.Iss.after (x : Iss) : BitVec 64 := x.pc + BitVec.ofNat 64 (4 * x.len)

/-- The lanes of a batch stand together (R46): at the word, in its frame. -/
def Together (x : Iss) (sp : Spindle) : Prop :=
  ∀ l ∈ lanesOf x.lanes, ∃ f, sp.fibre l = some f ∧ f.pc = x.pc ∧ f.base = x.base ∧ f.rows = x.rows

/-- No loop record of a spindle ends at an address in a frame (R278). -/
def NoEnd (sp : Spindle) (pc : BitVec 64) (base : Nat) : Prop := ∀ r ∈ sp.loops, r.stop ≠ pc ∨ r.base ≠ base

/-- Lanes stand in ready batches, one for each PC and window base (R46, R53). -/
def Regrouped (lanes : Word) (mark : Bool) (sp : Spindle) : Prop :=
  ∀ l ∈ lanesOf lanes, (sp.fibre l).isSome → ∃ b ∈ sp.batches, b.wait = .none ∧ b.mark = mark ∧
    ∀ j, j ∈ lanesOf b.lanes ↔ j ∈ lanesOf lanes ∧ (sp.fibre j).isSome ∧ sp.at_ j = sp.at_ l

/-- Lanes stand in one batch that waits (R53). -/
def WaitsAs (lanes : Word) (w : Wait) (mark : Bool) (sp : Spindle) : Prop :=
  ∃ b ∈ sp.batches, b.lanes = lanes ∧ b.wait = w ∧ b.mark = mark

/-- Batches without a lane of some are as before, and the fibres of other lanes too. -/
def Bystanders (lanes : Word) (sp sp' : Spindle) : Prop :=
  (∀ b ∈ sp.batches, b.lanes &&& lanes = 0 → b.lanes ≠ 0 → b ∈ sp'.batches) ∧ ∀ l, l ∉ lanesOf lanes → sp'.fibre l = sp.fibre l

/-- Lanes go on to addresses of their own where no loop record ends at their word (R270, R278), and nothing else of their fibres changes. -/
def GoTo (lanes : Word) (tgt : Nat → BitVec 64) (sp sp' : Spindle) : Prop :=
  ∀ l ∈ lanesOf lanes, ∀ f, sp.fibre l = some f → NoEnd sp f.pc f.base → sp'.fibre l = some { f with pc := tgt l }

/-- A frame taken for some lanes as `call` does (R273): the link row holds the depth, the caller's frame and the return address
(R50), with p1 to p26 of the lanes; v1 and the argument rows are copied, the other rows of the frame are zero, and no other row
changes; the lanes stand at the target in the frame. -/
structure FrameTaken (c c' : Core) (sp sp' : Spindle) (lanes : Word) (depth crows cbase base rows args : Nat) (tgt rpc : BitVec 64)
    (handler : Option (BitVec 64)) : Prop where
  frames : sp'.frames = sp.frames ++ [{ base := base, rows := rows, depth := depth + 1, members := lanes, handler := handler }]
  fibres : ∀ l ∈ lanesOf lanes, ∀ f, sp.fibre l = some f → sp'.fibre l = some { f with pc := tgt, base := base, rows := rows }
  link : c'.linkRead base = some ((depth + 1) % 256 * 2 ^ 84 + crows % 512 * 2 ^ 75 + cbase % 2048 * 2 ^ 64 + rpc.toNat)
  predicates : ∀ l, l < 32 → ∀ j, 1 ≤ j → j ≤ 26 → ((c'.row base l).val.getLsbD j = true ↔
    l ∈ lanesOf lanes ∧ (c.row (cbase + 1) l).isPoison = false ∧ (c.row (cbase + 1) l).val.getLsbD j = true)
  copies : ∀ l, l < 32 → ∀ k, 1 ≤ k → k ≤ args + 1 → c'.row (base + k) l = c.row (cbase + k) l
  zeros : ∀ l, l < 32 → ∀ k, args + 1 < k → k < rows → c'.row (base + k) l = .good 0
  others : ∀ l, l < 32 → ∀ row, row < base ∨ base + args + 1 < row ∧ base + rows ≤ row → c'.row row l = c.row row l

/-- The fibres of some lanes end (R281, R371): the lanes are empty, no frame has them, no batch has them, their outstanding results
are discarded, and void is posted for a ticket that they had not answered. -/
structure Ended (lanes : Word) (c c' : Core) (sp sp' : Spindle) : Prop where
  gone : ∀ l ∈ lanesOf lanes, sp'.fibre l = none ∧ (∀ g ∈ sp'.frames, g.members.getLsbD l = false) ∧
    ∀ b ∈ sp'.batches, b.lanes.getLsbD l = false
  results : ∀ r, r ∈ c'.results ↔ r ∈ c.results ∧ ∀ e ∈ sp.fibres, lanes.getLsbD e.1 = true → e.2.fid ≠ r.fid
  posts : ∃ vs, c'.posts = c.posts ++ vs ∧ ∀ p, p ∈ vs ↔ ∃ e ∈ sp.fibres, ∃ tk, lanes.getLsbD e.1 = true ∧ e.2.ticket = some tk ∧
    e.2.answered = false ∧ p = { tk := tk, mask := 0, slots := 0, colour := [], depth := .good 0, refused := false }

/-- The batch of a word stands in its spindle, all of it at the word, in one frame `fr`. -/
def Stands (s : State) (x : Iss) (fr : Frame) : Prop :=
  ∃ sp, (s.core x.core).spindle x.slot = some sp ∧ Together x sp ∧ ∀ l ∈ lanesOf x.lanes, sp.frameOf l = some fr

/-- A waiting batch that is let go (R55, R90, R278): its lanes go on after their instruction of `len` words and form batches anew. -/
def Released (b : Batch) (len : Nat) (sp sp' : Spindle) : Prop :=
  GoTo b.lanes (fun l => (sp.at_ l).1 + BitVec.ofNat 64 (4 * len)) sp sp' ∧
  Regrouped b.lanes (sp.batches.any fun a => a.lanes &&& b.lanes != 0 && a.mark) sp' ∧ Bystanders b.lanes sp sp'

/-- v1 of a lane that returns (R51): bits 26 to 1 of the link row, the callee's flags, poison where the callee's v1 is poison. -/
def ReturnedV1 (link callee v : LWord) : Prop :=
  (callee.isPoison = true → v = .poison) ∧ (callee.isPoison = false → ∃ w : Word, v = .good w ∧ w.getLsbD 0 = true ∧
    ∀ j, 1 ≤ j → j < 32 → w.getLsbD j = if j ≤ 26 then link.val.getLsbD j else callee.val.getLsbD j)

/-- A core's acquire (R83, R90, R114): where it is wide, the words that are not registered leave L1 in the lines whose `creg` the mask
names; nothing else leaves. -/
def Acquired (wide : Bool) (mask : BitVec 8) (c c' : Core) : Prop :=
  ∀ e, e ∈ c'.l1 ↔ e ∈ c.l1 ∧ (wide = true → e.2.g = true ∨ mask.getLsbD (c.lineInfo (e.1 / 32)).creg = false)

/-- A batch let go by what it waited for, with the acquire that it makes (R90). -/
def LetGo (core slot : Nat) (b : Batch) (len : Nat) (wide : Bool) (mask : BitVec 8) (s t : State) : Prop :=
  OwnSpindle core slot (fun c c' => { c' with l1 := c.l1 }) s t (Released b len) ∧ Acquired wide mask (s.core core) (t.core core)

/-- A trap handler entered (R427): a frame taken as a call takes one, with the record's VA in v2 and v3 and the kind in v4. -/
def EntersHandler (k : Context) (lanes : Word) (fr : Frame) (f : Fibre) (kind base : Nat) (rpc va : BitVec 64) (c c' : Core)
    (sp sp' : Spindle) : Prop :=
  ∃ d : Core, FrameTaken c d sp sp' lanes fr.depth f.rows f.base base (8 * ((k.hrows + 7) / 8)) 0 (BitVec.ofNat 64 k.entry) rpc (some va) ∧
    ∀ l, l < 32 → ∀ row, c'.row row l =
      if l ∈ lanesOf lanes ∧ row = base + 2 then .good (va.setWidth 32)
      else if l ∈ lanesOf lanes ∧ row = base + 3 then .good ((va >>> 32).setWidth 32)
      else if l ∈ lanesOf lanes ∧ row = base + 4 then .good (BitVec.ofNat 32 kind)
      else d.row row l

/-! The words of memory at their homes (R74 to R85, R105 to R116). -/

/-- A word's line stands whole in its home's L2 (R128). -/
def InL2 (s : State) (w : Nat) : Prop := ∃ l, SMap.find s.l2 (w / 32) = some l ∧ l.ws.length = 32

/-- A change that touches no word of memory but one: no other word's registration, value in L2 or copy in an L1, and no byte of HBM
or of host memory. -/
def OnlyWord (w : Nat) (s t : State) : Prop :=
  (∀ v, v ≠ w → t.regAt v = s.regAt v ∧ t.l2Word v = s.l2Word v ∧ ∀ r, (t.core r).l1At v = (s.core r).l1At v) ∧
  t.hbm = s.hbm ∧ t.host = s.host

/-- A request of a core for a word meets a home that answers at once: the line is in L2 for its context (R128) and nothing blocks
the word (R115, R131); the core's L1 has room for the line (R14); a request that writes finds a block that accepts write-backs (R130) and
room in the directory (R107). -/
structure HomeAnswers (s : State) (core cx w : Nat) (sl writes : Bool) : Prop where
  isCore : isCore core = true
  line : s.ensureLine (some cx) (4 * w) (s.ctx cx).ks sl = (s, true)
  inL2 : InL2 s w
  free : s.hostBlocks w writes = false ∧ s.waitsOwn w = false
  l1 : w / 32 ∈ (s.core core).l1Lines ∨ (s.core core).l1Lines.length < 1024
  accepts : writes = true → s.exhausted w = (s, false) ∧ s.makeRoom (w / 32) core [w] = (s, true)
  unsampled : (s.core core).smpCtl.getLsbD 23 = false

/-- The result of an operation sent on its way to its fibre (R174): one word for the register at its destination. -/
def resultOf (o : MemOp) (dst : Dest) (v : LWord) : Result :=
  { fid := o.fid, slot := o.slot, lane := o.lane, words := if dst.d = 0 then [] else [(dst.base + dst.d, v)], v1row := dst.base + 1,
    pd := none, flags := 0, smp := none }

/-- The same operations, or stores, but for the marks of those that sampling counts with another (R312). -/
def SameOps (a b : List MemOp) : Prop :=
  (a.map fun (o : MemOp) => { o with counted := false }) = b.map fun (o : MemOp) => { o with counted := false }
def SameStores (a b : List StoreEnt) : Prop :=
  (a.map fun (e : StoreEnt) => { e with counted := false }) = b.map fun (e : StoreEnt) => { e with counted := false }

/-- The new value of an atomic on a 32-bit integer word (R300). -/
def atomicResult (op : Nat) (sg : Bool) (old v cmp : Word) : Word :=
  let less (a b : Word) : Bool := if sg then decide (a.toInt < b.toInt) else decide (a.toNat < b.toNat)
  if op = 0 then old + v else if op = 1 then (if less v old then v else old) else if op = 2 then (if less old v then v else old)
  else if op = 3 then old &&& v else if op = 4 then old ||| v else if op = 5 then old ^^^ v else if op = 6 then v
  else if op = 7 then (if old = cmp then v else old) else if op = 8 then (if v.toNat ≤ old.toNat then 0 else old + 1)
  else if old = 0 ∨ v.toNat < old.toNat then v else old - 1

/-! What words post and the system words (R336 to R352). -/

/-- An entry of an issue queue that a word makes in a lane (R74). -/
def queued (c : Core) (x : Iss) (l : Nat) (k : OpKind) : MemOp :=
  { seen := false, counted := false, grp := c.issued.toNat, tick := x.tick, fid := fidOf c x l, slot := x.slot, lane := l, wg := x.wg, ctx := x.cx, kind := k }

/-- A word result on its way to register d of a lane (R174). -/
def answer (c : Core) (x : Iss) (d : BitVec 8) (l : Nat) (v : LWord) : Result :=
  { fid := fidOf c x l, slot := x.slot, lane := l, words := if d = 0 then [] else [(x.base + d.toNat, v)], v1row := x.base + 1,
    pd := none, flags := 0, smp := none }

/-- A special register in a lane on a core (R346), from the lane's fibre, its frame and its workgroup, the data of its link row (R50) and
the record of its handler frame. -/
def specialRegister (s : State) (x : Iss) (f : Fibre) (fr : Frame) (w : Workgroup) (link : Nat) (fault : DWord) (sr l : Nat) : DWord :=
  let k := s.ctx x.cx
  if sr = 0 then s.tick else if sr = 1 then f.wid else if sr = 2 then BitVec.ofNat 64 l else if sr = 3 then BitVec.ofNat 64 x.seg
  else if sr = 4 then BitVec.ofNat 64 x.core else if sr = 5 then BitVec.ofNat 64 (x.core / 12)
  else if sr = 6 then BitVec.ofNat 64 (x.core / 192) else if sr = 7 then k.rank.setWidth 64
  else if sr = 8 then BitVec.ofNat 64 (x.cx % 16) else if sr = 9 then BitVec.ofNat 64 (x.cx / 16) else if sr = 10 then w.ctag
  else if sr = 11 then w.nmcnt.setWidth 64 else if sr = 12 then (s.core x.core).cpybase else if sr = 13 then BitVec.ofNat 64 fr.depth
  else if sr = 14 then BitVec.ofNat 64 (if l = 0 then link % 2 ^ 32 else if l = 1 then link / 2 ^ 32 % 2 ^ 32
    else if l = 2 then link / 2 ^ 64 % 2 ^ 11 else if l = 3 then link / 2 ^ 75 % 2 ^ 9 else if l = 4 then link / 2 ^ 84 % 2 ^ 8 else 0)
  else if sr = 15 then fault
  else if sr = 16 then (if k.slenReg = 0 then BitVec.allOnes 64 else (s.part (x.cx / 16)).until_)
  else (k.ev >>> (32 * (sr - 24))).setWidth 64 &&& 0xFFFFFFFF

/-! How a step runs a word (R46, R53, R75). -/

/-- A package whose quarter q of runner r has picked a batch: the quarter's pointer and the counts move on, a debugger's step of the
spindle is done, and the batch is the current one. -/
def Machine.State.picked (s : State) (r q slot : Nat) (b : Batch) : State :=
  let stepped (c : Core) : Nat := if c.dbgSt = 2 ∧ c.dbgSlot = slot then 1 else c.dbgSt
  let u := s.onCore r fun c => { c with qptr := setAt c.qptr q (slot % 16), issued := c.issued + 1, dbgSt := stepped (s.core r) }.onSpindle slot
    fun (sp : Spindle) => sp.noteIssue b false
  { (if isCore r then u.count (cntCore r 0) 1 else u) with cur := ⟨r, slot, b.lanes, []⟩ }

/-- The package in which a decoded word acts: its words are the current ones, and its switch marker is the spindle's last. -/
def Machine.State.runs (s : State) (i : Instr) (r slot : Nat) (b : Batch) (ws : List Nat) : State :=
  { s.onCore r (fun c => c.onSpindle slot fun sp => { sp with lastS := (hdrOf i).s }) with cur := ⟨r, slot, b.lanes, ws⟩ }

/-- What a meaning answers, with the move ended; where the meaning met a request that must wait, the move is not made (R109). -/
def ended (s : State) (o : Host.Outcome State Fault Refusal) : Host.Outcome State Fault Refusal :=
  match o with
  | .next t => .next (s.commit t).endMove
  | .fault f => .fault f
  | .refused r => .refused r

end Sys2Proof
end

