-- ==== Sys2Proof/Certificates/Slice0/Obligations.lean ====
section
/-!
DEFINITION. The statements about the package, each named for what it states, with the rules of spec/ that it says.
-/

open Sys2Proof Sys2Proof.Machine

/-- R216, R217 (with R212, R215): sums and differences in a type, saturating where asked, with the carry or borrow bit of v1, which
ignores signedness; d is written before the bit. -/
def Obligations.IntegerSums : Prop := ∀ (h : Hdr) (o : Opnds) (m : IMods),
  let n := tyBits m.ty
  let cp := xf m.x 4 0
  let bit (w : Word) : Nat := (w.getLsbD cp).toNat
  let low (w : Word) : Nat := (w.setWidth n).toNat
  RunsAlu (.add h o m) (fun c x l => writesCarry o cp (ofAB o (fun a b =>
    (writeAs m.ty m.sat (readAs m.ty a + readAs m.ty b), decide (low a + low b ≥ 2 ^ n))) c x l)) ∧
  RunsAlu (.addAddc h o m) (fun c x l => writesCarry o cp ((v1Val c x l).bind fun v1 => ofAB o (fun a b =>
    (writeAs m.ty m.sat (readAs m.ty a + readAs m.ty b + bit v1), decide (low a + low b + bit v1 ≥ 2 ^ n))) c x l)) ∧
  RunsAlu (.addAdd3 h o m) (fun c x l => writesD o (ofABC o (fun a b w =>
    writeAs m.ty m.sat (readAs m.ty a + readAs m.ty b + readAs m.ty w)) c x l)) ∧
  RunsAlu (.sub h o m) (fun c x l => writesCarry o cp (ofAB o (fun a b =>
    (writeAs m.ty m.sat (readAs m.ty a - readAs m.ty b), decide (low a < low b))) c x l)) ∧
  RunsAlu (.subSubb h o m) (fun c x l => writesCarry o cp ((v1Val c x l).bind fun v1 => ofAB o (fun a b =>
    (writeAs m.ty m.sat (readAs m.ty a - readAs m.ty b - bit v1), decide (low a < low b + bit v1))) c x l)) ∧
  RunsAlu (.subRsub h o m) (fun c x l => writesD o (ofAB o (fun a b =>
    writeAs m.ty m.sat (readAs m.ty b - readAs m.ty a)) c x l))

/-- R218: products, their high words, and products with an addend; `mad.wide` adds the pair c and writes a pair. -/
def Obligations.IntegerProducts : Prop := ∀ (h : Hdr) (o : Opnds) (m : IMods),
  let high (v : Int) : Word := BitVec.ofInt 32 ((v % 2 ^ 64) / 2 ^ 32)
  RunsAlu (.mulLo h o m) (fun c x l => writesD o (ofAB o (fun a b => writeAs m.ty m.sat (readAs m.ty a * readAs m.ty b)) c x l)) ∧
  RunsAlu (.mulHi h o m) (fun c x l => writesD o (ofAB o (fun a b => high (readAs m.ty a * readAs m.ty b)) c x l)) ∧
  RunsAlu (.madLo h o m) (fun c x l => writesD o (ofABC o (fun a b w =>
    writeAs m.ty m.sat (readAs m.ty a * readAs m.ty b + readAs m.ty w)) c x l)) ∧
  RunsAlu (.madHi h o m) (fun c x l => writesD o (ofABC o (fun a b w => high (readAs m.ty a * readAs m.ty b + readAs m.ty w)) c x l)) ∧
  RunsAlu (.madWide h o m) (fun c x l => writesPair o ((ofAB o (fun a b => readAs m.ty a * readAs m.ty b) c x l).bind fun p =>
    (srcVal64 c x o.c l).map fun w => writeAs64 m.ty false (p + readAs64 m.ty w)))

/-- R219, R220, R221: minimum, maximum and clamp in a type; sums of absolute differences by word or by byte; dot products of
bytes and of halfwords, b with the opposite signedness where `mix`. -/
def Obligations.IntegerBoundsAndDots : Prop := ∀ (h : Hdr) (o : Opnds) (m : IMods),
  let t32 : Ty := if tySigned m.ty then .i32 else .n32
  let sa := tySigned m.ty
  let sb := xor sa (m.x.getLsbD 0)
  RunsAlu (.minI h o m) (fun c x l => writesD o (ofAB o (fun a b => writeAs m.ty false (min (readAs m.ty a) (readAs m.ty b))) c x l)) ∧
  RunsAlu (.maxI h o m) (fun c x l => writesD o (ofAB o (fun a b => writeAs m.ty false (max (readAs m.ty a) (readAs m.ty b))) c x l)) ∧
  RunsAlu (.clamp h o m) (fun c x l => writesD o (ofABC o (fun a b w =>
    writeAs m.ty false (min (max (readAs m.ty a) (readAs m.ty b)) (readAs m.ty w))) c x l)) ∧
  RunsAlu (.sad h o m) (fun c x l => writesD o (ofABC o (fun a b w => writeAs t32 m.sat ((if tyBits m.ty = 8 then
      distance (fieldInt sa 8 0 a) (fieldInt sa 8 0 b) + distance (fieldInt sa 8 1 a) (fieldInt sa 8 1 b) + distance (fieldInt sa 8 2 a) (fieldInt sa 8 2 b) +
        distance (fieldInt sa 8 3 a) (fieldInt sa 8 3 b)
    else distance (readAs m.ty a) (readAs m.ty b)) + readAs t32 w)) c x l)) ∧
  RunsAlu (.dp4 h o m) (fun c x l => writesD o (ofABC o (fun a b w => writeAs t32 m.sat (fieldInt sa 8 0 a * fieldInt sb 8 0 b +
    fieldInt sa 8 1 a * fieldInt sb 8 1 b + fieldInt sa 8 2 a * fieldInt sb 8 2 b + fieldInt sa 8 3 a * fieldInt sb 8 3 b + readAs t32 w)) c x l)) ∧
  RunsAlu (.dp4Dp2 h o m) (fun c x l => writesD o (ofABC o (fun a b w => writeAs t32 m.sat (fieldInt sa 16 0 a * fieldInt sb 16 0 b +
    fieldInt sa 16 1 a * fieldInt sb 16 1 b + readAs t32 w)) c x l))

/-- R222 to R224: the logic majors, bit by bit, with `lop3` taking bit a + 2b + 4c of its table; shifts by an unsigned amount, 32 or
more included, rotation, and the funnel shift of b:a. -/
def Obligations.LogicAndShifts : Prop := ∀ (h : Hdr) (o : Opnds) (m : IMods),
  let amount (n : Word) : Nat := if m.x.getLsbD 1 then min n.toNat 32 else n.toNat % 32
  RunsAlu (.andI h o m) (fun c x l => writesD o (ofAB o (fun a b => maskWhere fun j => a.getLsbD j && b.getLsbD j) c x l)) ∧
  RunsAlu (.orI h o m) (fun c x l => writesD o (ofAB o (fun a b => maskWhere fun j => a.getLsbD j || b.getLsbD j) c x l)) ∧
  RunsAlu (.xorI h o m) (fun c x l => writesD o (ofAB o (fun a b => maskWhere fun j => xor (a.getLsbD j) (b.getLsbD j)) c x l)) ∧
  RunsAlu (.andn h o m) (fun c x l => writesD o (ofAB o (fun a b => maskWhere fun j => a.getLsbD j && !b.getLsbD j) c x l)) ∧
  RunsAlu (.lop3 h o m) (fun c x l => writesD o (ofABC o (fun a b w => maskWhere fun j =>
    m.x.getLsbD ((a.getLsbD j).toNat + 2 * (b.getLsbD j).toNat + 4 * (w.getLsbD j).toNat)) c x l)) ∧
  RunsAlu (.shl h o m) (fun c x l => writesD o (ofAB o (fun a n => if n.toNat < 32 then a <<< n.toNat else 0) c x l)) ∧
  RunsAlu (.shr h o m) (fun c x l => writesD o (ofAB o (fun a n => if n.toNat < 32 then a >>> n.toNat else 0) c x l)) ∧
  RunsAlu (.sar h o m) (fun c x l => writesD o (ofAB o (fun a n =>
    if n.toNat < 32 then a.sshiftRight n.toNat else if a.getLsbD 31 then BitVec.allOnes 32 else 0) c x l)) ∧
  RunsAlu (.rot h o m) (fun c x l => writesD o (ofAB o (fun a n => rotated a n.toNat) c x l)) ∧
  RunsAlu (.shf h o m) (fun c x l => writesD o (ofABC o (fun a b n =>
    if m.x.getLsbD 0 then BitVec.ofNat 32 ((b.toNat * 2 ^ 32 + a.toNat) / 2 ^ amount n)
    else BitVec.ofNat 32 ((b.toNat * 2 ^ 32 + a.toNat) * 2 ^ amount n / 2 ^ 32)) c x l))

/-- R225 to R228: fields extracted and inserted, bits counted and reversed, the test for poison, and bytes permuted. -/
def Obligations.BitFields : Prop := ∀ (h : Hdr) (o : Opnds) (m : IMods),
  let pos (w : Word) : Nat := (w.setWidth 8).toNat
  let len (w : Word) : Nat := ((w >>> 8).setWidth 8).toNat
  let above (a : Word) (j : Nat) : Bool := if j < 32 then a.getLsbD j else decide (m.ty = .i32) && a.getLsbD 31
  RunsAlu (.bfx h o m) (fun c x l => writesD o (ofAB o (fun a b => if len b = 0 then 0 else maskWhere fun j =>
    if j < len b then above a (pos b + j) else decide (m.ty = .i32) && above a (pos b + len b - 1)) c x l)) ∧
  RunsAlu (.bfi h o m) (fun c x l => writesD o (ofABC o (fun a b w => maskWhere fun j =>
    if pos b ≤ j ∧ j < pos b + len b then a.getLsbD (j - pos b) else w.getLsbD j) c x l)) ∧
  RunsAlu (.bcntPop h o m) (fun c x l => writesD o (ofA o (fun a =>
    BitVec.ofNat 32 ((List.range 32).filter fun j => a.getLsbD j).length) c x l)) ∧
  RunsAlu (.bcntClz h o m) (fun c x l => writesD o (ofA o (fun a =>
    BitVec.ofNat 32 ((List.range 32).takeWhile fun j => !a.getLsbD (31 - j)).length) c x l)) ∧
  RunsAlu (.bcntCtz h o m) (fun c x l => writesD o (ofA o (fun a =>
    BitVec.ofNat 32 ((List.range 32).takeWhile fun j => !a.getLsbD j).length) c x l)) ∧
  RunsAlu (.bcntBrev h o m) (fun c x l => writesD o (ofA o (fun a => maskWhere fun j => a.getLsbD (31 - j)) c x l)) ∧
  RunsAlu (.bcntIsp h o m) (fun c x l => writesD o (some (if srcWord c x o.a l = .poison then 1 else 0))) ∧
  RunsAlu (.perm h o m) (fun c x l => writesD o (ofABC o permuted c x l))

/-- R229 to R232: compares write a mask and a predicate bit, `sel` selects by any bit of v1 (poison where v1 is poison, with no
trap), `mov` and `ldi` copy operand a. -/
def Obligations.ComparesAndMoves : Prop := ∀ (h : Hdr) (o : Opnds) (m : IMods),
  let n := tyBits m.ty
  let pd := xf m.x 7 3
  RunsAlu (.cmp h o m) (fun c x l => writesCmp o pd (xf m.x 9 8) ((c.reg x.base 1 l).val.getLsbD pd) (ofAB o (fun a b =>
    holdsCc (xf m.x 2 0) (readAs m.ty a) (readAs m.ty b) ((a &&& b).setWidth n).toNat) c x l) 0) ∧
  RunsAlu (.sel h o m) (fun c x l => writesD o ((v1Val c x l).bind fun v1 => ofAB o (fun a b =>
    if xor (v1.getLsbD (xf m.x 4 0)) (m.x.getLsbD 5) then a else b) c x l)) ∧
  RunsAlu (.mov h o m) (fun c x l => writesD o (ofA o (fun a => a) c x l)) ∧
  RunsAlu (.ldi h o m) (fun c x l => writesD o (ofA o (fun a => a) c x l))

/-- R234 to R237: sums, differences, negation, products, shifts and compares of pairs. -/
def Obligations.PairArithmetic : Prop := ∀ (h : Hdr) (o : Opnds) (m : IMods),
  let pd := xf m.x 7 3
  RunsAlu (.add64 h o m) (fun c x l => writesPair o (ofPairs o (fun a b => writeAs64 m.ty m.sat (readAs64 m.ty a + readAs64 m.ty b)) c x l)) ∧
  RunsAlu (.add64Sub h o m) (fun c x l => writesPair o (ofPairs o (fun a b => writeAs64 m.ty m.sat (readAs64 m.ty a - readAs64 m.ty b)) c x l)) ∧
  RunsAlu (.add64Neg h o m) (fun c x l => writesPair o (ofPair o (fun a => writeAs64 m.ty m.sat (-readAs64 m.ty a)) c x l)) ∧
  RunsAlu (.mul64 h o m) (fun c x l => writesPair o (ofPairs o (fun a b => writeAs64 m.ty m.sat (readAs64 m.ty a * readAs64 m.ty b)) c x l)) ∧
  RunsAlu (.cmp64 h o m) (fun c x l => writesCmp o pd (xf m.x 9 8) ((c.reg x.base 1 l).val.getLsbD pd) (ofPairs o (fun a b =>
    holdsCc (xf m.x 2 0) (readAs64 m.ty a) (readAs64 m.ty b) (a &&& b).toNat) c x l) 0)

/-- R236: shifts of a pair by an unsigned 32-bit amount, which the type does not touch. -/
def Obligations.PairShifts : Prop := ∀ (h : Hdr) (o : Opnds) (m : IMods),
  let by_ (f : DWord → Nat → DWord) (c : Core) (x : Iss) (l : Nat) : LaneEffect :=
    writesPair o ((srcVal64 c x o.a l).bind fun a => (srcVal c x o.b l).map fun n => f a n.toNat)
  RunsAlu (.sh64Shl h o m) (by_ fun a n => if n < 64 then BitVec.ofNat 64 (a.toNat * 2 ^ n) else 0) ∧
  RunsAlu (.sh64Shr h o m) (by_ fun a n => if n < 64 then BitVec.ofNat 64 (a.toNat / 2 ^ n) else 0) ∧
  RunsAlu (.sh64Sar h o m) (by_ fun a n => if n < 64 then BitVec.ofInt 64 (a.toInt / 2 ^ n) else
    if a.getLsbD 63 then BitVec.allOnes 64 else 0)

/-- R233: `nop` changes no state and ignores its guard, and the batch goes on after it; with S = 1 it parks at the marker (R175). -/
def Obligations.NopGoesOn : Prop := ∀ (h : Hdr) (o : Opnds) (s : State) (x : Iss), Issues s (.nop { h with guard := .always } o) x →
  ∃ t, exec (.nop h o) s = .next t ∧ OwnRunner x (fun _ c' => c') s t

/-- R239, R240, R243, R244, R248, R252 to R254: the f32 majors, each operand read with its negation field and `ftz`, the result
formed and its flags ORed into v1. -/
def Obligations.FloatArithmetic : Prop := ∀ (h : Hdr) (o : Opnds) (m : FMods),
  let a (w : Word) : FVal := fIn .f32 w.toNat m.na m.ftz
  let b (w : Word) : FVal := fIn .f32 w.toNat m.nb m.ftz
  let k (w : Word) : FVal := fIn .f32 w.toNat m.nc m.ftz
  let aBits (w : Word) : Nat := fInBits .f32 w.toNat m.na m.ftz
  let bBits (w : Word) : Nat := fInBits .f32 w.toNat m.nb m.ftz
  RunsAlu (.fadd h o m) (fun c x l => writesF o (ofAB o (fun v w => fAdd .f32 m.rnd m.sat m.ftz (a v) (b w)) c x l)) ∧
  RunsAlu (.fmul h o m) (fun c x l => writesF o (ofAB o (fun v w => fMul .f32 m.rnd m.sat m.ftz (a v) (b w)) c x l)) ∧
  RunsAlu (.ffma h o m) (fun c x l => writesF o (ofABC o (fun v w u => fFma .f32 m.rnd m.sat m.ftz (a v) (b w) (k u)) c x l)) ∧
  RunsAlu (.fminMin h o m) (fun c x l => writesF o (ofAB o (fun v w => fMinMax .f32 false false (aBits v) (bBits w)) c x l)) ∧
  RunsAlu (.fminMax h o m) (fun c x l => writesF o (ofAB o (fun v w => fMinMax .f32 true false (aBits v) (bBits w)) c x l)) ∧
  RunsAlu (.fminMinnum h o m) (fun c x l => writesF o (ofAB o (fun v w => fMinMax .f32 false true (aBits v) (bBits w)) c x l)) ∧
  RunsAlu (.fminMaxnum h o m) (fun c x l => writesF o (ofAB o (fun v w => fMinMax .f32 true true (aBits v) (bBits w)) c x l)) ∧
  RunsAlu (.frnd h o m) (fun c x l => writesF o (ofA o (fun v => fRoundInt .f32 m.rnd (aBits v)) c x l)) ∧
  RunsAlu (.fclass h o m) (fun c x l => writesF o (ofA o (fun v => (match a v with
    | .nan s => if s then 1 else 2
    | .inf n => if n then 4 else 0x200
    | .fin n f _ => if f = 0 then (if n then 0x20 else 0x40) else if Fmt.f32.isSubnormal (aBits v) then (if n then 0x10 else 0x80)
      else if n then 8 else 0x100, 0)) c x l)) ∧
  RunsAlu (.fscale h o m) (fun c x l => writesF o (ofAB o (fun v w => scaleValue m (aBits v) w.toInt) c x l)) ∧
  RunsAlu (.fxtr h o m) (fun c x l => writesF o (ofA o (fun v => match a v with
    | .nan _ => (0x80000000, Flags.nv)
    | .inf _ => (0x7FFFFFFF, Flags.nv)
    | .fin _ f e => if f = 0 then (0x80000000, Flags.nv) else (((e + f.log2) % 2 ^ 32).toNat, 0)) c x l))

/-- R247, R249 to R251: float compares read their operands without flushing or negation, are unordered on a NaN, and raise NV on a
signalling NaN or, with `sig`, on any unordered pair; conversions go from a lane-word or a pair to a lane-word or a pair as the types'
widths say. -/
def Obligations.FloatComparesAndConversions : Prop :=
  (∀ (h : Hdr) (o : Opnds) (m : IMods),
  let pd := xf m.x 7 3
  let holds (f : Fmt) (a b : Nat) : Bool :=
    let u := (f.decode a).isNan || (f.decode b).isNan
    let lt := !u && (fCompare (f.decode a) (f.decode b)).1
    let eq := !u && (fCompare (f.decode a) (f.decode b)).2
    let cc := xf m.x 2 0
    if cc = 0 then eq else if cc = 1 then !eq else if cc = 2 then lt else if cc = 3 then lt || eq
    else if cc = 4 then !u && !lt && !eq else if cc = 5 then !u && !lt else if cc = 6 then u else !u
  let flags (f : Fmt) (a b : Nat) : Flags :=
    if (f.decode a).isSnan || (f.decode b).isSnan || (m.x.getLsbD 10 && ((f.decode a).isNan || (f.decode b).isNan)) then Flags.nv else 0
  let old (c : Core) (x : Iss) (l : Nat) : Bool := (c.reg x.base 1 l).val.getLsbD pd
  RunsAlu (.fcmp h o m) (fun c x l => writesCmp o pd (xf m.x 9 8) (old c x l) (ofAB o (fun a b => holds .f32 a.toNat b.toNat) c x l)
    ((ofAB o (fun a b => flags .f32 a.toNat b.toNat) c x l).getD 0)) ∧
  RunsAlu (.dcmp h o m) (fun c x l => writesCmp o pd (xf m.x 9 8) (old c x l) (ofPairs o (fun a b => holds .f64 a.toNat b.toNat) c x l)
    ((ofPairs o (fun a b => flags .f64 a.toNat b.toNat) c x l).getD 0))) ∧
  ∀ (h : Hdr) (o : Opnds) (m : TMods),
  let out (v : Option (Nat × Flags)) : LaneEffect := if m.dtype.is64 then writesF64 o v else writesF o v
  let src (c : Core) (x : Iss) (l : Nat) : Option Nat :=
    if m.stype.is64 then (srcVal64 c x o.a l).map BitVec.toNat else (srcVal c x o.a l).map BitVec.toNat
  RunsAlu (.fcvt h o m) (fun c x l => out ((src c x l).map (cvtValue m))) ∧
  RunsAlu (.dcvt h o m) (fun c x l => out ((src c x l).map (cvtValue m)))

/-- R255, R256 (with R239, R240, R243 to R245, R248): the packed majors, each half on its own in f16 or bf16, the flags of both
halves ORed; the FP64 majors on pairs, which have no `ftz`. -/
def Obligations.PackedAndDoubleFloats : Prop := ∀ (h : Hdr) (o : Opnds) (m : FMods),
  let f : Fmt := if m.ty = .bf16 then .bf16 else .f16
  let bits (n : BitVec 2) (w : Word) (hi : Bool) : Nat := fInBits f (if hi then w.toNat / 2 ^ 16 else w.toNat % 2 ^ 16) n m.ftz
  let rd (n : BitVec 2) (w : DWord) : FVal := fIn .f64 w.toNat n false
  let dbits (n : BitVec 2) (w : DWord) : Nat := fInBits .f64 w.toNat n false
  RunsAlu (.hadd2 h o m) (fun c x l => writesF o (ofAB o (fun v w => bothHalves fun hi =>
    fAdd f m.rnd m.sat m.ftz (halfOf f m m.na v hi) (halfOf f m m.nb w hi)) c x l)) ∧
  RunsAlu (.hmul2 h o m) (fun c x l => writesF o (ofAB o (fun v w => bothHalves fun hi =>
    fMul f m.rnd m.sat m.ftz (halfOf f m m.na v hi) (halfOf f m m.nb w hi)) c x l)) ∧
  RunsAlu (.hfma2 h o m) (fun c x l => writesF o (ofABC o (fun v w u => bothHalves fun hi =>
    fFma f m.rnd m.sat m.ftz (halfOf f m m.na v hi) (halfOf f m m.nb w hi) (halfOf f m m.nc u hi)) c x l)) ∧
  RunsAlu (.hmin2 h o m) (fun c x l => writesF o (ofAB o (fun v w => bothHalves fun hi =>
    fMinMax f false true (bits m.na v hi) (bits m.nb w hi)) c x l)) ∧
  RunsAlu (.dadd h o m) (fun c x l => writesF64 o (ofPairs o (fun v w => fAdd .f64 m.rnd m.sat false (rd m.na v) (rd m.nb w)) c x l)) ∧
  RunsAlu (.dmul h o m) (fun c x l => writesF64 o (ofPairs o (fun v w => fMul .f64 m.rnd m.sat false (rd m.na v) (rd m.nb w)) c x l)) ∧
  RunsAlu (.dfma h o m) (fun c x l => writesF64 o ((ofPairs o (fun v w => (v, w)) c x l).bind fun p => (srcVal64 c x o.c l).map fun u =>
    fFma .f64 m.rnd m.sat false (rd m.na p.1) (rd m.nb p.2) (rd m.nc u))) ∧
  RunsAlu (.dmin h o m) (fun c x l => writesF64 o (ofPairs o (fun v w => fMinMax .f64 false true (dbits m.na v) (dbits m.nb w)) c x l)) ∧
  RunsAlu (.drnd h o m) (fun c x l => writesF64 o (ofPair o (fun v => fRoundInt .f64 m.rnd (dbits m.na v)) c x l))

/-- R257 to R259: each `sfu` minor sends a variable-latency result on its way, with its flags: for every A it is the exact case of R258
with the flags shown; `sqrt` is the correctly rounded root; every other result raises NX, with OF or UF as its rounding does, and keeps
the bound of R257 (which value within it: log entry 9). -/
def Obligations.SpecialFunctions : Prop := ∀ (h : Hdr) (o : Opnds) (m : FMods),
  let e (k : Nat) (c : Core) (x : Iss) (l : Nat) : LaneEffect :=
    writesF o (ofA o (fun v => sfuValue k m.rnd m.ftz (fInBits .f32 v.toNat m.na m.ftz)) c x l)
  let sign (n : Bool) : Nat := if n then 2 ^ 31 else 0
  let power (k : Int) : Nat := (127 + k).toNat * 2 ^ 23
  let inf : Nat := 0x7F800000
  let invalid : Nat × Flags := (0x7FC00000, Flags.nv)
  RunsVar (.sfuRcp h o m) (e 0) ∧ RunsVar (.sfuRsq h o m) (e 1) ∧ RunsVar (.sfuSqrt h o m) (e 2) ∧ RunsVar (.sfuEx2 h o m) (e 3) ∧
  RunsVar (.sfuLg2 h o m) (e 4) ∧ RunsVar (.sfuSinpi h o m) (e 5) ∧ RunsVar (.sfuCospi h o m) (e 6) ∧ RunsVar (.sfuTanh h o m) (e 7) ∧
  ∀ x : Nat,
  let f (k : Nat) : Nat × Flags := sfuValue k m.rnd m.ftz x
  (∀ s, Fmt.f32.decode x = .nan s → ∀ k, k < 8 → f k = (0x7FC00000, if s then Flags.nv else 0)) ∧
  (∀ n, Fmt.f32.decode x = .inf n →
    f 0 = (sign n, 0) ∧ f 1 = (if n then invalid else (0, 0)) ∧ f 2 = (if n then invalid else (inf, 0)) ∧
    f 3 = (if n then 0 else inf, 0) ∧ f 4 = (if n then invalid else (inf, 0)) ∧ f 5 = invalid ∧ f 6 = invalid ∧
    f 7 = (sign n + power 0, 0)) ∧
  (∀ n q, Fmt.f32.decode x = .fin n 0 q →
    f 0 = (sign n + inf, Flags.dz) ∧ f 1 = (sign n + inf, Flags.dz) ∧ f 2 = (sign n, 0) ∧ f 3 = (power 0, 0) ∧
    f 4 = (sign true + inf, Flags.dz) ∧ f 5 = (sign n, 0) ∧ f 6 = (power 0, 0) ∧ f 7 = (sign n, 0)) ∧
  ∀ n a q, a ≠ 0 → Fmt.f32.decode x = .fin n a q →
    (n = true → f 1 = invalid ∧ f 2 = invalid ∧ f 4 = invalid) ∧
    (∀ j : Nat, a = 2 ^ j → -127 ≤ j + q → j + q ≤ 126 → f 0 = (sign n + power (-(j + q)), 0)) ∧
    (∀ (j : Nat) (i : Int), n = false → a = 2 ^ j → j + q = 2 * i → f 1 = (power (-i), 0)) ∧
    (n = false → f 2 = Fmt.f32.round m.rnd false m.ftz (exactSqrt (exactOf false a q))) ∧
    (∀ v, WholeIs a q v → v ≤ (if n then 126 else 127) → f 3 = (power (if n then -(v : Int) else v), 0)) ∧
    (∀ j : Nat, n = false → a = 2 ^ j →
      f 4 = ((Fmt.f32.round .rn false false (exactOf (decide (j + q < 0)) (j + q).natAbs 0)).1, 0)) ∧
    (∀ v, WholeIs a q v → f 5 = (sign n, 0) ∧ f 6 = (sign (v % 2 = 1) + power 0, 0)) ∧
    (∀ j, WholeIs (2 * a) q (2 * j + 1) → f 5 = (sign (n != decide (j % 2 = 1)) + power 0, 0) ∧ f 6 = (0, 0)) ∧
    ∀ k, k = 0 ∨ k = 1 ∨ 3 ≤ k ∧ k ≤ 7 → SfuRounds k n a q →
      (f k).2 &&& Flags.nx ≠ 0 ∧ SfuBounded k m n a q (f k).1 ∧
      let fl := (Fmt.f32.round m.rnd false m.ftz { sfuReal k n a q with st := true }).2
      fl &&& (f k).2 = fl

/-- R171 to R173: both slots of a pair read their sources before either writes, each with the effect of minor 0 of its major under
the defaults of R160, and both sets of flags are ORed into v1. -/
def Obligations.PairWords : Prop := ∀ (h : Hdr) (sa sb : Slot),
  RunsAlu (.pair h sa sb) (fun c x l =>
    let a := slotWrites sa c x l
    let b := slotWrites sb c x l
    ⟨a.regs ++ b.regs, none, a.flags ||| b.flags⟩)

/-- R260 to R264: `shfl` takes its source index round the lane's own segment, and its predicate says that the index stayed in it and
that the source participates; votes and matches go over the participating set. -/
def Obligations.ShufflesAndVotes : Prop := ∀ (h : Hdr) (o : Opnds) (m : IMods),
  let pd := xf m.x 7 3
  let shuffled (j : Int → Int → Int → Int) (ok : Int → Int → Int → Bool) (c : Core) (x : Iss) (i : Nat) : LaneEffect :=
    let z : Int := (2 : Int) ^ x.seg
    let k : Int := i % z
    writesVote o pd ((srcVal c x o.b i).bind fun n =>
      let src := (i - k + j z k n.toNat).toNat
      (srcVal c x o.a src).map fun v => (v, ok z k n.toNat && decide (src ∈ participating x i)))
  let across (f : Nat → List Nat → (Nat → Word) → Word × Bool) (c : Core) (x : Iss) (i : Nat) : LaneEffect :=
    writesVote o pd (ofLanes o (participating x i) (f i (participating x i)) c x)
  let equal (p : List Nat) (a : Nat → Word) : Bool := p.all fun j => p.all fun k => a j == a k
  let same (i : Nat) (p : List Nat) (a : Nat → Word) : Word := maskWhere fun j => decide (j ∈ p) && a j == a i
  RunsVar (.shflLane h o m) (shuffled (fun z _ n => n % z) (fun z _ n => decide (n < z))) ∧
  RunsVar (.shflBack h o m) (shuffled (fun z k n => (k - n) % z) (fun _ k n => decide (n ≤ k))) ∧
  RunsVar (.shflFwd h o m) (shuffled (fun z k n => (k + n) % z) (fun z k n => decide (k + n < z))) ∧
  RunsVar (.shflFlip h o m) (shuffled (fun z k n => (k.toNat ^^^ (n % z).toNat : Nat)) (fun z _ n => decide (n < z))) ∧
  RunsVar (.voteAll h o m) (across fun _ p a => asMask (p.all fun j => a j != 0)) ∧
  RunsVar (.voteAny h o m) (across fun _ p a => asMask (p.any fun j => a j != 0)) ∧
  RunsVar (.voteBallot h o m) (across fun _ p a => (maskWhere fun j => decide (j ∈ p) && a j != 0, p.any fun j => a j != 0)) ∧
  RunsVar (.voteUni h o m) (across fun _ p a => asMask (equal p a)) ∧
  RunsVar (.matchAny h o m) (across fun i p a => (same i p a, p.any fun j => j != i && a j == a i)) ∧
  RunsVar (.matchAll h o m) (across fun i p a => (if equal p a then same i p a else 0, equal p a))

/-- R265, R266: reductions over the participating set, and scans of the lanes below, with or without the lane's own value; an empty
scan yields the identity of its operation. -/
def Obligations.ReductionsAndScans : Prop := ∀ (h : Hdr) (o : Opnds) (m : IMods),
  let sg := tySigned m.ty
  let val (w : Word) : Int := if sg then w.toInt else w.toNat
  let least (a b : Word) : Word := if val a ≤ val b then a else b
  let most (a b : Word) : Word := if val a ≤ val b then b else a
  let redux (f : Word → Word → Word) (c : Core) (x : Iss) (i : Nat) : LaneEffect :=
    writesD o (ofLanes o (participating x i) (fun a => match participating x i with
      | [] => 0
      | j :: js => js.foldl (fun acc k => f acc (a k)) (a j)) c x)
  let scan (incl : Bool) (f : Word → Word → Word) (e : Word) (c : Core) (x : Iss) (i : Nat) : LaneEffect :=
    let upTo := (participating x i).filter fun j => decide (j ≤ i)
    writesD o (ofLanes o upTo (fun a => match upTo.filter fun j => incl || j != i with
      | [] => e
      | j :: js => js.foldl (fun acc k => f acc (a k)) (a j)) c x)
  let idMin : Word := if sg then 0x7FFFFFFF else 0xFFFFFFFF
  let idMax : Word := if sg then 0x80000000 else 0
  RunsVar (.reduxAdd h o m) (redux (· + ·)) ∧ RunsVar (.reduxMin h o m) (redux least) ∧ RunsVar (.reduxMax h o m) (redux most) ∧
  RunsVar (.reduxAnd h o m) (redux (· &&& ·)) ∧ RunsVar (.reduxOr h o m) (redux (· ||| ·)) ∧ RunsVar (.reduxXor h o m) (redux (· ^^^ ·)) ∧
  RunsVar (.scanInclAdd h o m) (scan true (· + ·) 0) ∧ RunsVar (.scanInclMin h o m) (scan true least idMin) ∧
  RunsVar (.scanInclMax h o m) (scan true most idMax) ∧ RunsVar (.scanExclAdd h o m) (scan false (· + ·) 0) ∧
  RunsVar (.scanExclMin h o m) (scan false least idMin) ∧ RunsVar (.scanExclMax h o m) (scan false most idMax)

/-- R47, R267, R268: `rdl` writes the lane's number, the mask of the batch's guard-true lanes, the mask of the spindle's non-empty
lanes, or the lane's segment; `seg` sets `SEG.size` to a value from 1 to 5, read in the lowest guard-true lane; where every guard is
false it changes nothing; a poisoned value raises the poison trap, another value the illegal-instruction trap, and neither changes it. -/
def Obligations.LaneReadsAndSegments : Prop :=
  (∀ (h : Hdr) (o : Opnds),
  RunsAlu (.rdlLane h o) (fun _ _ l => writesD o (some (BitVec.ofNat 32 l))) ∧
  RunsAlu (.rdlActive h o) (fun _ x _ => writesD o (some x.gt)) ∧
  RunsAlu (.rdlFibre h o) (fun c x _ => writesD o (some (maskWhere fun j =>
    ((c.spindle x.slot).bind fun sp => sp.fibre j).isSome))) ∧
  RunsAlu (.rdlSegidx h o) (fun _ x l => writesD o (some (BitVec.ofNat 32 (l >>> x.seg))))) ∧
  ∀ (h : Hdr) (o : Opnds) (s : State) (x : Iss), Issues s (.seg h o) x →
  let v := srcVal (s.core x.core) x o.b (lowestLane x.gt)
  (x.gt = 0 → ∃ t, exec (.seg h o) s = .next t ∧ OwnRunner x (fun _ c' => c') s t) ∧
  (∀ n, x.gt ≠ 0 → v = some n → 1 ≤ n.toNat → n.toNat ≤ 5 → ∃ t, exec (.seg h o) s = .next t ∧
    OwnRunner x (fun _ c' => c') s t (fun sp => { sp with seg := n.toNat })) ∧
  (∀ n, x.gt ≠ 0 → v = some n → n.toNat = 0 ∨ 5 < n.toNat →
    exec (.seg h o) s = .next (s.trapAll x (bitMask (lowestLane x.gt)) 1 0 0)) ∧
  (x.gt ≠ 0 → v = none → exec (.seg h o) s = .next (s.trapAll x (bitMask (lowestLane x.gt)) 5 2 0))

/-- R293 to R298: a global load or store whose lanes all pass their checks enters the issue queue of each lane's fibre at its
address, with the release or acquire that its order asks for; a store takes its data from the registers at d. -/
def Obligations.GlobalLoadsAndStores : Prop := ∀ (h : Hdr) (o : Opnds) (m : MMods) (s : State) (x : Iss)
    (ea : Nat → BitVec 64) (leaf : Nat → Leaf),
  (Issues s (.ld h o m) x → (∀ l ∈ lanesOf x.gt, PassesGlobal s x o (sizeBytes m.sz) .read 0 l (ea l) (leaf l)) →
    Enqueues (.ld h o m) s x (fun l => ordered m.order m.scope m.creg false
      (.load (globalAt m (ea l) (leaf l)) (sizeBytes m.sz) (m.sz = .i8 ∨ m.sz = .i16) [] ⟨x.base, o.d.toNat⟩))) ∧
  (Issues s (.st h o m) x → (∀ l ∈ lanesOf x.gt, PassesGlobal s x o (sizeBytes m.sz) .write (sizeRegs m.sz) l (ea l) (leaf l)) →
    Enqueues (.st h o m) s x (fun l => ordered m.order m.scope m.creg true
      (.store (globalAt m (ea l) (leaf l)) (sizeBytes m.sz) (dataOf (s.core x.core) x o.d.toNat (sizeRegs m.sz) l)
        ((m.order = .rel ∨ m.order = .ar) ∧ m.scope ≠ .fib ∧ m.scope ≠ .spd ∧ m.scope ≠ .wg))))

/-- R300, R301: an atomic on global memory whose lanes all pass enters the issue queue with its operation, its operand from the
registers at d (`cas` compares with the first run and stores the second), and its destination; `red` has none. -/
def Obligations.GlobalAtomics : Prop := ∀ (h : Hdr) (o : Opnds) (m : MMods) (s : State) (x : Iss)
    (ea : Nat → BitVec 64) (leaf : Nat → Leaf),
  let k := sizeRegs m.sz
  let narrow : Bool := m.scope = .fib ∨ m.scope = .spd ∨ m.scope = .wg
  let enters (i : Instr) (op : Nat) (dst : Option Dest) : Prop := Issues s i x →
    (∀ l ∈ lanesOf x.gt, PassesGlobal s x o (sizeBytes m.sz) .atomic (if op = 7 then 2 * k else k) l (ea l) (leaf l)) →
    Enqueues i s x (fun l => ordered m.order m.scope m.creg false
      (.atomic (globalAt m (ea l) (leaf l)) op (xf m.x 1 0) (sizeBytes m.sz)
        (dataOf (s.core x.core) x (if op = 7 then o.d.toNat + k else o.d.toNat) k l)
        (if op = 7 then dataOf (s.core x.core) x o.d.toNat k l else []) narrow dst))
  let d : Option Dest := some ⟨x.base, o.d.toNat⟩
  enters (.atomAdd h o m) 0 d ∧ enters (.atomMin h o m) 1 d ∧ enters (.atomMax h o m) 2 d ∧ enters (.atomAnd h o m) 3 d ∧
  enters (.atomOr h o m) 4 d ∧ enters (.atomXor h o m) 5 d ∧ enters (.atomXchg h o m) 6 d ∧ enters (.atomCas h o m) 7 d ∧
  enters (.atomIncw h o m) 8 d ∧ enters (.atomDecw h o m) 9 d ∧ enters (.red h o m) (xf m.x 5 2) none

/-- R69, R307, R310: the scratchpad and private accesses, within the workgroup's scratchpad and the lane's private memory, whose bytes
lie where R69 puts them in the context's space. -/
def Obligations.LocalAccesses : Prop := ∀ (h : Hdr) (o : Opnds) (m : MMods) (s : State) (x : Iss) (b : Nat → BitVec 32)
    (leaf : Nat → Leaf),
  let n := sizeBytes m.sz
  let k := sizeRegs m.sz
  let sg : Bool := m.sz = .i8 ∨ m.sz = .i16
  let op := xf m.x 5 2
  let narrow : Bool := m.scope = .fib ∨ m.scope = .spd ∨ m.scope = .wg
  let rel : Bool := (m.order = .rel ∨ m.order = .ar) ∧ narrow = false
  let at_ (l : Nat) : Place := .scratch (s.scrBase x + (b l).toNat)
  let own (l : Nat) : Place := .priv (x.slot + 64 * x.cx) ((leaf l).pa (privateAt s x l (b l)).toNat)
  let data (l : Nat) : List LWord := dataOf (s.core x.core) x o.d.toNat k l
  (Issues s (.lds h o m) x → (∀ l ∈ lanesOf x.gt, PassesScratch s x o n 0 l (b l)) → Enqueues (.lds h o m) s x (fun l =>
    ordered m.order m.scope m.creg false (.load (at_ l) n sg [] ⟨x.base, o.d.toNat⟩))) ∧
  (Issues s (.sts h o m) x → (∀ l ∈ lanesOf x.gt, PassesScratch s x o n k l (b l)) → Enqueues (.sts h o m) s x (fun l =>
    ordered m.order m.scope m.creg false (.store (at_ l) n (data l) rel))) ∧
  (Issues s (.atoms h o m) x → (∀ l ∈ lanesOf x.gt, PassesScratch s x o n (if op = 7 then 2 * k else k) l (b l)) →
    Enqueues (.atoms h o m) s x (fun l => ordered m.order m.scope m.creg false
      (.atomic (at_ l) op (xf m.x 1 0) n (dataOf (s.core x.core) x (if op = 7 then o.d.toNat + k else o.d.toNat) k l)
        (if op = 7 then data l else []) narrow (some ⟨x.base, o.d.toNat⟩)))) ∧
  (Issues s (.ldp h o m) x → (∀ l ∈ lanesOf x.gt, PassesPrivate s x o n .read 0 l (b l) (leaf l)) → Enqueues (.ldp h o m) s x (fun l =>
    ordered m.order m.scope m.creg false (.load (own l) n sg [] ⟨x.base, o.d.toNat⟩))) ∧
  (Issues s (.stp h o m) x → (∀ l ∈ lanesOf x.gt, PassesPrivate s x o n .write k l (b l) (leaf l)) → Enqueues (.stp h o m) s x (fun l =>
    ordered m.order m.scope m.creg false (.store (own l) n (data l) rel)))

/-- R303 to R306: a fence enters its release and its acquire; `inv` and `wb` enter ranges, `inv` over the union of the lanes'
ranges; `pref` enters a prefetch where its address passes, on a page whose accesses are not made in place. -/
def Obligations.FencesAndRanges : Prop := ∀ (h : Hdr) (o : Opnds) (m : MMods) (s : State) (x : Iss)
    (ea : Nat → BitVec 64) (leaf : Nat → Leaf),
  let wide : Bool := m.scope ≠ .fib ∧ m.scope ≠ .spd ∧ m.scope ≠ .wg
  let len (l : Nat) : Nat := ((s.core x.core).reg x.base o.d.toNat l).val.toNat
  let named : Prop := ∀ l ∈ lanesOf x.gt, address64 (s.core x.core) x o l = some (ea l) ∧
    ((s.core x.core).reg x.base o.d.toNat l).isPoison = false
  (Issues s (.fence h o m) x → Enqueues (.fence h o m) s x (fun _ =>
    (if m.order = .rel ∨ m.order = .ar then [.release wide false] else []) ++
    (if m.order = .acq ∨ m.order = .ar then [.acquire wide m.creg false false] else []))) ∧
  (Issues s (.inv h o m) x → named → Enqueues (.inv h o m) s x (fun _ =>
    [.inv wide ((lanesOf x.gt).map fun l => (ea l, len l))])) ∧
  (Issues s (.wb h o m) x → named → Enqueues (.wb h o m) s x (fun l => [.wb (m.scope = .sys) [(ea l, len l)]])) ∧
  (Issues s (.pref h o m) x → (∀ l ∈ lanesOf x.gt, PassesGlobal s x o 1 .read 0 l (ea l) (leaf l)) →
    Enqueues (.pref h o m) s x (fun l => match globalAt m (ea l) (leaf l) with
      | .mem pa creg sl fv cache va => [.pref pa sl fv cache creg va]
      | _ => []))

/-- R295, R426: where some lane of a scratchpad access fails a check, no lane performs its access: the batch takes the first
failing check of the lowest failing lane (poison, then alignment, then bounds), with every failing lane named. -/
def Obligations.AccessTraps : Prop := ∀ (h : Hdr) (o : Opnds) (m : MMods) (s : State) (x : Iss) (i : Instr) (data : Nat),
  i = .lds h o m ∧ data = 0 ∨ i = .sts h o m ∧ data = sizeRegs m.sz →
  Issues s i x →
  let n := sizeBytes m.sz
  let c := s.core x.core
  let poison (l : Nat) : Prop := offset32 c x o l = none ∨ ∃ w ∈ dataOf c x o.d.toNat data l, w.isPoison = true
  let misaligned (l : Nat) : Prop := ¬ poison l ∧ ∃ b, offset32 c x o l = some b ∧ b.toNat % n ≠ 0
  let outside (l b : Nat) : Prop := ¬ poison l ∧ ¬ misaligned l ∧ ∃ v, offset32 c x o l = some v ∧ v.toNat = b ∧ s.scrLimit x < b + n
  let fails (l : Nat) : Prop := poison l ∨ misaligned l ∨ ∃ b, outside l b
  ∀ l ∈ lanesOf x.gt, fails l → (∀ j ∈ lanesOf x.gt, j < l → ¬ fails j) →
    ∃ failed : Word, (∀ j, j ∈ lanesOf failed ↔ j ∈ lanesOf x.gt ∧ fails j) ∧
      (poison l → ∃ info, exec i s = .next (s.trapAll x failed 5 info 0)) ∧
      (misaligned l → exec i s = .next (s.trapAll x failed 6 0 0)) ∧
      (∀ b, outside l b → exec i s = .next (s.trapAll x failed 7 b 0))

/-- R270 to R272, R278, R279: each guard-true lane of `br` or `jmp` goes to its own target, the other lanes go on, and the lanes form
batches anew by address. -/
def Obligations.Branches : Prop := ∀ (h : Hdr) (o : Opnds) (m : BitVec 16) (s : State) (x : Iss) (fr : Frame) (tgt : Nat → DWord),
  let lands (i : Instr) (target : Nat → Option DWord) : Prop :=
    Issues s i x → Stands s x fr → (∀ l ∈ lanesOf x.gt, target l = some (tgt l) ∧ (tgt l).toNat % 4 = 0) →
    ∃ t, exec i s = .next t ∧ OwnSpindle x.core x.slot (fun _ c' => c') s t fun sp sp' =>
      GoTo x.lanes (fun l => if l ∈ lanesOf x.gt then tgt l else x.after) sp sp' ∧ Regrouped x.lanes x.mark sp' ∧
      Bystanders x.lanes sp sp'
  lands (.br h o m) (fun l => (srcVal (s.core x.core) x o.a l).map fun v => x.pc + 4 * v.signExtend 64) ∧
  lands (.jmp h o m) (fun l => srcVal64 (s.core x.core) x o.a l)

/-- R49, R50, R273: a call whose guard-true lanes agree on their target takes the lowest run of rows that fits, fills the new frame and sends
the lanes there; without room they park at the word and CALL_RETRY makes the same call. -/
def Obligations.Calls : Prop := ∀ (h : Hdr) (o : Opnds) (m : BitVec 16) (s : State) (x : Iss) (fr : Frame) (tgt : DWord),
  let args := xf m 12 8
  let g := (xf m 7 0 + 8) / 8
  let calls (i : Instr) : Prop :=
    Issues s i x → Stands s x fr → x.gt ≠ 0 → (args = 0 ∨ args + 2 ≤ x.rows) → fr.depth ≠ 255 →
    (∀ l ∈ lanesOf x.gt, srcVal64 (s.core x.core) x o.a l = some tgt) → tgt.toNat % 4 = 0 →
    (∀ base, (s.core x.core).frameRun (quarterOf x.slot) g = some base → ∃ t, exec i s = .next t ∧
      OwnSpindle x.core x.slot (fun c c' => { c' with rows := c.rows }) s t fun sp sp' =>
        FrameTaken (s.core x.core) (t.core x.core) sp sp' x.gt fr.depth x.rows x.base base (8 * g) args tgt x.after none ∧
        GoTo x.stay (fun _ => x.after) sp sp' ∧ Regrouped x.gt x.mark sp' ∧ Regrouped x.stay x.mark sp' ∧ Bystanders x.lanes sp sp') ∧
    ((s.core x.core).frameRun (quarterOf x.slot) g = none → ∃ t, exec i s = .next t ∧
      OwnSpindle x.core x.slot (fun _ c' => c') s t fun sp sp' =>
        WaitsAs x.gt (.call (xf m 7 0 + 1) args tgt x.words) x.mark sp' ∧ (∀ l ∈ lanesOf x.gt, sp'.fibre l = sp.fibre l) ∧
        GoTo x.stay (fun _ => x.after) sp sp' ∧ Regrouped x.stay x.mark sp' ∧ Bystanders x.lanes sp sp')
  calls (.call h o m) ∧ calls (.calli h o m) ∧
  ∀ (core slot lane : Nat) (sp : Spindle) (b : Batch) (f : Fibre) (dem n base : Nat) (iw : List Nat),
    s.waitAt core slot lane = some (sp, b) → b.wait = .call dem n tgt iw → s.turnOf core slot b.lanes = true →
    sp.fibre (lowestLane b.lanes) = some f → sp.frameOf (lowestLane b.lanes) = some fr →
    (s.core core).frameRun (quarterOf slot) ((dem + 7) / 8) = some base →
    ∃ t, exec (.callRetry core slot lane) s = .next t ∧ OwnSpindle core slot (fun c c' => { c' with rows := c.rows }) s t fun sp sp' =>
      FrameTaken (s.core core) (t.core core) sp sp' b.lanes fr.depth f.rows f.base base (8 * ((dem + 7) / 8)) n tgt
        (f.pc + BitVec.ofNat 64 (4 * iw.length)) none ∧ Regrouped b.lanes b.mark sp' ∧ Bystanders b.lanes sp sp'

/-- R51, R274, R275, R281: `ret` at depth 0 ends the fibres; deeper they park, and when every member of the frame is parked at a
return in it they go back: results and v1 to the caller's rows, the frame and its loop records freed, each fibre at the return
address, or at the one its `sys.rte` read. -/
def Obligations.Returns : Prop := ∀ (h : Hdr) (o : Opnds) (m : BitVec 16) (s : State) (x : Iss) (fr : Frame),
  (Issues s (.ret h o m) x → Stands s x fr → fr.depth = 0 → ∃ t, exec (.ret h o m) s = .next t ∧
    OwnSpindle x.core x.slot (fun c c' => { c' with posts := c.posts, results := c.results, marks := c.marks }) s t fun sp sp' =>
      Ended x.gt (s.core x.core) (t.core x.core) sp sp' ∧ GoTo x.stay (fun _ => x.after) sp sp' ∧ Regrouped x.stay x.mark sp' ∧
      Bystanders x.lanes sp sp') ∧
  (Issues s (.ret h o m) x → Stands s x fr → fr.depth ≠ 0 → x.gt ≠ 0 → ((s.core x.core).linkRead x.base).isSome →
    ∃ t, exec (.ret h o m) s = .next t ∧ OwnSpindle x.core x.slot (fun _ c' => c') s t fun sp sp' =>
      WaitsAs x.gt (.ret (xf m 2 0) x.words) x.mark sp' ∧
      (∀ l ∈ lanesOf x.gt, sp'.fibre l = (sp.fibre l).map fun f => { f with rtePc := none }) ∧
      GoTo x.stay (fun _ => x.after) sp sp' ∧ Regrouped x.stay x.mark sp' ∧ Bystanders x.lanes sp sp') ∧
  ∀ (core slot lane d : Nat) (sp : Spindle) (b : Batch) (k : Nat) (iw : List Nat) (res : Nat → Nat),
    s.waitAt core slot lane = some (sp, b) → b.wait = .ret k iw → sp.frameOf lane = some fr →
    (∀ l ∈ lanesOf fr.members, ∃ a ws g, sp.batchOf l = some a ∧ a.wait = .ret (res l) ws ∧ sp.frameOf l = some g ∧ g.base = fr.base) →
    s.tileIn core [(fr.base, fr.rows)] = false → (s.core core).linkRead fr.base = some d →
    ∃ t, exec (.retRelease core slot lane) s = .next t ∧
      OwnSpindle core slot (fun c c' => { c' with rows := c.rows }) s t (fun sp sp' =>
        (∀ l ∈ lanesOf fr.members, ∀ f, sp.fibre l = some f → sp'.fibre l = some { f with
          pc := f.rtePc.getD (BitVec.ofNat 64 d), base := d / 2 ^ 64 % 2 ^ 11, rows := d / 2 ^ 75 % 2 ^ 9, rtePc := none }) ∧
        (∀ l ∈ lanesOf fr.members, ∀ g ∈ sp'.frames, g.base = fr.base → g.members.getLsbD l = false) ∧
        (∀ r, r ∈ sp'.loops ↔ r ∈ sp.loops ∧ r.base ≠ fr.base) ∧
        Regrouped fr.members (sp.batches.any fun a => a.lanes &&& fr.members != 0 && a.mark) sp' ∧ Bystanders fr.members sp sp') ∧
      let c := s.core core
      let c' := t.core core
      let tgt := d / 2 ^ 64 % 2 ^ 11
      ∀ l, l < 32 → ∀ row,
        (l ∈ lanesOf fr.members ∧ row = tgt + 1 → ReturnedV1 (c.row fr.base l) (c.row (fr.base + 1) l) (c'.row row l)) ∧
        (l ∈ lanesOf fr.members ∧ tgt + 2 ≤ row ∧ row < tgt + 2 + res l → c'.row row l = c.row (fr.base + (row - tgt)) l) ∧
        (¬ (l ∈ lanesOf fr.members ∧ tgt + 1 ≤ row ∧ row < tgt + 2 + res l) → c'.row row l = c.row row l)

/-- R276, R334: `unwind` takes each guard-true lane out of the frames deeper than its target depth, as a return from the frame one
above it does, to that frame's return address or to an address of its own; a lane that is not deeper goes on. -/
def Obligations.Unwinds : Prop := ∀ (h : Hdr) (o : Opnds) (m : BitVec 16) (s : State) (x : Iss) (fr : Frame) (tgt : Nat → Nat)
    (popped : Frame) (d : Nat) (pc : Nat → DWord),
  let direct : Prop := ∃ p, o.b = .reg 0 p
  let c := s.core x.core
  let leaves (l : Nat) : Prop := l ∈ lanesOf x.gt ∧ tgt l < fr.depth
  let link : Nat := d / 2 ^ 64 % 2 ^ 11
  Issues s (.unwind h o m) x → Stands s x fr → (∀ rows, s.tileIn x.core rows = false) →
  (∀ l ∈ lanesOf x.gt, ∃ w, srcVal c x o.a l = some w ∧ w.toNat = tgt l) →
  (∀ l ∈ lanesOf x.gt, direct ∧ pc l = BitVec.ofNat 64 d ∨ ¬ direct ∧ srcVal64 c x o.b l = some (pc l) ∧ (pc l).toNat % 4 = 0) →
  (∀ sp, c.spindle x.slot = some sp → ∀ l, leaves l → sp.atDepth l (tgt l + 1) = some popped) →
  c.linkRead popped.base = some d →
  ∃ t, exec (.unwind h o m) s = .next t ∧
    OwnSpindle x.core x.slot (fun c c' => { c' with rows := c.rows }) s t (fun sp sp' =>
      (∀ l, leaves l → ∀ f, sp.fibre l = some f →
        sp'.fibre l = some { f with pc := pc l, base := link, rows := d / 2 ^ 75 % 2 ^ 9 }) ∧
      (∀ l, leaves l → ∀ g ∈ sp'.frames, tgt l < g.depth → g.members.getLsbD l = false) ∧
      (∀ l ∈ lanesOf x.lanes, ¬ leaves l → ∀ f, sp.fibre l = some f → NoEnd sp f.pc f.base → sp'.fibre l = some { f with pc := x.after }) ∧
      Regrouped x.lanes x.mark sp' ∧ Bystanders x.lanes sp sp') ∧
    ∀ l, l < 32 → ∀ row, (leaves l ∧ row = link + 1 → ReturnedV1 (c.row popped.base l) (c.row (x.base + 1) l) ((t.core x.core).row row l)) ∧
      (¬ (leaves l ∧ row = link + 1) → (t.core x.core).row row l = c.row row l)

/-- R277 to R279, R435: `loop` makes a record of the counts of its lanes, skips the body for counts of 0 (out of a record that ends at
the word itself), and traps with no record left; a lane that completes the body's last word goes back to its start while its count lasts. -/
def Obligations.Loops : Prop := ∀ (h : Hdr) (o : Opnds) (m : BitVec 16) (s : State) (x : Iss) (fr : Frame) (n : Nat → Word),
  let stop : BitVec 64 := x.pc + BitVec.ofNat 64 (4 * m.toNat)
  (Issues s (.loop h o m) x → Stands s x fr → (∀ l ∈ lanesOf x.gt, srcVal (s.core x.core) x o.a l = some (n l)) → x.gt ≠ 0 →
    ((∀ l ∈ lanesOf x.gt, n l ≠ 0) → (∀ sp, (s.core x.core).spindle x.slot = some sp → sp.loops.length < 4 ∧ NoEnd sp x.pc x.base) →
      stop ≠ x.pc → ∃ t, exec (.loop h o m) s = .next t ∧ OwnSpindle x.core x.slot (fun _ c' => c') s t fun sp sp' =>
        sp'.loops = { stop := stop, start := x.after, base := x.base, rc := (lanesOf x.gt).map fun l => (l, n l) } :: sp.loops ∧
        GoTo x.lanes (fun _ => x.after) sp sp' ∧ Regrouped x.lanes x.mark sp' ∧ Bystanders x.lanes sp sp') ∧
    (∀ w, (∀ l ∈ lanesOf x.gt, n l = 0) → x.stay = 0 →
      (let u := s.onCore x.core fun c => c.onSpindle x.slot fun sp => sp
       u.fetchWord x.core x.cx stop.toNat = (u, .ok w)) →
      (∀ sp, (s.core x.core).spindle x.slot = some sp → NoEnd sp stop x.base) →
      ∃ t, exec (.loop h o m) s = .next t ∧ OwnSpindle x.core x.slot (fun _ c' => c') s t fun sp sp' =>
        sp'.loops = (lanesOf x.lanes).foldl (fun rs l => leaveLoops l (fun r => r.stop == x.pc && r.base == x.base) rs) sp.loops ∧
        (∀ l ∈ lanesOf x.lanes, ∀ f, sp.fibre l = some f → sp'.fibre l = some { f with pc := stop + BitVec.ofNat 64 (4 * Machine.lengthOf w) }) ∧
        Regrouped x.lanes x.mark sp' ∧ Bystanders x.lanes sp sp') ∧
    ((∃ l ∈ lanesOf x.gt, n l ≠ 0) → (∃ sp, (s.core x.core).spindle x.slot = some sp ∧ 4 ≤ sp.loops.length) →
      exec (.loop h o m) s = .next (s.trapAll x x.gt 8 0 0))) ∧
  ∀ (l : Nat) (r : LoopRec) (rs : List LoopRec) (k : Word), Issues s (.nop { h with guard := .always } o) x → Stands s x fr →
    x.lanes = bitMask l → l < 32 → (∃ sp, (s.core x.core).spindle x.slot = some sp ∧ sp.loops = r :: rs) → r.stop = x.pc → r.base = x.base →
    SMap.find r.rc l = some k → (∀ q ∈ rs, q.stop ≠ x.pc ∨ q.base ≠ x.base) →
    ∃ t sp', exec (.nop { h with guard := .always } o) s = .next t ∧ (t.core x.core).spindle x.slot = some sp' ∧
      (1 < k.toNat → (sp'.at_ l).1 = r.start ∧ sp'.loops = { r with rc := SMap.put r.rc l (k - 1) } :: rs) ∧
      (k.toNat ≤ 1 → (sp'.at_ l).1 = x.after ∧ ∀ q ∈ sp'.loops, q ∈ rs ∨ SMap.find q.rc l = none)

/-- R280: `fork` makes a fibre in each lane of its mask that is empty, at the target, with the low predicates of the lane that made
it, in its frame and with its WID, and writes the mask of the new fibres in the batch's lanes. -/
def Obligations.Forks : Prop := ∀ (h : Hdr) (o : Opnds) (m : BitVec 16) (s : State) (x : Iss) (fr : Frame) (want : Word) (tgt : DWord)
    (sp : Spindle) (f : Fibre),
  let low := lowestLane x.gt
  let c := s.core x.core
  let new : Word := want &&& ~~~sp.occupied
  Issues s (.fork h o m) x → Stands s x fr → x.gt ≠ 0 → c.spindle x.slot = some sp → sp.fibre low = some f →
  srcVal c x o.a low = some want → srcVal64 c x o.b low = some tgt → tgt.toNat % 4 = 0 →
  ∃ t, exec (.fork h o m) s = .next t ∧
    OwnSpindle x.core x.slot (fun c c' => { c' with rows := c.rows, nextFid := c.nextFid }) s t (fun sp sp' =>
      (∀ l ∈ lanesOf new, ∃ k, k < (lanesOf new).length ∧
        sp'.fibre l = some ⟨tgt, f.base, f.rows, f.wid, c.nextFid + k, none, false, none⟩) ∧
      (∀ l, l ∉ lanesOf x.lanes → l ∉ lanesOf new → sp'.fibre l = sp.fibre l) ∧
      (new ≠ 0 → WaitsAs new .none false sp') ∧
      (∀ g ∈ sp'.frames, g.members.getLsbD low = true → ∀ l ∈ lanesOf new, g.members.getLsbD l = true) ∧
      GoTo x.lanes (fun _ => x.after) sp sp' ∧ Regrouped x.lanes x.mark sp') ∧
    (t.core x.core).nextFid = c.nextFid + (lanesOf new).length ∧
    ∀ l, l < 32 → ∀ row, (t.core x.core).row row l =
      if l ∈ lanesOf x.gt ∧ x.base < row then afterWrites ⟨[(o.d.toNat, .good new)], none, 0⟩ (row - x.base) (c.row row l)
      else if l ∈ lanesOf new ∧ row = x.base + 1 then (match c.row (x.base + 1) low with
        | .good w => .good (w &&& 0x07FFFFFF)
        | w => w)
      else c.row row l

/-- R54, R55, R175, R281 to R283, R290: `end` ends its fibres and `exit` those of the whole workgroup; `join` parks until every lane of
its mask is empty or parked at the same mask; `yield` parks until another batch of the spindle has issued, or for a time where no other
is ready; a batch parked at a switch marker is ready again once nothing of its fibres is outstanding. -/
def Obligations.EndsAndJoins : Prop := ∀ (h : Hdr) (o : Opnds) (s : State) (x : Iss) (fr : Frame),
  (Issues s (.endFibre h o) x → Stands s x fr → (∀ rows, s.tileIn x.core rows = false) → ∃ t, exec (.endFibre h o) s = .next t ∧
    OwnSpindle x.core x.slot (fun c c' => { c' with posts := c.posts, results := c.results, marks := c.marks }) s t fun sp sp' =>
      Ended x.gt (s.core x.core) (t.core x.core) sp sp' ∧ GoTo x.stay (fun _ => x.after) sp sp' ∧ Regrouped x.stay x.mark sp' ∧
      Bystanders x.lanes sp sp') ∧
  (Issues s (.exit h o) x → x.gt ≠ 0 → ∃ t, exec (.exit h o) s = .next t ∧ { t with cores := s.cores } = s ∧
    (∀ r, r ≠ x.core → t.core r = s.core r) ∧ (t.core x.core).rows = (s.core x.core).rows ∧ (t.core x.core).wgs = (s.core x.core).wgs ∧
    ∀ k, ((∀ e ∈ (s.core x.core).spindles, e.1 = k → e.2.wg = x.wg) → ∀ sp, (t.core x.core).spindle k = some sp →
        ∀ l, l < 32 → sp.fibre l = none) ∧
      ((∀ e ∈ (s.core x.core).spindles, e.1 = k → e.2.wg ≠ x.wg) → (t.core x.core).spindle k = (s.core x.core).spindle k)) ∧
  (∀ m, Issues s (.join h o) x → Stands s x fr → srcVal (s.core x.core) x o.a 0 = some m → ∃ t, exec (.join h o) s = .next t ∧
    OwnSpindle x.core x.slot (fun _ c' => c') s t fun sp sp' =>
      (∀ l ∈ lanesOf x.gt, ∃ b ∈ sp'.batches, b.wait = .join (m ||| bitMask l) x.len ∧ b.mark = x.mark ∧
        ∀ j, j ∈ lanesOf b.lanes ↔ j ∈ lanesOf x.gt ∧ m ||| bitMask j = m ||| bitMask l) ∧
      (∀ l ∈ lanesOf x.gt, sp'.fibre l = sp.fibre l) ∧ GoTo x.stay (fun _ => x.after) sp sp' ∧ Regrouped x.stay x.mark sp' ∧
      Bystanders x.lanes sp sp') ∧
  (Issues s (.yieldI h o) x → x.gt ≠ 0 → ∃ t, exec (.yieldI h o) s = .next t ∧ OwnSpindle x.core x.slot (fun _ c' => c') s t
    fun sp sp' => ∃ timed, WaitsAs x.lanes (.yield sp.issues timed x.len) x.mark sp' ∧
      (timed = true ↔ ∀ a ∈ sp.batches, a.wait = .none → a.mark = false → a.lanes &&& x.lanes ≠ 0) ∧
      (∀ l, sp'.fibre l = sp.fibre l) ∧ Bystanders x.lanes sp sp') ∧
  ∀ (core slot lane : Nat) (sp : Spindle) (b : Batch), s.waitAt core slot lane = some (sp, b) →
    (∀ k len, b.wait = .join k len → (∀ l ∈ lanesOf k, ∀ a, sp.batchOf l = some a → ∃ n, a.wait = .join k n) →
      sp.batches.filter (fun a => a.lanes &&& b.lanes != 0) = [b] → ∃ t, exec (.joinRelease core slot lane) s = .next t ∧
      OwnSpindle core slot (fun _ c' => c') s t fun u sp' => u = sp ∧
        GoTo b.lanes (fun l => (sp.at_ l).1 + BitVec.ofNat 64 (4 * len)) sp sp' ∧
        ∃ all : Word, (∀ l, l ∈ lanesOf all ↔ ∃ a ∈ sp.batches, l ∈ lanesOf a.lanes ∧ ∃ n, a.wait = .join k n) ∧
          Regrouped all (sp.batches.any fun a => a.lanes &&& all != 0 && a.mark) sp' ∧ Bystanders all sp sp') ∧
    (∀ n timed len, b.wait = .yield n timed len → timed = true ∨ n < sp.issues →
      ∃ t, exec (.yieldRelease core slot lane) s = .next t ∧ OwnSpindle core slot (fun _ c' => c') s t (Released b len)) ∧
    (b.mark = true → b.wait = .none → (∀ l ∈ lanesOf b.lanes, ∀ f, sp.fibre l = some f → (s.core core).outstanding f.fid = false) →
      ∃ t, exec (.markerResume core slot lane) s = .next t ∧ OwnSpindle core slot (fun c c' => { c' with marks := c.marks }) s t fun u sp' =>
        sp' = { u with batches := u.batches.map fun a => if a.lanes = b.lanes then { a with mark := false } else a } ∧
        ∀ k, k ∈ (t.core core).marks ↔ k ∈ (s.core core).marks ∧ ∀ l ∈ lanesOf b.lanes, ∀ f, sp.fibre l = some f → f.fid ≠ k.fid)

/-- R90, R284 to R287: `bar` makes its release and parks; `mbar` words enter the issue queue, those of arrival and expectation after a
release; `mbar.wait` and `waitge` park the batch; each wait ends with its acquire once what it waits for has come. -/
def Obligations.BarriersAndWaits : Prop := ∀ (h : Hdr) (o : Opnds) (m : BitVec 16) (s : State) (x : Iss) (fr : Frame),
  let c := s.core x.core
  let entry (l : Nat) (k : OpKind) : MemOp :=
    { seen := false, counted := false, grp := c.issued.toNat, tick := x.tick, fid := fidOf c x l, slot := x.slot, lane := l, wg := x.wg,
      ctx := x.cx, kind := k }
  (∀ scope, Issues s (.bar h o m) x → Stands s x fr → x.gt ≠ 0 → Sys2Proof.Scope.ofCode (xf m 6 4) = some scope →
    (m.getLsbD 7 = true → ∀ l ∈ lanesOf x.gt, (srcVal c x o.a l).isSome) → ∃ t, exec (.bar h o m) s = .next t ∧
      OwnSpindle x.core x.slot (fun c c' => { c' with iq := c.iq }) s t (fun sp sp' =>
        WaitsAs x.gt (.bar (xf m 3 0) scope (if m.getLsbD 7 then (srcVal c x o.a (lowestLane x.gt)).map BitVec.toNat else none)
          false false x.len) x.mark sp' ∧ (∀ l ∈ lanesOf x.gt, sp'.fibre l = sp.fibre l) ∧
        GoTo x.stay (fun _ => x.after) sp sp' ∧ Regrouped x.stay x.mark sp' ∧ Bystanders x.lanes sp sp') ∧
      (t.core x.core).iq = c.iq ++ (lanesOf x.gt).map fun l => entry l (.release (Scope.wide scope) false)) ∧
  (∀ (scope : Scope) (b : Nat → BitVec 32) (k : Nat → Word), Sys2Proof.Scope.ofCode (xf m 2 0) = some scope →
    (∀ l ∈ lanesOf x.gt, offset32 c x o l = some (b l) ∧ (b l).toNat % 16 = 0 ∧ (b l).toNat + 16 ≤ s.scrLimit x) →
    let obj (l : Nat) : Nat := s.scrBase x + (b l).toNat
    let wide := Scope.wide scope
    let dst : Dest := ⟨x.base, o.d.toNat⟩
    let good : Prop := ∀ l ∈ lanesOf x.gt, (c.mbarAt (obj l)).isSome
    let counts : Prop := ∀ l ∈ lanesOf x.gt, srcVal c x o.c l = some (k l)
    (Issues s (.mbarInit h o m) x → counts → Enqueues (.mbarInit h o m) s x fun l => [.mbar 0 (obj l) (k l) none (some wide) x.pc x.words]) ∧
    (Issues s (.mbarArrive h o m) x → good → Enqueues (.mbarArrive h o m) s x fun l =>
      [.release wide true, .mbar 1 (obj l) 0 (some dst) (some wide) x.pc x.words]) ∧
    (Issues s (.mbarExpect h o m) x → counts → good → Enqueues (.mbarExpect h o m) s x fun l =>
      [.release wide true, .mbar 2 (obj l) (k l) none (some wide) x.pc x.words]) ∧
    (Issues s (.mbarTest h o m) x → counts → good → Enqueues (.mbarTest h o m) s x fun l =>
      [.mbar 4 (obj l) (k l) (some dst) (some wide) x.pc x.words]) ∧
    (Issues s (.mbarWait h o m) x → x.gt ≠ 0 → counts → good → ∃ t, exec (.mbarWait h o m) s = .next t ∧
      OwnSpindle x.core x.slot (fun _ c' => c') s t fun sp sp' =>
        WaitsAs x.lanes (.mbarWait ((lanesOf x.gt).map fun l => (l, obj l, k l)) scope x.words) x.mark sp' ∧
        (∀ l, sp'.fibre l = sp.fibre l) ∧ Bystanders x.lanes sp sp')) ∧
  (∀ (scope : Scope) (ea : Nat → BitVec 64) (leaf : Nat → Leaf) (n : Nat → DWord), Issues s (.waitge h o m) x → x.gt ≠ 0 →
    Sys2Proof.Scope.ofCode (xf m 2 0) = some scope → (∀ l ∈ lanesOf x.gt, PassesGlobal s x o 8 .read 0 l (ea l) (leaf l) ∧
      srcVal64 c x o.c l = some (n l)) → ∃ t, exec (.waitge h o m) s = .next t ∧ OwnSpindle x.core x.slot (fun _ c' => c') s t fun sp sp' =>
        WaitsAs x.lanes (.waitge ((lanesOf x.gt).map fun l =>
          let pa := (leaf l).pa (ea l).toNat
          let here : Bool := isWindow pa || (isHost pa && !(leaf l).hc)
          ⟨l, pa, !here && (leaf l).sl, !here && (leaf l).fv, here, n l⟩) scope (BitVec.ofNat 8 (xf m 10 3)) x.words) x.mark sp' ∧
        (∀ l, sp'.fibre l = sp.fibre l) ∧ Bystanders x.lanes sp sp') ∧
  (∀ (core g bid slot : Nat) (w : Workgroup) (sp : Spindle) (b : Batch) (scope : Scope) (cnt : Option Nat) (done : Bool) (len : Nat),
    let c := s.core core
    let bar := SMap.get ⟨false, none, 0⟩ w.bars bid
    c.wg g = some w → w.halted = false → c.spindlesOf g = [(slot, sp)] → SMap.sortedFrom none c.spindles = true →
    bar.opened = true → bar.count.getD (c.liveFibres g) ≤ bar.arr →
    b.wait = .bar bid scope cnt true done len → sp.batches.filter (fun a => a.lanes &&& b.lanes != 0) = [b] →
    (∀ a ∈ sp.batches, a ≠ b → ∀ sc n ar dn ln, a.wait ≠ .bar bid sc n ar dn ln) → c.spilled = [] →
    ∃ t, exec (.barRelease core g bid) s = .next t ∧
      OwnSpindle core slot (fun c c' => { c' with l1 := c.l1, wgs := c.wgs }) s t (Released b len) ∧
      Acquired (Scope.wide scope) 0xFF c (t.core core) ∧ (t.core core).wg g = some { w with bars := SMap.erase w.bars bid }) ∧
  ∀ (core slot lane : Nat) (sp : Spindle) (b : Batch), s.waitAt core slot lane = some (sp, b) →
    let c := s.core core
    let cx := ((c.wg sp.wg).getD default).rcd.ctx
    (∀ ws scope iw, b.wait = .mbarWait ws scope iw → (∀ w ∈ ws, w.1 ∈ lanesOf b.lanes) →
      (∀ e ∈ c.iq, ∀ w ∈ ws, (sp.fibre w.1).map (·.fid) ≠ some e.fid) → (∀ w ∈ ws, (c.mbarAt w.2.1).isSome) →
      ((∀ w ∈ ws, ∀ k, c.mbarAt w.2.1 = some k → k.ph ≠ w.2.2) → ∃ t, exec (.mbarWaitRelease core slot lane) s = .next t ∧
        LetGo core slot b iw.length (Scope.wide scope) 0xFF s t) ∧
      ((∃ w ∈ ws, ∃ k, c.mbarAt w.2.1 = some k ∧ k.ph = w.2.2) → exec (.mbarWaitRelease core slot lane) s = .next s)) ∧
    (∀ ws scope creg iw, b.wait = .waitge ws scope creg iw →
      (∀ w ∈ ws, ∃ lo hi : Word, s.readCounter core cx w.pa w.sl w.fv w.inPl = (s, [.good lo, .good hi]) ∧
        w.target.toNat ≤ hi.toNat * 2 ^ 32 + lo.toNat) → ∃ t, exec (.waitgeReread core slot lane) s = .next t ∧
      LetGo core slot b iw.length (Scope.wide scope) creg s t)

/-- R289, R348, R424 to R429: `trap` (and `sys.svc`, with a kind of its own) raises its code in its guard-true lanes. With a handler, a ring that takes the record and room for the
frame, they enter the handler with the record's address and the kind; without a handler the workgroup is terminated once the ring takes
its record, and till then the batch stays blocked. `trap.bkpt`
is the same trap of its own kind, but stops its slot for an attached debugger. A trap that waited for its frame enters the handler by TRAP_DELIVERY. -/
def Obligations.Traps : Prop := ∀ (h : Hdr) (o : Opnds) (m : BitVec 16) (s : State) (x : Iss) (fr : Frame) (f : Fibre) (w : Workgroup),
  let k := s.ctx x.cx
  let why (kind : Nat) : TrapInfo :=
    { kind := kind, info := BitVec.ofNat 64 m.toNat, addr := 0, lanes := x.gt, batch := x.batch, pc := x.pc, rpc := x.after,
      iw := x.words.map (BitVec.ofNat 32), recVa := none }
  let rec_ (act kind : Nat) : RecReq :=
    { ctx := x.cx, act := act, kind := kind, info := BitVec.ofNat 64 m.toNat, addr := 0, pc := x.pc, rpc := x.after, lanes := x.gt,
      batch := x.batch, wid := f.wid, lseq := w.rcd.lseq, depth := fr.depth, slot := x.slot, core := x.core,
      iw := x.words.map (BitVec.ofNat 32) }
  let u (kind : Nat) : State := (s.onCore x.core fun c => c.onSpindle x.slot fun sp => sp.leaveEnd x x.gt).holdTrap x.core x.slot x.gt (why kind)
  let stands : Prop := Stands s x fr ∧ x.gt ≠ 0 ∧ s.recq = [] ∧ isCore x.core = true ∧ (s.core x.core).wg x.wg = some w ∧
    ∃ sp, (s.core x.core).spindle x.slot = some sp ∧ sp.fibre (lowestLane x.gt) = some f
  let handled (i : Instr) (kind : Nat) : Prop := ∀ v va base, Issues s i x → stands → fr.depth ≠ 255 → k.entry ≠ 0 → k.ringBase ≠ 0 →
    (u kind).writeRecord (rec_ 0 kind) = (v, .written va) → v.ctx x.cx = k →
    (v.core x.core).spindle x.slot = ((u kind).core x.core).spindle x.slot →
    (v.core x.core).frameRun (quarterOf x.slot) ((k.hrows + 7) / 8) = some base →
    ∃ t, exec i s = .next t ∧ OwnSpindle x.core x.slot (fun c c' => { c' with rows := c.rows }) v t fun sp sp' =>
      EntersHandler k x.gt fr f kind base x.after (BitVec.ofNat 64 va) (v.core x.core) (t.core x.core) sp sp' ∧
      Regrouped x.gt false sp' ∧ GoTo x.stay (fun _ => x.after) sp sp' ∧ Regrouped x.stay x.mark sp'
  let ends (i : Instr) (kind : Nat) : Prop := ∀ v res, Issues s i x → stands → k.entry = 0 →
    (u kind).writeRecord (rec_ 1 kind) = (v, res) → (v.core x.core).wg x.wg = some w →
    (v.core x.core).spindle x.slot = ((u kind).core x.core).spindle x.slot →
    (res ≠ .full → ∃ t, exec i s = .next t ∧ { t with cores := v.cores } = v ∧ (∀ r, r ≠ x.core → t.core r = v.core r) ∧
      (t.core x.core).wg x.wg = some { w with killed := true } ∧
      ∀ sp, (t.core x.core).spindle x.slot = some sp → ∀ l, l < 32 → sp.fibre l = none) ∧
    (res = .full → ∃ t, exec i s = .next t ∧ OwnSpindle x.core x.slot (fun _ c' => c') v t fun sp sp' =>
      WaitsAs x.gt (.trap (why kind)) false sp' ∧ GoTo x.stay (fun _ => x.after) sp sp' ∧ Regrouped x.stay x.mark sp')
  handled (.trap h o m) 14 ∧ ends (.trap h o m) 14 ∧ handled (.sysSvc h o m) 16 ∧ ends (.sysSvc h o m) 16 ∧ ends (.trapBkpt h o m) 15 ∧
  (Config.debuggerAttached s.turn = false → handled (.trapBkpt h o m) 15) ∧
  (∀ v res, Config.debuggerAttached s.turn = true → Issues s (.trapBkpt h o m) x → stands → k.entry ≠ 0 → k.ringBase ≠ 0 →
    (u 15).writeRecord (rec_ 2 15) = (v, res) → res ≠ .full → v.cores = (u 15).cores → ∃ t, exec (.trapBkpt h o m) s = .next t ∧
      (t.core x.core).smask.getLsbD x.slot = (decide (x.slot < 64)) ∧ ∀ sp, (t.core x.core).spindle x.slot = some sp →
        ∀ l ∈ lanesOf x.gt, (sp.at_ l).1 = x.after) ∧
  ∀ (core slot lane base : Nat) (sp : Spindle) (b : Batch) (tr : TrapInfo) (va : BitVec 64),
    let cx := (((s.core core).wg sp.wg).getD default).rcd.ctx
    s.waitAt core slot lane = some (sp, b) → b.wait = .trap tr → tr.recVa = some va → s.turnOf core slot b.lanes = true →
    isCore core = true → terminates tr.kind = false → tr.kind ≠ 15 → (s.ctx cx).entry ≠ 0 → (s.ctx cx).ringBase ≠ 0 →
    sp.fibre (lowestLane b.lanes) = some f → sp.frameOf (lowestLane b.lanes) = some fr → sp.frameOf (lowestLane tr.lanes) = some fr →
    fr.depth ≠ 255 → (s.core core).frameRun (quarterOf slot) (((s.ctx cx).hrows + 7) / 8) = some base →
    ∃ t, exec (.trapDelivery core slot lane) s = .next t ∧ OwnSpindle core slot (fun c c' => { c' with rows := c.rows }) s t fun sp sp' =>
      EntersHandler (s.ctx cx) b.lanes fr f tr.kind base tr.rpc va (s.core core) (t.core core) sp sp' ∧
      Regrouped b.lanes false sp' ∧ Bystanders b.lanes sp sp'

/-- R174, R176, R80, R81, R84, R109, R298, R300: a result lands in its lane's registers and nowhere else; a load asks an unregistered
word of its home; a store drains into a word its core owns, into host memory, or registers its word; a wide atomic on an unregistered
word acts at its home. Each touches the word it names and no other. -/
def Obligations.MemoryMoves : Prop := ∀ (s : State) (core idx : Nat),
  let c := s.core core
  (∀ r : Result, c.results[idx]? = some r → r.smp = none → 0 < r.v1row → (∀ w ∈ r.words, r.v1row ≤ w.1) → r.lane < 32 →
    ∃ t, exec (.resultLand core idx) s = .next t ∧ { t with cores := s.cores } = s ∧ (∀ k, k ≠ core → t.core k = s.core k) ∧
      { t.core core with rows := c.rows, results := c.results } = c ∧
      (t.core core).results = c.results.take idx ++ c.results.drop (idx + 1) ∧
      ∀ l, l < 32 → ∀ row, (t.core core).row row l = if l = r.lane ∧ r.v1row ≤ row then
          afterWrites ⟨r.words.map fun w => (w.1 + 1 - r.v1row, w.2), r.pd, r.flags⟩ (row + 1 - r.v1row) (c.row row l)
        else c.row row l) ∧
  (∀ (o : MemOp) (pa creg cache va : Nat) (sl sext : Bool) (dst : Dest), c.iq[idx]? = some o → s.opReady core idx = true →
    o.kind = .load (.mem pa creg sl false cache va) 4 sext [] dst → pa % 4 = 0 → o.seen = false → c.alive o.fid = true →
    HomeAnswers s core o.ctx (pa / 4) sl false → s.regAt (pa / 4) = none → c.l1At (pa / 4) = none → (∀ e ∈ c.sbuf, e.fid ≠ o.fid) →
    ∃ t, exec (.fetch core idx) s = .next t ∧ OnlyWord (pa / 4) s t ∧ t.regAt (pa / 4) = none ∧ t.l2Word (pa / 4) = s.l2Word (pa / 4) ∧
      (t.core core).l1At (pa / 4) =
        (if cache = 0 ∧ (s.l2Word (pa / 4)).isPoison = false then some ⟨s.l2Word (pa / 4), false, false⟩ else none) ∧
      SameOps (t.core core).iq (c.iq.take idx ++ c.iq.drop (idx + 1)) ∧ (t.core core).rows = c.rows ∧
      (t.core core).results = c.results ++ [resultOf o dst (s.l2Word (pa / 4))]) ∧
  (∀ (e : StoreEnt) (pa creg cache va : Nat) (sl fv : Bool) (v : LWord), c.oldestStore idx = some e →
    e.pl = .mem pa creg sl fv cache va → e.data = [v] → (e.n = 4 ∨ e.n = 2 ∨ e.n = 1) → pa % e.n = 0 →
    let w := pa / 4
    let done (t : State) (old : LWord) : Prop := OnlyWord w s t ∧ t.regAt w = some (.own core false) ∧
      (t.core core).l1At w = some ⟨mergeBytes old (pa % 4) e.n v, true, !e.rel⟩ ∧ t.l2Word w = s.l2Word w ∧
      (t.core core).lineInfo (w / 32) = ⟨creg, e.ctx⟩ ∧ SameStores (t.core core).sbuf (c.sbuf.take idx ++ c.sbuf.drop (idx + 1))
    (∀ x u, isCore core = true → c.smpCtl.getLsbD 23 = false → s.regAt w = some (.own core u) → c.l1At w = some x →
      ∃ t, exec (.storeDrain core idx) s = .next t ∧ done t x.val) ∧
    ((∀ u, s.regAt w ≠ some (.own core u)) → ∃ t, exec (.storeDrain core idx) s = .next t ∧ { t with cores := s.cores } = s ∧
      (∀ k, k ≠ core → t.core k = s.core k) ∧ { t.core core with sbuf := c.sbuf } = c ∧
      (t.core core).sbuf = c.sbuf.take idx ++ { e with sent := true } :: c.sbuf.drop (idx + 1)) ∧
    (HomeAnswers s core e.ctx w sl true → e.sent = true → s.regAt w = none →
      ∃ t, exec (.register core false idx) s = .next t ∧ done t (s.l2Word w))) ∧
  (∀ (e : StoreEnt) (pa va : Nat) (v : Word), c.oldestStore idx = some e → e.pl = .inPlace pa va → e.data = [.good v] → e.n = 4 →
    isHost pa = true → pa % 4 = 0 → s.hostOff = false → c.smpCtl.getLsbD 23 = false → ∃ t, exec (.storeDrain core idx) s = .next t ∧
      t.hbm = s.hbm ∧ SameStores (t.core core).sbuf (c.sbuf.take idx ++ c.sbuf.drop (idx + 1)) ∧
      (∀ k, k < 4 → Memory.read t.host (pa - hostBase + k) = BitVec.ofNat 8 (v.toNat / 2 ^ (8 * k))) ∧
      ∀ a, a < pa - hostBase ∨ pa - hostBase + 4 ≤ a → Memory.read t.host a = Memory.read s.host a) ∧
  ∀ (o : MemOp) (pa creg cache va op aty : Nat) (sl fv : Bool) (old v cmp : Word) (cs : List LWord) (dst : Option Dest),
    c.iq[idx]? = some o → s.opReady core idx = true → o.kind = .atomic (.mem pa creg sl fv cache va) op aty 4 [.good v] cs false dst →
    cs = (if op = 7 then [.good cmp] else []) → op ≤ 9 → aty < 2 → pa % 4 = 0 → c.alive o.fid = true →
    HomeAnswers s core o.ctx (pa / 4) sl true → s.regAt (pa / 4) = none → s.l2Word (pa / 4) = .good old →
    ∃ t, exec (.homeWideAtomic core idx) s = .next t ∧ OnlyWord (pa / 4) s t ∧ t.regAt (pa / 4) = none ∧
      t.l2Word (pa / 4) = .good (atomicResult op (aty = 1) old v cmp) ∧
      (∀ x, (t.core core).l1At (pa / 4) = some x → x.g = true) ∧ SameOps (t.core core).iq (c.iq.take idx ++ c.iq.drop (idx + 1)) ∧
      (t.core core).results = c.results ++ (dst.map fun d => resultOf o d (.good old)).toList

/-- R85, R103, R109 to R113, R487: an eviction drops an unregistered word with nothing else changed; it writes a released word back
to its home, as WRITEBACK does, and a word that is not released goes to the hold store with its bank's bit set; a recall takes a
word from its owner in the same two ways; a bank's acknowledgement of a Hold-clear takes it off what the release waits for and, with the
last bank, ends the release and leaves in the mask only the banks that hold words of the core again. -/
def Obligations.RegistryMoves : Prop := ∀ (s : State) (core w : Nat) (x : L1Word),
  let c := s.core core
  let bank := homeBank (4 * w)
  let back (t : State) : Prop := OnlyWord w s t ∧ t.regAt w = none ∧ t.l2Word w = x.val ∧ (t.core core).l1At w = none ∧
    (t.core core).held = c.held
  let heldBack (t : State) : Prop := OnlyWord w s t ∧ t.regAt w = some (.hold core x.val) ∧ t.l2Word w = s.l2Word w ∧
    (t.core core).l1At w = none ∧ (t.core core).held = c.held ||| ((1 : BitVec 512) <<< bank)
  let roomHeld : Prop := (s.holdOrder.filter fun e => lineBank e.1 == bank).length < 2048
  isCore core = true → InL2 s w →
  (c.l1At w = some x → x.g = false → ∃ t, exec (.l1Eviction core (4 * w)) s = .next t ∧ { t with cores := s.cores } = s ∧
    (∀ k, k ≠ core → t.core k = s.core k) ∧ { t.core core with l1 := c.l1 } = c ∧ (t.core core).l1At w = none ∧
    ∀ v, v ≠ w → (t.core core).l1At v = c.l1At v) ∧
  (∀ u, c.l1At w = some x → x.g = true → s.regAt w = some (.own core u) →
    (x.u = false → (∃ t, exec (.l1Eviction core (4 * w)) s = .next t ∧ back t) ∧ ∃ t, exec (.writeback core (4 * w)) s = .next t ∧ back t) ∧
    (x.u = true → roomHeld → ∃ t, exec (.l1Eviction core (4 * w)) s = .next t ∧ heldBack t) ∧
    (s.recallable (w / 32) (· == core) = [w] →
      (x.u = false → ∃ t, exec (.ownerRecall (w / 32) core) s = .next t ∧ back t) ∧
      (x.u = true → roomHeld → ∃ t, exec (.ownerRecall (w / 32) core) s = .next t ∧ heldBack t))) ∧
  ∀ (idx : Nat) (o : MemOp) (bs : BitVec 512) (own : Bool), c.iq[idx]? = some o → o.kind = .relWait bs own → bs.getLsbD bank = true →
    (∀ e ∈ c.iq.take idx, ∀ as n, e.kind = .relWait as n → as.getLsbD bank = false) →
    let left : BitVec 512 := bs &&& ~~~((1 : BitVec 512) <<< bank)
    ∃ t, exec (.holdClear core bank) s = .next t ∧ { t with cores := s.cores } = s ∧ (∀ k, k ≠ core → t.core k = s.core k) ∧
      (left ≠ 0 → { t.core core with iq := c.iq } = c ∧
        (t.core core).iq = c.iq.take idx ++ { o with kind := .relWait left own } :: c.iq.drop (idx + 1)) ∧
      (left = 0 → { t.core core with iq := c.iq, held := c.held, spindles := c.spindles, wgs := c.wgs } = c ∧
        (t.core core).iq = c.iq.take idx ++ c.iq.drop (idx + 1) ∧
        (∀ b, b < 512 → ((t.core core).held.getLsbD b = true ↔ ∃ e ∈ s.regst, homeBank (4 * e.1) = b ∧ ∃ v, e.2 = .hold core v)) ∧
        ((∀ sp a, c.spindle o.slot = some sp → sp.batchOf o.lane = some a → ∀ id sc n d len, a.wait ≠ .bar id sc n false d len) →
          (t.core core).spindles = c.spindles ∧ (t.core core).wgs = c.wgs))

/-- R314 to R326: with the engine right, `cpy` posts the copy of each guard-true lane's card after its release, joins it to the open
batch and clears its tag; `cwait` and `cbatch.wait` park, `cbatch.close` closes the open batch; each wait ends with its acquire, `cwait`
with the status of its tags in v1 and `cwait.first` with the lowest tag. -/
def Obligations.Copies : Prop := ∀ (h : Hdr) (o : Opnds) (m : BitVec 16) (s : State) (x : Iss) (w : Workgroup),
  let c := s.core x.core
  let cl := runnerCluster x.core
  let ls := lanesOf x.gt
  let posts (i : Instr) (minor : Nat) : Prop := ∀ (off : Nat → Word) (card : Nat → CopyCard),
    Issues s i x → s.engineRight x = true → c.wg x.wg = some w → s.copiesOf x.core + ls.length ≤ 512 → s.cardBusy x = false →
    (∀ l ∈ ls, srcVal c x o.a l = some (off l) ∧ (off l).toNat % 64 = 0 ∧ (off l).toNat + 64 ≤ s.scrLimit x ∧
      (∀ v ∈ s.cardWords x l (off l).toNat 16, v.isPoison = false) ∧
      parseCopy minor (numOf (s.cardWords x l (off l).toNat 16)) = some (card l)) →
    ∃ t js, exec i s = .next t ∧ OwnSpindle x.core x.slot (fun c c' => { c' with iq := c.iq, wgs := c.wgs }) s
        { t with clusters := s.clusters, nextJob := s.nextJob } (GoesOn x.lanes x.len) ∧
      t.nextJob = s.nextJob + ls.length ∧ (∀ k, k ≠ cl → t.cluster k = s.cluster k) ∧
      (t.cluster cl).jobs = (s.cluster cl).jobs ++ js ∧ js.length = ls.length ∧
      (∀ q l, ls[q]? = some l → ∃ j, js[q]? = some j ∧ j.id = s.nextJob + q ∧ j.kind = .copy (card l) ∧ j.status = .posting ∧ j.ctx = x.cx ∧
        j.core = x.core ∧ j.wg = x.wg ∧ j.tag = (if m.getLsbD 6 then none else some (xf m 5 0)) ∧ j.landed = [] ∧ j.failed = none) ∧
      (t.core x.core).iq = c.iq ++ ls.zipIdx.flatMap (fun p => [OpKind.release true false, .posted (.job cl (s.nextJob + p.2))].map fun k =>
        { seen := false, counted := false, grp := c.issued.toNat, tick := x.tick, fid := fidOf c x p.1, slot := x.slot, lane := p.1, wg := x.wg,
          ctx := x.cx, kind := k }) ∧
      (t.core x.core).wg x.wg = some { w with
        openB := w.openB ++ (List.range ls.length).map (s.nextJob + ·),
        ctag := if ls = [] ∨ m.getLsbD 6 = true then w.ctag else w.ctag &&& ~~~((1 : BitVec 64) <<< xf m 5 0),
        tagst := if ls = [] ∨ m.getLsbD 6 = true then w.tagst else SMap.erase w.tagst (xf m 5 0) }
  let waits (i : Instr) (minor : Nat) : Prop := ∀ scope mask, Issues s i x → x.gt ≠ 0 → Sys2Proof.Scope.ofCode (xf m 2 0) = some scope →
    srcVal64 c x o.a (lowestLane x.gt) = some mask → ∃ t, exec i s = .next t ∧ OwnSpindle x.core x.slot (fun _ c' => c') s t fun sp sp' =>
      WaitsAs x.lanes (.cwait minor mask x.gt o.d scope (BitVec.ofNat 8 (xf m 10 3)) x.len) x.mark sp' ∧ (∀ l, sp'.fibre l = sp.fibre l) ∧
      Bystanders x.lanes sp sp'
  let live (b : List Nat) : Bool := b.any fun id => (s.job cl id).isSome
  let closed : Workgroup := if w.openB = [] then w else { w with openB := [], closedB := w.closedB.filter live ++ [w.openB] }
  let closes (i : Instr) (R : Spindle → Spindle → Prop) : Prop := Issues s i x → s.engineRight x = true → c.wg x.wg = some w → x.gt ≠ 0 →
    (w.openB = [] ∨ (w.closedB.filter live).length < 16) → ∃ t, exec i s = .next t ∧
      OwnSpindle x.core x.slot (fun c c' => { c' with wgs := c.wgs }) s t R ∧ (t.core x.core).wg x.wg = some closed
  posts (.cpyPlain h o m) 0 ∧ posts (.cpyPlane h o m) 1 ∧ posts (.cpyGather h o m) 2 ∧ posts (.cpyMcast h o m) 3 ∧
  waits (.cwaitAll h o m) 0 ∧ waits (.cwaitAny h o m) 1 ∧ waits (.cwaitFirst h o m) 2 ∧
  closes (.cbatchClose h o m) (GoesOn x.lanes x.len) ∧
  closes (.cbatchWait h o m) (fun sp sp' => WaitsAs x.lanes (.cbatchWait (xf m 3 0) x.len) x.mark sp' ∧
    (∀ l, sp'.fibre l = sp.fibre l) ∧ Bystanders x.lanes sp sp') ∧
  ∀ (core slot lane : Nat) (sp : Spindle) (b : Batch), s.waitAt core slot lane = some (sp, b) → (s.core core).wg sp.wg = some w →
    (∀ minor mask lanes d scope creg len, b.wait = .cwait minor mask lanes d scope creg len →
      let got := w.ctag &&& mask
      (if minor = 0 then got = mask else got ≠ 0 ∨ mask = 0) →
      let status (k : Nat) : Bool := w.tagst.any fun e => got.getLsbD e.1 && e.2.getLsbD k
      let f : BitVec 5 := (if status 0 then Flags.of else 0) ||| (if status 1 then Flags.nv else 0)
      ∃ t first, exec (.cwaitRelease core slot lane) s = .next t ∧
        OwnSpindle core slot (fun c c' => { c' with l1 := c.l1, rows := c.rows, results := c.results, marks := c.marks }) s t (Released b len) ∧
        Acquired (Scope.wide scope) creg (s.core core) (t.core core) ∧
        (∀ l, l < 32 → ∀ row, (t.core core).row row l = if l ∈ lanesOf lanes ∧ row = (sp.at_ l).2 + 1 then orFlags ((s.core core).row row l) f
          else (s.core core).row row l) ∧
        (first ≤ 64 ∧ (∀ j, j < first → got.getLsbD j = false) ∧ (first < 64 → got.getLsbD first = true)) ∧
        (t.core core).results = (s.core core).results ++ (if minor = 2 then (lanesOf lanes).map fun l =>
            let base := (sp.at_ (lowestLane b.lanes)).2
            { fid := ((sp.fibre l).map (·.fid)).getD 0, slot := slot, lane := l,
              words := if d = 0 then [] else [(base + d.toNat, .good (BitVec.ofNat 32 first))], v1row := base + 1, pd := none,
              flags := 0, smp := none }
          else [])) ∧
    (∀ n len, b.wait = .cbatchWait n len → ((w.closedB.filter fun a => a.any fun id => (s.job (runnerCluster core) id).isSome).length ≤ n) →
      ∃ t, exec (.cbatchWaitRelease core slot lane) s = .next t ∧ LetGo core slot b len true 0xFF s t)

/-- R328 to R335: `post` puts its release and its card into the queue of each guard-true lane where the chain has room; `ttask` posts
one tile task for its batch; `ttwait` parks until the tile tasks of its spindle are complete, then gives their flags to v1. -/
def Obligations.CardsAndTiles : Prop := ∀ (h : Hdr) (o : Opnds) (m : BitVec 16) (s : State) (x : Iss),
  let c := s.core x.core
  let cl := runnerCluster x.core
  (∀ (va : Nat → BitVec 64) (d : Nat → Descriptor) (ws : Nat → List LWord), Issues s (.post h o m) x → s.engineRight x = true → s.cardBusy x = false →
    (∀ l ∈ lanesOf x.gt, postCheck o x s l = (s, .ok (va l, d l, ws l)) ∧
      ((d l).tail + BitVec.ofNat 64 ((lanesOf x.gt).filter fun k => va k == va l).length - (d l).done).toNat ≤ 2 ^ (d l).lgn) →
    Enqueues (.post h o m) s x fun l => [.release true false, .chain (va l) (ws l) ⟨x.base, o.d.toNat⟩]) ∧
  (∀ card : TileCard, Issues s (.ttask h o m) x → x.gt ≠ 0 → s.cardBusy x = false → ttaskCheck o.a x s (lowestLane x.gt) = .ok card →
    (card.od = true ∨ card.out + (card.m + 1) * ((card.n + 32) / 32) ≤ x.rows) → ∃ t j, exec (.ttask h o m) s = .next t ∧
      OwnSpindle x.core x.slot (fun c c' => { c' with iq := c.iq }) s { t with clusters := s.clusters, nextJob := s.nextJob }
        (GoesOn x.lanes x.len) ∧
      t.nextJob = s.nextJob + 1 ∧ (∀ k, k ≠ cl → t.cluster k = s.cluster k) ∧ (t.cluster cl).jobs = (s.cluster cl).jobs ++ [j] ∧
      j.id = s.nextJob ∧ j.kind = .tile card ∧ j.status = .posting ∧ j.core = x.core ∧ j.wg = x.wg ∧ j.slot = x.slot ∧ j.base = x.base ∧
      (t.core x.core).iq = c.iq ++ [OpKind.release true false, .posted (.job cl s.nextJob)].map fun k =>
        { seen := false, counted := false, grp := c.issued.toNat, tick := x.tick, fid := fidOf c x (lowestLane x.gt), slot := x.slot,
          lane := lowestLane x.gt, wg := x.wg, ctx := x.cx, kind := k }) ∧
  (Issues s (.ttwait h o m) x → x.gt ≠ 0 → ∃ t jobs, exec (.ttwait h o m) s = .next t ∧
    OwnSpindle x.core x.slot (fun _ c' => c') s t (fun sp sp' => WaitsAs x.lanes (.ttwait jobs x.gt x.len) x.mark sp' ∧
      (∀ l, sp'.fibre l = sp.fibre l) ∧ Bystanders x.lanes sp sp') ∧
    ∀ id, id ∈ jobs ↔ ∃ j ∈ (s.cluster cl).jobs, j.id = id ∧ j.core = x.core ∧ j.wg = x.wg ∧ j.slot = x.slot ∧ ∃ k, j.kind = .tile k) ∧
  ∀ (core slot lane : Nat) (sp : Spindle) (b : Batch) (jobs : List Nat) (lanes : Word) (len : Nat),
    s.waitAt core slot lane = some (sp, b) → b.wait = .ttwait jobs lanes len →
    (∀ id ∈ jobs, s.job (runnerCluster core) id = none) → ∃ t, exec (.ttwaitRelease core slot lane) s = .next t ∧
      OwnSpindle core slot (fun c c' => { c' with rows := c.rows }) s t (fun u sp' => Released b len u sp' ∧
        ∀ l, SMap.get 0 sp'.pend l = if lanes.getLsbD l then 0 else SMap.get 0 u.pend l) ∧
      ∀ l, l < 32 → ∀ row, (t.core core).row row l = if l ∈ lanesOf lanes ∧ row = (sp.at_ l).2 + 1 then
          orFlags ((s.core core).row row l) (SMap.get 0 sp.pend l) else (s.core core).row row l

/-- R87 to R89, R108, R319, R322, R323, R441 to R444: a queued job starts when its edges are complete; a write of a copy makes its
word J with the data in L2; the words become N once every access is made; a landed granule credits its `mbar`; a complete copy
sets its tag; a failed one loses its words and terminates its workgroup. -/
def Obligations.EngineJobs : Prop := ∀ (s : State) (cl job : Nat) (j : Job) (cd : CopyCard), s.job cl job = some j → j.kind = .copy cd →
  let others (t : State) : Prop := (∀ k, k ≠ cl → t.cluster k = s.cluster k) ∧ ∀ id, id ≠ job → t.job cl id = s.job cl id
  (j.status = .queued → j.halted = false → s.current j.ctx = true → (∀ e ∈ j.edges, s.job cl e = none) →
    ∃ t e f, exec (.jobStart cl job) s = .next t ∧ { t with clusters := s.clusters } = s ∧ others t ∧
      t.job cl job = some { j with status := .started, eng := e, failed := f } ∧ (j.failed.isSome = true → f = j.failed) ∧
      (j.failed = none → cd.cmask = 0 → cd.dsp = 1 → j.recv = [] → (f.isSome = true ↔ j.scrLen < cd.dst.toNat + cd.size ∨
        cd.ssp = true ∧ j.scrLen < cd.src.toNat + cd.len ∨ cd.mbv = true ∧ j.scrLen < cd.mbo + 16))) ∧
  (∀ k pa l v, j.status = .started → j.verdict = 0 → j.halted = false → j.failed = none → k ∉ j.landed → cd.minor = 0 → cd.dsp = 0 →
    j.chain = none → k < cd.len / 4 → SMap.find j.buf k = some (.good v) →
    s.translateHw (clusterDie cl) j.ctx ((cd.dst.toNat + 4 * k) % 2 ^ 64) .write = (s, .ok (pa, l)) → pa % 4 = 0 → inPlacePage l pa = false →
    s.registerWaits (pa / 4) = false → s.engineLine j.ctx pa l.sl true = (s, .ready) → s.makeRoom (pa / 4 / 32) j.core [pa / 4] = (s, true) →
    s.regAt (pa / 4) = none → InL2 s (pa / 4) → ∃ t, exec (.jWrite cl job k) s = .next t ∧ OnlyWord (pa / 4) s t ∧
      t.regAt (pa / 4) = some (.j j.core cl job) ∧ t.l2Word (pa / 4) = .good v ∧ others t ∧
      t.job cl job = some { j with landed := j.landed ++ [k] }) ∧
  (j.status = .started → j.failed = none → j.accessed = true → ∃ t, exec (.jClear cl job) s = .next t ∧ t.l2 = s.l2 ∧ t.cores = s.cores ∧
    t.clusters = s.clusters ∧ ∀ w, (∀ o, s.regAt w = some (.j o cl job) → t.regAt w = none) ∧
      ((∀ e ∈ s.regst, e.1 = w → ∀ o, e.2 ≠ .j o cl job) → t.regAt w = s.regAt w)) ∧
  (∀ g gr k, j.status = .started → cd.mbv = true → j.granules[g]? = some gr → g ∉ j.credited → j.recv = [] →
    (∀ e ∈ j.granuleWrites gr, e.1 ∈ j.landed) → (s.core j.core).mbarAt (j.scrBase + cd.mbo) = some k →
    let got : Word := k.got + BitVec.ofNat 32 ((j.granuleWrites gr).map Prod.snd).sum
    ∃ t, exec (.copyGranuleCredit cl job g) s = .next t ∧ others t ∧ t.job cl job = some { j with credited := j.credited ++ [g] } ∧
      (t.core j.core).mbarAt (j.scrBase + cd.mbo) = some (if k.arr = 0 ∧ k.exp.toNat ≤ got.toNat then
        { ph := k.ph + 1, got := got - k.exp, exp := 0, init := k.init, arr := k.init } else { k with got := got })) ∧
  (∀ w tag, j.status = .started → j.failed = none → j.accessed = true → cd.ctr = 0 → j.chain = none → j.tag = some tag →
    (cd.mbv = true → j.credited.length = j.granules.length) → (∀ e ∈ s.regst, ∀ o, e.2 ≠ .j o cl job) → (s.core j.core).wg j.wg = some w →
    ∃ t, exec (.jobComplete cl job) s = .next t ∧ others t ∧ t.job cl job = none ∧ t.regst = s.regst ∧ t.l2 = s.l2 ∧
      (t.core j.core).wg j.wg = some { w with
        ctag := if ∃ q ∈ (s.cluster cl).jobs, q.id ≠ job ∧ q.core = j.core ∧ q.wg = j.wg ∧ q.tag = some tag then w.ctag
          else w.ctag ||| ((1 : BitVec 64) <<< tag),
        tagst := SMap.set 0 w.tagst tag (SMap.get 0 w.tagst tag ||| j.st) }) ∧
  ∀ w cause va, j.status = .started → j.failed = some (cause, va) → cd.mbv = false → j.chain = none → j.recv = [] →
    (s.core j.core).wg j.wg = some w → w.killed = false →
    ∃ t, exec (.copyFault cl job) s = .next t ∧ others t ∧ t.job cl job = none ∧ (∀ e ∈ s.regst, ∀ o, e.2 = .j o cl job → t.regAt e.1 = some .lost) ∧
      t.recq = s.recq ++ [{ agentRec w.rcd.ctx 1 33 cause va.toNat 0 with lseq := w.rcd.lseq, core := j.core }] ∧ (t.core j.core).wg j.wg = some { w with killed := true }

/-- R336, R339, R341 to R345: `nmc.rowcp` and `nmc.rowzero` post a row command, `nmc.nmlaunch` a record for the NMU of its data, and count
it in `NMCNT`; `nfence` parks until the count is 0; `launch`, `spawn` and `ppost` post behind a release where their queue has room, and
park where it has none. -/
def Obligations.RowCommandsAndRecords : Prop := ∀ (h : Hdr) (o : Opnds) (m : BitVec 16) (s : State) (x : Iss) (w : Workgroup),
  let c := s.core x.core
  let cl := runnerCluster x.core
  let ls := lanesOf x.gt
  let row (i : Instr) (copy : Bool) : Prop := ∀ (n wa wb : Nat → Nat) (ps : Nat → List RowPair),
    Issues s i x → c.wg x.wg = some w → (m.getLsbD 0 = true → (s.ctx x.cx).own = true) →
    (∀ l ∈ ls, rowCheck o copy x s l = (s, .ok (n l, wa l, wb l, ps l))) → ∃ t js, exec i s = .next t ∧
      OwnSpindle x.core x.slot (fun c c' => { c' with iq := c.iq, wgs := c.wgs }) s { t with clusters := s.clusters, nextJob := s.nextJob }
        (GoesOn x.lanes x.len) ∧
      (t.cluster cl).jobs = (s.cluster cl).jobs ++ js ∧ js.length = ls.length ∧ (∀ k, k ≠ cl → t.cluster k = s.cluster k) ∧
      (∀ q l, ls[q]? = some l → ∃ j, js[q]? = some j ∧ j.id = s.nextJob + q ∧ j.kind = .row (m.getLsbD 0) false (ps l) ∧
        j.status = .posting ∧ j.ctx = x.cx ∧ j.reads = (if copy then [.virt x.cx (wb l) (n l)] else []) ∧
        j.writes = [.virt x.cx (wa l) (n l)]) ∧
      (t.core x.core).iq = c.iq ++ ls.zipIdx.flatMap (fun p => [queued c x p.1 (.release true false), queued c x p.1 (.posted (.job cl (s.nextJob + p.2)))]) ∧
      (t.core x.core).wg x.wg = some { w with nmcnt := w.nmcnt + BitVec.ofNat 32 ls.length }
  let post (i : Instr) (room : Bool) (b : Block) (ok : Nat → Prop) (p : Nat → Posted) : Prop := Issues s i x → (∀ l ∈ ls, ok l) →
    (room = true → Enqueues i s x fun l => [.release true false, .posted (p l)]) ∧
    (room = false → x.gt ≠ 0 → ∃ t, exec i s = .next t ∧ OwnSpindle x.core x.slot (fun _ c' => c') s t fun sp sp' =>
      WaitsAs x.lanes (.blocked b) x.mark sp' ∧ (∀ l, sp'.fibre l = sp.fibre l) ∧ Bystanders x.lanes sp sp')
  let wid (l : Nat) : BitVec 64 := (((c.spindle x.slot).bind fun sp => sp.fibre l).map (·.wid)).getD 0
  row (.nmcRowcp h o m) true ∧ row (.nmcRowzero h o m) false ∧
  (∀ (n : Nat → Nat) (r : Nat → Record), Issues s (.nmcNmlaunch h o m) x → c.wg x.wg = some w →
    (∀ l ∈ ls, nmlaunchCheck o x s l = (s, .ok (n l, r l))) → ∃ t, exec (.nmcNmlaunch h o m) s = .next t ∧
      OwnSpindle x.core x.slot (fun c c' => { c' with iq := c.iq, wgs := c.wgs }) s t (GoesOn x.lanes x.len) ∧
      (t.core x.core).iq = c.iq ++ ls.flatMap (fun l => [queued c x l (.release true false), queued c x l (.posted (.nmu (n l) (r l)))]) ∧
      (t.core x.core).wg x.wg = some { w with nmcnt := w.nmcnt + BitVec.ofNat 32 ls.length }) ∧
  (Issues s (.nfence h o) x → x.gt ≠ 0 → ∃ t, exec (.nfence h o) s = .next t ∧ OwnSpindle x.core x.slot (fun _ c' => c') s t fun sp sp' =>
    WaitsAs x.lanes (.nfence x.len) x.mark sp' ∧ (∀ l, sp'.fibre l = sp.fibre l) ∧ Bystanders x.lanes sp sp') ∧
  (∀ (core slot lane : Nat) (sp : Spindle) (b : Batch) (len : Nat), s.waitAt core slot lane = some (sp, b) → b.wait = .nfence len →
    (s.core core).wg sp.wg = some w → (w.nmcnt = 0 → ∃ t, exec (.nfenceRelease core slot lane) s = .next t ∧
      LetGo core slot b len true 0xFF s t) ∧ (w.nmcnt ≠ 0 → exec (.nfenceRelease core slot lane) s = .next s)) ∧
  ∀ (va : Nat → BitVec 64) (pl : Nat → Place) (off idx draw : Nat → Word),
    post (.launch h o m) (s.launchRoom x.cx) .launchRoom
      (fun l => srcVal64 c x o.a l = some (va l) ∧ s.globalPlace x (va l).toNat 128 .read 0 = (s, .ok (pl l))) (fun l => .launch (va l) (pl l)) ∧
    post (.spawn h o m) (s.recordRoom cl x.cx) (.recordRoom cl 1)
      (fun l => srcVal64 c x o.a l = some (va l) ∧ s.globalPlace x (va l).toNat 32 .read 0 = (s, .ok (pl l)))
      (fun l => .spawn (va l) (wid l) (pl l)) ∧
    post (.ppost h o m) (s.primRoom x.cx) (.primRoom 1)
      (fun l => srcVal c x o.a l = some (off l) ∧ srcVal c x o.b l = some (idx l) ∧ srcVal c x o.c l = some (draw l) ∧
        (idx l).toNat < 2 ^ 20 ∧ (draw l).toNat < 4096 ∧ (off l).toNat % 64 = 0 ∧ (off l).toNat + 64 ≤ s.scrLimit x ∧ s.cardBusy x = false ∧
        ∀ v ∈ s.cardWords x l (off l).toNat 16, v.isPoison = false)
      (fun l =>
        let word (k : Nat) : LWord := (s.cardWords x l (off l).toNat 16).getD k .poison
        let r := ((c.wg x.wg).getD default).rcd
        .prim { ctx := x.cx, lseq := r.lseq, wid := wid l, draw := (draw l).toNat, idx := (idx l).toNat, vs := (List.range 12).map word,
                dvp := (word 13).val ++ (word 12).val, attr := (word 15).val ++ (word 14).val,
                ring := none })

/-- R338, R344, R346, R347: `nmc.rowq` answers the place of a block; `evt` words enter the issue queue for their event, a `set` behind a
release; `sreg.rdsr` on a core reads each special register, at once or as a variable-latency result; `sreg.wrsr` writes `SEG` or
`CPYBASE` with the context and the bounds of the workgroup's scratchpad, and is illegal for any other register. -/
def Obligations.EventsAndRegisters : Prop := ∀ (h : Hdr) (o : Opnds) (m : BitVec 16) (s : State) (x : Iss) (fr : Frame) (w : Workgroup),
  let c := s.core x.core
  let ls := lanesOf x.gt
  (∀ (va : Nat → DWord) (pa : Nat → Nat) (leaf : Nat → Leaf), Issues s (.nmcRowq h o m) x →
    (∀ l ∈ ls, srcVal64 c x o.a l = some (va l) ∧ s.translate x.core x.cx (va l).toNat .read = (s, .ok (pa l, leaf l)) ∧
      isHbm (pa l) = true) → ∃ t, exec (.nmcRowq h o m) s = .next t ∧
      OwnRunner x (fun c c' => { c' with results := c.results, marks := c.marks }) s t ∧
      (t.core x.core).results = c.results ++ ls.map fun l => answer c x o.d l (.good (BitVec.ofNat 32 (paPc (pa l) * 2 ^ 22 +
        paStack (pa l) * 2 ^ 18 + paBank (pa l) * 2 ^ 14 + paSub (pa l) * 2 ^ 9 + paRow (pa l))))) ∧
  (∀ e : Nat → Nat, (∀ l ∈ ls, ∃ v, srcVal c x o.a l = some v ∧ v.toNat = e l ∧ e l < 256) →
    (Issues s (.evtSet h o m) x → Enqueues (.evtSet h o m) s x fun l => [.release true false, .evt 0 (e l) none]) ∧
    (Issues s (.evtClear h o m) x → Enqueues (.evtClear h o m) s x fun l => [.release true false, .evt 1 (e l) none]) ∧
    (Issues s (.evtTest h o m) x → Enqueues (.evtTest h o m) s x fun l => [.evt 2 (e l) (some ⟨x.base, o.d.toNat⟩)])) ∧
  (∀ (f : Nat → Fibre) (link : Nat) (fault : Nat → DWord), Issues s (.sregRdsr h o m) x → Stands s x fr → c.wg x.wg = some w →
    isCore x.core = true → sregExists m.toNat = true → (m = 14 → c.linkRead x.base = some link) →
    (∀ sp, c.spindle x.slot = some sp → ∀ l ∈ ls, sp.fibre l = some (f l) ∧ fault l = (sp.handlerOf l).getD 0) →
    let v (l : Nat) : DWord := specialRegister s x (f l) fr w link (fault l) m.toNat l
    let e (l : Nat) : LaneEffect :=
      ⟨(o.d.toNat, .good ((v l).setWidth 32)) :: (if sreg64 m.toNat then [(o.d.toNat + 1, .good ((v l >>> 32).setWidth 32))] else []), none, 0⟩
    ∃ t, exec (.sregRdsr h o m) s = .next t ∧
      (m = 0 ∨ m = 10 ∨ m = 11 ∨ m = 14 ∨ m = 16 ∨ 24 ≤ m.toNat → OwnRunner x (fun c c' => { c' with results := c.results, marks := c.marks }) s t ∧
        (t.core x.core).results = c.results ++ ls.map fun l => { answer c x o.d l (.good 0) with
          words := ((e l).regs.filter fun r => r.1 != 0).map fun r => (x.base + r.1, r.2) }) ∧
      (¬ (m = 0 ∨ m = 10 ∨ m = 11 ∨ m = 14 ∨ m = 16 ∨ 24 ≤ m.toNat) → OwnRunner x (fun c c' => { c' with rows := c.rows }) s t ∧
        RowsAfter x (fun l k old => afterWrites (e l) k old) c (t.core x.core))) ∧
  (Issues s (.sregWrsr h o m) x →
    (∀ n, m = 3 → x.gt ≠ 0 → srcVal c x o.a (lowestLane x.gt) = some n → 1 ≤ n.toNat → n.toNat ≤ 5 → ∃ t, exec (.sregWrsr h o m) s = .next t ∧
      OwnRunner x (fun _ c' => c') s t (fun sp => { sp with seg := n.toNat })) ∧
    (∀ base lim, m = 12 → x.gt ≠ 0 → base ≤ lim → base < 2 ^ 20 → lim < 2 ^ 20 → s.scrBase x ≤ base → lim ≤ s.scrBase x + s.scrLimit x →
      (∀ l ∈ ls, ∃ v, srcVal64 c x o.a l = some v ∧ v.toNat % 2 ^ 48 = lim * 2 ^ 24 + base) → ∃ t, exec (.sregWrsr h o m) s = .next t ∧
      OwnRunner x (fun c c' => { c' with cpybase := c.cpybase, cpyWg := c.cpyWg }) s t ∧
      (t.core x.core).cpybase = BitVec.ofNat 64 (x.cx * 2 ^ 48 + lim * 2 ^ 24 + base) ∧ (t.core x.core).cpyWg = some x.wg) ∧
    (m ≠ 3 → m ≠ 12 → exec (.sregWrsr h o m) s = .next (s.trapAll x x.lanes 1 0 0)))

/-- R72, R73, R132, R348 to R352, R430: outside a handler and the system context a privileged word traps in its guard-true lanes;
`sys.rte` parks each lane at a return to the PC of its record; `sys.tinv` parks until no row command holds its ranges, then drops
their translations in its scope; the key words answer their status and change the key slot as it says; `sys.slice` gives up the
slice, or sets the length of a context's next ones. -/
def Obligations.SystemWords : Prop := ∀ (h : Hdr) (o : Opnds) (m : BitVec 16) (s : State) (x : Iss) (fr : Frame),
  let c := s.core x.core
  let ls := lanesOf x.gt
  let denied (i : Instr) : Prop := Issues s i x → x.gt ≠ 0 → s.privileged x = false → exec i s = .next (s.trapAll x x.gt 12 0 0)
  let replies (i : Instr) (l : Nat) (status : Nat) (R : State → Prop) : Prop := ∃ t, exec i s = .next t ∧
    OwnRunner x (fun c c' => { c' with results := c.results, marks := c.marks }) s { t with keys := s.keys, sessions := s.sessions } ∧
    (t.core x.core).results = c.results ++ [answer c x o.d l (.good (BitVec.ofNat 32 status))] ∧ R t
  let keyIs (k : Nat) (v : KeySlot) (t : State) : Prop := t.key k = v ∧ ∀ j, j ≠ k → t.key j = s.key j
  let noKey (t : State) : Prop := t.keys = s.keys ∧ t.sessions = s.sessions
  denied (.sysTinv h o m) ∧ denied (.sysRekey h o m) ∧ denied (.sysKslotInstall h o m) ∧ denied (.sysKslotStage h o m) ∧
  denied (.sysKslotErase h o m) ∧ denied (.sysKslotQuery h o m) ∧
  (∀ (tgt : Nat → DWord), Issues s (.sysRte h o m) x → Stands s x fr → x.gt ≠ 0 → fr.handler.isSome = true → (c.linkRead x.base).isSome →
    (∀ l ∈ ls, rteCheck x s l = (s, .ok (tgt l))) → ∃ t, exec (.sysRte h o m) s = .next t ∧
      OwnSpindle x.core x.slot (fun _ c' => c') s t fun sp sp' => WaitsAs x.gt (.ret 0 x.words) x.mark sp' ∧
        (∀ l ∈ ls, sp'.fibre l = (sp.fibre l).map fun f => { f with rtePc := some (tgt l) }) ∧
        GoTo x.stay (fun _ => x.after) sp sp' ∧ Regrouped x.stay x.mark sp' ∧ Bystanders x.lanes sp sp') ∧
  (∀ scope (a : Nat → DWord) (n : Nat → Word), Issues s (.sysTinv h o m) x → x.gt ≠ 0 → s.privileged x = true →
    Sys2Proof.Scope.ofCode (xf m 2 0) = some scope → (∀ l ∈ ls, srcVal64 c x o.a l = some (a l) ∧ srcVal c x o.b l = some (n l)) →
    ∃ t, exec (.sysTinv h o m) s = .next t ∧ OwnSpindle x.core x.slot (fun _ c' => c') s t fun sp sp' =>
      WaitsAs x.lanes (.tinv scope (ls.map fun l => (a l, (n l).toNat)) x.len) x.mark sp' ∧ (∀ l, sp'.fibre l = sp.fibre l) ∧
      Bystanders x.lanes sp sp') ∧
  (∀ (core slot lane : Nat) (sp : Spindle) (b : Batch) sc rs len, s.waitAt core slot lane = some (sp, b) → b.wait = .tinv sc rs len →
    let cx := (((s.core core).wg sp.wg).getD default).rcd.ctx
    s.holdsRange sc core cx rs = false → ∃ t, exec (.tinvComplete core slot lane) s = .next t ∧
      (∀ e ∈ (t.core core).tlb, e.ctx = cx → ∀ r ∈ rs, r.2 ≠ 0 ∧ ¬ (e.vpn * 2 ^ e.lg < r.1.toNat % 2 ^ 57 + r.2 ∧
        r.1.toNat % 2 ^ 57 < e.vpn * 2 ^ e.lg + 2 ^ e.lg)) ∧
      (∀ k, ∀ e ∈ (s.core k).tlb, e.ctx ≠ cx → e ∈ (t.core k).tlb) ∧ t.hbm = s.hbm ∧ t.l2 = s.l2 ∧ t.regst = s.regst ∧
      ∃ sp', (t.core core).spindle slot = some sp' ∧ Released b len sp sp') ∧
  (∀ (l : Nat) (k : Word), x.gt = bitMask l → l < 32 → s.privileged x = true →
    let inRange : Prop := 1 ≤ k.toNat ∧ k.toNat < 64
    let slot := s.key k.toNat
    (Issues s (.sysRekey h o m) x → srcVal c x o.a l = some k →
      (¬ inRange → replies (.sysRekey h o m) l 2 noKey) ∧ (inRange → slot.st ≠ .staged → replies (.sysRekey h o m) l 1 noKey) ∧
      (inRange → slot.st = .staged → replies (.sysRekey h o m) l 0
        (keyIs k.toNat { slot with st := .rekeying, cursor := s.lowestBlock slot.part }))) ∧
    (Issues s (.sysKslotErase h o m) x → srcVal c x o.b l = some k →
      (¬ inRange → replies (.sysKslotErase h o m) l 2 noKey) ∧ (inRange → slot.st ≠ .active → replies (.sysKslotErase h o m) l 1 noKey) ∧
      (inRange → slot.st = .active → replies (.sysKslotErase h o m) l 0 (keyIs k.toNat KeySlot.reset))) ∧
    (Issues s (.sysKslotQuery h o m) x → srcVal c x o.b l = some k → replies (.sysKslotQuery h o m) l (if inRange then (match slot.st with
      | .empty => 0
      | .active => 1
      | .staged => 2
      | .rekeying => 3) else 2) noKey)) ∧
  (∀ (l k n : Nat) (ws : List LWord) (u : Session) (key : BitVec 256), x.gt = bitMask l → l < 32 → s.privileged x = true → 1 ≤ k → k < 64 →
    kslotCheck o x s l = (s, .ok (k, ws)) → ws.any LWord.isPoison = false → numOf ws = n → n / 2 ^ 416 % 2 ^ 96 = 0 →
    s.sessions.find? (fun t => t.id == BitVec.ofNat 32 n) = some u → (∀ q, u.seq = some q → q.toNat < n / 2 ^ 32 % 2 ^ 64) →
    keyUnwrap u.ktk ((List.range 40).map fun j => BitVec.ofNat 8 (n / 2 ^ (96 + 8 * j))) = some key →
    (Issues s (.sysKslotInstall h o m) x → (s.key k).st = .empty → replies (.sysKslotInstall h o m) l 0
      (keyIs k { s.key k with st := .active, key := key, part := x.cx / 16 })) ∧
    (Issues s (.sysKslotStage h o m) x → (s.key k).st = .active → replies (.sysKslotStage h o m) l 0
      (keyIs k { s.key k with st := .staged, next := key })) ∧
    (Issues s (.sysKslotInstall h o m) x → (s.key k).st ≠ .empty → replies (.sysKslotInstall h o m) l 1 noKey) ∧
    (Issues s (.sysKslotStage h o m) x → (s.key k).st ≠ .active → replies (.sysKslotStage h o m) l 1 noKey)) ∧
  (∀ (len ctx : Nat → Nat), Issues s (.sysSlice h o m) x → isV0 o.a && isV0 o.b = false → s.privileged x = true →
    (∀ l ∈ ls, ∃ a b : Word, srcVal c x o.a l = some a ∧ srcVal c x o.b l = some b ∧ a.toNat = len l ∧ len l ≠ 0 ∧ b.toNat = ctx l ∧ ctx l < 16) →
    ∃ t, exec (.sysSlice h o m) s = .next t ∧ OwnRunner x (fun _ c' => c') s { t with ctxs := s.ctxs } ∧
      (∀ l ∈ ls, (∀ k ∈ ls, l < k → ctx k ≠ ctx l) → t.ctx (16 * (x.cx / 16) + ctx l) = { s.ctx (16 * (x.cx / 16) + ctx l) with slen := some (len l) }) ∧
      ∀ k, (∀ l ∈ ls, k ≠ 16 * (x.cx / 16) + ctx l) → t.ctx k = s.ctx k) ∧
  (Issues s (.sysSlice h o m) x → isV0 o.a && isV0 o.b = true → (s.ctx x.cx).slenReg = 0 → ∃ t, exec (.sysSlice h o m) s = .next t ∧
    OwnRunner x (fun _ c' => c') s t)

/-- R370, R373, R375, R376: `smp` puts the read of a sample, and `tmeth` its rectangle of applications, into the issue queue of each
guard-true lane; `fpost` answers the ticket of each one, with its covered samples that register b selects, or void, and parks while the
core's post buffer has no room. -/
def Obligations.GraphicsWords : Prop := ∀ (h : Hdr) (o : Opnds) (m : BitVec 16) (s : State) (x : Iss),
  let c := s.core x.core
  let ls := lanesOf x.gt
  (∀ (t : Nat → Target) (b : Nat → DWord), Issues s (.smp h o m) x → (∀ l ∈ ls, smpCheck o m x s l = (s, .ok (t l, b l))) →
    Enqueues (.smp h o m) s x fun l =>
      [.smp (t l) ((b l).toNat % 65536) ((b l).toNat / 65536 % 65536) (xf m 2 0) (xf m 6 3) ⟨x.base, o.d.toNat⟩]) ∧
  (∀ (va : Nat → BitVec 64) (r : Nat → DWord) (p : Nat → List LWord), Issues s (.tmeth h o m) x →
    (∀ l ∈ ls, tmethCheck o (xf m 3 0) x s l = (s, .ok (va l, r l, p l))) →
    Enqueues (.tmeth h o m) s x fun l => [.tmeth (va l) (xf m 3 0) (r l) (p l)]) ∧
  (∀ (tk : Nat → Ticket) (a b : Nat → Word), Issues s (.fpost h o m) x →
    (∀ sp, c.spindle x.slot = some sp → ∀ l ∈ ls, ∃ f, sp.fibre l = some f ∧ f.ticket = some (tk l) ∧ f.answered = false) →
    (m.getLsbD 0 = false → ∀ l ∈ ls, srcVal c x o.a l = some (a l) ∧ srcVal c x o.b l = some (b l) ∧ (b l).toNat < 2 ^ 24 ∧
      ∀ v ∈ dataOf c x o.d.toNat 4 l, v.isPoison = false) →
    let post (l : Nat) : Post := if m.getLsbD 0 then { tk := tk l, mask := 0, slots := 0, colour := [], depth := .good 0, refused := false }
      else { tk := tk l, mask := (tk l).cover &&& (b l >>> 16).setWidth 8, slots := (b l).setWidth 16, colour := dataOf c x o.d.toNat 4 l,
             depth := .good (if m.getLsbD 1 then a l else (tk l).z), refused := false }
    (c.posts.length + ls.length ≤ 64 → ∃ t, exec (.fpost h o m) s = .next t ∧
      OwnRunner x (fun c c' => { c' with posts := c.posts }) s t
        (fun sp => ls.foldl (fun sp l => sp.onFibre l fun f => { f with answered := true }) sp) ∧
      (t.core x.core).posts = c.posts ++ ls.map post) ∧
    (64 < c.posts.length + ls.length → x.gt ≠ 0 → ∃ t, exec (.fpost h o m) s = .next t ∧ OwnSpindle x.core x.slot (fun _ c' => c') s t fun sp sp' =>
      WaitsAs x.lanes (.blocked (.postRoom ls.length)) x.mark sp' ∧ (∀ l, sp'.fibre l = sp.fibre l) ∧ Bystanders x.lanes sp sp'))

/-- R367, R370 to R372, R376, R340, R454, R486: a post at its home is discarded with a record where no ticket waits for it, parked
behind the head of its pixel's FIFO, refused while the parking store is full, and at the head applied, which pops the FIFO and
counts; POST_RESEND sends a refused post again; a `tmeth` pixel of a CLEAR of stencil stores its value's byte and nothing else; a PROG
method that returned writes the planes of its lanes with p1 and ends its application; a return trap ships a PROG spindle to a
core as a record of kind 2, and terminates a spindle with a loop record or a deeper frame. -/
def Obligations.PostsAndMethods : Prop := ∀ (s : State) (core k : Nat),
  let c := s.core core
  let at_ (p : Post) (f : Fifo) : Prop := f.ctx = p.tk.ctx ∧ f.target = p.tk.target ∧ f.px = p.tk.px ∧ f.py = p.tk.py
  let popped (f : Fifo) : List Fifo := if f.tks.length ≤ 1 then [] else [{ f with tks := f.tks.drop 1 }]
  let counted (bank : Nat) (t : State) : Prop := (t.mreg bank) = { s.mreg bank with applied := (s.mreg bank).applied + 1 } ∧
    ∀ b, b ≠ bank → t.mreg b = s.mreg b
  (∀ p, c.posts[k]? = some p →
    let took (v : Option Post) (t : State) : Prop := (∀ r, r ≠ core → t.core r = s.core r) ∧
      t.core core = { c with posts := c.posts.take k ++ v.toList ++ c.posts.drop (k + 1) }
    (∃ t, exec (.postResend core k) s = .next t ∧ took (some { p with refused := false }) t ∧ { t with cores := s.cores } = s) ∧
    (p.refused = true → exec (.postArrival core k) s = .next s) ∧
    (p.refused = false → (∀ f ∈ s.fifos, at_ p f → ∀ u ∈ f.tks, u.key ≠ p.tk.key) → ∃ t, exec (.postArrival core k) s = .next t ∧ took none t ∧
      t.recq = s.recq ++ [{ agentRec p.tk.ctx 3 23 (2 + p.tk.key * 2 ^ 32) 0 p.tk.target.toNat with
                              lseq := p.tk.lseq, core := core, wid := p.tk.wid }] ∧
      { t with cores := s.cores, recq := s.recq } = s) ∧
    (∀ l f r, p.refused = false → s.fifos = l ++ f :: r → at_ p f → (∀ g ∈ l ++ r, ¬ at_ p g) → (∃ u ∈ f.tks, u.key = p.tk.key) →
      let parked := (s.parked.filter fun q => q.tk.bank == f.bank).length
      ((∀ u, f.tks.head? = some u → u.key ≠ p.tk.key) → parked < 4096 → ∃ t, exec (.postArrival core k) s = .next t ∧ took none t ∧
        t.parked = s.parked ++ [p] ∧ { t with cores := s.cores, parked := s.parked } = s) ∧
      ((∀ u, f.tks.head? = some u → u.key ≠ p.tk.key) → 4096 ≤ parked → ∃ t, exec (.postArrival core k) s = .next t ∧
        took (some { p with refused := true }) t ∧ t.mreg f.bank = { s.mreg f.bank with refused := (s.mreg f.bank).refused + 1 } ∧
        { t with cores := s.cores, mregs := s.mregs } = s) ∧
      (∀ g, (∃ u, f.tks.head? = some u ∧ u.key = p.tk.key) → s.applWaits ⟨f.bank, p, true⟩ = false →
        (p.mask ≠ 0 → p.slots = 0 ∧
          (s.takePost core k).readTarget (bankDie f.bank) p.tk.ctx p.tk.target = (s.takePost core k, g)) →
        ∃ t, exec (.postArrival core k) s = .next t ∧ took none t ∧ t.fifos = l ++ popped f ++ r ∧ counted f.bank t ∧
          { t with cores := s.cores, fifos := s.fifos, mregs := s.mregs } = s))) ∧
  (∀ (e : Tmeth) (g : Target) (v : MethodSlot) (bank pa n : Nat) (l : Leaf), s.tmeths[k]? = some e → e.busy = false →
    s.readTarget (frontOf e.post.tk.px e.post.tk.py) e.post.tk.ctx e.post.tk.target = (s, some g) →
    s.pixelBank (frontOf e.post.tk.px e.post.tk.py) e.post.tk.ctx g e.post.tk.px e.post.tk.py = (s, bank) →
    s.applWaits ⟨bank, e.post, false⟩ = false → s.readTarget (bankDie bank) e.post.tk.ctx e.post.tk.target = (s, some g) →
    e.post.slotList = [n] → s.readSlot (bankDie bank) e.post.tk.ctx g n = (s, some v) → v.kind = 4 → v.pl = 5 → g.lsmp = 0 →
    e.post.tk.px < g.w → e.post.tk.py < g.h → e.post.mask.getLsbD 0 = true →
    s.translateHw (bankDie bank) e.post.tk.ctx (g.sampleVa 5 e.post.tk.px e.post.tk.py 0) .write = (s, .ok (pa, l)) →
    isHost pa = true → l.hc = false → s.hostOff = false →
    ∃ t, exec (.tmethApply k) s = .next t ∧ t.tmeths = s.tmeths.take k ++ s.tmeths.drop (k + 1) ∧ counted bank t ∧
      (∀ a, Memory.read t.host a = if a = pa - hostBase then BitVec.ofNat 8 v.p1 else Memory.read s.host a) ∧
      { t with tmeths := s.tmeths, mregs := s.mregs, host := s.host } = s) ∧
  (∀ (id : Nat) (p : Prog) (l r : List Fifo) (f : Fifo), s.progs.find? (fun q => q.id == id) = some p → p.ended = true → p.fromTk = true →
    s.fifos = l ++ f :: r → at_ p.post f → (∀ g ∈ l ++ r, ¬ at_ p.post g) →
    let u := { s with progs := s.progs.filter fun q => q.id != id }
    let ends (host : Memory) : Prop := ∃ t, exec (.progMethodReturn id) s = .next t ∧ t.progs = u.progs ∧ t.fifos = l ++ popped f ++ r ∧
      counted p.unit t ∧ t.host = host ∧ { t with progs := s.progs, fifos := s.fifos, mregs := s.mregs, host := s.host } = s
    (∀ g, p.trapped = true → u.readTarget (bankDie p.unit) p.post.tk.ctx p.post.tk.target = (u, g) → ends s.host) ∧
    (∀ (g : Target) (v : MethodSlot) (w b : Word) (more : List LWord) (pa : Nat) (lf : Leaf), p.trapped = false →
      u.readTarget (bankDie p.unit) p.post.tk.ctx p.post.tk.target = (u, some g) →
      u.readSlot (bankDie p.unit) p.post.tk.ctx g p.slot = (u, some v) → v.pl = 5 → g.lsmp = 0 → p.ret = [(0, .good w :: .good b :: more)] →
      (∀ q ∈ p.post.slotList, q ≤ p.slot) →
      u.translateHw (bankDie p.unit) p.post.tk.ctx (g.sampleVa 5 p.post.tk.px p.post.tk.py 0) .write = (u, .ok (pa, lf)) →
      isHost pa = true → lf.hc = false → u.hostOff = false →
      let host := if w.getLsbD 1 then Memory.write s.host (pa - hostBase) (b.setWidth 8) else s.host
      (∃ q, { u with host := host }.readTarget (bankDie p.unit) p.post.tk.ctx p.post.tk.target = ({ u with host := host }, q)) → ends host)) ∧
  (∀ (slot : Nat) (sp : Spindle) (b : Batch) (w : Workgroup) (f : Frame) (rest : SMap Spindle), c.spindles = (slot, sp) :: rest →
    sp.batches.find? (fun b => b.wait == .returnTrap) = some b → c.wg sp.wg = some w → sp.frames.head? = some f → isCore core = false →
    c.iq = [] → c.sbuf = [] → c.results = [] →
    ((sp.loops ≠ [] ∨ ∃ g ∈ sp.frames, g.depth ≠ 0) →
      let low := (sp.at_ (lowestLane b.lanes)).1
      let info : TrapInfo := { kind := 20, info := low, addr := 0, lanes := b.lanes, batch := b.lanes, pc := low, rpc := 0, iw := [], recVa := none }
      let q := { s.trapRec core slot info 0 with act := 1 }
      q.kind = 20 ∧ q.ctx = w.rcd.ctx ∧ q.info = low ∧
      ∀ v res, s.writeRecord q = (v, res) → (v.core core).wg sp.wg = some w → (v.core core).spindles = c.spindles →
        (res ≠ .full → ∃ t, exec (.returnTrap core) s = .next t ∧ { t with cores := v.cores } = v ∧
          (t.core core).wg sp.wg = some { w with killed := true } ∧
          ∀ sp', (t.core core).spindle slot = some sp' → ∀ l, l < 32 → sp'.fibre l = none) ∧
        (res = .full → b.lanes ≠ 0 → ∃ t sp', exec (.returnTrap core) s = .next t ∧ { t with cores := v.cores } = v ∧
          (t.core core).spindle slot = some sp' ∧ (∀ l, sp'.fibre l = sp.fibre l) ∧
          WaitsAs b.lanes (.trap info) false sp')) ∧
    (∀ id p, sp.loops = [] → (∀ g ∈ sp.frames, g.depth = 0) → w.rcd.unit = some id → p ∈ s.progs → p.id = id →
      let cl := runnerCluster core
      let q := SMap.get [] (s.cluster cl).queues w.rcd.ctx
      let m := core % 0x200
      let u := { s with progs := s.progs.map fun (e : Prog) => if e.id = id then { e with img := imageOf c sp f } else e }.setMreg m
        { s.mreg m with rtraps := (s.mreg m).rtraps + 1 }
      q.length < 64 → u.endRelease core = u → ∃ t r, exec (.returnTrap core) s = .next t ∧
        SMap.get [] (t.cluster cl).queues w.rcd.ctx = q ++ [r] ∧ r.kind = 2 ∧ r.unit = some id ∧ r.frm = f.rows - 1 ∧
        r.code = (sp.at_ (lowestLane sp.occupied)).1 ∧ r.lseq = w.rcd.lseq ∧ r.wid = w.rcd.wid ∧
        { p with img := imageOf c sp f } ∈ t.progs ∧ (t.mreg m).rtraps = (s.mreg m).rtraps + 1 ∧ (t.core core).wg sp.wg = none ∧
        (∀ e ∈ (t.core core).spindles, e.2.wg ≠ sp.wg)))

/-- R26 to R35, R39, R396, R425: a header written to its slot of a launch window, 128 bytes at once, is accepted in sequence or rejected
with a record; a write that covers no slot's first 8 bytes only changes the window; a write to the event vector clears the bits
written as 1; a launch whose events are all set is eligible; the launch unit queues the next workgroup of its share at the cluster whose
turn it is; a launch with nothing left to run completes and sets its events. -/
def Obligations.Launches : Prop := ∀ (s : State) (cx : Nat),
  let k := s.ctx cx
  let only (c : Context) (t : State) : Prop := { t with ctxs := s.ctxs } = s ∧ t.ctx cx = c ∧ ∀ j, j ≠ cx → t.ctx j = s.ctx j
  (∀ (off : Nat) (data : List (BitVec 8)), s.stopped = false →
    let window (c : Context) : Prop := ∀ b, b < 0xF80 → SMap.get 0 c.window b =
      if off ≤ b ∧ b < off + data.length then data.getD (b - off) 0 else SMap.get 0 k.window b
    ((∀ j, j < 31 → ¬ (off ≤ 128 * j ∧ 128 * j + 8 ≤ off + data.length)) → ∃ t c, exec (.launchWindowHeader cx off data) s = .next t ∧
      only { k with window := c.window } t ∧ window c) ∧
    (∀ j, j < 31 → off = 128 * j → data.length = 128 → s.pkcState ≠ 5 → ∃ t c, exec (.launchWindowHeader cx off data) s = .next t ∧
      window c ∧ only { k with window := c.window, rejected := k.rejected + 1 } t) ∧
    (∀ j, j < 31 → off = 128 * j → data.length = 128 → s.pkcState = 5 →
      let h := parseHeader (ofBytes data)
      (h.ok = true → (s.part (partOf cx)).en = true → h.rlev = 0 → k.waiting < 32 →
        ∃ t c, exec (.launchWindowHeader cx off data) s = .next t ∧ window c ∧
          only { k with window := c.window, nextLseq := k.nextLseq + 1, accepted := k.accepted + 1,
                        launches := k.launches ++ [{ hdr := h, lseq := k.nextLseq, eligible := h.waitm == 0, next := 0, total := h.share none,
                                                     live := 0, rank := none, ring := none }] } t) ∧
      (h.ok = false ∨ (s.part (partOf cx)).en = false → ∃ t c, exec (.launchWindowHeader cx off data) s = .next t ∧ window c ∧
        t.recq = s.recq ++ [agentRec cx 3 21 h.word3.toNat 0 (2 ^ 63 + 128 * j)] ∧
        only { k with window := c.window, rejected := k.rejected + 1 } { t with recq := s.recq }))) ∧
  (∀ off (v : BitVec 64), 2 ≤ s.pkcState → s.stopped = false → 0xF80 ≤ off → off < 0xFA0 → ∃ t e, exec (.eventWindowWrite cx off v) s = .next t ∧
    only { k with ev := e } t ∧ ∀ b, b < 256 → e.getLsbD b =
      (k.ev.getLsbD b && !(decide (8 * (off - 0xF80) ≤ b) && v.getLsbD (b - 8 * (off - 0xF80))))) ∧
  ∀ (lseq : Nat) (l : Launch), s.launch cx lseq = some l →
    let changed (f : Launch) (t : State) : Prop := (∃ ls, only { k with launches := ls } { t with clusters := s.clusters, nextSeq := s.nextSeq }) ∧
      t.launch cx lseq = some f ∧ ∀ n, n ≠ lseq → t.launch cx n = s.launch cx n
    ((∀ b, b < 256 → l.hdr.waitm.getLsbD b = true → k.ev.getLsbD b = true) → ∃ t, exec (.launchEligible cx lseq) s = .next t ∧
      changed { l with eligible := true } t) ∧
    ((∃ b, b < 256 ∧ l.hdr.waitm.getLsbD b = true ∧ k.ev.getLsbD b = false) → exec (.launchEligible cx lseq) s = .next s) ∧
    (∀ cl r, s.running = true → (s.part (partOf cx)).en = true → (s.part (partOf cx)).held = false → l.eligible = true → l.next < l.total → l.ring = none →
      l.hdr.coop = false → s.shareRecord cx l l.next = some (cl, r) →
      let q := SMap.get [] (s.cluster cl).queues cx
      q.length < 8 → ∃ t, exec (.workgroupExpand cx lseq) s = .next t ∧ changed { l with next := l.next + 1, live := l.live + 1 } t ∧
        cl = (s.clustersOf (partOf cx)).getD (l.next % (s.clustersOf (partOf cx)).length) 0 ∧
        SMap.get [] (t.cluster cl).queues cx = q ++ [{ r with stamp := s.nextSeq }] ∧ r.kind = 0 ∧ r.code = l.hdr.code ∧ r.frm = l.hdr.frm ∧
        r.scr = l.hdr.scr ∧ r.cnt = 32 * l.hdr.spindles - 1 ∧ r.lseq = lseq ∧ r.ctx = cx ∧
        (∀ c, c ≠ cl → t.cluster c = s.cluster c) ∧ ∀ c, c ≠ cx → SMap.get [] (t.cluster cl).queues c = SMap.get [] (s.cluster cl).queues c) ∧
    (l.eligible = true → l.next = l.total → l.live = 0 → ∃ t, exec (.launchComplete cx lseq) s = .next t ∧
      only { k with launches := k.launches.filter fun n => n.lseq != lseq, ev := k.ev ||| l.hdr.setm } t)

/-- R28, R35 to R38, R40 to R44, R341: the head record of a core's queues starts where there is room, every row and word of scratchpad
zero but v1 to v3 of its fibres; a record that may not start is dropped with a record; a workgroup ends once nothing of it is left:
its launch counts one less, its frames and slots are free, and its join block, where it has one, is decremented, and at 0 fires its
successor record while the workgroup's resources stay held. -/
def Obligations.Workgroups : Prop := ∀ (s : State) (core : Nat),
  let c := s.core core
  (∀ (r : Record), s.running = true → core < 1536 → s.headRecord core = some r → r.ring = none →
    let cl := clusterOf core
    let left (t : State) : Prop :=
      SMap.get [] (t.cluster cl).queues r.ctx = (SMap.get [] (s.cluster cl).queues r.ctx).filter (fun q => q.stamp != r.stamp)
    (∀ (p : Placement) (slot base : Nat), r.bad = false → s.mayPop r = true → c.place false r = some p → p.spots = [(slot, base)] →
      r.kind ≤ 1 → r.tks = [] →
      let arg : BitVec 64 := if r.kind = 0 then ((s.launch r.ctx r.lseq).map fun l => l.hdr.argp).getD 0 else r.framep
      let n := 8 * ((r.frm + 8) / 8)
      ∃ t sp w, exec (.admission core) s = .next t ∧ { t with cores := s.cores, clusters := s.clusters } = s ∧ left t ∧
        (∀ j, j ≠ core → t.core j = s.core j) ∧ (t.core core).spindle slot = some sp ∧ (t.core core).wg c.nextWg = some w ∧
        w.rcd = r ∧ w.argp = arg ∧ w.slots = [slot] ∧ w.scrBase = p.scr ∧ w.ctag = BitVec.allOnes 64 ∧ w.nmcnt = 0 ∧ w.halted = false ∧
        sp.wg = c.nextWg ∧ sp.seg = 5 ∧ sp.loops = [] ∧ (∀ l, l < 32 → s.startsAt r l = false → sp.fibre l = none) ∧
        (∀ l, l < 32 → s.startsAt r l = true → ∃ f, sp.fibre l = some f ∧ f.pc = r.code ∧ f.base = base ∧ f.rows = n ∧ f.wid = s.widOf r l ∧
          f.ticket = none) ∧
        (∀ row l, l < 32 → (t.core core).row row l =
          if base ≤ row ∧ row < base + n then
            (if s.startsAt r l = true then
              (if row = base + 1 then .good 1 else if row = base + 2 then .good (arg.setWidth 32)
               else if row = base + 3 then .good ((arg >>> 32).setWidth 32) else .good 0)
             else .good 0)
          else c.row row l) ∧
        (∀ a, (t.core core).scr a = if p.scr * 512 ≤ a ∧ a < (p.scr + r.scr) * 512 then .good 0 else c.scr a) ∧
        Acquired true 0xFF c (t.core core)) ∧
    (r.bad = true → r.joinp = 0 → r.tks = [] → ∃ t, exec (.admission core) s = .next t ∧ left t ∧ t.cores = s.cores ∧
      t.recq = s.recq ++ [{ agentRec r.ctx 3 22 (numOf r.words / 2 ^ 192) 0 r.src.toNat with lseq := r.lseq, core := core, wid := r.wid }] ∧
      ∀ l, s.launch r.ctx r.lseq = some l → t.launch r.ctx r.lseq = some { l with live := l.live - 1 })) ∧
  ∀ (wg : Nat) (w : Workgroup), c.wg wg = some w → w.ending = false → w.killed = false → c.liveFibres wg = 0 → (∀ o ∈ c.iq, o.wg ≠ wg) →
    (∀ e ∈ c.sbuf, e.wg ≠ wg) → (∀ j ∈ (s.cluster (runnerCluster core)).jobs, ¬ (j.core = core ∧ j.wg = wg)) →
    (∀ e ∈ s.tmeths, ¬ (e.core = core ∧ e.wg = wg)) → c.spilled = [] → s.fired = [] →
    s.endRelease core = s → w.rcd.unit = none → w.rcd.home = none → w.rcd.tks = [] →
    let counted (t : State) : Prop := ∀ l, s.launch w.rcd.ctx w.rcd.lseq = some l →
      t.launch w.rcd.ctx w.rcd.lseq = some { l with live := l.live - 1 }
    let freed (t : State) : Prop := (t.core core).wg wg = none ∧ (∀ e ∈ (t.core core).spindles, e.2.wg ≠ wg) ∧
      (∀ e ∈ c.spindles, e.2.wg ≠ wg → e ∈ (t.core core).spindles) ∧ ∀ g, g ≠ wg → (t.core core).wg g = c.wg g
    (w.rcd.joinp = 0 → ∃ t, exec (.workgroupEnd core wg) s = .next t ∧ { t with cores := s.cores, ctxs := s.ctxs } = s ∧ counted t ∧ freed t) ∧
    (∀ pa l lo hi, w.rcd.joinp ≠ 0 → s.translateHw (clusterDie (runnerCluster core)) w.rcd.ctx w.rcd.joinp.toNat .atomic = (s, .ok (pa, l)) →
      s.hostBlocks (pa / 4) true = false → s.hostBlocks (pa / 4 + 1) true = false → s.ensureLine (some w.rcd.ctx) pa (s.ctx w.rcd.ctx).ks l.sl = (s, true) → pa % 8 = 0 → InL2 s (pa / 4) → s.regAt (pa / 4) = none →
      s.regAt (pa / 4 + 1) = none → s.l2Word (pa / 4) = .good lo → s.l2Word (pa / 4 + 1) = .good hi →
      (¬ (lo = 1 ∧ hi = 0) → ∃ t, exec (.workgroupEnd core wg) s = .next t ∧ counted t ∧ freed t ∧ t.fired = [] ∧
        t.l2Word (pa / 4) = .good (lo - 1) ∧ t.l2Word (pa / 4 + 1) = .good (if lo = 0 then hi - 1 else hi)) ∧
      (∀ ws n, lo = 1 → hi = 0 →
        let u := (s.atomWrite 0xFFFF (pa / 4) (.good 0)).atomWrite 0xFFFF (pa / 4 + 1) (.good 0)
        u.readVas (clusterDie (runnerCluster core)) w.rcd.ctx (w.rcd.joinp.toNat + 32) 8 = (u, .ok ws) → cardNum ws = some n →
        ∃ t, exec (.workgroupEnd core wg) s = .next t ∧ (t.core core).wg wg = some { w with ending := true } ∧
          t.l2Word (pa / 4) = .good 0 ∧ t.l2Word (pa / 4 + 1) = .good 0 ∧
          t.fired = [{ cl := runnerCluster core, rcd := parseRecord n w.rcd w.rcd.wid w.rcd.joinp, from_ := some (core, wg) }]))

/-- R352, R459, R460, R466, R470: an ended slice renews for a holder that is next in rotation, and otherwise halts the holder's
workgroups and leaves the partition without one; a started collective defers the end, at most 1,800,000 ticks; the next context
with work takes the slice for its length, and its workgroups that are whole resume. -/
def Obligations.Slices : Prop := ∀ (s : State) (p h : Nat),
  let q := s.part p
  let cx := 16 * p + h
  let only (r : Partition) (t : State) : Prop := t.part p = r ∧ ∀ k, k ≠ p → t.part k = s.part k
  let halts (e : Instr) : Prop := ∃ t, exec e s = .next t ∧ only { q with holder := none, last := h, deferred := none } t ∧
    (∀ r g w, isCore r = true → (s.core r).wg g = some w → w.rcd.ctx = cx → (t.core r).wg g = some { w with halted := true }) ∧
    (∀ cl id j, s.job cl id = some j → j.ctx = cx → (∀ o f ps, j.kind ≠ .row o f ps) → t.job cl id = some { j with halted := true }) ∧
    { t with parts := s.parts, cores := s.cores, clusters := s.clusters } = s
  let renews (e : Instr) : Prop := ∃ t, exec e s = .next t ∧ { t with parts := s.parts } = s ∧
    only { q with until_ := s.tick + BitVec.ofNat 64 (s.ctx cx).sliceLen, deferred := none } t
  let due : Prop := s.running = true ∧ q.until_.toNat ≤ s.tick.toNat
  let noTile : Prop := ∀ j ∈ s.jobsOf cx, ∀ c, j.2.kind ≠ .tile c
  let collective : Prop := ∃ j ∈ s.jobsOf cx, j.2.status = .started ∧ ∃ c, j.2.kind = .coll c
  (q.holder = some h →
    (due → ¬ collective → s.nextHolder p h = some h → renews (.sliceEnd p)) ∧
    (s.running = true → due ∨ s.hasWork cx = false → noTile → ¬ collective → s.nextHolder p h ≠ some h → halts (.sliceEnd p)) ∧
    (due → collective → q.deferred = none → ∃ t, exec (.sliceEnd p) s = .next t ∧ { t with parts := s.parts } = s ∧
      only { q with deferred := some s.tick } t) ∧
    (due → collective → q.deferred.isSome = true → exec (.sliceEnd p) s = .next s) ∧
    (s.running = true → ¬ due → s.hasWork cx = true → exec (.sliceEnd p) s = .next s) ∧
    (∀ e, q.deferred = some e → e.toNat + 1800000 ≤ s.tick.toNat →
      (q.until_.toNat ≤ s.tick.toNat → s.nextHolder p h = some h → renews (.collectiveDeferTimeout p)) ∧
      (noTile → s.nextHolder p h ≠ some h → halts (.collectiveDeferTimeout p))) ∧
    (∀ e, q.deferred = some e → s.tick.toNat < e.toNat + 1800000 → exec (.collectiveDeferTimeout p) s = .next s)) ∧
  (s.running = true → q.en = true → q.held = false → q.holder = none → s.nextHolder p q.last = some h →
    (∀ j ∈ s.jobsOf cx, j.2.halted = false) → ∃ t, exec (.sliceTake p) s = .next t ∧ { t with parts := s.parts, cores := s.cores } = s ∧
      only { q with holder := some h, until_ := s.tick + BitVec.ofNat 64 (s.ctx cx).sliceLen } t ∧
      ∀ r g w, isCore r = true → (s.core r).wg g = some w → w.rcd.ctx = cx → w.halted = true → s.mayResume r g w = true →
        (t.core r).wg g = some { w with halted := false }) ∧
  (q.holder.isSome = true ∨ q.en = false ∨ q.held = true ∨ s.nextHolder p q.last = none → exec (.sliceTake p) s = .next s)

/-- R467 to R469: a write with `go` begins a change of a partition's clusters: it has the new ones at once, and the records queued at a
leaving cluster go to the lowest remaining one; it completes at once where nothing leaves or nothing runs that must, and by SHRINK_COMPLETE
once no workgroup of the partition is left on a leaving cluster. -/
def Obligations.ClusterChanges : Prop := ∀ (s : State) (p : Nat) (v : BitVec 64),
  let q := s.part p
  let only (r : Partition) (t : State) : Prop := t.part p = r ∧ ∀ k, k ≠ p → t.part k = s.part k
  let go : Prop := 2 ≤ s.pkcState ∧ s.stopped = false ∧ p < 20 ∧ v.getLsbD 0 = true ∧ q.pend = false ∧ q.en = true ∧
    ∀ k, k < 20 → k ≠ p → (s.part k).en = true → (s.part k).clm &&& (q.tclm &&& ~~~q.clm) = 0
  let moved (a b : Nat) (t : State) : Prop := ∀ k, k < 16 → SMap.get [] (t.cluster a).queues (16 * p + k) = [] ∧
    SMap.get [] (t.cluster b).queues (16 * p + k) = SMap.get [] (s.cluster b).queues (16 * p + k) ++ SMap.get [] (s.cluster a).queues (16 * p + k)
  (go → q.clm &&& ~~~q.tclm = 0 → v.getLsbD 1 = false → ∃ t, exec (.pshrGo p v) s = .next t ∧ { t with parts := s.parts } = s ∧
    only { q with clm := q.tclm, pend := false, force := false } t) ∧
  (∀ a b, go → v.getLsbD 1 = false → a < 128 → b < 128 → q.clm &&& ~~~q.tclm = (1 : BitVec 128) <<< a → q.tclm.getLsbD b = true →
    (∀ k, k < b → q.tclm.getLsbD k = false) → ∃ t, exec (.pshrGo p v) s = .next t ∧ { t with parts := s.parts, clusters := s.clusters } = s ∧
      only { q with clm := q.clm ||| q.tclm, pend := true, force := false } t ∧ moved a b t ∧ ∀ c, c ≠ a → c ≠ b → t.cluster c = s.cluster c) ∧
  (go → v.getLsbD 1 = true → s.wgsOfPart p = [] → ∃ t, exec (.pshrGo p v) s = .next t ∧ { t with parts := s.parts, clusters := s.clusters } = s ∧
    only { q with clm := q.tclm, pend := false, force := true } t) ∧
  (q.pend = true ∨ q.en = false ∨ v.getLsbD 0 = false → exec (.pshrGo p v) s = .next s) ∧
  (q.pend = true → (∀ w ∈ s.wgsOfPart p, ¬ (q.clm.getLsbD (clusterOf w.1) = true ∧ q.tclm.getLsbD (clusterOf w.1) = false)) →
    ∃ t, exec (.shrinkComplete p) s = .next t ∧ { t with parts := s.parts, clusters := s.clusters } = s ∧
      only { q with clm := q.tclm, pend := false } t) ∧
  (∀ w ∈ s.wgsOfPart p, q.clm.getLsbD (clusterOf w.1) = true → q.tclm.getLsbD (clusterOf w.1) = false → exec (.shrinkComplete p) s = .next s)

/-- R431, R432, R463 to R466: where the head record has no free room, the units of halted workgroups in its way, none of a current context, are spilled, which zeroes
what they held, and it starts in their place; a spilled unit goes back to its place with its poisoned words poison; the spill
engine puts back a spilled spindle whose rows are free, takes the rows of a younger spindle for the oldest request of a starved
quarter, and raises the frame trap where there is none. -/
def Obligations.SpillsAndRestores : Prop := ∀ (s : State) (core : Nat),
  let c := s.core core
  (∀ (r : Record) (p : Placement), s.running = true → core < 1536 → s.headRecord core = some r → r.ring = none → r.bad = false →
    s.mayPop r = true → c.place false r = none → (s.claimView core).place true r = some p →
    let n := 8 * ((r.frm + 8) / 8)
    let frames := p.spots.map fun e => (e.2, n)
    let granules := (List.range r.scr).map (p.scr + ·)
    (∀ u, s.claimUnits core (p.spots.map Prod.fst) frames granules = some u → exec (.claim core) s = .next (u.place core r p)) ∧
    (∀ (slot base : Nat) (sp : Spindle) (w : Workgroup), p.spots = [(slot, base)] → r.kind ≤ 1 → r.tks = [] → s.jobsSettling core = false →
      c.unitsIn [slot] frames granules = ([slot], []) → c.spindle slot = some sp → c.wg sp.wg = some w → w.halted = true →
      s.current w.rcd.ctx = false → s.spindleBusy core slot = false → ∃ t np nw, exec (.claim core) s = .next t ∧
        (t.core core).spindle slot = some np ∧ np.wg = c.nextWg ∧ (t.core core).wg c.nextWg = some nw ∧ nw.rcd = r ∧ nw.slots = [slot] ∧
        (∀ l, l < 32 → s.startsAt r l = true → ∃ f, np.fibre l = some f ∧ f.pc = r.code ∧ f.base = base ∧ f.rows = n) ∧
        (∀ l, l < 32 → s.startsAt r l = false → np.fibre l = none) ∧
        ∀ row l, base + 4 ≤ row → row < base + n → l < 32 → (t.core core).row row l = .good 0) ∧
    (s.jobsSettling core = true → exec (.claim core) s = .next s)) ∧
  (∀ (slots : List Nat) (frames : List (Nat × Nat)) (granules : List Nat) (u : State),
    s.claimUnits core slots frames granules = some u → u.recq = s.recq →
    (∀ g k, c.unitsIn slots frames granules = ([], [(g, k)]) → (u.core core).spilled = c.spilled ++ [.granule g k] ∧
      ∀ i, i < 512 → (u.core core).scr (512 * k + i) = .good 0) ∧
    (∀ slot sp, c.unitsIn slots frames granules = ([slot], []) → c.spindle slot = some sp → (u.core core).spindle slot = none ∧
      (∃ cpy, (u.core core).spilled = c.spilled ++ [.spindle sp.wg slot sp cpy]) ∧
      ∀ row ∈ sp.heldRows, ∀ l, l < 32 → (u.core core).row row l = .good 0)) ∧
  (∀ (cx g k : Nat) (w : Workgroup) (ws ms : List LWord), s.running = true → s.current cx = true →
    (s.part (partOf cx)).clm.getLsbD (clusterOf core) = true → c.spilled = [.granule g k] → c.wg g = some w → w.rcd.ctx = cx →
    (∀ e ∈ c.wgs, e.2.scrBase ≤ k → k < e.2.scrBase + e.2.rcd.scr → e.1 = g) → (∀ j ∈ s.jobsOf cx, j.2.halted = false) →
    let u := s.setCore core { c with spilled := [] }
    u.readVas (dieOf core) cx (((s.ctx cx).spill + 0x300000000 + core * 0x80000 + k * 0x800) % 2 ^ 64) 512 = (u, .ok ws) →
    u.readVas (dieOf core) cx (((s.ctx cx).spill + 0x330000000 + core * 0x4000 + k * 64) % 2 ^ 64) 16 = (u, .ok ms) →
    ∃ t, exec (.restore core cx) s = .next t ∧ { t with cores := s.cores } = s ∧ (t.core core).spilled = [] ∧
      ∀ i, i < 512 → (t.core core).scr (512 * k + i) =
        if (ms.getD (i / 32) .poison).isPoison = true ∨ (ms.getD (i / 32) .poison).val.getLsbD (i % 32) = true then .poison
        else ws.getD i .poison) ∧
  (∀ (cx g slot : Nat) (sp : Spindle) (cpy : Option (BitVec 64)) (w : Workgroup) (v : State), s.running = true → s.current cx = true →
    (s.part (partOf cx)).clm.getLsbD (clusterOf core) = true → c.spilled = [.spindle g slot sp cpy] → c.wg g = some w → w.rcd.ctx = cx →
    s.jobsSettling core = false → c.unitsIn [slot] (if sp.spilled then [] else sp.frames.map fun (f : Frame) => (f.base, f.rows)) [] = ([], []) →
    (∀ j ∈ s.jobsOf cx, j.2.halted = false) →
    let u := s.setCore core { ({ c with spilled := [] } : Core).setSpindle slot sp with
      cpybase := cpy.getD c.cpybase, cpyWg := if cpy.isSome then some g else c.cpyWg }
    (sp.spilled = false → u.unspillRows core slot cx sp.heldRows = (v, none)) → (sp.spilled = true → v = u) →
    (∀ j ∈ v.jobsOf cx, j.2.halted = false) →
    ∃ t, exec (.restore core cx) s = .next t ∧ { t with cores := v.cores } = v ∧ (t.core core).spilled = (v.core core).spilled ∧
      (t.core core).spindles = (v.core core).spindles ∧ ∀ row l, (t.core core).row row l = (v.core core).row row l) ∧
  (∀ cx, s.current cx = false → exec (.restore core cx) s = .next s) ∧
  ∀ (q : Nat), s.running = true → isCore core = true →
    let rs := s.rowRequests core q
    let ctxOf (sp : Spindle) : Nat := ((c.wg sp.wg).getD default).rcd.ctx
    (∀ a sp v, oldestReq (rs.filter (c.fits q)) = some a → a.frames ≠ [] → c.spindle a.slot = some sp →
      (s.setCore core (c.setSpindle a.slot { sp with spilled := false })).unspillRows core a.slot (ctxOf sp) sp.heldRows = (v, none) →
      exec (.spill core q) s = .next v) ∧
    (∀ a y sp u, oldestReq (rs.filter (c.fits q)) = none → s.starved core q = true → oldestReq rs = some a → s.youngest core q a.slot = some y →
      s.engineIn core y = false → s.spindleBusy core y = false → c.spindle y = some sp →
      (∃ t sp', exec (.spill core q) s = .next t ∧ (t.core core).spindle y = some sp' ∧ sp'.spilled = true) ∧
      (s.spillRows core y (ctxOf sp) sp.heldRows = (u, none) → ∃ t, exec (.spill core q) s = .next t ∧ { t with cores := u.cores } = u ∧
        (t.core core).spindle y = some { sp with spilled := true } ∧ ∀ row ∈ sp.heldRows, ∀ l, l < 32 → (t.core core).row row l = .good 0)) ∧
    (∀ a sp b w dem args target iw, oldestReq (rs.filter (c.fits q)) = none → s.starved core q = true → oldestReq rs = some a →
      s.youngest core q a.slot = none → a.frames = [] → c.spindle a.slot = some sp → sp.batchOf (lowestLane a.lanes) = some b →
      b.wait = .call dem args target iw → c.wg sp.wg = some w →
      let pc := (sp.at_ (lowestLane a.lanes)).1
      let q_ := { s.trapRec core a.slot { kind := 18, info := BitVec.ofNat 64 dem, addr := 0, lanes := a.lanes, batch := a.lanes, pc := pc,
                                          rpc := pc, iw := iw.map (BitVec.ofNat 32), recVa := none } 0 with act := 1 }
      q_.kind = 18 ∧ q_.ctx = w.rcd.ctx ∧ q_.info = BitVec.ofNat 64 dem ∧
      ∀ v res, s.writeRecord q_ = (v, res) → res ≠ .full → (v.core core).wg sp.wg = some w →
        ∃ t, exec (.spill core q) s = .next t ∧ { t with cores := v.cores } = v ∧
          (t.core core).wg sp.wg = some { w with killed := true }) ∧
    (rs = [] → exec (.spill core q) s = .next s)

/-- R59, R71, R85, R116, R126 to R133, R149 to R151: a walk puts the page's leaf into the TLBs of the core and its cluster; a fill
places the lines of a block that were absent; a pinned line stays, a written-back host line gives its words to host memory, a view line
is dropped, and a whole sealed block is stored as ciphertext under a new version; a metadata row is stored under the next version of its
parent's entry, and stays at its last version; a re-key walk goes on block by block and ends with the pending key; a view line is made from its source; a write of a format range
drops the lines that the old and the new range cover. -/
def Obligations.FillsAndWritebacks : Prop := ∀ (s : State),
  (∀ (core cx : Nat) (va : BitVec 64) (l : Leaf) (u : State), s.running = true → s.current cx = true → isCore core = true →
    canonical va.toNat = true → findLeaf (s.core core).tlb cx va.toNat = none →
    findLeaf (s.cluster (clusterOf core)).tlb cx va.toNat = none →
    (s.count (cntCore core 6) 1).walk (dieOf core) cx va.toNat = (u, .ok l) → ∃ t, exec (.translationWalk core cx va) s = .next t ∧
      { t with cores := u.cores, clusters := u.clusters } = u ∧ findLeaf (t.core core).tlb cx va.toNat = some l ∧
      findLeaf (t.cluster (clusterOf core)).tlb cx va.toNat = some l ∧ { t.core core with tlb := (u.core core).tlb } = u.core core) ∧
  (∀ (core cx : Nat) (va : BitVec 64), (findLeaf (s.core core).tlb cx va.toNat).isSome = true →
    exec (.translationWalk core cx va) s = .next s) ∧
  (∀ (pa ks way : Nat) (sl : Bool) (e : Nat × Place) (u v : State) (b : List (BitVec 8)), isHbm pa = true → s.rowBusy (pa / 4) = false →
    s.behindView (pa / 2048) = false → s.requests.find? (fun e => e.2.asks (pa / 2048) sl && (s.ctx e.1).ks == ks) = some e →
    (∀ l, SMap.find s.l2 (pa / 128) = some l → l.view = true) →
    s.fillBlock (some e.1) (pa / 4 * 4) (2 ^ (pa / 4 % 32)) ks sl = (u, .bytes b) →
    u.l2Room (some e.1) (homeBank (pa / 2048 * 2048)) 16 = (v, way) → (∀ e ∈ v.privWords, e.1 / 32 ≠ pa / 128) →
    ∃ t, exec (.fill pa ks sl) s = .next t ∧
      { t with l2 := v.l2 } = v ∧ ∀ i, i < 16 → SMap.find t.l2 (pa / 2048 * 16 + i) = some ((SMap.find v.l2 (pa / 2048 * 16 + i)).getD
        { ws := (((wordsOf 512 b).map LWord.good).drop (32 * i)).take 32, dirty := false, ks := ks, view := false, first := false, way := way })) ∧
  (∀ (pa : Nat) (l : L2Line), SMap.find s.l2 (pa / 128) = some l →
    (s.pinned (pa / 128) = true → exec (.blockWriteback pa) s = .next s) ∧
    (l.view = true → isHbm pa = true → s.pinned (pa / 128) = false →
      ∃ t, exec (.blockWriteback pa) s = .next t ∧ { t with l2 := s.l2 } = s ∧ SMap.find t.l2 (pa / 128) = none) ∧
    (l.view = false → isHbm pa = false → pa % 128 = 0 → hostBase ≤ pa → s.hostOff = false → (∀ e ∈ s.regst, e.1 / 32 ≠ pa / 128) →
      l.dirty = true → l.ws.length = 32 → ∃ t, exec (.blockWriteback pa) s = .next t ∧ { t with l2 := s.l2, host := s.host, cacheLines := s.cacheLines } = s ∧
        SMap.find t.l2 (pa / 128) = none ∧ SMap.find t.cacheLines (pa / 128) = none ∧
        (∀ k v, k < 128 → l.ws.getD (k / 4) .poison = .good v → Memory.read t.host (pa - hostBase + k) = (v >>> (8 * (k % 4))).setWidth 8) ∧
        ∀ a, a < pa - hostBase ∨ pa - hostBase + 128 ≤ a → Memory.read t.host a = Memory.read s.host a) ∧
    (∀ (m : Meta) (u : State) (ls : Nat → L2Line), l.view = false → isHbm pa = true → s.behindView (pa / 2048) = false →
      (∀ e ∈ s.regst, e.1 / 512 = pa / 2048 → e.2.isJ = false) →
      (∀ i, i < 16 → SMap.find s.l2 (pa / 2048 * 16 + i) = some (ls i) ∧ (ls i).view = false ∧ (ls i).ws.length = 32 ∧ ∀ w ∈ (ls i).ws, w.isPoison = false) →
      (∃ i, i < 16 ∧ (ls i).dirty = true) → s.getMeta (pa / 2048) = (u, some m) → m.ver < 2 ^ 44 - 1 →
      let p := bytesOf ((List.range 16).flatMap fun i => (ls i).ws)
      let c := if m.o then p else xorBytes p (keystream (u.keysFor m.kslot m.kgen (pa / 2048)).1 (m.ver + 1))
      ∃ t n, exec (.blockWriteback pa) s = .next t ∧ t.hbm = Memory.writeBytes u.hbm (pa / 2048 * 2048) c ∧
        (∀ i, i < 16 → SMap.find t.l2 (pa / 2048 * 16 + i) = none) ∧ t.host = s.host ∧ t.regst = s.regst ∧
        (t.getMeta (pa / 2048)).2 = some n ∧ n.ver = m.ver + 1 ∧ n.nonce = m.ver + 1 ∧ n.z = false ∧ n.kslot = m.kslot ∧ n.kgen = m.kgen)) ∧
  (∀ (row : Nat) (m : MRow), SMap.find s.mcache row = some m →
    (∀ i, m.dirty = false → parentOf row = .root i → (SMap.find s.root i).all (fun e => decide (e.nver < 2 ^ 44 - 1)) = true →
      ∃ t, exec (.metadataRowWriteback row) s = .next t ∧ { t with mcache := s.mcache } = s ∧ SMap.find t.mcache row = none) ∧
    (∀ i e, parentOf row = .root i → SMap.find s.root i = some e → e.ngen = 15 → e.nver = 2 ^ 44 - 1 →
      exec (.metadataRowWriteback row) s = .next s) ∧
    (∀ i, m.dirty = true → parentOf row = .root i →
      let old := (SMap.find s.root i).getD { ntag := 0, ngen := 0, nver := 0 }
      old.nver < 2 ^ 44 - 1 →
      let c := xorBytes ((s.rowEnts row m).flatMap (toBytes 32)) (keystream (s.keysFor 0 old.ngen row).1 (old.nver + 1))
      ∃ t, exec (.metadataRowWriteback row) s = .next t ∧ { t with mcache := s.mcache, hbm := s.hbm, root := s.root, rowsKept := s.rowsKept } = s ∧
        SMap.find t.mcache row = none ∧ SMap.find t.rowsKept row = some true ∧ t.hbm = Memory.writeBytes s.hbm (row * 2048) c ∧ SMap.find t.root i =
          some { ntag := rowTag (s.keysFor 0 old.ngen row).2 c row (old.nver + 1) old.ngen, ngen := old.ngen, nver := old.nver + 1 })) ∧
  (∀ (k : Nat),
    let key := s.key k
    let blk := key.cursor
    let mine : Prop := (s.part key.part).pcg.getLsbD (homeBank (blk * 2048)) = true ∧ paRow (blk * 2048) < 496 ∧
      s.behindView blk = false ∧ s.rowBusy (blk * 2048 / 4) = false
    key.st = .rekeying →
    (2 ^ 30 ≤ blk → ∃ t, exec (.rekeyWalkBlock k) s = .next t ∧ { t with keys := s.keys } = s ∧
      t.key k = { key with st := .active, key := key.next, next := 0, cursor := 0 }) ∧
    (blk < 2 ^ 30 → s.rowBusy (blk * 2048 / 4) = true → exec (.rekeyWalkBlock k) s = .next s) ∧
    (blk < 2 ^ 30 → s.rowBusy (blk * 2048 / 4) = false → ¬ mine → ∃ t, exec (.rekeyWalkBlock k) s = .next t ∧ { t with keys := s.keys } = s ∧
      t.key k = { key with cursor := blk + 1 }) ∧
    (∀ u m, blk < 2 ^ 30 → mine → s.getMeta blk = (u, some m) → m.kslot = k → m.z = true → ∃ t n, exec (.rekeyWalkBlock k) s = .next t ∧
      t.key k = { key with cursor := blk + 1 } ∧ t.hbm = u.hbm ∧ (t.getMeta blk).2 = some n ∧ n.kgen = 0 ∧ n.ver = 0 ∧ n.x = false ∧
      n.z = true ∧ n.kslot = k ∧ n.p = (m.p || decide (m.otag ≠ outerTag (u.keysFor k m.kgen blk).2 blk m)))) ∧
  (∀ (pa n way : Nat) (e : Nat × Place) (u v : State) (ws : List LWord), s.requests.find? (fun e => match e.2 with
      | .mem p _ _ true _ _ => p / 128 == pa / 128
      | _ => false) = some e → (∀ l, SMap.find s.l2 (pa / 128) = some l → l.view = false) → s.viewReg pa = some n →
    s.makeView (some e.1) n (pa / 128 * 128) = (u, ws) → u.l2Room (some e.1) (homeBank pa) 1 = (v, way) →
    ∃ t, exec (.viewLineFill pa) s = .next t ∧ { t with l2 := v.l2 } = v ∧
      SMap.find t.l2 (pa / 128) = some { ws := ws, dirty := false, ks := 65, view := true, first := false, way := way }) ∧
  ∀ (n w : Nat) (v : BitVec 64), 2 ≤ s.pkcState → s.stopped = false → n < 16 → w < 4 →
    let old := (SMap.get 0 s.frr (4 * n)).toNat
    let mask : BitVec 64 := if w = 0 then 0xF00FFFFFFFFFFFFF else if w = 1 then 0x000FFFFFFFFFC000 else if w = 2 then 0xFC0FFFFFFFFFFC00
      else 0x000FFFFFFFFFFC00
    let x := if w = 0 ∧ 1 < (v >>> 60).toNat then v &&& mask &&& 0x0FFFFFFFFFFFFFFF else v &&& mask
    ∃ t, exec (.frrWrite n w v) s = .next t ∧ { t with l2 := s.l2, frr := s.frr } = s ∧ SMap.get 0 t.frr (4 * n + w) = x ∧
      (∀ j, j ≠ 4 * n + w → SMap.get 0 t.frr j = SMap.get 0 s.frr j) ∧
      ∀ e, e ∈ t.l2 ↔ e ∈ s.l2 ∧ ¬ (isHbm (e.1 * 128) = true ∧
        (viewCovers old e.1 = true ∨ viewCovers (if w = 0 then x.toNat else old) e.1 = true))

/-- R117, R118, R131, R134, R135, R337, R341, R453: once its edges are complete a row command checks its pairs and refuses one with a
record where its destination is exhausted; each step of the preparation drops the registrations of one line of the destination row, or
takes it out of L2, and waits while the host or an own mode has a word of the line; a row operation copies or zeroes the row and its
metadata and no other byte; the command completes when each pair is done or refused, and its workgroup counts one less. -/
def Obligations.RowCommands : Prop := ∀ (s : State) (id cl : Nat) (j : Job), s.rowJob id = some (cl, j) → s.job cl id = some j →
  (∀ (own : Bool) (ps : List RowPair) (k : Nat), j.kind = .row own false ps → j.status = .queued →
    let free : Prop := ∀ e ∈ j.edges, ∀ q ∈ (s.cluster cl).jobs, q.id ≠ e
    (¬ free → exec (.rowCommandPrepare ⟨id, k⟩) s = .next s) ∧
    (∀ u qs, free → s.checkPairs j.ctx ps = (u, qs) → ∃ t, exec (.rowCommandPrepare ⟨id, k⟩) s = .next t ∧ { t with clusters := u.clusters } = u ∧
      t.job cl id = some { j with status := .started, kind := .row own (qs.all fun p => p.ready own) qs }) ∧
    (∀ p u md, free → own = false → ps = [p] → p.src = none → s.getMeta (p.dst / 2048) = (u, some md) → md.x = true →
      (u.key md.kslot).st ≠ .empty ∨ md.kslot = 0 → ∃ t, exec (.rowCommandPrepare ⟨id, k⟩) s = .next t ∧
        { t with clusters := u.clusters, recq := u.recq } = u ∧ t.recq = u.recq ++ [agentRec j.ctx 3 38 34 p.dva.toNat 0] ∧
        t.job cl id = some { j with status := .started, kind := .row false true [{ p with refused := true }] })) ∧
  (∀ (ps : List RowPair) (i k : Nat) (p : RowPair), j.kind = .row false false ps → j.status ≠ .queued → ps[i]? = some p → 17 ≤ k → k < 49 → p.may false k = true →
    let line := p.dst / 2048 * 16 + (k - 17) % 16
    let qs := ps.take i ++ { p with prep := p.prep + 2 ^ k } :: ps.drop (i + 1)
    let made (t : State) : Prop := t.job cl id = some { j with status := .started, kind := .row false (qs.all fun p => p.ready false) qs }
    (s.stepWaits line true = true → exec (.rowCommandPrepare ⟨id, 64 * i + k⟩) s = .next s) ∧
    (s.stepWaits line true = false → k < 33 → ∃ t, exec (.rowCommandPrepare ⟨id, 64 * i + k⟩) s = .next t ∧ made t ∧ t.hbm = s.hbm ∧
      t.l2 = s.l2 ∧ (∀ w, w / 32 = line → t.regAt w = none) ∧ (∀ w, w / 32 ≠ line → t.regAt w = s.regAt w) ∧
      ∀ w o f, s.regAt w = some (.own o f) → isCore o = true → w / 32 = line → (t.core o).l1At w = none) ∧
    (s.stepWaits line true = false → 33 ≤ k → ∃ t, exec (.rowCommandPrepare ⟨id, 64 * i + k⟩) s = .next t ∧ made t ∧
      { t with clusters := s.clusters, l2 := s.l2 } = s ∧ SMap.find t.l2 line = none ∧
      ∀ n, n ≠ line → SMap.find t.l2 n = SMap.find s.l2 n)) ∧
  (∀ (own : Bool) (ps : List RowPair) (k : Nat) (p : RowPair) (u : State) (md : Meta), j.kind = .row own true ps → ps[k]? = some p →
    p.refused = false → p.done = false →
    let blk := p.dst / 2048
    (s.count (cntSeal (homeBank p.dst) 3) 1).getMeta blk = (u, some md) → md.ver < 2 ^ 44 - 1 →
    let done (t : State) : Prop := t.job cl id = some { j with status := .started, kind := .row own true (ps.take k ++ { p with done := true } :: ps.drop (k + 1)) } ∧
      (∀ e, e ∈ t.l2 ↔ e ∈ s.l2 ∧ e.1 / 16 ≠ blk) ∧ t.regst = s.regst ∧ t.host = s.host
    (p.src = none → ∃ t n, exec (.rowOperation id k) s = .next t ∧ done t ∧
      (∀ a, Memory.read t.hbm a = if a / 2048 = blk then 0 else Memory.read u.hbm a) ∧
      (t.getMeta blk).2 = some n ∧ n.z = true ∧ n.p = false ∧ n.kslot = (s.ctx j.ctx).ks ∧ n.o = !p.sl ∧
      n.ver = if md.kslot = (s.ctx j.ctx).ks then md.ver + 1 else 0) ∧
    (∀ src v ms, p.src = some src → u.getMeta (src / 2048) = (v, some ms) → (SMap.find v.mcache (metaPlace blk).1).isSome = true →
      ∃ t n, exec (.rowOperation id k) s = .next t ∧ done t ∧
      (∀ a, Memory.read t.hbm a = if a / 2048 = blk then Memory.read v.hbm (src / 2048 * 2048 + a % 2048) else Memory.read v.hbm a) ∧
      (t.getMeta blk).2 = some n ∧ n.ver = md.ver + 1 ∧ n.nonce = ms.nonce ∧ n.itag = ms.itag ∧ n.kslot = ms.kslot ∧ n.kgen = ms.kgen ∧
      n.z = ms.z ∧ n.p = false ∧ n.o = ms.o)) ∧
  (∀ (own : Bool) (ps : List RowPair) (w : Workgroup), j.kind = .row own true ps → (s.core j.core).wg j.wg = some w →
    ((∃ p ∈ ps, p.refused = false ∧ p.done = false) → exec (.rowCommandComplete id) s = .next s) ∧
    ((∀ p ∈ ps, p.refused = true ∨ p.done = true) → ∃ t, exec (.rowCommandComplete id) s = .next t ∧ t.job cl id = none ∧
      (t.core j.core).wg j.wg = some { w with nmcnt := w.nmcnt - 1 } ∧ t.hbm = s.hbm ∧
      (own = false → { t with clusters := s.clusters, cores := s.cores } = s) ∧ ∀ a n, t.regAt a ≠ some (.ownMode n id) ∨ own = false))

/-- R353 to R360, R369, R378, R384: a primitive record that reaches its front is held, or discarded where it repeats one, with a record
by the front of die 0; the record that is next is processed: each ticket is of a pixel that the primitive covers in a tile of the
front, with its key, coverage, depth and home bank, a skipped one makes none, and the last one ends its draw; a ready ticket joins the FIFO of its
pixel and the open block, unless the FIFO holds eight; a full block, or one with nothing ready behind it, is written and its record
queued; a fence marker marks the banks it reaches, and a fence is over once all banks have applied the tickets before it. -/
def Obligations.RasterFronts : Prop := ∀ (s : State) (die cx : Nat),
  let f := s.front die cx
  let only (g : Front) (t : State) : Prop := t.front die cx = g ∧ ∀ d c, d < 8 → c < 320 → (d ≠ die ∨ c ≠ cx) → t.front d c = s.front d c
  die < 8 → cx < 320 →
  (∀ (k : Nat) (p : Prim), s.prims[k]? = some (die, p) → p.ctx = cx →
    let left : List (Nat × Prim) := s.prims.take k ++ s.prims.drop (k + 1)
    (f.stale p = false → f.held.length < 16 → ∃ t, exec (.primitiveArrival k) s = .next t ∧ { t with prims := s.prims, fronts := s.fronts } = s ∧
      t.prims = left ∧ only { f with held := (t.front die cx).held } t ∧
      ∀ n, SMap.find (t.front die cx).held n = if n = p.draw * 2 ^ 20 + p.idx then some { p with ring := none } else SMap.find f.held n) ∧
    ((p.draw = f.draw ∧ p.idx < f.next) ∨ (SMap.find f.held (p.draw * 2 ^ 20 + p.idx)).isSome = true ∨ p.draw ∈ f.done →
      ∃ t, exec (.primitiveArrival k) s = .next t ∧ { t with prims := s.prims, recq := s.recq } = s ∧ t.prims = left ∧
        t.recq = s.recq ++ (if die = 0 then [{ agentRec cx 3 23 (1 + (p.draw * 2 ^ 20 + p.idx) * 2 ^ 32) 0 (p.dvp.toNat / 128 * 128) with
                                              lseq := p.lseq, wid := p.wid }] else []))) ∧
  (∀ (p : Prim), SMap.find f.held (f.draw * 2 ^ 20 + f.next) = some p → s.running = true → p.ring = none → f.out = [] → f.next ≠ 0 →
    (p.dvp.getLsbD 1 = true → ∃ t, exec (.primitiveProcess die cx) s = .next t ∧
      (p.dvp.getLsbD 0 = false → { t with fronts := s.fronts } = s ∧
        only { f with next := f.next + 1, held := SMap.erase f.held (p.draw * 2 ^ 20 + p.idx) } t) ∧
      (p.dvp.getLsbD 0 = true → { t with fronts := s.fronts, recq := s.recq } = s ∧ (t.front die cx).draw = (f.draw + 1) % 4096 ∧
        (t.front die cx).next = 0 ∧ (t.front die cx).gen = f.gen + 1 ∧ (t.front die cx).out = [] ∧
        ∀ e ∈ (t.front die cx).held, e.2.draw ≠ f.draw)) ∧
    (∀ d u g shape, f.desc = some d → p.dvp.getLsbD 0 = false → p.dvp.getLsbD 1 = false → p.dvp.getLsbD 2 = false →
      s.readTarget die cx d.tgt = (u, some g) → Machine.shapeOf d p.vs = some shape → ∃ t, exec (.primitiveProcess die cx) s = .next t ∧
        (t.front die cx).next = f.next + 1 ∧ (t.front die cx).draw = f.draw ∧ ∀ o ∈ (t.front die cx).out, ∃ r, o = .frag r ∧
          r.tk.ctx = cx ∧ r.tk.key = p.draw * 2 ^ 20 + p.idx ∧ r.tk.target = d.tgt ∧ r.tk.px < g.w ∧ r.tk.py < g.h ∧
          (r.tk.px / 64 + 3 * (r.tk.py / 64)) % 8 = die ∧ r.tk.cover ≠ 0 ∧ r.tk.cover = coverOf shape.es g.lsmp r.tk.px r.tk.py ∧
          r.tk.z = (shape.interp r.tk.px r.tk.py).2.2 ∧ r.attr = p.attr)) ∧
  (∀ (r : Frag) (rest : List FrontOut), f.out = .frag r :: rest →
    let at_ (q : Fifo) : Prop := q.ctx = cx ∧ q.target = r.tk.target ∧ q.px = r.tk.px ∧ q.py = r.tk.py
    let tk := { r.tk with seq := s.nextSeq }
    let sent (t : State) : Prop := { t with fronts := s.fronts, fifos := s.fifos, nextSeq := s.nextSeq } = s ∧ t.nextSeq = s.nextSeq + 1 ∧
      only { f with out := rest, block := f.block ++ [{ r with tk := tk }] } t
    (∀ a q b, s.fifos = a ++ q :: b → at_ q → (∀ q ∈ a ++ b, ¬ at_ q) →
      (q.tks.length < 8 → f.block.length < 32 → ∃ t, exec (.ticketArrival die cx) s = .next t ∧ sent t ∧
        t.fifos = a ++ { q with tks := q.tks ++ [tk] } :: b) ∧
      (8 ≤ q.tks.length ∨ 32 ≤ f.block.length → exec (.ticketArrival die cx) s = .next s)) ∧
    ((∀ q ∈ s.fifos, ¬ at_ q) → f.block.length < 32 → ∃ t, exec (.ticketArrival die cx) s = .next t ∧ sent t ∧
      t.fifos = s.fifos ++ [{ bank := r.tk.bank, ctx := cx, target := r.tk.target, px := r.tk.px, py := r.tk.py, tks := [tk] }])) ∧
  (∀ (d : DrawDesc) (cl : Nat) (u : State), f.desc = some d → s.running = true → f.block ≠ [] →
    (f.block.length = 32 ∨ f.out = [] ∧ (f.next = 0 ∨ SMap.find f.held (f.draw * 2 ^ 20 + f.next) = none)) →
    let cls := s.clustersOf (partOf cx)
    let ring := s.ringOf cx d.fring
    let slot := ring.next % 2 ^ d.lfr
    let va := (d.fring.toNat + 2048 * slot) % 2 ^ 64
    let q := SMap.get [] (u.cluster cl).queues cx
    cls[f.turn % cls.length]? = some cl →
    (ring.busy.contains slot = true → exec (.fragmentBlockEmit die cx) s = .next s) ∧
    (ring.busy.contains slot = false → s.recordRoom cl cx = true → s.writeVas die cx va (blockWords d f.block) = (u, none) → q.length < 64 →
      ∃ t r, exec (.fragmentBlockEmit die cx) s = .next t ∧ SMap.get [] (t.cluster cl).queues cx = q ++ [r] ∧ r.kind = 1 ∧
        r.cnt = f.block.length - 1 ∧ r.framep = BitVec.ofNat 64 (va + 1) ∧ r.code = d.fcode ∧ r.frm = d.frm ∧ r.tks = f.block.map (·.tk) ∧
        (t.front die cx).block = [] ∧ (t.ringOf cx d.fring).next = ring.next + 1 ∧ slot ∈ (t.ringOf cx d.fring).busy ∧ t.hbm = u.hbm)) ∧
  (∀ (id : Nat) (rest : List FrontOut), f.out = .fence id :: rest → ∃ t, exec (.ticketArrival die cx) s = .next t ∧
    { t with fronts := s.fronts, fences := s.fences } = s ∧ only { f with out := rest } t ∧
    t.fences = s.fences.map fun x => if x.id = id then
      { x with fronts := x.fronts ||| (1 : BitVec 8) <<< die, waits := x.waits ++ s.ticketsIn die cx x.target } else x) ∧
  ∀ (id bank : Nat),
    (bank < 512 → ∃ t, exec (.fenceMarker id bank) s = .next t ∧ { t with fences := s.fences } = s ∧ t.fences = s.fences.map fun x =>
      if x.id = id ∧ x.fronts = 0xFF then { x with banks := x.banks ||| (1 : BitVec 512) <<< bank } else x) ∧
    (∀ x, s.fences.find? (fun x => x.id == id) = some x →
      (x.banks ≠ BitVec.allOnes 512 ∨ (∃ q ∈ s.fifos, ∃ t ∈ q.tks, t.seq ∈ x.waits) → exec (.fenceComplete id) s = .next s) ∧
      (∀ g m v, x.banks = BitVec.allOnes 512 → (∀ q ∈ s.fifos, ∀ t ∈ q.tks, t.seq ∉ x.waits) →
        let u := { s with fences := s.fences.filter fun y => y.id != id }
        u.readTarget 0 x.ctx x.target = (u, some g) → u.readSlot 0 x.ctx g x.fslot = (u, some m) → m.kind = 6 →
        u.counterAdd 0 x.ctx m.pv.toNat (m.p1 % 2 ^ 32) = (v, none) → exec (.fenceComplete id) s = .next v))

/-- R21, R22, R136, R398 to R404, R485: a reset loses all state but host memory; bring-up goes from state to state in order, starts
`TICK`, gives every block of data the metadata of initialisation, and ends with the ports up that trained; the end of a governor window
updates a die's telemetry, its histograms and its withholding interval; the thresholds of temperature and the rails are logged,
withhold or resume issue on the die, and at 110 degrees trip the package. -/
def Obligations.PowerAndBringUp : Prop := ∀ (s : State),
  let enters (i : Instr) (n : Nat) (t : State) : Prop := exec i s = .next t ∧ t.pkcState = n ∧ t.pkc >>> 4 = s.pkc >>> 4
  let at_ (n : Nat) : Prop := s.pkcState = n ∧ s.stopped = false
  (∃ t, exec .reset s = .next t ∧ t.host = s.host ∧ t.sealInits = s.sealInits ∧
    { t with host := [], turn := 0, free := 0, sealInits := 0 } = State.reset) ∧
  (at_ 0 → ∃ t, enters .railsInRange 1 t ∧ { t with pkc := s.pkc } = s) ∧
  (at_ 1 → ∃ t, enters .clocksLocked 2 t ∧ t.tick = 0 ∧ { t with pkc := s.pkc, tick := s.tick } = s) ∧
  (at_ 2 → ∃ t, enters .hbmTrained 3 t ∧ { t with pkc := s.pkc } = s) ∧
  (at_ 3 → ∃ t, enters .sealInitDone 4 t ∧ (t.key 0).st = .active ∧ (t.key 0).key = Config.deviceKey s.sealInits ∧ t.failedRows = [] ∧
    t.failedEngines = [] ∧ t.l2 = [] ∧ (∀ k, k ≠ 0 → t.key k = s.key k) ∧
    ∀ blk, paRow (blk * 2048) < 496 → blk < 2 ^ 30 → ∃ m, (t.getMeta blk).2 = some m ∧ m.z = true ∧ m.kslot = 0 ∧ m.kgen = 0 ∧ m.ver = 0 ∧
      m.p = false ∧ m.x = false ∧ m.o = false) ∧
  (∀ up cxl, at_ 4 → ∃ t, enters (.linksTrained ⟨up, cxl⟩) 5 t ∧ { t with pkc := s.pkc, ports := s.ports, cxlDown := s.cxlDown } = s ∧
    t.cxlDown = !cxl ∧ ∀ k, k < 36 → t.port k = { s.port k with up := up.getLsbD k }) ∧
  (∀ n up cxl, at_ n → (n ≠ 0 → exec .railsInRange s = .next s) ∧ (n ≠ 1 → exec .clocksLocked s = .next s) ∧ (n ≠ 2 → exec .hbmTrained s = .next s) ∧
    (n ≠ 3 → exec .sealInitDone s = .next s) ∧ (n ≠ 4 → exec (.linksTrained ⟨up, cxl⟩) s = .next s)) ∧
  ∀ (die : Nat) (temp : BitVec 8), 2 ≤ s.pkcState → s.stopped = false → die < 8 →
    let d := s.die die
    let amps := d.tel.toNat / 2 ^ 32 % 2 ^ 16
    let only (e : Die) (t : State) : Prop := t.die die = e ∧ ∀ k, k ≠ die → t.die k = s.die k
    let logs (l : List (Nat × Nat)) (t : State) : Prop := t.logCount = s.logCount + BitVec.ofNat 64 l.length ∧
      ∀ i e, l[i]? = some e → SMap.find t.log ((s.logCount.toNat + i) % 64) =
        some (BitVec.ofNat 128 (s.tick.toNat + die * 2 ^ 64 + e.1 * 2 ^ 72 + e.2 % 2 ^ 32 * 2 ^ 80))
    (∀ (g : GovReading), ((d.winAt + 1800000).toNat ≤ s.tick.toNat → g.amps.toNat ≤ 2500 → g.watts.toNat ≤ 1050 → 105 ≤ g.mv.toNat →
        g.mv.toNat ≤ 137 → g.temp.toNat < 95 → 92 ≤ g.temp.toNat ∨ d.hot = false →
        let tel : BitVec 64 := BitVec.ofNat 64 (g.temp.toNat + g.mv.toNat * 2 ^ 8 + g.watts.toNat * 2 ^ 16 + g.amps.toNat * 2 ^ 32)
        let beyond_ (p : Nat) : Prop := p < 20 ∧ g.beyond.getLsbD p = true ∧ s.clustersOn die p ≠ 0
        let on : Prop := d.hot = true ∨ ∃ p, beyond_ p
        ∃ t, exec (.governorWindow die g) s = .next t ∧ { t with dies := s.dies, life := s.life, log := s.log, logCount := s.logCount } = s ∧
          (∀ w, SMap.get 0 t.life w = SMap.get 0 s.life w +
            if w = 0x20 + 16 * die + min 15 (g.temp.toNat / 8) ∨ w = 0xA0 + 16 * die + min 15 (g.amps.toNat / 160)
            then BitVec.ofNat 64 (s.tick.toNat - d.winAt.toNat) else 0) ∧
          (∀ k, k ≠ die → t.die k = s.die k) ∧ (t.die die).tel = tel ∧ (t.die die).govw = (if d.saw then d.govw + g.withheld else d.govw) ∧
          (t.die die).winAt = s.tick ∧ (t.die die).hot = d.hot ∧ (∀ p, (t.die die).beyond.getLsbD p = true ↔ beyond_ p) ∧
          ((t.die die).runs = true ↔ on) ∧
          (on → (t.die die).govs = (if d.runs then d.begun else s.tick) ∧ (t.die die).gove = 0 ∧
            logs (if d.runs then [] else [(1, g.amps.toNat)]) t) ∧
          (¬ on → (t.die die).govs = d.begun ∧ (t.die die).gove = (if d.runs then s.tick else d.ended) ∧
            logs (if d.runs then [(2, g.amps.toNat)] else []) t)) ∧
      (s.tick.toNat < (d.winAt + 1800000).toNat → exec (.governorWindow die g) s = .next s)) ∧
    (95 ≤ temp.toNat → temp.toNat < 110 → d.hot = false → ∃ t, exec (.tempThrottle die temp) s = .next t ∧
      (d.runs = true → only { d with hot := true } t ∧ logs [(3, temp.toNat)] t) ∧
      (d.runs = false → only { d with hot := true, runs := true, saw := true, begun := s.tick } t ∧ logs [(3, temp.toNat), (1, amps)] t)) ∧
    (temp.toNat < 95 ∨ temp.toNat < 110 ∧ d.hot = true → exec (.tempThrottle die temp) s = .next s) ∧
    (temp.toNat < 92 → d.hot = true → ∃ t, exec (.tempRecover die temp) s = .next t ∧
      let still : Prop := d.beyond ≠ 0 ∨ d.plane = true
      (still → d.runs = true → only { d with hot := false } t ∧ logs [(4, temp.toNat)] t) ∧
      (¬ still → d.runs = true → only { d with hot := false, runs := false, ended := s.tick } t ∧ logs [(4, temp.toNat), (2, amps)] t) ∧
      (¬ still → d.runs = false → only { d with hot := false } t ∧ logs [(4, temp.toNat)] t)) ∧
    (92 ≤ temp.toNat ∨ d.hot = false → exec (.tempRecover die temp) s = .next s) ∧
    (110 ≤ temp.toNat → ∃ t, enters (.thermalTrip die temp) 15 t ∧ t.stopped = true ∧ logs [(5, temp.toNat)] t) ∧
    (temp.toNat < 110 → exec (.thermalTrip die temp) s = .next s) ∧
    (∀ v, ∃ t, exec (.railOutOfRange die v) s = .next t ∧ { t with log := s.log, logCount := s.logCount } = s ∧ logs [(6, v.toNat)] t)

/-- R33, R58, R66, R67, R380 to R384, R394, R395, R401, R423, R456, R467, R476, R481, R482: a word of a partition record takes its fields;
an enable needs masks disjoint from every enabled record, clears the partition's event vectors and its streams; the context
register refuses slot 0 without `sysc`; `node` stands once a partition has been enabled; the other registers take their bits; the on-chip
window reads and writes rows and scratchpad; an HDM decoder changes only while it is disabled, but for `en`. -/
def Obligations.ManagementWrites : Prop := ∀ (s : State) (v : BitVec 64), 2 ≤ s.pkcState → s.stopped = false →
  (∀ (p w : Nat), p < 20 → w < 16 →
    let q := s.part p
    let only (r : Partition) (t : State) : Prop := t.part p = r ∧ ∀ k, k ≠ p → t.part k = s.part k
    let ones : BitVec 512 := 0xFFFFFFFFFFFFFFFF
    let r : Partition := if w = 15 then { q with clm := v ++ q.clm.setWidth 64 } else if w = 14 then { q with clm := (q.clm >>> 64).setWidth 64 ++ v }
      else if 6 ≤ w ∧ w ≤ 13 then { q with pcg := q.pcg &&& ~~~(ones <<< (64 * (w - 6))) ||| v.setWidth 512 <<< (64 * (w - 6)) }
      else if w = 5 then { q with ptm := (v >>> 14).setWidth 36, l2w := (v >>> 50).setWidth 14 }
      else if w = 0 then { q with en := v.getLsbD 0 } else q
    let free : Prop := q.tdi ≠ .locked ∧ q.tdi ≠ .run
    let clash : Prop := ∃ k, k < 20 ∧ k ≠ p ∧ (s.part k).en = true ∧
      (r.clm &&& (s.part k).clm ≠ 0 ∨ r.pcg &&& (s.part k).pcg ≠ 0 ∨ r.ptm &&& (s.part k).ptm ≠ 0)
    (free → r.en = false → ∃ t, exec (.partitionRecordWrite p w v) s = .next t ∧ { t with parts := s.parts } = s ∧ only r t) ∧
    (free → q.en = false → r.en = true → ¬ clash → ∃ t, exec (.partitionRecordWrite p w v) s = .next t ∧
      { t with parts := s.parts, nodeLocked := s.nodeLocked, streams := s.streams, ctxs := s.ctxs } = s ∧ t.nodeLocked = true ∧
      only { r with held := false, dumped := false } t ∧ (∀ u, u ∈ t.streams ↔ u ∈ s.streams ∧ u.part ≠ p) ∧
      ∀ cx, t.ctx cx = if cx / 16 = p then { s.ctx cx with ev := 0, nextLseq := 0 } else s.ctx cx) ∧
    (free → q.en = true → 0 < w → w < 14 → ¬ clash → ∃ t, exec (.partitionRecordWrite p w v) s = .next t ∧ { t with parts := s.parts } = s ∧
      only r t) ∧
    (free → w < 14 → r.en = true → clash → exec (.partitionRecordWrite p w v) s = .next s) ∧
    (free → q.en = true → 14 ≤ w → q.pend = false → q.clm &&& ~~~r.clm = 0 → ¬ clash → ∃ t, exec (.partitionRecordWrite p w v) s = .next t ∧
      { t with parts := s.parts } = s ∧ only { q with clm := r.clm, tclm := r.clm, pend := false, force := false } t) ∧
    (¬ free → exec (.partitionRecordWrite p w v) s = .next s)) ∧
  (∀ (cx : Nat),
    let only (c : Context) (t : State) : Prop := { t with ctxs := s.ctxs } = s ∧ t.ctx cx = c ∧ ∀ k, k ≠ cx → t.ctx k = s.ctx k
    let open_ : Prop := (s.part (partOf cx)).tdi ≠ .locked ∧ (s.part (partOf cx)).tdi ≠ .run
    (s.ctxWritable cx = true → open_ → v.toNat % 64 ≠ 0 ∨ v.getLsbD 9 = true → ∃ t, exec (.ctxcWrite cx v) s = .next t ∧
      only { s.ctx cx with ctxc := v &&& 0x7FFFFFFFFFF, slen := none } t) ∧
    (s.ctxWritable cx = false ∨ ¬ open_ ∨ v.toNat % 64 = 0 ∧ v.getLsbD 9 = false → exec (.ctxcWrite cx v) s = .next s) ∧
    (s.ctxWritable cx = true →
      let reg (k : Nat) : Instr := .registerWrite (0x20000 + 64 * cx + 8 * k) v
      let takes (i : Instr) (c : Context) : Prop := ∃ t, exec i s = .next t ∧ only c t
      takes (reg 0) { s.ctx cx with ptb := v &&& 0xFFFFFFFFFF000 } ∧ takes (reg 1) { s.ctx cx with pvb := v &&& 0xFFFFFFFFFFFFF000 } ∧
      takes (reg 2) { s.ctx cx with pvs := v &&& 0xFFFF } ∧ (open_ → takes (reg 4) { s.ctx cx with pgt := v &&& 0xFFFFFFFFFFFFFFC0 }) ∧
      takes (reg 5) { s.ctx cx with trv := v } ∧ takes (reg 6) { s.ctx cx with frb := v &&& 0xFFFFFFFFFFFFF00F } ∧
      takes (reg 7) { s.ctx cx with spb := v &&& 0xFFFFFFFFFFFE0000 } ∧ exec (reg 3) s = .next s ∧
      takes (.registerWrite (0x28000 + 8 * cx) v) { s.ctx cx with qrb := v &&& 0xFFFFFFFFFFFF000F }) ∧
    (s.ctxWritable cx = false → cx < 320 → ∀ k, k < 8 → exec (.registerWrite (0x20000 + 64 * cx + 8 * k) v) s = .next s)) ∧
  (∃ t, exec (.registerWrite 0x60008 v) s = .next t ∧ t = { s with stt := v }) ∧
  (∃ t, exec (.registerWrite 0x60020 v) s = .next t ∧ t = { s with snt := v }) ∧
  (∃ t, exec (.registerWrite 0x60018 v) s = .next t ∧ t = { s with dumpb := v &&& 0xFFFFFFFFFFFFF800 }) ∧
  (∀ off, off % 8 ≠ 0 → exec (.registerWrite off v) s = .next s) ∧
  (s.nodeLocked = false → ∃ t, exec (.pkcWrite v) s = .next t ∧ { t with pkc := s.pkc } = s ∧ t.pkcState = s.pkcState ∧
    t.node = v.toNat / 2 ^ 20 % 2 ^ 17) ∧
  (s.nodeLocked = true → exec (.pkcWrite v) s = .next s) ∧
  (∀ (core n l : Nat) (x : Word) (p : Nat), s.running = true → core < 1536 → p < 20 → (s.part p).clm.getLsbD (core / 12) = true →
    let only (c : Core) (t : State) : Prop := { t with cores := s.cores } = s ∧ (∀ k, k ≠ core → t.core k = s.core k) ∧
      { t.core core with rows := c.rows, scratch := c.scratch } = c
    let row := windowBase + core * 0x100000 + n * 128 + l * 4
    let scr := windowBase + core * 0x100000 + 0x80000 + 4 * n
    (n < 2048 → l < 32 →
      (∃ t, exec (.onchipWindowAccess row (some x)) s = .next t ∧ only (s.core core) t ∧ (t.core core).scratch = (s.core core).scratch ∧
        ∀ j k, k < 32 → (t.core core).row j k = if j = n ∧ k = l then .good x else (s.core core).row j k) ∧
      (∀ y, (s.core core).row n l = .good y → ∃ t, exec (.onchipWindowAccess row none) s = .next t ∧ { t with readOut := s.readOut } = s ∧
        t.readOut = y.setWidth 64)) ∧
    (n < 131072 → (∃ t, exec (.onchipWindowAccess scr (some x)) s = .next t ∧ only (s.core core) t ∧ (t.core core).rows = (s.core core).rows ∧
        ∀ j, (t.core core).scr j = if j = n then .good x else (s.core core).scr j) ∧
      (∀ y, (s.core core).scr n = .good y → ∃ t, exec (.onchipWindowAccess scr none) s = .next t ∧ { t with readOut := s.readOut } = s ∧
        t.readOut = y.setWidth 64))) ∧
  (∀ (k w : Nat), k < 8 → w < 4 →
    let mask : BitVec 64 := if w = 0 then 0xFFFFFFFFF0000001 else if w = 1 then 0xFFFFFFFFF0000000 else if w = 2 then 0x1FFF0000000 else 0xFFF
    let free (p : Nat) : Prop := (s.part p).tdi ≠ .locked ∧ (s.part p).tdi ≠ .run
    let sets (x : BitVec 64) : Prop := ∃ t, exec (.hdmDecoderWrite k w v) s = .next t ∧ { t with hdm := s.hdm } = s ∧
      ∀ j, SMap.get 0 t.hdm j = if j = 4 * k + w then x else SMap.get 0 s.hdm j
    free (s.hdmPart k) → (w = 3 → free (v.toNat / 64 % 32)) →
    ((s.hdmWord k 0).testBit 0 = false → w ≠ 0 ∨ v.getLsbD 0 = false → sets (v &&& mask)) ∧
    ((s.hdmWord k 0).testBit 0 = true → w = 0 → v.getLsbD 0 = false → sets (SMap.get 0 s.hdm (4 * k) &&& ~~~1)) ∧
    ((s.hdmWord k 0).testBit 0 = true → w ≠ 0 ∨ v.getLsbD 0 = true → exec (.hdmDecoderWrite k w v) s = .next s))

/-- R115, R116, R393 to R395, R448, R458, R487: through a decoder the host reads a line's words as a Fetch reads them and its snoop filter
keeps the line, an exclusive request registers every word of the line to the host, an uncached access reads or writes one word at
its home, and a block outside the partition's groups is refused with a record; a snoop of host memory gives the line and takes it where
it invalidates; an evicted line of the snoop filter gives its dirty words back, and one that times out loses the host's words; an
integrity failure of IDE sets every TDI to ERROR until IDE is established again in a session; a TDI moves as TDISP asks, and one that leaves RUN
has its groups zeroed and its contexts held. -/
def Obligations.HostPort : Prop := ∀ (s : State), s.running = true →
  let words (line : Nat) : List Nat := (List.range 32).map (32 * line + ·)
  (∀ (hpa k : Nat), s.hdmFind hpa = some k → s.hostOff = false →
    let pa := s.hdmPa k hpa
    let line := pa / 128
    let reaches : Prop := (s.part (s.hdmPart k)).pcg.getLsbD (homeBank pa) = true ∧ isHbm pa = true ∧
      s.ensureLine none pa (s.hdmSlot k) true = (s, true) ∧ InL2 s (pa / 4)
    let waits : Prop := s.hostWaits line = true ∨ s.snoopRoom line = false
    let refused (data : List LWord) (i : Instr) : Prop := ∀ cx, s.sysCtx (s.hdmPart k) = some cx → ∃ t, exec i s = .next t ∧
      t.recq = s.recq ++ [agentRec cx 3 42 (2 ^ 63 + 39) pa 0] ∧ t.hostData = data ∧ { t with recq := s.recq, hostData := s.hostData } = s
    (s.hdmTracked k = true →
      (s.snoopRoom line = true → reaches → ∃ t, exec (.hostSharedRead hpa) s = .next t ∧ { t with hostData := s.hostData, snoop := s.snoop } = s ∧ line ∈ t.snoop ∧
        t.hostData.length = 32 ∧ ∀ i, i < 32 →
          (s.regAt (32 * line + i) = none → t.hostData.getD i .poison = s.l2Word (32 * line + i)) ∧
          (∀ o x u, s.regAt (32 * line + i) = some (.own o u) → isCore o = true → (s.core o).l1At (32 * line + i) = some x →
            t.hostData.getD i .poison = if x.u = true then .poison else x.val) ∧
          (∀ n c, s.regAt (32 * line + i) = some (.ownMode n c) → t.hostData.getD i .poison = .poison)) ∧
      (¬ waits → reaches → (∀ w ∈ words line, s.regAt w = none) → s.exhausted (line * 32) = (s, false) → s.makeRoom line 0xC00 (words line) = (s, true) →
        ∃ t, exec (.hostExclusiveRequest hpa) s = .next t ∧ line ∈ t.snoop ∧ t.hostData = (words line).map s.l2Word ∧
          (∀ w ∈ words line, t.regAt w = some (.own 0xC00 false) ∧ t.l2Word w = s.l2Word w) ∧ (∀ w, w ∉ words line → t.regAt w = s.regAt w) ∧
          t.hbm = s.hbm ∧ t.cores = s.cores) ∧
      (waits → exec (.hostExclusiveRequest hpa) s = .next s) ∧ (s.snoopRoom line = false → exec (.hostSharedRead hpa) s = .next s) ∧
      (¬ waits → (s.part (s.hdmPart k)).pcg.getLsbD (homeBank pa) = false → refused (List.replicate 32 .poison) (.hostSharedRead hpa) ∧
        refused (List.replicate 32 .poison) (.hostExclusiveRequest hpa))) ∧
    (s.hdmTracked k = false → pa % 4 = 0 → s.snoop.contains line = false → reaches → s.regAt (pa / 4) = none →
      (s.getMeta (pa / 2048)).2.any (fun m => !m.p) = true →
      (∃ t, exec (.hostUncachedAccess hpa .read) s = .next t ∧ { t with hostData := s.hostData } = s ∧ t.hostData = [s.l2Word (pa / 4)]) ∧
      (∀ v, s.exhausted (pa / 4) = (s, false) → ∃ t, exec (.hostUncachedAccess hpa (.write v)) s = .next t ∧ OnlyWord (pa / 4) s t ∧
        t.regAt (pa / 4) = none ∧ t.l2Word (pa / 4) = .good v) ∧
      (∀ cx, s.exhausted (pa / 4) = (s, false) → s.sysCtx (s.hdmPart k) = some cx → ∃ t, exec (.hostUncachedAccess hpa .writePoison) s = .next t ∧
        t.l2Word (pa / 4) = .poison ∧ t.recq = s.recq ++ [agentRec cx 3 42 (2 ^ 63 + 30) pa 0]))) ∧
  (∀ (line : Nat) (inv : Bool) (l : L2Line), s.hostOff = false → isHbm (line * 128) = false → hostBase ≤ line * 128 →
    (SMap.find s.cacheLines line).isSome = true → (inv = true → ∀ e ∈ s.lineRegs line, e.2.isJ = false) → SMap.find s.l2 line = some l → l.ws.length = 32 → s.recallable line (fun _ => true) = [] →
    ∃ t, exec (.hostSnoop line inv) s = .next t ∧ t.hbm = s.hbm ∧ t.regst = s.regst ∧
      (∀ i, i < 32 → t.hostData.getD i .poison = if (s.regAt (32 * line + i)).isSome = true then .poison else s.l2Word (32 * line + i)) ∧
      (∀ k v, k < 128 → l.ws.getD (k / 4) .poison = .good v → s.regAt (32 * line + k / 4) = none →
        Memory.read t.host (line * 128 - hostBase + k) = (v >>> (8 * (k % 4))).setWidth 8) ∧
      (∀ k r, k < 128 → s.regAt (32 * line + k / 4) = some r → r.shows = false →
        Memory.read t.host (line * 128 - hostBase + k) = Memory.read s.host (line * 128 - hostBase + k)) ∧
      (inv = true → SMap.find t.l2 line = none ∧ SMap.find t.cacheLines line = none) ∧
      (inv = false → SMap.find t.l2 line = some { l with dirty := false } ∧ SMap.find t.cacheLines line = some false)) ∧
  (∀ (line : Nat), line ∈ s.snoop →
    let host (w : Nat) : Prop := s.regAt w = some (.own 0xC00 false)
    let freed (r : Option RState) (t : State) : Prop := line ∉ t.snoop ∧ (∀ l, l ≠ line → (l ∈ t.snoop ↔ l ∈ s.snoop)) ∧
      (∀ w ∈ words line, host w → t.regAt w = r) ∧ ∀ w, ¬ (w ∈ words line ∧ ∃ u, s.regAt w = some (.own 0xC00 u)) → t.regAt w = s.regAt w
    (∀ i v, s.hostOff = false → i < 32 → host (32 * line + i) → InL2 s (32 * line) → ∃ t, exec (.snoopFilterEviction line [(i, v)]) s = .next t ∧
      freed none t ∧ t.l2Word (32 * line + i) = .good v ∧ ∀ w, w ≠ 32 * line + i → t.l2Word w = s.l2Word w) ∧
    (∀ p cx, s.partOfBank (lineBank line) = some p → s.sysCtx p = some cx → ∃ t wm, exec (.bisnpTimeout line) s = .next t ∧
      freed (some .lost) t ∧ (∀ i, i < 32 → (wm.testBit i = true ↔ ∃ u, s.regAt (32 * line + i) = some (.own 0xC00 u))) ∧
      t.recq = s.recq ++ [agentRec cx 3 37 (2 ^ 63 + wm * 256 + 29) (line * 128) 0, agentRec cx 3 42 (2 ^ 63 + 29) (line * 128) 0])) ∧
  (∃ t, exec .ideIntegrityFailure s = .next t ∧ t.ideFailed = true ∧ (∀ p, p < 20 → (t.part p).tdi = .error ∧
    ((s.part p).tdi = .run → (t.part p).held = true)) ∧
    ∀ p cx, p < 20 → s.sysCtx p = some cx → agentRec cx 3 42 (2 ^ 63 + 31) 0 0 ∈ t.recq) ∧
  (s.ideFailed = true → s.sessions ≠ [] → ∃ t, exec .ideReestablish s = .next t ∧ t.ideFailed = false ∧ ∀ p, p < 20 → (t.part p).tdi = .unlocked) ∧
  (s.ideFailed = false ∨ s.sessions = [] → exec .ideReestablish s = .next s) ∧
  (∀ r, ∃ t, exec (.spdmRequest r) s = .next t ∧ { t with spdmOut := s.spdmOut, sessions := s.sessions } = s ∧ t.spdmOut = Config.spdmAnswer r ∧
    ((∀ id key, r ≠ .keyExchange id key) → t.sessions = s.sessions) ∧
    ∀ id key, r = .keyExchange id key → t.sessions = s.sessions.filter (fun e => e.id != id) ++ [{ id := id, ktk := key, seq := none }]) ∧
  ∀ (p : Nat) (r : TdispReq), p < 20 → s.ideFailed = false →
    let q := s.part p
    let moves (x : Tdi) : Prop := ∃ t, exec (.tdispRequest p r) s = .next t ∧ { t with parts := s.parts } = s ∧ t.part p = { q with tdi := x } ∧
      ∀ k, k ≠ p → t.part k = s.part k
    (r = .lock → q.tdi = .unlocked → moves .locked) ∧ (r = .start → q.tdi = .locked → moves .run) ∧
    (r = .stop → q.tdi ≠ .run → moves .unlocked) ∧
    (r = .stop → q.tdi = .run → ∃ t, exec (.tdispRequest p r) s = .next t ∧ (t.part p).tdi = .unlocked ∧ (t.part p).held = true ∧
      (t.part p).holder = none ∧ (∀ a, isHbm a = true → q.pcg.getLsbD (homeBank a) = true → Memory.read t.hbm a = 0) ∧
      ∀ w, isHbm (4 * w) = true → q.pcg.getLsbD (homeBank (4 * w)) = true → t.regAt w = none ∧ ∀ e ∈ t.l2, e.1 ≠ w / 32) ∧
    (r = .lock → q.tdi ≠ .unlocked → exec (.tdispRequest p r) s = .next s) ∧ (r = .start → q.tdi ≠ .locked → exec (.tdispRequest p r) s = .next s)

/-- R466, R475 to R484: `OBSC` takes its bits and a snapshot is triggered by `snap` or by `SNT`, for the first multiple of 64 at least 64
ticks away; at its tick the counters are copied and `sseq` counts; at the stop tick the package stops and its ports go down; a
debugger's step of a stopped spindle issues next, or is refused; `smask` takes its bits; a dump halts the partition's contexts and is
done at once where nothing runs and no port is live, a marker starts one here, and resumption lets the partition go on. -/
def Obligations.Observation : Prop := ∀ (s : State),
  let armed (t : State) : Prop := (s.latchAt.isSome = true → t.latchAt = s.latchAt) ∧ (s.latchAt = none → ∃ e, t.latchAt = some (BitVec.ofNat 64 e) ∧
    e % 64 = 0 ∧ s.tick.toNat + 64 ≤ e ∧ e < s.tick.toNat + 128)
  (s.stopped = false → 2 ≤ s.pkcState →
    (∀ v : BitVec 64, ∃ t, exec (.obscSnap v) s = .next t ∧ t.obsc = s.obsc &&& ~~~0x32 ||| v &&& 0x32 ∧
      { t with obsc := s.obsc, latchAt := s.latchAt } = s ∧ (v.getLsbD 3 = true → armed t) ∧ (v.getLsbD 3 = false → t.latchAt = s.latchAt)) ∧
    (s.obsc.getLsbD 4 = true → s.tick = s.snt → ∃ t, exec .snapshotTick s = .next t ∧ armed t ∧ { t with latchAt := s.latchAt } = s) ∧
    (s.obsc.getLsbD 4 = false ∨ s.tick ≠ s.snt → exec .snapshotTick s = .next s) ∧
    (s.latchAt = some s.tick → ∃ t, exec .snapshotLatch s = .next t ∧ t.latchAt = none ∧
      t.obsc &&& 0xFFFFFFFF = s.obsc &&& 0xFFFFFFFF ∧ t.obsc >>> 32 = ((s.obsc >>> 32) + 1) &&& 0xFFFFFFFF ∧
      SMap.find t.shadows 0 = some s.tick ∧ (∀ w, 2 ≤ w → w < 0x2000 ∨ 0x5800 ≤ w → SMap.find t.shadows w = SMap.find s.counts w) ∧
      ∀ core k, core < 1536 → k = 0 ∨ 5 ≤ k ∧ k < 8 → SMap.find t.shadows (0x2000 + 8 * core + k) = SMap.find s.counts (0x2000 + 8 * core + k)) ∧
    (s.latchAt ≠ some s.tick → exec .snapshotLatch s = .next s) ∧
    (s.obsc.getLsbD 1 = true → s.tick = s.stt → ∃ t, exec .stopTick s = .next t ∧ t.stopped = true ∧ (∀ k, (t.port k).up = false) ∧
      t.cxlDown = true ∧ { t with stopped := s.stopped, ports := s.ports, cxlDown := s.cxlDown } = s) ∧
    (s.obsc.getLsbD 1 = false ∨ s.tick ≠ s.stt → exec .stopTick s = .next s) ∧
    ∀ (core : Nat) (v : BitVec 64), core < 1536 →
      let c := s.core core
      let slot := v.toNat / 2 ^ 10 % 2 ^ 6
      let lane := v.toNat / 2 ^ 20 % 2 ^ 6
      let sets (st : Nat) (t : State) : Prop := (∀ k, k ≠ core → t.core k = s.core k) ∧
        t.core core = { c with dbgSlot := slot, dbgLane := if lane ≤ 32 then lane else 0, dbgSt := st }
      let steps : Prop := c.smask.getLsbD slot = true ∧ ∃ sp, c.spindle slot = some sp ∧
        (lane = 32 ∨ lane < 32 ∧ (sp.fibre lane).isSome = true)
      (s.debugLocked core = false →
        (∃ t, exec (.debugSmaskWrite core v) s = .next t ∧ { t with cores := s.cores } = s ∧ (∀ k, k ≠ core → t.core k = s.core k) ∧
          t.core core = { c with smask := v }) ∧
        (c.dbgSt = 2 → exec (.debugStep core v) s = .next s) ∧
        (c.dbgSt ≠ 2 → ∃ t, exec (.debugStep core v) s = .next t ∧ { t with cores := s.cores, agenda := s.agenda } = s ∧
          (v.getLsbD 0 = false → sets c.dbgSt t ∧ t.agenda = s.agenda) ∧
          (v.getLsbD 0 = true → steps → sets 2 t ∧ t.agenda = .issue core (slot / 16) :: s.agenda) ∧
          (v.getLsbD 0 = true → ¬ steps → sets 3 t ∧ t.agenda = s.agenda))) ∧
      (s.debugLocked core = true → exec (.debugSmaskWrite core v) s = .next s ∧ exec (.debugStep core v) s = .next s)) ∧
  (s.running = true →
    let quiet (p : Nat) : Prop := p < 20 ∧ (s.part p).en = true ∧ (s.part p).held = false ∧ ∀ k, k < 20 → s.dumping k = false
    let idle (p : Nat) : Prop := s.wgsOfPart p = [] ∧ s.sysCtx p = none ∧ ∀ k, k < 16 → s.jobsOf (16 * p + k) = []
    let begun (p id : Nat) (t : State) : Prop := t.part p = { s.part p with
        holder := none, last := (s.part p).holder.getD (s.part p).last, deferred := none, held := true, dumpId := some id, dumpE := s.tick,
        dumped := true } ∧ ∀ k, k ≠ p → t.part k = s.part k
    (∀ v : BitVec 64,
      let p := v.toNat / 2 ^ 23 % 32
      v.getLsbD 0 = true → quiet p → idle p → s.livePorts p = [] → ∃ t, exec (.dumpGo v) s = .next t ∧ begun p (v.toNat / 2 ^ 32) t ∧
        t.dump = BitVec.ofNat 64 (v.toNat / 2 ^ 32 * 2 ^ 32 + p * 2 ^ 23 + 12) ∧
        { t with parts := s.parts, dump := s.dump, dumpFlits := s.dumpFlits } = s) ∧
    (∀ v : BitVec 64, v.getLsbD 0 = false → exec (.dumpGo v) s = .next s) ∧
    (∀ (port p id node : Nat), quiet p → idle p → port < 36 → node < 2 ^ 17 → id < 2 ^ 32 → (s.part p).ptm.getLsbD port = true →
      (s.part p).dumpId ≠ some id → s.livePorts p = [] → ∃ t, exec (.dumpMarker port p id node) s = .next t ∧ begun p id t ∧
        t.port port = { s.port port with closed := true } ∧ ∀ k, k ≠ port → t.port k = s.port k) ∧
    (∀ (port p id node : Nat), p < 20 → port < 36 → node < 2 ^ 17 → (s.part p).en = true → (s.part p).ptm.getLsbD port = true →
      s.dumping p = true → (s.part p).dumpId = some id → s.sysCtx p = none → ∃ t, exec (.dumpMarker port p id node) s = .next t ∧
        (t.port port).closed = true ∧ (∀ k, k ≠ port → t.port k = s.port k) ∧ t.parts = s.parts ∧
        ((s.part p).dumped = true → (∀ k ∈ s.livePorts p, k ≠ port → (s.port k).closed = true) → t.dump.getLsbD 3 = true)) ∧
    ∀ v : BitVec 64,
      let p := s.dump.toNat / 2 ^ 23 % 32
      (v.getLsbD 4 = true → s.dump.getLsbD 3 = true → (s.part p).dumped = true → s.wgsOfPart p = [] → (∀ k, k < 16 → s.jobsOf (16 * p + k) = []) →
        ∃ t, exec (.dumpResume v) s = .next t ∧ t.part p = { s.part p with dumped := false, held := false } ∧
          (∀ k, k ≠ p → t.part k = s.part k) ∧ (∀ k ∈ s.livePorts p, (t.port k).closed = false) ∧ t.dump = s.dump &&& ~~~0xC ∧
          (∀ h, h ∈ t.heldFlits ↔ h ∈ s.heldFlits ∧ h.f.part ≠ p) ∧
          ∀ u ∈ s.streams, u.part = p → { u with open_ := u.open_.map fun c => { c with sent := c.sent + (s.tick - (s.part p).dumpE) } } ∈ t.streams) ∧
      (v.getLsbD 4 = false ∨ s.dump.getLsbD 3 = false ∨ (s.part p).dumped = false → exec (.dumpResume v) s = .next s))

/-- R387 to R389, R392, R455 to R457, R470, R483: a port accepts and acknowledges the flit that is next in sequence, answers one that
fails its `crc` or is out of sequence with a nak, discards one of another partition or kind, sends one for another node on, drops what an
ack covers, replays on a nak, retrains after 64 of them or an ack that does not come, and goes down at the third failed retraining; a
stream's command goes out and is kept until it is answered, is executed at its receiver once and in order and its response kept, sent again
after 180,000 ticks and given up after eight times; a collective sends its rendezvous to its peers, starts once each has answered, and
ends with a status on a mismatch or a failure. The form of a command, of an answer and of a rendezvous is the model's choice (log entry
22). -/
def Obligations.Fabric : Prop := ∀ (s : State),
  (∀ (k : Nat) (f : Flit), k < 36 → s.stopped = false → (s.port k).up = true → (s.port k).training = false →
    let p := s.port k
    let takes (r : Port) (t : State) : Prop := t.port k = r ∧ ∀ j, j ≠ k → t.port j = s.port j
    let next : Port := { p with rxSeq := (p.rxSeq + 1) % 4096 }
    let answers (r : Port) (nak : Bool) (n : Nat) : Port := { r with
      txSeq := (p.txSeq + 1) % 4096
      replay := (p.replay ++ [sealFlit { crc := 0, eseq := 0, lseq := 0, dst := 0, src := s.node, kind := 1, part := 0, len := 3,
                                         data := BitVec.ofNat 8 nak.toNat :: toBytes 2 n } p.txSeq]).drop (p.replay.length - 255) }
    let behind := (p.rxSeq + 4096 - f.lseq % 4096) % 4096
    let known : Prop := f.kind < 8 ∧ f.part < 20 ∧ (s.part f.part).ptm.getLsbD k = true
    let n : Nat := (f.data.getD 1 0).toNat + 256 * (f.data.getD 2 0).toNat
    (f.kind = 0 → exec (.linkFlitReceive k f) s = .next s) ∧
    (f.kind ≠ 0 → flitOk f = true → 1 ≤ behind → behind ≤ 256 → exec (.linkFlitReceive k f) s = .next s) ∧
    (f.kind ≠ 0 → flitOk f = false ∨ f.lseq ≠ p.rxSeq ∧ (behind = 0 ∨ 256 < behind) → ∃ t, exec (.linkFlitReceive k f) s = .next t ∧
      takes (answers p true p.rxSeq) t ∧ { t with ports := s.ports, counts := s.counts } = s) ∧
    (1 < f.kind → flitOk f = true → f.lseq = p.rxSeq → p.rxSeq < 4096 →
      (¬ known → ∃ t, exec (.linkFlitReceive k f) s = .next t ∧ takes (answers next false f.lseq) t ∧ t.discarded = s.discarded + 1 ∧
        { t with ports := s.ports, counts := s.counts, discarded := s.discarded } = s) ∧
      (known → f.dst = s.node → (s.part f.part).dumped = false ∨ p.closed = true ∨ 4 < f.kind → ∃ t, exec (.linkFlitReceive k f) s = .next t ∧
        takes (answers next false f.lseq) t ∧ { t with ports := s.ports, counts := s.counts, asks := s.asks } = s ∧
        (f.kind ≠ 5 ∨ f.data.getD 18 0 ≠ 0 → t.asks = s.asks) ∧
        (f.kind = 5 → f.data.getD 18 0 = 0 → ∃ a, t.asks = s.asks ++ [a] ∧ a.part = f.part ∧ a.node = f.src)) ∧
      (∀ out, known → f.dst ≠ s.node → s.portTo f.part f.dst = some out → out ≠ k → ∃ t, exec (.linkFlitReceive k f) s = .next t ∧
        t.port k = answers next false f.lseq ∧ (t.port out).txSeq = ((s.port out).txSeq + 1) % 4096 ∧
        (t.port out).replay.getLast? = some (sealFlit f (s.port out).txSeq) ∧ (t.port out).replay.length ≤ 256)) ∧
    (f.kind = 1 → flitOk f = true → f.lseq = p.rxSeq →
      (∀ a b r, f.data.getD 0 0 = 0 → p.replay = a ++ r :: b → r.lseq = n → (∀ q ∈ a, q.lseq ≠ n) →
        ∃ t, exec (.linkFlitReceive k f) s = .next t ∧ takes { next with naks := 0, replay := b } t ∧
          { t with ports := s.ports, counts := s.counts } = s) ∧
      (f.data.getD 0 0 ≠ 0 → ∃ t, exec (.linkFlitReceive k f) s = .next t ∧
        { t with ports := s.ports, counts := s.counts, life := s.life } = s ∧ SMap.get 0 t.life 4 = SMap.get 0 s.life 4 + 1 ∧
        (p.nakSeq ≠ n → takes { next with naks := 1, nakSeq := n } t))) ∧
    (∀ lseq,
      let n := if p.nakSeq = lseq then p.naks + 1 else 1
      ∃ t, exec (.linkNak k lseq) s = .next t ∧ { t with ports := s.ports, counts := s.counts, life := s.life } = s ∧
        SMap.get 0 t.life 4 = SMap.get 0 s.life 4 + 1 ∧ (n < 64 → takes { p with naks := n, nakSeq := lseq } t) ∧
        (64 ≤ n → takes { p with naks := 0, nakSeq := lseq, training := true } t)) ∧
    (p.replay ≠ [] → ∃ t, exec (.linkAckTimeout k) s = .next t ∧ { t with ports := s.ports } = s ∧ takes { p with training := true, naks := 0 } t) ∧
    (p.replay = [] → exec (.linkAckTimeout k) s = .next s)) ∧
  (∀ k, s.stopped = false → (s.port k).up = true → (s.port k).training = true →
    let p := s.port k
    let recent := p.retrains.filter fun t => decide (s.tick.toNat < t.toNat + 18000000)
    let takes (r : Port) (t : State) : Prop := t.port k = r ∧ ∀ j, j ≠ k → t.port j = s.port j
    (∃ t, exec (.linkRetrainDone k true) s = .next t ∧ { t with ports := s.ports } = s ∧ takes { p with training := false, naks := 0 } t) ∧
    (recent.length < 2 → ∃ t, exec (.linkRetrainDone k false) s = .next t ∧ { t with ports := s.ports } = s ∧
      takes { p with retrains := recent ++ [s.tick] } t) ∧
    (2 ≤ recent.length → ∃ t, exec (.linkRetrainDone k false) s = .next t ∧ takes { p with up := false, training := false, replay := [], retrains := [] } t ∧
      t.logCount = s.logCount + 1 ∧ SMap.find t.log (s.logCount.toNat % 64) =
        some (BitVec.ofNat 128 (s.tick.toNat + k / 18 % 256 * 2 ^ 64 + 7 * 2 ^ 72 + k % 2 ^ 32 * 2 ^ 80)))) ∧
  (∀ (src dst part eseq : Nat) (c : FabricCmd), s.running = true → part < 20 →
    let x := s.stream src dst part
    let only (y : Stream) (t : State) : Prop := t.stream src dst part = y ∧ { t with streams := s.streams } = s ∧
      ∀ a b p, (a ≠ src ∨ b ≠ dst ∨ p ≠ part) → t.stream a b p = s.stream a b p
    let live : Prop := (s.part part).en = true ∧ (s.part part).dumped = false
    let sends (t : State) (dst kind eseq : Nat) (bs : List (BitVec 8)) (u : State) : Prop :=
      (s.livePorts part = [] → u = t) ∧ (∀ port, s.portTo part dst = some port → { u with ports := t.ports, counts := t.counts } = t ∧
        (∀ j, j ≠ port → u.port j = t.port j) ∧ (u.port port).txSeq = ((t.port port).txSeq + 1) % 4096 ∧
        ∃ f, (u.port port).replay.getLast? = some f ∧ f.kind = kind ∧ f.eseq = eseq ∧ f.dst = dst ∧ f.src = s.node ∧ f.part = part ∧
          f.data = bs ∧ f.lseq = (t.port port).txSeq ∧ flitOk f = true)
    (live → src = s.node → x.failed = false → eseq = x.eseq → x.open_.length < 64 → (∀ i r ws, c ≠ .contribution i r ws) →
      ∃ t u, exec (.streamCommand src dst part eseq c) s = .next u ∧
      only { x with eseq := (eseq + 1) % 2 ^ 32, open_ := x.open_ ++ [{ eseq := eseq, cmd := c, sent := s.tick, tries := 0 }] } t ∧
      sends t dst 2 eseq (Config.commandBytes c) u) ∧
    (live → src = s.node → x.failed = false → eseq ≠ x.eseq ∨ 64 ≤ x.open_.length → exec (.streamCommand src dst part eseq c) s = .next s) ∧
    (live → src ≠ s.node → dst = s.node → (∀ k ∈ x.kept, k.1 ≠ eseq) → eseq ≠ x.rxNext → exec (.streamCommand src dst part eseq c) s = .next s) ∧
    (∀ k, live → src ≠ s.node → dst = s.node → x.kept.find? (fun k => k.1 == eseq) = some k → ∃ u,
      exec (.streamCommand src dst part eseq c) s = .next u ∧ sends s src 3 eseq k.2 u) ∧
    (∀ pa v lo hi, live → src ≠ s.node → dst = s.node → eseq = x.rxNext → (∀ k ∈ x.kept, k.1 ≠ eseq) → c = .addCounter pa v → isHbm pa = true →
      pa % 8 = 0 → (s.part part).pcg.getLsbD (homeBank pa) = true → InL2 s (pa / 4) → (∀ w, w = pa / 4 ∨ w = pa / 4 + 1 → s.registerWaits w = false) →
      s.ensureHome (pa / 4) = s → s.ensureHome (pa / 4 + 1) = s → s.exhausted (pa / 4) = (s, false) →
      s.regAt (pa / 4) = none → s.regAt (pa / 4 + 1) = none →
      s.l2Word (pa / 4) = .good lo → s.l2Word (pa / 4 + 1) = .good hi → ∃ t, exec (.streamCommand src dst part eseq c) s = .next t ∧
        (t.stream src dst part).rxNext = (eseq + 1) % 2 ^ 32 ∧ (eseq, Config.responseBytes c) ∈ (t.stream src dst part).kept ∧ t.hbm = s.hbm ∧
        t.l2Word (pa / 4) = .good (lo + v.setWidth 32) ∧ t.l2Word (pa / 4 + 1) = .good ((((hi ++ lo) + v) >>> 32).setWidth 32)) ∧
    (src = s.node → (∃ u ∈ x.open_, u.eseq = eseq) → ∃ t, exec (.streamResponse src dst part eseq) s = .next t ∧
      only { x with open_ := x.open_.filter fun u => u.eseq != eseq } t) ∧
    (src ≠ s.node ∨ (∀ u ∈ x.open_, u.eseq ≠ eseq) → exec (.streamResponse src dst part eseq) s = .next s) ∧
    (∀ u, x.open_.find? (fun u => u.eseq == eseq) = some u → src = s.node → (s.part part).dumped = false →
      (s.tick.toNat < u.sent.toNat + 180000 → exec (.commandResendTimeout src dst part eseq) s = .next s) ∧
      (u.sent.toNat + 180000 ≤ s.tick.toNat → u.tries < 8 → ∃ t v, exec (.commandResendTimeout src dst part eseq) s = .next v ∧
        only { x with open_ := x.open_.map fun w => if w.eseq = eseq then { w with sent := s.tick, tries := w.tries + 1 } else w } t ∧
        sends t dst 2 eseq (Config.commandBytes u.cmd) v) ∧
      (∀ cx pa v, u.sent.toNat + 180000 ≤ s.tick.toNat → 8 ≤ u.tries → u.cmd = .addCounter pa v → s.sysCtx part = some cx →
        ∃ t, exec (.commandResendTimeout src dst part eseq) s = .next t ∧ t.recq = s.recq ++ [agentRec cx 3 40 40 0 0] ∧
          only { x with failed := true, open_ := [] } { t with recq := s.recq }))) ∧
  ∀ (cl id q : Nat) (g : PgTable) (j : Job) (c : CollCard) (r : RdvReply), s.running = true → s.job cl id = some j → j.kind = .coll c →
    j.status = .queued → j.halted = false → s.current j.ctx = true → (∀ e ∈ j.edges, ∀ w ∈ (s.cluster cl).jobs, w.id ≠ e) →
    s.collTable j.ctx c.pg = (s, some (q, g)) →
    let becomes (k : Job) (t : State) : Prop := t.job cl id = some k ∧ ∀ i, i ≠ id → t.job cl i = s.job cl i
    let good : Prop := r.failed = false ∧ r.tid = g.tid ∧ r.cid = c.cid
    (j.peers = [] → exec (.rendezvous cl id r) s = .next s) ∧
    (j.peers = [] → s.asks = [] → s.livePorts (partOf j.ctx) = [] → ∃ t, exec (.jobStart cl id) s = .next t ∧
      { t with clusters := s.clusters } = s ∧ becomes { j with peers := g.nodes, ranks := g.nodes.length, rank := q } t) ∧
    (∀ a b port, j.peers = [] → s.asks = [] → g.nodes = [a, b] → a = s.node → b ≠ s.node → s.portTo (partOf j.ctx) b = some port →
      ∃ t f, exec (.jobStart cl id) s = .next t ∧ becomes { j with peers := g.nodes, ranks := 2, rank := q } t ∧
        (t.port port).replay.getLast? = some f ∧ f.kind = 5 ∧ f.dst = b ∧ f.data = rdvBytes g.tid c false ∧
        { t with clusters := s.clusters, ports := s.ports, counts := s.counts } = s) ∧
    (j.peers ≠ [] →
      (j.ranks = 1 → ∃ t, exec (.rendezvous cl id r) s = .next t ∧ becomes { j with status := .started } t) ∧
      (j.ranks ≠ 1 → r.rank = j.rank ∨ j.ranks ≤ r.rank → exec (.rendezvous cl id r) s = .next s) ∧
      (j.ranks ≠ 1 → r.rank ≠ j.rank → r.rank < j.ranks →
        (r.failed = true → ∃ t, exec (.rendezvous cl id r) s = .next t ∧ becomes { j with status := .started, verdict := 2 } t ∧
          t.recq = s.recq ++ [agentRec j.ctx 3 40 41 0 0]) ∧
        (good → r.cop ≠ c.cop ∨ r.cnt ≠ c.cnt ∨ r.ety ≠ c.ety → ∃ t, exec (.rendezvous cl id r) s = .next t ∧
          becomes { j with status := .started, verdict := 3 } t ∧ t.recq = s.recq ++ [agentRec j.ctx 3 41 42 0 0]) ∧
        (good → r.cop = c.cop → r.cnt = c.cnt → r.ety = c.ety → ∃ t, exec (.rendezvous cl id r) s = .next t ∧
          let met := if j.met.contains r.rank then j.met else j.met ++ [r.rank]
          becomes { j with met := met, status := if met.length + 1 = j.ranks then .started else .queued } t)))

/-- R158 to R171, R184: words written out from the tables of chapter 8, the worked ones of R160, R161 and R165 among them, decode to the
instructions they stand for; a word that breaks the layout is refused. -/
def Obligations.DecodeWords : Prop :=
  let always : Guard := ⟨0, false⟩
  let base : Hdr := ⟨.base, always, false, 0⟩
  let ext : Hdr := ⟨.ext, always, false, 0⟩
  let v (n : BitVec 8) : Src := .reg n .ident
  let i32 : IMods := ⟨.i32, false, 0⟩
  decodeWords [0x00000000] = .ok (.nop base ⟨0, .zero, .zero, .zero⟩, 1) ∧
  decodeWords [0x3081E040] = .ok (.add base ⟨7, v 8, .imm6 12, .zero⟩ i32, 1) ∧
  decodeWords [0x30B28874] = .ok (.fmul ⟨.base, ⟨2, true⟩, true, 0⟩ ⟨10, v 11, v 12, .zero⟩ ⟨.rn, false, false, 0, 0, 0, .f32⟩, 1) ∧
  decodeWords [0xFFF41808] = .ok (.br ⟨.base, ⟨1, false⟩, false, 0⟩ ⟨0, .off18 0x3FFD0, .zero, .zero⟩ 0, 1) ∧
  decodeWords [0x0040C042, 0x00001F00, 0] = .ok (.add ⟨.baseLit, always, false, 0x1F00⟩ ⟨3, v 4, .lit, .zero⟩ i32, 3) ∧
  decodeWords [0x00284429, 0x092A1A29, 0x20140028] = .ok (.ffma ⟨.ext, ⟨5, false⟩, false, 0⟩
    ⟨40, .reg 41 (.bc 3), .reg 42 (.rot 1), v 40⟩ ⟨.rz, false, false, 0, 0, 0, .f32⟩, 3) ∧
  decodeWords [0x01070201, 0x00090008, 0x20030000] = .ok (.addAddc ext ⟨7, v 8, v 9, .zero⟩ ⟨.i32, false, 3⟩, 3) ∧
  decodeWords [0xABC08640] = .ok (.ldi base ⟨2, .imm12 0xABC, .zero, .zero⟩ i32, 1) ∧
  decodeWords [0x08A24D40] = .ok (.sfuSqrt base ⟨9, v 10, .zero, .zero⟩ ⟨.rn, false, false, 0, 0, 0, .f32⟩, 1) ∧
  decodeWords [0x14423400] = .ok (.ld base ⟨8, v 4, .imm6 5, .zero⟩ ⟨.rlx, .pkg, 0, 0, .b32, 0xFF⟩, 1) ∧
  decodeWords [0x0000A801, 0, 0xE80000FF] = .ok (.fence ext ⟨0, .zero, .zero, .zero⟩ ⟨.ar, .pkg, 0, 0, .n8, 0xFF⟩, 3) ∧
  decodeWords [0x0000C403, 0x00000700, 0x01070000, 0x00001000, 0] =
    .ok (.call ⟨.extLit, always, false, 0x1000⟩ ⟨0, .lit, .zero, .zero⟩ 0x0107, 5) ∧
  decodeWords [0x00001A04] = .ok (.endFibre ⟨.base, always, true, 0⟩ ⟨0, .zero, .zero, .zero⟩, 1) ∧
  decodeWords [0x0006F801, 0, 0x00010000] = .ok (.sregRdsr ext ⟨6, .zero, .zero, .zero⟩ 1, 3) ∧
  decodeWords [0x0201FE01, 0x20000302, 0x00070605] = .ok (.pair ext ⟨.add, 4, 2, 3, 0⟩ ⟨.fadd, 5, 6, 7, 0⟩, 3) ∧
  decodeWords [0x00002000] = .error .noForm ∧ decodeWords [0x00000001, 0, 0x00010000] = .error .reserved ∧
  decodeWords [0x01070201, 0x00090008, 0x20000000] = .error .illFormed ∧ decodeWords [0x00000001] = .error .truncated

/-- R158 to R165, R168, R171: every well-formed instruction word, with every operand, pattern, modifier and literal that its form admits,
decodes from its own bytes to itself, and the bytes after it are left. -/
def Obligations.DecodeEncode : Prop := ∀ (i : Instr) (rest : List Byte), i.wf = true → decode (encode i ++ rest) = .ok (i, rest)

/-- R46, R53, R75, R158, R166, R184, R340, R440: a step of a quarter with a ready batch fetches the words at the batch's PC and runs the
instruction they decode to, in the state where the word is counted and current; a fetch that fails takes its memory trap, words that
are no instruction take the illegal-instruction trap, and a word that a unit at memory does not run parks at a return trap. An event
of the agenda runs at once. After each the move ends; one that met a request that must wait is not made. -/
def Obligations.StepRunsDecoded : Prop := ∀ (s : State) (rest : List Move),
  (∀ (r q slot : Nat) (b : Batch) (x : Iss) (w : State),
    let u := { s with agenda := rest, stall := false }.picked r q slot b
    s.agenda = .issue r q :: rest → s.running = true → s.withheldRunner r = false →
    (s.core r).pick q = some (slot, b) → u.context noHdr = some x →
    (∀ c va, u.fetchAt r x.cx x.pc = (w, .error (c, va)) → step s = .next (s.commit (w.trapAll x x.lanes 32 c va)).endMove) ∧
    ∀ ws, u.fetchAt r x.cx x.pc = (w, .ok ws) →
      (∀ e, decodeWords ws = .error e → step s = .next (s.commit (w.trapAll { x with words := ws } x.lanes 1 0 0)).endMove) ∧
      ∀ i n, decodeWords ws = .ok (i, n) →
        (isCore r = false → returnTraps i = true → step s = .next (s.commit (w.park x x.lanes .returnTrap)).endMove) ∧
        (isCore r = true ∨ returnTraps i = false → step s = ended s (exec i (w.runs i r slot b ws)))) ∧
  ∀ (e : Instr), s.agenda = .event e :: rest → s.stopped = false → e.isWord = false → step s = ended s (exec e { s with agenda := rest, stall := false })

/-- R399, R477: a package that a trip or a stop tick has stopped stays as it is, whatever move is made, until it is reset. -/
def Obligations.StoppedStays : Prop := ∀ (s : State), s.stopped = true → s.nextMove.2 ≠ .event .reset →
  ∃ t, step s = .next t ∧ { t with agenda := s.agenda, turn := s.turn, patience := s.patience, stall := s.stall } = s

/-- R58, R120: HBM and host memory stay in canonical form (strictly rising addresses, no byte listed that reads as it would
unlisted) under every step, so that equal memories are equal data. -/
def Obligations.StepKeepsMemory : Prop := ∀ (s t : State), DataInv s → step s = .next t → DataInv t

/-- R33, R401, R402: right after reset the package is in state RAILS with `PKC` 0, not running and not stopped, and no partition is
enabled; by the model's choice (log entries 5, 6 and 7) `TICK`, the other registers and every byte of memory are 0, and both memories
have their canonical form. -/
def Obligations.ResetState : Prop :=
  let s := State.reset
  DataInv s ∧ s.pkc = 0 ∧ s.pkcState = 0 ∧ s.running = false ∧ s.stopped = false ∧ s.nodeLocked = false ∧ s.tick = 0 ∧ s.logCount = 0 ∧
  (∀ p, (s.part p).en = false ∧ (s.part p).tdi = .unlocked) ∧ (∀ k, k ≠ 0 → (s.key k).st = .empty) ∧ (s.key 0).st = .active ∧
  (∀ k, (s.port k).up = false) ∧ (∀ a, Memory.read s.hbm a = 0 ∧ Memory.read s.host a = 0) ∧
  (∀ r row l, (s.core r).row row l = .good 0) ∧ ∀ cx, (s.ctx cx).ev = 0 ∧ (s.ctx cx).launches = []
end

