-- ==== Sys2Proof/Machine/Object.lean ====
section
/-!
DEFINITION. The Bluden object and the link (spec/09_assembly.md R198 to R208): the records of a file, relocation, the checks of
calls and frames, and what an image maps. It acts on files; no step of the package runs it.
-/

namespace Sys2Proof.Machine

/-- Fields of given widths and values, the lowest first, as one number. -/
def packBits : List (Nat × Nat) → Nat
  | [] => 0
  | (w, v) :: l => v % 2 ^ w + 2 ^ w * packBits l

/-- A number cut into fields of given widths, the lowest first. -/
def cutBits : List Nat → Nat → List Nat
  | [], _ => []
  | w :: l, n => n % 2 ^ w :: cutBits l (n / 2 ^ w)

/-- The least multiple of 2^k at or above n. -/
def roundUp (k n : Nat) : Nat := ceilDiv n (2 ^ k) * 2 ^ k

/-- Section types in code order (R199). -/
inductive SectType where
  | null | code | data | readOnly | zeroFilled | relocs | kernels | demands | lines
  deriving DecidableEq, Repr, Inhabited

/-- The code of a section type (R199). -/
def SectType.num : SectType → Nat
  | .null => 0 | .code => 1 | .data => 2 | .readOnly => 3 | .zeroFilled => 4 | .relocs => 5 | .kernels => 6 | .demands => 7
  | .lines => 8

/-- Symbol kinds in code order (R200). -/
inductive SymKind where
  | none | code | data | kernel | card | target | view | groupTable | absolute
  deriving DecidableEq, Repr, Inhabited

/-- The code of a symbol kind (R200). -/
def SymKind.num : SymKind → Nat
  | .none => 0 | .code => 1 | .data => 2 | .kernel => 3 | .card => 4 | .target => 5 | .view => 6 | .groupTable => 7
  | .absolute => 8

/-- Symbol bindings in code order (R200). -/
inductive Binding where
  | ofFile | ofAll | weak
  deriving DecidableEq, Repr, Inhabited

/-- The code of a binding: 0 local, 1 global, 2 weak (R200). -/
def Binding.num : Binding → Nat
  | .ofFile => 0 | .ofAll => 1 | .weak => 2

/-- Where a symbol is defined (R200): nowhere, at an absolute value, in a section by index. -/
inductive SymPlace where
  | undefined | absolute | sect (k : Nat)
  deriving DecidableEq, Repr, Inhabited

/-- The section index of a symbol (R200). -/
def SymPlace.num : SymPlace → Nat
  | .undefined => 0 | .absolute => 0xFFFF | .sect k => k

/-- A section (R199): flags `a`, `w`, `x`, log₂ of the alignment, address, contents; `size` counts for a zero-filled one. -/
structure Sect where
  name  : String
  type  : SectType
  fa    : Bool
  fw    : Bool
  fx    : Bool
  align : Nat
  addr  : Nat
  bytes : List Byte
  size  : Nat
  deriving DecidableEq, Repr, Inhabited

/-- A symbol (R200). `value` is an offset in its section in an object, an address in an image. -/
structure ObjSym where
  name  : String
  place : SymPlace
  bind  : Binding
  kind  : SymKind
  value : Nat
  size  : Nat
  deriving DecidableEq, Repr, Inhabited

/-- Relocation kinds (R202); `cardf` and `descp` with the width, bit position and shift of their field. -/
inductive RelKind where
  | branch18 | blit32 | imm12 | lit32 | lit64 | abs64
  | cardf (width pos shift : Nat)
  | descp (width pos shift : Nat)
  deriving DecidableEq, Repr, Inhabited

/-- The `rkind` field (R201). -/
def RelKind.num : RelKind → Nat
  | .branch18 => 1 | .blit32 => 2 | .imm12 => 3 | .lit32 => 4 | .lit64 => 5 | .abs64 => 6
  | .cardf w p s => packBits [(8, 7), (8, w - 1), (6, p), (2, 0), (6, s)]
  | .descp w p s => packBits [(8, 8), (8, w - 1), (6, p), (2, 0), (6, s)]

/-- The kind of an `rkind` field; none for a reserved value (R201). -/
def RelKind.ofNum (n : Nat) : Option RelKind :=
  match cutBits [8, 8, 6, 2, 6, 2] n with
  | [1, 0, 0, 0, 0, 0] => some .branch18
  | [2, 0, 0, 0, 0, 0] => some .blit32
  | [3, 0, 0, 0, 0, 0] => some .imm12
  | [4, 0, 0, 0, 0, 0] => some .lit32
  | [5, 0, 0, 0, 0, 0] => some .lit64
  | [6, 0, 0, 0, 0, 0] => some .abs64
  | [7, w, p, 0, s, 0] => some (.cardf (w + 1) p s)
  | [8, w, p, 0, s, 0] => some (.descp (w + 1) p s)
  | _ => none

/-- A relocation (R201): the section it patches, the offset P in it, the symbol by index, the kind and the addend. -/
structure Rel where
  sect   : Nat
  off    : Nat
  sym    : Nat
  kind   : RelKind
  addend : BitVec 64
  deriving DecidableEq, Repr, Inhabited

/-- A kernel (R203): its symbol, the symbol of its entry with an addend, the launch header with `code` still 0, and the worst-case
rows per spindle, none when unbounded. In an image `code` stands in the header. -/
structure KernelEnt where
  sym    : Nat
  entry  : Nat
  addend : Nat
  header : Nat
  worst  : Option Nat
  deriving DecidableEq, Repr, Inhabited

/-- A function with a `.frame` (R204). `worst` and `depth` are none when they are unbounded; `recur` and `indir` are `rec` and `ind`. -/
structure DemandEnt where
  sym   : Nat
  decl  : Nat
  args  : Nat
  res   : Nat
  worst : Option Nat
  depth : Option Nat
  recur : Bool
  indir : Bool
  deriving DecidableEq, Repr, Inhabited

/-- A line-table row (R207); `sect` is the section its offset is in. -/
structure LineEnt where
  sect : Nat
  addr : Nat
  file : String
  line : Nat
  col  : Nat
  deriving DecidableEq, Repr, Inhabited

/-- An object, or an image when `image` holds (R198). Section k of the file is `sects[k - 1]`: section 0 is empty. -/
structure Bluden where
  image   : Bool
  sects   : List Sect
  syms    : List ObjSym
  rels    : List Rel
  kernels : List KernelEnt
  demands : List DemandEnt
  lines   : List LineEnt
  deriving DecidableEq, Repr, Inhabited

/-! ### The records as bytes -/

/-- The header (R198). -/
def headerRec (strsz stroff symoff shoff nsym nsect : Nat) (image : Bool) : Nat :=
  packBits [(32, 0x4E444C42), (16, 1), (16, if image then 2 else 1), (32, nsect), (32, nsym), (64, shoff), (64, symoff),
    (64, stroff), (32, strsz), (160, 0)]

/-- The flags of a section (R199). -/
def Sect.flags (s : Sect) : Nat := s.fa.toNat + 2 * s.fw.toNat + 4 * s.fx.toNat

/-- A section's length in bytes. -/
def Sect.length (s : Sect) : Nat := if s.type = .zeroFilled then s.size else s.bytes.length

/-- A section-table entry (R199). -/
def sectRec (name type flags align addr off size link entsz : Nat) : Nat :=
  packBits [(32, name), (32, type), (32, flags), (32, align), (64, addr), (64, off), (64, size), (32, link), (32, entsz)]

/-- A symbol-table entry (R200). -/
def symRec (name : Nat) (s : ObjSym) : Nat :=
  packBits [(32, name), (16, s.place.num), (8, s.bind.num), (8, s.kind.num), (64, s.value), (64, s.size)]

/-- A relocation entry (R201). -/
def relRec (r : Rel) : Nat := packBits [(64, r.off), (32, r.sym), (32, r.kind.num), (64, r.addend.toNat)]

/-- A kernel-table entry (R203). -/
def kernelRec (name : Nat) (k : KernelEnt) : Nat :=
  packBits [(1024, k.header), (32, name), (32, k.worst.getD 0xFFFFFFFF), (960, 0)]

/-- A frame-demand entry (R204). -/
def demandRec (d : DemandEnt) : Nat :=
  packBits [(32, d.sym), (8, d.args), (8, d.res), (16, d.depth.getD 0xFFFF), (32, d.worst.getD 0xFFFFFFFF), (1, d.indir.toNat),
    (1, d.recur.toNat), (8, d.decl), (22, 0)]

/-- A line-table entry (R207). -/
def lineRec (file : Nat) (l : LineEnt) : Nat := packBits [(12, l.col), (20, l.line), (32, file), (64, l.addr)]

/-- A name as zero-terminated bytes of the string area (R198). -/
def nameBytes (n : String) : List Byte := n.toList.map (fun c => BitVec.ofNat 8 c.toNat) ++ [0]

/-- The string area: the names in order, each once (R198). -/
def strArea : List String → List String
  | [] => []
  | n :: l => n :: (strArea l).filter (· != n)

/-- The offset of a name in a string area. -/
def strOff (area : List String) (n : String) : Nat := ((area.takeWhile (· != n)).map fun m => (nameBytes m).length).sum

/-- The rows of a line table in ascending order of `addr` (R207). -/
def insertLine (l : LineEnt) : List LineEnt → List LineEnt
  | [] => [l]
  | m :: r => if l.addr < m.addr then l :: m :: r else m :: insertLine l r

/-- The sorted rows. -/
def sortLines (l : List LineEnt) : List LineEnt := l.foldl (fun acc x => insertLine x acc) []

/-- A section of the file before its place is known: name, type, flags, log₂ alignment, address, link, entry size, size, bytes. -/
structure FileSect where
  name  : String
  type  : Nat
  flags : Nat
  align : Nat
  addr  : Nat
  link  : Nat
  entsz : Nat
  size  : Nat
  bytes : List Byte
  deriving DecidableEq, Repr, Inhabited

/-- The sections of the file after section 0: the object's own, the kernel table, the frame-demand table, a line table for each
section with rows, and a relocation section for each section that is patched (log entry 112). In an object the `code` of a kernel
is an `abs64` relocation of the kernel table (R203); an image has no relocation section (R202). -/
def Bluden.fileSects (b : Bluden) (area : List String) : List FileSect :=
  let recs (n : Nat) (l : List Nat) : List Byte := l.flatMap (toBytes n)
  let table (name : String) (t al link ent : Nat) (bs : List Byte) : List FileSect :=
    if bs.isEmpty then [] else [⟨name, t, 0, al, 0, link, ent, bs.length, bs⟩]
  let idx := (List.range b.sects.length).map (· + 1)
  let codeRels := (b.kernels.zip (List.range b.kernels.length)).map fun p =>
    relRec ⟨0, 256 * p.2, p.1.entry, .abs64, BitVec.ofNat 64 p.1.addend⟩
  b.sects.map (fun s => ⟨s.name, s.type.num, s.flags, s.align, s.addr, 0, 0, s.length,
      if s.type = .zeroFilled then [] else s.bytes⟩) ++
    table ".kernels" 6 7 0 256 (recs 256 (b.kernels.map fun k => kernelRec (strOff area ((b.syms.getD k.sym default).name)) k)) ++
    table ".demands" 7 4 0 16 (recs 16 (b.demands.map demandRec)) ++
    idx.flatMap (fun k => table ".lines" 8 4 (if b.image then 0 else k) 16
      (recs 16 ((sortLines (b.lines.filter (·.sect == k))).map fun l => lineRec (strOff area l.file) l))) ++
    idx.flatMap (fun k => table ".rel" 5 3 k 24 (recs 24 ((b.rels.filter (·.sect == k)).map relRec))) ++
    (if b.image then [] else table ".rel" 5 3 (b.sects.length + 1) 24 (recs 24 codeRels))

/-- The sections' bodies from an offset on, each at its alignment, with the offset of each. -/
def layBodies : Nat → List FileSect → List Nat × List Byte
  | _, [] => ([], [])
  | off, s :: l =>
    let o := if s.type = 4 then off else roundUp s.align off
    let r := layBodies (o + s.bytes.length) l
    ((if s.type = 4 then 0 else o) :: r.1, List.replicate (o - off) 0 ++ s.bytes ++ r.2)

/-- The file of an object or image (R198 to R204, R207): header, bodies, section table, symbol table, string area. -/
def Bluden.toBytes (b : Bluden) : List Byte :=
  let area := strArea (b.sects.map (·.name) ++ b.syms.map (·.name) ++ b.lines.map (·.file) ++
    [".rel", ".kernels", ".demands", ".lines"])
  let fs := b.fileSects area
  let (offs, body) := layBodies 64 fs
  let shoff := roundUp 3 (64 + body.length)
  let tab := Machine.toBytes 48 0 ++ ((fs.zip offs).flatMap fun p =>
    Machine.toBytes 48 (sectRec (strOff area p.1.name) p.1.type p.1.flags p.1.align p.1.addr p.2 p.1.size p.1.link p.1.entsz))
  let syms := b.syms.flatMap fun s => Machine.toBytes 24 (symRec (strOff area s.name) s)
  let strs := area.flatMap nameBytes
  let symoff := shoff + tab.length
  let stroff := symoff + syms.length
  Machine.toBytes 64 (headerRec strs.length stroff symoff shoff b.syms.length (fs.length + 1) b.image) ++ body ++
    List.replicate (shoff - 64 - body.length) 0 ++ tab ++ syms ++ strs

/-- Whether a header, section entry, symbol or relocation has no reserved bit or value (R198 to R201). -/
def headerOk (n : Nat) : Bool :=
  nbits n 511 352 == 0 && (nbits n 63 48 == 1 || nbits n 63 48 == 2) && nbits n 47 32 == 1 && nbits n 31 0 == 0x4E444C42

def sectRecOk (n : Nat) : Bool :=
  decide (nbits n 63 32 ≤ 8) && decide (nbits n 95 64 < 8) &&
    (nbits n 63 32 == 0 || (decide (2 ≤ nbits n 127 96) && decide (nbits n 127 96 ≤ 16)))

def symRecOk (n : Nat) : Bool := decide (nbits n 63 56 ≤ 8) && decide (nbits n 55 48 ≤ 2)

def relRecOk (n : Nat) : Bool := (RelKind.ofNum (nbits n 127 96)).isSome

/-! ### The link -/

/-- Why a link makes no image (R202, R206, R208). -/
inductive LinkError where
  | twice (name : String)
  | undefined (name : String)
  | sectionMismatch (name : String)
  | relocation (sect off : Nat)
  | register (name : String)
  | demand (name : String)
  | args (name : String)
  | result (name : String)
  | noFrame (name : String)
  | rows (name : String)
  deriving DecidableEq, Repr, Inhabited

/-- What the link warns of (R206). -/
inductive LinkWarning where
  | mayBlock (name : String)
  | recursive (name : String)
  | indirect (name : String)
  deriving DecidableEq, Repr, Inhabited

/-- A piece of an output section: which object and section it comes from and its offset in the output section. -/
structure Piece where
  obj  : Nat
  sect : Nat
  off  : Nat
  deriving DecidableEq, Repr, Inhabited

/-- An output section with its pieces. -/
structure Merged where
  out    : Sect
  pieces : List Piece
  deriving DecidableEq, Repr, Inhabited

/-- One input section appended to the output section of its name and type, or opening it (R208). -/
def mergeOne (s : Sect) (obj sect : Nat) : List Merged → Except LinkError (List Merged)
  | [] => .ok [⟨{ s with addr := 0, size := s.length }, [⟨obj, sect, 0⟩]⟩]
  | m :: l =>
    if m.out.name ≠ s.name then (mergeOne s obj sect l).map (m :: ·)
    else if m.out.type ≠ s.type ∨ m.out.flags ≠ s.flags then .error (.sectionMismatch s.name)
    else
      let off := roundUp s.align m.out.size
      let bs := if s.type = .zeroFilled then [] else m.out.bytes ++ List.replicate (off - m.out.size) 0 ++ s.bytes
      .ok (⟨{ m.out with bytes := bs, size := off + s.length, align := max m.out.align s.align },
        m.pieces ++ [⟨obj, sect, off⟩]⟩ :: l)

/-- The sections of one type of every object, in input order, merged by name. -/
def mergeType (t : SectType) (objs : List Bluden) : Except LinkError (List Merged) :=
  let ins := (objs.zip (List.range objs.length)).flatMap fun p =>
    ((p.1.sects.zip (List.range p.1.sects.length)).filter (·.1.type == t)).map fun q => (q.1, p.2, q.2 + 1)
  ins.foldlM (fun acc x => mergeOne x.1 x.2.1 x.2.2 acc) []

/-- Output sections placed one after another from an address on, each at its alignment; the address after the last. -/
def placeAll : Nat → List Merged → List Merged × Nat
  | at_, [] => ([], at_)
  | at_, m :: l =>
    let a := roundUp m.out.align at_
    let r := placeAll (a + m.out.size) l
    ({ m with out := { m.out with addr := a } } :: r.1, r.2)

/-- R208: code sections first, then read-only, data and zero-filled ones, each type from a 64 KiB boundary on. -/
def placeTypes (base : Nat) (ms : List (List Merged)) : List Merged :=
  (ms.foldl (fun acc l =>
    let p := placeAll (roundUp 16 acc.2) l
    (acc.1 ++ p.1, if l.isEmpty then acc.2 else p.2)) ([], base)).1

/-- A section name that two types share is an error, since the link concatenates sections of one name (log entry 113). -/
def crossNames : List Merged → Option String
  | [] => none
  | m :: l => if l.any (·.out.name == m.out.name) then some m.out.name else crossNames l

/-- The address of a section of an object. -/
def sectAddr (ms : List Merged) (obj sect : Nat) : Nat :=
  (ms.findSome? fun m => (m.pieces.find? fun p => p.obj == obj && p.sect == sect).map fun p => m.out.addr + p.off).getD 0

/-- The output section of a section of an object, counted from 1. -/
def sectIndex (ms : List Merged) (obj sect : Nat) : Nat :=
  (ms.findIdx fun m => m.pieces.any fun p => p.obj == obj && p.sect == sect) + 1

/-- A symbol of an object as the image holds it: its address (R200). -/
def imageSym (ms : List Merged) (obj : Nat) (s : ObjSym) : ObjSym :=
  match s.place with
  | .sect k => { s with place := .sect (sectIndex ms obj k), value := (sectAddr ms obj k + s.value) % 2 ^ 64 }
  | _ => s

/-- The definitions of a name that other files see: those of one binding. -/
def definitions (ms : List Merged) (objs : List Bluden) (b : Binding) (n : String) : List ObjSym :=
  (objs.zip (List.range objs.length)).flatMap fun p =>
    (p.1.syms.filter fun s => s.name == n && s.bind == b && s.place != .undefined).map (imageSym ms p.2)

/-- The definition that a name means: a global one, else a weak one (R208). -/
def resolveName (ms : List Merged) (objs : List Bluden) (n : String) : Except LinkError ObjSym :=
  match definitions ms objs .ofAll n, definitions ms objs .weak n with
  | [s], _ => .ok s
  | _ :: _ :: _, _ => .error (.twice n)
  | [], s :: _ => .ok s
  | [], [] => .error (.undefined n)

/-- The symbol an object's symbol stands for (R208): its own when it is local and defined, else what the name means. -/
def resolveSym (ms : List Merged) (objs : List Bluden) (obj : Nat) (s : ObjSym) : Except LinkError ObjSym :=
  if s.bind = .ofFile ∧ s.place ≠ .undefined then .ok (imageSym ms obj s) else resolveName ms objs s.name

/-- Whether an object's own definition is the one that its symbol means: a weak one may yield to another (R208). -/
def ownsSym (ms : List Merged) (objs : List Bluden) (obj k : Nat) : Bool :=
  let s := ((objs.getD obj default).syms).getD k default
  match resolveSym ms objs obj s with
  | .ok r => r == imageSym ms obj s
  | .error _ => false

/-- n little-endian bytes at an offset as a number. -/
def readAt (bs : List Byte) (off n : Nat) : Nat := ofBytes ((bs.drop off).take n)

/-- Bytes with n little-endian bytes at an offset replaced. -/
def patchAt (bs : List Byte) (off n v : Nat) : List Byte := bs.take off ++ toBytes n v ++ bs.drop (off + n)

/-- Where the literal of the instruction at an offset starts (R158). -/
def literalAt (bs : List Byte) (off : Nat) : Nat := off + (if readAt bs off 4 % 4 = 2 then 4 else 12)

/-- A word with bits [hi:lo] replaced by a field. -/
def setField (w hi lo v : Nat) : Nat := w - nbits w hi lo * 2 ^ lo + v % 2 ^ (hi + 1 - lo) * 2 ^ lo

/-- R232: how `ldi` holds a value in its base form: field and `m`. -/
def ldiBase (v : BitVec 64) : Option (Nat × Bool) :=
  if -2048 ≤ v.toInt ∧ v.toInt ≤ 2047 then some (v.toNat % 4096, false)
  else if v.toNat % 2 ^ 20 = 0 ∧ v.toNat < 2 ^ 32 then some (v.toNat / 2 ^ 20, true)
  else none

/-- The bytes of a section with one relocation made (R202): S + A is `v`, the kind of the symbol `sk`, and P the address `p` of
the instruction or word at offset `off`. None is one of the errors of R202. -/
def relocate (bs : List Byte) (off p : Nat) (v : BitVec 64) (sk : SymKind) (k : RelKind) : Option (List Byte) :=
  let dist : Int := (v - BitVec.ofNat 64 p).toInt
  let field (w pos sh : Nat) : Option (List Byte) :=
    if v.toNat % 2 ^ sh = 0 ∧ v.toNat / 2 ^ sh < 2 ^ w then
      some (patchAt bs off 8 (setField (readAt bs off 8) (pos + w - 1) pos (v.toNat / 2 ^ sh)))
    else none
  match k with
  | .branch18 =>
    if dist % 4 = 0 ∧ -131072 ≤ dist / 4 ∧ dist / 4 ≤ 131071 then
      some (patchAt bs off 4 (setField (readAt bs off 4) 31 14 (modPow 18 (dist / 4))))
    else none
  | .blit32 =>
    if dist % 4 = 0 ∧ -(2 ^ 31 : Int) ≤ dist / 4 ∧ dist / 4 < 2 ^ 31 then
      some (patchAt bs (literalAt bs off) 4 (modPow 32 (dist / 4)))
    else none
  | .imm12 => (ldiBase v).map fun q =>
      patchAt bs off 4 (setField (setField (readAt bs off 4) 31 20 q.1) 13 13 q.2.toNat)
  | .lit32 =>
    if v.toNat < 2 ^ 32 ∨ 2 ^ 64 - 2 ^ 31 ≤ v.toNat then some (patchAt bs (literalAt bs off) 4 (v.toNat % 2 ^ 32)) else none
  | .lit64 => some (patchAt bs (literalAt bs off) 8 v.toNat)
  | .abs64 => some (patchAt bs off 8 v.toNat)
  | .cardf w pos sh => field w pos sh
  | .descp w pos sh => if sk = .code ∨ sk = .target ∨ sk = .view ∨ sk = .groupTable then field w pos sh else none

/-- One relocation of an object made in the output sections. -/
def relocateIn (objs : List Bluden) (obj : Nat) (ms : List Merged) (r : Rel) : Except LinkError (List Merged) := do
  let s ← resolveSym ms objs obj (((objs.getD obj default).syms).getD r.sym default)
  let k := sectIndex ms obj r.sect - 1
  let m := ms.getD k default
  let p := sectAddr ms obj r.sect + r.off
  match relocate m.out.bytes (p - m.out.addr) p (BitVec.ofNat 64 s.value + r.addend) s.kind r.kind with
  | some bs => .ok (setAt ms k { m with out := { m.out with bytes := bs } })
  | none => .error (.relocation r.sect r.off)

/-! ### Calls and their checks -/

/-- The instructions of a run of bytes; bytes that decode to none are passed over word by word (R195). -/
def wordsIn : Nat → List Nat → List Instr
  | 0, _ => []
  | _, [] => []
  | n + 1, w :: ws =>
    match decodeWords (w :: ws) with
    | .ok (i, k) => i :: wordsIn n ((w :: ws).drop k)
    | .error _ => wordsIn n ws

/-- A direct call site: the address called, the demand in rows, and the argument rows (R205, R206). -/
structure CallSite where
  target : Nat
  rows   : Nat
  args   : Nat
  deriving DecidableEq, Repr, Inhabited

/-- A function or kernel as the checks see it (R206). -/
structure FnInfo where
  name    : String
  addr    : Nat
  decl    : Nat
  args    : Nat
  res     : Nat
  regs    : List Nat
  calls   : List CallSite
  calli   : Bool
  results : List Nat
  deriving DecidableEq, Repr, Inhabited

/-- What one instruction adds to what the checks see. -/
def FnInfo.see (f : FnInfo) (i : Instr) : FnInfo :=
  let f := { f with regs := (regReads i).map (·.1) ++ regWrites i ++ f.regs }
  match i with
  | .call h _ x => { f with calls := ⟨h.lit.toNat, xf x 7 0 + 1, xf x 12 8⟩ :: f.calls }
  | .calli .. => { f with calli := true }
  | .ret _ _ x => { f with results := xf x 2 0 :: f.results }
  | _ => f

/-- A function's body read from the image: the bytes of its symbol (log entry 114). -/
def fnInfo (ms : List Merged) (s : ObjSym) (decl args res : Nat) : FnInfo :=
  let k := match s.place with
    | .sect k => k - 1
    | _ => ms.length
  let m := (ms.getD k default).out
  let ws := wordsOfBytes ((m.bytes.drop (s.value - m.addr)).take s.size)
  (wordsIn ws.length ws).foldl FnInfo.see ⟨s.name, s.value, decl, args, res, [], [], false, []⟩

/-- Rows rounded to the granule of 8 (R204). -/
def rows8 (n : Nat) : Nat := ceilDiv n 8 * 8

/-- The function at an address. -/
def fnAt (fs : List FnInfo) (a : Nat) : Option FnInfo := fs.find? (·.addr == a)

/-- The functions reached by direct calls within n calls, the function itself left out unless it is reached. -/
def reach (fs : List FnInfo) : Nat → FnInfo → List Nat
  | 0, _ => []
  | n + 1, f => f.calls.flatMap fun c => c.target :: (match fnAt fs c.target with
    | some g => reach fs n g
    | none => [])

/-- R204 `rec`: the function reaches itself through direct calls. -/
def FnInfo.recursive (fs : List FnInfo) (f : FnInfo) : Bool := (reach fs fs.length f).contains f.addr

/-- R204 `ind`: the function, or a callee, contains `calli`. -/
def FnInfo.indirect (fs : List FnInfo) (f : FnInfo) : Bool :=
  f.calli || (reach fs fs.length f).any fun a => match fnAt fs a with
    | some g => g.calli
    | none => false

/-- R204: the rows of the deepest chain of frames and the deepest call depth below, none when a cycle or a `calli` leaves them
unbounded. A callee's frame counts with its call site's demand, which is at least the declared one (R206). -/
def chain (fs : List FnInfo) : Nat → FnInfo → Option (Nat × Nat)
  | 0, _ => none
  | n + 1, f =>
    if f.calli then none
    else f.calls.foldl (fun acc c =>
      match acc, (fnAt fs c.target).bind fun g => (chain fs n g).map fun p => (p.1 - rows8 g.decl + rows8 (max c.rows g.decl), p.2 + 1) with
      | some a, some p => some (max a.1 (rows8 f.decl + p.1), max a.2 p.2)
      | _, _ => none) (some (rows8 f.decl, 0))

/-- The checks of R206 on direct call sites: each callee has a `.frame`, and the demand and `args` of the call cover it. -/
def FnInfo.checkCalls (fs : List FnInfo) (f : FnInfo) : Except LinkError Unit :=
  match f.calls.find? fun c => (fnAt fs c.target).isNone with
  | some _ => .error (.noFrame f.name)
  | none =>
    let bad (p : CallSite → FnInfo → Bool) : Bool := f.calls.any fun c => match fnAt fs c.target with
      | some g => p c g
      | none => false
    if bad fun c g => decide (c.rows < g.decl) then .error (.demand f.name)
    else if bad fun c g => decide (c.args < g.args) then .error (.args f.name)
    else .ok ()

/-- The checks 1 to 4 of R206 on one function. A kernel takes no arguments and its `ret` ends a fibre, so checks 3 and 4 are of
functions that are called. -/
def FnInfo.check (fs : List FnInfo) (f : FnInfo) (kernel : Bool) : Except LinkError Unit :=
  if f.regs.any fun r => decide (f.decl ≤ r) then .error (.register f.name)
  else if !kernel && f.results.any (· != f.res) then .error (.result f.name)
  else f.checkCalls fs

/-- The direct call sites of a code section, inside and outside of functions (R206). -/
def sectCalls (m : Merged) : FnInfo :=
  let ws := wordsOfBytes m.out.bytes
  (wordsIn ws.length ws).foldl FnInfo.see ⟨m.out.name, m.out.addr, 256, 0, 0, [], [], false, []⟩

/-- A kernel's body as the checks see it: it declares the rows of its header (R194). -/
def kernelInfo (ms : List Merged) (s : ObjSym) (header : Nat) : FnInfo := fnInfo ms s ((parseHeader header).frm + 1) 0 0

/-- R206: the rows beyond which a kernel may block on frames while it runs. -/
def blockBound (h : Header) : Nat := 512 / ceilDiv h.spindles 4

/-- A demand entry with its computed fields (R204). -/
def demandOf (fs : List FnInfo) (f : FnInfo) (sym : Nat) : DemandEnt :=
  let c := chain fs (fs.length + 1) f
  ⟨sym, f.decl - 1, f.args, f.res, c.map (·.1), c.map (·.2), f.recursive fs, f.indirect fs⟩

/-- The warnings of a function: it reaches itself, or a `calli` (R206). -/
def FnInfo.warnings (fs : List FnInfo) (f : FnInfo) : List LinkWarning :=
  (if f.recursive fs then [.recursive f.name] else []) ++ (if f.indirect fs then [.indirect f.name] else [])

/-- A kernel's check 5 and warnings (R206); none for rows is 0xFFFF_FFFF in the table (R203). -/
def kernelCheck (fs : List FnInfo) (f : FnInfo) (h : Header) : Except LinkError (Option Nat × List LinkWarning) :=
  let warn := f.warnings (f :: fs)
  match chain fs (fs.length + 2) f with
  | none => .ok (none, warn)
  | some (w, _) =>
    if 512 < w then .error (.rows f.name)
    else .ok (some w, warn ++ if blockBound h < w then [LinkWarning.mayBlock f.name] else [])

/-- The link (R206, R208): an image at a base address, with its warnings, or an error. -/
def link (base : Nat) (objs : List Bluden) : Except LinkError (Bluden × List LinkWarning) := do
  let groups ← [SectType.code, .readOnly, .data, .zeroFilled].mapM (mergeType · objs)
  match crossNames groups.flatten with
  | some n => .error (.sectionMismatch n)
  | none =>
    let ms := placeTypes base groups
    let idx := objs.zip (List.range objs.length)
    let ms ← (idx.flatMap fun p => p.1.rels.map fun r => (p.2, r)).foldlM (fun acc x => relocateIn objs x.1 acc x.2) ms
    let syms ← (idx.flatMap fun p => p.1.syms.map fun s => (p.2, s)).mapM fun x => resolveSym ms objs x.1 x.2
    let at_ (obj k : Nat) : Nat := ((objs.take obj).map (·.syms.length)).sum + k
    let symOf (k : Nat) : ObjSym := syms.getD k default
    let fns := idx.flatMap fun p => (p.1.demands.filter fun d => ownsSym ms objs p.2 d.sym).map fun d =>
      (at_ p.2 d.sym, fnInfo ms (symOf (at_ p.2 d.sym)) (d.decl + 1) d.args d.res)
    let fs := fns.map (·.2)
    let kern := idx.flatMap fun p => (p.1.kernels.filter fun k => ownsSym ms objs p.2 k.sym).map fun k =>
      { k with sym := at_ p.2 k.sym, entry := at_ p.2 k.entry,
               header := setField k.header 63 0 ((symOf (at_ p.2 k.entry)).value + k.addend) }
    let _ ← fs.mapM fun f => f.check fs false
    let _ ← (ms.filter fun m => m.out.type == .code).mapM fun m => (sectCalls m).checkCalls fs
    let ks ← kern.mapM fun k => do
      let f := kernelInfo ms (symOf k.sym) k.header
      let _ ← f.check fs true
      let r ← kernelCheck fs f (parseHeader k.header)
      return ({ k with worst := r.1 }, r.2)
    let lines := idx.flatMap fun p => p.1.lines.map fun l =>
      { l with sect := sectIndex ms p.2 l.sect, addr := sectAddr ms p.2 l.sect + l.addr }
    return (⟨true, ms.map (·.out), syms, [], ks.map (·.1), fns.map (fun f => demandOf fs f.2 f.1), lines⟩,
      fs.flatMap (FnInfo.warnings fs) ++ ks.flatMap (·.2))

/-- What system software maps of an image (R208): a VA, a size, whether it may be written and executed, and the contents. -/
structure Mapping where
  va    : Nat
  size  : Nat
  w     : Bool
  x     : Bool
  bytes : List Byte
  deriving DecidableEq, Repr, Inhabited

/-- R208: each allocated section at its `addr`, `x` only for code, `w` only for data and zero-filled sections. -/
def Bluden.mappings (b : Bluden) : List Mapping :=
  (b.sects.filter (·.fa)).map fun s =>
    ⟨s.addr, s.length, s.type == .data || s.type == .zeroFilled, s.type == .code,
      if s.type = .zeroFilled then List.replicate s.size 0 else s.bytes⟩

/-- R203: the launch header that system software writes into a launch window, its `argp` written. -/
def KernelEnt.launch (k : KernelEnt) (argp : BitVec 64) : Nat := setField k.header 127 64 argp.toNat

end Sys2Proof.Machine
end

