-- ==== Sys2Proof/Machine/Assembly.lean ====
section
/-!
DEFINITION. Statements of the assembly language (spec/09_assembly.md R185 to R193): tokens, expressions, operands, modifiers,
guards, and the words that a statement or a pair makes. It acts on source text; no step of the package runs it.
-/

namespace Sys2Proof.Machine

/-- Why a source is rejected (R185 to R197). -/
inductive AsmError where
  | token
  | statement
  | mnemonic (m : String)
  | directive (d : String)
  | operand
  | register
  | modifier (f : String)
  | value (f : String)
  | noForm
  | pairForm
  | expression
  | division
  | notAbsolute
  | twice (n : String)
  | kernel
  | header
  | section_
  | alignment
  | nesting
  | file (n : String)
  | unfinished (d : String)
  | arguments (d : String)
  | target
  | fuel
  | unstable
  deriving DecidableEq, Repr, Inhabited

/-! ### Tokens -/

/-- A token: a name, an integer, a decimal m × 10^(−k) with its suffix (a blank for none), a quoted string, a punctuation mark. -/
inductive Tok where
  | word (s : String)
  | num (n : Nat)
  | dec (m k : Nat) (suffix : Char)
  | str (s : List Char)
  | op (s : String)
  deriving DecidableEq, Repr, Inhabited

/-- R185: a name begins with a letter, `_` or `.`. -/
def nameStart (c : Char) : Bool := c.isAlpha || c == '_' || c == '.'

/-- R185: a name goes on with letters, digits, `_` and `.`. -/
def nameRest (c : Char) : Bool := nameStart c || c.isDigit

/-- The value of a digit in base 16. -/
def digitVal (c : Char) : Option Nat :=
  if c.isDigit then some (c.toNat - 48)
  else if 'a' ≤ c ∧ c ≤ 'f' then some (c.toNat - 87)
  else if 'A' ≤ c ∧ c ≤ 'F' then some (c.toNat - 55)
  else none

/-- Digits of a base with `_` between them: their value, their number and the rest. -/
def digits (base : Nat) : List Char → Nat × Nat × List Char → Nat × Nat × List Char
  | [], acc => acc
  | c :: cs, (v, n, _) =>
    if c = '_' then digits base cs (v, n, cs)
    else match digitVal c with
      | some d => if d < base then digits base cs (base * v + d, n + 1, cs) else (v, n, c :: cs)
      | none => (v, n, c :: cs)

/-- The number that starts a list of characters (R188). -/
def lexNumber (cs : List Char) : Except AsmError (Tok × List Char) :=
  match cs with
  | '0' :: 'x' :: r =>
    let (v, n, r') := digits 16 r (0, 0, r)
    if n = 0 || (r'.head?.any nameRest) then .error .token else .ok (.num v, r')
  | _ =>
    let (v, _, r) := digits 10 cs (0, 0, cs)
    let (m, k, r) := match r with
      | '.' :: d :: r' => if d.isDigit then digits 10 (d :: r') (v, 0, d :: r') else (v, 0, r)
      | _ => (v, 0, r)
    match r with
    | c :: r' =>
      if (c == 'f' || c == 'd' || c == 'h') && !(r'.head?.any nameRest) then .ok (.dec m k c, r')
      else if nameRest c then .error .token
      else .ok (if k = 0 then .num m else .dec m k ' ', r)
    | [] => .ok (if k = 0 then .num m else .dec m k ' ', [])

/-- The tokens of a line without its comment. The fuel is the line's length. -/
def lexFrom : Nat → List Char → Except AsmError (List Tok)
  | 0, [] => .ok []
  | 0, _ => .error .token
  | n + 1, cs =>
    match cs with
    | [] => .ok []
    | c :: r =>
      if c.isWhitespace then lexFrom n r
      else if nameStart c then
        (lexFrom n (r.dropWhile nameRest)).map (.word (String.ofList (c :: r.takeWhile nameRest)) :: ·)
      else if c.isDigit then do
        let (t, r') ← lexNumber cs
        (lexFrom n r').map (t :: ·)
      else if c = '"' then
        match r.dropWhile (· != '"') with
        | _ :: r' => (lexFrom n r').map (.str (r.takeWhile (· != '"')) :: ·)
        | [] => .error .token
      else match c, r with
        | '|', '|' :: r' => (lexFrom n r').map (.op "||" :: ·)
        | '<', '<' :: r' => (lexFrom n r').map (.op "<<" :: ·)
        | '>', '>' :: r' => (lexFrom n r').map (.op ">>" :: ·)
        | _, _ =>
          if [',', ':', '(', ')', '[', ']', '<', '>', '+', '-', '*', '/', '&', '|', '#', '!', '='].contains c then
            (lexFrom n r).map (.op (String.ofList [c]) :: ·)
          else .error .token

/-- The tokens of a line. -/
def lex (cs : List Char) : Except AsmError (List Tok) := lexFrom (cs.length + 1) cs

/-- A line without its comment, which runs from `;` or `//` to the end (R8, R185); a quoted string hides both. -/
def stripComment : Bool → List Char → List Char
  | _, [] => []
  | true, c :: r => c :: stripComment (c != '"') r
  | false, ';' :: _ => []
  | false, '/' :: '/' :: _ => []
  | false, c :: r => c :: stripComment (c == '"') r

/-! ### Values -/

/-- A value (R196): a constant, or a symbol plus a constant. -/
structure Val where
  sym : Option String
  k   : BitVec 64
  deriving DecidableEq, Repr, Inhabited

/-- A label: section by index, offset, kind, size. -/
structure Label where
  name : String
  sect : Nat
  off  : Nat
  kind : SymKind
  size : Nat
  deriving DecidableEq, Repr, Inhabited

/-- What a statement is assembled against: the labels known, the absolute symbols, the register names, the declared frames
(rows and arguments), where it stands, and whether this is the first pass, in which later labels are not known yet. -/
structure Env where
  labels  : List Label
  sets    : List (String × BitVec 64)
  regs    : List (String × Nat × Bool)
  demands : List (String × Nat)
  sect    : Nat
  off     : Nat
  first   : Bool
  deriving DecidableEq, Repr, Inhabited

/-- The label of a name. -/
def Env.label (e : Env) (n : String) : Option Label := e.labels.find? (·.name == n)

/-- The difference of two values (R196): two symbols of one section give a constant. -/
def Env.sub (e : Env) (x y : Val) : Except AsmError Val :=
  match x.sym, y.sym with
  | s, none => .ok ⟨s, x.k - y.k⟩
  | some a, some b =>
    match e.label a, e.label b with
    | some p, some q => if p.sect = q.sect then .ok ⟨none, BitVec.ofNat 64 p.off - BitVec.ofNat 64 q.off + (x.k - y.k)⟩
        else .error .expression
    | _, _ => if e.first then .ok ⟨none, 0⟩ else .error .expression
  | none, some _ => .error .expression

/-- The binding strength of an operator: `|` weakest, then `&`, shifts, sums, products (log entry 115). -/
def opLevel : String → Option Nat
  | "|" => some 1
  | "&" => some 2
  | "<<" => some 3
  | ">>" => some 3
  | "+" => some 4
  | "-" => some 4
  | "*" => some 5
  | "/" => some 5
  | _ => none

/-- An operator on two values (R196). -/
def Env.apply (e : Env) (o : String) (x y : Val) : Except AsmError Val :=
  match o with
  | "-" => e.sub x y
  | "+" => match x.sym, y.sym with
    | s, none => .ok ⟨s, x.k + y.k⟩
    | none, s => .ok ⟨s, x.k + y.k⟩
    | _, _ => .error .expression
  | _ =>
    if x.sym.isSome || y.sym.isSome then .error .expression
    else
      let a := x.k
      let b := y.k
      let const (v : BitVec 64) : Except AsmError Val := .ok ⟨none, v⟩
      match o with
      | "*" => const (a * b)
      | "/" => if b = 0 ∨ (a = BitVec.intMin 64 ∧ b = -1) then .error .division else const (a.sdiv b)
      | "<<" => const (if 64 ≤ b.toNat then 0 else a <<< b.toNat)
      | ">>" => const (if 64 ≤ b.toNat then 0 else a >>> b.toNat)
      | "&" => const (a &&& b)
      | "|" => const (a ||| b)
      | _ => .error .expression

/-- Whether an operator is no operator where it stands: a `|` that ends an absolute value, or a `<` that opens a pattern. -/
def endsExpr : List Tok → Bool
  | .op o :: _ => (opLevel o).isNone
  | _ => true

mutual
/-- A term: an integer, a name, a negated term, an expression in parentheses. -/
def parseTerm (e : Env) : Nat → List Tok → Except AsmError (Val × List Tok)
  | 0, _ => .error .expression
  | n + 1, ts =>
    match ts with
    | .num v :: r => .ok (⟨none, BitVec.ofNat 64 v⟩, r)
    | .word s :: r => match e.sets.lookup s with
      | some v => .ok (⟨none, v⟩, r)
      | none => .ok (⟨some s, 0⟩, r)
    | .op "-" :: r => do
      let (v, r) ← parseTerm e n r
      let v ← e.sub ⟨none, 0⟩ v
      return (v, r)
    | .op "(" :: r => do
      let (v, r) ← parseTerm e n r
      let (v, r) ← parseRest e n 1 v r
      match r with
      | .op ")" :: r => return (v, r)
      | _ => .error .expression
    | _ => .error .expression

/-- The operators of at least a given strength that follow a value. -/
def parseRest (e : Env) : Nat → Nat → Val → List Tok → Except AsmError (Val × List Tok)
  | 0, _, _, _ => .error .expression
  | n + 1, lvl, x, ts =>
    match ts with
    | .op o :: r =>
      match opLevel o with
      | some l =>
        if l < lvl then .ok (x, ts)
        else do
          let (y, r) ← parseTerm e n r
          let (y, r) ← parseRest e n (l + 1) y r
          let v ← e.apply o x y
          parseRest e n lvl v r
      | none => .ok (x, ts)
    | _ => .ok (x, ts)
end

/-- An expression (R196) and the tokens after it. -/
def parseExpr (e : Env) (ts : List Tok) : Except AsmError (Val × List Tok) := do
  let n := 2 * ts.length + 2
  let (v, r) ← parseTerm e n ts
  parseRest e n 1 v r

/-- The constant of a value. -/
def Val.absolute (v : Val) : Except AsmError (BitVec 64) :=
  match v.sym with
  | none => .ok v.k
  | some _ => .error .notAbsolute

/-- A whole list of tokens as a constant. -/
def constOf (e : Env) (ts : List Tok) : Except AsmError (BitVec 64) := do
  let (v, r) ← parseExpr e ts
  if r.isEmpty then v.absolute else .error .expression

/-- The encoding of a decimal in a format under `rn` (R188). -/
def decimal (f : Fmt) (neg : Bool) (m k : Nat) : Nat :=
  (f.round .rn false false (exactDiv ⟨neg, m, 0, false⟩ ⟨false, 10 ^ k, 0, false⟩)).1

/-- The format of a suffix (R188). -/
def suffixFmt : Char → Option Fmt
  | 'f' => some .f32
  | 'd' => some .f64
  | 'h' => some .f16
  | _ => none

/-- A literal after its `#` (R188): an expression, or a decimal with a suffix. The Bool says that it is an integer. -/
def parseLiteral (e : Env) (ts : List Tok) : Except AsmError (Val × Bool × List Tok) :=
  let float (neg : Bool) (m k : Nat) (c : Char) (r : List Tok) : Except AsmError (Val × Bool × List Tok) :=
    match suffixFmt c with
    | some f => .ok (⟨none, BitVec.ofNat 64 (decimal f neg m k)⟩, false, r)
    | none => .error .operand
  match ts with
  | .dec m k c :: r => float false m k c r
  | .op "-" :: .dec m k c :: r => float true m k c r
  | _ => (parseExpr e ts).map fun p => (p.1, true, p.2)

/-! ### Operands -/

/-- A register operand: number, pattern, negation and absolute value (R187). -/
structure RegOpd where
  r   : Nat
  pat : Pat
  neg : Bool
  abs : Bool
  deriving DecidableEq, Repr, Inhabited

/-- An operand as written (R187 to R189): a register; a literal, whether an integer, and whether `<hi>`; an absent offset; a
symbol or number without `#`; a special register. -/
inductive Opd where
  | reg (x : RegOpd)
  | lit (v : Val) (int hi : Bool)
  | noOffset
  | bare (v : Val)
  | sreg (n : Nat)
  deriving DecidableEq, Repr, Inhabited

/-- The register a name stands for, and whether the name is of a pair: `vK`, `wK` with K even, or a `.reg` name (R187, R196). -/
def Env.regName (e : Env) (s : String) : Except AsmError (Option (Nat × Bool)) :=
  match e.regs.lookup s with
  | some r => .ok (some r)
  | none =>
    match s.toList with
    | c :: cs =>
      if (c == 'v' || c == 'w') && !cs.isEmpty && cs.all Char.isDigit then
        let n := (digits 10 cs (0, 0, cs)).1
        if 255 < n || (c == 'w' && n % 2 != 0) then .error .register else .ok (some (n, c == 'w'))
      else .ok none
    | [] => .ok none

/-- The register a name stands for. -/
def Env.reg (e : Env) (s : String) : Except AsmError (Option Nat) := (e.regName s).map fun r => r.map Prod.fst

/-- Whether tokens start with the name of a register of a kind: a pair, or one register. -/
def Env.startsWith (e : Env) (pair : Bool) (ts : List Tok) : Except AsmError Bool :=
  match ts with
  | .word s :: _ => (e.regName s).map fun r => r.any fun p => p.2 == pair
  | _ => .ok false

/-- The pattern of a name and amount (R168, R187). -/
def patOf (s : String) (k : Nat) : Option Pat :=
  if 31 < k then none
  else
    let a := BitVec.ofNat 5 k
    match s with
    | "rot" => some (.rot a)
    | "bc" => some (.bc a)
    | "bfly" => some (.bfly a)
    | "mir" => if 1 ≤ k ∧ k ≤ 5 then some (.mir a) else none
    | "srot" => some (.srot a)
    | _ => none

/-- The pattern that follows a register, if any. -/
def parsePat (e : Env) (ts : List Tok) : Except AsmError (Pat × List Tok) :=
  match ts with
  | .op "<" :: .word p :: .op ":" :: r => do
    let (v, r) ← parseExpr e r
    let k ← v.absolute
    match patOf p k.toNat, r with
    | some q, .op ">" :: r => return (q, r)
    | _, _ => .error .operand
  | _ => .ok (.ident, ts)

/-- A register with its pattern; none when the tokens start with no register. -/
def parseReg (e : Env) (ts : List Tok) : Except AsmError (Option (RegOpd × List Tok)) :=
  match ts with
  | .word s :: r => do
    match ← e.reg s with
    | some n =>
      let (p, r) ← parsePat e r
      return some (⟨n, p, false, false⟩, r)
    | none => return none
  | _ => .ok none

/-- The special registers (R346). -/
def sregOf : String → Option Nat
  | "TICK" => some 0 | "WID" => some 1 | "LANE" => some 2 | "SEG" => some 3 | "CORE" => some 4 | "CLUS" => some 5
  | "DIE" => some 6 | "RANK" => some 7 | "CTX" => some 8 | "PART" => some 9 | "CTAG" => some 10 | "NMCNT" => some 11
  | "CPYBASE" => some 12 | "FDEPTH" => some 13 | "LINK" => some 14 | "FAULT" => some 15 | "SLICE" => some 16
  | "EV0" => some 24 | "EV1" => some 25 | "EV2" => some 26 | "EV3" => some 27 | "EV4" => some 28 | "EV5" => some 29
  | "EV6" => some 30 | "EV7" => some 31
  | _ => none

/-- The `<hi>` that may follow a literal (R188). -/
def parseHi : List Tok → Bool × List Tok
  | .op "<" :: .word "hi" :: .op ">" :: r => (true, r)
  | r => (false, r)

/-- The operand fields that a major and minor use, in the order d, a, b, c (R187); `inv` and `wb` write their address first
(R304, R305). -/
def fieldsUsed (major : Nat) (sh : Sys2Proof.Shape) : List Nat :=
  if major = 0x55 ∨ major = 0x56 then [1, 2, 0]
  else (if sh.d == .zero then [] else [0]) ++ (if sh.a == .zero then [] else [1]) ++ (if sh.b == .zero then [] else [2]) ++
    (if sh.c == .zero then [] else [3])

/-- The base of a major's addresses (R189, R286, R287): a pair, or one register; none where the major has no address. -/
def addrBase (major : Nat) : Option Bool :=
  if [0x50, 0x51, 0x52, 0x53, 0x55, 0x56, 0x57, 0x6D].contains major then some true
  else if [0x58, 0x59, 0x5A, 0x5B, 0x5C, 0x6C].contains major then some false
  else none

/-- One operand: an address makes two, its base and its offset, which is no pair (R189). `addr` is the base of an address that must
stand here; no other operand is one. -/
def parseOpd (e : Env) (special : Bool) (addr : Option Bool) (ts : List Tok) : Except AsmError (List Opd × List Tok) :=
  let literal (r : List Tok) : Except AsmError (Opd × List Tok) := do
    let (v, int, r) ← parseLiteral e r
    let (hi, r) := parseHi r
    return (.lit v int hi, r)
  let needReg (ts : List Tok) : Except AsmError (RegOpd × List Tok) := do
    match ← parseReg e ts with
    | some p => return p
    | none => .error .operand
  match ts, addr with
  | .op "[" :: r, some pair => do
    if !(← e.startsWith pair r) then .error .operand
    let (b, r) ← needReg r
    match r with
    | .op "]" :: r => return ([.reg b, .noOffset], r)
    | .op "+" :: r =>
      if ← e.startsWith true r then .error .operand
      let (o, r) ← match ← parseReg e r with
        | some (x, r) => Except.ok (Opd.reg x, r)
        | none => literal (match r with
          | .op "#" :: r => r
          | r => r)
      match r with
      | .op "]" :: r => return ([.reg b, o], r)
      | _ => .error .operand
    | _ => .error .operand
  | _, some _ => .error .operand
  | .op "#" :: r, none => do
    let (o, r) ← literal r
    return ([o], r)
  | .op "|" :: r, none => do
    let (x, r) ← needReg r
    match r with
    | .op "|" :: r => return ([.reg { x with abs := true }], r)
    | _ => .error .operand
  | .op "-" :: .op "|" :: r, none => do
    let (x, r) ← needReg r
    match r with
    | .op "|" :: r => return ([.reg { x with abs := true, neg := true }], r)
    | _ => .error .operand
  | .op "-" :: r, none => do
    let (x, r) ← needReg r
    return ([.reg { x with neg := true }], r)
  | .word s :: r, none => do
    match ← parseReg e ts with
    | some (x, r) => return ([.reg x], r)
    | none =>
      match (if special then sregOf s else none) with
      | some n => return ([.sreg n], r)
      | none =>
        let (v, r) ← parseExpr e ts
        return ([.bare v], r)
  | _, none => .error .operand

/-- Operands separated by commas, given the fields that they fill in order: an address stands where the fields a and b follow. -/
def parseOpds (e : Env) (special : Bool) (addr : Option Bool) : Nat → List Nat → List Tok → Except AsmError (List Opd × List Tok)
  | 0, _, _ => .error .operand
  | n + 1, fs, ts => do
    let (os, r) ← parseOpd e special (if fs.head? == some 1 then addr else none) ts
    match r with
    | .op "," :: r =>
      let (os', r) ← parseOpds e special addr n (fs.drop os.length) r
      return (os ++ os', r)
    | _ => return (os, r)

/-! ### Mnemonics, guards and modifiers -/

/-- The majors with their minors' names (R178 to R183). -/
def majorNames : List (String × Nat × List String) :=
  [("nop", 0x00, []), ("add", 0x01, ["add", "addc", "add3"]), ("sub", 0x02, ["sub", "subb", "rsub"]),
   ("mul", 0x03, ["lo", "hi"]), ("mad", 0x04, ["lo", "hi", "wide"]), ("min", 0x05, []), ("max", 0x06, []), ("sad", 0x07, []),
   ("and", 0x08, []), ("or", 0x09, []), ("xor", 0x0A, []), ("andn", 0x0B, []), ("lop3", 0x0C, []), ("shl", 0x0D, []),
   ("shr", 0x0E, []), ("sar", 0x0F, []), ("rot", 0x10, []), ("shf", 0x11, []), ("bfx", 0x12, []), ("bfi", 0x13, []),
   ("bcnt", 0x14, ["pop", "clz", "ctz", "brev", "isp"]), ("perm", 0x15, []), ("cmp", 0x16, []), ("sel", 0x17, []),
   ("mov", 0x18, []), ("ldi", 0x19, []), ("add64", 0x1A, ["add", "sub", "neg"]), ("mul64", 0x1B, []),
   ("sh64", 0x1C, ["shl", "shr", "sar"]), ("cmp64", 0x1D, []), ("dp4", 0x1E, ["dp4", "dp2"]), ("clamp", 0x1F, [])] ++
  [("fadd", 0x20, []), ("fmul", 0x21, []), ("ffma", 0x22, []), ("fmin", 0x23, ["min", "max", "minnum", "maxnum"]),
   ("fcmp", 0x24, []), ("frnd", 0x25, []), ("fcvt", 0x26, []), ("fclass", 0x27, []), ("fscale", 0x28, []), ("fxtr", 0x29, []),
   ("hadd2", 0x2A, []), ("hmul2", 0x2B, []), ("hfma2", 0x2C, []), ("hmin2", 0x2D, []), ("dadd", 0x2E, []), ("dmul", 0x2F, []),
   ("dfma", 0x30, []), ("dmin", 0x31, []), ("dcmp", 0x32, []), ("dcvt", 0x33, []), ("drnd", 0x34, []),
   ("sfu", 0x35, ["rcp", "rsq", "sqrt", "ex2", "lg2", "sinpi", "cospi", "tanh"])] ++
  [("shfl", 0x40, ["lane", "back", "fwd", "flip"]), ("vote", 0x41, ["all", "any", "ballot", "uni"]), ("match", 0x42, ["any", "all"]),
   ("redux", 0x43, ["add", "min", "max", "and", "or", "xor"]),
   ("scan", 0x44, ["incl.add", "incl.min", "incl.max", "excl.add", "excl.min", "excl.max"]), ("seg", 0x45, []),
   ("rdl", 0x46, ["lane", "active", "fibre", "segidx"])] ++
  [("ld", 0x50, []), ("st", 0x51, []),
   ("atom", 0x52, ["add", "min", "max", "and", "or", "xor", "xchg", "cas", "incw", "decw"]), ("red", 0x53, []), ("fence", 0x54, []),
   ("inv", 0x55, []), ("wb", 0x56, []), ("pref", 0x57, []), ("ldp", 0x58, []), ("stp", 0x59, []), ("lds", 0x5A, []),
   ("sts", 0x5B, []), ("atoms", 0x5C, []), ("smp", 0x5D, []), ("fpost", 0x5E, []), ("tmeth", 0x5F, [])] ++
  [("br", 0x60, []), ("jmp", 0x61, []), ("call", 0x62, []), ("calli", 0x63, []), ("ret", 0x64, []), ("unwind", 0x65, []),
   ("loop", 0x66, []), ("fork", 0x67, []), ("end", 0x68, []), ("join", 0x69, []), ("yield", 0x6A, []), ("bar", 0x6B, []),
   ("mbar", 0x6C, ["init", "arrive", "expect", "wait", "test"]), ("waitge", 0x6D, []), ("trap", 0x6E, ["trap", "bkpt"]),
   ("exit", 0x6F, [])] ++
  [("cpy", 0x70, ["plain", "plane", "gather", "mcast"]), ("cwait", 0x71, ["all", "any", "first"]),
   ("cbatch", 0x72, ["close", "wait"]), ("post", 0x73, []), ("ttask", 0x74, []), ("ttwait", 0x75, []),
   ("nmc", 0x76, ["rowcp", "rowzero", "rowq", "nmlaunch"]), ("nfence", 0x77, []), ("launch", 0x78, []), ("spawn", 0x79, []),
   ("evt", 0x7A, ["set", "test"]), ("ppost", 0x7B, []), ("sreg", 0x7C, ["rdsr", "wrsr"]),
   ("sys", 0x7D, ["svc", "rte", "tinv", "rekey", "kslot", "slice"])]

/-- R186: whether a bare major name stands for minor 0: it has no name, the major's own name, or that name without the width. -/
def bareOk (m : String) (names : List String) : Bool :=
  match names with
  | [] => true
  | n :: _ => n == m || (n.toList.isPrefixOf m.toList && (m.toList.drop n.toList.length).all Char.isDigit)

/-- The major and minor of a mnemonic (R186). -/
def mnemonicOf (w : String) : Option (Nat × Nat) :=
  majorNames.findSome? fun (m, code, names) =>
    if w = m then (if bareOk m names then some (code, 0) else none)
    else ((names.zip (List.range names.length)).find? fun p => w == m ++ "." ++ p.1).map fun p => (code, p.2)

/-- How a modifier's value is written (R190): an integer, a name of a list in code order, rows of a demand. -/
inductive ValueKind where
  | int | names (l : List String) | rows
  deriving DecidableEq, Repr, Inhabited

def scopeNames : List String := ["fib", "spd", "wg", "cl", "die", "pkg", "sys"]
def typeNames : List String :=
  ["i8", "i16", "i32", "i64", "n8", "n16", "n32", "n64", "f16", "bf16", "f32", "f64", "e4m3", "e5m2", "e2m1", "e8m0"]
def atomNames : List String := ["add", "min", "max", "and", "or", "xor", "xchg", "cas", "incw", "decw"]

/-- The `x` fields of a major and minor: name, lowest bit, width, values (R210, R246, R261, R269, R292, R313, R348, R373 to R376). -/
def xFields (major minor : Nat) : List (String × Nat × Nat × ValueKind) :=
  let scope (lo : Nat) : String × Nat × Nat × ValueKind := ("scope", lo, 3, .names scopeNames)
  match major with
  | 0x01 | 0x02 => [("cp", 0, 5, .int)]
  | 0x0C => [("tt", 0, 8, .int)]
  | 0x11 => [("rt", 0, 1, .int), ("cl", 1, 1, .int)]
  | 0x16 | 0x1D => [("cc", 0, 3, .int), ("pd", 3, 5, .int), ("bop", 8, 2, .int)]
  | 0x24 | 0x32 => [("cc", 0, 3, .int), ("pd", 3, 5, .int), ("bop", 8, 2, .int), ("sig", 10, 1, .int)]
  | 0x17 => [("ps", 0, 5, .int), ("pn", 5, 1, .int)]
  | 0x1E => [("mix", 0, 1, .int)]
  | 0x40 | 0x41 | 0x42 => [("pd", 3, 5, .int)]
  | 0x52 | 0x53 | 0x5C => [("aty", 0, 2, .names ["u", "s", "f"]), ("rop", 2, 4, .names atomNames)]
  | 0x5D => [("pl", 0, 3, .int), ("sid", 3, 4, .int)]
  | 0x5E => [("void", 0, 1, .int), ("dsrc", 1, 1, .int)]
  | 0x5F => [("slot", 0, 4, .int)]
  | 0x62 | 0x63 => [("args", 8, 5, .int), ("dem", 0, 8, .rows)]
  | 0x64 => [("res", 0, 3, .int)]
  | 0x66 => [("off", 0, 16, .int)]
  | 0x6B => [("cntm", 7, 1, .int), scope 4, ("bid", 0, 4, .int)]
  | 0x6C => [scope 0]
  | 0x6D | 0x71 => [("creg", 3, 8, .int), scope 0]
  | 0x6E => [("code", 0, 16, .int)]
  | 0x70 => [("tag", 0, 6, .int), ("nt", 6, 1, .int)]
  | 0x72 => if minor = 1 then [("n", 0, 4, .int)] else []
  | 0x76 => [("own", 0, 1, .int)]
  | 0x7A => if minor = 0 then [("clr", 0, 1, .int)] else []
  | 0x7C => [("sr", 0, 6, .int)]
  | 0x7D => match minor with
    | 0 => [("code", 0, 16, .int)]
    | 2 => [scope 0]
    | 4 => [("op", 0, 2, .int)]
    | _ => []
  | _ => []

/-- The modifiers of a statement that writes none (R160, R190, R269, R291, R313). -/
def sourceMods (major : Nat) : Mods :=
  match major with
  | 0x24 => .i ⟨.f32, false, 0⟩
  | 0x32 => .i ⟨.f64, false, 0⟩
  | 0x54 | 0x55 | 0x56 | 0x57 => .m ⟨.rlx, .pkg, 0, 0, .n8, 0xFF⟩
  | 0x6B => .c 0x20
  | 0x6C => .c 0x2
  | 0x6D | 0x71 => .c 0x7FD
  | _ => defMods major

/-- The place of a name in a list. -/
def indexIn (l : List String) (s : String) : Option Nat :=
  let k := l.findIdx (· == s)
  if k < l.length then some k else none

/-- A modifier's value by its kind and width. -/
def modValue (e : Env) (f : String) (k : ValueKind) (width : Nat) (ts : List Tok) : Except AsmError Nat := do
  let v ← match k, ts with
    | .names l, [.word s] => match indexIn l s with
      | some v => Except.ok v
      | none => .error (.value f)
    | .names _, _ => .error (.value f)
    | .int, ts => (constOf e ts).map BitVec.toNat
    | .rows, ts => do
      let v ← constOf e ts
      if v = 0 then .error (.value f) else .ok (v.toNat - 1)
  if v < 2 ^ width then .ok v else .error (.value f)

/-- A bit field of a bit vector replaced. -/
def putField {n : Nat} (x : BitVec n) (lo width v : Nat) : BitVec n :=
  BitVec.ofNat n (setField x.toNat (lo + width - 1) lo v)

/-- One modifier written into the modifiers of a word (R164, R165, R190). -/
def setMod (e : Env) (major minor : Nat) (m : Mods) (f : String) (ts : List Tok) : Except AsmError Mods :=
  let val (k : ValueKind) (w : Nat) := modValue e f k w ts
  let ty : Except AsmError Ty := (val (.names typeNames) 4).map Ty.ofCode
  let rnd : Except AsmError Rnd := do
    match Rnd.ofCode (← val (.names ["rn", "rz", "ru", "rd"]) 2) with
    | some r => return r
    | none => .error (.value f)
  let bit : Except AsmError Bool := (val .int 1).map (· == 1)
  match (xFields major minor).find? (·.1 == f) with
  | some (_, lo, w, k) => do
    let v ← val k w
    match m with
    | .i q => return .i { q with x := putField q.x lo w v }
    | .m q => return .m { q with x := putField q.x lo w v }
    | .c x => return .c (putField x lo w v)
    | _ => .error (.modifier f)
  | none =>
    match m, f with
    | .i q, "type" => ty.map fun t => .i { q with ty := t }
    | .i q, "sat" => bit.map fun b => .i { q with sat := b }
    | .f q, "rnd" => rnd.map fun r => .f { q with rnd := r }
    | .f q, "sat" => bit.map fun b => .f { q with sat := b }
    | .f q, "ftz" => bit.map fun b => .f { q with ftz := b }
    | .f q, "type" => ty.map fun t => .f { q with ty := t }
    | .t q, "rnd" => rnd.map fun r => .t { q with rnd := r }
    | .t q, "sat" => bit.map fun b => .t { q with sat := b }
    | .t q, "ftz" => bit.map fun b => .t { q with ftz := b }
    | .t q, "dtype" => ty.map fun t => .t { q with dtype := t }
    | .t q, "stype" => ty.map fun t => .t { q with stype := t }
    | .m q, "order" => (val (.names ["rlx", "acq", "rel", "ar"]) 2).map fun v => .m { q with order := Order.ofCode v }
    | .m q, "scope" => do
      match Scope.ofCode (← val (.names scopeNames) 3) with
      | some s => return .m { q with scope := s }
      | none => .error (.value f)
    | .m q, "cache" => (val .int 2).map fun v => .m { q with cache := BitVec.ofNat 2 v }
    | .m q, "creg" => (val .int 8).map fun v => .m { q with creg := BitVec.ofNat 8 v }
    | .m q, "sz" => do
      let v ← val (.names ["n8", "n16", "b32", "b64", "b128", "", "", "", "i8", "i16"]) 4
      match Size.ofCode v with
      | some s => return .m { q with sz := s }
      | none => .error (.value f)
    | _, _ => .error (.modifier f)

/-- The bit of v1 that a name selects (R191). -/
def guardBit (s : String) : Option Nat :=
  match s with
  | "nv" => some 27
  | "dz" => some 28
  | "of" => some 29
  | "uf" => some 30
  | "nx" => some 31
  | _ => match s.toList with
    | 'p' :: c :: cs =>
      if (c :: cs).all Char.isDigit then
        let k := (digits 10 (c :: cs) (0, 0, [])).1
        if k ≤ 26 then some k else none
      else none
    | _ => none

/-- The guard that starts a statement (R191), and the rest. -/
def parseGuard (ts : List Tok) : Except AsmError (Guard × List Tok) :=
  let mk (s : String) (neg : Bool) (r : List Tok) : Except AsmError (Guard × List Tok) :=
    match guardBit s with
    | some k => .ok (⟨BitVec.ofNat 5 k, neg⟩, r)
    | none => .error .statement
  match ts with
  | .op "(" :: .word s :: .op ")" :: r => mk s false r
  | .op "(" :: .op "!" :: .word s :: .op ")" :: r => mk s true r
  | .op "(" :: _ => .error .statement
  | _ => .ok (.always, ts)

/-- The tokens of a modifier's value: up to the next modifier, a comma, the marker, a pair or the end. -/
def valueTokens : List Tok → List Tok × List Tok
  | [] => ([], [])
  | .op "!" :: r => ([], .op "!" :: r)
  | .op "||" :: r => ([], .op "||" :: r)
  | .op "," :: r => ([], .op "," :: r)
  | .word s :: .op "=" :: r => ([], .word s :: .op "=" :: r)
  | t :: r => let p := valueTokens r
    (t :: p.1, p.2)

/-- Modifiers up to the marker, a pair or the end. -/
def parseMods : Nat → List Tok → Except AsmError (List (String × List Tok) × List Tok)
  | 0, _ => .error .statement
  | n + 1, .word f :: .op "=" :: r => do
    let (v, r) := valueTokens r
    let (ms, r) ← parseMods n r
    return ((f, v) :: ms, r)
  | _ + 1, r => .ok ([], r)

/-- One instruction of a statement: major, minor, operands, modifiers (R185). -/
structure Op where
  major : Nat
  minor : Nat
  opds  : List Opd
  mods  : List (String × List Tok)
  deriving DecidableEq, Repr, Inhabited

/-- An instruction's mnemonic, operands and modifiers. -/
def parseOp (e : Env) (ts : List Tok) : Except AsmError (Op × List Tok) :=
  match ts with
  | .word m :: r =>
    match mnemonicOf m with
    | none => .error (.mnemonic m)
    | some (major, minor) => do
      let bare : Bool := match r with
        | [] => true
        | .op "!" :: _ => true
        | .op "||" :: _ => true
        | .word _ :: .op "=" :: _ => true
        | _ => false
      let (os, r) ← if bare then Except.ok ([], r) else
        parseOpds e (major == 0x7C) (addrBase major) (r.length + 1) (fieldsUsed major (Sys2Proof.shapeOf major minor)) r
      let (ms, r) ← parseMods (r.length + 1) r
      return (⟨major, minor, os, ms⟩, r)
  | _ => .error .statement

/-! ### Words -/

/-- A relocation that a statement or directive makes: offset from its start, symbol, kind, addend (R201). -/
structure AsmRel where
  off    : Nat
  sym    : String
  kind   : RelKind
  addend : BitVec 64
  deriving DecidableEq, Repr, Inhabited

/-- Operands given to their fields. -/
def assign : List Nat → List Opd → Except AsmError (List (Nat × Opd))
  | _, [] => .ok []
  | [], _ :: _ => .error .operand
  | f :: fs, o :: os => (assign fs os).map ((f, o) :: ·)

/-- The signed distance in words from the statement to a value: a constant for a label of its own section (R202). -/
def Env.distance (e : Env) (v : Val) : Except AsmError (Option Int) :=
  match v.sym with
  | none => .error .operand
  | some n => match e.label n with
    | some l =>
      if l.sect = e.sect then
        let d := (BitVec.ofNat 64 l.off + v.k - BitVec.ofNat 64 e.off).toInt
        if d % 4 = 0 then .ok (some (d / 4)) else .error .operand
      else .ok none
    | none => .ok none

/-- What the operands that are no register fields make (R277, R289, R346, R348): a loop's end, a special register, a code. -/
def special (e : Env) (o : Op) (m : Mods) : Except AsmError (List Opd × Mods) :=
  let put (lo w v : Nat) : Mods := match m with
    | .c x => .c (putField x lo w v)
    | m => m
  let writes (f : String) : Bool := o.mods.any (·.1 == f)
  match o.major, o.minor, o.opds with
  | 0x66, _, os =>
    match os.reverse with
    | .bare v :: r => do
      if writes "off" then .error .operand
      match ← e.distance v with
      | some d => if 1 ≤ d ∧ d ≤ 65535 then return (r.reverse, put 0 16 d.toNat) else .error .operand
      | none => if e.first then return (r.reverse, put 0 16 5) else .error .operand
    | _ => if writes "off" then return (os, m) else .error .operand
  | 0x7C, k, os =>
    match os.filterMap (fun o => match o with
      | .sreg n => some n
      | _ => none), writes "sr" with
    | [n], false =>
      let rest := os.filter fun o => o != .sreg n
      let first := os.head? == some (.sreg n)
      if rest.length ≤ 1 ∧ (rest = [] ∨ (first ↔ k = 1)) then .ok (rest, put 0 6 n) else .error .operand
    | [], true => .ok (os, m)
    | _, _ => .error .operand
  | 0x7D, 0, [.lit v _ false] => do
    let k ← v.absolute
    if k.toNat < 65536 then return ([], put 0 16 k.toNat) else .error (.value "code")
  | 0x6E, _, [.lit v _ false] => do
    let k ← v.absolute
    if k.toNat < 65536 then return ([], put 0 16 k.toNat) else .error (.value "code")
  | _, _, os => .ok (os, m)

/-- The negation fields of a layout F word from its operands (R164, R187); elsewhere a negation is an error. -/
def setNeg (m : Mods) (fs : List (Nat × Opd)) : Except AsmError Mods :=
  let code (k : Nat) : BitVec 2 := match fs.lookup k with
    | some (.reg x) => BitVec.ofNat 2 (x.abs.toNat + 2 * x.neg.toNat)
    | _ => 0
  let any := fs.any fun p => match p.2 with
    | .reg x => x.neg || x.abs
    | _ => false
  match m with
  | .f q => if code 0 ≠ 0 then .error .operand else .ok (.f { q with na := code 1, nb := code 2, nc := code 3 })
  | m => if any then .error .operand else .ok m

/-- An instruction whose operands stand in their fields, before its form is chosen. -/
structure Ready where
  op    : Op
  guard : Guard
  s     : Bool
  mods  : Mods
  fs    : List (Nat × Opd)
  deriving DecidableEq, Repr, Inhabited

/-- The use of a source field. -/
def useOf (sh : Sys2Proof.Shape) : Nat → SUse
  | 1 => sh.a
  | 2 => sh.b
  | _ => sh.c

/-- Whether an operand field reads 64 bits (R161, R250, R347). -/
def Ready.wide (x : Ready) (f : Nat) : Bool :=
  let u := useOf (Sys2Proof.shapeOf x.op.major x.op.minor) f
  u == .pair || u == .lit || (f == 1 && aIsPair ⟨x.op.major, x.op.minor, ⟨.ext, .always, false, 0⟩, ⟨0, .zero, .zero, .zero⟩, x.mods⟩)

/-- The literals that an instruction names: value, whether its 64 bits are read, whether it is a branch target. -/
def Ready.literals (x : Ready) : List (Val × Bool × Bool) :=
  x.fs.filterMap fun p => match p.2 with
    | .lit v _ hi => some (v, hi || x.wide p.1, false)
    | .bare v => some (v, x.wide p.1, x.op.major == 0x60)
    | _ => none

/-- A base-form operand (R160): registers as they are, an immediate where the Base code admits it. -/
def baseSrc (e : Env) (x : Ready) (u : BaseUse) (f : Nat) (o : Opd) (ldiSym : Bool) : Except AsmError (Option Src) :=
  match o with
  | .reg r => .ok (some (.reg (BitVec.ofNat 8 r.r) r.pat))
  | .noOffset => .ok (some (if u = .i6 then .imm6 0 else .zero))
  | .lit v int false =>
    match u, f, v.sym with
    | .i6, 2, none => .ok (if int && decide (v.k.toNat < 64) then some (.imm6 (BitVec.ofNat 6 v.k.toNat)) else none)
    | .imm12, 1, none => .ok ((ldiBase v.k).map fun q => if q.2 then .imm12hi (BitVec.ofNat 12 q.1) else .imm12 (BitVec.ofNat 12 q.1))
    | .imm12, 1, some _ => .ok (if ldiSym then some (.imm12 0) else none)
    | .off18, 1, none =>
      .ok (if -131072 ≤ v.k.toInt ∧ v.k.toInt ≤ 131071 then some (.off18 (BitVec.ofInt 18 v.k.toInt)) else none)
    | _, _, _ => .ok none
  | .bare v =>
    if x.op.major = 0x60 then do
      match ← e.distance v with
      | some d => return if -131072 ≤ d ∧ d ≤ 131071 then some (.off18 (BitVec.ofInt 18 d)) else none
      | none => return some (.off18 0)
    else .ok none
  | _ => .ok none

/-- An operand of the other forms: a literal where the form has one. -/
def otherSrc (lit : Bool) (o : Opd) : Option Src :=
  match o with
  | .reg r => some (.reg (BitVec.ofNat 8 r.r) r.pat)
  | .noOffset => some .zero
  | .lit _ _ hi => if lit then some (if hi then .litHi else .lit) else none
  | .bare _ => if lit then some .lit else none
  | .sreg _ => none

/-- The literal of the instruction and the relocation it needs (R161, R188, R202). -/
def Ready.literal (e : Env) (x : Ready) : Except AsmError (BitVec 64 × Option AsmRel) :=
  match x.literals with
  | [] => .ok (0, none)
  | (v, w, br) :: l =>
    if l.any fun p => p.1 != v then .error .operand
    else
      let wide := w || l.any (·.2.1)
      match v.sym with
      | none => .ok (if wide then v.k else v.k &&& 0xFFFFFFFF, none)
      | some n =>
        if br then do
          match ← e.distance v with
          | some d => return (BitVec.ofNat 64 (modPow 32 d), none)
          | none => return (0, some ⟨0, n, .blit32, v.k⟩)
        else .ok (0, some ⟨0, n, if wide then .lit64 else .lit32, v.k⟩)

/-- The destination that an instruction names; v0 when it names none (R187). -/
def Ready.dest (x : Ready) : Nat :=
  match x.fs.lookup 0 with
  | some (.reg r) => r.r
  | _ => 0

/-- The relocation of a base form: a branch to a symbol elsewhere, or an `ldi` of a symbol (R202). -/
def Ready.baseRel (e : Env) (x : Ready) (form : Form) : List AsmRel :=
  match form, x.fs.lookup 1 with
  | .base, some (.bare v) =>
    if x.op.major = 0x60 then
      match e.distance v, v.sym with
      | .ok none, some n => [⟨0, n, .branch18, v.k⟩]
      | _, _ => []
    else []
  | .base, some (.lit ⟨some n, k⟩ _ _) => if baseUse x.op.major = .imm12 then [⟨0, n, .imm12, k⟩] else []
  | _, _ => []

/-- One source of the instruction in a form. A c that a `c=d` major leaves out is the destination (R187). -/
def Ready.source (e : Env) (x : Ready) (form : Form) (forced : Bool) (f : Nat) : Except AsmError (Option Src) :=
  let u := baseUse x.op.major
  match x.fs.lookup f with
  | none => .ok (some (if f = 3 ∧ u = .cd ∧ (Sys2Proof.shapeOf x.op.major x.op.minor).c ≠ .zero then .reg (BitVec.ofNat 8 x.dest) .ident else .zero))
  | some o =>
    if form = .base ∨ (form = .baseLit ∧ f ≠ 2) then baseSrc e x u f o forced
    else .ok (otherSrc (form = .baseLit ∨ form = .extLit) o)

/-- A word with its relocations, if it is well formed and the map lists it (R184). -/
def formed (v : View) (rs : List AsmRel) : Option (View × List AsmRel) :=
  if v.wf && v.toInstr.isSome then some (v, rs) else none

/-- The literal that a form carries, with its relocation (R161). -/
def Ready.litFor (e : Env) (x : Ready) (form : Form) : Except AsmError (BitVec 64 × Option AsmRel) :=
  if form = .baseLit ∨ form = .extLit then x.literal e else .ok (0, none)

/-- The instruction in one form, if the form can carry it, with its relocation (R192). -/
def Ready.inForm (e : Env) (x : Ready) (form : Form) (forced : Bool) : Except AsmError (Option (View × List AsmRel)) := do
  let (lit, rel) ← x.litFor e form
  match ← x.source e form forced 1, ← x.source e form forced 2, ← x.source e form forced 3 with
  | some a, some b, some c =>
    return formed ⟨x.op.major, x.op.minor, ⟨form, x.guard, x.s, lit⟩, ⟨BitVec.ofNat 8 x.dest, a, b, c⟩, x.mods⟩
      (rel.toList ++ x.baseRel e form)
  | _, _, _ => return none

/-- The form of an `L=` value (R158, R190). -/
def formOfL : Nat → Option Form
  | 0 => some .base
  | 1 => some .ext
  | 2 => some .baseLit
  | 3 => some .extLit
  | _ => none

/-- The first form that carries the instruction, in the order of R192. -/
def Ready.firstForm (e : Env) (x : Ready) : List Form → Except AsmError (View × List AsmRel)
  | [] => .error .noForm
  | f :: l => do
    match ← x.inForm e f false with
    | some p => return p
    | none => x.firstForm e l

/-- The demand of a `call` that writes none: the callee's declared rows, where the source declares them (R205, log entry 116). -/
def defaultDemand (e : Env) (o : Op) (m : Mods) : Except AsmError Mods :=
  if (o.major == 0x62 || o.major == 0x63) && !(o.mods.any (·.1 == "dem")) then
    let callee : Option String := match o.opds with
      | [.bare v] => v.sym
      | [.lit v _ _] => v.sym
      | _ => none
    match callee.bind fun n => e.demands.lookup n, m with
    | some rows, .c x => .ok (.c (putField x 0 8 (rows - 1)))
    | none, .c x => if e.first then .ok (.c (putField x 0 8 255)) else .error (.modifier "dem")
    | _, m => .ok m
  else .ok m

/-- The words of one instruction (R187 to R192). -/
def encodeOp (e : Env) (g : Guard) (s : Bool) (o : Op) : Except AsmError (List Nat × List AsmRel) := do
  let forced ← match o.mods.lookup "L" with
    | none => Except.ok none
    | some ts => do
      match formOfL (← constOf e ts).toNat with
      | some f => Except.ok (some f)
      | none => .error (.value "L")
  let m ← (o.mods.filter (·.1 != "L")).foldlM (fun m p => setMod e o.major o.minor m p.1 p.2) (sourceMods o.major)
  let m ← defaultDemand e o m
  let (os, m) ← special e o m
  let fs ← assign (fieldsUsed o.major (Sys2Proof.shapeOf o.major o.minor)) os
  let m ← setNeg m fs
  match fs.lookup 0 with
  | some (.reg r) => if r.pat ≠ .ident then .error .operand else pure ()
  | some _ => .error .operand
  | none => pure ()
  let x : Ready := ⟨o, g, s, m, fs⟩
  let (v, rels) ← match forced with
    | none => x.firstForm e [.base, .baseLit, .ext, .extLit]
    | some f => do
      match ← x.inForm e f true with
      | some p => Except.ok p
      | none => .error .noForm
  return (v.encode, rels)

/-- A slot of a pair (R172, R190, R193): registers only, minor 0, every modifier at its default. -/
def slotOf (e : Env) (o : Op) : Except AsmError (Option Slot) := do
  let forced ← match o.mods.lookup "L" with
    | none => Except.ok false
    | some ts => (constOf e ts).map fun v => v != 1
  let m ← (o.mods.filter (·.1 != "L")).foldlM (fun m p => setMod e o.major o.minor m p.1 p.2) (sourceMods o.major)
  if o.minor ≠ 0 ∨ forced ∨ m ≠ sourceMods o.major then return none
  else
    let plain (p : Opd) : Option Nat := match p with
      | .reg r => if r.pat = .ident && !r.neg && !r.abs then some r.r else none
      | _ => none
    match PairOp.ofCode o.major, o.opds.mapM plain with
    | some p, some rs =>
      let r (k : Nat) : BitVec 8 := BitVec.ofNat 8 (rs.getD k 0)
      let limit := if p.three then 4 else if p.two then 3 else 2
      let c := if p.three && decide (rs.length < 4) && decide (baseUse o.major = .cd) then r 0 else r 3
      if limit < rs.length then return none
      else return some ⟨p, r 0, r 1, r 2, c⟩
    | _, _ => return none

/-- The words of a pair (R193): the first instruction in slot A where it is admitted there, else in slot B. -/
def encodePairOf (e : Env) (g : Guard) (s : Bool) (x y : Op) : Except AsmError (List Nat) := do
  match ← slotOf e x, ← slotOf e y with
  | some a, some b =>
    let h : Hdr := ⟨.ext, g, s, 0⟩
    if pairWf h a b then .ok (encodePair h a b)
    else if pairWf h b a then .ok (encodePair h b a)
    else .error .pairForm
  | _, _ => .error .pairForm

/-- The words and relocations of a statement (R185, R193). -/
def encodeStatement (e : Env) (ts : List Tok) : Except AsmError (List Nat × List AsmRel) := do
  let (g, r) ← parseGuard ts
  let (o, r) ← parseOp e r
  match r with
  | .op "||" :: r =>
    let (p, r) ← parseOp e r
    match r with
    | [] => (encodePairOf e g false o p).map (·, [])
    | [.op "!"] => (encodePairOf e g true o p).map (·, [])
    | _ => .error .statement
  | [] => encodeOp e g false o
  | [.op "!"] => encodeOp e g true o
  | _ => .error .statement

end Sys2Proof.Machine
end

