-- ==== Sys2Proof/Machine/Assembler.lean ====
section
/-!
DEFINITION. The directives and passes of the assembler (spec/09_assembly.md R194 to R197): from source text to a Bluden object. It
acts on files; no step of the package runs it.
-/

namespace Sys2Proof.Machine

/-! ### Structures that template directives emit (R197) -/

/-- A field of a structure: name, lowest bit, width, the shift of an address stored in it, and whether it names code or a template
(`descp`) rather than data (`cardf`) (R202). -/
structure RecField where
  name  : String
  lo    : Nat
  width : Nat
  shift : Nat := 0
  descp : Bool := false
  deriving DecidableEq, Repr, Inhabited

/-- The fields of a copy card (R316). -/
def copyCard : List RecField :=
  [⟨"src", 0, 64, 0, false⟩, ⟨"dst", 64, 64, 0, false⟩, ⟨"dsp", 128, 2, 0, false⟩, ⟨"ssp", 130, 1, 0, false⟩, ⟨"len", 192, 32, 0, false⟩,
   ⟨"mbo", 224, 31, 0, false⟩, ⟨"mbv", 255, 1, 0, false⟩, ⟨"ctr", 256, 64, 0, false⟩, ⟨"cadd", 320, 32, 0, false⟩,
   ⟨"nblk", 352, 32, 0, false⟩, ⟨"prnd", 388, 2, 0, false⟩, ⟨"rows", 390, 6, 0, false⟩, ⟨"np", 396, 4, 0, false⟩,
   ⟨"stype", 400, 4, 0, false⟩, ⟨"cmask", 404, 12, 0, false⟩, ⟨"stride", 416, 32, 0, false⟩, ⟨"aux", 448, 64, 0, false⟩]

/-- The fields of a tile-task card (R331). -/
def tileCard : List RecField :=
  [⟨"aoff", 0, 32, 0, false⟩, ⟨"boff", 32, 32, 0, false⟩, ⟨"bias", 64, 32, 0, false⟩, ⟨"tab", 96, 32, 0, false⟩, ⟨"qs", 128, 32, 0, false⟩,
   ⟨"qz", 160, 8, 0, false⟩, ⟨"m", 176, 6, 0, false⟩, ⟨"n", 182, 6, 0, false⟩, ⟨"nb", 188, 8, 0, false⟩, ⟨"pa", 196, 4, 0, false⟩,
   ⟨"pb", 200, 4, 0, false⟩, ⟨"init", 204, 1, 0, false⟩, ⟨"eb", 205, 1, 0, false⟩, ⟨"ea", 206, 1, 0, false⟩, ⟨"eq", 207, 1, 0, false⟩,
   ⟨"qt", 208, 2, 0, false⟩, ⟨"od", 210, 1, 0, false⟩, ⟨"out", 224, 32, 0, false⟩]

/-- The regions and header of a posted card (R330): start and k of each region. -/
def postedHead : List RecField :=
  ((List.range 8).zip ["r0", "r1", "r2", "r3", "w0", "w1", "w2", "w3"]).flatMap (fun p =>
    [⟨p.2, 64 * p.1, 57, 0, false⟩, ⟨p.2 ++ "k", 64 * p.1 + 57, 7, 0, false⟩]) ++ [⟨"op", 512, 16, 0, false⟩]

/-- The fields of a gather engine's card (R330). -/
def gatherCard : List RecField :=
  postedHead ++ [⟨"src", 576, 64, 0, false⟩, ⟨"idx", 640, 64, 0, false⟩, ⟨"dst", 704, 64, 0, false⟩, ⟨"cnt", 768, 32, 0, false⟩,
    ⟨"esz", 800, 32, 0, false⟩]

/-- The fields of a collective engine's card (R391). -/
def collectiveCard : List RecField :=
  postedHead ++ [⟨"pg", 576, 64, 0, true⟩, ⟨"src", 640, 64, 0, false⟩, ⟨"dst", 704, 64, 0, false⟩, ⟨"cnt", 768, 32, 0, false⟩,
    ⟨"cid", 800, 32, 0, false⟩, ⟨"ety", 832, 8, 0, false⟩, ⟨"cop", 840, 8, 0, false⟩, ⟨"root", 864, 32, 0, false⟩]

/-- The kinds of `.card`: bytes and fields (R197, log entry 117). -/
def cardKind : String → Option (Nat × List RecField)
  | "plain" | "plane" | "gather" | "mcast" => some (64, copyCard)
  | "tile" => some (128, tileCard)
  | "pgather" => some (128, gatherCard)
  | "coll" => some (128, collectiveCard)
  | _ => none

/-- The fields of a target descriptor (R361). -/
def targetFields : List RecField :=
  [⟨"mtab", 0, 64, 0, false⟩, ⟨"pb0", 64, 64, 0, false⟩, ⟨"pb1", 128, 64, 0, false⟩, ⟨"pb2", 192, 64, 0, false⟩,
   ⟨"pb3", 256, 64, 0, false⟩, ⟨"pb4", 320, 64, 0, false⟩, ⟨"pb5", 384, 64, 0, false⟩, ⟨"wm1", 448, 16, 0, false⟩,
   ⟨"hm1", 464, 16, 0, false⟩, ⟨"lsmp", 480, 2, 0, false⟩, ⟨"cfmt", 482, 8, 0, false⟩]

/-- The words of a format-range register (R149). -/
def viewFields : List RecField :=
  [⟨"vlen", 0, 16, 0, false⟩, ⟨"vbase", 16, 36, 16, false⟩, ⟨"fmt", 60, 4, 0, false⟩, ⟨"sbase", 78, 38, 14, false⟩,
   ⟨"scbase", 138, 42, 10, false⟩, ⟨"kslot", 186, 6, 0, false⟩, ⟨"tbase", 202, 42, 10, false⟩]

/-- The header of a process-group table and the entries of its ranks (R385). -/
def groupFields (ranks : Nat) : List RecField :=
  [⟨"nr", 0, 17, 0, false⟩, ⟨"nd", 58, 2, 0, false⟩, ⟨"wrap", 60, 4, 0, false⟩, ⟨"ext", 64, 64, 0, false⟩, ⟨"ext0", 64, 16, 0, false⟩,
   ⟨"ext1", 80, 16, 0, false⟩, ⟨"ext2", 96, 16, 0, false⟩, ⟨"ext3", 112, 16, 0, false⟩, ⟨"tid", 128, 64, 0, false⟩] ++
  (List.range ranks).map fun r => ⟨"node" ++ String.ofList (Nat.toDigits 10 r), 512 + 64 * r, 17, 0, false⟩

/-- The kinds of a method slot in code order (R364). -/
def methodKinds : List String := ["empty", "depth", "stencil", "blend", "clear", "resolve", "barrier", "tone", "prog"]

/-- The fields of a method slot of a kind (R364, R365). -/
def methodFields (kind : String) : List RecField :=
  [⟨"pl", 4, 3, 0, false⟩, ⟨"kf", 8, 32, 0, false⟩, ⟨"pv", 64, 64, 0, false⟩, ⟨"code", 64, 64, 0, true⟩, ⟨"p1", 128, 64, 0, false⟩,
   ⟨"p2", 192, 64, 0, false⟩] ++
  match kind with
  | "depth" => [⟨"cmp", 8, 3, 0, false⟩, ⟨"we", 11, 1, 0, false⟩]
  | "stencil" => [⟨"cmp", 8, 3, 0, false⟩, ⟨"fop", 16, 3, 0, false⟩, ⟨"pop", 19, 3, 0, false⟩, ⟨"ref", 128, 8, 0, false⟩,
      ⟨"rmask", 136, 8, 0, false⟩, ⟨"wmask", 144, 8, 0, false⟩]
  | "blend" => [⟨"cs", 8, 4, 0, false⟩, ⟨"cd", 12, 4, 0, false⟩, ⟨"cop", 16, 3, 0, false⟩, ⟨"as", 20, 4, 0, false⟩,
      ⟨"ad", 24, 4, 0, false⟩, ⟨"aop", 28, 3, 0, false⟩, ⟨"wm", 32, 4, 0, false⟩]
  | "resolve" => [⟨"dpl", 8, 3, 0, false⟩]
  | "barrier" => [⟨"add", 128, 32, 0, false⟩]
  | "tone" => [⟨"exp", 128, 32, 0, false⟩]
  | "prog" => [⟨"frm", 8, 8, 0, false⟩]
  | _ => []

/-! ### The state of a pass -/

/-- A section being filled: name, flags `a`, `w`, `x`, log₂ of the alignment, contents in reverse pieces, length. -/
structure AsmSect where
  name  : String
  fa    : Bool
  fw    : Bool
  fx    : Bool
  align : Nat
  parts : List (List Byte)
  len   : Nat
  deriving DecidableEq, Repr, Inhabited

/-- A named body of lines with parameters (R196). -/
structure Body where
  name   : String
  params : List String
  lines  : List (List Char)
  deriving DecidableEq, Repr, Inhabited

/-- An open kernel (R194): name, where it starts, its first instruction, its entry, its demands and fields. -/
structure OpenKernel where
  name   : String
  sect   : Nat
  start  : Nat
  first  : Option (Nat × Nat)
  entry  : Option Val
  widths : List Nat
  ext    : Nat
  nf     : Nat
  plev   : Nat
  rlev   : Nat
  frm    : Nat
  scr    : Nat
  coop   : Nat
  prod   : Nat
  pv     : Nat
  waitm  : Nat
  setm   : Nat
  deriving DecidableEq, Repr, Inhabited

/-- A closed kernel: name, the entry that `.entry` names, the section and offset of its first instruction, launch header. -/
structure DoneKernel where
  name   : String
  entry  : Option Val
  first  : Option (Nat × Nat)
  header : Nat
  deriving DecidableEq, Repr, Inhabited

/-- A declared frame (R194): rows, arguments, results. -/
structure FrameDecl where
  rows : Nat
  args : Nat
  res  : Nat
  deriving DecidableEq, Repr, Inhabited

/-- A relocation with the section it patches. -/
structure PlacedRel where
  sect : Nat
  rel  : AsmRel
  deriving DecidableEq, Repr, Inhabited

/-- The last `.target`: name, section, offset, and the offset of its method table once one is emitted. -/
structure OpenTarget where
  name  : String
  sect  : Nat
  off   : Nat
  table : Option Nat
  deriving DecidableEq, Repr, Inhabited

/-- The state of a pass over the source. `known` and `frames` hold the labels and frames of the pass before. -/
structure Asm where
  first   : Bool
  known   : List Label
  frames  : List (String × Nat)
  sects   : List AsmSect
  cur     : Nat
  labels  : List Label
  sets    : List (String × BitVec 64)
  binds   : List (String × Binding)
  regs    : List (String × Nat × Bool)
  bodies  : List Body
  kern    : Option OpenKernel
  kernels : List DoneKernel
  pending : Option FrameDecl
  fn      : Option (String × Nat × Nat)
  demands : List (String × FrameDecl)
  rels    : List PlacedRel
  patches : List (Nat × Nat × List Byte)
  lines   : List LineEnt
  loc     : Option (String × Nat × Nat)
  target  : Option OpenTarget
  files   : Nat
  ifs     : Nat
  deriving DecidableEq, Repr, Inhabited

/-- A pass starts in `.text` (log entry 118). -/
def Asm.start (first : Bool) (known : List Label) (frames : List (String × Nat)) : Asm :=
  { first := first, known := known, frames := frames, sects := [⟨".text", true, false, true, 2, [], 0⟩], cur := 0, labels := [],
    sets := [], binds := [], regs := [], bodies := [], kern := none, kernels := [], pending := none, fn := none, demands := [],
    rels := [], patches := [], lines := [], loc := none, target := none, files := 0, ifs := 0 }

/-- The open section. -/
def Asm.sect (s : Asm) : AsmSect := s.sects.getD s.cur default

/-- What a statement is assembled against. Labels of this pass come before those of the pass before. -/
def Asm.env (s : Asm) : Env :=
  ⟨s.labels ++ s.known, s.sets, s.regs, (s.demands.map fun p => (p.1, p.2.rows)) ++ s.frames, s.cur, s.sect.len, s.first⟩

/-- Bytes appended to the open section. A zero-filled section takes none but zeros (R195). -/
def Asm.emit (s : Asm) (bs : List Byte) : Asm :=
  let q := s.sect
  { s with sects := setAt s.sects s.cur { q with parts := bs :: q.parts, len := q.len + bs.length } }

/-- A relocation of what is emitted next. -/
def Asm.relocs (s : Asm) (rs : List AsmRel) : Asm :=
  { s with rels := s.rels ++ rs.map fun r => PlacedRel.mk s.cur { r with off := s.sect.len + r.off } }

/-- A label at the current location. -/
def Asm.define (s : Asm) (n : String) (kind : SymKind) (size : Nat) : Except AsmError Asm :=
  if s.labels.any (·.name == n) || (s.sets.lookup n).isSome then .error (.twice n)
  else .ok { s with labels := s.labels ++ [⟨n, s.cur, s.sect.len, kind, size⟩] }

/-- The size of a label's object set. -/
def Asm.setSize (s : Asm) (n : String) (size : Nat) : Asm :=
  { s with labels := s.labels.map fun l => if l.name = n then { l with size := size } else l }

/-- The end of the open function: its symbol's size runs up to here (log entry 114). -/
def Asm.closeFn (s : Asm) : Asm :=
  match s.fn with
  | none => s
  | some (n, k, off) => { s.setSize n ((s.sects.getD k default).len - off) with fn := none }

/-- A label of the source. A label after a `.frame` outside a kernel starts the function that the frame is declared for (R194). -/
def Asm.label (s : Asm) (n : String) : Except AsmError Asm := do
  let t ← s.define n (if s.sect.fx then .code else .data) 0
  match s.pending with
  | none => return t
  | some f =>
    let t := t.closeFn
    return { t with pending := none, fn := some (n, t.cur, t.sect.len), demands := t.demands ++ [(n, f)] }

/-- An instruction in the open section (R195): its section is executable and its place is aligned (R158). It starts a line-table row
when a `.loc` waits (R196). -/
def Asm.instruction (s : Asm) (ts : List Tok) : Except AsmError Asm :=
  if !s.sect.fx then .error .section_
  else if s.sect.len % 4 ≠ 0 then .error .alignment
  else do
    let (ws, rs) ← encodeStatement s.env ts
    let s : Asm := match s.kern with
      | some k => if k.first.isNone then { s with kern := some { k with first := some (s.cur, s.sect.len) } } else s
      | none => s
    let s : Asm := match s.loc with
      | some (f, l, c) => { s with loc := none, lines := s.lines ++ [⟨s.cur + 1, s.sect.len, f, l, c⟩] }
      | none => s
    return (s.relocs rs).emit (ws.flatMap (toBytes 4))

/-! ### Lines -/

/-- Leading blanks removed. -/
def skipBlank (cs : List Char) : List Char := cs.dropWhile Char.isWhitespace

/-- Blanks at both ends removed. -/
def trimBlank (cs : List Char) : List Char := (skipBlank (skipBlank cs).reverse).reverse

/-- The name that starts a line, and the rest. -/
def headName (cs : List Char) : String × List Char :=
  match cs with
  | c :: r => if nameStart c then (String.ofList (c :: r.takeWhile nameRest), r.dropWhile nameRest) else ("", cs)
  | [] => ("", [])

/-- What waits to be read: a line, the end of an included file, the end of a conditional. -/
inductive Item where
  | line (cs : List Char)
  | endFile
  | endIf
  deriving DecidableEq, Repr, Inhabited

/-- A text as lines. -/
def splitLines : List Char → List (List Char)
  | [] => [[]]
  | c :: r =>
    if c = '\n' then [] :: splitLines r
    else match splitLines r with
      | l :: ls => (c :: l) :: ls
      | [] => [[c]]

/-- The lines of a block up to its closing directive, blocks of the same kind nested in it included; the rest. -/
def gather (opener closer : String) : Nat → List Item → Option (List (List Char) × List Item)
  | _, [] => none
  | d, .line cs :: r =>
    let w := (headName (skipBlank (stripComment false cs))).1
    if w = closer then
      (match d with
       | 0 => some ([], r)
       | d + 1 => (gather opener closer d r).map fun p => (cs :: p.1, p.2))
    else (gather opener closer (if w = opener then d + 1 else d) r).map fun p => (cs :: p.1, p.2)
  | _, _ :: _ => none

/-- The lines of a conditional before and after its own `.else`. -/
def splitElse : Nat → List (List Char) → List (List Char) × List (List Char)
  | _, [] => ([], [])
  | d, cs :: r =>
    let w := (headName (skipBlank (stripComment false cs))).1
    if w = ".else" ∧ d = 0 then ([], r)
    else
      let p := splitElse (if w = ".if" then d + 1 else if w = ".endif" then d - 1 else d) r
      (cs :: p.1, p.2)

/-- A text cut at the commas outside brackets and quotes. -/
def splitArgs : Nat → Bool → List Char → List (List Char)
  | _, _, [] => [[]]
  | d, q, c :: r =>
    if c = ',' ∧ d = 0 ∧ ¬ q then [] :: splitArgs d q r
    else
      let d' := if q then d else if c = '(' ∨ c = '[' then d + 1 else if c = ')' ∨ c = ']' then d - 1 else d
      match splitArgs d' (if c = '"' then !q else q) r with
      | l :: ls => (c :: l) :: ls
      | [] => [[c]]

/-- A body line with each `%param` replaced by its argument (R196). The fuel is the line's length. -/
def substitute (args : List (String × List Char)) : Nat → List Char → List Char
  | 0, cs => cs
  | _, [] => []
  | n + 1, '%' :: r =>
    let (w, r') := headName r
    match args.lookup w with
    | some a => a ++ substitute args n r'
    | none => '%' :: substitute args n r
  | n + 1, c :: r => c :: substitute args n r

/-- The call of a named body: its lines with the arguments in place. -/
def Body.expand (b : Body) (text : List Char) : Except AsmError (List Item) :=
  let text := trimBlank text
  let args := if text.isEmpty then [] else (splitArgs 0 false text).map trimBlank
  if args.length ≠ b.params.length then .error (.arguments b.name)
  else .ok (b.lines.map fun l => .line (substitute (b.params.zip args) l.length l))

/-! ### Directives -/

/-- Arguments separated by commas, as token lists. -/
def commaParts : List Tok → List (List Tok)
  | [] => [[]]
  | .op "," :: r => [] :: commaParts r
  | t :: r => match commaParts r with
    | l :: ls => (t :: l) :: ls
    | [] => [[t]]

/-- `field=value` arguments, with or without commas between them. -/
def fieldArgs : Nat → List Tok → Except AsmError (List (String × List Tok))
  | 0, _ => .error .statement
  | _, [] => .ok []
  | n + 1, .op "," :: r => fieldArgs n r
  | n + 1, .word f :: .op "=" :: r =>
    let p := valueTokens r
    (fieldArgs n p.2).map ((f, p.1) :: ·)
  | _ + 1, _ => .error .statement

/-- The open section switched to one of a name and flags (R195); one already opened keeps its flags. -/
def Asm.switch (s : Asm) (n : String) (fa fw fx : Bool) : Except AsmError Asm :=
  let k := s.sects.findIdx (·.name == n)
  if k < s.sects.length then
    let q := s.sects.getD k default
    if q.fa = fa ∧ q.fw = fw ∧ q.fx = fx then .ok { s with cur := k } else .error .section_
  else .ok { s with sects := s.sects ++ [⟨n, fa, fw, fx, 2, [], 0⟩], cur := k }

/-- Whether the open section is `.bss`, which takes only `.align` and `.zero` (R195). -/
def Asm.inBss (s : Asm) : Bool := s.sect.name == ".bss"

/-- `.align` (R195): padding with `nop` words, which are zero, or zero bytes. -/
def Asm.align (s : Asm) (n : Nat) : Except AsmError Asm :=
  if n < 4 ∨ 65536 < n ∨ 2 ^ n.log2 ≠ n then .error .alignment
  else
    let s := s.emit (List.replicate (ceilDiv s.sect.len n * n - s.sect.len) 0)
    .ok { s with sects := setAt s.sects s.cur { s.sect with align := max s.sect.align n.log2 } }

/-- One value of `.byte`, `.half`, `.word` or `.dword`; only `.dword` takes a relocatable value (R195). -/
def Asm.datum (s : Asm) (n : Nat) (ts : List Tok) : Except AsmError Asm := do
  let (v, r) ← parseExpr s.env ts
  if !r.isEmpty then .error .expression
  else match v.sym with
    | none => return s.emit (toBytes n v.k.toNat)
    | some y => if n = 8 then return (s.relocs [⟨0, y, .abs64, v.k⟩]).emit (toBytes 8 0) else .error .notAbsolute

/-- One decimal of `.float` or `.double` (R195). -/
def Asm.real (s : Asm) (f : Fmt) (ts : List Tok) : Except AsmError Asm :=
  let put (neg : Bool) (m k : Nat) : Except AsmError Asm := .ok (s.emit (toBytes (f.width / 8) (decimal f neg m k)))
  match ts with
  | [.num m] => put false m 0
  | [.dec m k ' '] => put false m k
  | [.op "-", .num m] => put true m 0
  | [.op "-", .dec m k ' '] => put true m k
  | _ => .error .expression

/-- Every argument `name=…` has one of some names, and no name is written twice (R194). -/
def onlyArgs (d : String) (names : List String) (l : List (String × List Tok)) : Except AsmError Unit :=
  if l.all (fun p => names.contains p.1) && decide (l.map Prod.fst).Nodup then .ok () else .error (.arguments d)

/-- The value of an argument `name=…` among the arguments, or a default. -/
def argOr (e : Env) (l : List (String × List Tok)) (n : String) (d : Nat) : Except AsmError Nat :=
  match l.lookup n with
  | none => .ok d
  | some ts => (constOf e ts).map BitVec.toNat

/-- An address field of a structure as a relocation (R197, R202). -/
def RecField.rel (f : RecField) (base : Nat) (y : String) (k : BitVec 64) : AsmRel :=
  let pos := f.lo % 64
  ⟨base + f.lo / 64 * 8, y, if f.descp then .descp f.width pos f.shift else .cardf f.width pos f.shift, k⟩

/-- The fields of a structure from their arguments: the number they make, and the relocations of those that name a symbol (R197).
A constant that its field cannot hold, unsigned or signed, is an error. -/
def structOf (e : Env) (fs : List RecField) (base : Nat) (args : List (String × List Tok)) :
    Except AsmError (Nat × List AsmRel) :=
  args.foldlM (fun acc a => do
    match fs.find? (·.name == a.1) with
    | none => .error (.modifier a.1)
    | some f =>
      let (v, _, r) ← parseLiteral e a.2
      if !r.isEmpty then .error .expression
      else match v.sym with
        | some y => return (acc.1, acc.2 ++ [f.rel base y v.k])
        | none =>
          if v.k.toNat < 2 ^ f.width ∨ (-(2 ^ (f.width - 1) : Nat) : Int) ≤ v.k.toInt ∧ v.k.toInt < 0 then
            return (setField acc.1 (f.lo + f.width - 1) f.lo v.k.toNat, acc.2)
          else .error (.value a.1)) (0, [])

/-- A structure emitted at the current location under a name (R197). -/
def Asm.template (s : Asm) (n : String) (kind : SymKind) (bytes : Nat) (fs : List RecField) (args : List (String × List Tok)) :
    Except AsmError Asm := do
  let (v, rs) ← structOf s.env fs 0 args
  let t ← s.define n kind bytes
  return (t.relocs rs).emit (toBytes bytes v)

/-- `.method` (R197): a slot of the last target's method table. The first slot makes the table, 512 bytes at the next multiple of 512,
and writes its address into the target (log entry 119). -/
def Asm.method (s : Asm) (slot : Nat) (kind : String) (args : List (String × List Tok)) : Except AsmError Asm :=
  match s.target, indexIn methodKinds kind with
  | none, _ => .error .target
  | _, none => .error (.value "kind")
  | some t, some k => do
    if 15 < slot then .error (.value "slot")
    else
      let (s, tab) ← match t.table with
        | some o => Except.ok (s, o)
        | none => do
          if s.cur ≠ t.sect then .error .target
          else
            let s ← s.align 512
            let o := s.sect.len
            let n := t.name ++ ".mtab"
            let s ← s.define n .data 512
            let s : Asm := { s with rels := s.rels ++ [⟨t.sect, ⟨t.off, n, .cardf 64 0 0, 0⟩⟩] }
            Except.ok ({ s.emit (List.replicate 512 0) with target := some { t with table := some o } }, o)
      let (v, rs) ← structOf s.env (methodFields kind) 0 args
      let at_ := tab + 32 * slot
      return { s with patches := s.patches ++ [(t.sect, at_, toBytes 32 (setField v 3 0 k))],
                      rels := s.rels ++ rs.map fun r => PlacedRel.mk t.sect { r with off := at_ + r.off } }

/-- The fields of `.workid` (R194): widths and extents, with the limits of R26 and R27. -/
def workFields (e : Env) : List (List Tok) → Except AsmError (List (Nat × Nat) × List (List Tok))
  | [] => .ok ([], [])
  | p :: ps =>
    if p.contains (.op ":") then do
      let w ← constOf e (p.takeWhile (· != .op ":"))
      let n ← constOf e ((p.dropWhile (· != .op ":")).drop 1)
      if w.toNat ≤ 63 ∧ 1 ≤ n.toNat ∧ n.toNat ≤ 2 ^ w.toNat then
        let (l, r) ← workFields e ps
        return ((w.toNat, n.toNat) :: l, r)
      else .error (.arguments ".workid")
    else .ok ([], p :: ps)

/-- The extent word: nk − 1 in field k (R30). -/
def extWord : Nat → List (Nat × Nat) → Nat
  | _, [] => 0
  | b, (w, n) :: l => (n - 1) * 2 ^ b + extWord (b + w) l

/-- The launch header of a kernel, `code` and `argp` still 0 (R30, R194). -/
def OpenKernel.header (k : OpenKernel) : Nat :=
  packBits ([(64, 0), (64, 0), (64, k.ext)] ++ (List.range 6).map (fun i => (6, k.widths.getD i 0)) ++
    [(3, k.nf), (3, k.plev), (3, k.rlev), (8, k.frm), (9, k.scr), (1, k.coop), (1, 0), (6, k.prod), (1, k.pv), (249, 0),
     (256, k.waitm), (256, k.setm)])

/-- The end of a kernel (R194): the checks of R31 on its template. -/
def Asm.endKernel (s : Asm) : Except AsmError Asm :=
  match s.kern with
  | none => .error .kernel
  | some k =>
    if !(parseHeader k.header).ok then .error .header
    else
      let size := (s.sects.getD k.sect default).len - k.start
      .ok { s.setSize k.name size with
        kern := none, kernels := s.kernels ++ [⟨k.name, k.entry, k.first, k.header⟩] }

/-- The directives of an open kernel (R194). -/
def Asm.kernelField (s : Asm) (d : String) (ts : List Tok) (k : OpenKernel) : Except AsmError Asm := do
  let e := s.env
  let put (k : OpenKernel) : Asm := { s with kern := some k }
  match d with
  | ".entry" => do
    let (v, r) ← parseExpr e ts
    if r.isEmpty ∧ v.sym.isSome then return put { k with entry := some v } else .error (.arguments d)
  | ".workid" => do
    let (ws, r) ← workFields e (commaParts ts)
    let as ← fieldArgs (ts.length + 1) (r.flatMap fun l => l ++ [.op ","])
    onlyArgs d ["plev", "rlev"] as
    let p ← argOr e as "plev" 0
    let q ← argOr e as "rlev" 0
    if ws.length < 2 ∨ 6 < ws.length ∨ 7 < p ∨ 7 < q ∨ 64 < (ws.map (·.1)).sum then .error (.arguments d)
    else return put { k with widths := ws.map (·.1), ext := extWord 0 ws, nf := ws.length, plev := p, rlev := q }
  | ".producer" => do
    let v ← constOf e ts
    if v.toNat < 64 then return put { k with pv := 1, prod := v.toNat } else .error (.arguments d)
  | ".scratch" => do
    let v ← constOf e ts
    if v.toNat ≤ 524288 then return put { k with scr := ceilDiv v.toNat 2048 } else .error (.arguments d)
  | ".launch" => do
    let as ← fieldArgs (ts.length + 1) ts
    onlyArgs d ["waitm", "setm", "coop"] as
    let w ← argOr e as "waitm" 0
    let m ← argOr e as "setm" 0
    let c ← argOr e as "coop" 0
    if c ≤ 1 then return put { k with waitm := w, setm := m, coop := c } else .error (.arguments d)
  | _ => .error (.directive d)

/-- `.frame` (R194): inside a kernel its rows, outside it the demand of the function whose label follows. -/
def Asm.frame (s : Asm) (ts : List Tok) : Except AsmError Asm :=
  match commaParts ts with
  | [] => .error (.arguments ".frame")
  | p :: ps => do
    let rows ← constOf s.env p
    let as ← fieldArgs (ts.length + 1) (ps.flatMap fun l => l ++ [.op ","])
    onlyArgs ".frame" ["args", "res"] as
    let a ← argOr s.env as "args" 0
    let r ← argOr s.env as "res" 0
    if rows.toNat < 1 ∨ 256 < rows.toNat ∨ 16 < a ∨ 4 < r then .error (.arguments ".frame")
    else match s.kern with
      | some k => return { s with kern := some { k with frm := rows.toNat - 1 } }
      | none => return { s with pending := some ⟨rows.toNat, a, r⟩ }

/-- The letters of section flags (R195). -/
def flagChars (ts : List Tok) : Option (List Char) :=
  ts.foldlM (fun acc t => match t with
    | .word w => if w.toList.all fun c => c == 'a' || c == 'w' || c == 'x' then some (acc ++ w.toList) else none
    | .op "," => some acc
    | _ => none) []

/-- The names of a list of names. -/
def nameList (ts : List Tok) : Option (List String) :=
  (commaParts ts).mapM fun p => match p with
    | [.word w] => some w
    | _ => none

/-- The directives on one line (R194 to R197). -/
def Asm.directive (s : Asm) (d : String) (ts : List Tok) : Except AsmError Asm :=
  let bad : Except AsmError Asm := .error (.arguments d)
  let each (f : Asm → List Tok → Except AsmError Asm) : Except AsmError Asm :=
    if s.inBss then .error .section_ else (commaParts ts).foldlM f s
  let bind (b : Binding) : Except AsmError Asm := match nameList ts with
    | some ns => .ok { s with binds := ns.map (·, b) ++ s.binds }
    | none => bad
  let named (f : String → List (String × List Tok) → Except AsmError Asm) : Except AsmError Asm :=
    if s.inBss then .error .section_
    else match ts with
      | .word n :: r => do f n (← fieldArgs (r.length + 1) r)
      | _ => bad
  match d with
  | ".text" => s.switch ".text" true false true
  | ".rodata" => s.switch ".rodata" true false false
  | ".data" => s.switch ".data" true true false
  | ".bss" => s.switch ".bss" true true false
  | ".section" => match ts with
    | .word n :: r => match flagChars r with
      | some fl => s.switch n (fl.contains 'a') (fl.contains 'w') (fl.contains 'x')
      | none => bad
    | _ => bad
  | ".align" => do s.align (← constOf s.env ts).toNat
  | ".byte" => each fun s p => s.datum 1 p
  | ".half" => each fun s p => s.datum 2 p
  | ".word" => each fun s p => s.datum 4 p
  | ".dword" => each fun s p => s.datum 8 p
  | ".float" => each fun s p => s.real .f32 p
  | ".double" => each fun s p => s.real .f64 p
  | ".zero" => do return s.emit (List.replicate (← constOf s.env ts).toNat 0)
  | ".ascii" => match ts with
    | [.str cs] => if s.inBss then .error .section_ else .ok (s.emit (cs.map fun c => BitVec.ofNat 8 c.toNat))
    | _ => bad
  | ".global" => bind .ofAll
  | ".weak" => bind .weak
  | ".local" => bind .ofFile
  | ".set" => match ts with
    | .word n :: .op "," :: r =>
      if s.labels.any (·.name == n) then .error (.twice n)
      else do return { s with sets := (n, ← constOf s.env r) :: s.sets.filter (·.1 != n) }
    | _ => bad
  | ".reg" => match ts with
    | [.word n, .op ",", .word r] => do
      match ← s.env.regName r with
      | some k => return { s with regs := (n, k) :: s.regs.filter (·.1 != n) }
      | none => bad
    | _ => bad
  | ".loc" => match commaParts ts with
    | [.str f] :: l :: c => do
      let line ← constOf s.env l
      let col ← match c with
        | [] => Except.ok 0
        | [c] => (constOf s.env c).map BitVec.toNat
        | _ => .error (.arguments d)
      if line.toNat < 2 ^ 20 ∧ col < 2 ^ 12 then
        return { s with loc := some (String.ofList f, line.toNat, col) }
      else bad
    | _ => bad
  | ".kernel" => match ts, s.kern with
    | _, some _ => .error .kernel
    | [.word n], none =>
      if s.pending.isSome then .error (.unfinished ".frame") else do
      let t := s.closeFn
      let u ← t.define n .kernel 0
      return { u with kern := some { (default : OpenKernel) with name := n, sect := u.cur, start := u.sect.len } }
    | _, none => bad
  | ".end" => if ts.isEmpty then s.endKernel else bad
  | ".frame" => s.frame ts
  | ".card" => match ts with
    | .word n :: .op "," :: .word k :: r => do
      if s.inBss then .error .section_
      else match cardKind k with
        | some (b, fs) => s.template n .card b fs (← fieldArgs (r.length + 1) r)
        | none => .error (.value "kind")
    | _ => bad
  | ".target" => named fun n as => do
      let t ← s.template n .target 128 targetFields as
      return { t with target := some ⟨n, s.cur, s.sect.len, none⟩ }
  | ".method" => do
    match commaParts ts with
    | p :: (.word k :: q) :: ps =>
      s.method (← constOf s.env p).toNat k (← fieldArgs (ts.length + 1) (q ++ .op "," :: ps.flatMap fun l => l ++ [.op ","]))
    | _ => bad
  | ".view" => named fun n as => s.template n .view 32 viewFields as
  | ".ptable" => named fun n as => do
      let nr ← argOr s.env as "nr" 0
      if nr < 2 ^ 17 then s.template n .groupTable (64 + 8 * (nr + 1)) (groupFields (nr + 1)) as else bad
  | _ => match s.kern with
    | some k => s.kernelField d ts k
    | none => .error (.directive d)

/-! ### Passes -/

/-- The words that open and close a named body (R196). -/
def bodyOpen : String := ".mac" ++ "ro"
def bodyClose : String := ".endm"

/-- A line that opens a block, or names a file or a body: what it puts before the rest (R196). None where the line does neither. -/
def Asm.block (files : List (String × List Char)) (s : Asm) (w : String) (text : List Char) (rest : List Item) :
    Except AsmError (Option (Asm × List Item)) :=
  if w = bodyOpen then do
    match ← lex text, gather bodyOpen bodyClose 0 rest with
    | .word n :: r, some (ls, rest) =>
      match nameList (match r with
        | .op "," :: r => r
        | r => r) with
      | some ps => return some ({ s with bodies := ⟨n, if r.isEmpty then [] else ps, ls⟩ :: s.bodies }, rest)
      | none => if r.isEmpty then return some ({ s with bodies := ⟨n, [], ls⟩ :: s.bodies }, rest) else .error (.arguments w)
    | _, none => .error (.unfinished w)
    | _, _ => .error (.arguments w)
  else if w = ".rept" then do
    let n ← constOf s.env (← lex text)
    match gather ".rept" ".endr" 0 rest with
    | none => .error (.unfinished w)
    | some (ls, rest) =>
      if 65535 < n.toNat then .error (.arguments w)
      else return some (s, (List.replicate n.toNat (ls.map Item.line)).flatten ++ rest)
  else if w = ".if" then do
    let v ← constOf s.env (← lex text)
    match gather ".if" ".endif" 0 rest with
    | none => .error (.unfinished w)
    | some (ls, rest) =>
      if 16 ≤ s.ifs then .error .nesting
      else
        let p := splitElse 0 ls
        return some ({ s with ifs := s.ifs + 1 }, (if v ≠ 0 then p.1 else p.2).map Item.line ++ .endIf :: rest)
  else if w = ".include" then do
    match ← lex text with
    | [.str f] =>
      match files.lookup (String.ofList f) with
      | none => .error (.file (String.ofList f))
      | some cs =>
        if 16 ≤ s.files then .error .nesting
        else return some ({ s with files := s.files + 1 }, (splitLines cs).map Item.line ++ .endFile :: rest)
    | _ => .error (.arguments w)
  else match s.bodies.find? (·.name == w) with
    | some b => do return some (s, (← b.expand text) ++ rest)
    | none => .ok none

/-- One line (R185): its label, then a directive, a named body or a statement. -/
def Asm.line (files : List (String × List Char)) (s : Asm) (cs : List Char) (rest : List Item) :
    Except AsmError (Asm × List Item) := do
  let cs := skipBlank (stripComment false cs)
  let (w, r) := headName cs
  let (s, cs) ← match w, r with
    | "", _ => Except.ok (s, cs)
    | w, ':' :: r => (s.label w).map (·, skipBlank r)
    | _, _ => .ok (s, cs)
  if cs.isEmpty then return (s, rest)
  else
    let (w, text) := headName cs
    match ← s.block files w text rest with
    | some p => return p
    | none =>
      let ts ← lex cs
      match ts with
      | .word w :: args =>
        if w.toList.head? = some '.' then return (← s.directive w args, rest) else return (← s.instruction ts, rest)
      | _ => return (← s.instruction ts, rest)

/-- The lines of a source in order. Each item takes one unit of fuel. -/
def Asm.run (files : List (String × List Char)) : Nat → List Item → Asm → Except AsmError Asm
  | _, [], s => .ok s
  | 0, _ :: _, _ => .error .fuel
  | n + 1, .line cs :: r, s => do
    let (s, r) ← s.line files cs r
    s.run files n r
  | n + 1, .endFile :: r, s => Asm.run files n r { s with files := s.files - 1 }
  | n + 1, .endIf :: r, s => Asm.run files n r { s with ifs := s.ifs - 1 }

/-- One pass over a source; a template left open is an error (R194). -/
def onePass (files : List (String × List Char)) (fuel : Nat) (src : List Char) (s : Asm) : Except AsmError Asm := do
  let s ← s.run files fuel ((splitLines src).map .line)
  if s.kern.isSome then .error .kernel
  else if s.pending.isSome then .error (.unfinished ".frame") else return s.closeFn

/-- Passes until the labels and frames stay as the pass before left them (log entry 118). -/
def passLoop (files : List (String × List Char)) (fuel : Nat) (src : List Char) : Nat → Asm → Except AsmError Asm
  | 0, _ => .error .unstable
  | n + 1, s => do
    let fr := s.demands.map fun p => (p.1, p.2.rows)
    let t ← onePass files fuel src (Asm.start false s.labels fr)
    if t.labels = s.labels ∧ (t.demands.map fun p => (p.1, p.2.rows)) = fr then return t
    else passLoop files fuel src n t

/-! ### The object -/

/-- The type of a section by its flags (R195, R199). -/
def AsmSect.type (q : AsmSect) : SectType :=
  if q.fx then .code else if q.name = ".bss" then .zeroFilled else if q.fw then .data else .readOnly

/-- A section with its contents. -/
def AsmSect.sect (q : AsmSect) : Sect :=
  let bs := q.parts.reverse.flatten
  ⟨q.name, q.type, q.fa, q.fw, q.fx, q.align, 0, if q.type = .zeroFilled then [] else bs, q.len⟩

/-- The binding of a name: the last directive that names it, else local (R196). -/
def Asm.binding (s : Asm) (n : String) : Binding := (s.binds.lookup n).getD .ofFile

/-- The names that are used and not defined. -/
def Asm.externs (s : Asm) : List String :=
  let defined := s.labels.map (·.name) ++ s.sets.map (·.1)
  strArea ((s.rels.map (·.rel.sym) ++ s.kernels.filterMap (fun k => k.entry.bind (·.sym)) ++ s.binds.map (·.1)).filter
    fun n => !defined.contains n)

/-- The name of the symbol of a kernel's first instruction, which no source can write (R194; log entry 112). -/
def firstName (k : DoneKernel) : String := k.name ++ "$"

/-- The symbol table (R200): labels, the first instructions of kernels that name no entry, absolute symbols, undefined ones. -/
def Asm.symbols (s : Asm) : List ObjSym :=
  s.labels.map (fun l => ⟨l.name, .sect (l.sect + 1), s.binding l.name, l.kind, l.off, l.size⟩) ++
    (s.kernels.filterMap fun k => if k.entry.isSome then none else k.first.map fun p =>
      ⟨firstName k, .sect (p.1 + 1), .ofFile, .code, p.2, 0⟩) ++
    s.sets.reverse.map (fun p => ⟨p.1, .absolute, s.binding p.1, .absolute, p.2.toNat, 0⟩) ++
    s.externs.map (fun n => ⟨n, .undefined, if s.binding n = .ofFile then .ofAll else s.binding n, .none, 0, 0⟩)

/-- The object of a finished pass (R198 to R204, R207). The computed fields of a demand are completed at the link (R204). -/
def Asm.object (s : Asm) : Bluden :=
  let syms := s.symbols
  let at_ (n : String) : Nat := syms.findIdx (·.name == n)
  let sects := s.patches.foldl (fun acc p =>
    let q := acc.getD p.1 default
    setAt acc p.1 { q with bytes := q.bytes.take p.2.1 ++ p.2.2 ++ q.bytes.drop (p.2.1 + p.2.2.length) }) (s.sects.map AsmSect.sect)
  ⟨false, sects, syms, s.rels.map fun r => ⟨r.sect + 1, r.rel.off, at_ r.rel.sym, r.rel.kind, r.rel.addend⟩,
    s.kernels.map fun k => match k.entry with
      | some ⟨some n, a⟩ => ⟨at_ k.name, at_ n, a.toNat, k.header, none⟩
      | _ => ⟨at_ k.name, at_ (if k.first.isSome then firstName k else k.name), 0, k.header, none⟩,
    s.demands.map fun p => ⟨at_ p.1, p.2.rows - 1, p.2.args, p.2.res, some (rows8 p.2.rows), some 0, false, false⟩,
    s.lines⟩

/-- The assembler: an object, or why the source is rejected, and then no object (R185 to R197). `files` holds what `.include` reads;
the fuel bounds the lines read in one pass. -/
def assemble (files : List (String × List Char)) (fuel : Nat) (src : List Char) : Except AsmError Bluden := do
  let s ← onePass files fuel src (Asm.start true [] [])
  let t ← passLoop files fuel src 16 s
  return t.object

end Sys2Proof.Machine
end

