-- ==== Sys2Proof/Laws/Assembly.lean ====
section
/-!
SUPPORT. What the assembler and the link do to records and words: fields packed into a record are read back, a relocation keeps a
section's length, and a form that is chosen makes a well-formed word.
-/

namespace Sys2Proof.Machine

/-- Fields packed into a record are read back, each within its width. -/
theorem cutBits_packBits (fs : List (Nat × Nat)) :
    cutBits (fs.map (·.1)) (packBits fs) = fs.map fun f => f.2 % 2 ^ f.1 := by
  induction fs with
  | nil => rfl
  | cons f l ih =>
    have h : 0 < 2 ^ f.1 := Nat.two_pow_pos _
    simp only [List.map_cons, packBits, cutBits]
    rw [Nat.add_mul_mod_self_left, Nat.mod_mod, Nat.add_mul_div_left _ _ h, Nat.div_eq_of_lt (Nat.mod_lt _ h), Nat.zero_add, ih]

/-- A rounded place is not below what it rounds. -/
theorem le_roundUp (k n : Nat) : n ≤ roundUp k n := by
  have h : 0 < 2 ^ k := Nat.two_pow_pos k
  have := Nat.div_add_mod (n + 2 ^ k - 1) (2 ^ k)
  have := Nat.mod_lt (n + 2 ^ k - 1) h
  simp only [roundUp, ceilDiv]
  rw [Nat.mul_comm]
  omega

/-- A rounded place is aligned. -/
theorem roundUp_dvd (k n : Nat) : 2 ^ k ∣ roundUp k n := Nat.dvd_mul_left _ _

/-- n little-endian bytes are n bytes. -/
theorem toBytes_length (n x : Nat) : (toBytes n x).length = n := by
  induction n generalizing x with
  | zero => rfl
  | succ n ih => simp [toBytes, ih]

/-- A patch within a section keeps its length. -/
theorem patchAt_length (bs : List Byte) (off n v : Nat) (h : off + n ≤ bs.length) : (patchAt bs off n v).length = bs.length := by
  simp only [patchAt, List.length_append, List.length_take, List.length_drop, toBytes_length]
  omega

/-- A patch leaves every byte outside it. -/
theorem patchAt_outside (bs : List Byte) (off n v k : Nat) (h : off + n ≤ bs.length) (hk : k < off ∨ off + n ≤ k) :
    (patchAt bs off n v)[k]? = bs[k]? := by
  have hl : (bs.take off).length = off := by simp; omega
  rcases hk with hk | hk
  · simp only [patchAt, List.append_assoc]
    rw [List.getElem?_append_left (by omega), List.getElem?_take]
    simp [hk]
  · simp only [patchAt]
    rw [List.getElem?_append_right (by simp only [List.length_append, hl, toBytes_length]; omega)]
    simp only [List.length_append, hl, toBytes_length, List.getElem?_drop]
    congr 1
    omega

/-- A relocation kind is read back from its `rkind` field (R201). -/
theorem RelKind.ofNum_num_cardf (w p s : Nat) (hw : 1 ≤ w ∧ w ≤ 64) (hp : p < 64) (hs : s < 64) :
    RelKind.ofNum (RelKind.cardf w p s).num = some (.cardf w p s) := by
  have h := cutBits_packBits [(8, 7), (8, w - 1), (6, p), (2, 0), (6, s), (2, 0)]
  have e : packBits [(8, 7), (8, w - 1), (6, p), (2, 0), (6, s), (2, 0)] = (RelKind.cardf w p s).num := by
    simp [RelKind.num, packBits]
  rw [e] at h
  simp only [List.map_cons, List.map_nil] at h
  have h1 : (w - 1) % 2 ^ 8 = w - 1 := Nat.mod_eq_of_lt (by omega)
  have h2 : p % 2 ^ 6 = p := Nat.mod_eq_of_lt (by omega)
  have h3 : s % 2 ^ 6 = s := Nat.mod_eq_of_lt (by omega)
  rw [h1, h2, h3] at h
  simp only [RelKind.ofNum, h]
  show some (RelKind.cardf (w - 1 + 1) p s) = _
  rw [Nat.sub_add_cancel hw.1]

/-- What a formed word says. -/
theorem formed_wf (v w : View) (rs qs : List AsmRel) (h : formed v rs = some (w, qs)) : w.wf = true ∧ w.toInstr.isSome = true := by
  unfold formed at h
  split at h
  · cases h
    simpa only [Bool.and_eq_true] using ‹(View.wf _ && _) = true›
  · cases h

/-- What the form's literal and sources come before: a result of the form is of a formed word. -/
theorem Except.of_bind {ε α β : Type} {m : Except ε α} {f : α → Except ε β} {b : β} (h : (m >>= f) = .ok b) :
    ∃ a, f a = .ok b :=
  match m, h with
  | .ok a, h => ⟨a, h⟩

/-- What a chosen form says: the word is well formed and the map lists it (R184, R192). -/
theorem Ready.inForm_wf (e : Env) (x : Ready) (f : Form) (b : Bool) (v : View) (rs : List AsmRel)
    (h : x.inForm e f b = .ok (some (v, rs))) : v.wf = true ∧ v.toInstr.isSome = true := by
  unfold Ready.inForm at h
  obtain ⟨p, h⟩ := Except.of_bind h
  obtain ⟨a, h⟩ := Except.of_bind h
  obtain ⟨c, h⟩ := Except.of_bind h
  obtain ⟨d, h⟩ := Except.of_bind h
  match a, c, d with
  | some _, some _, some _ => exact formed_wf _ _ _ _ (Except.ok.inj h)
  | none, _, _ => cases h
  | some _, none, _ => cases h
  | some _, some _, none => cases h

end Sys2Proof.Machine
end

