-- ==== Sys2Proof/Laws/Maps.lean ====
section
/-!
SUPPORT. The laws of sparse maps and memories: reads after writes, and that every operation keeps the canonical form.
-/

namespace Sys2Proof.Machine

variable {α : Type}

theorem SMap.find_put_self (m : SMap α) (k : Nat) (v : α) : SMap.find (SMap.put m k v) k = some v := by
  induction m with
  | nil => simp [SMap.put, SMap.find]
  | cons e m ih =>
    obtain ⟨j, u⟩ := e
    simp only [SMap.put]
    split
    · simp [SMap.find]
    · split
      · simp [SMap.find]
      · simp only [SMap.find]
        rw [if_neg (by omega)]
        exact ih

theorem SMap.find_put_other (m : SMap α) (k j : Nat) (v : α) (h : j ≠ k) :
    SMap.find (SMap.put m k v) j = SMap.find m j := by
  induction m with
  | nil => simp [SMap.put, SMap.find]; omega
  | cons e m ih =>
    obtain ⟨i, u⟩ := e
    simp only [SMap.put]
    split
    · simp only [SMap.find]; rw [if_neg (by omega)]
    · split
      · subst_vars; simp only [SMap.find]; rw [if_neg (by omega), if_neg (by omega)]
      · simp only [SMap.find, ih]

theorem SMap.find_erase_self (m : SMap α) (k : Nat) : SMap.find (SMap.erase m k) k = none := by
  induction m with
  | nil => rfl
  | cons e m ih =>
    obtain ⟨j, u⟩ := e
    simp only [SMap.erase]
    split
    · exact ih
    · simp only [SMap.find]; rw [if_neg (by assumption)]; exact ih

theorem SMap.find_erase_other (m : SMap α) (k j : Nat) (h : j ≠ k) :
    SMap.find (SMap.erase m k) j = SMap.find m j := by
  induction m with
  | nil => rfl
  | cons e m ih =>
    obtain ⟨i, u⟩ := e
    simp only [SMap.erase]
    split
    · subst_vars; simp only [SMap.find]; rw [if_neg (by omega)]; exact ih
    · simp only [SMap.find, ih]

@[simp] theorem SMap.get_set_self [DecidableEq α] (d : α) (m : SMap α) (k : Nat) (v : α) :
    SMap.get d (SMap.set d m k v) k = v := by
  unfold SMap.set SMap.get
  split
  · simp [SMap.find_erase_self, *]
  · simp [SMap.find_put_self]

theorem SMap.get_set_other [DecidableEq α] (d : α) (m : SMap α) (k j : Nat) (v : α) (h : j ≠ k) :
    SMap.get d (SMap.set d m k v) j = SMap.get d m j := by
  unfold SMap.set SMap.get
  split
  · rw [SMap.find_erase_other _ _ _ h]
  · rw [SMap.find_put_other _ _ _ _ h]

theorem SMap.get_set [DecidableEq α] (d : α) (m : SMap α) (k j : Nat) (v : α) :
    SMap.get d (SMap.set d m k v) j = if j = k then v else SMap.get d m j := by
  split
  · subst_vars; simp
  · rw [SMap.get_set_other _ _ _ _ _ (by assumption)]

/-- The keys that pass a test, and no others, are found after a filter by key. -/
theorem SMap.find_filter (m : SMap α) (p : Nat → Bool) (k : Nat) :
    SMap.find (m.filter fun e => p e.1) k = if p k then SMap.find m k else none := by
  induction m with
  | nil => simp [SMap.find]
  | cons e m ih =>
    obtain ⟨j, u⟩ := e
    by_cases hp : p j = true <;> by_cases hj : j = k <;> simp_all [List.filter, SMap.find]

theorem SMap.get_filter (d : α) (m : SMap α) (p : Nat → Bool) (k : Nat) :
    SMap.get d (m.filter fun e => p e.1) k = if p k then SMap.get d m k else d := by
  unfold SMap.get
  rw [SMap.find_filter]
  split <;> rfl

/-- The bound of a sorted map may be lowered. -/
theorem SMap.sortedFrom_weaken (m : SMap α) (a b : Nat) (hab : a ≤ b) (h : SMap.sortedFrom (some b) m = true) :
    SMap.sortedFrom (some a) m = true := by
  cases m with
  | nil => rfl
  | cons e m =>
    obtain ⟨j, u⟩ := e
    simp only [SMap.sortedFrom, Bool.and_eq_true, decide_eq_true_eq] at *
    exact ⟨by omega, h.2⟩

theorem SMap.sortedFrom_none (m : SMap α) (b : Nat) (h : SMap.sortedFrom (some b) m = true) :
    SMap.sortedFrom none m = true := by
  cases m with
  | nil => rfl
  | cons e m =>
    obtain ⟨j, u⟩ := e
    simp only [SMap.sortedFrom, Bool.and_eq_true] at *
    exact h.2

theorem SMap.sortedFrom_put (m : SMap α) (b k : Nat) (v : α) (hk : b < k) (h : SMap.sortedFrom (some b) m = true) :
    SMap.sortedFrom (some b) (SMap.put m k v) = true := by
  induction m generalizing b with
  | nil => simpa [SMap.put, SMap.sortedFrom] using hk
  | cons e m ih =>
    obtain ⟨j, u⟩ := e
    simp only [SMap.sortedFrom, Bool.and_eq_true, decide_eq_true_eq] at h
    simp only [SMap.put]
    split
    · simp only [SMap.sortedFrom, Bool.and_eq_true, decide_eq_true_eq]; exact ⟨hk, by omega, h.2⟩
    · split
      · subst_vars; simp only [SMap.sortedFrom, Bool.and_eq_true, decide_eq_true_eq]; exact ⟨hk, h.2⟩
      · simp only [SMap.sortedFrom, Bool.and_eq_true, decide_eq_true_eq]; exact ⟨h.1, ih j (by omega) h.2⟩

theorem SMap.sorted_put (m : SMap α) (k : Nat) (v : α) (h : SMap.sortedFrom none m = true) :
    SMap.sortedFrom none (SMap.put m k v) = true := by
  cases m with
  | nil => rfl
  | cons e m =>
    obtain ⟨j, u⟩ := e
    simp only [SMap.sortedFrom] at h
    simp only [SMap.put]
    split
    · simp only [SMap.sortedFrom, Bool.and_eq_true, decide_eq_true_eq]; exact ⟨by omega, h⟩
    · split
      · subst_vars; simpa only [SMap.sortedFrom] using h
      · simp only [SMap.sortedFrom]; exact SMap.sortedFrom_put m j k v (by omega) h

theorem SMap.sortedFrom_erase (m : SMap α) (b k : Nat) (h : SMap.sortedFrom (some b) m = true) :
    SMap.sortedFrom (some b) (SMap.erase m k) = true := by
  induction m generalizing b with
  | nil => rfl
  | cons e m ih =>
    obtain ⟨j, u⟩ := e
    simp only [SMap.sortedFrom, Bool.and_eq_true, decide_eq_true_eq] at h
    simp only [SMap.erase]
    split
    · exact ih b (SMap.sortedFrom_weaken m b j (by omega) h.2)
    · simp only [SMap.sortedFrom, Bool.and_eq_true, decide_eq_true_eq]; exact ⟨h.1, ih j h.2⟩

theorem SMap.sorted_erase (m : SMap α) (k : Nat) (h : SMap.sortedFrom none m = true) :
    SMap.sortedFrom none (SMap.erase m k) = true := by
  cases m with
  | nil => rfl
  | cons e m =>
    obtain ⟨j, u⟩ := e
    simp only [SMap.sortedFrom] at h
    simp only [SMap.erase]
    split
    · exact SMap.sortedFrom_none _ j (SMap.sortedFrom_erase m j k h)
    · simp only [SMap.sortedFrom]; exact SMap.sortedFrom_erase m j k h

theorem SMap.all_put (m : SMap α) (p : α → Bool) (k : Nat) (v : α) (hv : p v = true) (h : m.all (fun e => p e.2) = true) :
    (SMap.put m k v).all (fun e => p e.2) = true := by
  induction m with
  | nil => simpa [SMap.put] using hv
  | cons e m ih =>
    obtain ⟨j, u⟩ := e
    simp only [List.all_cons, Bool.and_eq_true] at h
    simp only [SMap.put]
    split
    · simp only [List.all_cons, Bool.and_eq_true]; exact ⟨hv, h⟩
    · split
      · simp only [List.all_cons, Bool.and_eq_true]; exact ⟨hv, h.2⟩
      · simp only [List.all_cons, Bool.and_eq_true]; exact ⟨h.1, ih h.2⟩

theorem SMap.all_erase (m : SMap α) (p : α → Bool) (k : Nat) (h : m.all (fun e => p e.2) = true) :
    (SMap.erase m k).all (fun e => p e.2) = true := by
  induction m with
  | nil => rfl
  | cons e m ih =>
    obtain ⟨j, u⟩ := e
    simp only [List.all_cons, Bool.and_eq_true] at h
    simp only [SMap.erase]
    split
    · exact ih h.2
    · simp only [List.all_cons, Bool.and_eq_true]; exact ⟨h.1, ih h.2⟩

/-- A map with one key set keeps the canonical form. -/
theorem SMap.wf_set [DecidableEq α] (d : α) (m : SMap α) (k : Nat) (v : α) (h : SMap.wf d m = true) :
    SMap.wf d (SMap.set d m k v) = true := by
  simp only [SMap.wf, Bool.and_eq_true] at h ⊢
  simp only [SMap.set]
  split
  · exact ⟨SMap.sorted_erase m k h.1, SMap.all_erase m (fun x => decide (x ≠ d)) k h.2⟩
  · exact ⟨SMap.sorted_put m k v h.1, SMap.all_put m (fun x => decide (x ≠ d)) k v (by simpa using ‹¬v = d›) h.2⟩

/-- A byte read where it was just written. -/
@[simp] theorem Memory.read_write_self (m : Memory) (a : Nat) (b : BitVec 8) : Memory.read (Memory.write m a b) a = b := by
  simp [Memory.read, Memory.write]

/-- A byte read elsewhere. -/
theorem Memory.read_write_other (m : Memory) (a j : Nat) (b : BitVec 8) (h : j ≠ a) :
    Memory.read (Memory.write m a b) j = Memory.read m j := by
  unfold Memory.read Memory.write
  exact SMap.get_set_other _ _ _ _ _ h

/-- One byte written keeps the canonical form. -/
theorem Memory.wf_write (m : Memory) (a : Nat) (b : BitVec 8) (h : Memory.wf m = true) :
    Memory.wf (Memory.write m a b) = true := SMap.wf_set _ _ _ _ h

/-- Bytes written keep the canonical form. -/
theorem Memory.wf_writeBytes (bs : List (BitVec 8)) (m : Memory) (a : Nat) (h : Memory.wf m = true) :
    Memory.wf (Memory.writeBytes m a bs) = true := by
  induction bs generalizing m a with
  | nil => exact h
  | cons b bs ih => exact ih _ _ (Memory.wf_write m a b h)

/-- Bytes outside the written range read as before. -/
theorem Memory.read_writeBytes_other (bs : List (BitVec 8)) (m : Memory) (a j : Nat) (h : j < a ∨ a + bs.length ≤ j) :
    Memory.read (Memory.writeBytes m a bs) j = Memory.read m j := by
  induction bs generalizing m a with
  | nil => rfl
  | cons b bs ih =>
    simp only [List.length_cons] at h
    simp only [Memory.writeBytes]
    rw [ih _ _ (by omega), Memory.read_write_other _ _ _ _ (by omega)]

end Sys2Proof.Machine
end

