-- ==== Sys2Proof/Laws/State.lean ====
section
/-!
SUPPORT. What each named update of the state leaves of each field, and what it reads back.
-/

namespace Sys2Proof.Machine

@[simp] theorem State.setCore_agenda (s : State) (r : Nat) (x : Core) : (s.setCore r x).agenda = s.agenda := rfl
@[simp] theorem State.setCore_turn (s : State) (r : Nat) (x : Core) : (s.setCore r x).turn = s.turn := rfl
@[simp] theorem State.setCore_patience (s : State) (r : Nat) (x : Core) : (s.setCore r x).patience = s.patience := rfl
@[simp] theorem State.setCore_free (s : State) (r : Nat) (x : Core) : (s.setCore r x).free = s.free := rfl
@[simp] theorem State.setCore_cur (s : State) (r : Nat) (x : Core) : (s.setCore r x).cur = s.cur := rfl
@[simp] theorem State.setCore_recq (s : State) (r : Nat) (x : Core) : (s.setCore r x).recq = s.recq := rfl
@[simp] theorem State.setCore_stall (s : State) (r : Nat) (x : Core) : (s.setCore r x).stall = s.stall := rfl
@[simp] theorem State.setCore_tick (s : State) (r : Nat) (x : Core) : (s.setCore r x).tick = s.tick := rfl
@[simp] theorem State.setCore_pkc (s : State) (r : Nat) (x : Core) : (s.setCore r x).pkc = s.pkc := rfl
@[simp] theorem State.setCore_stopped (s : State) (r : Nat) (x : Core) : (s.setCore r x).stopped = s.stopped := rfl
@[simp] theorem State.setCore_nodeLocked (s : State) (r : Nat) (x : Core) : (s.setCore r x).nodeLocked = s.nodeLocked := rfl
@[simp] theorem State.setCore_parts (s : State) (r : Nat) (x : Core) : (s.setCore r x).parts = s.parts := rfl
@[simp] theorem State.setCore_ctxs (s : State) (r : Nat) (x : Core) : (s.setCore r x).ctxs = s.ctxs := rfl
@[simp] theorem State.setCore_clusters (s : State) (r : Nat) (x : Core) : (s.setCore r x).clusters = s.clusters := rfl
@[simp] theorem State.setCore_regst (s : State) (r : Nat) (x : Core) : (s.setCore r x).regst = s.regst := rfl
@[simp] theorem State.setCore_dirOrder (s : State) (r : Nat) (x : Core) : (s.setCore r x).dirOrder = s.dirOrder := rfl
@[simp] theorem State.setCore_splitOrder (s : State) (r : Nat) (x : Core) : (s.setCore r x).splitOrder = s.splitOrder := rfl
@[simp] theorem State.setCore_sidx (s : State) (r : Nat) (x : Core) : (s.setCore r x).sidx = s.sidx := rfl
@[simp] theorem State.setCore_holdOrder (s : State) (r : Nat) (x : Core) : (s.setCore r x).holdOrder = s.holdOrder := rfl
@[simp] theorem State.setCore_l2 (s : State) (r : Nat) (x : Core) : (s.setCore r x).l2 = s.l2 := rfl
@[simp] theorem State.setCore_hbm (s : State) (r : Nat) (x : Core) : (s.setCore r x).hbm = s.hbm := rfl
@[simp] theorem State.setCore_host (s : State) (r : Nat) (x : Core) : (s.setCore r x).host = s.host := rfl
@[simp] theorem State.setCore_mcache (s : State) (r : Nat) (x : Core) : (s.setCore r x).mcache = s.mcache := rfl
@[simp] theorem State.setCore_root (s : State) (r : Nat) (x : Core) : (s.setCore r x).root = s.root := rfl
@[simp] theorem State.setCore_rowsKept (s : State) (r : Nat) (x : Core) : (s.setCore r x).rowsKept = s.rowsKept := rfl
@[simp] theorem State.setCore_failedRows (s : State) (r : Nat) (x : Core) : (s.setCore r x).failedRows = s.failedRows := rfl
@[simp] theorem State.setCore_failedEngines (s : State) (r : Nat) (x : Core) : (s.setCore r x).failedEngines = s.failedEngines := rfl
@[simp] theorem State.setCore_keys (s : State) (r : Nat) (x : Core) : (s.setCore r x).keys = s.keys := rfl
@[simp] theorem State.setCore_sealInits (s : State) (r : Nat) (x : Core) : (s.setCore r x).sealInits = s.sealInits := rfl
@[simp] theorem State.setCore_frr (s : State) (r : Nat) (x : Core) : (s.setCore r x).frr = s.frr := rfl
@[simp] theorem State.setCore_walkers (s : State) (r : Nat) (x : Core) : (s.setCore r x).walkers = s.walkers := rfl
@[simp] theorem State.setCore_fired (s : State) (r : Nat) (x : Core) : (s.setCore r x).fired = s.fired := rfl
@[simp] theorem State.setCore_nextJob (s : State) (r : Nat) (x : Core) : (s.setCore r x).nextJob = s.nextJob := rfl
@[simp] theorem State.setCore_nmuQ (s : State) (r : Nat) (x : Core) : (s.setCore r x).nmuQ = s.nmuQ := rfl
@[simp] theorem State.setCore_prims (s : State) (r : Nat) (x : Core) : (s.setCore r x).prims = s.prims := rfl
@[simp] theorem State.setCore_fronts (s : State) (r : Nat) (x : Core) : (s.setCore r x).fronts = s.fronts := rfl
@[simp] theorem State.setCore_rings (s : State) (r : Nat) (x : Core) : (s.setCore r x).rings = s.rings := rfl
@[simp] theorem State.setCore_fifos (s : State) (r : Nat) (x : Core) : (s.setCore r x).fifos = s.fifos := rfl
@[simp] theorem State.setCore_parked (s : State) (r : Nat) (x : Core) : (s.setCore r x).parked = s.parked := rfl
@[simp] theorem State.setCore_progs (s : State) (r : Nat) (x : Core) : (s.setCore r x).progs = s.progs := rfl
@[simp] theorem State.setCore_fences (s : State) (r : Nat) (x : Core) : (s.setCore r x).fences = s.fences := rfl
@[simp] theorem State.setCore_tmeths (s : State) (r : Nat) (x : Core) : (s.setCore r x).tmeths = s.tmeths := rfl
@[simp] theorem State.setCore_nextSeq (s : State) (r : Nat) (x : Core) : (s.setCore r x).nextSeq = s.nextSeq := rfl
@[simp] theorem State.setCore_mregs (s : State) (r : Nat) (x : Core) : (s.setCore r x).mregs = s.mregs := rfl
@[simp] theorem State.setCore_ports (s : State) (r : Nat) (x : Core) : (s.setCore r x).ports = s.ports := rfl
@[simp] theorem State.setCore_streams (s : State) (r : Nat) (x : Core) : (s.setCore r x).streams = s.streams := rfl
@[simp] theorem State.setCore_asks (s : State) (r : Nat) (x : Core) : (s.setCore r x).asks = s.asks := rfl
@[simp] theorem State.setCore_discarded (s : State) (r : Nat) (x : Core) : (s.setCore r x).discarded = s.discarded := rfl
@[simp] theorem State.setCore_hdm (s : State) (r : Nat) (x : Core) : (s.setCore r x).hdm = s.hdm := rfl
@[simp] theorem State.setCore_ideFailed (s : State) (r : Nat) (x : Core) : (s.setCore r x).ideFailed = s.ideFailed := rfl
@[simp] theorem State.setCore_cxlDown (s : State) (r : Nat) (x : Core) : (s.setCore r x).cxlDown = s.cxlDown := rfl
@[simp] theorem State.setCore_sessions (s : State) (r : Nat) (x : Core) : (s.setCore r x).sessions = s.sessions := rfl
@[simp] theorem State.setCore_spdmOut (s : State) (r : Nat) (x : Core) : (s.setCore r x).spdmOut = s.spdmOut := rfl
@[simp] theorem State.setCore_snoop (s : State) (r : Nat) (x : Core) : (s.setCore r x).snoop = s.snoop := rfl
@[simp] theorem State.setCore_cacheLines (s : State) (r : Nat) (x : Core) : (s.setCore r x).cacheLines = s.cacheLines := rfl
@[simp] theorem State.setCore_privWords (s : State) (r : Nat) (x : Core) : (s.setCore r x).privWords = s.privWords := rfl
@[simp] theorem State.setCore_hostData (s : State) (r : Nat) (x : Core) : (s.setCore r x).hostData = s.hostData := rfl
@[simp] theorem State.setCore_dies (s : State) (r : Nat) (x : Core) : (s.setCore r x).dies = s.dies := rfl
@[simp] theorem State.setCore_life (s : State) (r : Nat) (x : Core) : (s.setCore r x).life = s.life := rfl
@[simp] theorem State.setCore_log (s : State) (r : Nat) (x : Core) : (s.setCore r x).log = s.log := rfl
@[simp] theorem State.setCore_logCount (s : State) (r : Nat) (x : Core) : (s.setCore r x).logCount = s.logCount := rfl
@[simp] theorem State.setCore_obsc (s : State) (r : Nat) (x : Core) : (s.setCore r x).obsc = s.obsc := rfl
@[simp] theorem State.setCore_stt (s : State) (r : Nat) (x : Core) : (s.setCore r x).stt = s.stt := rfl
@[simp] theorem State.setCore_snt (s : State) (r : Nat) (x : Core) : (s.setCore r x).snt = s.snt := rfl
@[simp] theorem State.setCore_latchAt (s : State) (r : Nat) (x : Core) : (s.setCore r x).latchAt = s.latchAt := rfl
@[simp] theorem State.setCore_shadows (s : State) (r : Nat) (x : Core) : (s.setCore r x).shadows = s.shadows := rfl
@[simp] theorem State.setCore_counts (s : State) (r : Nat) (x : Core) : (s.setCore r x).counts = s.counts := rfl
@[simp] theorem State.setCore_dump (s : State) (r : Nat) (x : Core) : (s.setCore r x).dump = s.dump := rfl
@[simp] theorem State.setCore_dumpb (s : State) (r : Nat) (x : Core) : (s.setCore r x).dumpb = s.dumpb := rfl
@[simp] theorem State.setCore_heldFlits (s : State) (r : Nat) (x : Core) : (s.setCore r x).heldFlits = s.heldFlits := rfl
@[simp] theorem State.setCore_dumpFlits (s : State) (r : Nat) (x : Core) : (s.setCore r x).dumpFlits = s.dumpFlits := rfl
@[simp] theorem State.setCore_readOut (s : State) (r : Nat) (x : Core) : (s.setCore r x).readOut = s.readOut := rfl

@[simp] theorem State.setCtx_agenda (s : State) (k : Nat) (x : Context) : (s.setCtx k x).agenda = s.agenda := rfl
@[simp] theorem State.setCtx_turn (s : State) (k : Nat) (x : Context) : (s.setCtx k x).turn = s.turn := rfl
@[simp] theorem State.setCtx_patience (s : State) (k : Nat) (x : Context) : (s.setCtx k x).patience = s.patience := rfl
@[simp] theorem State.setCtx_free (s : State) (k : Nat) (x : Context) : (s.setCtx k x).free = s.free := rfl
@[simp] theorem State.setCtx_cur (s : State) (k : Nat) (x : Context) : (s.setCtx k x).cur = s.cur := rfl
@[simp] theorem State.setCtx_recq (s : State) (k : Nat) (x : Context) : (s.setCtx k x).recq = s.recq := rfl
@[simp] theorem State.setCtx_stall (s : State) (k : Nat) (x : Context) : (s.setCtx k x).stall = s.stall := rfl
@[simp] theorem State.setCtx_tick (s : State) (k : Nat) (x : Context) : (s.setCtx k x).tick = s.tick := rfl
@[simp] theorem State.setCtx_pkc (s : State) (k : Nat) (x : Context) : (s.setCtx k x).pkc = s.pkc := rfl
@[simp] theorem State.setCtx_stopped (s : State) (k : Nat) (x : Context) : (s.setCtx k x).stopped = s.stopped := rfl
@[simp] theorem State.setCtx_nodeLocked (s : State) (k : Nat) (x : Context) : (s.setCtx k x).nodeLocked = s.nodeLocked := rfl
@[simp] theorem State.setCtx_parts (s : State) (k : Nat) (x : Context) : (s.setCtx k x).parts = s.parts := rfl
@[simp] theorem State.setCtx_clusters (s : State) (k : Nat) (x : Context) : (s.setCtx k x).clusters = s.clusters := rfl
@[simp] theorem State.setCtx_cores (s : State) (k : Nat) (x : Context) : (s.setCtx k x).cores = s.cores := rfl
@[simp] theorem State.setCtx_regst (s : State) (k : Nat) (x : Context) : (s.setCtx k x).regst = s.regst := rfl
@[simp] theorem State.setCtx_dirOrder (s : State) (k : Nat) (x : Context) : (s.setCtx k x).dirOrder = s.dirOrder := rfl
@[simp] theorem State.setCtx_splitOrder (s : State) (k : Nat) (x : Context) : (s.setCtx k x).splitOrder = s.splitOrder := rfl
@[simp] theorem State.setCtx_sidx (s : State) (k : Nat) (x : Context) : (s.setCtx k x).sidx = s.sidx := rfl
@[simp] theorem State.setCtx_holdOrder (s : State) (k : Nat) (x : Context) : (s.setCtx k x).holdOrder = s.holdOrder := rfl
@[simp] theorem State.setCtx_l2 (s : State) (k : Nat) (x : Context) : (s.setCtx k x).l2 = s.l2 := rfl
@[simp] theorem State.setCtx_hbm (s : State) (k : Nat) (x : Context) : (s.setCtx k x).hbm = s.hbm := rfl
@[simp] theorem State.setCtx_host (s : State) (k : Nat) (x : Context) : (s.setCtx k x).host = s.host := rfl
@[simp] theorem State.setCtx_mcache (s : State) (k : Nat) (x : Context) : (s.setCtx k x).mcache = s.mcache := rfl
@[simp] theorem State.setCtx_root (s : State) (k : Nat) (x : Context) : (s.setCtx k x).root = s.root := rfl
@[simp] theorem State.setCtx_rowsKept (s : State) (k : Nat) (x : Context) : (s.setCtx k x).rowsKept = s.rowsKept := rfl
@[simp] theorem State.setCtx_failedRows (s : State) (k : Nat) (x : Context) : (s.setCtx k x).failedRows = s.failedRows := rfl
@[simp] theorem State.setCtx_failedEngines (s : State) (k : Nat) (x : Context) : (s.setCtx k x).failedEngines = s.failedEngines := rfl
@[simp] theorem State.setCtx_keys (s : State) (k : Nat) (x : Context) : (s.setCtx k x).keys = s.keys := rfl
@[simp] theorem State.setCtx_sealInits (s : State) (k : Nat) (x : Context) : (s.setCtx k x).sealInits = s.sealInits := rfl
@[simp] theorem State.setCtx_frr (s : State) (k : Nat) (x : Context) : (s.setCtx k x).frr = s.frr := rfl
@[simp] theorem State.setCtx_walkers (s : State) (k : Nat) (x : Context) : (s.setCtx k x).walkers = s.walkers := rfl
@[simp] theorem State.setCtx_fired (s : State) (k : Nat) (x : Context) : (s.setCtx k x).fired = s.fired := rfl
@[simp] theorem State.setCtx_nextJob (s : State) (k : Nat) (x : Context) : (s.setCtx k x).nextJob = s.nextJob := rfl
@[simp] theorem State.setCtx_nmuQ (s : State) (k : Nat) (x : Context) : (s.setCtx k x).nmuQ = s.nmuQ := rfl
@[simp] theorem State.setCtx_prims (s : State) (k : Nat) (x : Context) : (s.setCtx k x).prims = s.prims := rfl
@[simp] theorem State.setCtx_fronts (s : State) (k : Nat) (x : Context) : (s.setCtx k x).fronts = s.fronts := rfl
@[simp] theorem State.setCtx_rings (s : State) (k : Nat) (x : Context) : (s.setCtx k x).rings = s.rings := rfl
@[simp] theorem State.setCtx_fifos (s : State) (k : Nat) (x : Context) : (s.setCtx k x).fifos = s.fifos := rfl
@[simp] theorem State.setCtx_parked (s : State) (k : Nat) (x : Context) : (s.setCtx k x).parked = s.parked := rfl
@[simp] theorem State.setCtx_progs (s : State) (k : Nat) (x : Context) : (s.setCtx k x).progs = s.progs := rfl
@[simp] theorem State.setCtx_fences (s : State) (k : Nat) (x : Context) : (s.setCtx k x).fences = s.fences := rfl
@[simp] theorem State.setCtx_tmeths (s : State) (k : Nat) (x : Context) : (s.setCtx k x).tmeths = s.tmeths := rfl
@[simp] theorem State.setCtx_nextSeq (s : State) (k : Nat) (x : Context) : (s.setCtx k x).nextSeq = s.nextSeq := rfl
@[simp] theorem State.setCtx_mregs (s : State) (k : Nat) (x : Context) : (s.setCtx k x).mregs = s.mregs := rfl
@[simp] theorem State.setCtx_ports (s : State) (k : Nat) (x : Context) : (s.setCtx k x).ports = s.ports := rfl
@[simp] theorem State.setCtx_streams (s : State) (k : Nat) (x : Context) : (s.setCtx k x).streams = s.streams := rfl
@[simp] theorem State.setCtx_asks (s : State) (k : Nat) (x : Context) : (s.setCtx k x).asks = s.asks := rfl
@[simp] theorem State.setCtx_discarded (s : State) (k : Nat) (x : Context) : (s.setCtx k x).discarded = s.discarded := rfl
@[simp] theorem State.setCtx_hdm (s : State) (k : Nat) (x : Context) : (s.setCtx k x).hdm = s.hdm := rfl
@[simp] theorem State.setCtx_ideFailed (s : State) (k : Nat) (x : Context) : (s.setCtx k x).ideFailed = s.ideFailed := rfl
@[simp] theorem State.setCtx_cxlDown (s : State) (k : Nat) (x : Context) : (s.setCtx k x).cxlDown = s.cxlDown := rfl
@[simp] theorem State.setCtx_sessions (s : State) (k : Nat) (x : Context) : (s.setCtx k x).sessions = s.sessions := rfl
@[simp] theorem State.setCtx_spdmOut (s : State) (k : Nat) (x : Context) : (s.setCtx k x).spdmOut = s.spdmOut := rfl
@[simp] theorem State.setCtx_snoop (s : State) (k : Nat) (x : Context) : (s.setCtx k x).snoop = s.snoop := rfl
@[simp] theorem State.setCtx_cacheLines (s : State) (k : Nat) (x : Context) : (s.setCtx k x).cacheLines = s.cacheLines := rfl
@[simp] theorem State.setCtx_privWords (s : State) (k : Nat) (x : Context) : (s.setCtx k x).privWords = s.privWords := rfl
@[simp] theorem State.setCtx_hostData (s : State) (k : Nat) (x : Context) : (s.setCtx k x).hostData = s.hostData := rfl
@[simp] theorem State.setCtx_dies (s : State) (k : Nat) (x : Context) : (s.setCtx k x).dies = s.dies := rfl
@[simp] theorem State.setCtx_life (s : State) (k : Nat) (x : Context) : (s.setCtx k x).life = s.life := rfl
@[simp] theorem State.setCtx_log (s : State) (k : Nat) (x : Context) : (s.setCtx k x).log = s.log := rfl
@[simp] theorem State.setCtx_logCount (s : State) (k : Nat) (x : Context) : (s.setCtx k x).logCount = s.logCount := rfl
@[simp] theorem State.setCtx_obsc (s : State) (k : Nat) (x : Context) : (s.setCtx k x).obsc = s.obsc := rfl
@[simp] theorem State.setCtx_stt (s : State) (k : Nat) (x : Context) : (s.setCtx k x).stt = s.stt := rfl
@[simp] theorem State.setCtx_snt (s : State) (k : Nat) (x : Context) : (s.setCtx k x).snt = s.snt := rfl
@[simp] theorem State.setCtx_latchAt (s : State) (k : Nat) (x : Context) : (s.setCtx k x).latchAt = s.latchAt := rfl
@[simp] theorem State.setCtx_shadows (s : State) (k : Nat) (x : Context) : (s.setCtx k x).shadows = s.shadows := rfl
@[simp] theorem State.setCtx_counts (s : State) (k : Nat) (x : Context) : (s.setCtx k x).counts = s.counts := rfl
@[simp] theorem State.setCtx_dump (s : State) (k : Nat) (x : Context) : (s.setCtx k x).dump = s.dump := rfl
@[simp] theorem State.setCtx_dumpb (s : State) (k : Nat) (x : Context) : (s.setCtx k x).dumpb = s.dumpb := rfl
@[simp] theorem State.setCtx_heldFlits (s : State) (k : Nat) (x : Context) : (s.setCtx k x).heldFlits = s.heldFlits := rfl
@[simp] theorem State.setCtx_dumpFlits (s : State) (k : Nat) (x : Context) : (s.setCtx k x).dumpFlits = s.dumpFlits := rfl
@[simp] theorem State.setCtx_readOut (s : State) (k : Nat) (x : Context) : (s.setCtx k x).readOut = s.readOut := rfl

@[simp] theorem State.setPart_agenda (s : State) (p : Nat) (x : Partition) : (s.setPart p x).agenda = s.agenda := rfl
@[simp] theorem State.setPart_turn (s : State) (p : Nat) (x : Partition) : (s.setPart p x).turn = s.turn := rfl
@[simp] theorem State.setPart_patience (s : State) (p : Nat) (x : Partition) : (s.setPart p x).patience = s.patience := rfl
@[simp] theorem State.setPart_free (s : State) (p : Nat) (x : Partition) : (s.setPart p x).free = s.free := rfl
@[simp] theorem State.setPart_cur (s : State) (p : Nat) (x : Partition) : (s.setPart p x).cur = s.cur := rfl
@[simp] theorem State.setPart_recq (s : State) (p : Nat) (x : Partition) : (s.setPart p x).recq = s.recq := rfl
@[simp] theorem State.setPart_stall (s : State) (p : Nat) (x : Partition) : (s.setPart p x).stall = s.stall := rfl
@[simp] theorem State.setPart_tick (s : State) (p : Nat) (x : Partition) : (s.setPart p x).tick = s.tick := rfl
@[simp] theorem State.setPart_pkc (s : State) (p : Nat) (x : Partition) : (s.setPart p x).pkc = s.pkc := rfl
@[simp] theorem State.setPart_stopped (s : State) (p : Nat) (x : Partition) : (s.setPart p x).stopped = s.stopped := rfl
@[simp] theorem State.setPart_nodeLocked (s : State) (p : Nat) (x : Partition) : (s.setPart p x).nodeLocked = s.nodeLocked := rfl
@[simp] theorem State.setPart_ctxs (s : State) (p : Nat) (x : Partition) : (s.setPart p x).ctxs = s.ctxs := rfl
@[simp] theorem State.setPart_clusters (s : State) (p : Nat) (x : Partition) : (s.setPart p x).clusters = s.clusters := rfl
@[simp] theorem State.setPart_cores (s : State) (p : Nat) (x : Partition) : (s.setPart p x).cores = s.cores := rfl
@[simp] theorem State.setPart_regst (s : State) (p : Nat) (x : Partition) : (s.setPart p x).regst = s.regst := rfl
@[simp] theorem State.setPart_dirOrder (s : State) (p : Nat) (x : Partition) : (s.setPart p x).dirOrder = s.dirOrder := rfl
@[simp] theorem State.setPart_splitOrder (s : State) (p : Nat) (x : Partition) : (s.setPart p x).splitOrder = s.splitOrder := rfl
@[simp] theorem State.setPart_sidx (s : State) (p : Nat) (x : Partition) : (s.setPart p x).sidx = s.sidx := rfl
@[simp] theorem State.setPart_holdOrder (s : State) (p : Nat) (x : Partition) : (s.setPart p x).holdOrder = s.holdOrder := rfl
@[simp] theorem State.setPart_l2 (s : State) (p : Nat) (x : Partition) : (s.setPart p x).l2 = s.l2 := rfl
@[simp] theorem State.setPart_hbm (s : State) (p : Nat) (x : Partition) : (s.setPart p x).hbm = s.hbm := rfl
@[simp] theorem State.setPart_host (s : State) (p : Nat) (x : Partition) : (s.setPart p x).host = s.host := rfl
@[simp] theorem State.setPart_mcache (s : State) (p : Nat) (x : Partition) : (s.setPart p x).mcache = s.mcache := rfl
@[simp] theorem State.setPart_root (s : State) (p : Nat) (x : Partition) : (s.setPart p x).root = s.root := rfl
@[simp] theorem State.setPart_rowsKept (s : State) (p : Nat) (x : Partition) : (s.setPart p x).rowsKept = s.rowsKept := rfl
@[simp] theorem State.setPart_failedRows (s : State) (p : Nat) (x : Partition) : (s.setPart p x).failedRows = s.failedRows := rfl
@[simp] theorem State.setPart_failedEngines (s : State) (p : Nat) (x : Partition) : (s.setPart p x).failedEngines = s.failedEngines := rfl
@[simp] theorem State.setPart_keys (s : State) (p : Nat) (x : Partition) : (s.setPart p x).keys = s.keys := rfl
@[simp] theorem State.setPart_sealInits (s : State) (p : Nat) (x : Partition) : (s.setPart p x).sealInits = s.sealInits := rfl
@[simp] theorem State.setPart_frr (s : State) (p : Nat) (x : Partition) : (s.setPart p x).frr = s.frr := rfl
@[simp] theorem State.setPart_walkers (s : State) (p : Nat) (x : Partition) : (s.setPart p x).walkers = s.walkers := rfl
@[simp] theorem State.setPart_fired (s : State) (p : Nat) (x : Partition) : (s.setPart p x).fired = s.fired := rfl
@[simp] theorem State.setPart_nextJob (s : State) (p : Nat) (x : Partition) : (s.setPart p x).nextJob = s.nextJob := rfl
@[simp] theorem State.setPart_nmuQ (s : State) (p : Nat) (x : Partition) : (s.setPart p x).nmuQ = s.nmuQ := rfl
@[simp] theorem State.setPart_prims (s : State) (p : Nat) (x : Partition) : (s.setPart p x).prims = s.prims := rfl
@[simp] theorem State.setPart_fronts (s : State) (p : Nat) (x : Partition) : (s.setPart p x).fronts = s.fronts := rfl
@[simp] theorem State.setPart_rings (s : State) (p : Nat) (x : Partition) : (s.setPart p x).rings = s.rings := rfl
@[simp] theorem State.setPart_fifos (s : State) (p : Nat) (x : Partition) : (s.setPart p x).fifos = s.fifos := rfl
@[simp] theorem State.setPart_parked (s : State) (p : Nat) (x : Partition) : (s.setPart p x).parked = s.parked := rfl
@[simp] theorem State.setPart_progs (s : State) (p : Nat) (x : Partition) : (s.setPart p x).progs = s.progs := rfl
@[simp] theorem State.setPart_fences (s : State) (p : Nat) (x : Partition) : (s.setPart p x).fences = s.fences := rfl
@[simp] theorem State.setPart_tmeths (s : State) (p : Nat) (x : Partition) : (s.setPart p x).tmeths = s.tmeths := rfl
@[simp] theorem State.setPart_nextSeq (s : State) (p : Nat) (x : Partition) : (s.setPart p x).nextSeq = s.nextSeq := rfl
@[simp] theorem State.setPart_mregs (s : State) (p : Nat) (x : Partition) : (s.setPart p x).mregs = s.mregs := rfl
@[simp] theorem State.setPart_ports (s : State) (p : Nat) (x : Partition) : (s.setPart p x).ports = s.ports := rfl
@[simp] theorem State.setPart_streams (s : State) (p : Nat) (x : Partition) : (s.setPart p x).streams = s.streams := rfl
@[simp] theorem State.setPart_asks (s : State) (p : Nat) (x : Partition) : (s.setPart p x).asks = s.asks := rfl
@[simp] theorem State.setPart_discarded (s : State) (p : Nat) (x : Partition) : (s.setPart p x).discarded = s.discarded := rfl
@[simp] theorem State.setPart_hdm (s : State) (p : Nat) (x : Partition) : (s.setPart p x).hdm = s.hdm := rfl
@[simp] theorem State.setPart_ideFailed (s : State) (p : Nat) (x : Partition) : (s.setPart p x).ideFailed = s.ideFailed := rfl
@[simp] theorem State.setPart_cxlDown (s : State) (p : Nat) (x : Partition) : (s.setPart p x).cxlDown = s.cxlDown := rfl
@[simp] theorem State.setPart_sessions (s : State) (p : Nat) (x : Partition) : (s.setPart p x).sessions = s.sessions := rfl
@[simp] theorem State.setPart_spdmOut (s : State) (p : Nat) (x : Partition) : (s.setPart p x).spdmOut = s.spdmOut := rfl
@[simp] theorem State.setPart_snoop (s : State) (p : Nat) (x : Partition) : (s.setPart p x).snoop = s.snoop := rfl
@[simp] theorem State.setPart_cacheLines (s : State) (p : Nat) (x : Partition) : (s.setPart p x).cacheLines = s.cacheLines := rfl
@[simp] theorem State.setPart_privWords (s : State) (p : Nat) (x : Partition) : (s.setPart p x).privWords = s.privWords := rfl
@[simp] theorem State.setPart_hostData (s : State) (p : Nat) (x : Partition) : (s.setPart p x).hostData = s.hostData := rfl
@[simp] theorem State.setPart_dies (s : State) (p : Nat) (x : Partition) : (s.setPart p x).dies = s.dies := rfl
@[simp] theorem State.setPart_life (s : State) (p : Nat) (x : Partition) : (s.setPart p x).life = s.life := rfl
@[simp] theorem State.setPart_log (s : State) (p : Nat) (x : Partition) : (s.setPart p x).log = s.log := rfl
@[simp] theorem State.setPart_logCount (s : State) (p : Nat) (x : Partition) : (s.setPart p x).logCount = s.logCount := rfl
@[simp] theorem State.setPart_obsc (s : State) (p : Nat) (x : Partition) : (s.setPart p x).obsc = s.obsc := rfl
@[simp] theorem State.setPart_stt (s : State) (p : Nat) (x : Partition) : (s.setPart p x).stt = s.stt := rfl
@[simp] theorem State.setPart_snt (s : State) (p : Nat) (x : Partition) : (s.setPart p x).snt = s.snt := rfl
@[simp] theorem State.setPart_latchAt (s : State) (p : Nat) (x : Partition) : (s.setPart p x).latchAt = s.latchAt := rfl
@[simp] theorem State.setPart_shadows (s : State) (p : Nat) (x : Partition) : (s.setPart p x).shadows = s.shadows := rfl
@[simp] theorem State.setPart_counts (s : State) (p : Nat) (x : Partition) : (s.setPart p x).counts = s.counts := rfl
@[simp] theorem State.setPart_dump (s : State) (p : Nat) (x : Partition) : (s.setPart p x).dump = s.dump := rfl
@[simp] theorem State.setPart_dumpb (s : State) (p : Nat) (x : Partition) : (s.setPart p x).dumpb = s.dumpb := rfl
@[simp] theorem State.setPart_heldFlits (s : State) (p : Nat) (x : Partition) : (s.setPart p x).heldFlits = s.heldFlits := rfl
@[simp] theorem State.setPart_dumpFlits (s : State) (p : Nat) (x : Partition) : (s.setPart p x).dumpFlits = s.dumpFlits := rfl
@[simp] theorem State.setPart_readOut (s : State) (p : Nat) (x : Partition) : (s.setPart p x).readOut = s.readOut := rfl

@[simp] theorem State.setCluster_agenda (s : State) (k : Nat) (x : Cluster) : (s.setCluster k x).agenda = s.agenda := rfl
@[simp] theorem State.setCluster_turn (s : State) (k : Nat) (x : Cluster) : (s.setCluster k x).turn = s.turn := rfl
@[simp] theorem State.setCluster_patience (s : State) (k : Nat) (x : Cluster) : (s.setCluster k x).patience = s.patience := rfl
@[simp] theorem State.setCluster_free (s : State) (k : Nat) (x : Cluster) : (s.setCluster k x).free = s.free := rfl
@[simp] theorem State.setCluster_cur (s : State) (k : Nat) (x : Cluster) : (s.setCluster k x).cur = s.cur := rfl
@[simp] theorem State.setCluster_recq (s : State) (k : Nat) (x : Cluster) : (s.setCluster k x).recq = s.recq := rfl
@[simp] theorem State.setCluster_stall (s : State) (k : Nat) (x : Cluster) : (s.setCluster k x).stall = s.stall := rfl
@[simp] theorem State.setCluster_tick (s : State) (k : Nat) (x : Cluster) : (s.setCluster k x).tick = s.tick := rfl
@[simp] theorem State.setCluster_pkc (s : State) (k : Nat) (x : Cluster) : (s.setCluster k x).pkc = s.pkc := rfl
@[simp] theorem State.setCluster_stopped (s : State) (k : Nat) (x : Cluster) : (s.setCluster k x).stopped = s.stopped := rfl
@[simp] theorem State.setCluster_nodeLocked (s : State) (k : Nat) (x : Cluster) : (s.setCluster k x).nodeLocked = s.nodeLocked := rfl
@[simp] theorem State.setCluster_parts (s : State) (k : Nat) (x : Cluster) : (s.setCluster k x).parts = s.parts := rfl
@[simp] theorem State.setCluster_ctxs (s : State) (k : Nat) (x : Cluster) : (s.setCluster k x).ctxs = s.ctxs := rfl
@[simp] theorem State.setCluster_cores (s : State) (k : Nat) (x : Cluster) : (s.setCluster k x).cores = s.cores := rfl
@[simp] theorem State.setCluster_regst (s : State) (k : Nat) (x : Cluster) : (s.setCluster k x).regst = s.regst := rfl
@[simp] theorem State.setCluster_dirOrder (s : State) (k : Nat) (x : Cluster) : (s.setCluster k x).dirOrder = s.dirOrder := rfl
@[simp] theorem State.setCluster_splitOrder (s : State) (k : Nat) (x : Cluster) : (s.setCluster k x).splitOrder = s.splitOrder := rfl
@[simp] theorem State.setCluster_sidx (s : State) (k : Nat) (x : Cluster) : (s.setCluster k x).sidx = s.sidx := rfl
@[simp] theorem State.setCluster_holdOrder (s : State) (k : Nat) (x : Cluster) : (s.setCluster k x).holdOrder = s.holdOrder := rfl
@[simp] theorem State.setCluster_l2 (s : State) (k : Nat) (x : Cluster) : (s.setCluster k x).l2 = s.l2 := rfl
@[simp] theorem State.setCluster_hbm (s : State) (k : Nat) (x : Cluster) : (s.setCluster k x).hbm = s.hbm := rfl
@[simp] theorem State.setCluster_host (s : State) (k : Nat) (x : Cluster) : (s.setCluster k x).host = s.host := rfl
@[simp] theorem State.setCluster_mcache (s : State) (k : Nat) (x : Cluster) : (s.setCluster k x).mcache = s.mcache := rfl
@[simp] theorem State.setCluster_root (s : State) (k : Nat) (x : Cluster) : (s.setCluster k x).root = s.root := rfl
@[simp] theorem State.setCluster_rowsKept (s : State) (k : Nat) (x : Cluster) : (s.setCluster k x).rowsKept = s.rowsKept := rfl
@[simp] theorem State.setCluster_failedRows (s : State) (k : Nat) (x : Cluster) : (s.setCluster k x).failedRows = s.failedRows := rfl
@[simp] theorem State.setCluster_failedEngines (s : State) (k : Nat) (x : Cluster) : (s.setCluster k x).failedEngines = s.failedEngines := rfl
@[simp] theorem State.setCluster_keys (s : State) (k : Nat) (x : Cluster) : (s.setCluster k x).keys = s.keys := rfl
@[simp] theorem State.setCluster_sealInits (s : State) (k : Nat) (x : Cluster) : (s.setCluster k x).sealInits = s.sealInits := rfl
@[simp] theorem State.setCluster_frr (s : State) (k : Nat) (x : Cluster) : (s.setCluster k x).frr = s.frr := rfl
@[simp] theorem State.setCluster_walkers (s : State) (k : Nat) (x : Cluster) : (s.setCluster k x).walkers = s.walkers := rfl
@[simp] theorem State.setCluster_fired (s : State) (k : Nat) (x : Cluster) : (s.setCluster k x).fired = s.fired := rfl
@[simp] theorem State.setCluster_nextJob (s : State) (k : Nat) (x : Cluster) : (s.setCluster k x).nextJob = s.nextJob := rfl
@[simp] theorem State.setCluster_nmuQ (s : State) (k : Nat) (x : Cluster) : (s.setCluster k x).nmuQ = s.nmuQ := rfl
@[simp] theorem State.setCluster_prims (s : State) (k : Nat) (x : Cluster) : (s.setCluster k x).prims = s.prims := rfl
@[simp] theorem State.setCluster_fronts (s : State) (k : Nat) (x : Cluster) : (s.setCluster k x).fronts = s.fronts := rfl
@[simp] theorem State.setCluster_rings (s : State) (k : Nat) (x : Cluster) : (s.setCluster k x).rings = s.rings := rfl
@[simp] theorem State.setCluster_fifos (s : State) (k : Nat) (x : Cluster) : (s.setCluster k x).fifos = s.fifos := rfl
@[simp] theorem State.setCluster_parked (s : State) (k : Nat) (x : Cluster) : (s.setCluster k x).parked = s.parked := rfl
@[simp] theorem State.setCluster_progs (s : State) (k : Nat) (x : Cluster) : (s.setCluster k x).progs = s.progs := rfl
@[simp] theorem State.setCluster_fences (s : State) (k : Nat) (x : Cluster) : (s.setCluster k x).fences = s.fences := rfl
@[simp] theorem State.setCluster_tmeths (s : State) (k : Nat) (x : Cluster) : (s.setCluster k x).tmeths = s.tmeths := rfl
@[simp] theorem State.setCluster_nextSeq (s : State) (k : Nat) (x : Cluster) : (s.setCluster k x).nextSeq = s.nextSeq := rfl
@[simp] theorem State.setCluster_mregs (s : State) (k : Nat) (x : Cluster) : (s.setCluster k x).mregs = s.mregs := rfl
@[simp] theorem State.setCluster_ports (s : State) (k : Nat) (x : Cluster) : (s.setCluster k x).ports = s.ports := rfl
@[simp] theorem State.setCluster_streams (s : State) (k : Nat) (x : Cluster) : (s.setCluster k x).streams = s.streams := rfl
@[simp] theorem State.setCluster_asks (s : State) (k : Nat) (x : Cluster) : (s.setCluster k x).asks = s.asks := rfl
@[simp] theorem State.setCluster_discarded (s : State) (k : Nat) (x : Cluster) : (s.setCluster k x).discarded = s.discarded := rfl
@[simp] theorem State.setCluster_hdm (s : State) (k : Nat) (x : Cluster) : (s.setCluster k x).hdm = s.hdm := rfl
@[simp] theorem State.setCluster_ideFailed (s : State) (k : Nat) (x : Cluster) : (s.setCluster k x).ideFailed = s.ideFailed := rfl
@[simp] theorem State.setCluster_cxlDown (s : State) (k : Nat) (x : Cluster) : (s.setCluster k x).cxlDown = s.cxlDown := rfl
@[simp] theorem State.setCluster_sessions (s : State) (k : Nat) (x : Cluster) : (s.setCluster k x).sessions = s.sessions := rfl
@[simp] theorem State.setCluster_spdmOut (s : State) (k : Nat) (x : Cluster) : (s.setCluster k x).spdmOut = s.spdmOut := rfl
@[simp] theorem State.setCluster_snoop (s : State) (k : Nat) (x : Cluster) : (s.setCluster k x).snoop = s.snoop := rfl
@[simp] theorem State.setCluster_cacheLines (s : State) (k : Nat) (x : Cluster) : (s.setCluster k x).cacheLines = s.cacheLines := rfl
@[simp] theorem State.setCluster_privWords (s : State) (k : Nat) (x : Cluster) : (s.setCluster k x).privWords = s.privWords := rfl
@[simp] theorem State.setCluster_hostData (s : State) (k : Nat) (x : Cluster) : (s.setCluster k x).hostData = s.hostData := rfl
@[simp] theorem State.setCluster_dies (s : State) (k : Nat) (x : Cluster) : (s.setCluster k x).dies = s.dies := rfl
@[simp] theorem State.setCluster_life (s : State) (k : Nat) (x : Cluster) : (s.setCluster k x).life = s.life := rfl
@[simp] theorem State.setCluster_log (s : State) (k : Nat) (x : Cluster) : (s.setCluster k x).log = s.log := rfl
@[simp] theorem State.setCluster_logCount (s : State) (k : Nat) (x : Cluster) : (s.setCluster k x).logCount = s.logCount := rfl
@[simp] theorem State.setCluster_obsc (s : State) (k : Nat) (x : Cluster) : (s.setCluster k x).obsc = s.obsc := rfl
@[simp] theorem State.setCluster_stt (s : State) (k : Nat) (x : Cluster) : (s.setCluster k x).stt = s.stt := rfl
@[simp] theorem State.setCluster_snt (s : State) (k : Nat) (x : Cluster) : (s.setCluster k x).snt = s.snt := rfl
@[simp] theorem State.setCluster_latchAt (s : State) (k : Nat) (x : Cluster) : (s.setCluster k x).latchAt = s.latchAt := rfl
@[simp] theorem State.setCluster_shadows (s : State) (k : Nat) (x : Cluster) : (s.setCluster k x).shadows = s.shadows := rfl
@[simp] theorem State.setCluster_counts (s : State) (k : Nat) (x : Cluster) : (s.setCluster k x).counts = s.counts := rfl
@[simp] theorem State.setCluster_dump (s : State) (k : Nat) (x : Cluster) : (s.setCluster k x).dump = s.dump := rfl
@[simp] theorem State.setCluster_dumpb (s : State) (k : Nat) (x : Cluster) : (s.setCluster k x).dumpb = s.dumpb := rfl
@[simp] theorem State.setCluster_heldFlits (s : State) (k : Nat) (x : Cluster) : (s.setCluster k x).heldFlits = s.heldFlits := rfl
@[simp] theorem State.setCluster_dumpFlits (s : State) (k : Nat) (x : Cluster) : (s.setCluster k x).dumpFlits = s.dumpFlits := rfl
@[simp] theorem State.setCluster_readOut (s : State) (k : Nat) (x : Cluster) : (s.setCluster k x).readOut = s.readOut := rfl

@[simp] theorem State.setFront_agenda (s : State) (d k : Nat) (x : Front) : (s.setFront d k x).agenda = s.agenda := rfl
@[simp] theorem State.setFront_turn (s : State) (d k : Nat) (x : Front) : (s.setFront d k x).turn = s.turn := rfl
@[simp] theorem State.setFront_patience (s : State) (d k : Nat) (x : Front) : (s.setFront d k x).patience = s.patience := rfl
@[simp] theorem State.setFront_free (s : State) (d k : Nat) (x : Front) : (s.setFront d k x).free = s.free := rfl
@[simp] theorem State.setFront_cur (s : State) (d k : Nat) (x : Front) : (s.setFront d k x).cur = s.cur := rfl
@[simp] theorem State.setFront_recq (s : State) (d k : Nat) (x : Front) : (s.setFront d k x).recq = s.recq := rfl
@[simp] theorem State.setFront_stall (s : State) (d k : Nat) (x : Front) : (s.setFront d k x).stall = s.stall := rfl
@[simp] theorem State.setFront_tick (s : State) (d k : Nat) (x : Front) : (s.setFront d k x).tick = s.tick := rfl
@[simp] theorem State.setFront_pkc (s : State) (d k : Nat) (x : Front) : (s.setFront d k x).pkc = s.pkc := rfl
@[simp] theorem State.setFront_stopped (s : State) (d k : Nat) (x : Front) : (s.setFront d k x).stopped = s.stopped := rfl
@[simp] theorem State.setFront_nodeLocked (s : State) (d k : Nat) (x : Front) : (s.setFront d k x).nodeLocked = s.nodeLocked := rfl
@[simp] theorem State.setFront_parts (s : State) (d k : Nat) (x : Front) : (s.setFront d k x).parts = s.parts := rfl
@[simp] theorem State.setFront_ctxs (s : State) (d k : Nat) (x : Front) : (s.setFront d k x).ctxs = s.ctxs := rfl
@[simp] theorem State.setFront_clusters (s : State) (d k : Nat) (x : Front) : (s.setFront d k x).clusters = s.clusters := rfl
@[simp] theorem State.setFront_cores (s : State) (d k : Nat) (x : Front) : (s.setFront d k x).cores = s.cores := rfl
@[simp] theorem State.setFront_regst (s : State) (d k : Nat) (x : Front) : (s.setFront d k x).regst = s.regst := rfl
@[simp] theorem State.setFront_dirOrder (s : State) (d k : Nat) (x : Front) : (s.setFront d k x).dirOrder = s.dirOrder := rfl
@[simp] theorem State.setFront_splitOrder (s : State) (d k : Nat) (x : Front) : (s.setFront d k x).splitOrder = s.splitOrder := rfl
@[simp] theorem State.setFront_sidx (s : State) (d k : Nat) (x : Front) : (s.setFront d k x).sidx = s.sidx := rfl
@[simp] theorem State.setFront_holdOrder (s : State) (d k : Nat) (x : Front) : (s.setFront d k x).holdOrder = s.holdOrder := rfl
@[simp] theorem State.setFront_l2 (s : State) (d k : Nat) (x : Front) : (s.setFront d k x).l2 = s.l2 := rfl
@[simp] theorem State.setFront_hbm (s : State) (d k : Nat) (x : Front) : (s.setFront d k x).hbm = s.hbm := rfl
@[simp] theorem State.setFront_host (s : State) (d k : Nat) (x : Front) : (s.setFront d k x).host = s.host := rfl
@[simp] theorem State.setFront_mcache (s : State) (d k : Nat) (x : Front) : (s.setFront d k x).mcache = s.mcache := rfl
@[simp] theorem State.setFront_root (s : State) (d k : Nat) (x : Front) : (s.setFront d k x).root = s.root := rfl
@[simp] theorem State.setFront_rowsKept (s : State) (d k : Nat) (x : Front) : (s.setFront d k x).rowsKept = s.rowsKept := rfl
@[simp] theorem State.setFront_failedRows (s : State) (d k : Nat) (x : Front) : (s.setFront d k x).failedRows = s.failedRows := rfl
@[simp] theorem State.setFront_failedEngines (s : State) (d k : Nat) (x : Front) : (s.setFront d k x).failedEngines = s.failedEngines := rfl
@[simp] theorem State.setFront_keys (s : State) (d k : Nat) (x : Front) : (s.setFront d k x).keys = s.keys := rfl
@[simp] theorem State.setFront_sealInits (s : State) (d k : Nat) (x : Front) : (s.setFront d k x).sealInits = s.sealInits := rfl
@[simp] theorem State.setFront_frr (s : State) (d k : Nat) (x : Front) : (s.setFront d k x).frr = s.frr := rfl
@[simp] theorem State.setFront_walkers (s : State) (d k : Nat) (x : Front) : (s.setFront d k x).walkers = s.walkers := rfl
@[simp] theorem State.setFront_fired (s : State) (d k : Nat) (x : Front) : (s.setFront d k x).fired = s.fired := rfl
@[simp] theorem State.setFront_nextJob (s : State) (d k : Nat) (x : Front) : (s.setFront d k x).nextJob = s.nextJob := rfl
@[simp] theorem State.setFront_nmuQ (s : State) (d k : Nat) (x : Front) : (s.setFront d k x).nmuQ = s.nmuQ := rfl
@[simp] theorem State.setFront_prims (s : State) (d k : Nat) (x : Front) : (s.setFront d k x).prims = s.prims := rfl
@[simp] theorem State.setFront_rings (s : State) (d k : Nat) (x : Front) : (s.setFront d k x).rings = s.rings := rfl
@[simp] theorem State.setFront_fifos (s : State) (d k : Nat) (x : Front) : (s.setFront d k x).fifos = s.fifos := rfl
@[simp] theorem State.setFront_parked (s : State) (d k : Nat) (x : Front) : (s.setFront d k x).parked = s.parked := rfl
@[simp] theorem State.setFront_progs (s : State) (d k : Nat) (x : Front) : (s.setFront d k x).progs = s.progs := rfl
@[simp] theorem State.setFront_fences (s : State) (d k : Nat) (x : Front) : (s.setFront d k x).fences = s.fences := rfl
@[simp] theorem State.setFront_tmeths (s : State) (d k : Nat) (x : Front) : (s.setFront d k x).tmeths = s.tmeths := rfl
@[simp] theorem State.setFront_nextSeq (s : State) (d k : Nat) (x : Front) : (s.setFront d k x).nextSeq = s.nextSeq := rfl
@[simp] theorem State.setFront_mregs (s : State) (d k : Nat) (x : Front) : (s.setFront d k x).mregs = s.mregs := rfl
@[simp] theorem State.setFront_ports (s : State) (d k : Nat) (x : Front) : (s.setFront d k x).ports = s.ports := rfl
@[simp] theorem State.setFront_streams (s : State) (d k : Nat) (x : Front) : (s.setFront d k x).streams = s.streams := rfl
@[simp] theorem State.setFront_asks (s : State) (d k : Nat) (x : Front) : (s.setFront d k x).asks = s.asks := rfl
@[simp] theorem State.setFront_discarded (s : State) (d k : Nat) (x : Front) : (s.setFront d k x).discarded = s.discarded := rfl
@[simp] theorem State.setFront_hdm (s : State) (d k : Nat) (x : Front) : (s.setFront d k x).hdm = s.hdm := rfl
@[simp] theorem State.setFront_ideFailed (s : State) (d k : Nat) (x : Front) : (s.setFront d k x).ideFailed = s.ideFailed := rfl
@[simp] theorem State.setFront_cxlDown (s : State) (d k : Nat) (x : Front) : (s.setFront d k x).cxlDown = s.cxlDown := rfl
@[simp] theorem State.setFront_sessions (s : State) (d k : Nat) (x : Front) : (s.setFront d k x).sessions = s.sessions := rfl
@[simp] theorem State.setFront_spdmOut (s : State) (d k : Nat) (x : Front) : (s.setFront d k x).spdmOut = s.spdmOut := rfl
@[simp] theorem State.setFront_snoop (s : State) (d k : Nat) (x : Front) : (s.setFront d k x).snoop = s.snoop := rfl
@[simp] theorem State.setFront_cacheLines (s : State) (d k : Nat) (x : Front) : (s.setFront d k x).cacheLines = s.cacheLines := rfl
@[simp] theorem State.setFront_privWords (s : State) (d k : Nat) (x : Front) : (s.setFront d k x).privWords = s.privWords := rfl
@[simp] theorem State.setFront_hostData (s : State) (d k : Nat) (x : Front) : (s.setFront d k x).hostData = s.hostData := rfl
@[simp] theorem State.setFront_dies (s : State) (d k : Nat) (x : Front) : (s.setFront d k x).dies = s.dies := rfl
@[simp] theorem State.setFront_life (s : State) (d k : Nat) (x : Front) : (s.setFront d k x).life = s.life := rfl
@[simp] theorem State.setFront_log (s : State) (d k : Nat) (x : Front) : (s.setFront d k x).log = s.log := rfl
@[simp] theorem State.setFront_logCount (s : State) (d k : Nat) (x : Front) : (s.setFront d k x).logCount = s.logCount := rfl
@[simp] theorem State.setFront_obsc (s : State) (d k : Nat) (x : Front) : (s.setFront d k x).obsc = s.obsc := rfl
@[simp] theorem State.setFront_stt (s : State) (d k : Nat) (x : Front) : (s.setFront d k x).stt = s.stt := rfl
@[simp] theorem State.setFront_snt (s : State) (d k : Nat) (x : Front) : (s.setFront d k x).snt = s.snt := rfl
@[simp] theorem State.setFront_latchAt (s : State) (d k : Nat) (x : Front) : (s.setFront d k x).latchAt = s.latchAt := rfl
@[simp] theorem State.setFront_shadows (s : State) (d k : Nat) (x : Front) : (s.setFront d k x).shadows = s.shadows := rfl
@[simp] theorem State.setFront_counts (s : State) (d k : Nat) (x : Front) : (s.setFront d k x).counts = s.counts := rfl
@[simp] theorem State.setFront_dump (s : State) (d k : Nat) (x : Front) : (s.setFront d k x).dump = s.dump := rfl
@[simp] theorem State.setFront_dumpb (s : State) (d k : Nat) (x : Front) : (s.setFront d k x).dumpb = s.dumpb := rfl
@[simp] theorem State.setFront_heldFlits (s : State) (d k : Nat) (x : Front) : (s.setFront d k x).heldFlits = s.heldFlits := rfl
@[simp] theorem State.setFront_dumpFlits (s : State) (d k : Nat) (x : Front) : (s.setFront d k x).dumpFlits = s.dumpFlits := rfl
@[simp] theorem State.setFront_readOut (s : State) (d k : Nat) (x : Front) : (s.setFront d k x).readOut = s.readOut := rfl

@[simp] theorem State.setKey_agenda (s : State) (k : Nat) (x : KeySlot) : (s.setKey k x).agenda = s.agenda := rfl
@[simp] theorem State.setKey_turn (s : State) (k : Nat) (x : KeySlot) : (s.setKey k x).turn = s.turn := rfl
@[simp] theorem State.setKey_patience (s : State) (k : Nat) (x : KeySlot) : (s.setKey k x).patience = s.patience := rfl
@[simp] theorem State.setKey_free (s : State) (k : Nat) (x : KeySlot) : (s.setKey k x).free = s.free := rfl
@[simp] theorem State.setKey_cur (s : State) (k : Nat) (x : KeySlot) : (s.setKey k x).cur = s.cur := rfl
@[simp] theorem State.setKey_recq (s : State) (k : Nat) (x : KeySlot) : (s.setKey k x).recq = s.recq := rfl
@[simp] theorem State.setKey_stall (s : State) (k : Nat) (x : KeySlot) : (s.setKey k x).stall = s.stall := rfl
@[simp] theorem State.setKey_tick (s : State) (k : Nat) (x : KeySlot) : (s.setKey k x).tick = s.tick := rfl
@[simp] theorem State.setKey_pkc (s : State) (k : Nat) (x : KeySlot) : (s.setKey k x).pkc = s.pkc := rfl
@[simp] theorem State.setKey_stopped (s : State) (k : Nat) (x : KeySlot) : (s.setKey k x).stopped = s.stopped := rfl
@[simp] theorem State.setKey_nodeLocked (s : State) (k : Nat) (x : KeySlot) : (s.setKey k x).nodeLocked = s.nodeLocked := rfl
@[simp] theorem State.setKey_parts (s : State) (k : Nat) (x : KeySlot) : (s.setKey k x).parts = s.parts := rfl
@[simp] theorem State.setKey_ctxs (s : State) (k : Nat) (x : KeySlot) : (s.setKey k x).ctxs = s.ctxs := rfl
@[simp] theorem State.setKey_clusters (s : State) (k : Nat) (x : KeySlot) : (s.setKey k x).clusters = s.clusters := rfl
@[simp] theorem State.setKey_cores (s : State) (k : Nat) (x : KeySlot) : (s.setKey k x).cores = s.cores := rfl
@[simp] theorem State.setKey_regst (s : State) (k : Nat) (x : KeySlot) : (s.setKey k x).regst = s.regst := rfl
@[simp] theorem State.setKey_dirOrder (s : State) (k : Nat) (x : KeySlot) : (s.setKey k x).dirOrder = s.dirOrder := rfl
@[simp] theorem State.setKey_splitOrder (s : State) (k : Nat) (x : KeySlot) : (s.setKey k x).splitOrder = s.splitOrder := rfl
@[simp] theorem State.setKey_sidx (s : State) (k : Nat) (x : KeySlot) : (s.setKey k x).sidx = s.sidx := rfl
@[simp] theorem State.setKey_holdOrder (s : State) (k : Nat) (x : KeySlot) : (s.setKey k x).holdOrder = s.holdOrder := rfl
@[simp] theorem State.setKey_l2 (s : State) (k : Nat) (x : KeySlot) : (s.setKey k x).l2 = s.l2 := rfl
@[simp] theorem State.setKey_hbm (s : State) (k : Nat) (x : KeySlot) : (s.setKey k x).hbm = s.hbm := rfl
@[simp] theorem State.setKey_host (s : State) (k : Nat) (x : KeySlot) : (s.setKey k x).host = s.host := rfl
@[simp] theorem State.setKey_mcache (s : State) (k : Nat) (x : KeySlot) : (s.setKey k x).mcache = s.mcache := rfl
@[simp] theorem State.setKey_root (s : State) (k : Nat) (x : KeySlot) : (s.setKey k x).root = s.root := rfl
@[simp] theorem State.setKey_rowsKept (s : State) (k : Nat) (x : KeySlot) : (s.setKey k x).rowsKept = s.rowsKept := rfl
@[simp] theorem State.setKey_failedRows (s : State) (k : Nat) (x : KeySlot) : (s.setKey k x).failedRows = s.failedRows := rfl
@[simp] theorem State.setKey_failedEngines (s : State) (k : Nat) (x : KeySlot) : (s.setKey k x).failedEngines = s.failedEngines := rfl
@[simp] theorem State.setKey_sealInits (s : State) (k : Nat) (x : KeySlot) : (s.setKey k x).sealInits = s.sealInits := rfl
@[simp] theorem State.setKey_frr (s : State) (k : Nat) (x : KeySlot) : (s.setKey k x).frr = s.frr := rfl
@[simp] theorem State.setKey_walkers (s : State) (k : Nat) (x : KeySlot) : (s.setKey k x).walkers = s.walkers := rfl
@[simp] theorem State.setKey_fired (s : State) (k : Nat) (x : KeySlot) : (s.setKey k x).fired = s.fired := rfl
@[simp] theorem State.setKey_nextJob (s : State) (k : Nat) (x : KeySlot) : (s.setKey k x).nextJob = s.nextJob := rfl
@[simp] theorem State.setKey_nmuQ (s : State) (k : Nat) (x : KeySlot) : (s.setKey k x).nmuQ = s.nmuQ := rfl
@[simp] theorem State.setKey_prims (s : State) (k : Nat) (x : KeySlot) : (s.setKey k x).prims = s.prims := rfl
@[simp] theorem State.setKey_fronts (s : State) (k : Nat) (x : KeySlot) : (s.setKey k x).fronts = s.fronts := rfl
@[simp] theorem State.setKey_rings (s : State) (k : Nat) (x : KeySlot) : (s.setKey k x).rings = s.rings := rfl
@[simp] theorem State.setKey_fifos (s : State) (k : Nat) (x : KeySlot) : (s.setKey k x).fifos = s.fifos := rfl
@[simp] theorem State.setKey_parked (s : State) (k : Nat) (x : KeySlot) : (s.setKey k x).parked = s.parked := rfl
@[simp] theorem State.setKey_progs (s : State) (k : Nat) (x : KeySlot) : (s.setKey k x).progs = s.progs := rfl
@[simp] theorem State.setKey_fences (s : State) (k : Nat) (x : KeySlot) : (s.setKey k x).fences = s.fences := rfl
@[simp] theorem State.setKey_tmeths (s : State) (k : Nat) (x : KeySlot) : (s.setKey k x).tmeths = s.tmeths := rfl
@[simp] theorem State.setKey_nextSeq (s : State) (k : Nat) (x : KeySlot) : (s.setKey k x).nextSeq = s.nextSeq := rfl
@[simp] theorem State.setKey_mregs (s : State) (k : Nat) (x : KeySlot) : (s.setKey k x).mregs = s.mregs := rfl
@[simp] theorem State.setKey_ports (s : State) (k : Nat) (x : KeySlot) : (s.setKey k x).ports = s.ports := rfl
@[simp] theorem State.setKey_streams (s : State) (k : Nat) (x : KeySlot) : (s.setKey k x).streams = s.streams := rfl
@[simp] theorem State.setKey_asks (s : State) (k : Nat) (x : KeySlot) : (s.setKey k x).asks = s.asks := rfl
@[simp] theorem State.setKey_discarded (s : State) (k : Nat) (x : KeySlot) : (s.setKey k x).discarded = s.discarded := rfl
@[simp] theorem State.setKey_hdm (s : State) (k : Nat) (x : KeySlot) : (s.setKey k x).hdm = s.hdm := rfl
@[simp] theorem State.setKey_ideFailed (s : State) (k : Nat) (x : KeySlot) : (s.setKey k x).ideFailed = s.ideFailed := rfl
@[simp] theorem State.setKey_cxlDown (s : State) (k : Nat) (x : KeySlot) : (s.setKey k x).cxlDown = s.cxlDown := rfl
@[simp] theorem State.setKey_sessions (s : State) (k : Nat) (x : KeySlot) : (s.setKey k x).sessions = s.sessions := rfl
@[simp] theorem State.setKey_spdmOut (s : State) (k : Nat) (x : KeySlot) : (s.setKey k x).spdmOut = s.spdmOut := rfl
@[simp] theorem State.setKey_snoop (s : State) (k : Nat) (x : KeySlot) : (s.setKey k x).snoop = s.snoop := rfl
@[simp] theorem State.setKey_cacheLines (s : State) (k : Nat) (x : KeySlot) : (s.setKey k x).cacheLines = s.cacheLines := rfl
@[simp] theorem State.setKey_privWords (s : State) (k : Nat) (x : KeySlot) : (s.setKey k x).privWords = s.privWords := rfl
@[simp] theorem State.setKey_hostData (s : State) (k : Nat) (x : KeySlot) : (s.setKey k x).hostData = s.hostData := rfl
@[simp] theorem State.setKey_dies (s : State) (k : Nat) (x : KeySlot) : (s.setKey k x).dies = s.dies := rfl
@[simp] theorem State.setKey_life (s : State) (k : Nat) (x : KeySlot) : (s.setKey k x).life = s.life := rfl
@[simp] theorem State.setKey_log (s : State) (k : Nat) (x : KeySlot) : (s.setKey k x).log = s.log := rfl
@[simp] theorem State.setKey_logCount (s : State) (k : Nat) (x : KeySlot) : (s.setKey k x).logCount = s.logCount := rfl
@[simp] theorem State.setKey_obsc (s : State) (k : Nat) (x : KeySlot) : (s.setKey k x).obsc = s.obsc := rfl
@[simp] theorem State.setKey_stt (s : State) (k : Nat) (x : KeySlot) : (s.setKey k x).stt = s.stt := rfl
@[simp] theorem State.setKey_snt (s : State) (k : Nat) (x : KeySlot) : (s.setKey k x).snt = s.snt := rfl
@[simp] theorem State.setKey_latchAt (s : State) (k : Nat) (x : KeySlot) : (s.setKey k x).latchAt = s.latchAt := rfl
@[simp] theorem State.setKey_shadows (s : State) (k : Nat) (x : KeySlot) : (s.setKey k x).shadows = s.shadows := rfl
@[simp] theorem State.setKey_counts (s : State) (k : Nat) (x : KeySlot) : (s.setKey k x).counts = s.counts := rfl
@[simp] theorem State.setKey_dump (s : State) (k : Nat) (x : KeySlot) : (s.setKey k x).dump = s.dump := rfl
@[simp] theorem State.setKey_dumpb (s : State) (k : Nat) (x : KeySlot) : (s.setKey k x).dumpb = s.dumpb := rfl
@[simp] theorem State.setKey_heldFlits (s : State) (k : Nat) (x : KeySlot) : (s.setKey k x).heldFlits = s.heldFlits := rfl
@[simp] theorem State.setKey_dumpFlits (s : State) (k : Nat) (x : KeySlot) : (s.setKey k x).dumpFlits = s.dumpFlits := rfl
@[simp] theorem State.setKey_readOut (s : State) (k : Nat) (x : KeySlot) : (s.setKey k x).readOut = s.readOut := rfl

@[simp] theorem State.setPort_agenda (s : State) (p : Nat) (x : Port) : (s.setPort p x).agenda = s.agenda := rfl
@[simp] theorem State.setPort_turn (s : State) (p : Nat) (x : Port) : (s.setPort p x).turn = s.turn := rfl
@[simp] theorem State.setPort_patience (s : State) (p : Nat) (x : Port) : (s.setPort p x).patience = s.patience := rfl
@[simp] theorem State.setPort_free (s : State) (p : Nat) (x : Port) : (s.setPort p x).free = s.free := rfl
@[simp] theorem State.setPort_cur (s : State) (p : Nat) (x : Port) : (s.setPort p x).cur = s.cur := rfl
@[simp] theorem State.setPort_recq (s : State) (p : Nat) (x : Port) : (s.setPort p x).recq = s.recq := rfl
@[simp] theorem State.setPort_stall (s : State) (p : Nat) (x : Port) : (s.setPort p x).stall = s.stall := rfl
@[simp] theorem State.setPort_tick (s : State) (p : Nat) (x : Port) : (s.setPort p x).tick = s.tick := rfl
@[simp] theorem State.setPort_pkc (s : State) (p : Nat) (x : Port) : (s.setPort p x).pkc = s.pkc := rfl
@[simp] theorem State.setPort_stopped (s : State) (p : Nat) (x : Port) : (s.setPort p x).stopped = s.stopped := rfl
@[simp] theorem State.setPort_nodeLocked (s : State) (p : Nat) (x : Port) : (s.setPort p x).nodeLocked = s.nodeLocked := rfl
@[simp] theorem State.setPort_parts (s : State) (p : Nat) (x : Port) : (s.setPort p x).parts = s.parts := rfl
@[simp] theorem State.setPort_ctxs (s : State) (p : Nat) (x : Port) : (s.setPort p x).ctxs = s.ctxs := rfl
@[simp] theorem State.setPort_clusters (s : State) (p : Nat) (x : Port) : (s.setPort p x).clusters = s.clusters := rfl
@[simp] theorem State.setPort_cores (s : State) (p : Nat) (x : Port) : (s.setPort p x).cores = s.cores := rfl
@[simp] theorem State.setPort_regst (s : State) (p : Nat) (x : Port) : (s.setPort p x).regst = s.regst := rfl
@[simp] theorem State.setPort_dirOrder (s : State) (p : Nat) (x : Port) : (s.setPort p x).dirOrder = s.dirOrder := rfl
@[simp] theorem State.setPort_splitOrder (s : State) (p : Nat) (x : Port) : (s.setPort p x).splitOrder = s.splitOrder := rfl
@[simp] theorem State.setPort_sidx (s : State) (p : Nat) (x : Port) : (s.setPort p x).sidx = s.sidx := rfl
@[simp] theorem State.setPort_holdOrder (s : State) (p : Nat) (x : Port) : (s.setPort p x).holdOrder = s.holdOrder := rfl
@[simp] theorem State.setPort_l2 (s : State) (p : Nat) (x : Port) : (s.setPort p x).l2 = s.l2 := rfl
@[simp] theorem State.setPort_hbm (s : State) (p : Nat) (x : Port) : (s.setPort p x).hbm = s.hbm := rfl
@[simp] theorem State.setPort_host (s : State) (p : Nat) (x : Port) : (s.setPort p x).host = s.host := rfl
@[simp] theorem State.setPort_mcache (s : State) (p : Nat) (x : Port) : (s.setPort p x).mcache = s.mcache := rfl
@[simp] theorem State.setPort_root (s : State) (p : Nat) (x : Port) : (s.setPort p x).root = s.root := rfl
@[simp] theorem State.setPort_rowsKept (s : State) (p : Nat) (x : Port) : (s.setPort p x).rowsKept = s.rowsKept := rfl
@[simp] theorem State.setPort_failedRows (s : State) (p : Nat) (x : Port) : (s.setPort p x).failedRows = s.failedRows := rfl
@[simp] theorem State.setPort_failedEngines (s : State) (p : Nat) (x : Port) : (s.setPort p x).failedEngines = s.failedEngines := rfl
@[simp] theorem State.setPort_keys (s : State) (p : Nat) (x : Port) : (s.setPort p x).keys = s.keys := rfl
@[simp] theorem State.setPort_sealInits (s : State) (p : Nat) (x : Port) : (s.setPort p x).sealInits = s.sealInits := rfl
@[simp] theorem State.setPort_frr (s : State) (p : Nat) (x : Port) : (s.setPort p x).frr = s.frr := rfl
@[simp] theorem State.setPort_walkers (s : State) (p : Nat) (x : Port) : (s.setPort p x).walkers = s.walkers := rfl
@[simp] theorem State.setPort_fired (s : State) (p : Nat) (x : Port) : (s.setPort p x).fired = s.fired := rfl
@[simp] theorem State.setPort_nextJob (s : State) (p : Nat) (x : Port) : (s.setPort p x).nextJob = s.nextJob := rfl
@[simp] theorem State.setPort_nmuQ (s : State) (p : Nat) (x : Port) : (s.setPort p x).nmuQ = s.nmuQ := rfl
@[simp] theorem State.setPort_prims (s : State) (p : Nat) (x : Port) : (s.setPort p x).prims = s.prims := rfl
@[simp] theorem State.setPort_fronts (s : State) (p : Nat) (x : Port) : (s.setPort p x).fronts = s.fronts := rfl
@[simp] theorem State.setPort_rings (s : State) (p : Nat) (x : Port) : (s.setPort p x).rings = s.rings := rfl
@[simp] theorem State.setPort_fifos (s : State) (p : Nat) (x : Port) : (s.setPort p x).fifos = s.fifos := rfl
@[simp] theorem State.setPort_parked (s : State) (p : Nat) (x : Port) : (s.setPort p x).parked = s.parked := rfl
@[simp] theorem State.setPort_progs (s : State) (p : Nat) (x : Port) : (s.setPort p x).progs = s.progs := rfl
@[simp] theorem State.setPort_fences (s : State) (p : Nat) (x : Port) : (s.setPort p x).fences = s.fences := rfl
@[simp] theorem State.setPort_tmeths (s : State) (p : Nat) (x : Port) : (s.setPort p x).tmeths = s.tmeths := rfl
@[simp] theorem State.setPort_nextSeq (s : State) (p : Nat) (x : Port) : (s.setPort p x).nextSeq = s.nextSeq := rfl
@[simp] theorem State.setPort_mregs (s : State) (p : Nat) (x : Port) : (s.setPort p x).mregs = s.mregs := rfl
@[simp] theorem State.setPort_streams (s : State) (p : Nat) (x : Port) : (s.setPort p x).streams = s.streams := rfl
@[simp] theorem State.setPort_asks (s : State) (p : Nat) (x : Port) : (s.setPort p x).asks = s.asks := rfl
@[simp] theorem State.setPort_discarded (s : State) (p : Nat) (x : Port) : (s.setPort p x).discarded = s.discarded := rfl
@[simp] theorem State.setPort_hdm (s : State) (p : Nat) (x : Port) : (s.setPort p x).hdm = s.hdm := rfl
@[simp] theorem State.setPort_ideFailed (s : State) (p : Nat) (x : Port) : (s.setPort p x).ideFailed = s.ideFailed := rfl
@[simp] theorem State.setPort_cxlDown (s : State) (p : Nat) (x : Port) : (s.setPort p x).cxlDown = s.cxlDown := rfl
@[simp] theorem State.setPort_sessions (s : State) (p : Nat) (x : Port) : (s.setPort p x).sessions = s.sessions := rfl
@[simp] theorem State.setPort_spdmOut (s : State) (p : Nat) (x : Port) : (s.setPort p x).spdmOut = s.spdmOut := rfl
@[simp] theorem State.setPort_snoop (s : State) (p : Nat) (x : Port) : (s.setPort p x).snoop = s.snoop := rfl
@[simp] theorem State.setPort_cacheLines (s : State) (p : Nat) (x : Port) : (s.setPort p x).cacheLines = s.cacheLines := rfl
@[simp] theorem State.setPort_privWords (s : State) (p : Nat) (x : Port) : (s.setPort p x).privWords = s.privWords := rfl
@[simp] theorem State.setPort_hostData (s : State) (p : Nat) (x : Port) : (s.setPort p x).hostData = s.hostData := rfl
@[simp] theorem State.setPort_dies (s : State) (p : Nat) (x : Port) : (s.setPort p x).dies = s.dies := rfl
@[simp] theorem State.setPort_life (s : State) (p : Nat) (x : Port) : (s.setPort p x).life = s.life := rfl
@[simp] theorem State.setPort_log (s : State) (p : Nat) (x : Port) : (s.setPort p x).log = s.log := rfl
@[simp] theorem State.setPort_logCount (s : State) (p : Nat) (x : Port) : (s.setPort p x).logCount = s.logCount := rfl
@[simp] theorem State.setPort_obsc (s : State) (p : Nat) (x : Port) : (s.setPort p x).obsc = s.obsc := rfl
@[simp] theorem State.setPort_stt (s : State) (p : Nat) (x : Port) : (s.setPort p x).stt = s.stt := rfl
@[simp] theorem State.setPort_snt (s : State) (p : Nat) (x : Port) : (s.setPort p x).snt = s.snt := rfl
@[simp] theorem State.setPort_latchAt (s : State) (p : Nat) (x : Port) : (s.setPort p x).latchAt = s.latchAt := rfl
@[simp] theorem State.setPort_shadows (s : State) (p : Nat) (x : Port) : (s.setPort p x).shadows = s.shadows := rfl
@[simp] theorem State.setPort_counts (s : State) (p : Nat) (x : Port) : (s.setPort p x).counts = s.counts := rfl
@[simp] theorem State.setPort_dump (s : State) (p : Nat) (x : Port) : (s.setPort p x).dump = s.dump := rfl
@[simp] theorem State.setPort_dumpb (s : State) (p : Nat) (x : Port) : (s.setPort p x).dumpb = s.dumpb := rfl
@[simp] theorem State.setPort_heldFlits (s : State) (p : Nat) (x : Port) : (s.setPort p x).heldFlits = s.heldFlits := rfl
@[simp] theorem State.setPort_dumpFlits (s : State) (p : Nat) (x : Port) : (s.setPort p x).dumpFlits = s.dumpFlits := rfl
@[simp] theorem State.setPort_readOut (s : State) (p : Nat) (x : Port) : (s.setPort p x).readOut = s.readOut := rfl

@[simp] theorem State.setDie_agenda (s : State) (d : Nat) (x : Die) : (s.setDie d x).agenda = s.agenda := rfl
@[simp] theorem State.setDie_turn (s : State) (d : Nat) (x : Die) : (s.setDie d x).turn = s.turn := rfl
@[simp] theorem State.setDie_patience (s : State) (d : Nat) (x : Die) : (s.setDie d x).patience = s.patience := rfl
@[simp] theorem State.setDie_free (s : State) (d : Nat) (x : Die) : (s.setDie d x).free = s.free := rfl
@[simp] theorem State.setDie_cur (s : State) (d : Nat) (x : Die) : (s.setDie d x).cur = s.cur := rfl
@[simp] theorem State.setDie_recq (s : State) (d : Nat) (x : Die) : (s.setDie d x).recq = s.recq := rfl
@[simp] theorem State.setDie_stall (s : State) (d : Nat) (x : Die) : (s.setDie d x).stall = s.stall := rfl
@[simp] theorem State.setDie_tick (s : State) (d : Nat) (x : Die) : (s.setDie d x).tick = s.tick := rfl
@[simp] theorem State.setDie_pkc (s : State) (d : Nat) (x : Die) : (s.setDie d x).pkc = s.pkc := rfl
@[simp] theorem State.setDie_stopped (s : State) (d : Nat) (x : Die) : (s.setDie d x).stopped = s.stopped := rfl
@[simp] theorem State.setDie_nodeLocked (s : State) (d : Nat) (x : Die) : (s.setDie d x).nodeLocked = s.nodeLocked := rfl
@[simp] theorem State.setDie_parts (s : State) (d : Nat) (x : Die) : (s.setDie d x).parts = s.parts := rfl
@[simp] theorem State.setDie_ctxs (s : State) (d : Nat) (x : Die) : (s.setDie d x).ctxs = s.ctxs := rfl
@[simp] theorem State.setDie_clusters (s : State) (d : Nat) (x : Die) : (s.setDie d x).clusters = s.clusters := rfl
@[simp] theorem State.setDie_cores (s : State) (d : Nat) (x : Die) : (s.setDie d x).cores = s.cores := rfl
@[simp] theorem State.setDie_regst (s : State) (d : Nat) (x : Die) : (s.setDie d x).regst = s.regst := rfl
@[simp] theorem State.setDie_dirOrder (s : State) (d : Nat) (x : Die) : (s.setDie d x).dirOrder = s.dirOrder := rfl
@[simp] theorem State.setDie_splitOrder (s : State) (d : Nat) (x : Die) : (s.setDie d x).splitOrder = s.splitOrder := rfl
@[simp] theorem State.setDie_sidx (s : State) (d : Nat) (x : Die) : (s.setDie d x).sidx = s.sidx := rfl
@[simp] theorem State.setDie_holdOrder (s : State) (d : Nat) (x : Die) : (s.setDie d x).holdOrder = s.holdOrder := rfl
@[simp] theorem State.setDie_l2 (s : State) (d : Nat) (x : Die) : (s.setDie d x).l2 = s.l2 := rfl
@[simp] theorem State.setDie_hbm (s : State) (d : Nat) (x : Die) : (s.setDie d x).hbm = s.hbm := rfl
@[simp] theorem State.setDie_host (s : State) (d : Nat) (x : Die) : (s.setDie d x).host = s.host := rfl
@[simp] theorem State.setDie_mcache (s : State) (d : Nat) (x : Die) : (s.setDie d x).mcache = s.mcache := rfl
@[simp] theorem State.setDie_root (s : State) (d : Nat) (x : Die) : (s.setDie d x).root = s.root := rfl
@[simp] theorem State.setDie_rowsKept (s : State) (d : Nat) (x : Die) : (s.setDie d x).rowsKept = s.rowsKept := rfl
@[simp] theorem State.setDie_failedRows (s : State) (d : Nat) (x : Die) : (s.setDie d x).failedRows = s.failedRows := rfl
@[simp] theorem State.setDie_failedEngines (s : State) (d : Nat) (x : Die) : (s.setDie d x).failedEngines = s.failedEngines := rfl
@[simp] theorem State.setDie_keys (s : State) (d : Nat) (x : Die) : (s.setDie d x).keys = s.keys := rfl
@[simp] theorem State.setDie_sealInits (s : State) (d : Nat) (x : Die) : (s.setDie d x).sealInits = s.sealInits := rfl
@[simp] theorem State.setDie_frr (s : State) (d : Nat) (x : Die) : (s.setDie d x).frr = s.frr := rfl
@[simp] theorem State.setDie_walkers (s : State) (d : Nat) (x : Die) : (s.setDie d x).walkers = s.walkers := rfl
@[simp] theorem State.setDie_fired (s : State) (d : Nat) (x : Die) : (s.setDie d x).fired = s.fired := rfl
@[simp] theorem State.setDie_nextJob (s : State) (d : Nat) (x : Die) : (s.setDie d x).nextJob = s.nextJob := rfl
@[simp] theorem State.setDie_nmuQ (s : State) (d : Nat) (x : Die) : (s.setDie d x).nmuQ = s.nmuQ := rfl
@[simp] theorem State.setDie_prims (s : State) (d : Nat) (x : Die) : (s.setDie d x).prims = s.prims := rfl
@[simp] theorem State.setDie_fronts (s : State) (d : Nat) (x : Die) : (s.setDie d x).fronts = s.fronts := rfl
@[simp] theorem State.setDie_rings (s : State) (d : Nat) (x : Die) : (s.setDie d x).rings = s.rings := rfl
@[simp] theorem State.setDie_fifos (s : State) (d : Nat) (x : Die) : (s.setDie d x).fifos = s.fifos := rfl
@[simp] theorem State.setDie_parked (s : State) (d : Nat) (x : Die) : (s.setDie d x).parked = s.parked := rfl
@[simp] theorem State.setDie_progs (s : State) (d : Nat) (x : Die) : (s.setDie d x).progs = s.progs := rfl
@[simp] theorem State.setDie_fences (s : State) (d : Nat) (x : Die) : (s.setDie d x).fences = s.fences := rfl
@[simp] theorem State.setDie_tmeths (s : State) (d : Nat) (x : Die) : (s.setDie d x).tmeths = s.tmeths := rfl
@[simp] theorem State.setDie_nextSeq (s : State) (d : Nat) (x : Die) : (s.setDie d x).nextSeq = s.nextSeq := rfl
@[simp] theorem State.setDie_mregs (s : State) (d : Nat) (x : Die) : (s.setDie d x).mregs = s.mregs := rfl
@[simp] theorem State.setDie_ports (s : State) (d : Nat) (x : Die) : (s.setDie d x).ports = s.ports := rfl
@[simp] theorem State.setDie_streams (s : State) (d : Nat) (x : Die) : (s.setDie d x).streams = s.streams := rfl
@[simp] theorem State.setDie_asks (s : State) (d : Nat) (x : Die) : (s.setDie d x).asks = s.asks := rfl
@[simp] theorem State.setDie_discarded (s : State) (d : Nat) (x : Die) : (s.setDie d x).discarded = s.discarded := rfl
@[simp] theorem State.setDie_hdm (s : State) (d : Nat) (x : Die) : (s.setDie d x).hdm = s.hdm := rfl
@[simp] theorem State.setDie_ideFailed (s : State) (d : Nat) (x : Die) : (s.setDie d x).ideFailed = s.ideFailed := rfl
@[simp] theorem State.setDie_cxlDown (s : State) (d : Nat) (x : Die) : (s.setDie d x).cxlDown = s.cxlDown := rfl
@[simp] theorem State.setDie_sessions (s : State) (d : Nat) (x : Die) : (s.setDie d x).sessions = s.sessions := rfl
@[simp] theorem State.setDie_spdmOut (s : State) (d : Nat) (x : Die) : (s.setDie d x).spdmOut = s.spdmOut := rfl
@[simp] theorem State.setDie_snoop (s : State) (d : Nat) (x : Die) : (s.setDie d x).snoop = s.snoop := rfl
@[simp] theorem State.setDie_cacheLines (s : State) (d : Nat) (x : Die) : (s.setDie d x).cacheLines = s.cacheLines := rfl
@[simp] theorem State.setDie_privWords (s : State) (d : Nat) (x : Die) : (s.setDie d x).privWords = s.privWords := rfl
@[simp] theorem State.setDie_hostData (s : State) (d : Nat) (x : Die) : (s.setDie d x).hostData = s.hostData := rfl
@[simp] theorem State.setDie_life (s : State) (d : Nat) (x : Die) : (s.setDie d x).life = s.life := rfl
@[simp] theorem State.setDie_log (s : State) (d : Nat) (x : Die) : (s.setDie d x).log = s.log := rfl
@[simp] theorem State.setDie_logCount (s : State) (d : Nat) (x : Die) : (s.setDie d x).logCount = s.logCount := rfl
@[simp] theorem State.setDie_obsc (s : State) (d : Nat) (x : Die) : (s.setDie d x).obsc = s.obsc := rfl
@[simp] theorem State.setDie_stt (s : State) (d : Nat) (x : Die) : (s.setDie d x).stt = s.stt := rfl
@[simp] theorem State.setDie_snt (s : State) (d : Nat) (x : Die) : (s.setDie d x).snt = s.snt := rfl
@[simp] theorem State.setDie_latchAt (s : State) (d : Nat) (x : Die) : (s.setDie d x).latchAt = s.latchAt := rfl
@[simp] theorem State.setDie_shadows (s : State) (d : Nat) (x : Die) : (s.setDie d x).shadows = s.shadows := rfl
@[simp] theorem State.setDie_counts (s : State) (d : Nat) (x : Die) : (s.setDie d x).counts = s.counts := rfl
@[simp] theorem State.setDie_dump (s : State) (d : Nat) (x : Die) : (s.setDie d x).dump = s.dump := rfl
@[simp] theorem State.setDie_dumpb (s : State) (d : Nat) (x : Die) : (s.setDie d x).dumpb = s.dumpb := rfl
@[simp] theorem State.setDie_heldFlits (s : State) (d : Nat) (x : Die) : (s.setDie d x).heldFlits = s.heldFlits := rfl
@[simp] theorem State.setDie_dumpFlits (s : State) (d : Nat) (x : Die) : (s.setDie d x).dumpFlits = s.dumpFlits := rfl
@[simp] theorem State.setDie_readOut (s : State) (d : Nat) (x : Die) : (s.setDie d x).readOut = s.readOut := rfl

@[simp] theorem State.setMreg_agenda (s : State) (m : Nat) (x : MethodRegs) : (s.setMreg m x).agenda = s.agenda := rfl
@[simp] theorem State.setMreg_turn (s : State) (m : Nat) (x : MethodRegs) : (s.setMreg m x).turn = s.turn := rfl
@[simp] theorem State.setMreg_patience (s : State) (m : Nat) (x : MethodRegs) : (s.setMreg m x).patience = s.patience := rfl
@[simp] theorem State.setMreg_free (s : State) (m : Nat) (x : MethodRegs) : (s.setMreg m x).free = s.free := rfl
@[simp] theorem State.setMreg_cur (s : State) (m : Nat) (x : MethodRegs) : (s.setMreg m x).cur = s.cur := rfl
@[simp] theorem State.setMreg_recq (s : State) (m : Nat) (x : MethodRegs) : (s.setMreg m x).recq = s.recq := rfl
@[simp] theorem State.setMreg_stall (s : State) (m : Nat) (x : MethodRegs) : (s.setMreg m x).stall = s.stall := rfl
@[simp] theorem State.setMreg_tick (s : State) (m : Nat) (x : MethodRegs) : (s.setMreg m x).tick = s.tick := rfl
@[simp] theorem State.setMreg_pkc (s : State) (m : Nat) (x : MethodRegs) : (s.setMreg m x).pkc = s.pkc := rfl
@[simp] theorem State.setMreg_stopped (s : State) (m : Nat) (x : MethodRegs) : (s.setMreg m x).stopped = s.stopped := rfl
@[simp] theorem State.setMreg_nodeLocked (s : State) (m : Nat) (x : MethodRegs) : (s.setMreg m x).nodeLocked = s.nodeLocked := rfl
@[simp] theorem State.setMreg_parts (s : State) (m : Nat) (x : MethodRegs) : (s.setMreg m x).parts = s.parts := rfl
@[simp] theorem State.setMreg_ctxs (s : State) (m : Nat) (x : MethodRegs) : (s.setMreg m x).ctxs = s.ctxs := rfl
@[simp] theorem State.setMreg_clusters (s : State) (m : Nat) (x : MethodRegs) : (s.setMreg m x).clusters = s.clusters := rfl
@[simp] theorem State.setMreg_cores (s : State) (m : Nat) (x : MethodRegs) : (s.setMreg m x).cores = s.cores := rfl
@[simp] theorem State.setMreg_regst (s : State) (m : Nat) (x : MethodRegs) : (s.setMreg m x).regst = s.regst := rfl
@[simp] theorem State.setMreg_dirOrder (s : State) (m : Nat) (x : MethodRegs) : (s.setMreg m x).dirOrder = s.dirOrder := rfl
@[simp] theorem State.setMreg_splitOrder (s : State) (m : Nat) (x : MethodRegs) : (s.setMreg m x).splitOrder = s.splitOrder := rfl
@[simp] theorem State.setMreg_sidx (s : State) (m : Nat) (x : MethodRegs) : (s.setMreg m x).sidx = s.sidx := rfl
@[simp] theorem State.setMreg_holdOrder (s : State) (m : Nat) (x : MethodRegs) : (s.setMreg m x).holdOrder = s.holdOrder := rfl
@[simp] theorem State.setMreg_l2 (s : State) (m : Nat) (x : MethodRegs) : (s.setMreg m x).l2 = s.l2 := rfl
@[simp] theorem State.setMreg_hbm (s : State) (m : Nat) (x : MethodRegs) : (s.setMreg m x).hbm = s.hbm := rfl
@[simp] theorem State.setMreg_host (s : State) (m : Nat) (x : MethodRegs) : (s.setMreg m x).host = s.host := rfl
@[simp] theorem State.setMreg_mcache (s : State) (m : Nat) (x : MethodRegs) : (s.setMreg m x).mcache = s.mcache := rfl
@[simp] theorem State.setMreg_root (s : State) (m : Nat) (x : MethodRegs) : (s.setMreg m x).root = s.root := rfl
@[simp] theorem State.setMreg_rowsKept (s : State) (m : Nat) (x : MethodRegs) : (s.setMreg m x).rowsKept = s.rowsKept := rfl
@[simp] theorem State.setMreg_failedRows (s : State) (m : Nat) (x : MethodRegs) : (s.setMreg m x).failedRows = s.failedRows := rfl
@[simp] theorem State.setMreg_failedEngines (s : State) (m : Nat) (x : MethodRegs) : (s.setMreg m x).failedEngines = s.failedEngines := rfl
@[simp] theorem State.setMreg_keys (s : State) (m : Nat) (x : MethodRegs) : (s.setMreg m x).keys = s.keys := rfl
@[simp] theorem State.setMreg_sealInits (s : State) (m : Nat) (x : MethodRegs) : (s.setMreg m x).sealInits = s.sealInits := rfl
@[simp] theorem State.setMreg_frr (s : State) (m : Nat) (x : MethodRegs) : (s.setMreg m x).frr = s.frr := rfl
@[simp] theorem State.setMreg_walkers (s : State) (m : Nat) (x : MethodRegs) : (s.setMreg m x).walkers = s.walkers := rfl
@[simp] theorem State.setMreg_fired (s : State) (m : Nat) (x : MethodRegs) : (s.setMreg m x).fired = s.fired := rfl
@[simp] theorem State.setMreg_nextJob (s : State) (m : Nat) (x : MethodRegs) : (s.setMreg m x).nextJob = s.nextJob := rfl
@[simp] theorem State.setMreg_nmuQ (s : State) (m : Nat) (x : MethodRegs) : (s.setMreg m x).nmuQ = s.nmuQ := rfl
@[simp] theorem State.setMreg_prims (s : State) (m : Nat) (x : MethodRegs) : (s.setMreg m x).prims = s.prims := rfl
@[simp] theorem State.setMreg_fronts (s : State) (m : Nat) (x : MethodRegs) : (s.setMreg m x).fronts = s.fronts := rfl
@[simp] theorem State.setMreg_rings (s : State) (m : Nat) (x : MethodRegs) : (s.setMreg m x).rings = s.rings := rfl
@[simp] theorem State.setMreg_fifos (s : State) (m : Nat) (x : MethodRegs) : (s.setMreg m x).fifos = s.fifos := rfl
@[simp] theorem State.setMreg_parked (s : State) (m : Nat) (x : MethodRegs) : (s.setMreg m x).parked = s.parked := rfl
@[simp] theorem State.setMreg_progs (s : State) (m : Nat) (x : MethodRegs) : (s.setMreg m x).progs = s.progs := rfl
@[simp] theorem State.setMreg_fences (s : State) (m : Nat) (x : MethodRegs) : (s.setMreg m x).fences = s.fences := rfl
@[simp] theorem State.setMreg_tmeths (s : State) (m : Nat) (x : MethodRegs) : (s.setMreg m x).tmeths = s.tmeths := rfl
@[simp] theorem State.setMreg_nextSeq (s : State) (m : Nat) (x : MethodRegs) : (s.setMreg m x).nextSeq = s.nextSeq := rfl
@[simp] theorem State.setMreg_ports (s : State) (m : Nat) (x : MethodRegs) : (s.setMreg m x).ports = s.ports := rfl
@[simp] theorem State.setMreg_streams (s : State) (m : Nat) (x : MethodRegs) : (s.setMreg m x).streams = s.streams := rfl
@[simp] theorem State.setMreg_asks (s : State) (m : Nat) (x : MethodRegs) : (s.setMreg m x).asks = s.asks := rfl
@[simp] theorem State.setMreg_discarded (s : State) (m : Nat) (x : MethodRegs) : (s.setMreg m x).discarded = s.discarded := rfl
@[simp] theorem State.setMreg_hdm (s : State) (m : Nat) (x : MethodRegs) : (s.setMreg m x).hdm = s.hdm := rfl
@[simp] theorem State.setMreg_ideFailed (s : State) (m : Nat) (x : MethodRegs) : (s.setMreg m x).ideFailed = s.ideFailed := rfl
@[simp] theorem State.setMreg_cxlDown (s : State) (m : Nat) (x : MethodRegs) : (s.setMreg m x).cxlDown = s.cxlDown := rfl
@[simp] theorem State.setMreg_sessions (s : State) (m : Nat) (x : MethodRegs) : (s.setMreg m x).sessions = s.sessions := rfl
@[simp] theorem State.setMreg_spdmOut (s : State) (m : Nat) (x : MethodRegs) : (s.setMreg m x).spdmOut = s.spdmOut := rfl
@[simp] theorem State.setMreg_snoop (s : State) (m : Nat) (x : MethodRegs) : (s.setMreg m x).snoop = s.snoop := rfl
@[simp] theorem State.setMreg_cacheLines (s : State) (m : Nat) (x : MethodRegs) : (s.setMreg m x).cacheLines = s.cacheLines := rfl
@[simp] theorem State.setMreg_privWords (s : State) (m : Nat) (x : MethodRegs) : (s.setMreg m x).privWords = s.privWords := rfl
@[simp] theorem State.setMreg_hostData (s : State) (m : Nat) (x : MethodRegs) : (s.setMreg m x).hostData = s.hostData := rfl
@[simp] theorem State.setMreg_dies (s : State) (m : Nat) (x : MethodRegs) : (s.setMreg m x).dies = s.dies := rfl
@[simp] theorem State.setMreg_life (s : State) (m : Nat) (x : MethodRegs) : (s.setMreg m x).life = s.life := rfl
@[simp] theorem State.setMreg_log (s : State) (m : Nat) (x : MethodRegs) : (s.setMreg m x).log = s.log := rfl
@[simp] theorem State.setMreg_logCount (s : State) (m : Nat) (x : MethodRegs) : (s.setMreg m x).logCount = s.logCount := rfl
@[simp] theorem State.setMreg_obsc (s : State) (m : Nat) (x : MethodRegs) : (s.setMreg m x).obsc = s.obsc := rfl
@[simp] theorem State.setMreg_stt (s : State) (m : Nat) (x : MethodRegs) : (s.setMreg m x).stt = s.stt := rfl
@[simp] theorem State.setMreg_snt (s : State) (m : Nat) (x : MethodRegs) : (s.setMreg m x).snt = s.snt := rfl
@[simp] theorem State.setMreg_latchAt (s : State) (m : Nat) (x : MethodRegs) : (s.setMreg m x).latchAt = s.latchAt := rfl
@[simp] theorem State.setMreg_shadows (s : State) (m : Nat) (x : MethodRegs) : (s.setMreg m x).shadows = s.shadows := rfl
@[simp] theorem State.setMreg_counts (s : State) (m : Nat) (x : MethodRegs) : (s.setMreg m x).counts = s.counts := rfl
@[simp] theorem State.setMreg_dump (s : State) (m : Nat) (x : MethodRegs) : (s.setMreg m x).dump = s.dump := rfl
@[simp] theorem State.setMreg_dumpb (s : State) (m : Nat) (x : MethodRegs) : (s.setMreg m x).dumpb = s.dumpb := rfl
@[simp] theorem State.setMreg_heldFlits (s : State) (m : Nat) (x : MethodRegs) : (s.setMreg m x).heldFlits = s.heldFlits := rfl
@[simp] theorem State.setMreg_dumpFlits (s : State) (m : Nat) (x : MethodRegs) : (s.setMreg m x).dumpFlits = s.dumpFlits := rfl
@[simp] theorem State.setMreg_readOut (s : State) (m : Nat) (x : MethodRegs) : (s.setMreg m x).readOut = s.readOut := rfl

@[simp] theorem State.onCore_agenda (s : State) (r : Nat) (f : Core → Core) : (s.onCore r f).agenda = s.agenda := rfl
@[simp] theorem State.onCore_turn (s : State) (r : Nat) (f : Core → Core) : (s.onCore r f).turn = s.turn := rfl
@[simp] theorem State.onCore_patience (s : State) (r : Nat) (f : Core → Core) : (s.onCore r f).patience = s.patience := rfl
@[simp] theorem State.onCore_free (s : State) (r : Nat) (f : Core → Core) : (s.onCore r f).free = s.free := rfl
@[simp] theorem State.onCore_cur (s : State) (r : Nat) (f : Core → Core) : (s.onCore r f).cur = s.cur := rfl
@[simp] theorem State.onCore_recq (s : State) (r : Nat) (f : Core → Core) : (s.onCore r f).recq = s.recq := rfl
@[simp] theorem State.onCore_stall (s : State) (r : Nat) (f : Core → Core) : (s.onCore r f).stall = s.stall := rfl
@[simp] theorem State.onCore_tick (s : State) (r : Nat) (f : Core → Core) : (s.onCore r f).tick = s.tick := rfl
@[simp] theorem State.onCore_pkc (s : State) (r : Nat) (f : Core → Core) : (s.onCore r f).pkc = s.pkc := rfl
@[simp] theorem State.onCore_stopped (s : State) (r : Nat) (f : Core → Core) : (s.onCore r f).stopped = s.stopped := rfl
@[simp] theorem State.onCore_nodeLocked (s : State) (r : Nat) (f : Core → Core) : (s.onCore r f).nodeLocked = s.nodeLocked := rfl
@[simp] theorem State.onCore_parts (s : State) (r : Nat) (f : Core → Core) : (s.onCore r f).parts = s.parts := rfl
@[simp] theorem State.onCore_ctxs (s : State) (r : Nat) (f : Core → Core) : (s.onCore r f).ctxs = s.ctxs := rfl
@[simp] theorem State.onCore_clusters (s : State) (r : Nat) (f : Core → Core) : (s.onCore r f).clusters = s.clusters := rfl
@[simp] theorem State.onCore_regst (s : State) (r : Nat) (f : Core → Core) : (s.onCore r f).regst = s.regst := rfl
@[simp] theorem State.onCore_dirOrder (s : State) (r : Nat) (f : Core → Core) : (s.onCore r f).dirOrder = s.dirOrder := rfl
@[simp] theorem State.onCore_splitOrder (s : State) (r : Nat) (f : Core → Core) : (s.onCore r f).splitOrder = s.splitOrder := rfl
@[simp] theorem State.onCore_sidx (s : State) (r : Nat) (f : Core → Core) : (s.onCore r f).sidx = s.sidx := rfl
@[simp] theorem State.onCore_holdOrder (s : State) (r : Nat) (f : Core → Core) : (s.onCore r f).holdOrder = s.holdOrder := rfl
@[simp] theorem State.onCore_l2 (s : State) (r : Nat) (f : Core → Core) : (s.onCore r f).l2 = s.l2 := rfl
@[simp] theorem State.onCore_hbm (s : State) (r : Nat) (f : Core → Core) : (s.onCore r f).hbm = s.hbm := rfl
@[simp] theorem State.onCore_host (s : State) (r : Nat) (f : Core → Core) : (s.onCore r f).host = s.host := rfl
@[simp] theorem State.onCore_mcache (s : State) (r : Nat) (f : Core → Core) : (s.onCore r f).mcache = s.mcache := rfl
@[simp] theorem State.onCore_root (s : State) (r : Nat) (f : Core → Core) : (s.onCore r f).root = s.root := rfl
@[simp] theorem State.onCore_rowsKept (s : State) (r : Nat) (f : Core → Core) : (s.onCore r f).rowsKept = s.rowsKept := rfl
@[simp] theorem State.onCore_failedRows (s : State) (r : Nat) (f : Core → Core) : (s.onCore r f).failedRows = s.failedRows := rfl
@[simp] theorem State.onCore_failedEngines (s : State) (r : Nat) (f : Core → Core) : (s.onCore r f).failedEngines = s.failedEngines := rfl
@[simp] theorem State.onCore_keys (s : State) (r : Nat) (f : Core → Core) : (s.onCore r f).keys = s.keys := rfl
@[simp] theorem State.onCore_sealInits (s : State) (r : Nat) (f : Core → Core) : (s.onCore r f).sealInits = s.sealInits := rfl
@[simp] theorem State.onCore_frr (s : State) (r : Nat) (f : Core → Core) : (s.onCore r f).frr = s.frr := rfl
@[simp] theorem State.onCore_walkers (s : State) (r : Nat) (f : Core → Core) : (s.onCore r f).walkers = s.walkers := rfl
@[simp] theorem State.onCore_fired (s : State) (r : Nat) (f : Core → Core) : (s.onCore r f).fired = s.fired := rfl
@[simp] theorem State.onCore_nextJob (s : State) (r : Nat) (f : Core → Core) : (s.onCore r f).nextJob = s.nextJob := rfl
@[simp] theorem State.onCore_nmuQ (s : State) (r : Nat) (f : Core → Core) : (s.onCore r f).nmuQ = s.nmuQ := rfl
@[simp] theorem State.onCore_prims (s : State) (r : Nat) (f : Core → Core) : (s.onCore r f).prims = s.prims := rfl
@[simp] theorem State.onCore_fronts (s : State) (r : Nat) (f : Core → Core) : (s.onCore r f).fronts = s.fronts := rfl
@[simp] theorem State.onCore_rings (s : State) (r : Nat) (f : Core → Core) : (s.onCore r f).rings = s.rings := rfl
@[simp] theorem State.onCore_fifos (s : State) (r : Nat) (f : Core → Core) : (s.onCore r f).fifos = s.fifos := rfl
@[simp] theorem State.onCore_parked (s : State) (r : Nat) (f : Core → Core) : (s.onCore r f).parked = s.parked := rfl
@[simp] theorem State.onCore_progs (s : State) (r : Nat) (f : Core → Core) : (s.onCore r f).progs = s.progs := rfl
@[simp] theorem State.onCore_fences (s : State) (r : Nat) (f : Core → Core) : (s.onCore r f).fences = s.fences := rfl
@[simp] theorem State.onCore_tmeths (s : State) (r : Nat) (f : Core → Core) : (s.onCore r f).tmeths = s.tmeths := rfl
@[simp] theorem State.onCore_nextSeq (s : State) (r : Nat) (f : Core → Core) : (s.onCore r f).nextSeq = s.nextSeq := rfl
@[simp] theorem State.onCore_mregs (s : State) (r : Nat) (f : Core → Core) : (s.onCore r f).mregs = s.mregs := rfl
@[simp] theorem State.onCore_ports (s : State) (r : Nat) (f : Core → Core) : (s.onCore r f).ports = s.ports := rfl
@[simp] theorem State.onCore_streams (s : State) (r : Nat) (f : Core → Core) : (s.onCore r f).streams = s.streams := rfl
@[simp] theorem State.onCore_asks (s : State) (r : Nat) (f : Core → Core) : (s.onCore r f).asks = s.asks := rfl
@[simp] theorem State.onCore_discarded (s : State) (r : Nat) (f : Core → Core) : (s.onCore r f).discarded = s.discarded := rfl
@[simp] theorem State.onCore_hdm (s : State) (r : Nat) (f : Core → Core) : (s.onCore r f).hdm = s.hdm := rfl
@[simp] theorem State.onCore_ideFailed (s : State) (r : Nat) (f : Core → Core) : (s.onCore r f).ideFailed = s.ideFailed := rfl
@[simp] theorem State.onCore_cxlDown (s : State) (r : Nat) (f : Core → Core) : (s.onCore r f).cxlDown = s.cxlDown := rfl
@[simp] theorem State.onCore_sessions (s : State) (r : Nat) (f : Core → Core) : (s.onCore r f).sessions = s.sessions := rfl
@[simp] theorem State.onCore_spdmOut (s : State) (r : Nat) (f : Core → Core) : (s.onCore r f).spdmOut = s.spdmOut := rfl
@[simp] theorem State.onCore_snoop (s : State) (r : Nat) (f : Core → Core) : (s.onCore r f).snoop = s.snoop := rfl
@[simp] theorem State.onCore_cacheLines (s : State) (r : Nat) (f : Core → Core) : (s.onCore r f).cacheLines = s.cacheLines := rfl
@[simp] theorem State.onCore_privWords (s : State) (r : Nat) (f : Core → Core) : (s.onCore r f).privWords = s.privWords := rfl
@[simp] theorem State.onCore_hostData (s : State) (r : Nat) (f : Core → Core) : (s.onCore r f).hostData = s.hostData := rfl
@[simp] theorem State.onCore_dies (s : State) (r : Nat) (f : Core → Core) : (s.onCore r f).dies = s.dies := rfl
@[simp] theorem State.onCore_life (s : State) (r : Nat) (f : Core → Core) : (s.onCore r f).life = s.life := rfl
@[simp] theorem State.onCore_log (s : State) (r : Nat) (f : Core → Core) : (s.onCore r f).log = s.log := rfl
@[simp] theorem State.onCore_logCount (s : State) (r : Nat) (f : Core → Core) : (s.onCore r f).logCount = s.logCount := rfl
@[simp] theorem State.onCore_obsc (s : State) (r : Nat) (f : Core → Core) : (s.onCore r f).obsc = s.obsc := rfl
@[simp] theorem State.onCore_stt (s : State) (r : Nat) (f : Core → Core) : (s.onCore r f).stt = s.stt := rfl
@[simp] theorem State.onCore_snt (s : State) (r : Nat) (f : Core → Core) : (s.onCore r f).snt = s.snt := rfl
@[simp] theorem State.onCore_latchAt (s : State) (r : Nat) (f : Core → Core) : (s.onCore r f).latchAt = s.latchAt := rfl
@[simp] theorem State.onCore_shadows (s : State) (r : Nat) (f : Core → Core) : (s.onCore r f).shadows = s.shadows := rfl
@[simp] theorem State.onCore_counts (s : State) (r : Nat) (f : Core → Core) : (s.onCore r f).counts = s.counts := rfl
@[simp] theorem State.onCore_dump (s : State) (r : Nat) (f : Core → Core) : (s.onCore r f).dump = s.dump := rfl
@[simp] theorem State.onCore_dumpb (s : State) (r : Nat) (f : Core → Core) : (s.onCore r f).dumpb = s.dumpb := rfl
@[simp] theorem State.onCore_heldFlits (s : State) (r : Nat) (f : Core → Core) : (s.onCore r f).heldFlits = s.heldFlits := rfl
@[simp] theorem State.onCore_dumpFlits (s : State) (r : Nat) (f : Core → Core) : (s.onCore r f).dumpFlits = s.dumpFlits := rfl
@[simp] theorem State.onCore_readOut (s : State) (r : Nat) (f : Core → Core) : (s.onCore r f).readOut = s.readOut := rfl

@[simp] theorem State.onCtx_agenda (s : State) (k : Nat) (f : Context → Context) : (s.onCtx k f).agenda = s.agenda := rfl
@[simp] theorem State.onCtx_turn (s : State) (k : Nat) (f : Context → Context) : (s.onCtx k f).turn = s.turn := rfl
@[simp] theorem State.onCtx_patience (s : State) (k : Nat) (f : Context → Context) : (s.onCtx k f).patience = s.patience := rfl
@[simp] theorem State.onCtx_free (s : State) (k : Nat) (f : Context → Context) : (s.onCtx k f).free = s.free := rfl
@[simp] theorem State.onCtx_cur (s : State) (k : Nat) (f : Context → Context) : (s.onCtx k f).cur = s.cur := rfl
@[simp] theorem State.onCtx_recq (s : State) (k : Nat) (f : Context → Context) : (s.onCtx k f).recq = s.recq := rfl
@[simp] theorem State.onCtx_stall (s : State) (k : Nat) (f : Context → Context) : (s.onCtx k f).stall = s.stall := rfl
@[simp] theorem State.onCtx_tick (s : State) (k : Nat) (f : Context → Context) : (s.onCtx k f).tick = s.tick := rfl
@[simp] theorem State.onCtx_pkc (s : State) (k : Nat) (f : Context → Context) : (s.onCtx k f).pkc = s.pkc := rfl
@[simp] theorem State.onCtx_stopped (s : State) (k : Nat) (f : Context → Context) : (s.onCtx k f).stopped = s.stopped := rfl
@[simp] theorem State.onCtx_nodeLocked (s : State) (k : Nat) (f : Context → Context) : (s.onCtx k f).nodeLocked = s.nodeLocked := rfl
@[simp] theorem State.onCtx_parts (s : State) (k : Nat) (f : Context → Context) : (s.onCtx k f).parts = s.parts := rfl
@[simp] theorem State.onCtx_clusters (s : State) (k : Nat) (f : Context → Context) : (s.onCtx k f).clusters = s.clusters := rfl
@[simp] theorem State.onCtx_cores (s : State) (k : Nat) (f : Context → Context) : (s.onCtx k f).cores = s.cores := rfl
@[simp] theorem State.onCtx_regst (s : State) (k : Nat) (f : Context → Context) : (s.onCtx k f).regst = s.regst := rfl
@[simp] theorem State.onCtx_dirOrder (s : State) (k : Nat) (f : Context → Context) : (s.onCtx k f).dirOrder = s.dirOrder := rfl
@[simp] theorem State.onCtx_splitOrder (s : State) (k : Nat) (f : Context → Context) : (s.onCtx k f).splitOrder = s.splitOrder := rfl
@[simp] theorem State.onCtx_sidx (s : State) (k : Nat) (f : Context → Context) : (s.onCtx k f).sidx = s.sidx := rfl
@[simp] theorem State.onCtx_holdOrder (s : State) (k : Nat) (f : Context → Context) : (s.onCtx k f).holdOrder = s.holdOrder := rfl
@[simp] theorem State.onCtx_l2 (s : State) (k : Nat) (f : Context → Context) : (s.onCtx k f).l2 = s.l2 := rfl
@[simp] theorem State.onCtx_hbm (s : State) (k : Nat) (f : Context → Context) : (s.onCtx k f).hbm = s.hbm := rfl
@[simp] theorem State.onCtx_host (s : State) (k : Nat) (f : Context → Context) : (s.onCtx k f).host = s.host := rfl
@[simp] theorem State.onCtx_mcache (s : State) (k : Nat) (f : Context → Context) : (s.onCtx k f).mcache = s.mcache := rfl
@[simp] theorem State.onCtx_root (s : State) (k : Nat) (f : Context → Context) : (s.onCtx k f).root = s.root := rfl
@[simp] theorem State.onCtx_rowsKept (s : State) (k : Nat) (f : Context → Context) : (s.onCtx k f).rowsKept = s.rowsKept := rfl
@[simp] theorem State.onCtx_failedRows (s : State) (k : Nat) (f : Context → Context) : (s.onCtx k f).failedRows = s.failedRows := rfl
@[simp] theorem State.onCtx_failedEngines (s : State) (k : Nat) (f : Context → Context) : (s.onCtx k f).failedEngines = s.failedEngines := rfl
@[simp] theorem State.onCtx_keys (s : State) (k : Nat) (f : Context → Context) : (s.onCtx k f).keys = s.keys := rfl
@[simp] theorem State.onCtx_sealInits (s : State) (k : Nat) (f : Context → Context) : (s.onCtx k f).sealInits = s.sealInits := rfl
@[simp] theorem State.onCtx_frr (s : State) (k : Nat) (f : Context → Context) : (s.onCtx k f).frr = s.frr := rfl
@[simp] theorem State.onCtx_walkers (s : State) (k : Nat) (f : Context → Context) : (s.onCtx k f).walkers = s.walkers := rfl
@[simp] theorem State.onCtx_fired (s : State) (k : Nat) (f : Context → Context) : (s.onCtx k f).fired = s.fired := rfl
@[simp] theorem State.onCtx_nextJob (s : State) (k : Nat) (f : Context → Context) : (s.onCtx k f).nextJob = s.nextJob := rfl
@[simp] theorem State.onCtx_nmuQ (s : State) (k : Nat) (f : Context → Context) : (s.onCtx k f).nmuQ = s.nmuQ := rfl
@[simp] theorem State.onCtx_prims (s : State) (k : Nat) (f : Context → Context) : (s.onCtx k f).prims = s.prims := rfl
@[simp] theorem State.onCtx_fronts (s : State) (k : Nat) (f : Context → Context) : (s.onCtx k f).fronts = s.fronts := rfl
@[simp] theorem State.onCtx_rings (s : State) (k : Nat) (f : Context → Context) : (s.onCtx k f).rings = s.rings := rfl
@[simp] theorem State.onCtx_fifos (s : State) (k : Nat) (f : Context → Context) : (s.onCtx k f).fifos = s.fifos := rfl
@[simp] theorem State.onCtx_parked (s : State) (k : Nat) (f : Context → Context) : (s.onCtx k f).parked = s.parked := rfl
@[simp] theorem State.onCtx_progs (s : State) (k : Nat) (f : Context → Context) : (s.onCtx k f).progs = s.progs := rfl
@[simp] theorem State.onCtx_fences (s : State) (k : Nat) (f : Context → Context) : (s.onCtx k f).fences = s.fences := rfl
@[simp] theorem State.onCtx_tmeths (s : State) (k : Nat) (f : Context → Context) : (s.onCtx k f).tmeths = s.tmeths := rfl
@[simp] theorem State.onCtx_nextSeq (s : State) (k : Nat) (f : Context → Context) : (s.onCtx k f).nextSeq = s.nextSeq := rfl
@[simp] theorem State.onCtx_mregs (s : State) (k : Nat) (f : Context → Context) : (s.onCtx k f).mregs = s.mregs := rfl
@[simp] theorem State.onCtx_ports (s : State) (k : Nat) (f : Context → Context) : (s.onCtx k f).ports = s.ports := rfl
@[simp] theorem State.onCtx_streams (s : State) (k : Nat) (f : Context → Context) : (s.onCtx k f).streams = s.streams := rfl
@[simp] theorem State.onCtx_asks (s : State) (k : Nat) (f : Context → Context) : (s.onCtx k f).asks = s.asks := rfl
@[simp] theorem State.onCtx_discarded (s : State) (k : Nat) (f : Context → Context) : (s.onCtx k f).discarded = s.discarded := rfl
@[simp] theorem State.onCtx_hdm (s : State) (k : Nat) (f : Context → Context) : (s.onCtx k f).hdm = s.hdm := rfl
@[simp] theorem State.onCtx_ideFailed (s : State) (k : Nat) (f : Context → Context) : (s.onCtx k f).ideFailed = s.ideFailed := rfl
@[simp] theorem State.onCtx_cxlDown (s : State) (k : Nat) (f : Context → Context) : (s.onCtx k f).cxlDown = s.cxlDown := rfl
@[simp] theorem State.onCtx_sessions (s : State) (k : Nat) (f : Context → Context) : (s.onCtx k f).sessions = s.sessions := rfl
@[simp] theorem State.onCtx_spdmOut (s : State) (k : Nat) (f : Context → Context) : (s.onCtx k f).spdmOut = s.spdmOut := rfl
@[simp] theorem State.onCtx_snoop (s : State) (k : Nat) (f : Context → Context) : (s.onCtx k f).snoop = s.snoop := rfl
@[simp] theorem State.onCtx_cacheLines (s : State) (k : Nat) (f : Context → Context) : (s.onCtx k f).cacheLines = s.cacheLines := rfl
@[simp] theorem State.onCtx_privWords (s : State) (k : Nat) (f : Context → Context) : (s.onCtx k f).privWords = s.privWords := rfl
@[simp] theorem State.onCtx_hostData (s : State) (k : Nat) (f : Context → Context) : (s.onCtx k f).hostData = s.hostData := rfl
@[simp] theorem State.onCtx_dies (s : State) (k : Nat) (f : Context → Context) : (s.onCtx k f).dies = s.dies := rfl
@[simp] theorem State.onCtx_life (s : State) (k : Nat) (f : Context → Context) : (s.onCtx k f).life = s.life := rfl
@[simp] theorem State.onCtx_log (s : State) (k : Nat) (f : Context → Context) : (s.onCtx k f).log = s.log := rfl
@[simp] theorem State.onCtx_logCount (s : State) (k : Nat) (f : Context → Context) : (s.onCtx k f).logCount = s.logCount := rfl
@[simp] theorem State.onCtx_obsc (s : State) (k : Nat) (f : Context → Context) : (s.onCtx k f).obsc = s.obsc := rfl
@[simp] theorem State.onCtx_stt (s : State) (k : Nat) (f : Context → Context) : (s.onCtx k f).stt = s.stt := rfl
@[simp] theorem State.onCtx_snt (s : State) (k : Nat) (f : Context → Context) : (s.onCtx k f).snt = s.snt := rfl
@[simp] theorem State.onCtx_latchAt (s : State) (k : Nat) (f : Context → Context) : (s.onCtx k f).latchAt = s.latchAt := rfl
@[simp] theorem State.onCtx_shadows (s : State) (k : Nat) (f : Context → Context) : (s.onCtx k f).shadows = s.shadows := rfl
@[simp] theorem State.onCtx_counts (s : State) (k : Nat) (f : Context → Context) : (s.onCtx k f).counts = s.counts := rfl
@[simp] theorem State.onCtx_dump (s : State) (k : Nat) (f : Context → Context) : (s.onCtx k f).dump = s.dump := rfl
@[simp] theorem State.onCtx_dumpb (s : State) (k : Nat) (f : Context → Context) : (s.onCtx k f).dumpb = s.dumpb := rfl
@[simp] theorem State.onCtx_heldFlits (s : State) (k : Nat) (f : Context → Context) : (s.onCtx k f).heldFlits = s.heldFlits := rfl
@[simp] theorem State.onCtx_dumpFlits (s : State) (k : Nat) (f : Context → Context) : (s.onCtx k f).dumpFlits = s.dumpFlits := rfl
@[simp] theorem State.onCtx_readOut (s : State) (k : Nat) (f : Context → Context) : (s.onCtx k f).readOut = s.readOut := rfl

@[simp] theorem State.count_agenda (s : State) (w n : Nat) : (s.count w n).agenda = s.agenda := rfl
@[simp] theorem State.count_turn (s : State) (w n : Nat) : (s.count w n).turn = s.turn := rfl
@[simp] theorem State.count_patience (s : State) (w n : Nat) : (s.count w n).patience = s.patience := rfl
@[simp] theorem State.count_free (s : State) (w n : Nat) : (s.count w n).free = s.free := rfl
@[simp] theorem State.count_cur (s : State) (w n : Nat) : (s.count w n).cur = s.cur := rfl
@[simp] theorem State.count_recq (s : State) (w n : Nat) : (s.count w n).recq = s.recq := rfl
@[simp] theorem State.count_stall (s : State) (w n : Nat) : (s.count w n).stall = s.stall := rfl
@[simp] theorem State.count_tick (s : State) (w n : Nat) : (s.count w n).tick = s.tick := rfl
@[simp] theorem State.count_pkc (s : State) (w n : Nat) : (s.count w n).pkc = s.pkc := rfl
@[simp] theorem State.count_stopped (s : State) (w n : Nat) : (s.count w n).stopped = s.stopped := rfl
@[simp] theorem State.count_nodeLocked (s : State) (w n : Nat) : (s.count w n).nodeLocked = s.nodeLocked := rfl
@[simp] theorem State.count_parts (s : State) (w n : Nat) : (s.count w n).parts = s.parts := rfl
@[simp] theorem State.count_ctxs (s : State) (w n : Nat) : (s.count w n).ctxs = s.ctxs := rfl
@[simp] theorem State.count_clusters (s : State) (w n : Nat) : (s.count w n).clusters = s.clusters := rfl
@[simp] theorem State.count_cores (s : State) (w n : Nat) : (s.count w n).cores = s.cores := rfl
@[simp] theorem State.count_regst (s : State) (w n : Nat) : (s.count w n).regst = s.regst := rfl
@[simp] theorem State.count_dirOrder (s : State) (w n : Nat) : (s.count w n).dirOrder = s.dirOrder := rfl
@[simp] theorem State.count_splitOrder (s : State) (w n : Nat) : (s.count w n).splitOrder = s.splitOrder := rfl
@[simp] theorem State.count_sidx (s : State) (w n : Nat) : (s.count w n).sidx = s.sidx := rfl
@[simp] theorem State.count_holdOrder (s : State) (w n : Nat) : (s.count w n).holdOrder = s.holdOrder := rfl
@[simp] theorem State.count_l2 (s : State) (w n : Nat) : (s.count w n).l2 = s.l2 := rfl
@[simp] theorem State.count_hbm (s : State) (w n : Nat) : (s.count w n).hbm = s.hbm := rfl
@[simp] theorem State.count_host (s : State) (w n : Nat) : (s.count w n).host = s.host := rfl
@[simp] theorem State.count_mcache (s : State) (w n : Nat) : (s.count w n).mcache = s.mcache := rfl
@[simp] theorem State.count_root (s : State) (w n : Nat) : (s.count w n).root = s.root := rfl
@[simp] theorem State.count_rowsKept (s : State) (w n : Nat) : (s.count w n).rowsKept = s.rowsKept := rfl
@[simp] theorem State.count_failedRows (s : State) (w n : Nat) : (s.count w n).failedRows = s.failedRows := rfl
@[simp] theorem State.count_failedEngines (s : State) (w n : Nat) : (s.count w n).failedEngines = s.failedEngines := rfl
@[simp] theorem State.count_keys (s : State) (w n : Nat) : (s.count w n).keys = s.keys := rfl
@[simp] theorem State.count_sealInits (s : State) (w n : Nat) : (s.count w n).sealInits = s.sealInits := rfl
@[simp] theorem State.count_frr (s : State) (w n : Nat) : (s.count w n).frr = s.frr := rfl
@[simp] theorem State.count_walkers (s : State) (w n : Nat) : (s.count w n).walkers = s.walkers := rfl
@[simp] theorem State.count_fired (s : State) (w n : Nat) : (s.count w n).fired = s.fired := rfl
@[simp] theorem State.count_nextJob (s : State) (w n : Nat) : (s.count w n).nextJob = s.nextJob := rfl
@[simp] theorem State.count_nmuQ (s : State) (w n : Nat) : (s.count w n).nmuQ = s.nmuQ := rfl
@[simp] theorem State.count_prims (s : State) (w n : Nat) : (s.count w n).prims = s.prims := rfl
@[simp] theorem State.count_fronts (s : State) (w n : Nat) : (s.count w n).fronts = s.fronts := rfl
@[simp] theorem State.count_rings (s : State) (w n : Nat) : (s.count w n).rings = s.rings := rfl
@[simp] theorem State.count_fifos (s : State) (w n : Nat) : (s.count w n).fifos = s.fifos := rfl
@[simp] theorem State.count_parked (s : State) (w n : Nat) : (s.count w n).parked = s.parked := rfl
@[simp] theorem State.count_progs (s : State) (w n : Nat) : (s.count w n).progs = s.progs := rfl
@[simp] theorem State.count_fences (s : State) (w n : Nat) : (s.count w n).fences = s.fences := rfl
@[simp] theorem State.count_tmeths (s : State) (w n : Nat) : (s.count w n).tmeths = s.tmeths := rfl
@[simp] theorem State.count_nextSeq (s : State) (w n : Nat) : (s.count w n).nextSeq = s.nextSeq := rfl
@[simp] theorem State.count_mregs (s : State) (w n : Nat) : (s.count w n).mregs = s.mregs := rfl
@[simp] theorem State.count_ports (s : State) (w n : Nat) : (s.count w n).ports = s.ports := rfl
@[simp] theorem State.count_streams (s : State) (w n : Nat) : (s.count w n).streams = s.streams := rfl
@[simp] theorem State.count_asks (s : State) (w n : Nat) : (s.count w n).asks = s.asks := rfl
@[simp] theorem State.count_discarded (s : State) (w n : Nat) : (s.count w n).discarded = s.discarded := rfl
@[simp] theorem State.count_hdm (s : State) (w n : Nat) : (s.count w n).hdm = s.hdm := rfl
@[simp] theorem State.count_ideFailed (s : State) (w n : Nat) : (s.count w n).ideFailed = s.ideFailed := rfl
@[simp] theorem State.count_cxlDown (s : State) (w n : Nat) : (s.count w n).cxlDown = s.cxlDown := rfl
@[simp] theorem State.count_sessions (s : State) (w n : Nat) : (s.count w n).sessions = s.sessions := rfl
@[simp] theorem State.count_spdmOut (s : State) (w n : Nat) : (s.count w n).spdmOut = s.spdmOut := rfl
@[simp] theorem State.count_snoop (s : State) (w n : Nat) : (s.count w n).snoop = s.snoop := rfl
@[simp] theorem State.count_cacheLines (s : State) (w n : Nat) : (s.count w n).cacheLines = s.cacheLines := rfl
@[simp] theorem State.count_privWords (s : State) (w n : Nat) : (s.count w n).privWords = s.privWords := rfl
@[simp] theorem State.count_hostData (s : State) (w n : Nat) : (s.count w n).hostData = s.hostData := rfl
@[simp] theorem State.count_dies (s : State) (w n : Nat) : (s.count w n).dies = s.dies := rfl
@[simp] theorem State.count_life (s : State) (w n : Nat) : (s.count w n).life = s.life := rfl
@[simp] theorem State.count_log (s : State) (w n : Nat) : (s.count w n).log = s.log := rfl
@[simp] theorem State.count_logCount (s : State) (w n : Nat) : (s.count w n).logCount = s.logCount := rfl
@[simp] theorem State.count_obsc (s : State) (w n : Nat) : (s.count w n).obsc = s.obsc := rfl
@[simp] theorem State.count_stt (s : State) (w n : Nat) : (s.count w n).stt = s.stt := rfl
@[simp] theorem State.count_snt (s : State) (w n : Nat) : (s.count w n).snt = s.snt := rfl
@[simp] theorem State.count_latchAt (s : State) (w n : Nat) : (s.count w n).latchAt = s.latchAt := rfl
@[simp] theorem State.count_shadows (s : State) (w n : Nat) : (s.count w n).shadows = s.shadows := rfl
@[simp] theorem State.count_dump (s : State) (w n : Nat) : (s.count w n).dump = s.dump := rfl
@[simp] theorem State.count_dumpb (s : State) (w n : Nat) : (s.count w n).dumpb = s.dumpb := rfl
@[simp] theorem State.count_heldFlits (s : State) (w n : Nat) : (s.count w n).heldFlits = s.heldFlits := rfl
@[simp] theorem State.count_dumpFlits (s : State) (w n : Nat) : (s.count w n).dumpFlits = s.dumpFlits := rfl
@[simp] theorem State.count_readOut (s : State) (w n : Nat) : (s.count w n).readOut = s.readOut := rfl

@[simp] theorem State.bumpLife_agenda (s : State) (w n : Nat) : (s.bumpLife w n).agenda = s.agenda := rfl
@[simp] theorem State.bumpLife_turn (s : State) (w n : Nat) : (s.bumpLife w n).turn = s.turn := rfl
@[simp] theorem State.bumpLife_patience (s : State) (w n : Nat) : (s.bumpLife w n).patience = s.patience := rfl
@[simp] theorem State.bumpLife_free (s : State) (w n : Nat) : (s.bumpLife w n).free = s.free := rfl
@[simp] theorem State.bumpLife_cur (s : State) (w n : Nat) : (s.bumpLife w n).cur = s.cur := rfl
@[simp] theorem State.bumpLife_recq (s : State) (w n : Nat) : (s.bumpLife w n).recq = s.recq := rfl
@[simp] theorem State.bumpLife_stall (s : State) (w n : Nat) : (s.bumpLife w n).stall = s.stall := rfl
@[simp] theorem State.bumpLife_tick (s : State) (w n : Nat) : (s.bumpLife w n).tick = s.tick := rfl
@[simp] theorem State.bumpLife_pkc (s : State) (w n : Nat) : (s.bumpLife w n).pkc = s.pkc := rfl
@[simp] theorem State.bumpLife_stopped (s : State) (w n : Nat) : (s.bumpLife w n).stopped = s.stopped := rfl
@[simp] theorem State.bumpLife_nodeLocked (s : State) (w n : Nat) : (s.bumpLife w n).nodeLocked = s.nodeLocked := rfl
@[simp] theorem State.bumpLife_parts (s : State) (w n : Nat) : (s.bumpLife w n).parts = s.parts := rfl
@[simp] theorem State.bumpLife_ctxs (s : State) (w n : Nat) : (s.bumpLife w n).ctxs = s.ctxs := rfl
@[simp] theorem State.bumpLife_clusters (s : State) (w n : Nat) : (s.bumpLife w n).clusters = s.clusters := rfl
@[simp] theorem State.bumpLife_cores (s : State) (w n : Nat) : (s.bumpLife w n).cores = s.cores := rfl
@[simp] theorem State.bumpLife_regst (s : State) (w n : Nat) : (s.bumpLife w n).regst = s.regst := rfl
@[simp] theorem State.bumpLife_dirOrder (s : State) (w n : Nat) : (s.bumpLife w n).dirOrder = s.dirOrder := rfl
@[simp] theorem State.bumpLife_splitOrder (s : State) (w n : Nat) : (s.bumpLife w n).splitOrder = s.splitOrder := rfl
@[simp] theorem State.bumpLife_sidx (s : State) (w n : Nat) : (s.bumpLife w n).sidx = s.sidx := rfl
@[simp] theorem State.bumpLife_holdOrder (s : State) (w n : Nat) : (s.bumpLife w n).holdOrder = s.holdOrder := rfl
@[simp] theorem State.bumpLife_l2 (s : State) (w n : Nat) : (s.bumpLife w n).l2 = s.l2 := rfl
@[simp] theorem State.bumpLife_hbm (s : State) (w n : Nat) : (s.bumpLife w n).hbm = s.hbm := rfl
@[simp] theorem State.bumpLife_host (s : State) (w n : Nat) : (s.bumpLife w n).host = s.host := rfl
@[simp] theorem State.bumpLife_mcache (s : State) (w n : Nat) : (s.bumpLife w n).mcache = s.mcache := rfl
@[simp] theorem State.bumpLife_root (s : State) (w n : Nat) : (s.bumpLife w n).root = s.root := rfl
@[simp] theorem State.bumpLife_rowsKept (s : State) (w n : Nat) : (s.bumpLife w n).rowsKept = s.rowsKept := rfl
@[simp] theorem State.bumpLife_failedRows (s : State) (w n : Nat) : (s.bumpLife w n).failedRows = s.failedRows := rfl
@[simp] theorem State.bumpLife_failedEngines (s : State) (w n : Nat) : (s.bumpLife w n).failedEngines = s.failedEngines := rfl
@[simp] theorem State.bumpLife_keys (s : State) (w n : Nat) : (s.bumpLife w n).keys = s.keys := rfl
@[simp] theorem State.bumpLife_sealInits (s : State) (w n : Nat) : (s.bumpLife w n).sealInits = s.sealInits := rfl
@[simp] theorem State.bumpLife_frr (s : State) (w n : Nat) : (s.bumpLife w n).frr = s.frr := rfl
@[simp] theorem State.bumpLife_walkers (s : State) (w n : Nat) : (s.bumpLife w n).walkers = s.walkers := rfl
@[simp] theorem State.bumpLife_fired (s : State) (w n : Nat) : (s.bumpLife w n).fired = s.fired := rfl
@[simp] theorem State.bumpLife_nextJob (s : State) (w n : Nat) : (s.bumpLife w n).nextJob = s.nextJob := rfl
@[simp] theorem State.bumpLife_nmuQ (s : State) (w n : Nat) : (s.bumpLife w n).nmuQ = s.nmuQ := rfl
@[simp] theorem State.bumpLife_prims (s : State) (w n : Nat) : (s.bumpLife w n).prims = s.prims := rfl
@[simp] theorem State.bumpLife_fronts (s : State) (w n : Nat) : (s.bumpLife w n).fronts = s.fronts := rfl
@[simp] theorem State.bumpLife_rings (s : State) (w n : Nat) : (s.bumpLife w n).rings = s.rings := rfl
@[simp] theorem State.bumpLife_fifos (s : State) (w n : Nat) : (s.bumpLife w n).fifos = s.fifos := rfl
@[simp] theorem State.bumpLife_parked (s : State) (w n : Nat) : (s.bumpLife w n).parked = s.parked := rfl
@[simp] theorem State.bumpLife_progs (s : State) (w n : Nat) : (s.bumpLife w n).progs = s.progs := rfl
@[simp] theorem State.bumpLife_fences (s : State) (w n : Nat) : (s.bumpLife w n).fences = s.fences := rfl
@[simp] theorem State.bumpLife_tmeths (s : State) (w n : Nat) : (s.bumpLife w n).tmeths = s.tmeths := rfl
@[simp] theorem State.bumpLife_nextSeq (s : State) (w n : Nat) : (s.bumpLife w n).nextSeq = s.nextSeq := rfl
@[simp] theorem State.bumpLife_mregs (s : State) (w n : Nat) : (s.bumpLife w n).mregs = s.mregs := rfl
@[simp] theorem State.bumpLife_ports (s : State) (w n : Nat) : (s.bumpLife w n).ports = s.ports := rfl
@[simp] theorem State.bumpLife_streams (s : State) (w n : Nat) : (s.bumpLife w n).streams = s.streams := rfl
@[simp] theorem State.bumpLife_asks (s : State) (w n : Nat) : (s.bumpLife w n).asks = s.asks := rfl
@[simp] theorem State.bumpLife_discarded (s : State) (w n : Nat) : (s.bumpLife w n).discarded = s.discarded := rfl
@[simp] theorem State.bumpLife_hdm (s : State) (w n : Nat) : (s.bumpLife w n).hdm = s.hdm := rfl
@[simp] theorem State.bumpLife_ideFailed (s : State) (w n : Nat) : (s.bumpLife w n).ideFailed = s.ideFailed := rfl
@[simp] theorem State.bumpLife_cxlDown (s : State) (w n : Nat) : (s.bumpLife w n).cxlDown = s.cxlDown := rfl
@[simp] theorem State.bumpLife_sessions (s : State) (w n : Nat) : (s.bumpLife w n).sessions = s.sessions := rfl
@[simp] theorem State.bumpLife_spdmOut (s : State) (w n : Nat) : (s.bumpLife w n).spdmOut = s.spdmOut := rfl
@[simp] theorem State.bumpLife_snoop (s : State) (w n : Nat) : (s.bumpLife w n).snoop = s.snoop := rfl
@[simp] theorem State.bumpLife_cacheLines (s : State) (w n : Nat) : (s.bumpLife w n).cacheLines = s.cacheLines := rfl
@[simp] theorem State.bumpLife_privWords (s : State) (w n : Nat) : (s.bumpLife w n).privWords = s.privWords := rfl
@[simp] theorem State.bumpLife_hostData (s : State) (w n : Nat) : (s.bumpLife w n).hostData = s.hostData := rfl
@[simp] theorem State.bumpLife_dies (s : State) (w n : Nat) : (s.bumpLife w n).dies = s.dies := rfl
@[simp] theorem State.bumpLife_log (s : State) (w n : Nat) : (s.bumpLife w n).log = s.log := rfl
@[simp] theorem State.bumpLife_logCount (s : State) (w n : Nat) : (s.bumpLife w n).logCount = s.logCount := rfl
@[simp] theorem State.bumpLife_obsc (s : State) (w n : Nat) : (s.bumpLife w n).obsc = s.obsc := rfl
@[simp] theorem State.bumpLife_stt (s : State) (w n : Nat) : (s.bumpLife w n).stt = s.stt := rfl
@[simp] theorem State.bumpLife_snt (s : State) (w n : Nat) : (s.bumpLife w n).snt = s.snt := rfl
@[simp] theorem State.bumpLife_latchAt (s : State) (w n : Nat) : (s.bumpLife w n).latchAt = s.latchAt := rfl
@[simp] theorem State.bumpLife_shadows (s : State) (w n : Nat) : (s.bumpLife w n).shadows = s.shadows := rfl
@[simp] theorem State.bumpLife_counts (s : State) (w n : Nat) : (s.bumpLife w n).counts = s.counts := rfl
@[simp] theorem State.bumpLife_dump (s : State) (w n : Nat) : (s.bumpLife w n).dump = s.dump := rfl
@[simp] theorem State.bumpLife_dumpb (s : State) (w n : Nat) : (s.bumpLife w n).dumpb = s.dumpb := rfl
@[simp] theorem State.bumpLife_heldFlits (s : State) (w n : Nat) : (s.bumpLife w n).heldFlits = s.heldFlits := rfl
@[simp] theorem State.bumpLife_dumpFlits (s : State) (w n : Nat) : (s.bumpLife w n).dumpFlits = s.dumpFlits := rfl
@[simp] theorem State.bumpLife_readOut (s : State) (w n : Nat) : (s.bumpLife w n).readOut = s.readOut := rfl

@[simp] theorem State.core_setCore_self (s : State) (k : Nat) (x : Core) : (s.setCore k x).core k = x := SMap.get_set_self _ _ _ _
theorem State.core_setCore_other (s : State) (k j : Nat) (x : Core) (h : j ≠ k) : (s.setCore k x).core j = s.core j :=
  SMap.get_set_other _ _ _ _ _ h
@[simp] theorem State.core_setCtx (s : State) (k : Nat) (x : Context) (j : Nat) : (s.setCtx k x).core j = s.core j := rfl
@[simp] theorem State.core_setPart (s : State) (p : Nat) (x : Partition) (j : Nat) : (s.setPart p x).core j = s.core j := rfl
@[simp] theorem State.core_setCluster (s : State) (k : Nat) (x : Cluster) (j : Nat) : (s.setCluster k x).core j = s.core j := rfl
@[simp] theorem State.core_setFront (s : State) (d k : Nat) (x : Front) (j : Nat) : (s.setFront d k x).core j = s.core j := rfl
@[simp] theorem State.core_setKey (s : State) (k : Nat) (x : KeySlot) (j : Nat) : (s.setKey k x).core j = s.core j := rfl
@[simp] theorem State.core_setPort (s : State) (p : Nat) (x : Port) (j : Nat) : (s.setPort p x).core j = s.core j := rfl
@[simp] theorem State.core_setDie (s : State) (d : Nat) (x : Die) (j : Nat) : (s.setDie d x).core j = s.core j := rfl
@[simp] theorem State.core_setMreg (s : State) (m : Nat) (x : MethodRegs) (j : Nat) : (s.setMreg m x).core j = s.core j := rfl
@[simp] theorem State.core_onCtx (s : State) (k : Nat) (f : Context → Context) (j : Nat) : (s.onCtx k f).core j = s.core j := rfl
@[simp] theorem State.core_count (s : State) (w n : Nat) (j : Nat) : (s.count w n).core j = s.core j := rfl
@[simp] theorem State.core_bumpLife (s : State) (w n : Nat) (j : Nat) : (s.bumpLife w n).core j = s.core j := rfl

@[simp] theorem State.ctx_setCtx_self (s : State) (k : Nat) (x : Context) : (s.setCtx k x).ctx k = x := SMap.get_set_self _ _ _ _
theorem State.ctx_setCtx_other (s : State) (k j : Nat) (x : Context) (h : j ≠ k) : (s.setCtx k x).ctx j = s.ctx j :=
  SMap.get_set_other _ _ _ _ _ h
@[simp] theorem State.ctx_setCore (s : State) (r : Nat) (x : Core) (j : Nat) : (s.setCore r x).ctx j = s.ctx j := rfl
@[simp] theorem State.ctx_setPart (s : State) (p : Nat) (x : Partition) (j : Nat) : (s.setPart p x).ctx j = s.ctx j := rfl
@[simp] theorem State.ctx_setCluster (s : State) (k : Nat) (x : Cluster) (j : Nat) : (s.setCluster k x).ctx j = s.ctx j := rfl
@[simp] theorem State.ctx_setFront (s : State) (d k : Nat) (x : Front) (j : Nat) : (s.setFront d k x).ctx j = s.ctx j := rfl
@[simp] theorem State.ctx_setKey (s : State) (k : Nat) (x : KeySlot) (j : Nat) : (s.setKey k x).ctx j = s.ctx j := rfl
@[simp] theorem State.ctx_setPort (s : State) (p : Nat) (x : Port) (j : Nat) : (s.setPort p x).ctx j = s.ctx j := rfl
@[simp] theorem State.ctx_setDie (s : State) (d : Nat) (x : Die) (j : Nat) : (s.setDie d x).ctx j = s.ctx j := rfl
@[simp] theorem State.ctx_setMreg (s : State) (m : Nat) (x : MethodRegs) (j : Nat) : (s.setMreg m x).ctx j = s.ctx j := rfl
@[simp] theorem State.ctx_onCore (s : State) (r : Nat) (f : Core → Core) (j : Nat) : (s.onCore r f).ctx j = s.ctx j := rfl
@[simp] theorem State.ctx_count (s : State) (w n : Nat) (j : Nat) : (s.count w n).ctx j = s.ctx j := rfl
@[simp] theorem State.ctx_bumpLife (s : State) (w n : Nat) (j : Nat) : (s.bumpLife w n).ctx j = s.ctx j := rfl

@[simp] theorem State.part_setPart_self (s : State) (k : Nat) (x : Partition) : (s.setPart k x).part k = x := SMap.get_set_self _ _ _ _
theorem State.part_setPart_other (s : State) (k j : Nat) (x : Partition) (h : j ≠ k) : (s.setPart k x).part j = s.part j :=
  SMap.get_set_other _ _ _ _ _ h
@[simp] theorem State.part_setCore (s : State) (r : Nat) (x : Core) (j : Nat) : (s.setCore r x).part j = s.part j := rfl
@[simp] theorem State.part_setCtx (s : State) (k : Nat) (x : Context) (j : Nat) : (s.setCtx k x).part j = s.part j := rfl
@[simp] theorem State.part_setCluster (s : State) (k : Nat) (x : Cluster) (j : Nat) : (s.setCluster k x).part j = s.part j := rfl
@[simp] theorem State.part_setFront (s : State) (d k : Nat) (x : Front) (j : Nat) : (s.setFront d k x).part j = s.part j := rfl
@[simp] theorem State.part_setKey (s : State) (k : Nat) (x : KeySlot) (j : Nat) : (s.setKey k x).part j = s.part j := rfl
@[simp] theorem State.part_setPort (s : State) (p : Nat) (x : Port) (j : Nat) : (s.setPort p x).part j = s.part j := rfl
@[simp] theorem State.part_setDie (s : State) (d : Nat) (x : Die) (j : Nat) : (s.setDie d x).part j = s.part j := rfl
@[simp] theorem State.part_setMreg (s : State) (m : Nat) (x : MethodRegs) (j : Nat) : (s.setMreg m x).part j = s.part j := rfl
@[simp] theorem State.part_onCore (s : State) (r : Nat) (f : Core → Core) (j : Nat) : (s.onCore r f).part j = s.part j := rfl
@[simp] theorem State.part_onCtx (s : State) (k : Nat) (f : Context → Context) (j : Nat) : (s.onCtx k f).part j = s.part j := rfl
@[simp] theorem State.part_count (s : State) (w n : Nat) (j : Nat) : (s.count w n).part j = s.part j := rfl
@[simp] theorem State.part_bumpLife (s : State) (w n : Nat) (j : Nat) : (s.bumpLife w n).part j = s.part j := rfl

@[simp] theorem State.cluster_setCluster_self (s : State) (k : Nat) (x : Cluster) : (s.setCluster k x).cluster k = x := SMap.get_set_self _ _ _ _
theorem State.cluster_setCluster_other (s : State) (k j : Nat) (x : Cluster) (h : j ≠ k) : (s.setCluster k x).cluster j = s.cluster j :=
  SMap.get_set_other _ _ _ _ _ h
@[simp] theorem State.cluster_setCore (s : State) (r : Nat) (x : Core) (j : Nat) : (s.setCore r x).cluster j = s.cluster j := rfl
@[simp] theorem State.cluster_setCtx (s : State) (k : Nat) (x : Context) (j : Nat) : (s.setCtx k x).cluster j = s.cluster j := rfl
@[simp] theorem State.cluster_setPart (s : State) (p : Nat) (x : Partition) (j : Nat) : (s.setPart p x).cluster j = s.cluster j := rfl
@[simp] theorem State.cluster_setFront (s : State) (d k : Nat) (x : Front) (j : Nat) : (s.setFront d k x).cluster j = s.cluster j := rfl
@[simp] theorem State.cluster_setKey (s : State) (k : Nat) (x : KeySlot) (j : Nat) : (s.setKey k x).cluster j = s.cluster j := rfl
@[simp] theorem State.cluster_setPort (s : State) (p : Nat) (x : Port) (j : Nat) : (s.setPort p x).cluster j = s.cluster j := rfl
@[simp] theorem State.cluster_setDie (s : State) (d : Nat) (x : Die) (j : Nat) : (s.setDie d x).cluster j = s.cluster j := rfl
@[simp] theorem State.cluster_setMreg (s : State) (m : Nat) (x : MethodRegs) (j : Nat) : (s.setMreg m x).cluster j = s.cluster j := rfl
@[simp] theorem State.cluster_onCore (s : State) (r : Nat) (f : Core → Core) (j : Nat) : (s.onCore r f).cluster j = s.cluster j := rfl
@[simp] theorem State.cluster_onCtx (s : State) (k : Nat) (f : Context → Context) (j : Nat) : (s.onCtx k f).cluster j = s.cluster j := rfl
@[simp] theorem State.cluster_count (s : State) (w n : Nat) (j : Nat) : (s.count w n).cluster j = s.cluster j := rfl
@[simp] theorem State.cluster_bumpLife (s : State) (w n : Nat) (j : Nat) : (s.bumpLife w n).cluster j = s.cluster j := rfl

@[simp] theorem State.key_setKey_self (s : State) (k : Nat) (x : KeySlot) : (s.setKey k x).key k = x := SMap.get_set_self _ _ _ _
theorem State.key_setKey_other (s : State) (k j : Nat) (x : KeySlot) (h : j ≠ k) : (s.setKey k x).key j = s.key j :=
  SMap.get_set_other _ _ _ _ _ h
@[simp] theorem State.key_setCore (s : State) (r : Nat) (x : Core) (j : Nat) : (s.setCore r x).key j = s.key j := rfl
@[simp] theorem State.key_setCtx (s : State) (k : Nat) (x : Context) (j : Nat) : (s.setCtx k x).key j = s.key j := rfl
@[simp] theorem State.key_setPart (s : State) (p : Nat) (x : Partition) (j : Nat) : (s.setPart p x).key j = s.key j := rfl
@[simp] theorem State.key_setCluster (s : State) (k : Nat) (x : Cluster) (j : Nat) : (s.setCluster k x).key j = s.key j := rfl
@[simp] theorem State.key_setFront (s : State) (d k : Nat) (x : Front) (j : Nat) : (s.setFront d k x).key j = s.key j := rfl
@[simp] theorem State.key_setPort (s : State) (p : Nat) (x : Port) (j : Nat) : (s.setPort p x).key j = s.key j := rfl
@[simp] theorem State.key_setDie (s : State) (d : Nat) (x : Die) (j : Nat) : (s.setDie d x).key j = s.key j := rfl
@[simp] theorem State.key_setMreg (s : State) (m : Nat) (x : MethodRegs) (j : Nat) : (s.setMreg m x).key j = s.key j := rfl
@[simp] theorem State.key_onCore (s : State) (r : Nat) (f : Core → Core) (j : Nat) : (s.onCore r f).key j = s.key j := rfl
@[simp] theorem State.key_onCtx (s : State) (k : Nat) (f : Context → Context) (j : Nat) : (s.onCtx k f).key j = s.key j := rfl
@[simp] theorem State.key_count (s : State) (w n : Nat) (j : Nat) : (s.count w n).key j = s.key j := rfl
@[simp] theorem State.key_bumpLife (s : State) (w n : Nat) (j : Nat) : (s.bumpLife w n).key j = s.key j := rfl

@[simp] theorem State.port_setPort_self (s : State) (k : Nat) (x : Port) : (s.setPort k x).port k = x := SMap.get_set_self _ _ _ _
theorem State.port_setPort_other (s : State) (k j : Nat) (x : Port) (h : j ≠ k) : (s.setPort k x).port j = s.port j :=
  SMap.get_set_other _ _ _ _ _ h
@[simp] theorem State.port_setCore (s : State) (r : Nat) (x : Core) (j : Nat) : (s.setCore r x).port j = s.port j := rfl
@[simp] theorem State.port_setCtx (s : State) (k : Nat) (x : Context) (j : Nat) : (s.setCtx k x).port j = s.port j := rfl
@[simp] theorem State.port_setPart (s : State) (p : Nat) (x : Partition) (j : Nat) : (s.setPart p x).port j = s.port j := rfl
@[simp] theorem State.port_setCluster (s : State) (k : Nat) (x : Cluster) (j : Nat) : (s.setCluster k x).port j = s.port j := rfl
@[simp] theorem State.port_setFront (s : State) (d k : Nat) (x : Front) (j : Nat) : (s.setFront d k x).port j = s.port j := rfl
@[simp] theorem State.port_setKey (s : State) (k : Nat) (x : KeySlot) (j : Nat) : (s.setKey k x).port j = s.port j := rfl
@[simp] theorem State.port_setDie (s : State) (d : Nat) (x : Die) (j : Nat) : (s.setDie d x).port j = s.port j := rfl
@[simp] theorem State.port_setMreg (s : State) (m : Nat) (x : MethodRegs) (j : Nat) : (s.setMreg m x).port j = s.port j := rfl
@[simp] theorem State.port_onCore (s : State) (r : Nat) (f : Core → Core) (j : Nat) : (s.onCore r f).port j = s.port j := rfl
@[simp] theorem State.port_onCtx (s : State) (k : Nat) (f : Context → Context) (j : Nat) : (s.onCtx k f).port j = s.port j := rfl
@[simp] theorem State.port_count (s : State) (w n : Nat) (j : Nat) : (s.count w n).port j = s.port j := rfl
@[simp] theorem State.port_bumpLife (s : State) (w n : Nat) (j : Nat) : (s.bumpLife w n).port j = s.port j := rfl

@[simp] theorem State.die_setDie_self (s : State) (k : Nat) (x : Die) : (s.setDie k x).die k = x := SMap.get_set_self _ _ _ _
theorem State.die_setDie_other (s : State) (k j : Nat) (x : Die) (h : j ≠ k) : (s.setDie k x).die j = s.die j :=
  SMap.get_set_other _ _ _ _ _ h
@[simp] theorem State.die_setCore (s : State) (r : Nat) (x : Core) (j : Nat) : (s.setCore r x).die j = s.die j := rfl
@[simp] theorem State.die_setCtx (s : State) (k : Nat) (x : Context) (j : Nat) : (s.setCtx k x).die j = s.die j := rfl
@[simp] theorem State.die_setPart (s : State) (p : Nat) (x : Partition) (j : Nat) : (s.setPart p x).die j = s.die j := rfl
@[simp] theorem State.die_setCluster (s : State) (k : Nat) (x : Cluster) (j : Nat) : (s.setCluster k x).die j = s.die j := rfl
@[simp] theorem State.die_setFront (s : State) (d k : Nat) (x : Front) (j : Nat) : (s.setFront d k x).die j = s.die j := rfl
@[simp] theorem State.die_setKey (s : State) (k : Nat) (x : KeySlot) (j : Nat) : (s.setKey k x).die j = s.die j := rfl
@[simp] theorem State.die_setPort (s : State) (p : Nat) (x : Port) (j : Nat) : (s.setPort p x).die j = s.die j := rfl
@[simp] theorem State.die_setMreg (s : State) (m : Nat) (x : MethodRegs) (j : Nat) : (s.setMreg m x).die j = s.die j := rfl
@[simp] theorem State.die_onCore (s : State) (r : Nat) (f : Core → Core) (j : Nat) : (s.onCore r f).die j = s.die j := rfl
@[simp] theorem State.die_onCtx (s : State) (k : Nat) (f : Context → Context) (j : Nat) : (s.onCtx k f).die j = s.die j := rfl
@[simp] theorem State.die_count (s : State) (w n : Nat) (j : Nat) : (s.count w n).die j = s.die j := rfl
@[simp] theorem State.die_bumpLife (s : State) (w n : Nat) (j : Nat) : (s.bumpLife w n).die j = s.die j := rfl

@[simp] theorem State.mreg_setMreg_self (s : State) (k : Nat) (x : MethodRegs) : (s.setMreg k x).mreg k = x := SMap.get_set_self _ _ _ _
theorem State.mreg_setMreg_other (s : State) (k j : Nat) (x : MethodRegs) (h : j ≠ k) : (s.setMreg k x).mreg j = s.mreg j :=
  SMap.get_set_other _ _ _ _ _ h
@[simp] theorem State.mreg_setCore (s : State) (r : Nat) (x : Core) (j : Nat) : (s.setCore r x).mreg j = s.mreg j := rfl
@[simp] theorem State.mreg_setCtx (s : State) (k : Nat) (x : Context) (j : Nat) : (s.setCtx k x).mreg j = s.mreg j := rfl
@[simp] theorem State.mreg_setPart (s : State) (p : Nat) (x : Partition) (j : Nat) : (s.setPart p x).mreg j = s.mreg j := rfl
@[simp] theorem State.mreg_setCluster (s : State) (k : Nat) (x : Cluster) (j : Nat) : (s.setCluster k x).mreg j = s.mreg j := rfl
@[simp] theorem State.mreg_setFront (s : State) (d k : Nat) (x : Front) (j : Nat) : (s.setFront d k x).mreg j = s.mreg j := rfl
@[simp] theorem State.mreg_setKey (s : State) (k : Nat) (x : KeySlot) (j : Nat) : (s.setKey k x).mreg j = s.mreg j := rfl
@[simp] theorem State.mreg_setPort (s : State) (p : Nat) (x : Port) (j : Nat) : (s.setPort p x).mreg j = s.mreg j := rfl
@[simp] theorem State.mreg_setDie (s : State) (d : Nat) (x : Die) (j : Nat) : (s.setDie d x).mreg j = s.mreg j := rfl
@[simp] theorem State.mreg_onCore (s : State) (r : Nat) (f : Core → Core) (j : Nat) : (s.onCore r f).mreg j = s.mreg j := rfl
@[simp] theorem State.mreg_onCtx (s : State) (k : Nat) (f : Context → Context) (j : Nat) : (s.onCtx k f).mreg j = s.mreg j := rfl
@[simp] theorem State.mreg_count (s : State) (w n : Nat) (j : Nat) : (s.count w n).mreg j = s.mreg j := rfl
@[simp] theorem State.mreg_bumpLife (s : State) (w n : Nat) (j : Nat) : (s.bumpLife w n).mreg j = s.mreg j := rfl

@[simp] theorem State.core_onCore_self (s : State) (r : Nat) (f : Core → Core) : (s.onCore r f).core r = f (s.core r) :=
  SMap.get_set_self _ _ _ _
theorem State.core_onCore_other (s : State) (r j : Nat) (f : Core → Core) (h : j ≠ r) : (s.onCore r f).core j = s.core j :=
  SMap.get_set_other _ _ _ _ _ h
@[simp] theorem State.ctx_onCtx_self (s : State) (k : Nat) (f : Context → Context) : (s.onCtx k f).ctx k = f (s.ctx k) :=
  SMap.get_set_self _ _ _ _
theorem State.ctx_onCtx_other (s : State) (k j : Nat) (f : Context → Context) (h : j ≠ k) : (s.onCtx k f).ctx j = s.ctx j :=
  SMap.get_set_other _ _ _ _ _ h
theorem State.front_setFront_self (s : State) (d k : Nat) (x : Front) : (s.setFront d k x).front d k = x :=
  SMap.get_set_self _ _ _ _

/-- Nothing but the cores differs after an update of a core. -/
@[simp] theorem State.setCore_elsewhere (s : State) (r : Nat) (c : Core) : { s.setCore r c with cores := s.cores } = s := rfl
@[simp] theorem State.onCore_elsewhere (s : State) (r : Nat) (f : Core → Core) : { s.onCore r f with cores := s.cores } = s := rfl
@[simp] theorem State.onCtx_elsewhere (s : State) (k : Nat) (f : Context → Context) : { s.onCtx k f with ctxs := s.ctxs } = s := rfl

/-- The memories of the reset state are in canonical form. -/
theorem State.reset_hbm_wf : Memory.wf State.reset.hbm = true := rfl
theorem State.reset_host_wf : Memory.wf State.reset.host = true := rfl

end Sys2Proof.Machine
end

