-- ==== Sys2Proof/Laws/Issue.lean ====
section
/-!
SUPPORT. What the issue of a word can do when it issues as itself: the body runs on the state, an ALU-class word writes its lanes'
registers and nothing else, a variable-latency word sends its results on their way.
-/

namespace Sys2Proof.Machine

theorem mem_lanesOf {m : Word} {l : Nat} : l ∈ lanesOf m ↔ l < 32 ∧ m.getLsbD l = true := by
  simp [lanesOf]

theorem lanesOf_nodup (m : Word) : (lanesOf m).Nodup := List.Pairwise.filter _ List.nodup_range

theorem lanesOf_lt {m : Word} {l : Nat} (h : l ∈ lanesOf m) : l < 32 := (mem_lanesOf.1 h).1

@[simp] theorem lanesOf_zero : lanesOf 0 = [] := by decide

theorem filter_eq_nil_of {α : Type} (p : α → Bool) (l : List α) (h : ∀ a ∈ l, p a = false) : l.filter p = [] := by
  simp [List.filter_eq_nil_iff]; exact fun a ha => by simp [h a ha]

/-- A word that issues as itself runs its body on the state (R52, R166, R167). -/
theorem issue_of_issues {s : State} {i : Instr} {x : Iss} (h : Issues s i x) (body : Iss → State → State) :
    s.issue i body = body x s := by
  have hb : (lanesOf x.lanes).filter (fun l => guardAt (s.core x.core) x.base (hdrOf i).guard l == none) = [] :=
    filter_eq_nil_of _ _ fun l hl => beq_eq_false_iff_ne.2 (h.guards l hl)
  unfold State.issue
  rw [h.context]
  simp only [h.free, hb, maskOf, List.foldl_nil, if_true]

theorem Core.row_setRow (c : Core) (r l r' l' : Nat) (v : LWord) (h : l < 32) (h' : l' < 32) :
    (c.setRow r l v).row r' l' = if r' = r ∧ l' = l then v else c.row r' l' := by
  unfold Core.setRow Core.row
  rw [SMap.get_set]
  congr 1
  exact propext ⟨fun h => by omega, fun h => by omega⟩

/-- Everything of a core but its rows. -/
theorem Core.setRow_rest (c : Core) (r l : Nat) (v : LWord) (m : SMap LWord) :
    { c.setRow r l v with rows := m } = { c with rows := m } := rfl

theorem Core.row_setReg (c : Core) (base k l r' l' : Nat) (v : LWord) (h : l < 32) (h' : l' < 32) :
    (c.setReg base k l v).row r' l' =
      if k ≠ 0 ∧ r' = base + k ∧ l' = l then (if k = 1 then afterWrites.orBit0 v else v) else c.row r' l' := by
  unfold Core.setReg
  split
  · simp [*]
  · split
    · subst_vars
      rw [Core.row_setRow _ _ _ _ _ _ h h']
      simp [afterWrites.orBit0] <;> rfl
    · rw [Core.row_setRow _ _ _ _ _ _ h h']; simp [*]

theorem Core.setReg_rest (c : Core) (base k l : Nat) (v : LWord) (m : SMap LWord) :
    { c.setReg base k l v with rows := m } = { c with rows := m } := by
  unfold Core.setReg
  split
  · rfl
  · split <;> rfl

theorem Core.foldSetReg_rest (ws : List (Nat × LWord)) (c : Core) (base l : Nat) (m : SMap LWord) :
    { ws.foldl (fun c w => c.setReg base w.1 l w.2) c with rows := m } = { c with rows := m } := by
  induction ws generalizing c with
  | nil => rfl
  | cons w ws ih => rw [List.foldl_cons, ih, Core.setReg_rest]

theorem Core.row_foldSetReg (ws : List (Nat × LWord)) (c : Core) (base l r' l' : Nat) (h : l < 32) (h' : l' < 32) :
    (ws.foldl (fun c w => c.setReg base w.1 l w.2) c).row r' l' =
      if base < r' ∧ l' = l then
        ws.foldl (fun w r => if r.1 = r' - base then (if r' - base = 1 then afterWrites.orBit0 r.2 else r.2) else w) (c.row r' l')
      else c.row r' l' := by
  induction ws generalizing c with
  | nil => simp
  | cons w ws ih =>
    rw [List.foldl_cons, ih, Core.row_setReg _ _ _ _ _ _ _ h h']
    by_cases hb : base < r' ∧ l' = l
    · simp only [hb, and_self, if_true, List.foldl_cons]
      by_cases hw : w.1 = r' - base
      · have h1 : w.1 ≠ 0 ∧ r' = base + w.1 ∧ True := ⟨by omega, by omega, trivial⟩
        rw [if_pos (by simpa using h1), if_pos hw]
        simp only [hw]
      · rw [if_neg (by intro h; omega), if_neg hw]
    · rw [if_neg hb, if_neg hb, if_neg (by intro h; exact hb ⟨by omega, h.2.2⟩)]

/-- The rows after the writes of one lane (R166, R212). -/
theorem Core.row_applyLane (c : Core) (base l r' l' : Nat) (e : LaneEffect) (h : l < 32) (h' : l' < 32) :
    (c.applyLane base l e).row r' l' =
      if base < r' ∧ l' = l then afterWrites e (r' - base) (c.row r' l') else c.row r' l' := by
  obtain ⟨regs, bit, flags⟩ := e
  unfold Core.applyLane
  have hc := fun r' => Core.row_foldSetReg regs c base l r' l' h h'
  generalize regs.foldl (fun c w => c.setReg base w.1 l w.2) c = c1 at hc
  have hc1 : l' = l → c1.row (base + 1) l = regs.foldl (fun w r => if r.1 = 1 then afterWrites.orBit0 r.2 else w) (c.row (base + 1) l) := by
    intro e; subst e; rw [hc]; simp [Nat.add_sub_cancel_left]
  by_cases hb : base < r' ∧ l' = l
  · rw [if_pos hb]
    obtain ⟨hb1, rfl⟩ := hb
    by_cases hk : r' = base + 1
    · subst hk
      have hk1 : base + 1 - base = 1 := by omega
      rcases bit with _ | ⟨j, b⟩ <;> by_cases hf : flags = 0#5 <;>
        simp [afterWrites, hf, Core.row_setRow, h, hc1, hk1]
    · have hk1 : ¬ r' - base = 1 := by omega
      have hk0 : ¬ r' - base = 0 := by omega
      rcases bit with _ | ⟨j, b⟩ <;> by_cases hf : flags = 0#5 <;>
        simp [afterWrites, hf, Core.row_setRow, h, hk, hk1, hk0, hc, hb1]
  · rw [if_neg hb]
    have hk : ¬ (r' = base + 1 ∧ l' = l) := by omega
    rcases bit with _ | ⟨j, b⟩ <;> by_cases hf : flags = 0#5 <;>
      simp [hf, Core.row_setRow, h, h', hk, hc, hb]

theorem Core.applyLane_rest (c : Core) (base l : Nat) (e : LaneEffect) (m : SMap LWord) :
    { c.applyLane base l e with rows := m } = { c with rows := m } := by
  unfold Core.applyLane
  obtain ⟨regs, bit, flags⟩ := e
  have hr := Core.foldSetReg_rest regs c base l m
  rcases bit with _ | ⟨j, b⟩ <;> dsimp only <;> split <;> exact hr

/-- The rows after the writes of several lanes, each by its own effect. -/
theorem Core.row_applyLanes (f : Nat → LaneEffect) (ls : List Nat) (hn : ls.Nodup) (hl : ∀ l ∈ ls, l < 32) (c : Core)
    (base r' l' : Nat) (h' : l' < 32) :
    (ls.foldl (fun c i => c.applyLane base i (f i)) c).row r' l' =
      if base < r' ∧ l' ∈ ls then afterWrites (f l') (r' - base) (c.row r' l') else c.row r' l' := by
  induction ls generalizing c with
  | nil => simp
  | cons a ls ih =>
    rw [List.foldl_cons, ih (List.nodup_cons.1 hn).2 (fun l h => hl l (List.mem_cons_of_mem _ h)),
      Core.row_applyLane _ _ _ _ _ _ (hl a (List.mem_cons_self ..)) h']
    have ha := (List.nodup_cons.1 hn).1
    by_cases hb : base < r'
    · by_cases hm : l' ∈ ls
      · have : l' ≠ a := fun e => ha (e ▸ hm)
        simp [hb, hm, this]
      · by_cases he : l' = a
        · subst he; simp [hb, hm]
        · simp [hb, hm, he]
    · simp [hb]

theorem Core.applyLanes_rest (f : Nat → LaneEffect) (ls : List Nat) (c : Core) (base : Nat) (m : SMap LWord) :
    { ls.foldl (fun c i => c.applyLane base i (f i)) c with rows := m } = { c with rows := m } := by
  induction ls generalizing c with
  | nil => rfl
  | cons a ls ih => rw [List.foldl_cons, ih, Core.applyLane_rest]

/-! The completion of a word by its lanes (R278). -/

theorem Spindle.fibre_onFibre (sp : Spindle) (l l' : Nat) (f : Fibre → Fibre) :
    (sp.onFibre l f).fibre l' = if l' = l then (sp.fibre l').map f else sp.fibre l' := by
  unfold Spindle.onFibre
  split
  · rename_i x hx
    unfold Spindle.fibre at *
    by_cases h : l' = l
    · subst h; simp [SMap.find_put_self, hx]
    · simp [SMap.find_put_other _ _ _ _ h, h]
  · rename_i hx
    by_cases h : l' = l
    · subst h; simp [hx]
    · simp [h]

theorem Spindle.onFibre_rest (sp : Spindle) (l : Nat) (f : Fibre → Fibre) (m : SMap Fibre) :
    { sp.onFibre l f with fibres := m } = { sp with fibres := m } := by
  unfold Spindle.onFibre
  split <;> rfl

theorem Spindle.onFibre_loops (sp : Spindle) (l : Nat) (f : Fibre → Fibre) : (sp.onFibre l f).loops = sp.loops := by
  unfold Spindle.onFibre
  split <;> rfl

/-- One lane's completion moves its PC only; without loop records it stands after the word. -/
theorem Spindle.endProc_fibre (sp : Spindle) (l l' : Nat) (a : BitVec 64) (len : Nat) :
    ∃ p, (sp.endProc l a len).fibre l' = (if l' = l then (sp.fibre l').map fun f => { f with pc := p } else sp.fibre l') ∧
      (sp.loops = [] → p = a + BitVec.ofNat 64 (4 * len)) := by
  unfold Spindle.endProc
  split
  · rename_i h
    refine ⟨a + BitVec.ofNat 64 (4 * len), ?_, fun _ => rfl⟩
    by_cases hl : l' = l
    · subst hl; simp [h]
    · simp [hl]
  · rename_i f hf
    refine ⟨(endLoops l a f.base sp.loops).2.getD (a + BitVec.ofNat 64 (4 * len)), ?_, fun h => by simp [h, endLoops]⟩
    simp only [Spindle.fibre_onFibre]
    rfl

theorem Spindle.endProc_rest (sp : Spindle) (l : Nat) (a : BitVec 64) (len : Nat) (m : SMap Fibre) (ls : List LoopRec) :
    { sp.endProc l a len with fibres := m, loops := ls } = { sp with fibres := m, loops := ls } := by
  unfold Spindle.endProc
  split
  · rfl
  · unfold Spindle.onFibre
    simp only
    split <;> rfl

theorem Spindle.endProc_loops (sp : Spindle) (l : Nat) (a : BitVec 64) (len : Nat) (h : sp.loops = []) :
    (sp.endProc l a len).loops = [] := by
  unfold Spindle.endProc
  split
  · exact h
  · simp only [Spindle.onFibre_loops]; simp [h, endLoops]

/-- Several lanes complete a word. -/
theorem Spindle.endProcs (ls : List Nat) (hn : ls.Nodup) (len : Nat) (sp : Spindle) :
    let sp' := ls.foldl (fun sp i => sp.endProc i (sp.at_ i).1 len) sp
    (∀ m k, { sp' with fibres := m, loops := k } = { sp with fibres := m, loops := k }) ∧
    (∀ l, l ∉ ls → sp'.fibre l = sp.fibre l) ∧
    (∀ l f, l ∈ ls → sp.fibre l = some f →
      ∃ p, sp'.fibre l = some { f with pc := p } ∧ (sp.loops = [] → p = f.pc + BitVec.ofNat 64 (4 * len))) ∧
    (∀ l, sp.fibre l = none → sp'.fibre l = none) := by
  induction ls generalizing sp with
  | nil => exact ⟨fun _ _ => rfl, fun _ _ => rfl, fun l f h => absurd h (by simp), fun _ h => h⟩
  | cons a ls ih =>
    have hn' := List.nodup_cons.1 hn
    obtain ⟨h1, h2, h3, h4⟩ := ih hn'.2 (sp.endProc a (sp.at_ a).1 len)
    simp only [List.foldl_cons]
    have fib := fun l => Spindle.endProc_fibre sp a l (sp.at_ a).1 len
    refine ⟨fun m k => by rw [h1, Spindle.endProc_rest], fun l hl => ?_, fun l f hl hf => ?_, fun l hl => ?_⟩
    · simp only [List.mem_cons, not_or] at hl
      obtain ⟨p, hp, -⟩ := fib l
      rw [h2 l hl.2, hp, if_neg hl.1]
    · obtain ⟨p, hp, hq⟩ := fib l
      by_cases e : l = a
      · subst e
        refine ⟨p, ?_, fun h => ?_⟩
        · rw [h2 l hn'.1, hp, if_pos rfl, hf]; rfl
        · rw [hq h]; simp [Spindle.at_, hf]
      · have hm : l ∈ ls := by simpa [e] using hl
        rw [if_neg e, hf] at hp
        obtain ⟨q, hq1, hq2⟩ := h3 l f hm hp
        exact ⟨q, hq1, fun h => hq2 (Spindle.endProc_loops _ _ _ _ h)⟩
    · obtain ⟨p, hp, -⟩ := fib l
      refine h4 l ?_
      rw [hp, hl]; simp

theorem Spindle.regroup_fibre (sp : Spindle) (lanes : Word) (m c : Bool) (l : Nat) : (sp.regroup lanes m c).fibre l = sp.fibre l := rfl

/-- The lanes of a batch complete a word of some length and form their batches anew. -/
theorem Spindle.finish_goesOn (sp : Spindle) (lanes : Word) (len : Nat) (mark cur : Bool) :
    GoesOn lanes len sp (sp.finish lanes len mark cur) := by
  obtain ⟨h1, h2, h3, h4⟩ := Spindle.endProcs (lanesOf lanes) (lanesOf_nodup lanes) len sp
  exact ⟨congrArg (fun q : Spindle => { q with batches := sp.batches }) (h1 sp.fibres sp.loops), h2, fun l hl f hf => h3 l f hl hf, h4⟩

theorem Core.spindle_setSpindle (c : Core) (k j : Nat) (sp : Spindle) :
    (c.setSpindle k sp).spindle j = if j = k then some sp else c.spindle j := by
  unfold Core.setSpindle Core.spindle
  split
  · subst_vars; exact SMap.find_put_self _ _ _
  · exact SMap.find_put_other _ _ _ _ (by assumption)

/-- Where a word issues, its spindle stands in its slot. -/
theorem State.context_spindle {s : State} {h : Hdr} {x : Iss} (hx : s.context h = some x) :
    ∃ sp, (s.core x.core).spindle x.slot = some sp := by
  unfold State.context at hx
  dsimp only at hx
  split at hx
  · cases hx
  · split at hx
    · cases hx
    · rename_i sp hsp
      split at hx
      · cases hx
      · cases hx; exact ⟨sp, hsp⟩

/-- A change of a runner's own fields followed by the completion of the word has the frame of a word. -/
theorem OwnRunner.of_complete {s : State} {x : Iss} {keep : Core → Core → Core} {c : Core} {sp : Spindle}
    (hsp : (s.core x.core).spindle x.slot = some sp) (hc : c.spindles = (s.core x.core).spindles)
    (hk : ∀ m, { keep (s.core x.core) { c with spindles := m } with spindles := (s.core x.core).spindles } = s.core x.core) :
    OwnRunner x keep s ((s.setCore x.core c).complete x x.lanes) := by
  have hf : c.spindle x.slot = some sp := by unfold Core.spindle at *; rw [hc]; exact hsp
  have ht : ((s.setCore x.core c).complete x x.lanes).core x.core = c.setSpindle x.slot (sp.finish x.lanes x.len x.mark true) := by
    simp [State.complete, Core.onSpindle, hf]
  refine ⟨?_, fun r hr => ?_, ?_, fun k hk' => ?_, sp, _, hsp, ?_, Spindle.finish_goesOn sp x.lanes x.len x.mark true⟩
  · simp [State.complete, State.onCore]
  · simp only [State.complete]
    rw [State.core_onCore_other _ _ _ _ hr, State.core_setCore_other _ _ _ _ hr]
  · rw [ht]; exact hk _
  · rw [ht, Core.spindle_setSpindle, if_neg hk']; unfold Core.spindle; rw [hc]
  · rw [ht, Core.spindle_setSpindle, if_pos rfl]

theorem State.complete_row (s : State) (x : Iss) (lanes : Word) (c : Core) (r l : Nat) :
    (((s.setCore x.core c).complete x lanes).core x.core).row r l = c.row r l := by
  simp only [State.complete, State.core_onCore_self, State.core_setCore_self]
  unfold Core.onSpindle
  split <;> rfl

/-- An ALU-class word runs (R166, R174). -/
theorem aluWord_runs (i : Instr) (f : Core → Iss → Nat → LaneEffect) (s : State) (x : Iss) (h : Issues s i x) :
    ∃ t, aluWord i f s = .next t ∧ OwnRunner x (fun c c' => { c' with rows := c.rows }) s t ∧
      RowsAfter x (fun l k old => afterWrites (f (s.core x.core) x l) k old) (s.core x.core) (t.core x.core) := by
  obtain ⟨sp, hsp⟩ := State.context_spindle h.context
  refine ⟨_, rfl, ?_, ?_⟩
  · rw [issue_of_issues h]
    have hr := fun m => Core.applyLanes_rest (f (s.core x.core) x) (lanesOf x.gt) (s.core x.core) x.base m
    refine OwnRunner.of_complete (c := (lanesOf x.gt).foldl (fun c' i => c'.applyLane x.base i (f (s.core x.core) x i)) (s.core x.core)) hsp (by have := congrArg Core.spindles (hr []); exact this) fun m => ?_
    exact congrArg (fun c : Core => { c with spindles := (s.core x.core).spindles }) (hr (s.core x.core).rows)
  · rw [issue_of_issues h]
    intro row l hl
    unfold aluBody
    rw [State.complete_row, Core.row_applyLanes _ _ (lanesOf_nodup _) (fun _ => lanesOf_lt) _ _ _ _ hl]
    constructor
    · intro ha hb; rw [if_pos ⟨hb, ha⟩]
    · intro hn; rw [if_neg (fun h => hn ⟨h.2, h.1⟩)]

/-- The results that several lanes send (R174). -/
theorem Core.addResults (f : Nat → LaneEffect) (ls : List Nat) (x : Iss) (hz : Bool) (c : Core) :
    let c' := ls.foldl (fun c i => c.addResult x hz i (f i)) c
    (∀ r m, { c' with results := r, marks := m } = { c with results := r, marks := m }) ∧
    (hz = false → c'.marks = c.marks) ∧
    c'.results = c.results ++ ls.map fun l =>
      { fid := fidOf c x l, slot := x.slot, lane := l, words := ((f l).regs.filter fun w => w.1 != 0).map fun w => (x.base + w.1, w.2),
        v1row := x.base + 1, pd := (f l).bit, flags := (f l).flags, smp := none } := by
  induction ls generalizing c with
  | nil => exact ⟨fun _ _ => rfl, fun _ => rfl, by simp⟩
  | cons a ls ih =>
    obtain ⟨h1, h2, h3⟩ := ih (c.addResult x hz a (f a))
    simp only [List.foldl_cons]
    refine ⟨fun r m => by rw [h1]; rfl, fun h => by rw [h2 h]; simp [Core.addResult, h], ?_⟩
    rw [h3]
    simp [Core.addResult, fidOf, Core.spindle]

/-- A variable-latency word runs (R174, R176). -/
theorem varWord_runs (i : Instr) (f : Core → Iss → Nat → LaneEffect) (s : State) (x : Iss) (h : Issues s i x) :
    ∃ t, varWord i f s = .next t ∧
      OwnRunner x (fun c c' => { c' with results := c.results, marks := c.marks }) s t ∧
      ((s.ctx x.cx).hz = false → (t.core x.core).marks = (s.core x.core).marks) ∧
      (t.core x.core).results = (s.core x.core).results ++ (lanesOf x.gt).map fun l =>
        { fid := fidOf (s.core x.core) x l, slot := x.slot, lane := l,
          words := ((f (s.core x.core) x l).regs.filter fun w => w.1 != 0).map fun w => (x.base + w.1, w.2),
          v1row := x.base + 1, pd := (f (s.core x.core) x l).bit, flags := (f (s.core x.core) x l).flags, smp := none } := by
  obtain ⟨sp, hsp⟩ := State.context_spindle h.context
  have hh := Core.addResults (f (s.core x.core) x) (lanesOf x.gt) x (s.ctx x.cx).hz (s.core x.core)
  refine ⟨_, rfl, ?_⟩
  rw [issue_of_issues h]
  unfold varBody
  dsimp only at hh ⊢
  generalize (lanesOf x.gt).foldl (fun c i => c.addResult x (s.ctx x.cx).hz i (f (s.core x.core) x i)) (s.core x.core) = c at hh ⊢
  obtain ⟨h1, h2, h3⟩ := hh
  have hs : c.spindles = (s.core x.core).spindles := by have := congrArg Core.spindles (h1 [] []); exact this
  have hf : c.spindle x.slot = some sp := by unfold Core.spindle at *; rw [hs]; exact hsp
  have ht : ((s.setCore x.core c).complete x x.lanes).core x.core = c.setSpindle x.slot (sp.finish x.lanes x.len x.mark true) := by
    simp [State.complete, Core.onSpindle, hf]
  refine ⟨OwnRunner.of_complete hsp hs fun m => ?_, ?_, ?_⟩
  · exact congrArg (fun c : Core => { c with spindles := (s.core x.core).spindles }) (h1 (s.core x.core).results (s.core x.core).marks)
  · intro hz; rw [ht]; exact h2 hz
  · rw [ht]; exact h3

end Sys2Proof.Machine
end

