-- ==== Sys2Proof/Laws/Memory.lean ====
section
/-!
SUPPORT. What the memory words can do: the lanes' checks and what follows from them, and the operations that enter an issue queue.
-/

namespace Sys2Proof.Machine

theorem checkLanes_pass {α : Type} (s : State) (f : State → Nat → State × Except Failure α) (p : Nat → α) (ls : List Nat)
    (h : ∀ l ∈ ls, f s l = (s, .ok (p l))) : s.checkLanes f ls = (s, ls.map fun l => (l, .ok (p l))) := by
  induction ls with
  | nil => rfl
  | cons a ls ih =>
    simp only [State.checkLanes, h a (List.mem_cons_self ..), ih (fun l hl => h l (List.mem_cons_of_mem _ hl)), List.map_cons]

theorem failures_ok {α : Type} (p : Nat → α) (ls : List Nat) :
    failures (ls.map fun l => ((l, .ok (p l)) : Nat × Except Failure α)) = [] := by
  simp [failures, List.filterMap_map]

theorem passes_ok {α : Type} (p : Nat → α) (ls : List Nat) :
    passes (ls.map fun l => ((l, .ok (p l)) : Nat × Except Failure α)) = ls.map fun l => (l, p l) := by
  induction ls with
  | nil => rfl
  | cons a ls ih => simp [passes] at ih ⊢ <;> exact ih

/-- Where every lane passes in the same state, the lanes act and the batch goes on (R295). -/
theorem allOrTrap_pass {α : Type} (s : State) (x : Iss) (f : State → Nat → State × Except Failure α)
    (act : State → List (Nat × α) → State) (p : Nat → α) (h : ∀ l ∈ lanesOf x.gt, f s l = (s, .ok (p l))) :
    s.allOrTrap x f act = (act s ((lanesOf x.gt).map fun l => (l, p l))).complete x x.lanes := by
  unfold State.allOrTrap
  rw [checkLanes_pass s f p _ h]
  simp only [failures_ok, passes_ok]

/-- The entry that a lane's operation makes in its runner's issue queue. -/
def entryOf (c : Core) (x : Iss) (l : Nat) (k : OpKind) : MemOp :=
  { seen := false, counted := false, grp := c.issued.toNat, tick := x.tick, fid := fidOf c x l, slot := x.slot, lane := l, wg := x.wg, ctx := x.cx,
    kind := k }

/-- A core that differs from another in its issue queue and hazard marks alone: the queue longer by some entries, the marks the same
where no hazard checks are made. -/
structure Queued (hz : Bool) (c c' : Core) (es : List MemOp) : Prop where
  rest : ∀ q m, { c' with iq := q, marks := m } = { c with iq := q, marks := m }
  marks : hz = false → c'.marks = c.marks
  iq : c'.iq = c.iq ++ es

theorem Queued.refl (hz : Bool) (c : Core) : Queued hz c c [] := ⟨fun _ _ => rfl, fun _ => rfl, by simp⟩

theorem Queued.trans {hz : Bool} {a b c : Core} {es fs : List MemOp} (h : Queued hz a b es) (k : Queued hz b c fs) :
    Queued hz a c (es ++ fs) :=
  ⟨fun q m => by rw [k.rest, h.rest], fun z => by rw [k.marks z, h.marks z], by rw [k.iq, h.iq]; simp⟩

theorem Queued.spindles {hz : Bool} {a b : Core} {es : List MemOp} (h : Queued hz a b es) : b.spindles = a.spindles := by
  have := congrArg Core.spindles (h.rest [] []); exact this

theorem Queued.entryOf {hz : Bool} {a b : Core} {es : List MemOp} (h : Queued hz a b es) (x : Iss) (l : Nat) (k : OpKind) :
    entryOf b x l k = entryOf a x l k := by
  have h1 : b.issued = a.issued := by have := congrArg Core.issued (h.rest [] []); exact this
  have h2 : fidOf b x l = fidOf a x l := by unfold fidOf Core.spindle; rw [h.spindles]
  unfold Sys2Proof.Machine.entryOf
  rw [h1, h2]

theorem Core.enqueue_queued (hz : Bool) (c : Core) (x : Iss) (l : Nat) (k : OpKind) : Queued hz c (c.enqueue x l k) [entryOf c x l k] :=
  ⟨fun _ _ => rfl, fun _ => rfl, rfl⟩

theorem Core.markRow_queued (hz : Bool) (c : Core) (x : Iss) (l r : Nat) : Queued hz c (c.markRow x hz l r) [] := by
  unfold Core.markRow
  split
  · exact ⟨fun _ _ => rfl, fun h => by simp_all, by simp⟩
  · exact Queued.refl hz c

theorem Core.markRows_queued (hz : Bool) (x : Iss) (l : Nat) (g : Nat → Nat) (ks : List Nat) (c : Core) :
    Queued hz c (ks.foldl (fun c k => c.markRow x hz l (g k)) c) [] := by
  induction ks generalizing c with
  | nil => exact Queued.refl hz c
  | cons k ks ih => simpa using (Core.markRow_queued hz c x l (g k)).trans (ih _)

theorem Core.enqueueAcc_queued (hz : Bool) (c : Core) (x : Iss) (l : Nat) (ord : Order) (sc : Scope) (creg : BitVec 8) (d : Bool)
    (k : OpKind) : Queued hz c (c.enqueueAcc x l ord sc creg d k) ((ordered ord sc creg d k).map (entryOf c x l)) := by
  unfold Core.enqueueAcc ordered
  cases ord <;> exact ⟨fun _ _ => rfl, fun _ => rfl, by
    simp [Core.enqueue, entryOf, Order.releases, Order.acquires, fidOf, Core.spindle, Scope.wide] <;> cases sc <;> rfl⟩

/-- Lanes that each queue their operations. -/
theorem queued_fold (hz : Bool) (x : Iss) (kinds : Nat → List OpKind) (g : Core → Nat → Core) (ls : List Nat) (c : Core)
    (h : ∀ c l, l ∈ ls → Queued hz c (g c l) ((kinds l).map (entryOf c x l))) :
    Queued hz c (ls.foldl g c) (ls.flatMap fun l => (kinds l).map (entryOf c x l)) := by
  induction ls generalizing c with
  | nil => exact Queued.refl hz c
  | cons a ls ih =>
    have h1 := h c a (List.mem_cons_self ..)
    have h2 := ih (g c a) (fun c l hl => h c l (List.mem_cons_of_mem _ hl))
    have he : ∀ l, (kinds l).map (entryOf (g c a) x l) = (kinds l).map (entryOf c x l) := fun l =>
      List.map_congr_left fun k _ => h1.entryOf x l k
    simp only [he] at h2
    simpa using h1.trans h2

/-- A word whose lanes pass and queue their operations enters the issue queue (R74, R295). -/
theorem enqueues_of {i : Instr} {s : State} {x : Iss} {kinds : Nat → List OpKind} (h : Issues s i x) (c : Core)
    (he : exec i s = .next ((s.setCore x.core c).complete x x.lanes))
    (hq : Queued (s.ctx x.cx).hz (s.core x.core) c ((lanesOf x.gt).flatMap fun l => (kinds l).map (entryOf (s.core x.core) x l))) :
    Enqueues i s x kinds := by
  obtain ⟨sp, hsp⟩ := State.context_spindle h.context
  have hf : c.spindle x.slot = some sp := by unfold Core.spindle at *; rw [hq.spindles]; exact hsp
  have ht : ((s.setCore x.core c).complete x x.lanes).core x.core = c.setSpindle x.slot (sp.finish x.lanes x.len x.mark true) := by
    simp [State.complete, Core.onSpindle, hf]
  refine ⟨_, he, OwnRunner.of_complete hsp hq.spindles fun m => ?_, fun z => ?_, ?_⟩
  · exact congrArg (fun c : Core => { c with spindles := (s.core x.core).spindles }) (hq.rest (s.core x.core).iq (s.core x.core).marks)
  · rw [ht]; exact hq.marks z
  · rw [ht]; exact hq.iq

end Sys2Proof.Machine
end

