-- ==== Sys2Proof/Laws/Numbers.lean ====
section
/-!
SUPPORT. The model's readings and writings of integers are those of the statements (R211, R234).
-/

namespace Sys2Proof.Machine

theorem tyBits_pos (t : Ty) : 0 < tyBits t := by cases t <;> decide

theorem sextInt_eq (n x : Nat) (hn : 0 < n) : sextInt n x = (BitVec.ofNat n x).toInt := by
  unfold sextInt
  rw [BitVec.toInt_eq_toNat_cond]
  simp only [BitVec.toNat_ofNat]
  obtain ⟨k, rfl⟩ : ∃ k, n = k + 1 := ⟨n - 1, by omega⟩
  have hp : 2 ^ (k + 1) = 2 * 2 ^ k := by rw [Nat.pow_succ]; omega
  simp only [Nat.add_sub_cancel]
  generalize x % 2 ^ (k + 1) = y
  by_cases h : y < 2 ^ k
  · rw [if_pos h, if_pos (by omega)]
  · rw [if_neg h, if_neg (by omega)]

theorem intSrc_eq (t : Ty) (x : Nat) :
    intSrc t x = if tySigned t then (BitVec.ofNat (tyBits t) x).toInt else ((BitVec.ofNat (tyBits t) x).toNat : Int) := by
  unfold intSrc
  rw [sextInt_eq _ _ (tyBits_pos t)]
  simp

theorem wsrc_eq_readAs (t : Ty) (v : Word) : wsrc t v = readAs t v := by
  unfold wsrc readAs
  rw [intSrc_eq]
  have : BitVec.ofNat (tyBits t) v.toNat = v.setWidth (tyBits t) := by
    apply BitVec.eq_of_toNat_eq; simp
  rw [this]

theorem wlow_eq (t : Ty) (v : Word) : wlow t v = (v.setWidth (tyBits t)).toNat := by
  unfold wlow; simp

/-- An integer taken mod 2^n as a number is the bit vector of it. -/
theorem modPow_eq (n : Nat) (v : Int) : modPow n v = (BitVec.ofInt n v).toNat := by
  unfold modPow; simp [BitVec.toNat_ofInt]

theorem intClamp_eq (t : Ty) (v : Int) : intClamp t v =
    if tySigned t then min (max v (-2 ^ (tyBits t - 1))) (2 ^ (tyBits t - 1) - 1) else min (max v 0) (2 ^ tyBits t - 1) := by
  unfold intClamp intLo intHi
  split <;> simp

theorem intRes_eq_writeAs (t : Ty) (sat : Bool) (v : Int) : intRes t sat v = writeAs t sat v := by
  unfold intRes writeAs
  simp only [intSrc_eq, modPow_eq, BitVec.ofNat_toNat, BitVec.setWidth_eq, intClamp_eq]
  split
  · rfl
  · rw [BitVec.ofInt_natCast]; apply BitVec.eq_of_toNat_eq; simp

theorem intRes64_eq_writeAs64 (t : Ty) (sat : Bool) (v : Int) : intRes64 (ty64 t) sat v = writeAs64 t sat v := by
  unfold intRes64 writeAs64 ty64 intClamp intLo intHi
  cases tySigned t <;> simp [tySigned, tyBits]

theorem dsrc_eq_readAs64 (t : Ty) (v : DWord) : dsrc t v = readAs64 t v := by
  unfold dsrc readAs64 ty64
  rw [intSrc_eq]
  cases tySigned t <;> simp [tySigned, tyBits]

end Sys2Proof.Machine
end

