-- ==== Sys2Proof/Laws/PerInstr.lean ====
section
/-!
SUPPORT. What holds of each instruction as syntax: the fields of an instruction word name it again (spec/08_encoding.md R158 to
R184); an event has no fields.
-/

namespace Sys2Proof

/-- The fields of a word whose constructor agrees with them are read as that word. -/
def Laws.Encoding.Statement (i : Instr) : Prop := i.ctorOk = true → ∀ v, i.view = some v → v.toInstr = some i

/-- An instruction whose fields are read as itself satisfies the family's statement. -/
theorem Laws.Encoding.of_view {i : Instr} {v : View} (h : i.view = some v) (k : i.ctorOk = true → v.toInstr = some i) :
    Laws.Encoding.Statement i := by
  intro c w hw
  rw [h] at hw
  cases hw
  exact k c

/-- An event has no fields. -/
theorem Laws.Encoding.of_event {i : Instr} (h : i.view = none) : Laws.Encoding.Statement i := by
  intro _ v hv
  rw [h] at hv
  cases hv

theorem Laws.Encoding.nop (h : Hdr) (o : Opnds) : Laws.Encoding.Statement (.nop h o) :=
  Laws.Encoding.of_view rfl fun _ => rfl

theorem Laws.Encoding.add (h : Hdr) (o : Opnds) (m : IMods) : Laws.Encoding.Statement (.add h o m) :=
  Laws.Encoding.of_view rfl fun _ => rfl

theorem Laws.Encoding.addAddc (h : Hdr) (o : Opnds) (m : IMods) : Laws.Encoding.Statement (.addAddc h o m) :=
  Laws.Encoding.of_view rfl fun _ => rfl

theorem Laws.Encoding.addAdd3 (h : Hdr) (o : Opnds) (m : IMods) : Laws.Encoding.Statement (.addAdd3 h o m) :=
  Laws.Encoding.of_view rfl fun _ => rfl

theorem Laws.Encoding.sub (h : Hdr) (o : Opnds) (m : IMods) : Laws.Encoding.Statement (.sub h o m) :=
  Laws.Encoding.of_view rfl fun _ => rfl

theorem Laws.Encoding.subSubb (h : Hdr) (o : Opnds) (m : IMods) : Laws.Encoding.Statement (.subSubb h o m) :=
  Laws.Encoding.of_view rfl fun _ => rfl

theorem Laws.Encoding.subRsub (h : Hdr) (o : Opnds) (m : IMods) : Laws.Encoding.Statement (.subRsub h o m) :=
  Laws.Encoding.of_view rfl fun _ => rfl

theorem Laws.Encoding.mulLo (h : Hdr) (o : Opnds) (m : IMods) : Laws.Encoding.Statement (.mulLo h o m) :=
  Laws.Encoding.of_view rfl fun _ => rfl

theorem Laws.Encoding.mulHi (h : Hdr) (o : Opnds) (m : IMods) : Laws.Encoding.Statement (.mulHi h o m) :=
  Laws.Encoding.of_view rfl fun _ => rfl

theorem Laws.Encoding.madLo (h : Hdr) (o : Opnds) (m : IMods) : Laws.Encoding.Statement (.madLo h o m) :=
  Laws.Encoding.of_view rfl fun _ => rfl

theorem Laws.Encoding.madHi (h : Hdr) (o : Opnds) (m : IMods) : Laws.Encoding.Statement (.madHi h o m) :=
  Laws.Encoding.of_view rfl fun _ => rfl

theorem Laws.Encoding.madWide (h : Hdr) (o : Opnds) (m : IMods) : Laws.Encoding.Statement (.madWide h o m) :=
  Laws.Encoding.of_view rfl fun _ => rfl

theorem Laws.Encoding.minI (h : Hdr) (o : Opnds) (m : IMods) : Laws.Encoding.Statement (.minI h o m) :=
  Laws.Encoding.of_view rfl fun _ => rfl

theorem Laws.Encoding.maxI (h : Hdr) (o : Opnds) (m : IMods) : Laws.Encoding.Statement (.maxI h o m) :=
  Laws.Encoding.of_view rfl fun _ => rfl

theorem Laws.Encoding.sad (h : Hdr) (o : Opnds) (m : IMods) : Laws.Encoding.Statement (.sad h o m) :=
  Laws.Encoding.of_view rfl fun _ => rfl

theorem Laws.Encoding.andI (h : Hdr) (o : Opnds) (m : IMods) : Laws.Encoding.Statement (.andI h o m) :=
  Laws.Encoding.of_view rfl fun _ => rfl

theorem Laws.Encoding.orI (h : Hdr) (o : Opnds) (m : IMods) : Laws.Encoding.Statement (.orI h o m) :=
  Laws.Encoding.of_view rfl fun _ => rfl

theorem Laws.Encoding.xorI (h : Hdr) (o : Opnds) (m : IMods) : Laws.Encoding.Statement (.xorI h o m) :=
  Laws.Encoding.of_view rfl fun _ => rfl

theorem Laws.Encoding.andn (h : Hdr) (o : Opnds) (m : IMods) : Laws.Encoding.Statement (.andn h o m) :=
  Laws.Encoding.of_view rfl fun _ => rfl

theorem Laws.Encoding.lop3 (h : Hdr) (o : Opnds) (m : IMods) : Laws.Encoding.Statement (.lop3 h o m) :=
  Laws.Encoding.of_view rfl fun _ => rfl

theorem Laws.Encoding.shl (h : Hdr) (o : Opnds) (m : IMods) : Laws.Encoding.Statement (.shl h o m) :=
  Laws.Encoding.of_view rfl fun _ => rfl

theorem Laws.Encoding.shr (h : Hdr) (o : Opnds) (m : IMods) : Laws.Encoding.Statement (.shr h o m) :=
  Laws.Encoding.of_view rfl fun _ => rfl

theorem Laws.Encoding.sar (h : Hdr) (o : Opnds) (m : IMods) : Laws.Encoding.Statement (.sar h o m) :=
  Laws.Encoding.of_view rfl fun _ => rfl

theorem Laws.Encoding.rot (h : Hdr) (o : Opnds) (m : IMods) : Laws.Encoding.Statement (.rot h o m) :=
  Laws.Encoding.of_view rfl fun _ => rfl

theorem Laws.Encoding.shf (h : Hdr) (o : Opnds) (m : IMods) : Laws.Encoding.Statement (.shf h o m) :=
  Laws.Encoding.of_view rfl fun _ => rfl

theorem Laws.Encoding.bfx (h : Hdr) (o : Opnds) (m : IMods) : Laws.Encoding.Statement (.bfx h o m) :=
  Laws.Encoding.of_view rfl fun _ => rfl

theorem Laws.Encoding.bfi (h : Hdr) (o : Opnds) (m : IMods) : Laws.Encoding.Statement (.bfi h o m) :=
  Laws.Encoding.of_view rfl fun _ => rfl

theorem Laws.Encoding.bcntPop (h : Hdr) (o : Opnds) (m : IMods) : Laws.Encoding.Statement (.bcntPop h o m) :=
  Laws.Encoding.of_view rfl fun _ => rfl

theorem Laws.Encoding.bcntClz (h : Hdr) (o : Opnds) (m : IMods) : Laws.Encoding.Statement (.bcntClz h o m) :=
  Laws.Encoding.of_view rfl fun _ => rfl

theorem Laws.Encoding.bcntCtz (h : Hdr) (o : Opnds) (m : IMods) : Laws.Encoding.Statement (.bcntCtz h o m) :=
  Laws.Encoding.of_view rfl fun _ => rfl

theorem Laws.Encoding.bcntBrev (h : Hdr) (o : Opnds) (m : IMods) : Laws.Encoding.Statement (.bcntBrev h o m) :=
  Laws.Encoding.of_view rfl fun _ => rfl

theorem Laws.Encoding.bcntIsp (h : Hdr) (o : Opnds) (m : IMods) : Laws.Encoding.Statement (.bcntIsp h o m) :=
  Laws.Encoding.of_view rfl fun _ => rfl

theorem Laws.Encoding.perm (h : Hdr) (o : Opnds) (m : IMods) : Laws.Encoding.Statement (.perm h o m) :=
  Laws.Encoding.of_view rfl fun _ => rfl

theorem Laws.Encoding.cmp (h : Hdr) (o : Opnds) (m : IMods) : Laws.Encoding.Statement (.cmp h o m) :=
  Laws.Encoding.of_view rfl fun _ => rfl

theorem Laws.Encoding.sel (h : Hdr) (o : Opnds) (m : IMods) : Laws.Encoding.Statement (.sel h o m) :=
  Laws.Encoding.of_view rfl fun _ => rfl

theorem Laws.Encoding.mov (h : Hdr) (o : Opnds) (m : IMods) : Laws.Encoding.Statement (.mov h o m) :=
  Laws.Encoding.of_view rfl fun _ => rfl

theorem Laws.Encoding.ldi (h : Hdr) (o : Opnds) (m : IMods) : Laws.Encoding.Statement (.ldi h o m) :=
  Laws.Encoding.of_view rfl fun _ => rfl

theorem Laws.Encoding.add64 (h : Hdr) (o : Opnds) (m : IMods) : Laws.Encoding.Statement (.add64 h o m) :=
  Laws.Encoding.of_view rfl fun _ => rfl

theorem Laws.Encoding.add64Sub (h : Hdr) (o : Opnds) (m : IMods) : Laws.Encoding.Statement (.add64Sub h o m) :=
  Laws.Encoding.of_view rfl fun _ => rfl

theorem Laws.Encoding.add64Neg (h : Hdr) (o : Opnds) (m : IMods) : Laws.Encoding.Statement (.add64Neg h o m) :=
  Laws.Encoding.of_view rfl fun _ => rfl

theorem Laws.Encoding.mul64 (h : Hdr) (o : Opnds) (m : IMods) : Laws.Encoding.Statement (.mul64 h o m) :=
  Laws.Encoding.of_view rfl fun _ => rfl

theorem Laws.Encoding.sh64Shl (h : Hdr) (o : Opnds) (m : IMods) : Laws.Encoding.Statement (.sh64Shl h o m) :=
  Laws.Encoding.of_view rfl fun _ => rfl

theorem Laws.Encoding.sh64Shr (h : Hdr) (o : Opnds) (m : IMods) : Laws.Encoding.Statement (.sh64Shr h o m) :=
  Laws.Encoding.of_view rfl fun _ => rfl

theorem Laws.Encoding.sh64Sar (h : Hdr) (o : Opnds) (m : IMods) : Laws.Encoding.Statement (.sh64Sar h o m) :=
  Laws.Encoding.of_view rfl fun _ => rfl

theorem Laws.Encoding.cmp64 (h : Hdr) (o : Opnds) (m : IMods) : Laws.Encoding.Statement (.cmp64 h o m) :=
  Laws.Encoding.of_view rfl fun _ => rfl

theorem Laws.Encoding.dp4 (h : Hdr) (o : Opnds) (m : IMods) : Laws.Encoding.Statement (.dp4 h o m) :=
  Laws.Encoding.of_view rfl fun _ => rfl

theorem Laws.Encoding.dp4Dp2 (h : Hdr) (o : Opnds) (m : IMods) : Laws.Encoding.Statement (.dp4Dp2 h o m) :=
  Laws.Encoding.of_view rfl fun _ => rfl

theorem Laws.Encoding.clamp (h : Hdr) (o : Opnds) (m : IMods) : Laws.Encoding.Statement (.clamp h o m) :=
  Laws.Encoding.of_view rfl fun _ => rfl

theorem Laws.Encoding.fadd (h : Hdr) (o : Opnds) (m : FMods) : Laws.Encoding.Statement (.fadd h o m) :=
  Laws.Encoding.of_view rfl fun _ => rfl

theorem Laws.Encoding.fmul (h : Hdr) (o : Opnds) (m : FMods) : Laws.Encoding.Statement (.fmul h o m) :=
  Laws.Encoding.of_view rfl fun _ => rfl

theorem Laws.Encoding.ffma (h : Hdr) (o : Opnds) (m : FMods) : Laws.Encoding.Statement (.ffma h o m) :=
  Laws.Encoding.of_view rfl fun _ => rfl

theorem Laws.Encoding.fminMin (h : Hdr) (o : Opnds) (m : FMods) : Laws.Encoding.Statement (.fminMin h o m) :=
  Laws.Encoding.of_view rfl fun _ => rfl

theorem Laws.Encoding.fminMax (h : Hdr) (o : Opnds) (m : FMods) : Laws.Encoding.Statement (.fminMax h o m) :=
  Laws.Encoding.of_view rfl fun _ => rfl

theorem Laws.Encoding.fminMinnum (h : Hdr) (o : Opnds) (m : FMods) : Laws.Encoding.Statement (.fminMinnum h o m) :=
  Laws.Encoding.of_view rfl fun _ => rfl

theorem Laws.Encoding.fminMaxnum (h : Hdr) (o : Opnds) (m : FMods) : Laws.Encoding.Statement (.fminMaxnum h o m) :=
  Laws.Encoding.of_view rfl fun _ => rfl

theorem Laws.Encoding.fcmp (h : Hdr) (o : Opnds) (m : IMods) : Laws.Encoding.Statement (.fcmp h o m) :=
  Laws.Encoding.of_view rfl fun _ => rfl

theorem Laws.Encoding.frnd (h : Hdr) (o : Opnds) (m : FMods) : Laws.Encoding.Statement (.frnd h o m) :=
  Laws.Encoding.of_view rfl fun _ => rfl

theorem Laws.Encoding.fcvt (h : Hdr) (o : Opnds) (m : TMods) : Laws.Encoding.Statement (.fcvt h o m) :=
  Laws.Encoding.of_view rfl fun _ => rfl

theorem Laws.Encoding.fclass (h : Hdr) (o : Opnds) (m : FMods) : Laws.Encoding.Statement (.fclass h o m) :=
  Laws.Encoding.of_view rfl fun _ => rfl

theorem Laws.Encoding.fscale (h : Hdr) (o : Opnds) (m : FMods) : Laws.Encoding.Statement (.fscale h o m) :=
  Laws.Encoding.of_view rfl fun _ => rfl

theorem Laws.Encoding.fxtr (h : Hdr) (o : Opnds) (m : FMods) : Laws.Encoding.Statement (.fxtr h o m) :=
  Laws.Encoding.of_view rfl fun _ => rfl

theorem Laws.Encoding.hadd2 (h : Hdr) (o : Opnds) (m : FMods) : Laws.Encoding.Statement (.hadd2 h o m) :=
  Laws.Encoding.of_view rfl fun _ => rfl

theorem Laws.Encoding.hmul2 (h : Hdr) (o : Opnds) (m : FMods) : Laws.Encoding.Statement (.hmul2 h o m) :=
  Laws.Encoding.of_view rfl fun _ => rfl

theorem Laws.Encoding.hfma2 (h : Hdr) (o : Opnds) (m : FMods) : Laws.Encoding.Statement (.hfma2 h o m) :=
  Laws.Encoding.of_view rfl fun _ => rfl

theorem Laws.Encoding.hmin2 (h : Hdr) (o : Opnds) (m : FMods) : Laws.Encoding.Statement (.hmin2 h o m) :=
  Laws.Encoding.of_view rfl fun _ => rfl

theorem Laws.Encoding.dadd (h : Hdr) (o : Opnds) (m : FMods) : Laws.Encoding.Statement (.dadd h o m) :=
  Laws.Encoding.of_view rfl fun _ => rfl

theorem Laws.Encoding.dmul (h : Hdr) (o : Opnds) (m : FMods) : Laws.Encoding.Statement (.dmul h o m) :=
  Laws.Encoding.of_view rfl fun _ => rfl

theorem Laws.Encoding.dfma (h : Hdr) (o : Opnds) (m : FMods) : Laws.Encoding.Statement (.dfma h o m) :=
  Laws.Encoding.of_view rfl fun _ => rfl

theorem Laws.Encoding.dmin (h : Hdr) (o : Opnds) (m : FMods) : Laws.Encoding.Statement (.dmin h o m) :=
  Laws.Encoding.of_view rfl fun _ => rfl

theorem Laws.Encoding.dcmp (h : Hdr) (o : Opnds) (m : IMods) : Laws.Encoding.Statement (.dcmp h o m) :=
  Laws.Encoding.of_view rfl fun _ => rfl

theorem Laws.Encoding.dcvt (h : Hdr) (o : Opnds) (m : TMods) : Laws.Encoding.Statement (.dcvt h o m) :=
  Laws.Encoding.of_view rfl fun _ => rfl

theorem Laws.Encoding.drnd (h : Hdr) (o : Opnds) (m : FMods) : Laws.Encoding.Statement (.drnd h o m) :=
  Laws.Encoding.of_view rfl fun _ => rfl

theorem Laws.Encoding.sfuRcp (h : Hdr) (o : Opnds) (m : FMods) : Laws.Encoding.Statement (.sfuRcp h o m) :=
  Laws.Encoding.of_view rfl fun _ => rfl

theorem Laws.Encoding.sfuRsq (h : Hdr) (o : Opnds) (m : FMods) : Laws.Encoding.Statement (.sfuRsq h o m) :=
  Laws.Encoding.of_view rfl fun _ => rfl

theorem Laws.Encoding.sfuSqrt (h : Hdr) (o : Opnds) (m : FMods) : Laws.Encoding.Statement (.sfuSqrt h o m) :=
  Laws.Encoding.of_view rfl fun _ => rfl

theorem Laws.Encoding.sfuEx2 (h : Hdr) (o : Opnds) (m : FMods) : Laws.Encoding.Statement (.sfuEx2 h o m) :=
  Laws.Encoding.of_view rfl fun _ => rfl

theorem Laws.Encoding.sfuLg2 (h : Hdr) (o : Opnds) (m : FMods) : Laws.Encoding.Statement (.sfuLg2 h o m) :=
  Laws.Encoding.of_view rfl fun _ => rfl

theorem Laws.Encoding.sfuSinpi (h : Hdr) (o : Opnds) (m : FMods) : Laws.Encoding.Statement (.sfuSinpi h o m) :=
  Laws.Encoding.of_view rfl fun _ => rfl

theorem Laws.Encoding.sfuCospi (h : Hdr) (o : Opnds) (m : FMods) : Laws.Encoding.Statement (.sfuCospi h o m) :=
  Laws.Encoding.of_view rfl fun _ => rfl

theorem Laws.Encoding.sfuTanh (h : Hdr) (o : Opnds) (m : FMods) : Laws.Encoding.Statement (.sfuTanh h o m) :=
  Laws.Encoding.of_view rfl fun _ => rfl

theorem Laws.Encoding.shflLane (h : Hdr) (o : Opnds) (m : IMods) : Laws.Encoding.Statement (.shflLane h o m) :=
  Laws.Encoding.of_view rfl fun _ => rfl

theorem Laws.Encoding.shflBack (h : Hdr) (o : Opnds) (m : IMods) : Laws.Encoding.Statement (.shflBack h o m) :=
  Laws.Encoding.of_view rfl fun _ => rfl

theorem Laws.Encoding.shflFwd (h : Hdr) (o : Opnds) (m : IMods) : Laws.Encoding.Statement (.shflFwd h o m) :=
  Laws.Encoding.of_view rfl fun _ => rfl

theorem Laws.Encoding.shflFlip (h : Hdr) (o : Opnds) (m : IMods) : Laws.Encoding.Statement (.shflFlip h o m) :=
  Laws.Encoding.of_view rfl fun _ => rfl

theorem Laws.Encoding.voteAll (h : Hdr) (o : Opnds) (m : IMods) : Laws.Encoding.Statement (.voteAll h o m) :=
  Laws.Encoding.of_view rfl fun _ => rfl

theorem Laws.Encoding.voteAny (h : Hdr) (o : Opnds) (m : IMods) : Laws.Encoding.Statement (.voteAny h o m) :=
  Laws.Encoding.of_view rfl fun _ => rfl

theorem Laws.Encoding.voteBallot (h : Hdr) (o : Opnds) (m : IMods) : Laws.Encoding.Statement (.voteBallot h o m) :=
  Laws.Encoding.of_view rfl fun _ => rfl

theorem Laws.Encoding.voteUni (h : Hdr) (o : Opnds) (m : IMods) : Laws.Encoding.Statement (.voteUni h o m) :=
  Laws.Encoding.of_view rfl fun _ => rfl

theorem Laws.Encoding.matchAny (h : Hdr) (o : Opnds) (m : IMods) : Laws.Encoding.Statement (.matchAny h o m) :=
  Laws.Encoding.of_view rfl fun _ => rfl

theorem Laws.Encoding.matchAll (h : Hdr) (o : Opnds) (m : IMods) : Laws.Encoding.Statement (.matchAll h o m) :=
  Laws.Encoding.of_view rfl fun _ => rfl

theorem Laws.Encoding.reduxAdd (h : Hdr) (o : Opnds) (m : IMods) : Laws.Encoding.Statement (.reduxAdd h o m) :=
  Laws.Encoding.of_view rfl fun _ => rfl

theorem Laws.Encoding.reduxMin (h : Hdr) (o : Opnds) (m : IMods) : Laws.Encoding.Statement (.reduxMin h o m) :=
  Laws.Encoding.of_view rfl fun _ => rfl

theorem Laws.Encoding.reduxMax (h : Hdr) (o : Opnds) (m : IMods) : Laws.Encoding.Statement (.reduxMax h o m) :=
  Laws.Encoding.of_view rfl fun _ => rfl

theorem Laws.Encoding.reduxAnd (h : Hdr) (o : Opnds) (m : IMods) : Laws.Encoding.Statement (.reduxAnd h o m) :=
  Laws.Encoding.of_view rfl fun _ => rfl

theorem Laws.Encoding.reduxOr (h : Hdr) (o : Opnds) (m : IMods) : Laws.Encoding.Statement (.reduxOr h o m) :=
  Laws.Encoding.of_view rfl fun _ => rfl

theorem Laws.Encoding.reduxXor (h : Hdr) (o : Opnds) (m : IMods) : Laws.Encoding.Statement (.reduxXor h o m) :=
  Laws.Encoding.of_view rfl fun _ => rfl

theorem Laws.Encoding.scanInclAdd (h : Hdr) (o : Opnds) (m : IMods) : Laws.Encoding.Statement (.scanInclAdd h o m) :=
  Laws.Encoding.of_view rfl fun _ => rfl

theorem Laws.Encoding.scanInclMin (h : Hdr) (o : Opnds) (m : IMods) : Laws.Encoding.Statement (.scanInclMin h o m) :=
  Laws.Encoding.of_view rfl fun _ => rfl

theorem Laws.Encoding.scanInclMax (h : Hdr) (o : Opnds) (m : IMods) : Laws.Encoding.Statement (.scanInclMax h o m) :=
  Laws.Encoding.of_view rfl fun _ => rfl

theorem Laws.Encoding.scanExclAdd (h : Hdr) (o : Opnds) (m : IMods) : Laws.Encoding.Statement (.scanExclAdd h o m) :=
  Laws.Encoding.of_view rfl fun _ => rfl

theorem Laws.Encoding.scanExclMin (h : Hdr) (o : Opnds) (m : IMods) : Laws.Encoding.Statement (.scanExclMin h o m) :=
  Laws.Encoding.of_view rfl fun _ => rfl

theorem Laws.Encoding.scanExclMax (h : Hdr) (o : Opnds) (m : IMods) : Laws.Encoding.Statement (.scanExclMax h o m) :=
  Laws.Encoding.of_view rfl fun _ => rfl

theorem Laws.Encoding.seg (h : Hdr) (o : Opnds) : Laws.Encoding.Statement (.seg h o) :=
  Laws.Encoding.of_view rfl fun _ => rfl

theorem Laws.Encoding.rdlLane (h : Hdr) (o : Opnds) : Laws.Encoding.Statement (.rdlLane h o) :=
  Laws.Encoding.of_view rfl fun _ => rfl

theorem Laws.Encoding.rdlActive (h : Hdr) (o : Opnds) : Laws.Encoding.Statement (.rdlActive h o) :=
  Laws.Encoding.of_view rfl fun _ => rfl

theorem Laws.Encoding.rdlFibre (h : Hdr) (o : Opnds) : Laws.Encoding.Statement (.rdlFibre h o) :=
  Laws.Encoding.of_view rfl fun _ => rfl

theorem Laws.Encoding.rdlSegidx (h : Hdr) (o : Opnds) : Laws.Encoding.Statement (.rdlSegidx h o) :=
  Laws.Encoding.of_view rfl fun _ => rfl

theorem Laws.Encoding.ld (h : Hdr) (o : Opnds) (m : MMods) : Laws.Encoding.Statement (.ld h o m) :=
  Laws.Encoding.of_view rfl fun _ => rfl

theorem Laws.Encoding.st (h : Hdr) (o : Opnds) (m : MMods) : Laws.Encoding.Statement (.st h o m) :=
  Laws.Encoding.of_view rfl fun _ => rfl

theorem Laws.Encoding.atomAdd (h : Hdr) (o : Opnds) (m : MMods) : Laws.Encoding.Statement (.atomAdd h o m) :=
  Laws.Encoding.of_view rfl fun _ => rfl

theorem Laws.Encoding.atomMin (h : Hdr) (o : Opnds) (m : MMods) : Laws.Encoding.Statement (.atomMin h o m) :=
  Laws.Encoding.of_view rfl fun _ => rfl

theorem Laws.Encoding.atomMax (h : Hdr) (o : Opnds) (m : MMods) : Laws.Encoding.Statement (.atomMax h o m) :=
  Laws.Encoding.of_view rfl fun _ => rfl

theorem Laws.Encoding.atomAnd (h : Hdr) (o : Opnds) (m : MMods) : Laws.Encoding.Statement (.atomAnd h o m) :=
  Laws.Encoding.of_view rfl fun _ => rfl

theorem Laws.Encoding.atomOr (h : Hdr) (o : Opnds) (m : MMods) : Laws.Encoding.Statement (.atomOr h o m) :=
  Laws.Encoding.of_view rfl fun _ => rfl

theorem Laws.Encoding.atomXor (h : Hdr) (o : Opnds) (m : MMods) : Laws.Encoding.Statement (.atomXor h o m) :=
  Laws.Encoding.of_view rfl fun _ => rfl

theorem Laws.Encoding.atomXchg (h : Hdr) (o : Opnds) (m : MMods) : Laws.Encoding.Statement (.atomXchg h o m) :=
  Laws.Encoding.of_view rfl fun _ => rfl

theorem Laws.Encoding.atomCas (h : Hdr) (o : Opnds) (m : MMods) : Laws.Encoding.Statement (.atomCas h o m) :=
  Laws.Encoding.of_view rfl fun _ => rfl

theorem Laws.Encoding.atomIncw (h : Hdr) (o : Opnds) (m : MMods) : Laws.Encoding.Statement (.atomIncw h o m) :=
  Laws.Encoding.of_view rfl fun _ => rfl

theorem Laws.Encoding.atomDecw (h : Hdr) (o : Opnds) (m : MMods) : Laws.Encoding.Statement (.atomDecw h o m) :=
  Laws.Encoding.of_view rfl fun _ => rfl

theorem Laws.Encoding.red (h : Hdr) (o : Opnds) (m : MMods) : Laws.Encoding.Statement (.red h o m) :=
  Laws.Encoding.of_view rfl fun _ => rfl

theorem Laws.Encoding.fence (h : Hdr) (o : Opnds) (m : MMods) : Laws.Encoding.Statement (.fence h o m) :=
  Laws.Encoding.of_view rfl fun _ => rfl

theorem Laws.Encoding.inv (h : Hdr) (o : Opnds) (m : MMods) : Laws.Encoding.Statement (.inv h o m) :=
  Laws.Encoding.of_view rfl fun _ => rfl

theorem Laws.Encoding.wb (h : Hdr) (o : Opnds) (m : MMods) : Laws.Encoding.Statement (.wb h o m) :=
  Laws.Encoding.of_view rfl fun _ => rfl

theorem Laws.Encoding.pref (h : Hdr) (o : Opnds) (m : MMods) : Laws.Encoding.Statement (.pref h o m) :=
  Laws.Encoding.of_view rfl fun _ => rfl

theorem Laws.Encoding.ldp (h : Hdr) (o : Opnds) (m : MMods) : Laws.Encoding.Statement (.ldp h o m) :=
  Laws.Encoding.of_view rfl fun _ => rfl

theorem Laws.Encoding.stp (h : Hdr) (o : Opnds) (m : MMods) : Laws.Encoding.Statement (.stp h o m) :=
  Laws.Encoding.of_view rfl fun _ => rfl

theorem Laws.Encoding.lds (h : Hdr) (o : Opnds) (m : MMods) : Laws.Encoding.Statement (.lds h o m) :=
  Laws.Encoding.of_view rfl fun _ => rfl

theorem Laws.Encoding.sts (h : Hdr) (o : Opnds) (m : MMods) : Laws.Encoding.Statement (.sts h o m) :=
  Laws.Encoding.of_view rfl fun _ => rfl

theorem Laws.Encoding.atoms (h : Hdr) (o : Opnds) (m : MMods) : Laws.Encoding.Statement (.atoms h o m) :=
  Laws.Encoding.of_view rfl fun _ => rfl

theorem Laws.Encoding.smp (h : Hdr) (o : Opnds) (x : BitVec 16) : Laws.Encoding.Statement (.smp h o x) :=
  Laws.Encoding.of_view rfl fun _ => rfl

theorem Laws.Encoding.fpost (h : Hdr) (o : Opnds) (x : BitVec 16) : Laws.Encoding.Statement (.fpost h o x) :=
  Laws.Encoding.of_view rfl fun _ => rfl

theorem Laws.Encoding.tmeth (h : Hdr) (o : Opnds) (x : BitVec 16) : Laws.Encoding.Statement (.tmeth h o x) :=
  Laws.Encoding.of_view rfl fun _ => rfl

theorem Laws.Encoding.br (h : Hdr) (o : Opnds) (x : BitVec 16) : Laws.Encoding.Statement (.br h o x) :=
  Laws.Encoding.of_view rfl fun _ => rfl

theorem Laws.Encoding.jmp (h : Hdr) (o : Opnds) (x : BitVec 16) : Laws.Encoding.Statement (.jmp h o x) :=
  Laws.Encoding.of_view rfl fun _ => rfl

theorem Laws.Encoding.call (h : Hdr) (o : Opnds) (x : BitVec 16) : Laws.Encoding.Statement (.call h o x) :=
  Laws.Encoding.of_view rfl fun _ => rfl

theorem Laws.Encoding.calli (h : Hdr) (o : Opnds) (x : BitVec 16) : Laws.Encoding.Statement (.calli h o x) :=
  Laws.Encoding.of_view rfl fun _ => rfl

theorem Laws.Encoding.ret (h : Hdr) (o : Opnds) (x : BitVec 16) : Laws.Encoding.Statement (.ret h o x) :=
  Laws.Encoding.of_view rfl fun _ => rfl

theorem Laws.Encoding.unwind (h : Hdr) (o : Opnds) (x : BitVec 16) : Laws.Encoding.Statement (.unwind h o x) :=
  Laws.Encoding.of_view rfl fun _ => rfl

theorem Laws.Encoding.loop (h : Hdr) (o : Opnds) (x : BitVec 16) : Laws.Encoding.Statement (.loop h o x) :=
  Laws.Encoding.of_view rfl fun _ => rfl

theorem Laws.Encoding.fork (h : Hdr) (o : Opnds) (x : BitVec 16) : Laws.Encoding.Statement (.fork h o x) :=
  Laws.Encoding.of_view rfl fun _ => rfl

theorem Laws.Encoding.endFibre (h : Hdr) (o : Opnds) : Laws.Encoding.Statement (.endFibre h o) :=
  Laws.Encoding.of_view rfl fun _ => rfl

theorem Laws.Encoding.join (h : Hdr) (o : Opnds) : Laws.Encoding.Statement (.join h o) :=
  Laws.Encoding.of_view rfl fun _ => rfl

theorem Laws.Encoding.yieldI (h : Hdr) (o : Opnds) : Laws.Encoding.Statement (.yieldI h o) :=
  Laws.Encoding.of_view rfl fun _ => rfl

theorem Laws.Encoding.bar (h : Hdr) (o : Opnds) (x : BitVec 16) : Laws.Encoding.Statement (.bar h o x) :=
  Laws.Encoding.of_view rfl fun _ => rfl

theorem Laws.Encoding.mbarInit (h : Hdr) (o : Opnds) (x : BitVec 16) : Laws.Encoding.Statement (.mbarInit h o x) :=
  Laws.Encoding.of_view rfl fun _ => rfl

theorem Laws.Encoding.mbarArrive (h : Hdr) (o : Opnds) (x : BitVec 16) : Laws.Encoding.Statement (.mbarArrive h o x) :=
  Laws.Encoding.of_view rfl fun _ => rfl

theorem Laws.Encoding.mbarExpect (h : Hdr) (o : Opnds) (x : BitVec 16) : Laws.Encoding.Statement (.mbarExpect h o x) :=
  Laws.Encoding.of_view rfl fun _ => rfl

theorem Laws.Encoding.mbarWait (h : Hdr) (o : Opnds) (x : BitVec 16) : Laws.Encoding.Statement (.mbarWait h o x) :=
  Laws.Encoding.of_view rfl fun _ => rfl

theorem Laws.Encoding.mbarTest (h : Hdr) (o : Opnds) (x : BitVec 16) : Laws.Encoding.Statement (.mbarTest h o x) :=
  Laws.Encoding.of_view rfl fun _ => rfl

theorem Laws.Encoding.waitge (h : Hdr) (o : Opnds) (x : BitVec 16) : Laws.Encoding.Statement (.waitge h o x) :=
  Laws.Encoding.of_view rfl fun _ => rfl

theorem Laws.Encoding.trap (h : Hdr) (o : Opnds) (x : BitVec 16) : Laws.Encoding.Statement (.trap h o x) :=
  Laws.Encoding.of_view rfl fun _ => rfl

theorem Laws.Encoding.trapBkpt (h : Hdr) (o : Opnds) (x : BitVec 16) : Laws.Encoding.Statement (.trapBkpt h o x) :=
  Laws.Encoding.of_view rfl fun _ => rfl

theorem Laws.Encoding.exit (h : Hdr) (o : Opnds) : Laws.Encoding.Statement (.exit h o) :=
  Laws.Encoding.of_view rfl fun _ => rfl

theorem Laws.Encoding.cpyPlain (h : Hdr) (o : Opnds) (x : BitVec 16) : Laws.Encoding.Statement (.cpyPlain h o x) :=
  Laws.Encoding.of_view rfl fun _ => rfl

theorem Laws.Encoding.cpyPlane (h : Hdr) (o : Opnds) (x : BitVec 16) : Laws.Encoding.Statement (.cpyPlane h o x) :=
  Laws.Encoding.of_view rfl fun _ => rfl

theorem Laws.Encoding.cpyGather (h : Hdr) (o : Opnds) (x : BitVec 16) : Laws.Encoding.Statement (.cpyGather h o x) :=
  Laws.Encoding.of_view rfl fun _ => rfl

theorem Laws.Encoding.cpyMcast (h : Hdr) (o : Opnds) (x : BitVec 16) : Laws.Encoding.Statement (.cpyMcast h o x) :=
  Laws.Encoding.of_view rfl fun _ => rfl

theorem Laws.Encoding.cwaitAll (h : Hdr) (o : Opnds) (x : BitVec 16) : Laws.Encoding.Statement (.cwaitAll h o x) :=
  Laws.Encoding.of_view rfl fun _ => rfl

theorem Laws.Encoding.cwaitAny (h : Hdr) (o : Opnds) (x : BitVec 16) : Laws.Encoding.Statement (.cwaitAny h o x) :=
  Laws.Encoding.of_view rfl fun _ => rfl

theorem Laws.Encoding.cwaitFirst (h : Hdr) (o : Opnds) (x : BitVec 16) : Laws.Encoding.Statement (.cwaitFirst h o x) :=
  Laws.Encoding.of_view rfl fun _ => rfl

theorem Laws.Encoding.cbatchClose (h : Hdr) (o : Opnds) (x : BitVec 16) : Laws.Encoding.Statement (.cbatchClose h o x) :=
  Laws.Encoding.of_view rfl fun _ => rfl

theorem Laws.Encoding.cbatchWait (h : Hdr) (o : Opnds) (x : BitVec 16) : Laws.Encoding.Statement (.cbatchWait h o x) :=
  Laws.Encoding.of_view rfl fun _ => rfl

theorem Laws.Encoding.post (h : Hdr) (o : Opnds) (x : BitVec 16) : Laws.Encoding.Statement (.post h o x) :=
  Laws.Encoding.of_view rfl fun _ => rfl

theorem Laws.Encoding.ttask (h : Hdr) (o : Opnds) (x : BitVec 16) : Laws.Encoding.Statement (.ttask h o x) :=
  Laws.Encoding.of_view rfl fun _ => rfl

theorem Laws.Encoding.ttwait (h : Hdr) (o : Opnds) (x : BitVec 16) : Laws.Encoding.Statement (.ttwait h o x) :=
  Laws.Encoding.of_view rfl fun _ => rfl

theorem Laws.Encoding.nmcRowcp (h : Hdr) (o : Opnds) (x : BitVec 16) : Laws.Encoding.Statement (.nmcRowcp h o x) :=
  Laws.Encoding.of_view rfl fun _ => rfl

theorem Laws.Encoding.nmcRowzero (h : Hdr) (o : Opnds) (x : BitVec 16) : Laws.Encoding.Statement (.nmcRowzero h o x) :=
  Laws.Encoding.of_view rfl fun _ => rfl

theorem Laws.Encoding.nmcRowq (h : Hdr) (o : Opnds) (x : BitVec 16) : Laws.Encoding.Statement (.nmcRowq h o x) :=
  Laws.Encoding.of_view rfl fun _ => rfl

theorem Laws.Encoding.nmcNmlaunch (h : Hdr) (o : Opnds) (x : BitVec 16) : Laws.Encoding.Statement (.nmcNmlaunch h o x) :=
  Laws.Encoding.of_view rfl fun _ => rfl

theorem Laws.Encoding.nfence (h : Hdr) (o : Opnds) : Laws.Encoding.Statement (.nfence h o) :=
  Laws.Encoding.of_view rfl fun _ => rfl

theorem Laws.Encoding.launch (h : Hdr) (o : Opnds) (x : BitVec 16) : Laws.Encoding.Statement (.launch h o x) :=
  Laws.Encoding.of_view rfl fun _ => rfl

theorem Laws.Encoding.spawn (h : Hdr) (o : Opnds) (x : BitVec 16) : Laws.Encoding.Statement (.spawn h o x) :=
  Laws.Encoding.of_view rfl fun _ => rfl

theorem Laws.Encoding.evtSet (h : Hdr) (o : Opnds) (x : BitVec 16) : Laws.Encoding.Statement (.evtSet h o x) :=
  Laws.Encoding.of_view rfl fun h => by
    simp only [Instr.ctorOk, beq_iff_eq] at h
    subst h
    rfl

theorem Laws.Encoding.evtClear (h : Hdr) (o : Opnds) (x : BitVec 16) : Laws.Encoding.Statement (.evtClear h o x) :=
  Laws.Encoding.of_view rfl fun h => by
    simp only [Instr.ctorOk, beq_iff_eq] at h
    subst h
    rfl

theorem Laws.Encoding.evtTest (h : Hdr) (o : Opnds) (x : BitVec 16) : Laws.Encoding.Statement (.evtTest h o x) :=
  Laws.Encoding.of_view rfl fun _ => rfl

theorem Laws.Encoding.ppost (h : Hdr) (o : Opnds) (x : BitVec 16) : Laws.Encoding.Statement (.ppost h o x) :=
  Laws.Encoding.of_view rfl fun _ => rfl

theorem Laws.Encoding.sregRdsr (h : Hdr) (o : Opnds) (x : BitVec 16) : Laws.Encoding.Statement (.sregRdsr h o x) :=
  Laws.Encoding.of_view rfl fun _ => rfl

theorem Laws.Encoding.sregWrsr (h : Hdr) (o : Opnds) (x : BitVec 16) : Laws.Encoding.Statement (.sregWrsr h o x) :=
  Laws.Encoding.of_view rfl fun _ => rfl

theorem Laws.Encoding.sysSvc (h : Hdr) (o : Opnds) (x : BitVec 16) : Laws.Encoding.Statement (.sysSvc h o x) :=
  Laws.Encoding.of_view rfl fun _ => rfl

theorem Laws.Encoding.sysRte (h : Hdr) (o : Opnds) (x : BitVec 16) : Laws.Encoding.Statement (.sysRte h o x) :=
  Laws.Encoding.of_view rfl fun _ => rfl

theorem Laws.Encoding.sysTinv (h : Hdr) (o : Opnds) (x : BitVec 16) : Laws.Encoding.Statement (.sysTinv h o x) :=
  Laws.Encoding.of_view rfl fun _ => rfl

theorem Laws.Encoding.sysRekey (h : Hdr) (o : Opnds) (x : BitVec 16) : Laws.Encoding.Statement (.sysRekey h o x) :=
  Laws.Encoding.of_view rfl fun _ => rfl

theorem Laws.Encoding.sysKslotInstall (h : Hdr) (o : Opnds) (x : BitVec 16) : Laws.Encoding.Statement (.sysKslotInstall h o x) :=
  Laws.Encoding.of_view rfl fun h => by
    simp only [Instr.ctorOk, beq_iff_eq] at h
    subst h
    rfl

theorem Laws.Encoding.sysKslotStage (h : Hdr) (o : Opnds) (x : BitVec 16) : Laws.Encoding.Statement (.sysKslotStage h o x) :=
  Laws.Encoding.of_view rfl fun h => by
    simp only [Instr.ctorOk, beq_iff_eq] at h
    subst h
    rfl

theorem Laws.Encoding.sysKslotErase (h : Hdr) (o : Opnds) (x : BitVec 16) : Laws.Encoding.Statement (.sysKslotErase h o x) :=
  Laws.Encoding.of_view rfl fun h => by
    simp only [Instr.ctorOk, beq_iff_eq] at h
    subst h
    rfl

theorem Laws.Encoding.sysKslotQuery (h : Hdr) (o : Opnds) (x : BitVec 16) : Laws.Encoding.Statement (.sysKslotQuery h o x) :=
  Laws.Encoding.of_view rfl fun h => by
    simp only [Instr.ctorOk, beq_iff_eq] at h
    subst h
    rfl

theorem Laws.Encoding.sysSlice (h : Hdr) (o : Opnds) (x : BitVec 16) : Laws.Encoding.Statement (.sysSlice h o x) :=
  Laws.Encoding.of_view rfl fun _ => rfl

theorem Laws.Encoding.pair (h : Hdr) (sa sb : Slot) : Laws.Encoding.Statement (.pair h sa sb) :=
  Laws.Encoding.of_event rfl

theorem Laws.Encoding.launchWindowHeader (ctx off : Nat) (data : List (BitVec 8)) : Laws.Encoding.Statement (.launchWindowHeader ctx off data) :=
  Laws.Encoding.of_event rfl

theorem Laws.Encoding.eventWindowWrite (ctx off : Nat) (v : BitVec 64) : Laws.Encoding.Statement (.eventWindowWrite ctx off v) :=
  Laws.Encoding.of_event rfl

theorem Laws.Encoding.launchEligible (ctx lseq : Nat) : Laws.Encoding.Statement (.launchEligible ctx lseq) :=
  Laws.Encoding.of_event rfl

theorem Laws.Encoding.workgroupExpand (ctx lseq : Nat) : Laws.Encoding.Statement (.workgroupExpand ctx lseq) :=
  Laws.Encoding.of_event rfl

theorem Laws.Encoding.admission (core : Nat) : Laws.Encoding.Statement (.admission core) :=
  Laws.Encoding.of_event rfl

theorem Laws.Encoding.claim (core : Nat) : Laws.Encoding.Statement (.claim core) :=
  Laws.Encoding.of_event rfl

theorem Laws.Encoding.workgroupEnd (core wg : Nat) : Laws.Encoding.Statement (.workgroupEnd core wg) :=
  Laws.Encoding.of_event rfl

theorem Laws.Encoding.launchComplete (ctx lseq : Nat) : Laws.Encoding.Statement (.launchComplete ctx lseq) :=
  Laws.Encoding.of_event rfl

theorem Laws.Encoding.resultLand (core idx : Nat) : Laws.Encoding.Statement (.resultLand core idx) :=
  Laws.Encoding.of_event rfl

theorem Laws.Encoding.markerResume (core slot lane : Nat) : Laws.Encoding.Statement (.markerResume core slot lane) :=
  Laws.Encoding.of_event rfl

theorem Laws.Encoding.joinRelease (core slot lane : Nat) : Laws.Encoding.Statement (.joinRelease core slot lane) :=
  Laws.Encoding.of_event rfl

theorem Laws.Encoding.retRelease (core slot lane : Nat) : Laws.Encoding.Statement (.retRelease core slot lane) :=
  Laws.Encoding.of_event rfl

theorem Laws.Encoding.callRetry (core slot lane : Nat) : Laws.Encoding.Statement (.callRetry core slot lane) :=
  Laws.Encoding.of_event rfl

theorem Laws.Encoding.barRelease (core wg bid : Nat) : Laws.Encoding.Statement (.barRelease core wg bid) :=
  Laws.Encoding.of_event rfl

theorem Laws.Encoding.mbarWaitRelease (core slot lane : Nat) : Laws.Encoding.Statement (.mbarWaitRelease core slot lane) :=
  Laws.Encoding.of_event rfl

theorem Laws.Encoding.waitgeReread (core slot lane : Nat) : Laws.Encoding.Statement (.waitgeReread core slot lane) :=
  Laws.Encoding.of_event rfl

theorem Laws.Encoding.cwaitRelease (core slot lane : Nat) : Laws.Encoding.Statement (.cwaitRelease core slot lane) :=
  Laws.Encoding.of_event rfl

theorem Laws.Encoding.cbatchWaitRelease (core slot lane : Nat) : Laws.Encoding.Statement (.cbatchWaitRelease core slot lane) :=
  Laws.Encoding.of_event rfl

theorem Laws.Encoding.ttwaitRelease (core slot lane : Nat) : Laws.Encoding.Statement (.ttwaitRelease core slot lane) :=
  Laws.Encoding.of_event rfl

theorem Laws.Encoding.nfenceRelease (core slot lane : Nat) : Laws.Encoding.Statement (.nfenceRelease core slot lane) :=
  Laws.Encoding.of_event rfl

theorem Laws.Encoding.yieldRelease (core slot lane : Nat) : Laws.Encoding.Statement (.yieldRelease core slot lane) :=
  Laws.Encoding.of_event rfl

theorem Laws.Encoding.tinvComplete (core slot lane : Nat) : Laws.Encoding.Statement (.tinvComplete core slot lane) :=
  Laws.Encoding.of_event rfl

theorem Laws.Encoding.storeDrain (core idx : Nat) : Laws.Encoding.Statement (.storeDrain core idx) :=
  Laws.Encoding.of_event rfl

theorem Laws.Encoding.l1Eviction (core pa : Nat) : Laws.Encoding.Statement (.l1Eviction core pa) :=
  Laws.Encoding.of_event rfl

theorem Laws.Encoding.fetch (core idx : Nat) : Laws.Encoding.Statement (.fetch core idx) :=
  Laws.Encoding.of_event rfl

theorem Laws.Encoding.register (core : Nat) (fromIq : Bool) (idx : Nat) : Laws.Encoding.Statement (.register core fromIq idx) :=
  Laws.Encoding.of_event rfl

theorem Laws.Encoding.homeWideAtomic (core idx : Nat) : Laws.Encoding.Statement (.homeWideAtomic core idx) :=
  Laws.Encoding.of_event rfl

theorem Laws.Encoding.writeback (core pa : Nat) : Laws.Encoding.Statement (.writeback core pa) :=
  Laws.Encoding.of_event rfl

theorem Laws.Encoding.jWrite (cl job k : Nat) : Laws.Encoding.Statement (.jWrite cl job k) :=
  Laws.Encoding.of_event rfl

theorem Laws.Encoding.jClear (cl job : Nat) : Laws.Encoding.Statement (.jClear cl job) :=
  Laws.Encoding.of_event rfl

theorem Laws.Encoding.holdClear (core bank : Nat) : Laws.Encoding.Statement (.holdClear core bank) :=
  Laws.Encoding.of_event rfl

theorem Laws.Encoding.ownerRecall (line owner : Nat) : Laws.Encoding.Statement (.ownerRecall line owner) :=
  Laws.Encoding.of_event rfl

theorem Laws.Encoding.translationWalk (core ctx : Nat) (va : BitVec 64) : Laws.Encoding.Statement (.translationWalk core ctx va) :=
  Laws.Encoding.of_event rfl

theorem Laws.Encoding.fill (pa ks : Nat) (sl : Bool) : Laws.Encoding.Statement (.fill pa ks sl) :=
  Laws.Encoding.of_event rfl

theorem Laws.Encoding.blockWriteback (pa : Nat) : Laws.Encoding.Statement (.blockWriteback pa) :=
  Laws.Encoding.of_event rfl

theorem Laws.Encoding.metadataRowWriteback (row : Nat) : Laws.Encoding.Statement (.metadataRowWriteback row) :=
  Laws.Encoding.of_event rfl

theorem Laws.Encoding.rekeyWalkBlock (slot : Nat) : Laws.Encoding.Statement (.rekeyWalkBlock slot) :=
  Laws.Encoding.of_event rfl

theorem Laws.Encoding.viewLineFill (pa : Nat) : Laws.Encoding.Statement (.viewLineFill pa) :=
  Laws.Encoding.of_event rfl

theorem Laws.Encoding.frrWrite (n w : Nat) (v : BitVec 64) : Laws.Encoding.Statement (.frrWrite n w v) :=
  Laws.Encoding.of_event rfl

theorem Laws.Encoding.jobStart (cl job : Nat) : Laws.Encoding.Statement (.jobStart cl job) :=
  Laws.Encoding.of_event rfl

theorem Laws.Encoding.copyGranuleCredit (cl job g : Nat) : Laws.Encoding.Statement (.copyGranuleCredit cl job g) :=
  Laws.Encoding.of_event rfl

theorem Laws.Encoding.jobComplete (cl job : Nat) : Laws.Encoding.Statement (.jobComplete cl job) :=
  Laws.Encoding.of_event rfl

theorem Laws.Encoding.copyFault (cl job : Nat) : Laws.Encoding.Statement (.copyFault cl job) :=
  Laws.Encoding.of_event rfl

theorem Laws.Encoding.rowCommandPrepare (e : PrepareStep) : Laws.Encoding.Statement (.rowCommandPrepare e) :=
  Laws.Encoding.of_event rfl

theorem Laws.Encoding.rowOperation (id k : Nat) : Laws.Encoding.Statement (.rowOperation id k) :=
  Laws.Encoding.of_event rfl

theorem Laws.Encoding.rowCommandComplete (id : Nat) : Laws.Encoding.Statement (.rowCommandComplete id) :=
  Laws.Encoding.of_event rfl

theorem Laws.Encoding.returnTrap (unit : Nat) : Laws.Encoding.Statement (.returnTrap unit) :=
  Laws.Encoding.of_event rfl

theorem Laws.Encoding.primitiveArrival (k : Nat) : Laws.Encoding.Statement (.primitiveArrival k) :=
  Laws.Encoding.of_event rfl

theorem Laws.Encoding.primitiveProcess (die ctx : Nat) : Laws.Encoding.Statement (.primitiveProcess die ctx) :=
  Laws.Encoding.of_event rfl

theorem Laws.Encoding.ticketArrival (die ctx : Nat) : Laws.Encoding.Statement (.ticketArrival die ctx) :=
  Laws.Encoding.of_event rfl

theorem Laws.Encoding.fragmentBlockEmit (die ctx : Nat) : Laws.Encoding.Statement (.fragmentBlockEmit die ctx) :=
  Laws.Encoding.of_event rfl

theorem Laws.Encoding.postArrival (core k : Nat) : Laws.Encoding.Statement (.postArrival core k) :=
  Laws.Encoding.of_event rfl

theorem Laws.Encoding.postResend (core k : Nat) : Laws.Encoding.Statement (.postResend core k) :=
  Laws.Encoding.of_event rfl

theorem Laws.Encoding.tmethApply (k : Nat) : Laws.Encoding.Statement (.tmethApply k) :=
  Laws.Encoding.of_event rfl

theorem Laws.Encoding.progMethodReturn (id : Nat) : Laws.Encoding.Statement (.progMethodReturn id) :=
  Laws.Encoding.of_event rfl

theorem Laws.Encoding.fenceMarker (id bank : Nat) : Laws.Encoding.Statement (.fenceMarker id bank) :=
  Laws.Encoding.of_event rfl

theorem Laws.Encoding.fenceComplete (id : Nat) : Laws.Encoding.Statement (.fenceComplete id) :=
  Laws.Encoding.of_event rfl

theorem Laws.Encoding.governorWindow (die : Nat) (g : GovReading) : Laws.Encoding.Statement (.governorWindow die g) :=
  Laws.Encoding.of_event rfl

theorem Laws.Encoding.tempThrottle (die : Nat) (temp : BitVec 8) : Laws.Encoding.Statement (.tempThrottle die temp) :=
  Laws.Encoding.of_event rfl

theorem Laws.Encoding.tempRecover (die : Nat) (temp : BitVec 8) : Laws.Encoding.Statement (.tempRecover die temp) :=
  Laws.Encoding.of_event rfl

theorem Laws.Encoding.thermalTrip (die : Nat) (temp : BitVec 8) : Laws.Encoding.Statement (.thermalTrip die temp) :=
  Laws.Encoding.of_event rfl

theorem Laws.Encoding.railOutOfRange (die : Nat) (val : BitVec 32) : Laws.Encoding.Statement (.railOutOfRange die val) :=
  Laws.Encoding.of_event rfl

theorem Laws.Encoding.reset : Laws.Encoding.Statement .reset :=
  Laws.Encoding.of_event rfl

theorem Laws.Encoding.railsInRange : Laws.Encoding.Statement .railsInRange :=
  Laws.Encoding.of_event rfl

theorem Laws.Encoding.clocksLocked : Laws.Encoding.Statement .clocksLocked :=
  Laws.Encoding.of_event rfl

theorem Laws.Encoding.hbmTrained : Laws.Encoding.Statement .hbmTrained :=
  Laws.Encoding.of_event rfl

theorem Laws.Encoding.sealInitDone : Laws.Encoding.Statement .sealInitDone :=
  Laws.Encoding.of_event rfl

theorem Laws.Encoding.linksTrained (up : Trained) : Laws.Encoding.Statement (.linksTrained up) :=
  Laws.Encoding.of_event rfl

theorem Laws.Encoding.partitionRecordWrite (p w : Nat) (v : BitVec 64) : Laws.Encoding.Statement (.partitionRecordWrite p w v) :=
  Laws.Encoding.of_event rfl

theorem Laws.Encoding.ctxcWrite (ctx : Nat) (v : BitVec 64) : Laws.Encoding.Statement (.ctxcWrite ctx v) :=
  Laws.Encoding.of_event rfl

theorem Laws.Encoding.pkcWrite (v : BitVec 64) : Laws.Encoding.Statement (.pkcWrite v) :=
  Laws.Encoding.of_event rfl

theorem Laws.Encoding.hdmDecoderWrite (k w : Nat) (v : BitVec 64) : Laws.Encoding.Statement (.hdmDecoderWrite k w v) :=
  Laws.Encoding.of_event rfl

theorem Laws.Encoding.pshrGo (p : Nat) (v : BitVec 64) : Laws.Encoding.Statement (.pshrGo p v) :=
  Laws.Encoding.of_event rfl

theorem Laws.Encoding.shrinkComplete (p : Nat) : Laws.Encoding.Statement (.shrinkComplete p) :=
  Laws.Encoding.of_event rfl

theorem Laws.Encoding.obscSnap (v : BitVec 64) : Laws.Encoding.Statement (.obscSnap v) :=
  Laws.Encoding.of_event rfl

theorem Laws.Encoding.snapshotTick : Laws.Encoding.Statement .snapshotTick :=
  Laws.Encoding.of_event rfl

theorem Laws.Encoding.snapshotLatch : Laws.Encoding.Statement .snapshotLatch :=
  Laws.Encoding.of_event rfl

theorem Laws.Encoding.stopTick : Laws.Encoding.Statement .stopTick :=
  Laws.Encoding.of_event rfl

theorem Laws.Encoding.debugStep (core : Nat) (v : BitVec 64) : Laws.Encoding.Statement (.debugStep core v) :=
  Laws.Encoding.of_event rfl

theorem Laws.Encoding.dumpGo (v : BitVec 64) : Laws.Encoding.Statement (.dumpGo v) :=
  Laws.Encoding.of_event rfl

theorem Laws.Encoding.dumpMarker (port : Nat) (part id node : Nat) : Laws.Encoding.Statement (.dumpMarker port part id node) :=
  Laws.Encoding.of_event rfl

theorem Laws.Encoding.dumpResume (v : BitVec 64) : Laws.Encoding.Statement (.dumpResume v) :=
  Laws.Encoding.of_event rfl

theorem Laws.Encoding.registerWrite (off : Nat) (v : BitVec 64) : Laws.Encoding.Statement (.registerWrite off v) :=
  Laws.Encoding.of_event rfl

theorem Laws.Encoding.onchipWindowAccess (pa : Nat) (wr : Option (BitVec 32)) : Laws.Encoding.Statement (.onchipWindowAccess pa wr) :=
  Laws.Encoding.of_event rfl

theorem Laws.Encoding.linkFlitReceive (port : Nat) (f : Flit) : Laws.Encoding.Statement (.linkFlitReceive port f) :=
  Laws.Encoding.of_event rfl

theorem Laws.Encoding.linkNak (port lseq : Nat) : Laws.Encoding.Statement (.linkNak port lseq) :=
  Laws.Encoding.of_event rfl

theorem Laws.Encoding.linkAckTimeout (port : Nat) : Laws.Encoding.Statement (.linkAckTimeout port) :=
  Laws.Encoding.of_event rfl

theorem Laws.Encoding.streamCommand (src dst part eseq : Nat) (c : FabricCmd) : Laws.Encoding.Statement (.streamCommand src dst part eseq c) :=
  Laws.Encoding.of_event rfl

theorem Laws.Encoding.streamResponse (src dst part eseq : Nat) : Laws.Encoding.Statement (.streamResponse src dst part eseq) :=
  Laws.Encoding.of_event rfl

theorem Laws.Encoding.commandResendTimeout (src dst part eseq : Nat) : Laws.Encoding.Statement (.commandResendTimeout src dst part eseq) :=
  Laws.Encoding.of_event rfl

theorem Laws.Encoding.rendezvous (cl job : Nat) (r : RdvReply) : Laws.Encoding.Statement (.rendezvous cl job r) :=
  Laws.Encoding.of_event rfl

theorem Laws.Encoding.collectiveDeferTimeout (p : Nat) : Laws.Encoding.Statement (.collectiveDeferTimeout p) :=
  Laws.Encoding.of_event rfl

theorem Laws.Encoding.hostSharedRead (hpa : Nat) : Laws.Encoding.Statement (.hostSharedRead hpa) :=
  Laws.Encoding.of_event rfl

theorem Laws.Encoding.hostExclusiveRequest (hpa : Nat) : Laws.Encoding.Statement (.hostExclusiveRequest hpa) :=
  Laws.Encoding.of_event rfl

theorem Laws.Encoding.hostUncachedAccess (hpa : Nat) (acc : HostAccess) : Laws.Encoding.Statement (.hostUncachedAccess hpa acc) :=
  Laws.Encoding.of_event rfl

theorem Laws.Encoding.hostSnoop (line : Nat) (inv : Bool) : Laws.Encoding.Statement (.hostSnoop line inv) :=
  Laws.Encoding.of_event rfl

theorem Laws.Encoding.snoopFilterEviction (line : Nat) (dirty : List (Nat × BitVec 32)) : Laws.Encoding.Statement (.snoopFilterEviction line dirty) :=
  Laws.Encoding.of_event rfl

theorem Laws.Encoding.bisnpTimeout (line : Nat) : Laws.Encoding.Statement (.bisnpTimeout line) :=
  Laws.Encoding.of_event rfl

theorem Laws.Encoding.ideIntegrityFailure : Laws.Encoding.Statement .ideIntegrityFailure :=
  Laws.Encoding.of_event rfl

theorem Laws.Encoding.ideReestablish : Laws.Encoding.Statement .ideReestablish :=
  Laws.Encoding.of_event rfl

theorem Laws.Encoding.spdmRequest (r : SpdmReq) : Laws.Encoding.Statement (.spdmRequest r) :=
  Laws.Encoding.of_event rfl

theorem Laws.Encoding.sliceEnd (p : Nat) : Laws.Encoding.Statement (.sliceEnd p) :=
  Laws.Encoding.of_event rfl

theorem Laws.Encoding.sliceTake (p : Nat) : Laws.Encoding.Statement (.sliceTake p) :=
  Laws.Encoding.of_event rfl

theorem Laws.Encoding.restore (core ctx : Nat) : Laws.Encoding.Statement (.restore core ctx) :=
  Laws.Encoding.of_event rfl

theorem Laws.Encoding.spill (core q : Nat) : Laws.Encoding.Statement (.spill core q) :=
  Laws.Encoding.of_event rfl

theorem Laws.Encoding.trapDelivery (core slot lane : Nat) : Laws.Encoding.Statement (.trapDelivery core slot lane) :=
  Laws.Encoding.of_event rfl

theorem Laws.Encoding.tdispRequest (p : Nat) (r : TdispReq) : Laws.Encoding.Statement (.tdispRequest p r) :=
  Laws.Encoding.of_event rfl

theorem Laws.Encoding.linkRetrainDone (port : Nat) (ok : Bool) : Laws.Encoding.Statement (.linkRetrainDone port ok) :=
  Laws.Encoding.of_event rfl

theorem Laws.Encoding.debugSmaskWrite (core : Nat) (v : BitVec 64) : Laws.Encoding.Statement (.debugSmaskWrite core v) :=
  Laws.Encoding.of_event rfl

end Sys2Proof
end

