-- ==== Sys2Proof/Tests/Slice0.lean ====
section
/-!
SUPPORT. The model's own tests: that the checks of WellFormed refuse, that the decoder reads words written out from the spec, single
steps on small states with results worked out from the spec, and for each statement a state that meets its hypotheses.
-/

namespace Sys2Proof.Tests

open Sys2Proof.Machine

set_option maxRecDepth 20000
set_option Elab.async false

/-! Words and states. -/

/-- A guard that is always true; the headers of the base and the extended form, and of their literal forms (R158, R167). -/
def always : Guard := ⟨0, false⟩
def base : Hdr := ⟨.base, always, false, 0⟩
def ext : Hdr := ⟨.ext, always, false, 0⟩
def extLit (v : BitVec 64) : Hdr := ⟨.extLit, always, false, v⟩

/-- A register as an operand. -/
def v (n : BitVec 8) : Src := .reg n .ident

/-- Operands. -/
def ops (d : BitVec 8) (a b c : Src) : Opnds := ⟨d, a, b, c⟩
def none_ : Opnds := ⟨0, .zero, .zero, .zero⟩
def abc : Opnds := ⟨8, v 2, v 4, v 6⟩

/-- Modifiers: i32, f32, f64, f16, a conversion, a 32-bit access. -/
def iM : IMods := ⟨.i32, false, 0⟩
def fM (t : Ty) : FMods := ⟨.rn, false, false, 0, 0, 0, t⟩
def tM (d s : Ty) : TMods := ⟨.rn, false, false, d, s⟩
def mM (o : Order) (sc : Scope) (x : BitVec 9) (sz : Size) : MMods := ⟨o, sc, 0, x, sz, 0xFF⟩

/-- A package in state READY with one fibre in lane 0 of slot 0 of core 0, in a frame of 256 rows at depth 0, whose word is current
(log entry 12). -/
def small : State := { { State.reset with pkc := 5 }.placeFetch [] with cur := ⟨0, 0, 1, [0]⟩ }

/-- That package with registers of the lane written. -/
def withRegs (s : State) (l : List (Nat × LWord)) : State :=
  s.onCore 0 fun c => l.foldl (fun c e => c.setRow e.1 0 e.2) c

/-- The context of a word in a state. -/
def xOf (s : State) (i : Instr) : Iss := (s.context (hdrOf i)).getD
  { core := 0, slot := 0, lanes := 0, batch := 0, gt := 0, pc := 0, base := 0, rows := 0, seg := 0, wg := 0, cx := 0, len := 0,
    mark := false, lit := 0, words := [], tick := 0 }

/-- A word issues with its own meaning, as a check. -/
def issuesB (s : State) (i : Instr) : Bool :=
  let x := xOf s i
  decide (s.context (hdrOf i) = some x) && decide (stopOf (s.core x.core) x (s.ctx x.cx).hz i = .none) &&
    (lanesOf x.lanes).all fun l => decide (guardAt (s.core x.core) x.base (hdrOf i).guard l ≠ none)

theorem issues_of_check {s : State} {i : Instr} (h : issuesB s i = true) : Issues s i (xOf s i) := by
  simp only [issuesB, Bool.and_eq_true, decide_eq_true_eq, List.all_eq_true] at h
  exact ⟨h.1.1, h.1.2, h.2⟩

theorem issues_all {s : State} {is : List Instr} (h : is.all (issuesB s) = true) : ∀ i ∈ is, Issues s i (xOf s i) :=
  fun i hi => issues_of_check (List.all_eq_true.1 h i hi)

theorem words_issue {s : State} {is : List Instr} (h : is.all (fun i => i.wf && issuesB s i) = true) :
    ∀ i ∈ is, i.wf = true ∧ Issues s i (xOf s i) := by
  intro i hi
  have := List.all_eq_true.1 h i hi
  simp only [Bool.and_eq_true] at this
  exact ⟨this.1, issues_of_check this.2⟩

/-- A check that leaves the state as it is and gives a value. -/
def okIs {ε α : Type} [DecidableEq α] (s : State) (p : State × Except ε α) (w : α) : Bool :=
  match p with
  | (t, .ok u) => decide (t = s ∧ u = w)
  | _ => false

theorem okIs_eq {ε α : Type} [DecidableEq α] {s : State} {p : State × Except ε α} {w : α} (h : okIs s p w = true) : p = (s, .ok w) := by
  unfold okIs at h
  split at h
  · simp only [decide_eq_true_eq] at h; rw [h.1, h.2]
  · cases h

/-! A state that meets the hypotheses of each statement: here of the words that act on registers, one word for each clause. -/

theorem witness_IntegerSums : ∀ i ∈ [Instr.add base (ops 8 (v 2) (v 4) .zero) iM, .addAddc ext (ops 8 (v 2) (v 4) .zero) ⟨.i32, false, 26⟩,
    .addAdd3 ext abc iM, .sub base (ops 0 (v 2) (v 63) .zero) iM, .subSubb ext (ops 8 (v 2) (v 4) .zero) ⟨.n8, false, 1⟩,
    .subRsub ext (ops 255 (v 2) (v 4) .zero) iM], i.wf = true ∧ Issues small i (xOf small i) := words_issue (by decide +kernel)

theorem witness_IntegerProducts : ∀ i ∈ [Instr.mulLo base (ops 8 (v 2) (v 4) .zero) iM, .mulHi ext (ops 8 (v 2) (v 4) .zero) ⟨.n32, false, 0⟩,
    .madLo ext abc ⟨.n32, true, 0⟩, .madHi ext abc iM, .madWide ext abc iM],
    i.wf = true ∧ Issues small i (xOf small i) := words_issue (by decide +kernel)

theorem witness_IntegerBoundsAndDots : ∀ i ∈ [Instr.minI base (ops 8 (v 2) (v 4) .zero) iM, .maxI ext (ops 8 (v 2) (v 4) .zero) ⟨.n8, false, 0⟩,
    .clamp ext abc ⟨.i16, false, 0⟩, .sad ext abc ⟨.i8, true, 0⟩, .dp4 ext abc ⟨.i32, false, 1⟩, .dp4Dp2 ext abc iM],
    i.wf = true ∧ Issues small i (xOf small i) := words_issue (by decide +kernel)

theorem witness_LogicAndShifts : ∀ i ∈ [Instr.andI base (ops 8 (v 2) (v 4) .zero) iM, .orI ext (ops 8 (v 2) (v 4) .zero) iM,
    .xorI ext (ops 8 (v 2) (v 4) .zero) iM, .andn ext (ops 8 (v 2) (v 4) .zero) iM, .lop3 ext abc ⟨.i32, false, 255⟩,
    .shl base (ops 8 (v 2) (.imm6 63) .zero) iM, .shr ext (ops 8 (v 2) (v 4) .zero) iM, .sar ext (ops 8 (v 2) (v 4) .zero) iM,
    .rot ext (ops 8 (v 2) (v 4) .zero) iM, .shf ext abc ⟨.i32, false, 3⟩],
    i.wf = true ∧ Issues small i (xOf small i) := words_issue (by decide +kernel)

theorem witness_BitFields : ∀ i ∈ [Instr.bfx ext (ops 8 (v 2) (v 4) .zero) ⟨.n32, false, 0⟩, .bfi ext abc iM,
    .bcntPop base (ops 8 (v 2) .zero .zero) iM, .bcntClz base (ops 8 (v 2) .zero .zero) iM, .bcntCtz base (ops 8 (v 2) .zero .zero) iM,
    .bcntBrev base (ops 8 (v 2) .zero .zero) iM, .bcntIsp base (ops 8 (v 2) .zero .zero) iM, .perm ext abc iM],
    i.wf = true ∧ Issues small i (xOf small i) := words_issue (by decide +kernel)

theorem witness_ComparesAndMoves : ∀ i ∈ [Instr.cmp ext (ops 8 (v 2) (v 4) .zero) ⟨.i8, false, 0xD6⟩, .sel ext (ops 8 (v 2) (v 4) .zero) ⟨.i32, false, 63⟩,
    .mov base (ops 8 (v 63) .zero .zero) iM, .ldi base (ops 8 (.imm12hi 0xFFF) .zero .zero) iM],
    i.wf = true ∧ Issues small i (xOf small i) := words_issue (by decide +kernel)

theorem witness_PairArithmetic : ∀ i ∈ [Instr.add64 base (ops 8 (v 2) (v 4) .zero) iM, .add64Sub ext (ops 8 (v 2) (v 4) .zero) ⟨.n64, true, 0⟩,
    .add64Neg ext (ops 8 (v 2) .zero .zero) ⟨.i64, false, 0⟩, .mul64 base (ops 8 (v 2) (v 4) .zero) iM,
    .cmp64 ext (ops 8 (v 2) (v 4) .zero) ⟨.n64, false, 6⟩], i.wf = true ∧ Issues small i (xOf small i) := words_issue (by decide +kernel)

theorem witness_PairShifts : ∀ i ∈ [Instr.sh64Shl base (ops 8 (v 2) (.imm6 63) .zero) iM, .sh64Shr ext (ops 8 (v 2) (v 5) .zero) iM,
    .sh64Sar ext (ops 254 (v 2) (v 5) .zero) iM], i.wf = true ∧ Issues small i (xOf small i) := words_issue (by decide +kernel)

theorem witness_Nop : Issues small (.nop { base with guard := always } none_) (xOf small (.nop base none_)) :=
  issues_of_check (by decide +kernel)

theorem witness_FloatArithmetic : ∀ i ∈ [Instr.fadd base (ops 8 (v 2) (v 4) .zero) (fM .f32), .fmul ext (ops 8 (v 2) (v 4) .zero) ⟨.rd, true, true, 3, 2, 0, .f32⟩,
    .ffma ext abc ⟨.ru, false, false, 1, 2, 3, .f32⟩, .fminMin base (ops 8 (v 2) (v 4) .zero) (fM .f32),
    .fminMax ext (ops 8 (v 2) (v 4) .zero) (fM .f32), .fminMinnum ext (ops 8 (v 2) (v 4) .zero) (fM .f32),
    .fminMaxnum ext (ops 8 (v 2) (v 4) .zero) (fM .f32), .frnd base (ops 8 (v 2) .zero .zero) (fM .f32),
    .fclass base (ops 8 (v 2) .zero .zero) (fM .f32), .fscale base (ops 8 (v 2) (v 4) .zero) (fM .f32),
    .fxtr base (ops 8 (v 2) .zero .zero) (fM .f32)], i.wf = true ∧ Issues small i (xOf small i) := words_issue (by decide +kernel)

theorem witness_FloatComparesAndConversions : ∀ i ∈ [Instr.fcmp ext (ops 8 (v 2) (v 4) .zero) ⟨.f32, false, 0x4FF &&& 0x4D7⟩,
    .dcmp ext (ops 8 (v 2) (v 4) .zero) ⟨.f64, false, 7⟩, .fcvt ext (ops 8 (v 2) .zero .zero) (tM .i8 .f32),
    .dcvt ext (ops 8 (v 2) .zero .zero) (tM .f64 .f32)], i.wf = true ∧ Issues small i (xOf small i) := words_issue (by decide +kernel)

theorem witness_PackedAndDoubleFloats : ∀ i ∈ [Instr.hadd2 base (ops 8 (v 2) (v 4) .zero) (fM .f16), .hmul2 ext (ops 8 (v 2) (v 4) .zero) (fM .bf16),
    .hfma2 ext abc (fM .f16), .hmin2 base (ops 8 (v 2) (v 4) .zero) (fM .f16), .dadd base (ops 8 (v 2) (v 4) .zero) (fM .f64),
    .dmul ext (ops 8 (v 2) (v 4) .zero) (fM .f64), .dfma ext abc (fM .f64), .dmin base (ops 8 (v 2) (v 4) .zero) (fM .f64),
    .drnd base (ops 8 (v 2) .zero .zero) (fM .f64)], i.wf = true ∧ Issues small i (xOf small i) := words_issue (by decide +kernel)

theorem witness_SpecialFunctions : (∀ i ∈ [Instr.sfuRcp base (ops 8 (v 2) .zero .zero) (fM .f32), .sfuRsq base (ops 8 (v 2) .zero .zero) (fM .f32),
    .sfuSqrt base (ops 8 (v 2) .zero .zero) (fM .f32), .sfuEx2 base (ops 8 (v 2) .zero .zero) (fM .f32),
    .sfuLg2 base (ops 8 (v 2) .zero .zero) (fM .f32), .sfuSinpi base (ops 8 (v 2) .zero .zero) (fM .f32),
    .sfuCospi base (ops 8 (v 2) .zero .zero) (fM .f32), .sfuTanh base (ops 8 (v 2) .zero .zero) (fM .f32)],
    i.wf = true ∧ Issues small i (xOf small i)) ∧ ((1 : Nat) < 2 ^ 31 ∧ 0 < 1 ∧ 1 < 0x7F800000) :=
  ⟨words_issue (by decide +kernel), by decide⟩

theorem witness_PairWords : ∀ i ∈ [Instr.pair ext ⟨.add, 4, 2, 3, 0⟩ ⟨.fadd, 5, 6, 7, 0⟩, .pair ext ⟨.ffma, 255, 2, 3, 2⟩ ⟨.mov, 0, 3, 0, 0⟩],
    i.wf = true ∧ Issues small i (xOf small i) := words_issue (by decide +kernel)

theorem witness_ShufflesAndVotes : ∀ i ∈ [Instr.shflLane base (ops 8 (v 2) (.imm6 31) .zero) iM, .shflBack ext (ops 8 (v 2) (v 4) .zero) ⟨.i32, false, 0xD0⟩,
    .shflFwd ext (ops 8 (v 2) (v 4) .zero) iM, .shflFlip ext (ops 8 (v 2) (v 4) .zero) iM, .voteAll ext (ops 8 (v 2) .zero .zero) iM,
    .voteAny ext (ops 8 (v 2) .zero .zero) iM, .voteBallot ext (ops 8 (v 2) .zero .zero) iM, .voteUni ext (ops 8 (v 2) .zero .zero) iM,
    .matchAny ext (ops 8 (v 2) .zero .zero) iM, .matchAll ext (ops 8 (v 2) .zero .zero) iM],
    i.wf = true ∧ Issues small i (xOf small i) := words_issue (by decide +kernel)

theorem witness_ReductionsAndScans : ∀ i ∈ [Instr.reduxAdd base (ops 8 (v 2) .zero .zero) iM, .reduxMin ext (ops 8 (v 2) .zero .zero) ⟨.n32, false, 0⟩,
    .reduxMax ext (ops 8 (v 2) .zero .zero) iM, .reduxAnd ext (ops 8 (v 2) .zero .zero) iM, .reduxOr ext (ops 8 (v 2) .zero .zero) iM,
    .reduxXor ext (ops 8 (v 2) .zero .zero) iM, .scanInclAdd ext (ops 8 (v 2) .zero .zero) iM, .scanInclMin ext (ops 8 (v 2) .zero .zero) iM,
    .scanInclMax ext (ops 8 (v 2) .zero .zero) iM, .scanExclAdd ext (ops 8 (v 2) .zero .zero) iM,
    .scanExclMin ext (ops 8 (v 2) .zero .zero) iM, .scanExclMax ext (ops 8 (v 2) .zero .zero) ⟨.n32, false, 0⟩],
    i.wf = true ∧ Issues small i (xOf small i) := words_issue (by decide +kernel)

/-- `seg` of register 2, and a package where register 2 of the lane holds a value. -/
def segWord : Instr := .seg base (ops 0 .zero (v 2) .zero)
def seg2 (w : LWord) : State := withRegs small [(2, w)]
def segNever : Instr := .seg { base with guard := ⟨0, true⟩ } (ops 0 .zero (v 2) .zero)

/-- `seg` with every guard false; with 1 and 5; with 0 and 6; and with poison. -/
theorem witness_LaneReadsAndSegments : (∀ i ∈ [Instr.rdlLane base (ops 8 .zero .zero .zero), .rdlActive base (ops 8 .zero .zero .zero),
    .rdlFibre base (ops 8 .zero .zero .zero), .rdlSegidx base (ops 8 .zero .zero .zero), segWord, segNever],
    i.wf = true ∧ Issues small i (xOf small i)) ∧ (xOf small segNever).gt = 0 :=
  ⟨words_issue (by decide +kernel), by decide +kernel⟩

theorem witness_SegmentSizes : [(1 : Word), 5, 0, 6].all (fun n => issuesB (seg2 (.good n)) segWord &&
    decide ((xOf (seg2 (.good n)) segWord).gt ≠ 0 ∧ srcVal ((seg2 (.good n)).core 0) (xOf (seg2 (.good n)) segWord) (v 2)
      (lowestLane (xOf (seg2 (.good n)) segWord).gt) = some n)) = true := by decide +kernel

theorem witness_SegmentPoison : issuesB (seg2 .poison) segWord = true ∧ (xOf (seg2 .poison) segWord).gt ≠ 0 ∧
    srcVal ((seg2 .poison).core 0) (xOf (seg2 .poison) segWord) (v 2) (lowestLane (xOf (seg2 .poison) segWord).gt) = none := by
  decide +kernel

/-! The memory words. -/

/-- The small package with 2,048 bytes of scratchpad for its workgroup, 16 bytes of private memory for each lane, the address 0xFFC of page
0 in registers 4 and 5, 4 in register 6, 14 in register 7 and poison in register 99. -/
def room : State := withRegs
  { small.onCore 0 (fun c => c.onWg 0 fun w => { w with rcd := { w.rcd with scr := 1 } }) with
    ctxs := SMap.put small.ctxs 0 { small.ctx 0 with pvs := 1 } }
  [(4, .good 0xFFC), (6, .good 4), (7, .good 14), (99, .poison)]

/-- The translation of page 0 that the core holds. -/
def leaf0 : Leaf :=
  { ctx := 0, lg := 12, vpn := 0, ppn := 0, creg := 0, hc := false, fv := false, sl := true, cpol := 0, x := true, w := true }

theorem lanes_one {m : Word} {P : Nat → Prop} (h : lanesOf m = [0]) (p : P 0) : ∀ l ∈ lanesOf m, P l := by
  rw [h]
  intro l hl
  cases List.mem_singleton.1 hl
  exact p

/-- A global access at `ea` passes in lane 0, as a check. -/
def globalB (s : State) (i : Instr) (o : Opnds) (n : Nat) (use : Use) (data : Nat) (ea : BitVec 64) (leaf : Leaf) : Bool :=
  let x := xOf s i
  issuesB s i && decide (lanesOf x.gt = [0]) && decide (address64 (s.core x.core) x o 0 = some ea) &&
    (dataOf (s.core x.core) x o.d.toNat data 0).all (fun w => !w.isPoison) && decide (ea.toNat % n = 0) && canonical ea.toNat &&
    decide (findLeaf (s.core x.core).tlb x.cx ea.toNat = some leaf) && decide (s.leafCheck x.cx leaf (leaf.pa ea.toNat) use = none) &&
    !isWindow (leaf.pa ea.toNat)

theorem global_of_check {s : State} {i : Instr} {o : Opnds} {n : Nat} {use : Use} {data : Nat} {ea : BitVec 64} {leaf : Leaf}
    (h : globalB s i o n use data ea leaf = true) :
    Issues s i (xOf s i) ∧ ∀ l ∈ lanesOf (xOf s i).gt, PassesGlobal s (xOf s i) o n use data l ea leaf := by
  simp only [globalB, Bool.and_eq_true, decide_eq_true_eq, List.all_eq_true, Bool.not_eq_true'] at h
  obtain ⟨⟨⟨⟨⟨⟨⟨⟨h1, h2⟩, h3⟩, h4⟩, h5⟩, h6⟩, h7⟩, h8⟩, h9⟩ := h
  exact ⟨issues_of_check h1, lanes_one h2 ⟨h3, h4, h5, h6, h7, h8, fun _ _ => h9⟩⟩

theorem witness_GlobalLoadsAndStores :
    globalB room (.ld base (ops 8 (v 4) .zero .zero) (mM .rlx .pkg 0 .b32)) (ops 8 (v 4) .zero .zero) 4 .read 0 0xFFC leaf0 = true ∧
    globalB room (.ld ext (ops 8 (v 20) (v 6) .zero) (mM .acq .sys 0 .i16)) (ops 8 (v 20) (v 6) .zero) 2 .read 0 4 leaf0 = true ∧
    globalB room (.st ext (ops 16 (v 20) .zero .zero) (mM .rel .wg 0 .b128)) (ops 16 (v 20) .zero .zero) 16 .write 4 0 leaf0 = true := by
  decide +kernel

theorem witness_GlobalAtomics : (∀ i ∈ [Instr.atomAdd ext (ops 8 (v 4) .zero .zero) (mM .rlx .pkg 0 .b32), .atomMin ext (ops 8 (v 4) .zero .zero) (mM .ar .pkg 1 .b32),
    .atomMax ext (ops 8 (v 4) .zero .zero) (mM .rlx .pkg 0 .b32), .atomAnd ext (ops 8 (v 4) .zero .zero) (mM .rlx .pkg 0 .b32),
    .atomOr ext (ops 8 (v 4) .zero .zero) (mM .rlx .pkg 0 .b32), .atomXor ext (ops 8 (v 4) .zero .zero) (mM .rlx .pkg 0 .b32),
    .atomXchg ext (ops 8 (v 4) .zero .zero) (mM .rlx .pkg 0 .b32), .atomIncw ext (ops 8 (v 4) .zero .zero) (mM .rlx .pkg 0 .b32),
    .atomDecw ext (ops 8 (v 4) .zero .zero) (mM .rlx .pkg 0 .b32), .red ext (ops 8 (v 4) .zero .zero) (mM .rel .wg 0 .b32)],
    globalB room i (ops 8 (v 4) .zero .zero) 4 .atomic 1 0xFFC leaf0 = true) ∧
    globalB room (.atomCas ext (ops 8 (v 20) (v 6) .zero) (mM .rlx .wg 0 .b32)) (ops 8 (v 20) (v 6) .zero) 4 .atomic 2 4 leaf0 = true ∧
    globalB room (.atomCas ext (ops 12 (v 20) .zero .zero) (mM .rlx .wg 0 .b64)) (ops 12 (v 20) .zero .zero) 8 .atomic 4 0 leaf0 = true := by
  decide +kernel

/-- A scratchpad access at `b` passes in lane 0, as a check. -/
def scratchB (s : State) (i : Instr) (o : Opnds) (n data : Nat) (b : BitVec 32) : Bool :=
  let x := xOf s i
  issuesB s i && decide (lanesOf x.gt = [0]) && decide (offset32 (s.core x.core) x o 0 = some b) &&
    (dataOf (s.core x.core) x o.d.toNat data 0).all (fun w => !w.isPoison) && decide (b.toNat % n = 0) && decide (b.toNat + n ≤ s.scrLimit x)

theorem scratch_of_check {s : State} {i : Instr} {o : Opnds} {n data : Nat} {b : BitVec 32} (h : scratchB s i o n data b = true) :
    Issues s i (xOf s i) ∧ ∀ l ∈ lanesOf (xOf s i).gt, PassesScratch s (xOf s i) o n data l b := by
  simp only [scratchB, Bool.and_eq_true, decide_eq_true_eq, List.all_eq_true, Bool.not_eq_true'] at h
  obtain ⟨⟨⟨⟨⟨h1, h2⟩, h3⟩, h4⟩, h5⟩, h6⟩ := h
  exact ⟨issues_of_check h1, lanes_one h2 ⟨h3, h4, h5, h6⟩⟩

/-- A private access at `b` passes in lane 0, as a check. -/
def privateB (s : State) (i : Instr) (o : Opnds) (n : Nat) (use : Use) (data : Nat) (b : BitVec 32) (leaf : Leaf) : Bool :=
  let x := xOf s i
  let va := (privateAt s x 0 b).toNat
  issuesB s i && decide (lanesOf x.gt = [0]) && decide (offset32 (s.core x.core) x o 0 = some b) &&
    (dataOf (s.core x.core) x o.d.toNat data 0).all (fun w => !w.isPoison) && decide (b.toNat % n = 0) &&
    decide (b.toNat + n ≤ (s.ctx x.cx).privSize) && canonical va && decide (findLeaf (s.core x.core).tlb x.cx va = some leaf) &&
    decide (s.leafCheck x.cx leaf (leaf.pa va) use = none)

theorem private_of_check {s : State} {i : Instr} {o : Opnds} {n : Nat} {use : Use} {data : Nat} {b : BitVec 32} {leaf : Leaf}
    (h : privateB s i o n use data b leaf = true) :
    Issues s i (xOf s i) ∧ ∀ l ∈ lanesOf (xOf s i).gt, PassesPrivate s (xOf s i) o n use data l b leaf := by
  simp only [privateB, Bool.and_eq_true, decide_eq_true_eq, List.all_eq_true, Bool.not_eq_true'] at h
  obtain ⟨⟨⟨⟨⟨⟨⟨⟨h1, h2⟩, h3⟩, h4⟩, h5⟩, h6⟩, h7⟩, h8⟩, h9⟩ := h
  exact ⟨issues_of_check h1, lanes_one h2 ⟨h3, h4, h5, h6, h7, h8, h9⟩⟩

/-- The last word of the scratchpad and of the private memory. -/
theorem witness_LocalAccesses :
    scratchB room (.lds base (ops 8 .zero (v 6) .zero) (mM .rlx .wg 0 .b32)) (ops 8 .zero (v 6) .zero) 4 0 4 = true ∧
    scratchB (withRegs room [(6, .good 2044)]) (.sts base (ops 8 .zero (v 6) .zero) (mM .rlx .wg 0 .b32)) (ops 8 .zero (v 6) .zero) 4 1 2044 = true ∧
    scratchB room (.atoms ext (ops 8 .zero (v 6) .zero) (mM .rlx .wg 0x1C .b32)) (ops 8 .zero (v 6) .zero) 4 2 4 = true ∧
    privateB room (.ldp base (ops 8 .zero (.imm6 12) .zero) (mM .rlx .fib 0 .b32)) (ops 8 .zero (.imm6 12) .zero) 4 .read 0 12 leaf0 = true ∧
    privateB room (.stp ext (ops 8 .zero (v 7) .zero) (mM .rlx .fib 0 .n16)) (ops 8 .zero (v 7) .zero) 2 .write 1 14 leaf0 = true := by
  decide +kernel

theorem witness_FencesAndRanges : issuesB room (.fence ext none_ (mM .ar .pkg 0 .n8)) = true ∧
    (∀ i ∈ [Instr.inv ext (ops 6 (v 4) .zero .zero) (mM .rlx .pkg 0 .n8), .wb ext (ops 6 (v 4) .zero .zero) (mM .rlx .sys 0 .n8)],
      issuesB room i = true ∧ lanesOf (xOf room i).gt = [0] ∧ address64 (room.core 0) (xOf room i) (ops 6 (v 4) .zero .zero) 0 = some 0xFFC ∧
      ((room.core 0).reg 0 6 0).isPoison = false) ∧
    globalB room (.pref ext (ops 0 (v 4) .zero .zero) (mM .rlx .pkg 0 .n8)) (ops 0 (v 4) .zero .zero) 1 .read 0 0xFFC leaf0 = true := by
  decide +kernel

/-- A scratchpad load with a poisoned, with a misaligned and with an outside offset, and a store of a poisoned word. -/
theorem witness_AccessTraps :
    (let i := Instr.lds base (ops 8 .zero (v 99) .zero) (mM .rlx .wg 0 .b32)
     issuesB room i = true ∧ offset32 (room.core 0) (xOf room i) (ops 8 .zero (v 99) .zero) 0 = none) ∧
    (let i := Instr.sts ext (ops 99 .zero (v 6) .zero) (mM .rlx .wg 0 .b32)
     issuesB room i = true ∧ (dataOf (room.core 0) (xOf room i) 99 1 0).any LWord.isPoison = true) ∧
    (let i := Instr.lds base (ops 8 .zero (v 7) .zero) (mM .rlx .wg 0 .b32)
     issuesB room i = true ∧ offset32 (room.core 0) (xOf room i) (ops 8 .zero (v 7) .zero) 0 = some 14 ∧ 14 % 4 ≠ 0) ∧
    (let s := withRegs room [(7, .good 2048)]
     let i := Instr.lds base (ops 8 .zero (v 7) .zero) (mM .rlx .wg 0 .b32)
     issuesB s i = true ∧ offset32 (s.core 0) (xOf s i) (ops 8 .zero (v 7) .zero) 0 = some 2048 ∧ s.scrLimit (xOf s i) < 2048 + 4) := by
  decide +kernel

/-! The control words. -/

/-- The state that a word or an event leaves, and the same with the word of slot 0 of core 0 current. -/
def after (i : Instr) (s : State) : State :=
  match exec i s with
  | .next t => t
  | _ => s

def current (s : State) : State := { s with cur := ⟨0, 0, 1, [0]⟩ }

/-- The frame of the small package's fibre. -/
def frame0 : Frame := { base := 0, rows := 256, depth := 0, members := 1, handler := none }

/-- A batch stands in its spindle as a check. -/
def standsB (s : State) (x : Iss) (fr : Frame) : Bool :=
  match (s.core x.core).spindle x.slot with
  | none => false
  | some sp => (lanesOf x.lanes).all fun l => decide (sp.frameOf l = some fr) && match sp.fibre l with
    | some f => decide (f.pc = x.pc ∧ f.base = x.base ∧ f.rows = x.rows)
    | none => false

theorem stands_of_check {s : State} {x : Iss} {fr : Frame} (h : standsB s x fr = true) : Stands s x fr := by
  unfold standsB at h
  cases e : (s.core x.core).spindle x.slot with
  | none => simp [e] at h
  | some sp =>
    simp only [e, List.all_eq_true, Bool.and_eq_true, decide_eq_true_eq] at h
    refine ⟨sp, e, ?_, fun l hl => (h l hl).1⟩
    intro l hl
    cases g : sp.fibre l with
    | none => have := (h l hl).2; simp [g] at this
    | some f => have := (h l hl).2; simp only [g, decide_eq_true_eq] at this; exact ⟨f, rfl, this.1, this.2.1, this.2.2⟩

/-- A word issues where its batch stands, as a check. -/
def issuesStands (s : State) (i : Instr) (fr : Frame) : Bool := issuesB s i && standsB s (xOf s i) fr && decide ((xOf s i).gt ≠ 0)

/-- The spindle of slot 0 of core 0, changed; the same with its batch waiting. -/
def onSpindle0 (s : State) (f : Spindle → Spindle) : State := s.onCore 0 fun c => c.onSpindle 0 f
def parked (s : State) (w : Wait) : State := onSpindle0 s fun sp => { sp with batches := sp.batches.map fun b => { b with wait := w } }

/-- What stands at slot 0 of core 0. -/
def spindle0 (s : State) : Spindle := ((s.core 0).spindle 0).getD
  { wg := 0, sidx := 0, seg := 0, fibres := [], batches := [], lastS := false, loops := [], frames := [], pend := [], issues := 0, spilled := false }

def batch0 (s : State) : Batch := (spindle0 s).batches.headD { lanes := 0, wait := .none, mark := false, waited := 0, current := false }

theorem witness_Branches :
    (let i := Instr.br base (ops 0 (.off18 0x3FFFF) .zero .zero) 0
     issuesStands small i frame0 = true ∧ (srcVal (small.core 0) (xOf small i) (.off18 0x3FFFF) 0).map
       (fun w => (xOf small i).pc + 4 * w.signExtend 64) = some (-4) ∧ (-4 : BitVec 64).toNat % 4 = 0) ∧
    (let s := withRegs small [(2, .good 0x100)]
     let i := Instr.jmp base (ops 0 (v 2) .zero .zero) 0
     issuesStands s i frame0 = true ∧ srcVal64 (s.core 0) (xOf s i) (v 2) 0 = some 0x100 ∧ (0x100 : BitVec 64).toNat % 4 = 0) := by
  decide +kernel

/-- A call of a frame of 8 rows with six arguments, and the frame full below it. -/
def callWord : Instr := .call (extLit 0x1000) (ops 0 .lit .zero .zero) 0x607
def full : State := onSpindle0 small fun sp => { sp with frames := sp.frames ++ [{ frame0 with base := 256, depth := 1, members := 2 }] }
def deep : State := current (after callWord small)
def frame1 : Frame := { base := 256, rows := 8, depth := 1, members := 1, handler := none }

theorem witness_Calls : callWord.wf = true ∧ issuesStands small callWord frame0 = true ∧ xf (0x607 : BitVec 16) 12 8 + 2 ≤ (xOf small callWord).rows ∧
    srcVal64 (small.core 0) (xOf small callWord) .lit 0 = some 0x1000 ∧ (small.core 0).frameRun 0 1 = some 256 ∧
    issuesStands full callWord frame0 = true ∧ (full.core 0).frameRun 0 1 = none ∧
    (let i := Instr.calli ext (ops 0 (v 2) .zero .zero) 0x607
     issuesStands small i frame0 = true ∧ srcVal64 (small.core 0) (xOf small i) (v 2) 0 = some 0 ∧ issuesStands full i frame0 = true) ∧
    (let s := parked small (.call 8 6 0x1000 [0, 0, 0, 0, 0])
     s.waitAt 0 0 0 = some (spindle0 s, batch0 s) ∧ (batch0 s).wait = .call 8 6 0x1000 [0, 0, 0, 0, 0] ∧ s.turnOf 0 0 (batch0 s).lanes = true ∧
     ((spindle0 s).fibre 0).isSome = true ∧ (spindle0 s).frameOf 0 = some frame0 ∧ (s.core 0).frameRun 0 ((8 + 7) / 8) = some 256) := by
  decide +kernel

def retWord : Instr := .ret ext none_ 2
def returning : State := after retWord deep

theorem witness_Returns : issuesStands small retWord frame0 = true ∧ issuesStands deep retWord frame1 = true ∧ frame1.depth ≠ 0 ∧
    ((deep.core 0).linkRead 256).isSome = true ∧ returning.waitAt 0 0 0 = some (spindle0 returning, batch0 returning) ∧
    (batch0 returning).wait = .ret 2 [0] ∧ (spindle0 returning).frameOf 0 = some frame1 ∧ lanesOf frame1.members = [0] ∧
    (spindle0 returning).batchOf 0 = some (batch0 returning) ∧ returning.tileIn 0 [(256, 8)] = false ∧
    ((returning.core 0).linkRead 256).isSome = true := by decide +kernel

theorem witness_Unwinds :
    let i := Instr.unwind ext (ops 0 .zero .zero .zero) 0
    let j := Instr.unwind ext (ops 0 .zero (v 2) .zero) 0
    issuesStands deep i frame1 = true ∧ issuesStands deep j frame1 = true ∧ (deep.cluster 0).jobs = [] ∧
    srcVal (deep.core 0) (xOf deep i) .zero 0 = some 0 ∧ srcVal64 (deep.core 0) (xOf deep j) (v 2) 0 = some 0 ∧
    (spindle0 deep).atDepth 0 1 = some frame1 ∧ ((deep.core 0).linkRead 256).isSome = true := by decide +kernel

/-- A clean line of L2 with the words given, and zeros after them. -/
def lineOf (ws : List LWord) : L2Line := { ws := ws ++ List.replicate (32 - ws.length) (.good 0), dirty := false, ks := 0, view := false, first := false, way := 0 }

/-- A loop of a body of one word; a count of 1 and of 0; four loop records; and a body's last word. -/
def loopWord : Instr := .loop ext (ops 0 (v 2) .zero .zero) 3
def record : LoopRec := { stop := 0, start := 0x40, base := 0, rc := [(0, 2)] }

theorem witness_Loops : loopWord.wf = true ∧
    (let s := withRegs small [(2, .good 1)]
     issuesStands s loopWord frame0 = true ∧ srcVal (s.core 0) (xOf s loopWord) (v 2) 0 = some 1 ∧ (spindle0 s).loops = [] ∧
     (xOf s loopWord).pc + 12 ≠ (xOf s loopWord).pc) ∧
    (let s := { small with l2 := SMap.put small.l2 0 (lineOf []), mcache := [((metaPlace 0).1, { ents := [((metaPlace 0).2, 0)], dirty := false })] }
     let u := s.onCore 0 fun c => c.onSpindle 0 fun sp => sp
     issuesStands s loopWord frame0 = true ∧ srcVal (s.core 0) (xOf s loopWord) (v 2) 0 = some 0 ∧ (xOf s loopWord).stay = 0 ∧
     (xOf s loopWord).pc + 12 = 12 ∧ (match u.fetchWord 0 0 12 with
       | (a, .ok w) => decide (a = u ∧ w = 0)
       | _ => false) = true) ∧
    (let s := onSpindle0 (withRegs small [(2, .good 1)]) fun sp => { sp with loops := List.replicate 4 { record with stop := 0x80 } }
     issuesStands s loopWord frame0 = true ∧ srcVal (s.core 0) (xOf s loopWord) (v 2) 0 = some 1 ∧ (spindle0 s).loops.length = 4) ∧
    (∀ k ∈ [2, 1], let s := onSpindle0 small fun sp => { sp with loops := [{ record with rc := [(0, BitVec.ofNat 32 k)] }] }
     let i := Instr.nop { base with guard := always } none_
     issuesStands s i frame0 = true ∧ (xOf s i).lanes = bitMask 0 ∧ (spindle0 s).loops = [{ record with rc := [(0, BitVec.ofNat 32 k)] }] ∧
     (xOf s i).pc = 0 ∧ (xOf s i).base = 0) := by decide +kernel

theorem witness_Forks :
    let s := withRegs small [(2, .good 6), (4, .good 0x100)]
    let i := Instr.fork ext (ops 8 (v 2) (v 4) .zero) 0
    issuesStands s i frame0 = true ∧ (s.core 0).spindle 0 = some (spindle0 s) ∧ ((spindle0 s).fibre 0).isSome = true ∧
    srcVal (s.core 0) (xOf s i) (v 2) 0 = some 6 ∧ srcVal64 (s.core 0) (xOf s i) (v 4) 0 = some 0x100 ∧ (0x100 : BitVec 64).toNat % 4 = 0 := by
  decide +kernel

/-- A batch that waits, as the release of its wait finds it. -/
def waits (s : State) : Bool := decide (s.waitAt 0 0 0 = some (spindle0 s, batch0 s))

theorem witness_EndsAndJoins : issuesStands small (.endFibre base none_) frame0 = true ∧ (small.cluster 0).jobs = [] ∧
    issuesStands small (.exit base none_) frame0 = true ∧ issuesStands small (.join base (ops 0 (v 2) .zero .zero)) frame0 = true ∧
    srcVal (small.core 0) (xOf small (.join base (ops 0 (v 2) .zero .zero))) (v 2) 0 = some 0 ∧
    issuesStands small (.yieldI base none_) frame0 = true ∧
    (let s := parked small (.join 1 1)
     waits s = true ∧ (batch0 s).wait = .join 1 1 ∧ lanesOf (1 : Word) = [0] ∧ (spindle0 s).batchOf 0 = some (batch0 s) ∧
     (spindle0 s).batches.filter (fun a => a.lanes &&& (batch0 s).lanes != 0) = [batch0 s]) ∧
    (let s := parked small (.yield 0 true 1)
     waits s = true ∧ (batch0 s).wait = .yield 0 true 1) ∧
    (let s := onSpindle0 (parked small (.yield 0 false 1)) fun sp => { sp with issues := 1 }
     waits s = true ∧ (batch0 s).wait = .yield 0 false 1 ∧ 0 < (spindle0 s).issues) ∧
    (let s := onSpindle0 small fun sp => { sp with batches := sp.batches.map fun b => { b with mark := true } }
     waits s = true ∧ (batch0 s).mark = true ∧ (batch0 s).wait = .none ∧ (s.core 0).outstanding 0 = false) := by decide +kernel

/-- The barrier object at the start of the scratchpad. -/
def objected : State := room.onCore 0 fun c => c.setMbar 0 { ph := 5, got := 0, exp := 0, init := 1, arr := 1 }

/-- A counter of 0x100000005 at the start of page 0. -/
def line51 : L2Line := { ws := [.good 5, .good 1] ++ List.replicate 30 (.good 0), dirty := false, ks := 0, view := false, first := false, way := 0 }
def counting : State := { objected with l2 := SMap.put objected.l2 0 line51 }

theorem witness_BarriersAndWaits :
    (let i := Instr.bar ext (ops 0 .zero .zero .zero) 0x20
     issuesStands room i frame0 = true ∧ Sys2Proof.Scope.ofCode (xf (0x20 : BitVec 16) 6 4) = some .wg ∧ i.wf = true) ∧
    (let i := Instr.bar ext (ops 0 (v 6) .zero .zero) 0xAF
     issuesStands room i frame0 = true ∧ Sys2Proof.Scope.ofCode (xf (0xAF : BitVec 16) 6 4) = some .wg ∧ i.wf = true ∧
     (srcVal (room.core 0) (xOf room i) (v 6) 0).isSome = true) ∧
    (∀ i ∈ [Instr.mbarInit ext (ops 0 .zero .zero (v 6)) 2, .mbarExpect ext (ops 0 .zero .zero (v 6)) 6, .mbarWait ext (ops 0 .zero .zero (v 6)) 2,
        .mbarTest ext (ops 8 .zero .zero (v 6)) 2, .mbarArrive ext (ops 8 .zero .zero .zero) 2], i.wf = true ∧ issuesStands objected i frame0 = true ∧
      offset32 (objected.core 0) (xOf objected i) none_ 0 = some 0 ∧ 0 + 16 ≤ objected.scrLimit (xOf objected i) ∧
      srcVal (objected.core 0) (xOf objected i) (v 6) 0 = some 4 ∧ ((objected.core 0).mbarAt 0).isSome = true) ∧
    (let o := ops 0 (v 20) .zero (v 20)
     globalB room (.waitge ext o 2) o 8 .read 0 0 leaf0 = true ∧ (xOf room (.waitge ext o 2)).gt ≠ 0 ∧
     srcVal64 (room.core 0) (xOf room (.waitge ext o 2)) (v 20) 0 = some 0) ∧
    (let s := (parked small (.bar 3 .wg none true false 1)).onCore 0 fun c => c.onWg 0 fun w => { w with bars := [(3, ⟨true, none, 1⟩)] }
     let w := ((s.core 0).wg 0).getD default
     (s.core 0).wg 0 = some w ∧ w.halted = false ∧ (s.core 0).spindlesOf 0 = [(0, spindle0 s)] ∧ SMap.sortedFrom none (s.core 0).spindles = true ∧
     (SMap.get ⟨false, none, 0⟩ w.bars 3).opened = true ∧ (s.core 0).liveFibres 0 = 1 ∧ (SMap.get ⟨false, none, 0⟩ w.bars 3).arr = 1 ∧
     (batch0 s).wait = .bar 3 .wg none true false 1 ∧ (spindle0 s).batches = [batch0 s] ∧ (s.core 0).spilled = []) ∧
    (∀ k ∈ [4, 5], let s := parked objected (.mbarWait [(0, 0, BitVec.ofNat 32 k)] .wg [0])
     waits s = true ∧ (batch0 s).wait = .mbarWait [(0, 0, BitVec.ofNat 32 k)] .wg [0] ∧ (s.core 0).iq = [] ∧
     ((s.core 0).mbarAt 0).map (fun m => m.ph) = some 5) ∧
    (let s := parked counting (.waitge [⟨0, 0, true, false, false, 0x100000005⟩] .pkg 0xFF [0])
     waits s = true ∧ (batch0 s).wait = .waitge [⟨0, 0, true, false, false, 0x100000005⟩] .pkg 0xFF [0] ∧
     s.readCounter 0 0 0 true false false = (s, [.good 5, .good 1])) := by decide +kernel

/-! Traps. -/

/-- The small package with page tables for context 0: its walker cache holds the upper levels, and the last level, in L2 at 0x4000, maps
page 0 to page 0 of HBM, sealed, and pages 1 to 15 to pages of host memory that are accessed where they lie. -/
def tableEntry (k : Nat) : List LWord :=
  let e := if k = 0 then 0x463 else hostBase + k * 4096 + 0x63
  [.good (BitVec.ofNat 32 e), .good (BitVec.ofNat 32 (e / 2 ^ 32))]

def tableLine : L2Line := { ws := (List.range 16).flatMap tableEntry, dirty := false, ks := 0, view := false, first := false, way := 0 }

def mapped (s : State) : State :=
  { s with walkers := [(0, [5, 4, 3, 2].map fun n => ⟨0, n, 0, 4⟩)], l2 := SMap.put s.l2 0x80 tableLine,
           parts := SMap.put s.parts 0 { s.part 0 with pcg := BitVec.allOnes 512 } }

/-- Context 0 with a handler at 0x200 of 8 rows and a ring of 16 records at page 1. -/
def handled (s : State) : State := { s with ctxs := SMap.put s.ctxs 0 { s.ctx 0 with trv := 0x207, frb := 0x1000 } }

/-- What a trap word of a kind finds: its batch stands, and with `act` its record is written to the ring (or, where there is no handler, there is
none), with room for the handler's frame. -/
def trapB (s : State) (i : Instr) (kind act : Nat) : Bool :=
  let x := xOf s i
  let f := ((spindle0 s).fibre 0).getD ⟨0, 0, 0, 0, 0, none, false, none⟩
  let why : TrapInfo := { kind := kind, info := 7, addr := 0, lanes := x.gt, batch := x.batch, pc := x.pc, rpc := x.after, iw := [0], recVa := none }
  let r : RecReq := { ctx := 0, act := act, kind := kind, info := 7, addr := 0, pc := x.pc, rpc := x.after, lanes := x.gt, batch := x.batch,
                      wid := f.wid, lseq := 0, depth := 0, slot := 0, core := 0, iw := [0] }
  let u := (s.onCore 0 fun c => c.onSpindle 0 fun sp => sp.leaveEnd x x.gt).holdTrap 0 0 x.gt why
  let v := u.writeRecord r
  i.wf && issuesStands s i frame0 && decide (s.recq = []) && ((spindle0 s).fibre 0).isSome && ((s.core 0).wg 0).any (fun w => !w.killed) &&
    decide ((s.ctx 0).entry ≠ 0 ∧ (s.ctx 0).ringBase ≠ 0 ∧ v.2 = .written 4224 ∧ v.1.ctx 0 = s.ctx 0 ∧ v.1.cores = u.cores ∧
      (v.1.core 0).frameRun 0 (((s.ctx 0).hrows + 7) / 8) = some 256)

/-- A context without a handler whose ring of 16 records at page 1 is full. -/
def fullRing (s : State) : State :=
  { s with ctxs := SMap.put s.ctxs 0 { s.ctx 0 with frb := 0x1000 }, host := Memory.write s.host 0x1000 16 }

/-- A trap word whose record finds that ring full. -/
def trapFull (s : State) (i : Instr) (kind : Nat) : Bool :=
  let x := xOf s i
  let f := ((spindle0 s).fibre 0).getD ⟨0, 0, 0, 0, 0, none, false, none⟩
  let why : TrapInfo := { kind := kind, info := 7, addr := 0, lanes := x.gt, batch := x.batch, pc := x.pc, rpc := x.after, iw := [0], recVa := none }
  let r : RecReq := { ctx := 0, act := 1, kind := kind, info := 7, addr := 0, pc := x.pc, rpc := x.after, lanes := x.gt, batch := x.batch,
                      wid := f.wid, lseq := 0, depth := 0, slot := 0, core := 0, iw := [0] }
  let u := (s.onCore 0 fun c => c.onSpindle 0 fun sp => sp.leaveEnd x x.gt).holdTrap 0 0 x.gt why
  i.wf && issuesStands s i frame0 && decide (s.recq = [] ∧ (s.ctx 0).entry = 0 ∧ (u.writeRecord r).2 = .full ∧ (u.writeRecord r).1.cores = u.cores)

def trapped : TrapInfo :=
  { kind := 14, info := 7, addr := 0, lanes := 1, batch := 1, pc := 0, rpc := 12, iw := [0], recVa := some 0x1080 }

/-- The free choice whether a debugger is attached is one of the two: the breakpoint's other hypotheses hold for both. -/
theorem witness_Traps :
    trapB (handled (mapped small)) (.trap ext none_ 7) 14 0 = true ∧ trapB (handled (mapped small)) (.sysSvc ext none_ 7) 16 0 = true ∧
    trapB (handled (mapped small)) (.trapBkpt ext none_ 7) 15 0 = true ∧ trapB (handled (mapped small)) (.trapBkpt ext none_ 7) 15 2 = true ∧
    (∀ i ∈ [Instr.trap ext none_ 7, .sysSvc ext none_ 7, .trapBkpt ext none_ 7],
      issuesStands small i frame0 = true ∧ (small.ctx 0).entry = 0 ∧ small.recq = [] ∧ ((small.core 0).wg 0).any (fun w => !w.killed) = true) ∧
    (∀ q ∈ [(Instr.trap ext none_ 7, 14), (.sysSvc ext none_ 7, 16), (.trapBkpt ext none_ 7, 15)], trapFull (fullRing (mapped small)) q.1 q.2 = true) ∧
    (let s := parked (handled small) (.trap trapped)
     waits s = true ∧ (batch0 s).wait = .trap trapped ∧ s.turnOf 0 0 (batch0 s).lanes = true ∧ terminates 14 = false ∧
     (s.ctx 0).entry ≠ 0 ∧ (s.ctx 0).ringBase ≠ 0 ∧ ((spindle0 s).fibre 0).isSome = true ∧ (spindle0 s).frameOf 0 = some frame0 ∧
     (s.core 0).frameRun 0 (((s.ctx 0).hrows + 7) / 8) = some 256) := by decide +kernel

theorem witness_Traps_debugger : Config.debuggerAttached (handled (mapped small)).turn = true ∨
    Config.debuggerAttached (handled (mapped small)).turn = false := by
  cases Config.debuggerAttached (handled (mapped small)).turn
  · exact .inr rfl
  · exact .inl rfl

/-! The words of memory and the registry. -/

/-- A package whose L2 holds line 0 whole, with 5 and 1 in its first words, and whose metadata cache holds the entry of block 0. -/
def lined : State := { small with
  l2 := SMap.put small.l2 0 line51,
  mcache := [((metaPlace 0).1, { ents := [((metaPlace 0).2, 0)], dirty := false })] }

/-- A home answers a request at once, as a check. -/
def answersB (s : State) (cx w : Nat) (sl writes : Bool) : Bool :=
  decide (s.ensureLine (some cx) (4 * w) (s.ctx cx).ks sl = (s, true)) &&
    (match SMap.find s.l2 (w / 32) with
      | some l => decide (l.ws.length = 32)
      | none => false) &&
    !s.hostBlocks w writes && !s.waitsOwn w && (!writes || decide (s.exhausted w = (s, false) ∧ s.makeRoom (w / 32) 0 [w] = (s, true))) &&
    decide ((s.core 0).l1Lines.length < 1024) && !(s.core 0).smpCtl.getLsbD 23

/-- Entries of the issue queue, of the store buffer and of the results of lane 0. -/
def entry (k : OpKind) : MemOp := { seen := false, counted := false, grp := 0, tick := 0, fid := 0, slot := 0, lane := 0, wg := 0, ctx := 0, kind := k }
def stored (pl : Place) (n : Nat) (sent : Bool) : StoreEnt :=
  { counted := false, grp := 0, tick := 0, fid := 0, wg := 0, ctx := 0, pl := pl, n := n, data := [.good 7], rel := false, sent := sent }
def place0 : Place := .mem 0 0 true false 0 0
def queue (s : State) (o : MemOp) : State := s.onCore 0 fun c => { c with iq := [o] }
def buffer (s : State) (e : StoreEnt) : State := s.onCore 0 fun c => { c with sbuf := [e] }

/-- A word that core 0 owns, with its copy in L1. -/
def owned (s : State) (w : Nat) (x : L1Word) : State :=
  { s.onCore 0 fun c => { c with l1 := [(w, x)] } with regst := [(w, .own 0 x.u)] }

/-- A result lands; a load is asked of its home; a store drains into an owned word, is sent and registers its word, and lands in host
memory; and a wide compare-and-swap and an addition act at the home. -/
theorem witness_MemoryMoves :
    (let r : Result := { fid := 0, slot := 0, lane := 31, words := [(8, .good 5), (1, .good 0)], v1row := 1, pd := some (26, none), flags := 1, smp := none }
     let s := small.onCore 0 fun c => { c with results := [r] }
     (s.core 0).results[0]? = some r ∧ r.smp = none ∧ 0 < r.v1row ∧ (∀ w ∈ r.words, r.v1row ≤ w.1) ∧ r.lane < 32) ∧
    (let o := entry (.load place0 4 false [] ⟨0, 8⟩)
     let s := queue lined o
     (s.core 0).iq[0]? = some o ∧ s.opReady 0 0 = true ∧ (s.core 0).alive 0 = true ∧ answersB s 0 0 true false = true ∧
     s.regAt 0 = none ∧ (s.core 0).l1At 0 = none ∧ (s.core 0).sbuf = []) ∧
    (∀ n ∈ [4, 2, 1], let e := stored place0 n false
     let s := buffer (owned lined 0 ⟨.good 9, true, true⟩) e
     (s.core 0).oldestStore 0 = some e ∧ isCore 0 = true ∧ (s.core 0).smpCtl.getLsbD 23 = false ∧ s.regAt 0 = some (.own 0 true) ∧
     (s.core 0).l1At 0 = some ⟨.good 9, true, true⟩) ∧
    (let s := buffer lined (stored place0 4 false)
     (s.core 0).oldestStore 0 = some (stored place0 4 false) ∧ s.regAt 0 = none) ∧
    (let s := buffer lined (stored place0 4 true)
     (s.core 0).oldestStore 0 = some (stored place0 4 true) ∧ answersB s 0 0 true true = true ∧ s.regAt 0 = none) ∧
    (let e := stored (.inPlace hostBase 0) 4 false
     let s := buffer small e
     (s.core 0).oldestStore 0 = some e ∧ isHost hostBase = true ∧ hostBase % 4 = 0 ∧ s.hostOff = false ∧ (s.core 0).smpCtl.getLsbD 23 = false) ∧
    (∀ op ∈ [0, 7], let o := entry (.atomic place0 op 0 4 [.good 7] (if op = 7 then [.good 5] else []) false (some ⟨0, 8⟩))
     let s := queue lined o
     (s.core 0).iq[0]? = some o ∧ s.opReady 0 0 = true ∧ (s.core 0).alive 0 = true ∧ answersB s 0 0 true true = true ∧ s.regAt 0 = none ∧
     s.l2Word 0 = .good 5) := by decide +kernel

theorem witness_RegistryMoves :
    (let s := owned lined 0 ⟨.good 9, false, false⟩
     (s.core 0).l1At 0 = some ⟨.good 9, false, false⟩) ∧
    (∀ u ∈ [false, true], let s := owned lined 0 ⟨.good 9, true, u⟩
     (s.core 0).l1At 0 = some ⟨.good 9, true, u⟩ ∧ s.regAt 0 = some (.own 0 u) ∧ (s.holdOrder.filter fun e => lineBank e.1 == 0).length < 2048 ∧
     s.recallable 0 (· == 0) = [0] ∧ (SMap.find s.l2 0).map (fun l => l.ws.length) = some 32) ∧
    (∀ bs ∈ [1, 3], let o := entry (.relWait (BitVec.ofNat 512 bs) false)
     let s := { queue lined o with regst := [(0, .hold 0 (.good 9))] }
     (s.core 0).iq[0]? = some o ∧ (BitVec.ofNat 512 bs).getLsbD (homeBank 0) = true ∧ (s.core 0).iq.take 0 = []) := by decide +kernel

/-! The engines. -/

/-- The package with words of its scratchpad written, and register 2 naming the card there. -/
def carded (l : List (Nat × Word)) : State := room.onCore 0 fun c => l.foldl (fun c e => c.setScr e.1 (.good e.2)) c

/-- A copy word of minor k finds a card at the start of the scratchpad that parses. -/
def copyB (i : Instr) (k : Nat) (l : List (Nat × Word)) : Bool :=
  let s := carded l
  i.wf && issuesB s i && s.engineRight (xOf s i) && decide (srcVal (s.core 0) (xOf s i) (v 20) 0 = some 0) && decide (64 ≤ s.scrLimit (xOf s i)) &&
    !s.cardBusy (xOf s i) && (s.cardWords (xOf s i) 0 0 16).all (fun w => !w.isPoison) && (parseCopy k (numOf (s.cardWords (xOf s i) 0 0 16))).isSome &&
    decide (s.copiesOf 0 + 1 ≤ 512) && decide (lanesOf (xOf s i).gt = [0])

theorem witness_Copies :
    copyB (.cpyPlain ext (ops 0 (v 20) .zero .zero) 63) 0 [(6, 4)] = true ∧
    copyB (.cpyPlane ext (ops 0 (v 20) .zero .zero) 64) 1 [(4, 1), (11, 1)] = true ∧
    copyB (.cpyGather ext (ops 0 (v 20) .zero .zero) 0) 2 [(11, 1), (13, 4)] = true ∧
    copyB (.cpyMcast ext (ops 0 (v 20) .zero .zero) 0) 3 [(4, 1), (6, 4), (12, 0x100000)] = true ∧
    (∀ i ∈ [Instr.cwaitAll ext (ops 0 (v 2) .zero .zero) 2, .cwaitAny ext (ops 0 (v 2) .zero .zero) 6, .cwaitFirst ext (ops 8 (v 2) .zero .zero) 0x7FA],
      i.wf = true ∧ issuesStands small i frame0 = true ∧ srcVal64 (small.core 0) (xOf small i) (v 2) 0 = some 0) ∧
    (∀ m ∈ [2, 6, 0x7FA], (Sys2Proof.Scope.ofCode (xf (BitVec.ofNat 16 m) 2 0)).isSome = true) ∧
    (∀ i ∈ [Instr.cbatchClose ext none_ 0, .cbatchWait ext none_ 15], i.wf = true ∧ issuesStands small i frame0 = true ∧
      small.engineRight (xOf small i) = true ∧ ((small.core 0).wg 0).map (·.openB) = some []) ∧
    (∀ k ∈ [0, 1, 2], let s := parked small (.cwait k (BitVec.allOnes 64) 1 8 .pkg 0xFF 3)
     waits s = true ∧ (batch0 s).wait = .cwait k (BitVec.allOnes 64) 1 8 .pkg 0xFF 3 ∧
     ((s.core 0).wg 0).map (fun w => w.ctag &&& BitVec.allOnes 64) = some (BitVec.allOnes 64)) ∧
    (let s := parked small (.cbatchWait 0 3)
     waits s = true ∧ (batch0 s).wait = .cbatchWait 0 3 ∧ ((s.core 0).wg 0).map (fun w => w.closedB) = some []) := by decide +kernel

/-- A chain's descriptor of zeros at 0x40 of page 0 and a gather card in the scratchpad; a tile card. -/
def chained : State := { carded [(16, 1), (24, 1), (25, 4)] with l2 := lined.l2, mcache := lined.mcache }
def postWord : Instr := .post ext (ops 8 (v 22) (v 20) .zero) 0
def tiled : State := carded [(7, 2)]
def tileWord : Instr := .ttask ext (ops 0 (v 20) .zero .zero) 0

theorem witness_CardsAndTiles :
    (let s := withRegs chained [(22, .good 0x40)]
     postWord.wf = true ∧ issuesB s postWord = true ∧ s.engineRight (xOf s postWord) = true ∧ s.cardBusy (xOf s postWord) = false ∧ lanesOf (xOf s postWord).gt = [0] ∧
     (match postCheck (ops 8 (v 22) (v 20) .zero) (xOf s postWord) s 0 with
       | (t, .ok (va, d, _)) => decide (t = s ∧ va = 0x40 ∧ (d.tail + 1 - d.done).toNat ≤ 2 ^ d.lgn)
       | _ => false) = true) ∧
    (tileWord.wf = true ∧ issuesStands tiled tileWord frame0 = true ∧ tiled.cardBusy (xOf tiled tileWord) = false ∧ (match ttaskCheck (v 20) (xOf tiled tileWord) tiled 0 with
       | .ok c => decide (c.out = 2 ∧ c.out + (c.m + 1) * ((c.n + 32) / 32) ≤ (xOf tiled tileWord).rows)
       | .error _ => false) = true) ∧
    issuesStands small (.ttwait ext none_ 0) frame0 = true ∧
    (let s := parked small (.ttwait [0] 1 3)
     waits s = true ∧ (batch0 s).wait = .ttwait [0] 1 3 ∧ s.job 0 0 = none) := by decide +kernel

/-- A copy of one word from page 0 to page 0, and to the scratchpad with a credit. -/
def card : CopyCard :=
  { minor := 0, aux := 0, stride := 0, cmask := 0, stype := .i8, np := 0, rows := 0, prnd := .rn, nblk := 0, cadd := 0, ctr := 0, mbv := false,
    mbo := 0, len := 4, ssp := false, dsp := 0, dst := 0, src := 0x40 }
def copyJob (c : CopyCard) (st : JobStatus) (landed : List Nat) : Job :=
  { id := 0, ctx := 0, lseq := 0, core := 0, wg := 0, slot := 0, base := 0, kind := .copy c, reads := [], writes := [], edges := [], status := st,
    buf := [(0, .good 7)], landed := landed, credited := [], tag := some 63, recv := [], chain := none, eng := 0, scrBase := 0, scrLen := 2048,
    block := 0, acc := [], flags := [], st := 0, halted := false, ranks := 0, rank := 0, answers := [], peers := [], met := [], sent := [], verdict := 0, failed := none }
def withJob (s : State) (j : Job) : State := s.setCluster 0 { s.cluster 0 with jobs := [j] }

theorem witness_EngineJobs :
    (∀ c ∈ [card, { card with dsp := 1, mbv := true, mbo := 16, dst := 32 }], let j := copyJob c .queued []
     let s := withJob room j
     s.job 0 0 = some j ∧ j.status = .queued ∧ j.halted = false ∧ s.current 0 = true ∧ j.edges = []) ∧
    (let j := copyJob card .started []
     let s := withJob (mapped lined) j
     s.job 0 0 = some j ∧ 0 < card.len / 4 ∧ SMap.find j.buf 0 = some (.good 7) ∧
     (match s.translateHw (clusterDie 0) 0 0 .write with
       | (t, .ok (pa, l)) => decide (t = s ∧ pa = 0 ∧ inPlacePage l pa = false ∧ s.engineLine 0 pa l.sl true = (s, .ready))
       | _ => false) = true ∧
     s.registerWaits 0 = false ∧ s.makeRoom 0 0 [0] = (s, true) ∧ s.regAt 0 = none ∧ (SMap.find s.l2 0).map (fun l => l.ws.length) = some 32) ∧
    (let j := copyJob card .started [0]
     let s := { withJob lined j with regst := [(0, .j 0 0 0)] }
     s.job 0 0 = some j ∧ j.failed = none ∧ j.accessed = true) ∧
    (let j := copyJob { card with dsp := 1, mbv := true, dst := 32 } .started [0]
     let s := withJob objected j
     s.job 0 0 = some j ∧ (∃ g, g ∈ j.granules[0]? ∧ ∀ e ∈ j.granuleWrites g, e.1 ∈ j.landed) ∧ 0 ∉ j.credited ∧
     ((s.core 0).mbarAt 0).isSome = true) ∧
    (let j := copyJob card .started [0]
     let s := withJob lined j
     s.job 0 0 = some j ∧ j.accessed = true ∧ j.tag = some 63 ∧ s.regst = [] ∧ ((s.core 0).wg 0).isSome = true) ∧
    (let j := { copyJob card .started [] with failed := some (18, 0x40) }
     let s := { withJob lined j with regst := [(0, .j 0 0 0)] }
     s.job 0 0 = some j ∧ j.failed = some (18, 0x40) ∧ ((s.core 0).wg 0).any (fun w => !w.killed) = true) := by
  and_intros
  all_goals first
    | decide +kernel
    | exact ⟨(0, 0), by decide +kernel⟩

/-! Records, registers and system words. -/

/-- A row word finds its ranges. -/
def rowB (s : State) (i : Instr) (o : Opnds) (copy : Bool) : Bool :=
  i.wf && issuesB s i && decide (lanesOf (xOf s i).gt = [0]) && match rowCheck o copy (xOf s i) s 0 with
    | (t, .ok _) => decide (t = s)
    | _ => false

/-- Registers for records: 2,048 in 24, 0x800 in 26, 1 in 28. -/
def rowed : State := withRegs { chained with ctxs := SMap.put chained.ctxs 0 { chained.ctx 0 with ctxc := 0x600 } }
  [(24, .good 2048), (26, .good 0x800), (28, .good 1)]

/-- A record of kind 1 at 0 of page 0. -/
def recordLine : L2Line := lineOf (List.replicate 7 (.good 0) ++ [.good 0x1000])
def nmWord : Instr := .nmcNmlaunch ext (ops 0 (v 20) (v 20) .zero) 0
def unread : State := { rowed with l2 := SMap.put rowed.l2 0 recordLine }
def recorded : State := (nmlaunchCheck (ops 0 (v 20) (v 20) .zero) (xOf unread nmWord) unread 0).1

/-- The package with its queues full: 32 launches, 64 records, 16 primitives for each front. -/
def header0 : Header :=
  { setm := 0, waitm := 0, resvHi := 0, pv := false, prod := 0, resvLo := false, coop := false, scr := 0, frm := 0, rlev := 0, plev := 0,
    nf := 0, ws := [], ext := 0, argp := 0, code := 0, word3 := 0 }
def launch0 : Launch := { hdr := header0, lseq := 0, eligible := false, next := 0, total := 1, live := 0, rank := none, ring := none }
def prim0 : Prim := { ctx := 0, lseq := 0, wid := 0, draw := 0, idx := 0, vs := List.replicate 12 (.good 0), dvp := 0, attr := 0, ring := none }
def crowded : State :=
  { rowed with
    ctxs := SMap.put rowed.ctxs 0 { rowed.ctx 0 with launches := List.replicate 32 launch0 },
    clusters := SMap.put rowed.clusters 0 { rowed.cluster 0 with queues := [(0, List.replicate 64 default)] },
    prims := List.replicate 16 (0, prim0) }

theorem witness_RowCommandsAndRecords :
    rowB rowed (.nmcRowcp ext (ops 0 (v 20) (v 26) (v 24)) 0) (ops 0 (v 20) (v 26) (v 24)) true = true ∧ (rowed.ctx 0).own = true ∧
    rowB rowed (.nmcRowzero ext (ops 0 (v 20) .zero (v 24)) 1) (ops 0 (v 20) .zero (v 24)) false = true ∧
    (let i := nmWord
     i.wf = true ∧ issuesB recorded i = true ∧ lanesOf (xOf recorded i).gt = [0] ∧
     (match nmlaunchCheck (ops 0 (v 20) (v 20) .zero) (xOf recorded i) recorded 0 with
       | (t, .ok _) => decide (t = recorded)
       | _ => false) = true) ∧
    issuesStands small (.nfence base none_) frame0 = true ∧
    (∀ n ∈ [0, 1], let s := (parked small (.nfence 1)).onCore 0 fun c => c.onWg 0 fun w => { w with nmcnt := BitVec.ofNat 32 n }
     waits s = true ∧ (batch0 s).wait = .nfence 1 ∧ ((s.core 0).wg 0).map (·.nmcnt) = some (BitVec.ofNat 32 n)) ∧
    (∀ q ∈ [(rowed, true), (crowded, false)], let s := q.1
     (let i := Instr.launch ext (ops 0 (v 20) .zero .zero) 0
      issuesStands s i frame0 = true ∧ srcVal64 (s.core 0) (xOf s i) (v 20) 0 = some 0 ∧
      okIs s (s.globalPlace (xOf s i) 0 128 .read 0) place0 = true ∧ s.launchRoom 0 = q.2) ∧
     (let i := Instr.spawn ext (ops 0 (v 20) .zero .zero) 0
      issuesStands s i frame0 = true ∧ okIs s (s.globalPlace (xOf s i) 0 32 .read 0) place0 = true ∧ s.recordRoom 0 0 = q.2) ∧
     (let i := Instr.ppost ext (ops 0 (v 20) (v 28) (v 20)) 0
      issuesStands s i frame0 = true ∧ srcVal (s.core 0) (xOf s i) (v 28) 0 = some 1 ∧ 64 ≤ s.scrLimit (xOf s i) ∧
      s.cardBusy (xOf s i) = false ∧ (s.cardWords (xOf s i) 0 0 16).all (fun w => !w.isPoison) = true ∧ s.primRoom 0 = q.2)) := by decide +kernel

theorem witness_EventsAndRegisters :
    (let i := Instr.nmcRowq ext (ops 8 (v 20) .zero .zero) 0
     i.wf = true ∧ issuesB small i = true ∧ srcVal64 (small.core 0) (xOf small i) (v 20) 0 = some 0 ∧
     okIs small (small.translate 0 0 0 .read) (0, leaf0) = true ∧ isHbm 0 = true) ∧
    (let s := withRegs small [(2, .good 255)]
     ∀ i ∈ [Instr.evtSet ext (ops 0 (v 2) .zero .zero) 0, .evtClear ext (ops 0 (v 2) .zero .zero) 1, .evtTest ext (ops 8 (v 2) .zero .zero) 0],
      i.wf = true ∧ issuesB s i = true ∧ srcVal (s.core 0) (xOf s i) (v 2) 0 = some 255) ∧
    (∀ m ∈ [0, 1, 10, 12, 15, 16, 24, 31], let i := Instr.sregRdsr ext (ops 8 .zero .zero .zero) (BitVec.ofNat 16 m)
     i.wf = true ∧ issuesStands small i frame0 = true ∧ sregExists m = true ∧ ((small.core 0).wg 0).isSome = true) ∧
    (issuesStands deep (.sregRdsr ext (ops 6 .zero .zero .zero) 14) frame1 = true ∧ ((deep.core 0).linkRead 256).isSome = true) ∧
    (∀ n ∈ [1, 5], let s := withRegs small [(2, .good (BitVec.ofNat 32 n))]
     let i := Instr.sregWrsr ext (ops 0 (v 2) .zero .zero) 3
     i.wf = true ∧ issuesStands s i frame0 = true ∧ srcVal (s.core 0) (xOf s i) (v 2) 0 = some (BitVec.ofNat 32 n)) ∧
    (let s := withRegs room [(2, .good 0), (3, .good 8)]
     let i := Instr.sregWrsr ext (ops 0 (v 2) .zero .zero) 12
     i.wf = true ∧ issuesStands s i frame0 = true ∧ srcVal64 (s.core 0) (xOf s i) (v 2) 0 = some 0x800000000 ∧
     0x800000000 % 2 ^ 48 = 2048 * 2 ^ 24 ∧ s.scrBase (xOf s i) = 0 ∧ 2048 ≤ s.scrBase (xOf s i) + s.scrLimit (xOf s i)) ∧
    issuesStands small (.sregWrsr ext (ops 0 (v 2) .zero .zero) 0) frame0 = true := by decide +kernel

/-- The example of RFC 3394, 4.6: the wrapped key under KEK 00…1F, as the session's words of an image: number 9, sequence 1. -/
def kek : BitVec 256 := 0x000102030405060708090A0B0C0D0E0F101112131415161718191A1B1C1D1E1F
def wrapped : List Nat :=
  [0x28, 0xC9, 0xF4, 0x04, 0xC4, 0xB8, 0x10, 0xF4, 0xCB, 0xCC, 0xB3, 0x5C, 0xFB, 0x87, 0xF8, 0x26, 0x3F, 0x57, 0x86, 0xE2,
   0xD8, 0x0E, 0xD3, 0x26, 0xCB, 0xC7, 0xF0, 0xE7, 0x1A, 0x99, 0xF4, 0x3B, 0xFB, 0x98, 0x8B, 0x9B, 0x7A, 0x02, 0xDD, 0x21]

theorem test_keyUnwrap : keyUnwrap kek (wrapped.map (BitVec.ofNat 8)) =
    some 0x00112233445566778899AABBCCDDEEFF000102030405060708090A0B0C0D0E0F := by decide +kernel

def imageWord (k : Nat) : LWord :=
  if k = 0 then .good 9 else if k = 1 then .good 1 else if 3 ≤ k ∧ k < 13 then
    .good (BitVec.ofNat 32 (((List.range 4).map fun j => wrapped.getD (4 * (k - 3) + j) 0 * 2 ^ (8 * j)).sum))
  else .good 0
def imageLine : L2Line := { ws := (List.range 32).map imageWord, dirty := false, ks := 0, view := false, first := false, way := 0 }

/-- The system context with key slots 1 active, 2 staged, 3 re-keying, and a session. -/
def keyed : State := withRegs
  { rowed with
    l2 := SMap.put rowed.l2 0 imageLine,
    keys := [(0, { KeySlot.reset with st := .active }), (1, { KeySlot.reset with st := .active }), (2, { KeySlot.reset with st := .staged }),
             (3, { KeySlot.reset with st := .rekeying })],
    sessions := [{ id := 9, ktk := kek, seq := some 0 }] } [(2, .good 5)]

/-- The package with the small fibre in a handler, whose record is at 0 of page 0. -/
def rteWord : Instr := .sysRte ext none_ 0
def handled0 : State := onSpindle0 { chained with l2 := SMap.put chained.l2 0 (lineOf []) } fun sp =>
  { sp with frames := sp.frames.map fun f => { f with handler := some 0 } }
def handling : State := (rteCheck (xOf handled0 rteWord) handled0 0).1

def tinvWord : Instr := .sysTinv ext (ops 0 (v 20) (v 24) .zero) 6
def sliceWord (a b : Src) : Instr := .sysSlice ext (ops 0 a b .zero) 0

theorem witness_SystemWords : ∀ i ∈ [tinvWord, .sysRekey ext (ops 8 (v 2) .zero .zero) 0, .sysKslotInstall ext (ops 8 (v 20) (v 2) .zero) 0,
      .sysKslotStage ext (ops 8 (v 20) (v 2) .zero) 1, .sysKslotErase ext (ops 8 (v 20) (v 2) .zero) 2,
      .sysKslotQuery ext (ops 8 (v 20) (v 2) .zero) 3], i.wf = true ∧
    issuesStands small i frame0 = true ∧ small.privileged (xOf small i) = false ∧
    issuesStands keyed i frame0 = true ∧ keyed.privileged (xOf keyed i) = true := by decide +kernel

theorem witness_SystemWords_rte :
    let i := rteWord
    let fr := { frame0 with handler := some 0 }
    i.wf = true ∧ issuesStands handling i fr = true ∧ ((handling.core 0).linkRead 0).isSome = true ∧
    (match rteCheck (xOf handling i) handling 0 with
      | (t, .ok _) => decide (t = handling)
      | _ => false) = true := by decide +kernel

theorem witness_SystemWords_tinv :
    (Sys2Proof.Scope.ofCode (xf (6 : BitVec 16) 2 0) = some .sys ∧ srcVal64 (keyed.core 0) (xOf keyed tinvWord) (v 20) 0 = some 0 ∧
      srcVal (keyed.core 0) (xOf keyed tinvWord) (v 24) 0 = some 2048) ∧
    (let s := parked small (.tinv .sys [(0, 2048)] 3)
     waits s = true ∧ (batch0 s).wait = .tinv .sys [(0, 2048)] 3 ∧ s.holdsRange .sys 0 0 [(0, 2048)] = false) := by decide +kernel

theorem witness_SystemWords_rekey :
    ∀ k ∈ [0, 1, 2, 3, 5, 63, 64], let s := withRegs keyed [(2, .good (BitVec.ofNat 32 k))]
    srcVal (s.core 0) (xOf s (.sysRekey ext (ops 8 (v 2) .zero .zero) 0)) (v 2) 0 = some (BitVec.ofNat 32 k) ∧
    (s.key k).st = if k = 1 ∨ k = 0 then .active else if k = 2 then .staged else if k = 3 then .rekeying else .empty := by decide +kernel

/-- An image for slot k: 1 active, 5 empty. -/
theorem witness_SystemWords_image : (∀ k ∈ [1, 5], let s := withRegs keyed [(2, .good (BitVec.ofNat 32 k))]
     let i := Instr.sysKslotInstall ext (ops 8 (v 20) (v 2) .zero) 0
     issuesB s i = true ∧ (xOf s i).gt = bitMask 0 ∧ s.privileged (xOf s i) = true ∧
     (match kslotCheck (ops 8 (v 20) (v 2) .zero) (xOf s i) s 0 with
       | (t, .ok (n, ws)) => decide (t = s ∧ n = k ∧ ws = (List.range 16).map imageWord)
       | _ => false) = true) ∧
    (let ws := (List.range 16).map imageWord
     ws.any LWord.isPoison = false ∧ numOf ws / 2 ^ 416 % 2 ^ 96 = 0 ∧ BitVec.ofNat 32 (numOf ws) = 9 ∧ numOf ws / 2 ^ 32 % 2 ^ 64 = 1 ∧
     (List.range 40).map (fun j => BitVec.ofNat 8 (numOf ws / 2 ^ (96 + 8 * j))) = wrapped.map (BitVec.ofNat 8)) := by decide +kernel

theorem witness_SystemWords_slice :
    (let s := withRegs keyed [(2, .good 5), (4, .good 15)]
     issuesB s (sliceWord (v 2) (v 4)) = true ∧ (isV0 (v 2) && isV0 (v 4)) = false ∧ s.privileged (xOf s (sliceWord (v 2) (v 4))) = true ∧
     srcVal (s.core 0) (xOf s (sliceWord (v 2) (v 4))) (v 2) 0 = some 5 ∧ srcVal (s.core 0) (xOf s (sliceWord (v 2) (v 4))) (v 4) 0 = some 15) ∧
    issuesB small (sliceWord .zero .zero) = true ∧ (isV0 .zero && isV0 .zero) = true ∧ (small.ctx 0).slenReg = 0 := by decide +kernel

/-! Graphics. -/

/-- A target of one pixel and one sample whose stencil plane is page 1, with a method table at 0x200: CLEAR of stencil to 0xAB in slot 0,
PROG over stencil in slot 1, BARRIER with its counter at 0x260 in slot 2. -/
def targeted0 : State := { mapped lined with
  l2 := SMap.put (SMap.put (mapped lined).l2 0 (lineOf ([.good 0x200] ++ List.replicate 11 (.good 0) ++ [.good 0x1000]))) 4
    (lineOf [.good 0x54, .good 0, .good 0, .good 0, .good 0xAB, .good 0, .good 0, .good 0, .good 0x1058, .good 0, .good 0x300,
      .good 0, .good 0, .good 0, .good 0, .good 0, .good 0x56, .good 0, .good 0x260, .good 0, .good 1]) }
def smpWord : Instr := .smp ext (ops 8 (v 20) (v 20) .zero) 5
def tmethWord : Instr := .tmeth ext (ops 8 (v 20) (v 20) .zero) 0
def targeted : State := (smpCheck (ops 8 (v 20) (v 20) .zero) 5 (xOf targeted0 smpWord) targeted0 0).1

/-- A ticket of pixel 0 of that target. -/
def ticket0 : Ticket :=
  { ctx := 0, key := 0, target := 0, px := 0, py := 0, cover := 1, z := 7, bank := 0, seq := 0, gen := 0, lseq := 0, wid := 0 }
def holding (s : State) : State := onSpindle0 s fun sp => sp.onFibre 0 fun f => { f with ticket := some ticket0 }
def post0 : Post := { tk := ticket0, mask := 1, slots := 0, colour := [], depth := .good 0, refused := false }
def posted (s : State) (ps : List Post) : State := s.onCore 0 fun c => { c with posts := ps }

theorem witness_GraphicsWords :
    (smpWord.wf = true ∧ issuesB targeted smpWord = true ∧ lanesOf (xOf targeted smpWord).gt = [0] ∧
     (match smpCheck (ops 8 (v 20) (v 20) .zero) 5 (xOf targeted smpWord) targeted 0 with
       | (t, .ok _) => decide (t = targeted)
       | _ => false) = true) ∧
    (tmethWord.wf = true ∧ issuesB targeted tmethWord = true ∧ (match tmethCheck (ops 8 (v 20) (v 20) .zero) 0 (xOf targeted tmethWord) targeted 0 with
       | (t, .ok _) => decide (t = targeted)
       | _ => false) = true) ∧
    (∀ m ∈ [0, 1, 2], ∀ n ∈ [63, 64],
     let s := posted (holding (withRegs small [(2, .good 5), (4, .good 0xFF0000)])) (List.replicate n post0)
     let i := Instr.fpost ext (ops 8 (v 2) (v 4) .zero) (BitVec.ofNat 16 m)
     i.wf = true ∧ issuesStands s i frame0 = true ∧ (s.core 0).posts.length = n ∧
     ((spindle0 s).fibre 0).map (fun f => (f.ticket, f.answered)) = some (some ticket0, false) ∧
     srcVal (s.core 0) (xOf s i) (v 2) 0 = some 5 ∧ srcVal (s.core 0) (xOf s i) (v 4) 0 = some 0xFF0000 ∧
     (dataOf (s.core 0) (xOf s i) 8 4 0).all (fun w => !w.isPoison) = true) := by decide +kernel
/-! Posts and methods. -/

/-- The FIFO of pixel 0 with tickets of the given keys; the target's plane is page 1 of host memory, so its home bank follows from it. -/
def fifo0 (keys : List Nat) : Fifo :=
  { bank := 0, ctx := 0, target := 0, px := 0, py := 0, tks := keys.map fun k => { ticket0 with key := k } }
def posting (keys : List Nat) (p : Post) : State := { posted targeted [p] with fifos := [fifo0 keys] }

/-- A `tmeth` pixel of slot 0. -/
def pixel0 : Tmeth := { core := 0, fid := 0, wg := 0, post := { post0 with slots := 1 }, busy := false }

/-- A PROG method of slot 1 under way, ended, with the values its lane 0 left. -/
def prog0 (trapped : Bool) (v1 : Word) : Prog :=
  { id := 3, unit := 0, post := { post0 with slots := 2 }, fromTk := true, slot := 1, alive := 1, ret := [(0, [.good v1, .good 0xAB])], ended := true,
    trapped := trapped, img := [] }
def progged (p : Prog) : State := { targeted with progs := [p], fifos := [fifo0 [0]] }

def frame8 : Frame := { frame0 with rows := 8 }

/-- A method unit whose spindle waits at a return trap. -/
def unit0 : Nat := 0xA00
def trappedUnit (f : Spindle → Spindle) (u : Option Nat) : State :=
  let c := small.core 0
  let sp := f { spindle0 small with frames := [frame8], batches := (spindle0 small).batches.map fun b => { b with wait := .returnTrap } }
  { small with cores := SMap.put small.cores unit0 { c with spindles := [(0, sp)], wgs := c.wgs.map fun e => (e.1, { e.2 with rcd := { e.2.rcd with unit := u } }) },
               progs := [prog0 false 2] }

theorem witness_PostsAndMethods_arrival :
    (∀ q ∈ [post0, { post0 with refused := true }], ((posting [0] q).core 0).posts[0]? = some q) ∧
    (posting [5] post0).fifos.all (fun f => f.tks.all fun u => u.key != 0) = true ∧
    (fifo0 [0]).bank = 0 ∧ (fifo0 [5, 0]).tks.head?.map (·.key) = some 5 ∧
    ((List.replicate 4096 post0).filter fun q => q.tk.bank == 0).length = 4096 ∧
    (let s := posting [0] post0
     s.applWaits ⟨0, post0, true⟩ = false ∧ ((s.takePost 0 0).readTarget (bankDie 0) 0 0).1 = s.takePost 0 0) := by decide +kernel

/-- A state that a check leaves as it is, with what it gives. -/
def keeps {α : Type} (s : State) (p : State × α) (f : α → Bool) : Bool := decide (p.1 = s) && f p.2

/-- Stencil sample 0 of pixel 0 lies in host memory, for a method unit. -/
def stencilB (s : State) (die : Nat) (g : Target) : Bool := keeps s (s.translateHw die 0 (g.sampleVa 5 0 0 0) .write) fun r => match r with
  | .ok (pa, l) => isHost pa && !l.hc
  | _ => false

theorem witness_PostsAndMethods_pixel :
    let s := { targeted with tmeths := [pixel0] }
    s.tmeths[0]? = some pixel0 ∧ pixel0.post.slotList = [0] ∧ pixel0.post.mask.getLsbD 0 = true ∧ s.hostOff = false ∧
    keeps s (s.readTarget (frontOf 0 0) 0 0) (fun g => g.any fun g =>
      keeps s (s.pixelBank (frontOf 0 0) 0 g 0 0) (fun bank => !s.applWaits ⟨bank, pixel0.post, false⟩ &&
        keeps s (s.readTarget (bankDie bank) 0 0) (· == some g) &&
        keeps s (s.readSlot (bankDie bank) 0 g 0) (fun v => v.any fun v => v.kind == 4 && v.pl == 5) && stencilB s (bankDie bank) g) &&
      decide (g.lsmp = 0 ∧ 0 < g.w ∧ 0 < g.h)) = true := by decide +kernel

theorem witness_PostsAndMethods_return : ∀ q ∈ [prog0 true 0, prog0 false 2, prog0 false 0],
    let s := progged q
    let u := { s with progs := s.progs.filter fun p => p.id != 3 }
    s.progs.find? (fun p => p.id == 3) = some q ∧ q.ended = true ∧ q.fromTk = true ∧ s.fifos = [fifo0 [0]] ∧ u.hostOff = false ∧
    (∀ n ∈ q.post.slotList, n ≤ q.slot) ∧
    keeps u (u.readTarget (bankDie 0) 0 0) (fun g => g.any fun g => decide (g.lsmp = 0) && stencilB u 0 g &&
      keeps u (u.readSlot (bankDie 0) 0 g 1) (fun v => v.any fun v => v.pl == 5)) = true ∧
    (∀ w ∈ [0, 2], let h := if (BitVec.ofNat 32 w).getLsbD 1 then Memory.write u.host 0x1000 0xAB else u.host
      keeps { u with host := h } ({ u with host := h }.readTarget (bankDie 0) 0 0) (fun _ => true) = true) := by decide +kernel

theorem witness_PostsAndMethods_trap :
    (let s := fullRing (mapped (trappedUnit (fun sp => { sp with loops := [record] }) none))
     let s := { s with walkers := [(7, [5, 4, 3, 2].map fun n => ⟨0, n, 0, 4⟩)] }
     let sp := spindle0 { s with cores := SMap.put [] 0 (s.core unit0) }
     let b := sp.batches.headD default
     let low := (sp.at_ (lowestLane b.lanes)).1
     let q := { s.trapRec unit0 0 { kind := 20, info := low, addr := 0, lanes := b.lanes, batch := b.lanes, pc := low, rpc := 0, iw := [], recVa := none } 0 with
       act := 1 }
     b.lanes ≠ 0 ∧ b.wait = .returnTrap ∧ (s.writeRecord q).2 = .full ∧ (s.writeRecord q).1.cores = s.cores) ∧
    (∀ s ∈ [trappedUnit (fun sp => { sp with loops := [record] }) none, trappedUnit (fun sp => { sp with frames := sp.frames ++ [frame1] }) none,
        trappedUnit id (some 3)], let c := s.core unit0
     ((c.spindles.head?).map fun e => e.2.batches.any fun b => b.wait == .returnTrap) = some true ∧ (c.wg 0).map (·.killed) = some false ∧
     isCore unit0 = false ∧ c.iq = [] ∧ c.sbuf = [] ∧ c.results = []) ∧
    (let s := trappedUnit id (some 3)
     let q := prog0 false 2
     let c := s.core unit0
     let img := imageOf c (spindle0 small) frame8
     c.spindles.head?.bind (fun e => e.2.frames.head?) = some frame8 ∧
     ((c.wg 0).bind fun w => w.rcd.unit) = some 3 ∧ q ∈ s.progs ∧ q.id = 3 ∧ (SMap.get [] (s.cluster (runnerCluster unit0)).queues 0).length < 64 ∧
     let u := { s with progs := s.progs.map fun (e : Prog) => if e.id = 3 then { e with img := img } else e }.setMreg (unit0 % 0x200)
        { s.mreg (unit0 % 0x200) with rtraps := (s.mreg (unit0 % 0x200)).rtraps + 1 }
     u.endRelease unit0 = u) := by decide +kernel

/-! Launches and workgroups. -/

/-- The 128 bytes of a header of one spindle (two fields of one value each), and those of one with no fields. -/
def headerBytes (n : Nat) : List Byte := (List.range 128).map fun k => BitVec.ofNat 8 (n / 256 ^ k)
def oneSpindle : Nat := 2 * 2 ^ 231 + 2 * 2 ^ 228

/-- A launch of context 0 with one workgroup of one fibre. -/
def launch1 : Launch := { launch0 with hdr := parseHeader oneSpindle }
def launched (l : Launch) : State := { small with ctxs := SMap.put small.ctxs 0 { small.ctx 0 with launches := [l] } }

theorem witness_Launches : 2 ≤ small.pkcState ∧ small.pkcState = 5 ∧ small.stopped = false ∧ (small.part (partOf 0)).en = true ∧
    (small.part (partOf 16)).en = false ∧ (small.ctx 0).waiting < 32 ∧
    (headerBytes oneSpindle).length = 128 ∧ (parseHeader (ofBytes (headerBytes oneSpindle))).ok = true ∧
    (parseHeader (ofBytes (headerBytes oneSpindle))).rlev = 0 ∧ (parseHeader (ofBytes (headerBytes 0))).ok = false ∧
    (∀ j, j < 31 → ¬ (4 ≤ 128 * j ∧ 128 * j + 8 ≤ 4 + 8)) ∧
    (∀ n ∈ [0, 1], let s := launched { launch1 with hdr := { launch1.hdr with waitm := BitVec.ofNat 256 n } }
      (s.launch 0 0).map (fun l => l.hdr.waitm) = some (BitVec.ofNat 256 n) ∧ (s.ctx 0).ev.getLsbD 0 = false) ∧
    (let l := { launch1 with eligible := true }
     let s := launched l
     s.launch 0 0 = some l ∧ s.running = true ∧ (s.part (partOf 0)).held = false ∧ l.next < l.total ∧ l.hdr.coop = false ∧
     (s.shareRecord 0 l l.next).map Prod.fst = some 0 ∧ (SMap.get [] (s.cluster 0).queues 0).length < 8) ∧
    (let l := { launch1 with eligible := true, next := 1 }
     (launched l).launch 0 0 = some l ∧ l.next = l.total ∧ l.live = 0) := by
  and_intros
  all_goals first
    | decide +kernel
    | omega

/-- A record of 8 rows and 512 words of scratchpad at the head of the queue of cluster 0. -/
def rcd0 : Record := { (default : Record) with frm := 7, scr := 1, stamp := 1 }
def enqueued (r : Record) : State :=
  let s := launched { launch1 with live := 1, next := 1, eligible := true }
  s.setCluster 0 { s.cluster 0 with queues := [(0, [r])] }

/-- The package whose workgroup has no fibre left, with a join block at 0x80 of page 0 whose counter is n. -/
def finished (joinp : BitVec 64) (lo hi : Word) : State :=
  let s := { mapped lined with l2 := SMap.put (mapped lined).l2 1 (lineOf [.good lo, .good hi]) }
  (onSpindle0 s fun sp => { sp with fibres := [], batches := [] }).onCore 0 fun c => c.onWg 0 fun w => { w with rcd := { w.rcd with joinp := joinp } }

theorem witness_Workgroups :
    (∀ k ∈ [0, 1], let r := { rcd0 with kind := k }
     let s := enqueued r
     s.running = true ∧ s.headRecord 0 = some r ∧ r.ring = none ∧ r.bad = false ∧ s.mayPop r = true ∧ r.tks = [] ∧
     (s.core 0).place false r = some ⟨0, [(1, 256)]⟩) ∧
    (let r := { rcd0 with kind := 3 }
     let s := enqueued r
     s.headRecord 0 = some r ∧ r.bad = true ∧ r.joinp = 0 ∧ r.tks = [] ∧ (s.launch 0 0).isSome = true) := by decide +kernel

/-- A workgroup ends, as a check of its conditions. -/
def endsB (s : State) : Bool := (s.core 0).liveFibres 0 == 0 && (s.core 0).iq.isEmpty && (s.core 0).sbuf.isEmpty && (s.cluster 0).jobs.isEmpty &&
  (s.core 0).spilled.isEmpty && s.fired.isEmpty && s.tmeths.isEmpty && decide (s.endRelease 0 = s) && ((s.core 0).wg 0).any fun w => !w.ending && !w.killed &&
    w.rcd.unit.isNone && w.rcd.home.isNone && w.rcd.tks.isEmpty

/-- Its end without a join block, and with one whose counter is 2^32, 2 and 1, the last with a successor. -/
theorem witness_Workgroups_end : endsB (finished 0 0 0) = true ∧
    (∀ q ∈ [(0, 1), (2, 0), (1, 0)], let s := finished 0x80 (BitVec.ofNat 32 q.1) (BitVec.ofNat 32 q.2)
     endsB s = true ∧ keeps s (s.translateHw (clusterDie 0) 0 0x80 .atomic) (fun r => match r with
       | .ok (pa, l) => decide (pa = 0x80 ∧ pa % 8 = 0 ∧ s.ensureLine (some 0) pa (s.ctx 0).ks l.sl = (s, true))
       | _ => false) = true ∧ (SMap.find s.l2 (0x80 / 4 / 32)).map (fun l => l.ws.length) = some 32 ∧ s.hostBlocks 0x20 true = false ∧ s.hostBlocks 0x21 true = false ∧ s.regAt 0x20 = none ∧ s.regAt 0x21 = none ∧
     s.l2Word 0x20 = .good (BitVec.ofNat 32 q.1) ∧ s.l2Word 0x21 = .good (BitVec.ofNat 32 q.2)) ∧
    (let s := finished 0x80 1 0
     let u := (s.atomWrite 0xFFFF 0x20 (.good 0)).atomWrite 0xFFFF 0x21 (.good 0)
     keeps u (u.readVas (clusterDie 0) 0 (0x80 + 32) 8) (fun r => match r with
       | .ok ws => (cardNum ws).isSome
       | _ => false) = true) := by decide +kernel
/-! Preemption. -/

/-- Partition 0 as given, its context 0 rotating with a slice length of 100. -/
def slicing (f : Partition → Partition) (tick : BitVec 64) (ls : List Launch) (js : List Job) : State :=
  let s := { small with ctxs := SMap.put small.ctxs 0 { small.ctx 0 with launches := ls, ctxc := 0x32000 },
                        parts := SMap.put small.parts 0 (f (small.part 0)), tick := tick }
  s.setCluster 0 { s.cluster 0 with jobs := js }
def working : Launch := { launch1 with eligible := true }

/-- A collective job under way. -/
def collecting : Job := { copyJob card .started [] with kind := .coll { pg := 0, src := 0, dst := 0, cnt := 0, cid := 0, ety := 0, cop := 0, root := 0 } }

theorem witness_Slices :
    (let s := slicing id 0 [working] []
     (s.part 0).holder = some 0 ∧ s.running = true ∧ (s.part 0).until_.toNat ≤ s.tick.toNat ∧ s.jobsOf 0 = [] ∧ s.nextHolder 0 0 = some 0) ∧
    (let s := slicing id 0 [] []
     (s.part 0).holder = some 0 ∧ s.running = true ∧ s.hasWork 0 = false ∧ s.jobsOf 0 = [] ∧ s.nextHolder 0 0 = none) ∧
    (∀ n ∈ [0, 1], let d : Option (BitVec 64) := if n = 0 then none else some 0
     let s := slicing (fun q => { q with deferred := d }) 0 [working] [collecting]
     (s.part 0).holder = some 0 ∧ s.running = true ∧ (s.part 0).until_.toNat ≤ s.tick.toNat ∧
     ((s.jobsOf 0).any fun j => j.2.status == .started && j.2.kind == collecting.kind) = true ∧ (s.part 0).deferred = d) ∧
    (let s := slicing (fun q => { q with until_ := 1 }) 0 [working] []
     s.running = true ∧ ¬ (s.part 0).until_.toNat ≤ s.tick.toNat ∧ s.hasWork 0 = true) ∧
    (∀ ls ∈ [[working], []], let s := slicing (fun q => { q with deferred := some 5 }) 1800005 ls []
     (s.part 0).holder = some 0 ∧ (s.part 0).deferred = some 5 ∧ 5 + 1800000 ≤ s.tick.toNat ∧ (s.part 0).until_.toNat ≤ s.tick.toNat ∧
     s.nextHolder 0 0 = ls.head?.map fun _ => 0) ∧
    (let s := slicing (fun q => { q with deferred := some 5 }) 1800004 [working] [collecting]
     (s.part 0).deferred = some 5 ∧ s.tick.toNat < 5 + 1800000) ∧
    (let s := (slicing (fun q => { q with holder := none }) 0 [working] []).onCore 0 fun c => c.onWg 0 fun w => { w with halted := true }
     s.running = true ∧ (s.part 0).en = true ∧ (s.part 0).held = false ∧ (s.part 0).holder = none ∧ s.nextHolder 0 (s.part 0).last = some 0 ∧
     s.jobsOf 0 = [] ∧ ((s.core 0).wg 0).any (fun w => w.halted && s.mayResume 0 0 w) = true) := by decide +kernel

/-- Partition 0 with cluster 0 of the given target mask, and with records queued at cluster 0. -/
def changing (tclm : BitVec 128) (pend : Bool) (cores : SMap Core) : State :=
  let s := enqueued rcd0
  { s with parts := SMap.put s.parts 0 { s.part 0 with tclm := tclm, pend := pend }, cores := cores }
def goB (s : State) (v : BitVec 64) : Bool := decide (2 ≤ s.pkcState) && !s.stopped && v.getLsbD 0 && !(s.part 0).pend && (s.part 0).en &&
  (List.range 20).all fun k => k == 0 || !(s.part k).en

theorem witness_ClusterChanges :
    (∀ t ∈ [1, 3], let s := changing (BitVec.ofNat 128 t) false small.cores
     goB s 1 = true ∧ (s.part 0).clm &&& ~~~(s.part 0).tclm = 0) ∧
    (let s := changing 2 false small.cores
     goB s 1 = true ∧ (s.part 0).clm &&& ~~~(s.part 0).tclm = (1 : BitVec 128) <<< 0 ∧ (s.part 0).tclm.getLsbD 1 = true ∧
     (s.part 0).tclm.getLsbD 0 = false) ∧
    (let s := changing 2 false []
     goB s 3 = true ∧ s.wgsOfPart 0 = []) ∧
    (let s := changing 2 true []
     (s.part 0).pend = true ∧ s.wgsOfPart 0 = []) ∧
    (let s := changing 2 true small.cores
     (s.wgsOfPart 0).any (fun w => (s.part 0).clm.getLsbD (clusterOf w.1) && !(s.part 0).tclm.getLsbD (clusterOf w.1)) = true) := by
  decide +kernel

/-- Page tables of context 0 of sixteen pages of 1 GiB of host memory that is accessed where it lies. -/
def bigEntry (k : Nat) : List LWord :=
  let e := hostBase + k * 2 ^ 30 + 0x63
  [.good (BitVec.ofNat 32 e), .good (BitVec.ofNat 32 (e / 2 ^ 32))]
def spacious (s : State) : State :=
  { s with walkers := [(0, [5, 4].map fun n => ⟨0, n, 0, 4⟩)], mcache := lined.mcache,
           l2 := SMap.put s.l2 0x80 { ws := (List.range 16).flatMap bigEntry, dirty := false, ks := 0, view := false, first := false, way := 0 },
           parts := SMap.put s.parts 0 { s.part 0 with pcg := BitVec.allOnes 512 } }

/-- A record of context 1 at the head of the queue of cluster 0, while context 0 rotates and does not hold the slice. -/
def rival (r : Record) : State :=
  let s := enqueued r
  { s with ctxs := SMap.put (SMap.put s.ctxs 1 (s.ctx 0)) 0 { s.ctx 0 with ctxc := 0x32000 },
           parts := SMap.put s.parts 0 { s.part 0 with holder := none } }.setCluster 0 { s.cluster 0 with queues := [(1, [r])] }

/-- The package whose workgroup has a granule and a frame of 8 rows, halted. -/
def compact (s : State) : State :=
  (onSpindle0 s fun sp => { sp with frames := [frame8], fibres := sp.fibres.map fun e => (e.1, { e.2 with rows := 8 }) }).onCore 0 fun c =>
    c.onWg 0 fun w => { w with rcd := { w.rcd with scr := 1 }, halted := true }
def claiming : State := spacious (compact (rival { rcd0 with ctx := 1, scr := 256 }))

theorem witness_SpillsAndRestores_claim :
    let r := { rcd0 with ctx := 1, scr := 256 }
    let s := claiming
    s.running = true ∧ s.headRecord 0 = some r ∧ r.bad = false ∧ s.mayPop r = true ∧ (s.core 0).place false r = none ∧
    ((s.claimView 0).place true r).any (fun p => (s.claimUnits 0 (p.spots.map Prod.fst) (p.spots.map fun e => (e.2, 8 * ((r.frm + 8) / 8)))
      ((List.range r.scr).map (p.scr + ·))).isSome) = true := by decide +kernel

/-- The package with all slots of core 0 taken by spindles of one halted workgroup, in frames of 8 rows, and a record of one spindle queued. -/
def crammed : State :=
  let s := compact (rival { rcd0 with ctx := 1, scr := 0 })
  s.onCore 0 fun c => { c with spindles := (List.range 64).map fun k =>
    (k, { spindle0 s with sidx := k, frames := [{ frame8 with base := k / 16 * 512 + k % 16 * 8 }] }) }

/-- A halted copy to the scratchpad of which one word of a granule has landed. -/
def settling : State :=
  let j := { copyJob { card with dsp := 1, len := 8 } .started [0] with halted := true }
  { claiming with clusters := SMap.put claiming.clusters 0 { claiming.cluster 0 with jobs := [j] } }

theorem witness_SpillsAndRestores_spindle :
    (let s := crammed
     let c := s.core 0
     let r := { rcd0 with ctx := 1, scr := 0 }
     s.running = true ∧ s.headRecord 0 = some r ∧ r.ring = none ∧ r.bad = false ∧ s.mayPop r = true ∧ c.place false r = none ∧ r.kind ≤ 1 ∧ r.tks = [] ∧
     s.jobsSettling 0 = false ∧ s.spindleBusy 0 0 = false ∧ (c.wg 0).map (fun w => (w.halted, s.current w.rcd.ctx)) = some (true, false) ∧
     ((s.claimView 0).place true r).any (fun p => decide (p.spots = [(0, 0)] ∧
       c.unitsIn [0] [(0, 8)] ((List.range r.scr).map (p.scr + ·)) = ([0], []))) = true) ∧
    (settling.jobsSettling 0 = true ∧ settling.headRecord 0 = claiming.headRecord 0 ∧ settling.cores = claiming.cores) ∧
    ((claiming.core 0).unitsIn [0] [] [] = ([0], []) ∧
     ((claiming.claimUnits 0 [0] [] []).map fun u => decide (u.recq = claiming.recq)) = some true) := by decide +kernel

/-- A spilled spindle, whose rows the spill area holds. -/
def unspilling : State :=
  let s := spacious (compact small)
  s.onCore 0 fun c => { c with spindles := [], spilled := [.spindle 0 0 (spindle0 s) none] }

theorem witness_SpillsAndRestores_back :
    let s := unspilling
    let sp := spindle0 (spacious (compact small))
    let u := s.setCore 0 (({ s.core 0 with spilled := [] } : Core).setSpindle 0 sp)
    s.running = true ∧ s.current 0 = true ∧ (s.part (partOf 0)).clm.getLsbD (clusterOf 0) = true ∧ (s.core 0).spilled = [.spindle 0 0 sp none] ∧
    ((s.core 0).wg 0).map (·.rcd.ctx) = some 0 ∧ s.jobsSettling 0 = false ∧ (s.core 0).unitsIn [0] [(0, 8)] [] = ([], []) ∧ s.jobsOf 0 = [] ∧
    sp.spilled = false ∧ (u.unspillRows 0 0 0 sp.heldRows).2 = none ∧ (u.unspillRows 0 0 0 sp.heldRows).1.jobsOf 0 = [] := by decide +kernel

theorem witness_SpillsAndRestores_granule : (claiming.core 0).unitsIn [] [] [0] = ([], [(0, 0)]) ∧
    ((claiming.claimUnits 0 [] [] [0]).map fun u => decide (u.recq = claiming.recq)) = some true := by decide +kernel

/-- A spilled granule, whose words the spill area holds. -/
def restoring : State := (spacious (compact small)).onCore 0 fun c => { c with spilled := [.granule 0 0] }

theorem witness_SpillsAndRestores_restore :
    let s := restoring
    s.running = true ∧ s.current 0 = true ∧ (s.part (partOf 0)).clm.getLsbD (clusterOf 0) = true ∧ (s.core 0).spilled = [.granule 0 0] ∧
    ((s.core 0).wg 0).map (·.rcd.ctx) = some 0 ∧ (s.core 0).wgs.all (fun e => e.1 == 0) = true ∧ s.jobsOf 0 = [] ∧
    (let u := s.setCore 0 { s.core 0 with spilled := [] }
     keeps u (u.readVas (dieOf 0) 0 0x300000000 512) (fun r => match r with
       | .ok _ => true
       | _ => false) = true ∧
     keeps u (u.readVas (dieOf 0) 0 0x330000000 16) (fun r => match r with
       | .ok _ => true
       | _ => false) = true) ∧
    (slicing (fun q => { q with holder := none }) 0 [] []).current 0 = false := by decide +kernel

/-- Two spindles of quarter 0, the younger with index 1: a spilled one that fits; the older waiting for a frame that finds no room; and both. -/
def quarter (f g : Spindle → Spindle) : State :=
  let s := spacious (compact small)
  s.onCore 0 fun c =>
    (c.setSpindle 0 (f (spindle0 s))).setSpindle 1 (g { spindle0 s with sidx := 1, frames := [{ frame8 with base := 8 }] })
def asks (dem : Nat) (sp : Spindle) : Spindle := { sp with batches := sp.batches.map fun b => { b with wait := .call dem 0 0 [0, 0, 0] } }

theorem witness_SpillsAndRestores_engine :
    (let s := quarter (fun sp => { sp with spilled := true }) id
     let rs := s.rowRequests 0 0
     s.running = true ∧ isCore 0 = true ∧ (oldestReq (rs.filter ((s.core 0).fits 0))).map (fun a => (a.slot, a.frames)) = some (0, [(0, 8)]) ∧
     ((s.core 0).spindle 0).any (fun sp => decide (((s.setCore 0 ((s.core 0).setSpindle 0 { sp with spilled := false })).unspillRows 0 0 0
       sp.heldRows).2 = none)) = true) ∧
    (let s := quarter (asks 512) (asks 512)
     let rs := s.rowRequests 0 0
     oldestReq (rs.filter ((s.core 0).fits 0)) = none ∧ s.starved 0 0 = true ∧ (oldestReq rs).map (·.slot) = some 0 ∧ s.youngest 0 0 0 = some 1 ∧
     s.engineIn 0 1 = false ∧ s.spindleBusy 0 1 = false ∧
     ((s.core 0).spindle 1).any (fun sp => decide ((s.spillRows 0 1 0 sp.heldRows).2 = none)) = true) ∧
    (let s := quarter (asks 512) (fun sp => { sp with spilled := true })
     let rs := s.rowRequests 0 0
     (s.core 0).spindles.length = 2 ∧ s.starved 0 0 = true ∧ (oldestReq rs).map (fun a => (a.slot, a.frames)) = some (0, []) ∧
     s.youngest 0 0 0 = none) ∧
    (restoring.rowRequests 0 0 = []) := by decide +kernel
/-! Fills, write-backs and row commands. -/

/-- The package with line 0 of L2 gone and the metadata row of block 0 in the cache, its entries those given, else those of initialisation. -/
def sealedAs (l2 : SMap L2Line) (ents : SMap Nat) : State :=
  { small with l2 := l2, mcache := [((metaPlace 0).1, { ents := ents, dirty := false })] }
def request (sl fv : Bool) : MemOp := entry (.load (.mem 0 0 sl fv 0 0) 4 false [] ⟨0, 8⟩)

theorem witness_FillsAndWritebacks_walk :
    (let s := mapped lined
     s.running = true ∧ s.current 0 = true ∧ isCore 0 = true ∧ canonical 0x1000 = true ∧ findLeaf (s.core 0).tlb 0 0x1000 = none ∧
     findLeaf (s.cluster (clusterOf 0)).tlb 0 0x1000 = none ∧
     (match (s.count (cntCore 0 6) 1).walk (dieOf 0) 0 0x1000 with
       | (_, .ok _) => true
       | _ => false) = true) ∧
    (findLeaf (small.core 0).tlb 0 0).isSome = true := by decide +kernel

theorem keysFor_count (s : State) (w n k g blk : Nat) : (s.count w n).keysFor k g blk = s.keysFor k g blk := by
  have e : (s.count w n).masterFor k blk = s.masterFor k blk := rfl
  simp only [State.keysFor, e]

theorem initMeta_otag (s : State) (blk : Nat) :
    (s.initMeta blk).otag = outerTag (s.keysFor (s.initMeta blk).kslot (s.initMeta blk).kgen blk).2 blk (s.initMeta blk) := by
  simp only [State.initMeta, outerTag]

theorem initMeta_fields (s : State) (blk : Nat) : (s.initMeta blk).kslot = 0 ∧ (s.initMeta blk).o = false ∧ (s.initMeta blk).p = false ∧
    (s.initMeta blk).z = true := by
  simp only [State.initMeta, and_self]

theorem loadRow_cached {s : State} {row h : Nat} {r : MRow} (e : SMap.find s.mcache row = some r) : s.loadRow (h + 1) row = (s, some r) := by
  rw [State.loadRow, e]

theorem initMeta_count (s : State) (w n blk : Nat) : (s.count w n).initMeta blk = s.initMeta blk := by
  simp only [State.initMeta, keysFor_count]

theorem getMeta_initial {s : State} {blk : Nat} {r : MRow} (h : SMap.find s.mcache (metaPlace blk).1 = some r)
    (he : SMap.find r.ents (metaPlace blk).2 = none) : s.getMeta blk = (s, some (s.initMeta blk)) := by
  unfold State.getMeta
  generalize metaPlace blk = q at *
  obtain ⟨row, slot⟩ := q
  have e : s.loadRow 3 row = (s, some r) := loadRow_cached h
  simp only [e, he]

/-- A block as initialisation left it is filled with zeros: its tag is right by its own definition, whatever the device's keys. -/
theorem fill_initial {s : State} {who : Option Nat} {pa wm : Nat} {r : MRow} (h : SMap.find s.mcache (metaPlace (pa / 2048)).1 = some r)
    (he : SMap.find r.ents (metaPlace (pa / 2048)).2 = none) (hk : (s.key 0).st ≠ .empty) :
    s.fillBlock who pa wm 0 true = (s.count (cntSeal (homeBank pa) 0) 1, .bytes (List.replicate 2048 0)) := by
  have hk' : ((s.count (cntSeal (homeBank pa) 0) 1).key 0).st ≠ .empty := hk
  obtain ⟨e1, e2, e3, e4⟩ := initMeta_fields s (pa / 2048)
  have eo := initMeta_otag s (pa / 2048)
  generalize hm : s.initMeta (pa / 2048) = m at *
  unfold State.fillBlock
  simp only [getMeta_initial (s := s.count (cntSeal (homeBank pa) 0) 1) h he, initMeta_count, hm]
  rw [if_neg (by rw [e1]; exact fun n => n.elim (fun n => n rfl) hk'), if_neg (by rw [keysFor_count]; exact fun n => n eo),
    if_neg (by rw [e2]; decide), if_neg (by rw [e3]; decide), if_pos e4]

theorem witness_FillsAndWritebacks_fill :
    let s := queue (sealedAs [] []) (request true false)
    let u := s.count (cntSeal (homeBank 0) 0) 1
    (isHbm 0 = true ∧ s.rowBusy 0 = false ∧ s.behindView 0 = false ∧
      (s.requests.find? (fun e => e.2.asks 0 true && (s.ctx e.1).ks == 0)).map Prod.fst = some 0 ∧
      SMap.find s.l2 0 = none ∧ (u.l2Room (some 0) (homeBank 0) 16).1.privWords = []) ∧
    s.fillBlock (some 0) 0 1 0 true = (u, .bytes (List.replicate 2048 0)) :=
  ⟨by decide +kernel, fill_initial (r := { ents := [], dirty := false }) (by decide +kernel) rfl (by decide +kernel)⟩

/-- A view line, a dirty line of host memory, a dirty line of a whole block. -/
theorem witness_FillsAndWritebacks_block :
    (let s := sealedAs [(0, { lineOf [] with view := true })] []
     (SMap.find s.l2 0).map (·.view) = some true ∧ s.pinned 0 = false ∧ { s with regst := [(500, .j 0 0 0)] }.pinned 0 = true) ∧
    (let s := sealedAs [(hostBase / 128, { lineOf [.good 5] with dirty := true, ks := 64 })] []
     (SMap.find s.l2 (hostBase / 128)).map (fun l => (l.view, l.dirty, l.ws.length)) = some (false, true, 32) ∧ isHbm hostBase = false ∧
     hostBase % 128 = 0 ∧ s.hostOff = false ∧ s.lineRegs (hostBase / 128) = []) ∧
    (let s := sealedAs ((List.range 16).map fun i => (i, { lineOf [.good 5] with dirty := i == 3 })) []
     (SMap.find s.l2 0).map (·.view) = some false ∧ isHbm 0 = true ∧ s.behindView 0 = false ∧ s.regst = [] ∧
     (List.range 16).all (fun i => (SMap.find s.l2 i).any fun l => l.ws.length == 32 && l.ws.all fun w => !w.isPoison) = true ∧
     (SMap.find s.l2 3).map (·.dirty) = some true ∧ ((s.getMeta 0).2).any (fun m => decide (m.ver < 2 ^ 44 - 1)) = true) := by decide +kernel

/-- A metadata row whose entry is in the root: clean, at its last version, and dirty with the largest version that a write-back may follow. -/
def topRow : Nat := mkPa 506 0 0 0 0 / 2048
def topped (dirty : Bool) (root : SMap Tree) : State := { small with mcache := [(topRow, { ents := [], dirty := dirty })], root := root }
theorem witness_FillsAndWritebacks_row : parentOf topRow = .root 0 ∧
    (SMap.find (topped false []).mcache topRow).map (·.dirty) = some false ∧ (SMap.find (topped false []).root 0).all (fun e => decide (e.nver < 2 ^ 44 - 1)) = true ∧
    SMap.find (topped false [(0, { ntag := 0, ngen := 15, nver := 2 ^ 44 - 1 })]).root 0 = some { ntag := 0, ngen := 15, nver := 2 ^ 44 - 1 } ∧
    (∀ v ∈ [0, 2 ^ 44 - 2], let s := topped true [(0, { ntag := 0, ngen := 0, nver := v })]
     (SMap.find s.mcache topRow).map (·.dirty) = some true ∧ ((SMap.find s.root 0).getD { ntag := 0, ngen := 0, nver := 0 }).nver < 2 ^ 44 - 1) := by
  decide +kernel

/-- A walk of slot 1 of partition 0 at a block; with a row command working on it. -/
def walking (blk : Nat) (ents : SMap Nat) (js : List Job) : State :=
  let s := sealedAs [] ents
  { s with keys := [(1, { KeySlot.reset with st := .rekeying, cursor := blk })], clusters := SMap.put s.clusters 0 { s.cluster 0 with jobs := js } }
def rowJob0 (ps : List RowPair) (st : JobStatus) (own prepared : Bool) : Job := { copyJob card st [] with kind := .row own prepared ps }
def pair0 (src : Option Nat) : RowPair := { dst := 0, src := src, dva := 0, sl := true, prep := 0, refused := false, done := false }
def meta0 (x : Bool) (k : Nat) : Nat :=
  Meta.pack { o := false, p := false, x := x, z := true, kslot := k, kgen := 0, otag := 0, itag := 0, nonce := 0, ver := 0 }

theorem witness_FillsAndWritebacks_rekey :
    (∀ n ∈ [2 ^ 30, 2 ^ 30 - 1, 256, 0], ((walking n [] []).key 1).st = .rekeying ∧ ((walking n [] []).key 1).cursor = n) ∧
    (walking 0 [] [rowJob0 [{ pair0 none with prep := 2 ^ 17 }] .started false true]).rowBusy 0 = true ∧
    (walking 0 [] []).rowBusy 0 = false ∧ ((walking 0 [] []).part 0).pcg.getLsbD (homeBank 0) = true ∧ paRow 0 < 496 ∧ (walking 0 [] []).behindView 0 = false ∧
    ((walking 256 [] []).part 0).pcg.getLsbD (homeBank (256 * 2048)) = false ∧
    (let s := walking 0 [((metaPlace 0).2, meta0 false 1)] []
     (s.getMeta 0).2.map (fun m => (m.kslot, m.z)) = some (1, true)) := by decide +kernel

theorem witness_FillsAndWritebacks_view :
    let s := { queue (sealedAs [] []) (request true true) with frr := [(0, 0x1000000000000000)] }
    (s.requests.find? (fun e => match e.2 with
      | .mem p _ _ true _ _ => p / 128 == 0
      | _ => false)).isSome = true ∧ SMap.find s.l2 0 = none ∧ s.viewReg 0 = some 0 ∧ 2 ≤ s.pkcState ∧ s.stopped = false := by decide +kernel

/-- A row command of one pair at its preparation, and prepared. -/
def commanded (ents : SMap Nat) (j : Job) : State := withJob (sealedAs [] ents) j

theorem witness_RowCommands_start : ∀ x ∈ [true, false], let j := rowJob0 [pair0 none] .queued false false
    let s := commanded [((metaPlace 0).2, meta0 x 0)] j
    s.rowJob 0 = some (0, j) ∧ s.job 0 0 = some j ∧ s.current 0 = true ∧ j.edges = [] ∧
    keeps s (s.getMeta 0) (fun m => m.any fun m => m.x == x && m.kslot == 0) = true ∧
    (x = true ∨ s.checkPair 0 (pair0 none) = (s, pair0 none)) := by decide +kernel

/-- A registration of the first and of the last line is dropped, and those lines leave L2; a line that the host holds waits. -/
theorem witness_RowCommands_steps :
    (∀ k ∈ [17, 32, 33, 48], let p := { pair0 none with prep := 2 ^ k - 2 ^ 17 }
     let j := rowJob0 [p] .started false false
     let s := commanded [] j
     s.rowJob 0 = some (0, j) ∧ s.job 0 0 = some j ∧ s.current 0 = true ∧ p.may false k = true ∧ s.stepWaits ((k - 17) % 16) true = false) ∧
    (let s := { commanded [] (rowJob0 [pair0 none] .started false false) with regst := [(5, .own 0xC00 false)], snoop := [0] }
     (pair0 none).may false 17 = true ∧ s.stepWaits 0 true = true) := by decide +kernel

theorem witness_RowCommands_operation : ∀ src ∈ [none, some (2 ^ 32)], let j := rowJob0 [pair0 src] .started false true
    let s := commanded [] j
    let u := s.count (cntSeal (homeBank 0) 3) 1
    s.rowJob 0 = some (0, j) ∧ s.job 0 0 = some j ∧ keeps u (u.getMeta 0) (fun m => m.any fun m => decide (m.ver < 2 ^ 44 - 1)) = true ∧
    keeps u (u.getMeta (2 ^ 32 / 2048)) (fun m => m.isSome) = true ∧ (SMap.find u.mcache (metaPlace 0).1).isSome = true := by decide +kernel

theorem witness_RowCommands_end : ∀ d ∈ [true, false], let j := rowJob0 [{ pair0 none with done := d }] .started false true
    let s := commanded [] j
    s.rowJob 0 = some (0, j) ∧ s.job 0 0 = some j ∧ ((s.core j.core).wg j.wg).isSome = true := by decide +kernel
/-! Raster fronts and power. -/

/-- A draw into that target with a viewport of one pixel and a fragment ring of 2^lfr slots at page 1, and a triangle that covers the pixel. -/
def draw0 : DrawDesc :=
  { va := 0, vp := [0x3F000000, 0x3F000000, 0x3F000000, 0x3F000000], cull := 0, dslot := 0, erej := false, frm := 7, lfr := 0, fring := 0x1000, fcode := 0,
    tgt := 0 }
def tri0 : Prim :=
  { prim0 with idx := 1, vs := [0xBF800000, 0xBF800000, 0, 0x3F800000, 0x40400000, 0xBF800000, 0, 0x3F800000,
                                0xBF800000, 0x40400000, 0, 0x3F800000].map fun w => LWord.good (BitVec.ofNat 32 w) }
def fronted (f : Front) : State := { targeted with fronts := [(0, f)] }
def front0 : Front := { Front.reset with next := 1, desc := some draw0 }
def frag0 : Frag := { tk := ticket0, b1 := 0, b2 := 0, attr := 0 }

theorem witness_RasterFronts_arrival :
    (let s := { fronted front0 with prims := [(0, tri0)] }
     s.prims[0]? = some (0, tri0) ∧ (s.front 0 0) = front0 ∧ (s.front 0 0).stale tri0 = false ∧ (s.front 0 0).held.length < 16) ∧
    (∀ f ∈ [{ front0 with next := 2 }, { front0 with held := [(1, tri0)] }, { front0 with draw := 5, done := [0] }], (fronted f).front 0 0 = f) := by
  decide +kernel

theorem witness_RasterFronts_process : ∀ d ∈ [0, 1, 2, 3], let p := { tri0 with dvp := BitVec.ofNat 64 d }
    let f := { front0 with held := [(1, p)] }
    let s := fronted f
    s.front 0 0 = f ∧ SMap.find f.held (f.draw * 2 ^ 20 + f.next) = some p ∧ s.running = true ∧ f.out = [] ∧ f.next ≠ 0 ∧ f.desc = some draw0 ∧
    keeps s (s.readTarget 0 0 draw0.tgt) (fun g => g.isSome) = true ∧ (Machine.shapeOf draw0 p.vs).isSome = true := by decide +kernel

theorem witness_RasterFronts_ticket :
    let f := { front0 with out := [.frag frag0] }
    let s := fronted f
    s.front 0 0 = f ∧ s.fifos = [] ∧ f.block.length < 32 ∧ (∀ n ∈ [7, 8], (fifo0 (List.replicate n 0)).tks.length = n) ∧
    (fifo0 []).ctx = 0 ∧ (fifo0 []).target = ticket0.target ∧ (fifo0 []).px = ticket0.px ∧ (fifo0 []).py = ticket0.py := by decide +kernel

theorem witness_RasterFronts_block : ∀ n ∈ [1, 32], let f := { front0 with block := List.replicate n frag0 }
    let s := fronted f
    s.front 0 0 = f ∧ s.running = true ∧ f.block ≠ [] ∧ f.out = [] ∧ SMap.find f.held (f.draw * 2 ^ 20 + f.next) = none ∧ s.clustersOf (partOf 0) = [0] ∧
    (s.ringOf 0 draw0.fring).busy = [] ∧ s.recordRoom 0 0 = true ∧
    ((s.writeVas 0 0 0x1000 (blockWords draw0 (f.block.take 1))).2 = none) ∧ (SMap.get [] (s.cluster 0).queues 0).length < 64 := by decide +kernel

def fence0 (banks : BitVec 512) (waits : List Nat) : Fence :=
  { id := 4, ctx := 0, draw := 0, idx := 0, target := 0, fslot := 2, fronts := 0xFF, banks := banks, waits := waits }

theorem witness_RasterFronts_fence :
    (let f := { front0 with out := [.fence 4] }
     (fronted f).front 0 0 = f) ∧
    (∀ x ∈ [fence0 0 [], fence0 (BitVec.allOnes 512) [0]], let s := { fronted front0 with fences := [x], fifos := [fifo0 [0]] }
     s.fences.find? (fun x => x.id == 4) = some x ∧ (x.banks ≠ BitVec.allOnes 512 ∨ (s.fifos.any fun q => q.tks.any fun t => x.waits.contains t.seq) = true)) ∧
    (let x := fence0 (BitVec.allOnes 512) [1]
     let s := { fronted front0 with fences := [x], fifos := [fifo0 [0]] }
     let u := { s with fences := s.fences.filter fun y => y.id != 4 }
     s.fences.find? (fun x => x.id == 4) = some x ∧ (s.fifos.any fun q => q.tks.any fun t => x.waits.contains t.seq) = false ∧
     keeps u (u.readTarget 0 0 0) (fun g => g.any fun g => keeps u (u.readSlot 0 0 g 2) (fun m => m.any fun m =>
       m.kind == 6 && decide ((u.counterAdd 0 0 m.pv.toNat (m.p1 % 2 ^ 32)).2 = none))) = true) := by decide +kernel

/-- The package in each state of its bring-up; a die with a telemetry of given state. -/
def inState (n : Nat) : State := { State.reset with pkc := BitVec.ofNat 64 n }
def govern (d : Die) : State := { small with dies := [(0, d)] }

theorem witness_PowerAndBringUp : (∀ n ∈ [0, 1, 2, 3, 4, 5], (inState n).pkcState = n ∧ (inState n).stopped = false) ∧
    (∀ d ∈ [Die.reset, { Die.reset with hot := true }, { Die.reset with runs := true }, { Die.reset with hot := true, runs := true },
        { Die.reset with hot := true, runs := true, beyond := 1 }, { Die.reset with hot := true, runs := true, plane := true }],
      (govern d).die 0 = d ∧ 2 ≤ (govern d).pkcState ∧ (govern d).stopped = false) ∧
    95 ≤ (95 : BitVec 8).toNat ∧ (94 : BitVec 8).toNat < 95 ∧ (91 : BitVec 8).toNat < 92 ∧ 92 ≤ (92 : BitVec 8).toNat ∧
    110 ≤ (110 : BitVec 8).toNat ∧ (109 : BitVec 8).toNat < 110 := by decide +kernel

/-- The end of a window: of a die within and beyond its shares, cool and hot, after and before 1 ms. -/
theorem witness_PowerAndBringUp_window : (∀ b ∈ [0, 1], ∀ d ∈ [Die.reset, { Die.reset with runs := true }, { Die.reset with hot := true, runs := true }],
      let g : GovReading := { amps := 2500, watts := 1050, mv := 105, temp := 94, withheld := 9, beyond := BitVec.ofNat 20 b }
      let s := { govern d with tick := 1800000 }
      (d.winAt + 1800000).toNat ≤ s.tick.toNat ∧ g.amps.toNat ≤ 2500 ∧ g.watts.toNat ≤ 1050 ∧ 105 ≤ g.mv.toNat ∧ g.mv.toNat ≤ 137 ∧
      g.temp.toNat < 95 ∧ 92 ≤ g.temp.toNat ∧ s.clustersOn 0 0 ≠ 0) ∧
    { govern Die.reset with tick := 1799999 }.tick.toNat < (Die.reset.winAt + 1800000).toNat := by decide +kernel
/-! Management, the host port, observation and the fabric. -/

/-- The package with partitions 0 and 1 as given. -/
def parted (f g : Partition → Partition) : State :=
  { small with parts := [(0, f (small.part 0)), (1, g (small.part 1))] }
def freeB (s : State) (p : Nat) : Bool := (s.part p).tdi != .locked && (s.part p).tdi != .run

theorem witness_ManagementWrites_partition : 2 ≤ small.pkcState ∧ small.stopped = false ∧ freeB small 1 = true ∧ (small.part 1).en = false ∧
    (small.part 1).clm = 0 ∧ (small.part 1).pcg = 0 ∧ (small.part 1).ptm = 0 ∧
    freeB small 0 = true ∧ (small.part 0).en = true ∧ (small.part 0).pend = false ∧ (small.part 0).clm &&& ~~~(3 : BitVec 128) = 0 ∧
    (let s := parted id fun q => { q with clm := 1 }
     freeB s 1 = true ∧ (s.part 0).en = true ∧ (s.part 1).clm &&& (s.part 0).clm ≠ 0) ∧
    (let s := parted id fun q => { q with en := true }
     freeB s 1 = true ∧ (s.part 0).pcg &&& 1 ≠ 0) ∧
    (∀ x ∈ [Tdi.locked, .run], freeB (parted (fun q => { q with tdi := x }) id) 0 = false) := by decide +kernel

theorem witness_ManagementWrites_registers : small.ctxWritable 1 = true ∧ freeB small (partOf 1) = true ∧
    (1 : BitVec 64).toNat % 64 ≠ 0 ∧ (0x200 : BitVec 64).getLsbD 9 = true ∧ small.ctxWritable 0 = false ∧
    freeB (parted (fun q => { q with tdi := .run }) id) (partOf 1) = false ∧ small.nodeLocked = false ∧ { small with nodeLocked := true }.nodeLocked = true ∧
    small.running = true ∧ (small.part 0).clm.getLsbD (0 / 12) = true ∧ (small.core 0).row 2047 31 = .good 0 ∧ (small.core 0).scr 131071 = .good 0 ∧
    (∀ w ∈ [0, 1], ({ small with hdm := [(4 * 7, BitVec.ofNat 64 w)] }.hdmWord 7 0).testBit 0 = decide (w = 1)) ∧
    freeB small (small.hdmPart 7) = true ∧ freeB small ((64 : BitVec 64).toNat / 64 % 32) = true := by decide +kernel

/-- A decoder of 256 MiB from host address 0 to device address 0 for partition 0, tracked or not; context 0 is the system context. -/
def decoded (s : State) (tracked : Bool) : State :=
  { s with hdm := [(0, 1), (3, if tracked then 0x800 else 0)], ctxs := SMap.put s.ctxs 0 { s.ctx 0 with ctxc := 0x600 } }
def reachB (s : State) : Bool := (s.part (s.hdmPart 0)).pcg.getLsbD (homeBank 0) && isHbm 0 &&
  decide (s.ensureLine none 0 (s.hdmSlot 0) true = (s, true)) && (SMap.find s.l2 0).any fun l => l.ws.length == 32

theorem witness_HostPort_decoder : ∀ x ∈ [true, false], let s := decoded lined x
    s.running = true ∧ s.hdmFind 0 = some 0 ∧ s.hostOff = false ∧ s.hdmPa 0 0 = 0 ∧ s.hdmTracked 0 = x ∧ s.hostWaits 0 = false ∧ s.snoopRoom 0 = true ∧
    reachB s = true ∧ s.regst = [] ∧ s.exhausted 0 = (s, false) ∧ s.makeRoom 0 0xC00 (List.range 32) = (s, true) ∧
    s.sysCtx (s.hdmPart 0) = some 0 := by decide +kernel

theorem witness_HostPort_uncached : let s := decoded lined false
    s.snoop.contains 0 = false ∧ (s.getMeta 0).2.any (fun m => !m.p) = true := by decide +kernel

theorem witness_HostPort_words :
    (∀ u ∈ [true, false], let s := decoded (owned lined 0 ⟨.good 9, true, u⟩) true
     s.hostWaits 0 = false ∧ reachB s = true ∧ s.regAt 0 = some (.own 0 u) ∧ isCore 0 = true ∧ (s.core 0).l1At 0 = some ⟨.good 9, true, u⟩) ∧
    (let s := decoded { lined with regst := [(0, .ownMode 0 0)] } true
     s.hdmFind 0 = some 0 ∧ s.hostWaits 0 = true ∧ s.snoopRoom 0 = true ∧ reachB s = true) ∧
    (let s := decoded lined true
     s.hdmFind 0x80000 = some 0 ∧ s.hdmPa 0 0x80000 = 0x80000 ∧ s.hostWaits (0x80000 / 128) = false ∧ s.snoopRoom (0x80000 / 128) = true ∧
     (s.part (s.hdmPart 0)).pcg.getLsbD (homeBank 0x80000) = false ∧ s.sysCtx 0 = some 0) := by decide +kernel

/-- A line of host memory in L2, and a line of HBM that the host holds. -/
def hostLine : Nat := hostBase / 128
def snooped : State := decoded { lined with l2 := SMap.put lined.l2 hostLine { lineOf [.good 5] with dirty := true, ks := 64 }, cacheLines := [(hostLine, true)] } true
def tracking : State := decoded { lined with snoop := [0], regst := [(31, .own 0xC00 false)] } true

theorem witness_HostPort_snoop :
    (let s := snooped
     s.running = true ∧ s.hostOff = false ∧ isHbm (hostLine * 128) = false ∧ hostBase ≤ hostLine * 128 ∧ (SMap.find s.cacheLines hostLine).isSome = true ∧ s.lineRegs hostLine = [] ∧
     (SMap.find s.l2 hostLine).map (fun l => l.ws.length) = some 32 ∧ s.recallable hostLine (fun _ => true) = []) ∧
    (let s := tracking
     s.running = true ∧ s.hostOff = false ∧ 0 ∈ s.snoop ∧ s.regAt 31 = some (.own 0xC00 false) ∧
     (SMap.find s.l2 0).map (fun l => l.ws.length) = some 32 ∧ s.partOfBank (lineBank 0) = some 0 ∧ s.sysCtx 0 = some 0) := by decide +kernel

theorem witness_HostPort_states : (∀ x ∈ [Tdi.unlocked, .locked, .run, .error], let s := parted (fun q => { q with tdi := x }) id
      s.running = true ∧ s.hostOff = false ∧ (s.part 0).tdi = x) ∧
    (decoded small true).sysCtx 0 = some 0 ∧ small.ideFailed = false ∧ small.sessions = [] ∧
    (let s := { small with ideFailed := true, sessions := [{ id := 9, ktk := 0, seq := none }] }
     s.running = true ∧ s.ideFailed = true ∧ s.sessions ≠ []) := by decide +kernel

theorem witness_Observation_ticks : small.stopped = false ∧ 2 ≤ small.pkcState ∧ small.latchAt = none ∧
    (8 : BitVec 64).getLsbD 3 = true ∧ (0 : BitVec 64).getLsbD 3 = false ∧ { small with latchAt := some 64 }.latchAt.isSome = true ∧
    (let s := { small with obsc := 0x12, snt := 5, stt := 5, tick := 5, latchAt := some 5 }
     s.obsc.getLsbD 4 = true ∧ s.tick = s.snt ∧ s.latchAt = some s.tick ∧ s.obsc.getLsbD 1 = true ∧ s.tick = s.stt) ∧
    small.obsc.getLsbD 4 = false ∧ small.latchAt ≠ some small.tick ∧ small.obsc.getLsbD 1 = false := by decide +kernel

theorem witness_Observation_debug :
    small.debugLocked 0 = false ∧ (small.core 0).dbgSt ≠ 2 ∧ (small.core 0).smask.getLsbD 0 = false ∧
    (let s := small.onCore 0 fun c => { c with smask := 1 }
     (s.core 0).smask.getLsbD ((32 * 2 ^ 20 + 1) / 2 ^ 10 % 2 ^ 6) = true ∧ ((s.core 0).spindle 0).any (fun sp => (sp.fibre 0).isSome) = true ∧
     (32 * 2 ^ 20 + 1) / 2 ^ 20 % 2 ^ 6 = 32) ∧
    ((small.onCore 0 fun c => { c with dbgSt := 2 }).core 0).dbgSt = 2 ∧
    (parted (fun q => { q with tdi := .run }) id).debugLocked 0 = true := by decide +kernel

/-- The package with nothing running in partition 0, whose only port is port 3. -/
def dumping0 (f : Partition → Partition) (up : Bool) : State :=
  let s := parted (fun q => f { q with ptm := 8 }) id
  { s with cores := [], ports := [(3, { Port.reset with up := up })] }
def quietB (s : State) : Bool := s.running && (s.part 0).en && !(s.part 0).held && (List.range 20).all fun k => !s.dumping k
def idleB (s : State) : Bool := (s.wgsOfPart 0).isEmpty && (s.sysCtx 0).isNone && (List.range 16).all fun k => (s.jobsOf k).isEmpty

theorem witness_Observation_dump :
    (let s := dumping0 id false
     quietB s = true ∧ idleB s = true ∧ s.livePorts 0 = [] ∧ (5 * 2 ^ 32 + 1) / 2 ^ 23 % 32 = 0 ∧ (5 * 2 ^ 32 + 1 : BitVec 64).getLsbD 0 = true ∧
     (s.part 0).ptm.getLsbD 3 = true ∧ (s.part 0).dumpId ≠ some 5) ∧
    (∀ d ∈ [true, false], let s := dumping0 (fun q => { q with held := true, dumpId := some 5, dumped := d }) true
     s.running = true ∧ (s.part 0).en = true ∧ (s.part 0).ptm.getLsbD 3 = true ∧ s.dumping 0 = true ∧ (s.part 0).dumpId = some 5 ∧ s.sysCtx 0 = none ∧
     (s.part 0).dumped = d ∧ s.livePorts 0 = [3]) ∧
    (let s := { dumping0 (fun q => { q with held := true, dumpId := some 5, dumped := true }) true with dump := 12 }
     s.running = true ∧ (0x10 : BitVec 64).getLsbD 4 = true ∧ s.dump.toNat / 2 ^ 23 % 32 = 0 ∧ s.dump.getLsbD 3 = true ∧ (s.part 0).dumped = true ∧
     s.wgsOfPart 0 = [] ∧ (List.range 16).all (fun k => (s.jobsOf k).isEmpty) = true) := by decide +kernel

/-- A flit of kind k for partition 0, and a port that is up. -/
def flitOf (k lseq dst : Nat) (bs : List (BitVec 8)) : Flit :=
  sealFlit { crc := 0, eseq := 0, lseq := 0, dst := dst, src := 1, kind := k, part := 0, len := bs.length, data := bs } lseq
def flit (k lseq dst : Nat) : Flit := flitOf k lseq dst []
def port0 : Port := { Port.reset with up := true }
def wired (p : Port) : State := { parted (fun q => { q with ptm := 3 }) id with ports := [(0, p), (1, port0)] }

/-- The next flit, one that repeats an accepted one, one whose `crc` fails, one out of sequence, one of no kind, one for another node,
a rendezvous and an answer to one, an ack and a nak. -/
theorem witness_Fabric_flits : port0.rxSeq = 0 ∧
    (∀ f ∈ [flit 2 0 0, flit 9 0 0, flit 2 0 1, flitOf 5 0 0 (List.replicate 19 0), flitOf 5 0 0 (List.replicate 19 1), flitOf 1 0 0 [0, 0, 0], flitOf 1 0 0 [1, 0, 0]],
      flitOk f = true ∧ f.lseq = 0) ∧
    (flitOk (flit 2 4095 0) = true ∧ (port0.rxSeq + 4096 - (flit 2 4095 0).lseq % 4096) % 4096 = 1) ∧
    flitOk { flit 2 0 0 with crc := ~~~(flit 2 0 0).crc } = false ∧ 256 < (port0.rxSeq + 4096 - (flit 2 1 0).lseq % 4096) % 4096 ∧
    ¬ (flit 9 0 0).kind < 8 ∧ (flit 2 0 1).dst ≠ (wired port0).node ∧ (flitOf 5 0 0 (List.replicate 19 0)).data.getD 18 0 = 0 ∧
    (flitOf 5 0 0 (List.replicate 19 1)).data.getD 18 0 ≠ 0 ∧ (flitOf 1 0 0 [1, 0, 0]).data.getD 0 0 ≠ 0 ∧
    [flit 2 0 0, flit 2 1 0] = [] ++ flit 2 0 0 :: [flit 2 1 0] := by decide +kernel

theorem witness_Fabric_ports :
    (let s := wired port0
     s.stopped = false ∧ (s.port 0).up = true ∧ (s.port 0).training = false ∧ (s.port 0).rxSeq = 0 ∧ (s.part 0).ptm.getLsbD 0 = true ∧ s.node = 0 ∧
     (s.part 0).dumped = false ∧ s.portTo 0 1 = some 1 ∧ (s.port 0).replay = []) ∧
    (flit 2 1 0).lseq ≠ port0.rxSeq ∧ (flit 2 0 0).lseq = port0.rxSeq ∧ ¬ (flit 9 0 0).kind < 8 ∧ (flit 7 0 1).kind < 8 ∧
    (wired { port0 with replay := [flit 2 0 0, flit 2 1 0] }).port 0 = { port0 with replay := [flit 2 0 0, flit 2 1 0] } ∧
    (∀ n ∈ [0, 62, 63], (wired { port0 with naks := n }).port 0 = { port0 with naks := n } ∧ port0.nakSeq = 0) ∧
    (∀ l ∈ [[], [0], [0, 0]], let s := wired { port0 with training := true, retrains := l }
     (s.port 0).training = true ∧ ((s.port 0).retrains.filter fun t => decide (s.tick.toNat < t.toNat + 18000000)).length = l.length) := by
  decide +kernel

/-- A stream of this node, and one to it, with commands unanswered. -/
def open0 (tries : Nat) : Unanswered := { eseq := 0, cmd := .addCounter 0 1, sent := 0, tries := tries }
def streaming (src dst : Nat) (l : List Unanswered) (tick : BitVec 64) : State :=
  let s := decoded { counting with mcache := lined.mcache } true
  { s with
    streams := [{ src := src, dst := dst, part := 0, eseq := 1, open_ := l, rxNext := 1, kept := [(0, [7])], failed := false }], tick := tick }

theorem witness_Fabric_streams :
    (∀ n ∈ [63, 64], let s := streaming 0 1 (List.replicate n (open0 0)) 0
     s.running = true ∧ (s.part 0).en = true ∧ (s.part 0).dumped = false ∧ s.node = 0 ∧ (s.stream 0 1 0).failed = false ∧ (s.stream 0 1 0).eseq = 1 ∧
     (s.stream 0 1 0).open_.length = n) ∧
    (let s := streaming 1 0 [] 0
     (s.stream 1 0 0).rxNext = 1 ∧ isHbm 0 = true ∧ 0 % 8 = 0 ∧ (s.part 0).pcg.getLsbD (homeBank 0) = true ∧
     (SMap.find s.l2 0).map (fun l => l.ws.length) = some 32 ∧ s.regAt 0 = none ∧ s.regAt 1 = none ∧ s.l2Word 0 = .good 5 ∧ s.l2Word 1 = .good 1 ∧
     s.registerWaits 0 = false ∧ s.registerWaits 1 = false ∧ s.ensureHome 0 = s ∧ s.ensureHome 1 = s ∧ s.exhausted 0 = (s, false)) ∧
    ((streaming 1 0 [] 0).stream 1 0 0).kept.find? (fun k => k.1 == 0) = some (0, [7]) ∧
    (∀ q ∈ [(0, 179999), (7, 180000), (8, 180000)], let s := streaming 0 1 [open0 q.1] (BitVec.ofNat 64 q.2)
     (s.stream 0 1 0).open_.find? (fun u => u.eseq == 0) = some (open0 q.1) ∧ s.tick.toNat = q.2 ∧ (s.part 0).dumped = false ∧ s.sysCtx 0 = some 0) := by
  decide +kernel

/-- A process-group table of n ranks, this node first, at 0 of page 0. -/
def grouped (n : Nat) : State :=
  let j := { collecting with status := .queued }
  let s := mapped (withJob lined j)
  { s with l2 := SMap.put s.l2 0 (lineOf [.good (BitVec.ofNat 32 (n - 1)), .good 0, .good (BitVec.ofNat 32 (n - 1)), .good 0, .good 7, .good 0, .good 0, .good 0,
      .good 0, .good 0, .good 0, .good 0, .good 0, .good 0, .good 0, .good 0, .good 0, .good 0, .good 1]) }

theorem witness_Fabric_start : ∀ n ∈ [1, 2], let j := { collecting with status := .queued }
    let s := if n = 2 then { grouped n with parts := SMap.put (grouped n).parts 0 { (grouped n).part 0 with ptm := 1 }, ports := [(0, port0)] } else grouped n
    s.running = true ∧ s.job 0 0 = some j ∧ j.status = .queued ∧ j.halted = false ∧ s.current 0 = true ∧ j.edges = [] ∧ j.peers = [] ∧ s.asks = [] ∧
    s.node = 0 ∧ (if n = 1 then s.livePorts (partOf j.ctx) = [] else s.portTo (partOf j.ctx) 1 = some 0) ∧
    keeps s (s.collTable 0 0) (fun r => r.any fun r => r.1 == 0 && r.2.tid == 7 && r.2.nodes == List.range n) = true := by decide +kernel

/-- A collective of two ranks that has sent its rendezvous; of one rank. -/
theorem witness_Fabric_rendezvous : ∀ n ∈ [1, 2], let j := { collecting with status := .queued, peers := List.range n, ranks := n }
    let s := withJob (grouped n) j
    s.running = true ∧ s.job 0 0 = some j ∧ j.status = .queued ∧ s.current 0 = true ∧ j.peers ≠ [] ∧ j.ranks = n ∧ j.rank = 0 ∧
    keeps s (s.collTable 0 0) (fun r => r.any fun r => r.1 == 0 && r.2.tid == 7) = true := by decide +kernel
/-! Steps, and what holds of every state. -/

/-- The package about to issue from quarter 0, with the given words at its PC. -/
def issuing (ws : List Nat) : State := State.reset.withFetchWord (32 * ws.length) (ws.zipIdx.map fun e => e.1 * 2 ^ (32 * e.2)).sum

/-- A unit at memory about to issue. -/
def unitIssuing (ws : List Nat) : State :=
  let s := issuing ws
  { s with agenda := [.issue 0xA00 0], cores := SMap.put [] 0xA00 (s.core 0), parts := SMap.put s.parts 0 { s.part 0 with pcg := BitVec.allOnes 512 } }

/-- What a step finds: the word that it fetches, or that the fetch fails. -/
def finds (s : State) (r : Nat) : Option (Except Nat (List Nat)) :=
  match (s.core r).pick 0 with
  | none => none
  | some (slot, b) =>
    let u := { s with agenda := [], stall := false }.picked r 0 slot b
    match u.context noHdr with
    | none => none
    | some x => match (u.fetchAt r x.cx x.pc).2 with
      | .error e => some (.error e.1)
      | .ok ws => some (.ok ws)

def findsOk (s : State) (r : Nat) (p : List Nat → Bool) : Bool := s.running && !s.withheldRunner r && match finds s r with
  | some (.ok ws) => p ws
  | _ => false

theorem witness_StepRunsDecoded : (issuing [0x3081E040]).agenda = [.issue 0 0] ∧
    findsOk (issuing [0x3081E040]) 0 (fun ws => match decodeWords ws with
      | .ok (i, _) => i == .add base (ops 7 (v 8) (.imm6 12) .zero) iM
      | _ => false) = true ∧
    findsOk (issuing [0x2000]) 0 (fun ws => match decodeWords ws with
      | .error .noForm => true
      | _ => false) = true ∧
    (let s := onSpindle0 (issuing [0]) fun sp => sp.onFibre 0 fun f => { f with pc := 2 ^ 62 }
     s.running = true ∧ s.withheldRunner 0 = false ∧ (match finds s 0 with
       | some (.error _) => true
       | _ => false) = true) ∧
    (unitIssuing [0x0000E001, 2, 0x003F0000]).agenda = [.issue 0xA00 0] ∧ isCore 0xA00 = false ∧
    findsOk (unitIssuing [0x0000E001, 2, 0x003F0000]) 0xA00 (fun ws => match decodeWords ws with
      | .ok (i, _) => returnTraps i
      | _ => false) = true ∧
    (let s := { small with agenda := [.event .railsInRange] }
     s.agenda = [.event .railsInRange] ∧ s.stopped = false ∧ Instr.isWord .railsInRange = false) := by decide +kernel

theorem witness_StoppedStays : let s := { small with stopped := true, agenda := [.event .railsInRange] }
    s.stopped = true ∧ s.nextMove.2 ≠ .event .reset := by decide +kernel

theorem witness_StepKeepsMemory : DataInv State.reset ∧ ∃ t, step { State.reset with agenda := [.event .railsInRange] } = .next t :=
  ⟨⟨by decide +kernel, by decide +kernel⟩, _, rfl⟩

theorem witness_DecodeEncode : (Instr.ffma ⟨.ext, ⟨5, false⟩, false, 0⟩ ⟨40, .reg 41 (.bc 3), .reg 42 (.rot 1), v 40⟩
    ⟨.rz, false, false, 0, 0, 0, .f32⟩).wf = true := by decide +kernel

/-! The checks of WellFormed: each refuses a term (R3, R164, R166, R160, R172). -/

theorem test_check_modifiers : (Instr.add ext (ops 8 (v 2) (v 4) .zero) ⟨.f32, false, 0⟩).check = some .modifiers := by decide +kernel

theorem test_check_operands : (Instr.add64 ext (ops 8 (v 3) (v 4) .zero) ⟨.i64, false, 0⟩).check = some .operands := by decide +kernel

theorem test_check_base : (Instr.add base (ops 8 (v 64) (v 4) .zero) iM).check = some .base := by decide +kernel

theorem test_check_pair : (Instr.pair ext ⟨.add, 4, 2, 3, 9⟩ ⟨.fadd, 5, 6, 7, 0⟩).check = some .pair := by decide +kernel

theorem test_check_notAWord : Instr.check .railsInRange = some .notAWord := by decide +kernel

/-! Decoding. The kernel of chapter 9, then words written out from R158 to R165 for each group of majors of the opcode map (R177). -/

theorem test_decode_kernel :
    decodeWords [0x00011180] = .ok (.rdlLane base ⟨4, .zero, .zero, .zero⟩, 1) ∧
    decodeWords [0x08412340] = .ok (.shl base ⟨4, v 4, .imm6 2, .zero⟩ iM, 1) ∧
    decodeWords [0x00014600] = .ok (.mov base ⟨5, v 0, .zero, .zero⟩ iM, 1) ∧
    decodeWords [0x10218680] = .ok (.add64 base ⟨6, v 2, v 4, .zero⟩ iM, 1) ∧
    decodeWords [0x00623404] = .ok (.ld ⟨.base, always, true, 0⟩ ⟨8, v 6, .imm6 0, .zero⟩ (mM .rlx .pkg 0 .b32), 1) ∧
    decodeWords [0x00820842, 0x3FC00000, 0] = .ok (.fmul ⟨.baseLit, always, false, 0x3FC00000⟩ ⟨8, v 8, .lit, .zero⟩ (fM .f32), 3) ∧
    decodeWords [0x00623440] = .ok (.st base ⟨8, v 6, .imm6 0, .zero⟩ (mM .rlx .pkg 0 .b32), 1) ∧
    decodeWords [0x00001A00] = .ok (.endFibre base none_, 1) := ⟨rfl, rfl, rfl, rfl, rfl, rfl, rfl, rfl⟩

theorem test_decode_integers :
    decodeWords [0x01070601, 0x00090008, 0x60000000] = .ok (.mulHi ext ⟨7, v 8, v 9, .zero⟩ ⟨.n32, false, 0⟩, 3) ∧
    decodeWords [0x02080801, 0x00040002, 0x20000006] = .ok (.madWide ext ⟨8, v 2, v 4, v 6⟩ iM, 3) ∧
    decodeWords [0x00071801, 0x00090008, 0x2096000A] = .ok (.lop3 ext ⟨7, v 8, v 9, v 10⟩ ⟨.i32, false, 0x96⟩, 3) ∧
    decodeWords [0x7C312380] = .ok (.shr base ⟨4, v 3, .imm6 31, .zero⟩ iM, 1) ∧
    decodeWords [0x04310500] = .ok (.bcntClz base ⟨4, v 3, .zero, .zero⟩ iM, 1) ∧
    decodeWords [0x00072A01, 0x00090008, 0x2000000A] = .ok (.perm ext ⟨7, v 8, v 9, v 10⟩ iM, 3) ∧
    decodeWords [0x01083401, 0x00040002, 0x30000000] = .ok (.add64Sub ext ⟨8, v 2, v 4, .zero⟩ ⟨.i64, false, 0⟩, 3) ∧
    decodeWords [0x00073A01, 0x00040002, 0x70060000] = .ok (.cmp64 ext ⟨7, v 2, v 4, .zero⟩ ⟨.n64, false, 6⟩, 3) :=
  ⟨rfl, rfl, rfl, rfl, rfl, rfl, rfl, rfl⟩

theorem test_decode_floats_lanes :
    decodeWords [0x00074C01, 0x00000008, 0x25100000] = .ok (.fcvt ext ⟨7, v 8, .zero, .zero⟩ ⟨.rz, false, false, .f32, .i32⟩, 3) ∧
    decodeWords [0x00075401, 0x00090008, 0x00100000] = .ok (.hadd2 ext ⟨7, v 8, v 9, .zero⟩ (fM .f16), 3) ∧
    decodeWords [0x18420C00] = .ok (.dfma base ⟨8, v 4, v 6, v 8⟩ (fM .f64), 1) ∧
    decodeWords [0x01078001, 0x00090008, 0x20000000] = .ok (.shflBack ext ⟨7, v 8, v 9, .zero⟩ iM, 3) ∧
    decodeWords [0x02078201, 0x00000008, 0x20000000] = .ok (.voteBallot ext ⟨7, v 8, .zero, .zero⟩ iM, 3) ∧
    decodeWords [0x083110C0] = .ok (.reduxMax base ⟨4, v 3, .zero, .zero⟩ iM, 1) ∧
    decodeWords [0x0C003140] = .ok (.seg base ⟨0, v 0, .imm6 3, .zero⟩, 1) := ⟨rfl, rfl, rfl, rfl, rfl, rfl, rfl⟩

theorem test_decode_memory_control :
    decodeWords [0x0708A401, 0x00060004, 0xF00002FF] = .ok (.atomCas ext ⟨8, v 4, v 6, .zero⟩ (mM .ar .sys 0 .b32), 3) ∧
    decodeWords [0x2001F680] = .ok (.lds base ⟨7, v 0, .imm6 8, .zero⟩ (mM .rlx .wg 0 .b32), 1) ∧
    decodeWords [0x0000CC01, 0x00000002, 0x00030000] = .ok (.loop ext ⟨0, v 2, v 0, v 0⟩ 3, 3) ∧
    decodeWords [0x0107D801, 0x00080000, 0x00020000] = .ok (.mbarArrive ext ⟨7, v 0, v 8, v 0⟩ 2, 3) ∧
    decodeWords [0x0000DC01, 0, 0x00070000] = .ok (.trap ext none_ 7, 3) := ⟨rfl, rfl, rfl, rfl, rfl⟩

theorem test_decode_engines_system :
    decodeWords [0x0000E001, 0x00000002, 0x003F0000] = .ok (.cpyPlain ext ⟨0, v 2, v 0, v 0⟩ 63, 3) ∧
    decodeWords [0x0000EC01, 0x00040002, 0x00000006] = .ok (.nmcRowcp ext ⟨0, v 2, v 4, v 6⟩ 0, 3) ∧
    decodeWords [0x0000F001, 0x00000002, 0x00000000] = .ok (.launch ext ⟨0, v 2, v 0, v 0⟩ 0, 3) ∧
    decodeWords [0x0407FA01, 0x00040002, 0x00030000] = .ok (.sysKslotQuery ext ⟨7, v 2, v 4, v 0⟩ 3, 3) ∧
    decodeWords [0x0008BA01, 0x00040002, 0x00050000] = .ok (.smp ext ⟨8, v 2, v 4, v 0⟩ 5, 3) := ⟨rfl, rfl, rfl, rfl, rfl⟩

/-- The launch template of the kernel of chapter 9: bytes 24 to 31 are 0x0001_E120_0000_0005. -/
theorem test_header_kernel : let h := parseHeader (0x0001E12000000005 * 2 ^ 192 + 0x1F * 2 ^ 128)
    h.nf = 2 ∧ h.plev = 2 ∧ h.rlev = 0 ∧ h.frm = 15 ∧ h.scr = 0 ∧ h.ws = [5, 0, 0, 0, 0, 0] ∧ h.ok = true ∧ h.n 0 = 32 := by decide +kernel

/-! Single steps, with results worked out by hand. -/

/-- Register k of lane 0 after a step of a word with registers written before it. -/
def regAfter (ws : List Nat) (l : List (Nat × LWord)) (k : Nat) : Option LWord :=
  match step (withRegs (issuing ws) l) with
  | .next t => some ((t.core 0).row k 0)
  | _ => none

/-- The PC of lane 0, and the wait of its batch, after a step. -/
def pcAfter (ws : List Nat) : Option (BitVec 64) :=
  match step (issuing ws) with
  | .next t => ((t.core 0).spindle 0).bind fun sp => (sp.fibre 0).map fun f => f.pc
  | _ => none

/-- R211, R214: −8 + 12 wraps to 4, and the next word follows. -/
theorem test_add_wraps : regAfter [0x3081E040] [(8, .good 0xFFFFFFF8)] 7 = some (.good 4) ∧ pcAfter [0x3081E040] = some 4 := by decide +kernel

/-- R240: the immediate 0xABC is sign-extended. -/
theorem test_ldi : regAfter [0xABC08640] [] 2 = some (.good 0xFFFFFABC) := by decide +kernel

theorem test_shl : regAfter [0x08412340] [(4, .good 3)] 4 = some (.good 12) := by decide +kernel

/-- (2^32 − 1)^2 = 2^64 − 2^33 + 1. -/
theorem test_mulHi : regAfter [0x01070601, 0x00090008, 0x60000000] [(8, .good 0xFFFFFFFF), (9, .good 0xFFFFFFFF)] 7 = some (.good 0xFFFFFFFE) := by
  decide +kernel

/-- The table 0x96 is the exclusive OR of three. -/
theorem test_lop3 : regAfter [0x00071801, 0x00090008, 0x2096000A] [(8, .good 0xF0F0F0F0), (9, .good 0xFF00FF00), (10, .good 0x0000FFFF)] 7 =
    some (.good 0x0FF0F00F) := by decide +kernel

theorem test_shr : regAfter [0x7C312380] [(3, .good 0x80000000)] 4 = some (.good 1) := by decide +kernel

theorem test_bcntClz : regAfter [0x04310500] [(3, .good 0x00010000)] 4 = some (.good 15) := by decide +kernel

/-- 2^32 − 1 as a pair. -/
theorem test_add64Sub : (∀ q ∈ [(8, 0xFFFFFFFF), (9, 0)], regAfter [0x01083401, 0x00040002, 0x30000000]
    [(3, .good 1), (4, .good 1)] q.1 = some (.good (BitVec.ofNat 32 q.2))) := by decide +kernel

/-- The kernel of chapter 9 turns 0.75 into 1.125. -/
theorem test_fmul : regAfter [0x00820842, 0x3FC00000, 0] [(8, .good 0x3F400000)] 8 = some (.good 0x3F900000) := by decide +kernel

/-- (1 + 1, 2 + 1) in halves. -/
theorem test_hadd2 : regAfter [0x00075401, 0x00090008, 0x00100000] [(8, .good 0x3C004000), (9, .good 0x3C003C00)] 7 = some (.good 0x40004200) := by
  decide +kernel

/-- 1 · 1 + 1 = 2 in FP64, the register being both addend and destination. -/
theorem test_dfma : regAfter [0x18420C00] [(5, .good 0x3FF00000), (7, .good 0x3FF00000), (9, .good 0x3FF00000)] 9 = some (.good 0x40000000) := by
  decide +kernel

/-- A word that reads a poisoned register writes poison (R152). -/
theorem test_poison : regAfter [0x3081E040] [(8, .poison)] 7 = some .poison := by decide +kernel

/-- A branch of −48 words from 0, with p0. -/
theorem test_br : pcAfter [0xFFF41800] = some (-192) := by decide +kernel

/-- An illegal word takes the illegal-instruction trap (R184, R427): the fibre goes on at the handler, in a frame of its own of 8 rows. -/
theorem test_illegal : (match step (handled (mapped (issuing [0x2000]))) with
    | .next t => (spindle0 t).fibre 0 |>.map fun f => (f.pc, f.base, f.rows)
    | _ => none) = some (0x200, 256, 8) := by decide +kernel

/-- The last fibre ends. -/
theorem test_end : pcAfter [0x00001A00] = none := by decide +kernel

/-! Assembly, objects and the link: words, relocations and checks from the examples of chapters 8, 9 and 12. -/

/-- The words of a statement at offset 0 of section 1, with a label 192 bytes before it and one 24 bytes ahead; none where it is
rejected. -/
def wordsOf (src : String) : Option (List Nat) :=
  let e : Env := ⟨[⟨"back", 1, 0, .code, 0⟩, ⟨"last", 1, 216, .code, 0⟩], [], [], [("func", 40)], 1, 192, false⟩
  match lex (stripComment false src.toList) with
  | .ok ts => match encodeStatement e ts with
    | .ok (ws, _) => some ws
    | .error _ => none
  | .error _ => none

theorem test_asm_imm6 : wordsOf "add v7, v8, #12 ; twelve" = some [0x3081E040] := by decide +kernel

theorem test_asm_literal : wordsOf "fmul v8, v8, #1.5f" = some [0x00820842, 0x3FC00000, 0] := by decide +kernel

theorem test_asm_guard : wordsOf "(!p2) fmul v10, v11, v12 !" = some [0x30B28874] := by decide +kernel

theorem test_asm_branch : wordsOf "(p1) br back" = some [0xFFF41808] := by decide +kernel

theorem test_asm_patterns : wordsOf "(p5) ffma v40, v41<bc:3>, v42<rot:1>, v40 rnd=rz" = some [0x00284429, 0x092A1A29, 0x20140028] := by
  decide +kernel

theorem test_asm_pair : wordsOf "fadd v8, v9, v10 || and v13, v14, v15" = some [0x0420FE01, 0x08000A09, 0x000F0E0D] := by decide +kernel

theorem test_asm_destination_c : wordsOf "ffma v5, v4, v4" = some [0x10414880] := by decide +kernel

theorem test_asm_loop : wordsOf "loop v5, last" = some [0x0000CC01, 0x00000005, 0x00060000] := by decide +kernel

/-- `dem` is written in rows (R190, R269); the target waits for the link. -/
theorem test_asm_call : wordsOf "call func dem=40 args=3" = some [0x0000C403, 0x00000700, 0x03270000, 0, 0] := by decide +kernel

/-- The callee's declared rows where no demand is written (R205). -/
theorem test_asm_demand : wordsOf "call func" = some [0x0000C403, 0x00000700, 0x00270000, 0, 0] := by decide +kernel

/-- A negation outside layout F, an odd `w`, a field the layout lacks, and a forced form that cannot carry the operands (R187, R190). -/
theorem test_asm_refused :
    wordsOf "add v1, -v2, v3" = none ∧ wordsOf "ld w5, [w2] sz=b64" = none ∧ wordsOf "add v1, v2, v3 rnd=rz" = none ∧
      wordsOf "add v100, v2, v3 L=0" = none := by decide +kernel

/-- Two statements of the kernel of chapter 9 with its launch template. -/
def smallKernel : String :=
  " .kernel k\n .workid 5:32, 0:1, plev=2\n .frame 16\n .entry start\nstart: rdl.lane v4\n end\n .end\n"

/-- Its image: the code at a 64 KiB boundary, and the header of the launch with `code` resolved (R194, R203, R208). -/
theorem test_link_kernel : (match assemble [] 20 smallKernel.toList with
    | .ok o => match link 0x10001 [o] with
      | .ok (im, w) => some (im.sects.map (·.addr), im.kernels.map (·.worst), im.kernels.map fun k => (nbits k.header 63 0, nbits k.header 255 128), w)
      | .error _ => none
    | .error _ => none) =
    some ([0x20000], [some 16], [(0x20000, 0x0001E12000000005000000000000001F)], []) := by decide +kernel

/-- A symbol that no object defines is an error (R208); a source that leaves its template open is rejected (R194). -/
theorem test_link_undefined : (match assemble [] 20 ".data\n .dword there\n".toList with
    | .ok o => match link 0 [o] with
      | .ok _ => none
      | .error e => some e
    | .error _ => none) = some (.undefined "there") := by decide +kernel

theorem test_asm_open_kernel : (match assemble [] 20 " .kernel k\n end\n".toList with
    | .error e => some e
    | .ok _ => none) = some .kernel := by decide +kernel

/-- `branch18` reaches 131,071 words and no further; `descp` wants a symbol of its kinds (R202). -/
theorem test_relocate : relocate [0, 0x18, 0, 0] 0 0 (4 * 131071) .code .branch18 = some [0, 0xD8, 0xFF, 0x7F] ∧
    relocate [0, 0x18, 0, 0] 0 0 (4 * 131072) .code .branch18 = none ∧
    relocate (List.replicate 8 0) 0 0 0x2000 .target (.descp 52 12 12) = some (toBytes 8 0x2000) ∧
    relocate (List.replicate 8 0) 0 0 0x2000 .data (.descp 52 12 12) = none := by decide +kernel

/-- A call with too few arguments is rejected at the link (R206). -/
theorem test_link_args : (match assemble [] 30 (" call f\n .frame 16, args=2\nf: ret\n .frame 16\ng: call f dem=16 args=1\n ret\n").toList with
    | .ok o => match link 0 [o] with
      | .ok _ => none
      | .error e => some e
    | .error _ => none) = some (.args "g") := by decide +kernel

end Sys2Proof.Tests
end

namespace Sys2Proof.Machine

/-! Power, cooling and bring-up (R21, R22, R136, R398 to R404, R485): the statement `Obligations.PowerAndBringUp`. The states of bring-up
come first, then the metadata of initialisation, the training of the ports, and what a change on a die leaves. -/

/-! ### The states of bring-up (R401, R402) -/

theorem State.pkcState_eq (s : State) : s.pkcState = (s.pkc.setWidth 4).toNat := by
  simp [State.pkcState, nbits]

theorem State.pkcState_enter (s : State) {n : Nat} (h : n < 16) : (s.enter n).pkcState = n := by
  have low : (s.enter n).pkc.setWidth 4 = BitVec.ofNat 4 n := by
    simp [State.enter, BitVec.setWidth_or, BitVec.setWidth_and]
  rw [State.pkcState_eq, low, BitVec.toNat_ofNat, Nat.mod_eq_of_lt h]

/-- The bits of `PKC` above its state stay. -/
theorem State.pkc_enter_high (s : State) {n : Nat} (h : n < 16) : (s.enter n).pkc >>> 4 = s.pkc >>> 4 := by
  have high {x : Nat} (hx : x < 16) (i : Nat) : (BitVec.ofNat 64 x).getLsbD (4 + i) = false := by
    have : 2 ^ 4 ≤ 2 ^ (4 + i) := Nat.pow_le_pow_right (by omega) (by omega)
    rw [BitVec.getLsbD_ofNat, Nat.testBit_lt_two_pow (by omega), Bool.and_false]
  ext i hi
  have mask : (0xF : BitVec 64).getLsbD (4 + i) = false := high (x := 15) (by omega) i
  simp only [State.enter, BitVec.getElem_ushiftRight, BitVec.getLsbD_or, BitVec.getLsbD_and, BitVec.getLsbD_not, high h, mask,
    Bool.not_false, Bool.and_true, Bool.or_false]
  by_cases hb : 4 + i < 64
  · simp [hb]
  · simp [hb, BitVec.getLsbD_of_ge _ _ (Nat.le_of_not_lt hb)]

/-! ### The metadata of initialisation (R119, R124, R126, R136) -/

/-- Whether a metadata row hangs from the root SRAM over at most h rows, itself among them (R124). -/
def hangsBelow : Nat → Nat → Bool
  | 0, _ => false
  | h + 1, row => match parentOf row with
    | .row r _ => hangsBelow h r
    | .root _ => true

theorem nbits_lt (x hi lo : Nat) : nbits x hi lo < 2 ^ (hi + 1 - lo) := Nat.mod_lt _ (Nat.two_pow_pos _)

section
variable {row sub bank stack pc : Nat}

theorem mkPa_aligned : mkPa row sub bank stack pc / 2048 * 2048 = mkPa row sub bank stack pc := by
  simp only [mkPa]
  omega

theorem paRow_mkPa (hr : row < 512) (hs : sub < 32) (hb : bank < 16) (hk : stack < 16) (hp : pc < 256) :
    paRow (mkPa row sub bank stack pc) = row := by
  simp only [paRow, mkPa, nbits, Nat.shiftRight_eq_div_pow]
  omega

end

theorem hangsBelow_of_root {row : Nat} (h : 505 < paRow (row * 2048)) : hangsBelow 1 row = true := by
  simp only [hangsBelow, parentOf, Nat.not_lt.2 (Nat.le_of_lt h), Nat.ne_of_gt h, if_false]

theorem hangsBelow_of_tree {row : Nat} (h : paRow (row * 2048) = 505) : hangsBelow 2 row = true := by
  rw [hangsBelow, parentOf]
  simp only [h, Nat.lt_irrefl, if_false, if_true]
  apply hangsBelow_of_root
  rw [mkPa_aligned, paRow_mkPa (by omega) (by omega) (by omega) (nbits_lt ..) (nbits_lt ..)]
  omega

theorem hangsBelow_of_entries {row : Nat} (h : paRow (row * 2048) < 505) : hangsBelow 3 row = true := by
  rw [hangsBelow, parentOf]
  simp only [h, if_true]
  apply hangsBelow_of_tree
  have sub : paSub (row * 2048) < 32 := nbits_lt ..
  rw [mkPa_aligned, paRow_mkPa (by omega) (by omega) (nbits_lt ..) (nbits_lt ..) (nbits_lt ..)]

/-- The row of any block's metadata entry lies in rows 497 to 504, three rows below the root. -/
theorem hangsBelow_metaPlace (blk : Nat) : hangsBelow 3 (metaPlace blk).1 = true := by
  apply hangsBelow_of_entries
  have dataRow : paRow (blk * 2048) < 512 := nbits_lt ..
  simp only [metaPlace]
  rw [mkPa_aligned, paRow_mkPa (by omega) (nbits_lt ..) (nbits_lt ..) (nbits_lt ..) (nbits_lt ..)]
  omega

theorem SMap.length_put_le {α : Type} (m : SMap α) (k : Nat) (v : α) : (SMap.put m k v).length ≤ m.length + 1 := by
  induction m with
  | nil => simp [SMap.put]
  | cons e m ih =>
    simp only [SMap.put]
    split
    · simp
    · split
      · simp
      · simpa using ih

theorem State.getMeta_of_loadRow {s t : State} {blk : Nat} {m : MRow} (hl : s.loadRow 3 (metaPlace blk).1 = (t, some m))
    (hm : SMap.find m.ents (metaPlace blk).2 = none) : s.getMeta blk = (t, some (t.initMeta blk)) := by
  unfold State.getMeta
  generalize metaPlace blk = place at hl hm ⊢
  obtain ⟨row, slot⟩ := place
  simp only [hl, hm]

/-- The metadata tree as initialisation leaves it (R136), with at most n rows in the metadata cache: no row is written or failed, and
no cached row lists an entry that differs. -/
structure TreeInitial (n : Nat) (s : State) : Prop where
  root : s.root = []
  rowsKept : s.rowsKept = []
  failedRows : s.failedRows = []
  failedEngines : s.failedEngines = []
  few : s.mcache.length ≤ n
  cached : ∀ r m, SMap.find s.mcache r = some m → m.ents = []

namespace TreeInitial

variable {n : Nat} {s : State}

theorem mono (h : TreeInitial n s) {k : Nat} (hk : n ≤ k) : TreeInitial k s := { h with few := Nat.le_trans h.few hk }

theorem count (h : TreeInitial n s) (w k : Nat) : TreeInitial n (s.count w k) :=
  ⟨h.root, h.rowsKept, h.failedRows, h.failedEngines, h.few, h.cached⟩

theorem find_root (h : TreeInitial n s) (i : Nat) : SMap.find s.root i = none := by rw [h.root]; rfl

theorem rowFailed (h : TreeInitial n s) (k row : Nat) : s.rowFailed k row = false := by
  induction k generalizing row with
  | zero => rfl
  | succ k ih =>
    rw [State.rowFailed, h.failedRows]
    cases parentOf row <;> simp [ih]

theorem rowPasses (h : TreeInitial n s) (row : Nat) : s.rowPasses row none = true := by
  simp [State.rowPasses, h.rowsKept, SMap.find]

theorem rowPlain (h : TreeInitial n s) (row : Nat) : s.rowPlain row none = [] := by
  simp [State.rowPlain, h.rowsKept, SMap.find]

theorem cacheRoom (h : TreeInitial n s) (hn : n < 192) (row : Nat) : s.cacheRoom row = s := by
  have few : ((s.mcache.map Prod.fst).filter fun r => homeBank (r * 2048) == homeBank (row * 2048)).length < 192 := calc
    _ ≤ (s.mcache.map Prod.fst).length := List.length_filter_le ..
    _ = s.mcache.length := List.length_map ..
    _ < 192 := Nat.lt_of_le_of_lt h.few hn
  simp only [State.cacheRoom, few, if_true]

/-- A row that enters the cache with no entry that differs. -/
theorem cache (h : TreeInitial n s) (row : Nat) :
    TreeInitial (n + 1) { s with mcache := SMap.put s.mcache row { ents := [], dirty := false } } where
  root := h.root
  rowsKept := h.rowsKept
  failedRows := h.failedRows
  failedEngines := h.failedEngines
  few := Nat.le_trans (SMap.length_put_le ..) (Nat.succ_le_succ h.few)
  cached := by
    intro r m hm
    dsimp only at hm
    by_cases hr : r = row
    · rw [hr, SMap.find_put_self] at hm
      cases hm
      rfl
    · rw [SMap.find_put_other _ _ _ _ hr] at hm
      exact h.cached r m hm

/-- A row that hangs from the root loads through its parents, with no entry that differs. -/
theorem loadRow (h : TreeInitial n s) {k row : Nat} (hb : hangsBelow k row = true) (hk : n + k ≤ 192) :
    ∃ t m, s.loadRow k row = (t, some m) ∧ TreeInitial (n + k) t ∧ m.ents = [] := by
  induction k generalizing row s with
  | zero => cases hb
  | succ k ih =>
    rw [State.loadRow]
    cases hc : SMap.find s.mcache row with
    | some m => exact ⟨s, m, rfl, h.mono (by omega), h.cached row m hc⟩
    | none =>
      simp only [h.rowFailed, h.failedEngines, List.contains_nil, Bool.or_false, Bool.false_eq_true, if_false]
      rw [hangsBelow] at hb
      have hs := h.count (cntBank (homeBank (row * 2048)) 3) 1
      cases hp : parentOf row with
      | root i =>
        simp only [hs.find_root, hs.rowPasses, hs.rowPlain, hs.cacheRoom (by omega), Bool.not_true, Bool.false_eq_true, if_false]
        exact ⟨_, _, rfl, (hs.cache row).mono (by omega), rfl⟩
      | row r slot =>
        rw [hp] at hb
        obtain ⟨t, m, hl, ht, hm⟩ := ih hs hb (by omega)
        simp only [hl, hm, SMap.find, Option.map_none, ht.rowPasses, ht.rowPlain, ht.cacheRoom (show n + k < 192 by omega), Bool.not_true,
          Bool.false_eq_true, if_false]
        exact ⟨_, _, rfl, ht.cache row, rfl⟩

/-- Every block has the metadata of initialisation. -/
theorem getMeta (h : TreeInitial n s) (hn : n + 3 ≤ 192) (blk : Nat) : ∃ t : State, (s.getMeta blk).2 = some (t.initMeta blk) := by
  obtain ⟨t, m, hl, -, hm⟩ := h.loadRow (hangsBelow_metaPlace blk) hn
  refine ⟨t, ?_⟩
  rw [State.getMeta_of_loadRow hl (by rw [hm]; rfl)]

end TreeInitial

/-! ### The training of the ports (R402) -/

/-- The fabric ports below n, each up where it trained. -/
def State.portsTrained (s : State) (up : BitVec 36) (n : Nat) : State :=
  (List.range n).foldl (fun s k => s.setPort k { s.port k with up := up.getLsbD k }) s

section
variable (s : State) (up : BitVec 36) (n : Nat)

theorem State.portsTrained_succ : s.portsTrained up (n + 1) =
    (s.portsTrained up n).setPort n { (s.portsTrained up n).port n with up := up.getLsbD n } := by
  simp [State.portsTrained, List.range_succ]

theorem State.portsTrained_rest (m : SMap Port) : { s.portsTrained up n with ports := m } = { s with ports := m } := by
  induction n with
  | zero => rfl
  | succ n ih =>
    rw [State.portsTrained_succ]
    exact ih

theorem State.port_portsTrained (k : Nat) :
    (s.portsTrained up n).port k = if k < n then { s.port k with up := up.getLsbD k } else s.port k := by
  induction n generalizing k with
  | zero => rfl
  | succ n ih =>
    rw [State.portsTrained_succ]
    by_cases hk : k = n
    · subst hk
      simp [ih]
    · rw [State.port_setPort_other _ _ _ _ hk, ih]
      simp [show k < n + 1 ↔ k < n by omega]

end

/-- A reset leaves what the model keeps across it, and the rest as after power-on (R402; log entries 6 and 12). -/
theorem exec_reset (s : State) : exec .reset s =
    .next { State.reset with turn := s.turn, free := s.free, sealInits := s.sealInits, host := s.host } := rfl

/-- The package with the seal initialised (R136). -/
def State.sealStarted (s : State) : State :=
  { s.enter 4 with keys := SMap.put s.keys 0 { KeySlot.reset with st := .active, key := Config.deviceKey s.sealInits },
                   sealInits := s.sealInits + 1, mcache := [], root := [], rowsKept := [], failedRows := [], failedEngines := [], l2 := [] }

section
variable (s : State)

theorem State.key_sealStarted_zero :
    s.sealStarted.key 0 = { KeySlot.reset with st := .active, key := Config.deviceKey s.sealInits } := by
  simp [State.key, State.sealStarted, SMap.get, SMap.find_put_self]

theorem State.key_sealStarted_other {k : Nat} (h : k ≠ 0) : s.sealStarted.key k = s.key k := by
  simp only [State.key, State.sealStarted, SMap.get, SMap.find_put_other _ _ _ _ h]

theorem State.sealStarted_treeInitial : TreeInitial 0 s.sealStarted :=
  ⟨rfl, rfl, rfl, rfl, Nat.le_refl _, fun _ _ h => by cases h⟩

/-- Every block of data has an entry of zeros but for `z` and the tags. -/
theorem State.getMeta_sealStarted (blk : Nat) : ∃ m, (s.sealStarted.getMeta blk).2 = some m ∧ m.z = true ∧ m.kslot = 0 ∧ m.kgen = 0 ∧
    m.ver = 0 ∧ m.p = false ∧ m.x = false ∧ m.o = false := by
  obtain ⟨t, ht⟩ := s.sealStarted_treeInitial.getMeta (by omega) blk
  exact ⟨_, ht, rfl, rfl, rfl, rfl, rfl, rfl, rfl⟩

/-- The package READY, with its links as they trained (R402). -/
def State.linksUp (up : Trained) : State := { s.enter 5 with cxlDown := !up.cxl }.portsTrained up.fabric 36

variable (up : Trained)

theorem State.linksUp_rest (m : SMap Port) :
    { s.linksUp up with ports := m } = { s.enter 5 with cxlDown := !up.cxl, ports := m } := State.portsTrained_rest ..

theorem State.linksUp_pkc : (s.linksUp up).pkc = (s.enter 5).pkc := by
  have := congrArg State.pkc (s.linksUp_rest up [])
  exact this

theorem State.linksUp_cxlDown : (s.linksUp up).cxlDown = !up.cxl := by
  have := congrArg State.cxlDown (s.linksUp_rest up [])
  exact this

theorem State.linksUp_others : { s.linksUp up with pkc := s.pkc, ports := s.ports, cxlDown := s.cxlDown } = s := by
  have := congrArg (fun t : State => { t with pkc := s.pkc, cxlDown := s.cxlDown }) (s.linksUp_rest up s.ports)
  exact this

theorem State.port_linksUp {k : Nat} (h : k < 36) : (s.linksUp up).port k = { s.port k with up := up.fabric.getLsbD k } :=
  (State.port_portsTrained ..).trans (if_pos h)

end

/-! ### What each event does in its state, and that it does nothing in another (R402) -/

section
variable {s : State}

theorem exec_railsInRange (h : s.pkcState = 0 ∧ s.stopped = false) : exec .railsInRange s = .next (s.enter 1) :=
  congrArg Host.Outcome.next (if_pos h)

theorem exec_clocksLocked (h : s.pkcState = 1 ∧ s.stopped = false) : exec .clocksLocked s = .next { s.enter 2 with tick := 0 } :=
  congrArg Host.Outcome.next (if_pos h)

theorem exec_hbmTrained (h : s.pkcState = 2 ∧ s.stopped = false) : exec .hbmTrained s = .next (s.enter 3) :=
  congrArg Host.Outcome.next (if_pos h)

theorem exec_sealInitDone (h : s.pkcState = 3 ∧ s.stopped = false) : exec .sealInitDone s = .next s.sealStarted :=
  congrArg Host.Outcome.next (if_pos h)

theorem exec_linksTrained (up : Trained) (h : s.pkcState = 4 ∧ s.stopped = false) : exec (.linksTrained up) s = .next (s.linksUp up) :=
  congrArg Host.Outcome.next (if_pos h)

theorem exec_railsInRange_not (h : s.pkcState ≠ 0) : exec .railsInRange s = .next s :=
  congrArg Host.Outcome.next (if_neg fun c => h c.1)

theorem exec_clocksLocked_not (h : s.pkcState ≠ 1) : exec .clocksLocked s = .next s :=
  congrArg Host.Outcome.next (if_neg fun c => h c.1)

theorem exec_hbmTrained_not (h : s.pkcState ≠ 2) : exec .hbmTrained s = .next s :=
  congrArg Host.Outcome.next (if_neg fun c => h c.1)

theorem exec_sealInitDone_not (h : s.pkcState ≠ 3) : exec .sealInitDone s = .next s :=
  congrArg Host.Outcome.next (if_neg fun c => h c.1)

theorem exec_linksTrained_not (up : Trained) (h : s.pkcState ≠ 4) : exec (.linksTrained up) s = .next s :=
  congrArg Host.Outcome.next (if_neg fun c => h c.1)

end

/-! ### The event log, and what a change on a die leaves (R398, R403, R485) -/

/-- t is s with die `die` made d and the entries l written to the event log for that die (R485); of the rest, only the lifetime
counters may have changed. -/
structure DieChange (s : State) (die : Nat) (d : Die) (l : List (Nat × Nat)) (t : State) : Prop where
  rest : { t with dies := s.dies, life := s.life, log := s.log, logCount := s.logCount } = s
  own : t.die die = d
  others : ∀ k, k ≠ die → t.die k = s.die k
  count : t.logCount = s.logCount + BitVec.ofNat 64 l.length
  entries : ∀ i e, l[i]? = some e → SMap.find t.log ((s.logCount.toNat + i) % 64) =
    some (BitVec.ofNat 128 (s.tick.toNat + die * 2 ^ 64 + e.1 * 2 ^ 72 + e.2 % 2 ^ 32 * 2 ^ 80))

namespace DieChange

variable {s t : State} {die : Nat} {d : Die} {l : List (Nat × Nat)}

theorem refl (s : State) (die : Nat) : DieChange s die (s.die die) [] s where
  rest := rfl
  own := rfl
  others := fun _ _ => rfl
  count := by simp
  entries := by simp

theorem tick (h : DieChange s die d l t) : t.tick = s.tick := by
  have := congrArg State.tick h.rest
  exact this

theorem setDie (h : DieChange s die d l t) (e : Die) : DieChange s die e l (t.setDie die e) where
  rest := h.rest
  own := State.die_setDie_self ..
  others := fun k hk => (State.die_setDie_other _ _ _ _ hk).trans (h.others k hk)
  count := h.count
  entries := h.entries

theorem addBand (h : DieChange s die d l t) (base k band n : Nat) : DieChange s die d l (t.addBand base k band n) :=
  ⟨h.rest, h.own, h.others, h.count, h.entries⟩

/-- The count of entries wraps at a multiple of the 64 places of the log, so the next entry's place follows the last one's. -/
theorem logPlace (h : DieChange s die d l t) : t.logCount.toNat % 64 = (s.logCount.toNat + l.length) % 64 := by
  rw [h.count, BitVec.toNat_add, BitVec.toNat_ofNat]
  omega

theorem logEvent (h : DieChange s die d l t) (hd : die < 8) (hl : l.length < 64) (event n : Nat) :
    DieChange s die d (l ++ [(event, n)]) (t.logEvent die event n) where
  rest := h.rest
  own := h.own
  others := h.others
  count := by
    show t.logCount + 1 = _
    rw [h.count, List.length_append, BitVec.add_assoc, BitVec.ofNat_add]
    rfl
  entries := by
    intro i e he
    show SMap.find (SMap.put t.log (t.logCount.toNat % 64) _) _ = _
    rw [h.logPlace]
    rcases Nat.lt_trichotomy i l.length with hi | rfl | hi
    · rw [SMap.find_put_other _ _ _ _ (by omega)]
      exact h.entries i e (by rwa [List.getElem?_append_left hi] at he)
    · obtain rfl : (event, n) = e := by simpa using he
      rw [SMap.find_put_self, h.tick, Nat.mod_eq_of_lt (by omega : die < 256)]
    · rw [List.getElem?_eq_none (by simp; omega)] at he
      cases he

/-- The partitions are as before, and so are their shares of a die. -/
theorem sharers (h : DieChange s die d l t) (k : Nat) (ps : BitVec 20) : t.sharers k ps = s.sharers k ps := by
  have parts := congrArg State.parts h.rest
  have part (p : Nat) : t.part p = s.part p := congrArg (SMap.get Partition.reset · p) parts
  simp only [State.sharers, State.clustersOn, part]

end DieChange

/-! ### Withholding intervals (R398, R403) -/

/-- A die once its withholding interval has begun or ended at a tick, where what it withholds asks for it. -/
def Die.settle (d : Die) (tick : BitVec 64) : Die :=
  if d.withholds && !d.runs then { d with runs := true, saw := true, begun := tick }
  else if !d.withholds && d.runs then { d with runs := false, ended := tick }
  else d

/-- The entry of the event log that this makes. -/
def Die.settleLog (d : Die) : List (Nat × Nat) :=
  if d.withholds && !d.runs then [(1, d.tel.toNat / 2 ^ 32 % 2 ^ 16)]
  else if !d.withholds && d.runs then [(2, d.tel.toNat / 2 ^ 32 % 2 ^ 16)]
  else []

/-! What the beginning or the end of an interval leaves of a die, and what it makes of it. -/

section
variable (d : Die) (tick : BitVec 64)

theorem Die.settle_tel : (d.settle tick).tel = d.tel := by simp [Die.settle, apply_ite Die.tel]

theorem Die.settle_govw : (d.settle tick).govw = d.govw := by simp [Die.settle, apply_ite Die.govw]

theorem Die.settle_hot : (d.settle tick).hot = d.hot := by simp [Die.settle, apply_ite Die.hot]

theorem Die.settle_winAt : (d.settle tick).winAt = d.winAt := by simp [Die.settle, apply_ite Die.winAt]

theorem Die.settle_beyond : (d.settle tick).beyond = d.beyond := by simp [Die.settle, apply_ite Die.beyond]

theorem Die.settle_runs : (d.settle tick).runs = d.withholds := by
  cases hw : d.withholds <;> cases hr : d.runs <;> simp [Die.settle, hw, hr]

end

section
variable {d : Die} (tick : BitVec 64)

theorem Die.settle_begun_of_withholds (hw : d.withholds = true) : (d.settle tick).begun = if d.runs then d.begun else tick := by
  cases hr : d.runs <;> simp [Die.settle, hw, hr]

theorem Die.settle_begun_of_not (hw : d.withholds = false) : (d.settle tick).begun = d.begun := by
  cases hr : d.runs <;> simp [Die.settle, hw, hr]

theorem Die.settle_ended_of_not (hw : d.withholds = false) : (d.settle tick).ended = if d.runs then tick else d.ended := by
  cases hr : d.runs <;> simp [Die.settle, hw, hr]

theorem Die.settleLog_of_withholds (hw : d.withholds = true) :
    d.settleLog = if d.runs then [] else [(1, d.tel.toNat / 2 ^ 32 % 2 ^ 16)] := by
  cases hr : d.runs <;> simp [Die.settleLog, hw, hr]

theorem Die.settleLog_of_not (hw : d.withholds = false) :
    d.settleLog = if d.runs then [(2, d.tel.toNat / 2 ^ 32 % 2 ^ 16)] else [] := by
  cases hr : d.runs <;> simp [Die.settleLog, hw, hr]

end

section
variable {s t : State} {die : Nat} {d : Die} {l : List (Nat × Nat)}

theorem DieChange.govern (h : DieChange s die d l t) (hd : die < 8) (hl : l.length < 64) :
    DieChange s die (d.settle s.tick) (l ++ d.settleLog) (t.govern die) := by
  have amps : nbits d.tel.toNat 47 32 = d.tel.toNat / 2 ^ 32 % 2 ^ 16 := by simp [nbits, Nat.shiftRight_eq_div_pow]
  unfold State.govern Die.settle Die.settleLog
  simp only [h.own, h.tick, amps]
  split
  · exact (h.setDie _).logEvent hd hl ..
  · split
    · exact (h.setDie _).logEvent hd hl ..
    · simpa using h

theorem DieChange.onDie (h : DieChange s die d l t) (hd : die < 8) (hl : l.length < 64) (f : Die → Die) :
    DieChange s die ((f d).settle s.tick) (l ++ (f d).settleLog) (t.onDie die f) := by
  obtain rfl := h.own
  exact (h.setDie _).govern hd hl

theorem DieChange.begins (h : DieChange s die (d.settle s.tick) (l ++ d.settleLog) t) (hw : d.withholds = true) (hr : d.runs = false) :
    DieChange s die { d with runs := true, saw := true, begun := s.tick } (l ++ [(1, d.tel.toNat / 2 ^ 32 % 2 ^ 16)]) t := by
  simpa [Die.settle, Die.settleLog, hw, hr] using h

theorem DieChange.ends (h : DieChange s die (d.settle s.tick) (l ++ d.settleLog) t) (hw : d.withholds = false) (hr : d.runs = true) :
    DieChange s die { d with runs := false, ended := s.tick } (l ++ [(2, d.tel.toNat / 2 ^ 32 % 2 ^ 16)]) t := by
  simpa [Die.settle, Die.settleLog, hw, hr] using h

theorem DieChange.goesOn (h : DieChange s die (d.settle s.tick) (l ++ d.settleLog) t) (hr : d.runs = d.withholds) :
    DieChange s die d l t := by
  simpa [Die.settle, Die.settleLog, hr] using h

end

theorem State.logEvent_life (s : State) (die event n : Nat) : (s.logEvent die event n).life = s.life := rfl

theorem State.onDie_life (s : State) (die : Nat) (f : Die → Die) : (s.onDie die f).life = s.life := by
  simp [State.onDie, State.govern, apply_ite State.life, State.logEvent_life]

/-! ### Readings of the hottest sensor (R399) -/

section
variable {s : State} {die temp : Nat}

theorem State.sense_trips (h : 110 ≤ temp) : s.sense die temp = s.trip die temp := by simp [State.sense, h]

theorem State.sense_throttles (h : 95 ≤ temp) (h' : temp < 110) (hh : (s.die die).hot = false) :
    s.sense die temp = (s.logEvent die 3 temp).onDie die fun d => { d with hot := true } := by
  simp [State.sense, h, hh, Nat.not_le.2 h']

theorem State.sense_recovers (h : temp < 92) (hh : (s.die die).hot = true) :
    s.sense die temp = (s.logEvent die 4 temp).onDie die fun d => { d with hot := false } := by
  simp [State.sense, h, hh, show ¬ 110 ≤ temp by omega]

/-- Between its thresholds a die stays as hot as it was. -/
theorem State.sense_keeps (h : temp < 110) (up : 95 ≤ temp → (s.die die).hot = true) (down : temp < 92 → (s.die die).hot = false) :
    s.sense die temp = s := by
  have warm : ¬ (95 ≤ temp ∧ (s.die die).hot = false) := fun c => by simp [up c.1] at c
  have cool : ¬ (temp < 92 ∧ (s.die die).hot = true) := fun c => by simp [down c.1] at c
  simp only [State.sense, Nat.not_le.2 h, warm, cool, if_false]

end

/-- A throttle or a recovery is logged, and then the die's interval follows its new `hot`. -/
theorem DieChange.hot (s : State) {die : Nat} (hd : die < 8) (event temp : Nat) (b : Bool) :
    DieChange s die (Die.settle { s.die die with hot := b } s.tick) ([(event, temp)] ++ Die.settleLog { s.die die with hot := b })
      ((s.logEvent die event temp).onDie die fun d => { d with hot := b }) :=
  ((DieChange.refl s die).logEvent hd (by simp) event temp).onDie hd (by simp) fun d => { d with hot := b }

/-! ### The end of a governor window (R21, R22, R398, R403, R404) -/

theorem sum_two_pow_lt (q : Nat → Bool) (n : Nat) : (((List.range n).filter q).map (2 ^ ·)).sum < 2 ^ n := by
  induction n with
  | zero => simp
  | succ n ih =>
    rw [List.range_succ, List.filter_append, List.map_append, List.sum_append, Nat.pow_succ]
    have : (([n].filter q).map (2 ^ ·)).sum ≤ 2 ^ n := by cases h : q n <;> simp [h]
    omega

/-- A set of small numbers written as bits is read back. -/
theorem testBit_sum_two_pow (q : Nat → Bool) (n p : Nat) :
    (((List.range n).filter q).map (2 ^ ·)).sum.testBit p = (decide (p < n) && q p) := by
  induction n with
  | zero => simp
  | succ n ih =>
    have below := sum_two_pow_lt q n
    rw [List.range_succ, List.filter_append, List.map_append, List.sum_append]
    cases hq : q n with
    | false =>
      simp only [hq, List.filter_cons, List.filter_nil, List.map_nil, List.sum_nil, Nat.add_zero, ih, Bool.false_eq_true, if_false]
      by_cases hp : p = n
      · simp [hp, hq]
      · simp [show p < n + 1 ↔ p < n by omega]
    | true =>
      simp only [hq, List.filter_cons, List.filter_nil, List.map_cons, List.map_nil, List.sum_cons, List.sum_nil, Nat.add_zero, if_true]
      rw [Nat.add_comm]
      rcases Nat.lt_trichotomy p n with hp | rfl | hp
      · rw [Nat.testBit_two_pow_add_gt hp, ih]
        simp [hp, show p < n + 1 by omega]
      · rw [Nat.testBit_two_pow_add_eq, Nat.testBit_lt_two_pow below]
        simp [hq]
      · have : 2 ^ (n + 1) ≤ 2 ^ p := Nat.pow_le_pow_right (by omega) hp
        rw [Nat.testBit_lt_two_pow (by omega)]
        simp [show ¬ p < n + 1 by omega]

theorem State.getLsbD_sharers (s : State) (die p : Nat) (ps : BitVec 20) :
    (s.sharers die ps).getLsbD p = true ↔ p < 20 ∧ ps.getLsbD p = true ∧ s.clustersOn die p ≠ 0 := by
  simp only [State.sharers, BitVec.getLsbD_ofNat, testBit_sum_two_pow]
  simp

theorem bits_ne_zero_iff {n : Nat} (x : BitVec n) : x ≠ 0 ↔ ∃ i, x.getLsbD i = true := by
  constructor
  · intro h
    refine Classical.byContradiction fun none => h (BitVec.eq_of_getLsbD_eq fun i _ => ?_)
    rw [Bool.eq_false_iff.2 fun hi => none ⟨i, hi⟩]
    exact BitVec.getLsbD_zero.symm
  · rintro ⟨i, hi⟩ rfl
    simp at hi

theorem State.get_life_bumpLife (s : State) (w n k : Nat) :
    SMap.get 0 (s.bumpLife w n).life k = SMap.get 0 s.life k + if k = w then BitVec.ofNat 64 n else 0 := by
  show SMap.get 0 (SMap.set 0 s.life w _) k = _
  rw [SMap.get_set]
  split
  · subst_vars; rfl
  · simp

/-- The two histograms of a die, whose counters lie apart (R404). -/
theorem State.get_life_addBands (s : State) (die a b n w : Nat) :
    SMap.get 0 ((s.addBand 0x20 die a n).addBand 0xA0 die b n).life w = SMap.get 0 s.life w +
      if w = 0x20 + 16 * die + min 15 a ∨ w = 0xA0 + 16 * die + min 15 b then BitVec.ofNat 64 n else 0 := by
  simp only [State.addBand, State.get_life_bumpLife]
  by_cases ha : w = 0x20 + 16 * die + min 15 a
  · simp [ha, show 0x20 + 16 * die + min 15 a ≠ 0xA0 + 16 * die + min 15 b by omega]
  · simp [ha]

theorem toNat_append_eq {m n : Nat} (x : BitVec m) (y : BitVec n) : (x ++ y).toNat = x.toNat * 2 ^ n + y.toNat := by
  rw [BitVec.toNat_append, ← Nat.shiftLeft_add_eq_or_of_lt y.isLt, Nat.shiftLeft_eq]

/-- `TEL` as a number (R403). -/
theorem toNat_telemetry (g : GovReading) : ((0 : BitVec 16) ++ g.amps ++ g.watts ++ g.mv ++ g.temp).toNat =
    g.temp.toNat + g.mv.toNat * 2 ^ 8 + g.watts.toNat * 2 ^ 16 + g.amps.toNat * 2 ^ 32 := by
  simp only [toNat_append_eq, show (0 : BitVec 16).toNat = 0 from rfl]
  omega

/-- A die with a window's reading in its telemetry, at the start of the next window (R398, R403). -/
def State.readDie (s : State) (die : Nat) (g : GovReading) : Die :=
  { s.die die with
    tel := (0 : BitVec 16) ++ g.amps ++ g.watts ++ g.mv ++ g.temp
    govw := if (s.die die).saw then (s.die die).govw + g.withheld else (s.die die).govw
    winAt := s.tick, cards := 0, work := 0, formed := [], saw := false }

/-- The same, with the partitions that are withheld in that window. -/
def State.windowDie (s : State) (die : Nat) (g : GovReading) : Die :=
  { s.readDie die g with beyond := s.sharers die g.beyond, plane := false }

/-- The package with the reading taken and its time counted in the histograms (R403, R404). -/
def State.windowRead (s : State) (die : Nat) (g : GovReading) : State :=
  ((s.setDie die (s.readDie die g)).addBand 0x20 die (g.temp.toNat / 8) (s.tick.toNat - (s.die die).winAt.toNat)).addBand
    0xA0 die (g.amps.toNat / 160) (s.tick.toNat - (s.die die).winAt.toNat)

/-- The package once the withholding of the next window is decided as well (R398). -/
def State.windowSettled (s : State) (die : Nat) (g : GovReading) : State :=
  (s.windowRead die g).onDie die fun d => { d with beyond := (s.windowRead die g).sharers die g.beyond, plane := false }

/-- The registers that show a die's withholding interval from the end of a window (R403). -/
def Die.shown (d : Die) : Die := { d with govs := d.begun, gove := if d.runs then 0 else d.ended, saw := d.runs }

section
variable {s : State} {die : Nat} {g : GovReading}

/-- A new window withholds where the die is hot or a partition with clusters there is beyond its share. -/
theorem State.windowDie_withholds : (s.windowDie die g).withholds = true ↔
    (s.die die).hot = true ∨ ∃ p, p < 20 ∧ g.beyond.getLsbD p = true ∧ s.clustersOn die p ≠ 0 := by
  simp only [Die.withholds, State.windowDie, State.readDie, Bool.or_false, Bool.or_eq_true, bne_iff_ne, bits_ne_zero_iff, State.getLsbD_sharers]

theorem State.windowDie_tel : (s.windowDie die g).tel =
    BitVec.ofNat 64 (g.temp.toNat + g.mv.toNat * 2 ^ 8 + g.watts.toNat * 2 ^ 16 + g.amps.toNat * 2 ^ 32) := by
  rw [← toNat_telemetry g, BitVec.ofNat_toNat]
  exact (BitVec.setWidth_eq _).symm

theorem State.windowDie_amps : (s.windowDie die g).tel.toNat / 2 ^ 32 % 2 ^ 16 = g.amps.toNat := by
  have tel : (s.windowDie die g).tel.toNat = _ := toNat_telemetry g
  have := g.amps.isLt
  have := g.watts.isLt
  have := g.mv.isLt
  have := g.temp.isLt
  rw [tel]
  omega

theorem State.windowRead_change (s : State) (die : Nat) (g : GovReading) : DieChange s die (s.readDie die g) [] (s.windowRead die g) :=
  (((DieChange.refl s die).setDie (s.readDie die g)).addBand ..).addBand ..

theorem State.windowSettled_change (hd : die < 8) :
    DieChange s die ((s.windowDie die g).settle s.tick) (s.windowDie die g).settleLog (s.windowSettled die g) := by
  have c := (s.windowRead_change die g).onDie hd (by simp) fun d =>
    { d with beyond := (s.windowRead die g).sharers die g.beyond, plane := false }
  have next : { s.readDie die g with beyond := (s.windowRead die g).sharers die g.beyond, plane := false } = s.windowDie die g := by
    rw [(s.windowRead_change die g).sharers]
    rfl
  rw [next] at c
  exact c

theorem State.get_life_windowSettled (w : Nat) : SMap.get 0 (s.windowSettled die g).life w = SMap.get 0 s.life w +
    if w = 0x20 + 16 * die + min 15 (g.temp.toNat / 8) ∨ w = 0xA0 + 16 * die + min 15 (g.amps.toNat / 160)
    then BitVec.ofNat 64 (s.tick.toNat - (s.die die).winAt.toNat) else 0 := by
  rw [State.windowSettled, State.onDie_life, State.windowRead, State.get_life_addBands, State.setDie_life]

/-- The end of a window in which the die neither heats up to a threshold nor cools down to one. -/
theorem exec_governorWindow (hp : 2 ≤ s.pkcState) (hs : s.stopped = false) (hd : die < 8) (due : (s.die die).due.toNat ≤ s.tick.toNat)
    (hg : governed g = true) (cool : g.temp.toNat < 95) (steady : 92 ≤ g.temp.toNat ∨ (s.die die).hot = false) :
    exec (.governorWindow die g) s =
      .next ((s.windowSettled die g).setDie die ((s.windowDie die g).settle s.tick).shown) := by
  have own := (State.windowSettled_change (s := s) (g := g) hd).own
  have sense : (s.windowSettled die g).sense die g.temp.toNat = s.windowSettled die g := by
    apply State.sense_keeps (by omega) (by omega)
    intro h
    rw [own, Die.settle_hot]
    exact steady.resolve_left (by omega)
  show Host.Outcome.next (ite _ _ _) = _
  rw [if_neg (by simp [hs, hg]; omega)]
  show Host.Outcome.next (((s.windowSettled die g).sense die g.temp.toNat).setDie die
    (((s.windowSettled die g).sense die g.temp.toNat).die die).shown) = _
  rw [sense, own]

end

/-! ### What the events of a die do (R398, R399, R485) -/

section
variable {s : State} {die : Nat} {temp : BitVec 8} {g : GovReading}

theorem exec_governorWindow_early (h : s.tick.toNat < (s.die die).due.toNat) : exec (.governorWindow die g) s = .next s :=
  congrArg Host.Outcome.next (if_pos (by simp [h]))

theorem exec_tempThrottle_below (h : temp.toNat < 95) : exec (.tempThrottle die temp) s = .next s :=
  congrArg Host.Outcome.next (if_pos (by simp [h]))

theorem exec_tempRecover_above (h : 92 ≤ temp.toNat) : exec (.tempRecover die temp) s = .next s :=
  congrArg Host.Outcome.next (if_pos (by simp [h]))

theorem exec_thermalTrip_below (h : temp.toNat < 110) : exec (.thermalTrip die temp) s = .next s :=
  congrArg Host.Outcome.next (if_pos (by simp [h]))

theorem exec_tempThrottle (hs : s.stopped = false) (hd : die < 8) (h : 95 ≤ temp.toNat) :
    exec (.tempThrottle die temp) s = .next (s.sense die temp.toNat) :=
  congrArg Host.Outcome.next (if_neg (by simp [hs]; omega))

theorem exec_tempRecover (hs : s.stopped = false) (hd : die < 8) (h : temp.toNat < 92) :
    exec (.tempRecover die temp) s = .next (s.sense die temp.toNat) :=
  congrArg Host.Outcome.next (if_neg (by simp [hs]; omega))

theorem exec_thermalTrip (hs : s.stopped = false) (hd : die < 8) (h : 110 ≤ temp.toNat) :
    exec (.thermalTrip die temp) s = .next (s.trip die temp.toNat) := by
  rw [← State.sense_trips h]
  exact congrArg Host.Outcome.next (if_neg (by simp [hs]; omega))

theorem exec_railOutOfRange (hs : s.stopped = false) (hd : die < 8) (v : BitVec 32) :
    exec (.railOutOfRange die v) s = .next (s.logEvent die 6 v.toNat) :=
  congrArg Host.Outcome.next (if_neg (by simp [hs]; omega))

end

theorem governed_of {g : GovReading} (ha : g.amps.toNat ≤ 2500) (hw : g.watts.toNat ≤ 1050) (hl : 105 ≤ g.mv.toNat)
    (hh : g.mv.toNat ≤ 137) : governed g = true := by simp [governed, ha, hw, hl, hh]

/-- Settles O50: each event by its equation, and the events of a die by `DieChange`, which says what they leave of the die, of the other
dies and of the event log. The statement rests on choices of the model where the rules leave them open: host memory and the count of
seals outlast a reset (log entries 6 and 12), and the withholding by temperature and the windows of a governor are those of log
entries 96 and 137. -/
theorem powerAndBringUp : Obligations.PowerAndBringUp := by
  unfold Obligations.PowerAndBringUp
  intro s enters at_
  have entered {i : Instr} {n : Nat} {t : State} (hn : n < 16) (ht : exec i s = .next t) (hp : t.pkc = (s.enter n).pkc) : enters i n t :=
    ⟨ht, by rw [State.pkcState, hp]; exact State.pkcState_enter s hn, by rw [hp]; exact State.pkc_enter_high s hn⟩
  refine ⟨⟨_, exec_reset s, rfl, rfl, rfl⟩, ?_, ?_, ?_, ?_, ?_, ?_, ?_⟩
  · exact fun h => ⟨_, entered (by omega) (exec_railsInRange h) rfl, rfl⟩
  · exact fun h => ⟨_, entered (by omega) (exec_clocksLocked h) rfl, rfl, rfl⟩
  · exact fun h => ⟨_, entered (by omega) (exec_hbmTrained h) rfl, rfl⟩
  · exact fun h => ⟨_, entered (by omega) (exec_sealInitDone h) rfl, by rw [State.key_sealStarted_zero], by rw [State.key_sealStarted_zero],
      rfl, rfl, rfl, fun _ hk => s.key_sealStarted_other hk, fun blk _ _ => s.getMeta_sealStarted blk⟩
  · intro up cxl h
    exact ⟨_, entered (by omega) (exec_linksTrained _ h) (State.linksUp_pkc ..), State.linksUp_others .., State.linksUp_cxlDown ..,
      fun k hk => State.port_linksUp s _ hk⟩
  · rintro n up cxl ⟨rfl, -⟩
    exact ⟨exec_railsInRange_not, exec_clocksLocked_not, exec_hbmTrained_not, exec_sealInitDone_not, exec_linksTrained_not _⟩
  · intro die temp hp hs hd d amps only logs
    have changes {e : Die} {l : List (Nat × Nat)} {t : State} (c : DieChange s die e l t) : only e t ∧ logs l t :=
      ⟨⟨c.own, c.others⟩, c.count, c.entries⟩
    refine ⟨fun g => ⟨?_, exec_governorWindow_early⟩, ?_, ?_, ?_, ?_, ?_, exec_thermalTrip_below, ?_⟩
    -- The end of a governor window.
    · intro due ha hw hl hh cool steady tel beyond_ on
      have c := (State.windowSettled_change (s := s) (g := g) hd).setDie ((s.windowDie die g).settle s.tick).shown
      have withholds : (s.windowDie die g).withholds = true ↔ on := State.windowDie_withholds
      have rests (h : ¬ on) : (s.windowDie die g).withholds = false := Bool.eq_false_iff.2 (mt withholds.1 h)
      have runs : ((s.windowDie die g).settle s.tick).runs = (s.windowDie die g).withholds := Die.settle_runs ..
      refine ⟨_, exec_governorWindow hp hs hd due (governed_of ha hw hl hh) cool steady, c.rest, ?_, c.others, ?_⟩
      · exact fun w => by rw [State.setDie_life, State.get_life_windowSettled]
      rw [c.own]
      refine ⟨(Die.settle_tel ..).trans State.windowDie_tel, Die.settle_govw .., Die.settle_winAt .., Die.settle_hot .., fun p => ?_, ?_,
        fun hon => ⟨?_, ?_, ?_⟩, fun hon => ⟨?_, ?_, ?_⟩⟩
      · show ((s.windowDie die g).settle s.tick).beyond.getLsbD p = true ↔ _
        rw [Die.settle_beyond]
        exact State.getLsbD_sharers ..
      · exact (Bool.coe_iff_coe.2 runs).trans withholds
      · exact Die.settle_begun_of_withholds _ (withholds.2 hon)
      · exact if_pos (runs.trans (withholds.2 hon))
      · have := (changes c).2
        rwa [Die.settleLog_of_withholds (withholds.2 hon), State.windowDie_amps] at this
      · exact Die.settle_begun_of_not _ (rests hon)
      · exact (if_neg (by simp [runs, rests hon])).trans (Die.settle_ended_of_not _ (rests hon))
      · have := (changes c).2
        rwa [Die.settleLog_of_not (rests hon), State.windowDie_amps] at this
    -- TEMP_THROTTLE.
    · intro low high cold
      have c := DieChange.hot s hd 3 temp.toNat true
      have withholds : Die.withholds { s.die die with hot := true } = true := rfl
      refine ⟨_, (exec_tempThrottle hs hd low).trans (congrArg _ (State.sense_throttles low high cold)), fun hr => ?_, fun hr => ?_⟩
      · exact changes (c.goesOn (hr.trans withholds.symm))
      · exact changes (c.begins withholds hr)
    · intro h
      by_cases low : temp.toNat < 95
      · exact exec_tempThrottle_below low
      · obtain ⟨high, hot⟩ := h.resolve_left low
        rw [exec_tempThrottle hs hd (by omega), State.sense_keeps high (fun _ => hot) (by omega)]
    -- TEMP_RECOVER.
    · intro low hot
      have c := DieChange.hot s hd 4 temp.toNat false
      refine ⟨_, (exec_tempRecover hs hd low).trans (congrArg _ (State.sense_recovers low hot)), ?_⟩
      intro still
      have withholds : Die.withholds { s.die die with hot := false } = true ↔ still := by simp [Die.withholds, still, d]
      have rests (h : ¬ still) : Die.withholds { s.die die with hot := false } = false := Bool.eq_false_iff.2 (mt withholds.1 h)
      refine ⟨fun hw hr => ?_, fun hw hr => ?_, fun hw hr => ?_⟩
      · exact changes (c.goesOn (hr.trans (withholds.2 hw).symm))
      · exact changes (c.ends (rests hw) hr)
      · exact changes (c.goesOn (hr.trans (rests hw).symm))
    · intro h
      by_cases high : 92 ≤ temp.toNat
      · exact exec_tempRecover_above high
      · rw [exec_tempRecover hs hd (by omega), State.sense_keeps (by omega) (by omega) (fun _ => h.resolve_left high)]
    -- THERMAL_TRIP.
    · intro high
      have c := (DieChange.refl s die).logEvent hd (by simp) 5 temp.toNat
      exact ⟨_, entered (by omega) (exec_thermalTrip hs hd high) rfl, rfl, c.count, c.entries⟩
    -- RAIL_OUT_OF_RANGE.
    · intro v
      have c := (DieChange.refl s die).logEvent hd (by simp) 6 v.toNat
      exact ⟨_, exec_railOutOfRange hs hd v, rfl, c.count, c.entries⟩

end Sys2Proof.Machine
